-- ==== Sys2Proof/Word.lean ====
section
/-!
DEFINITION. The word types of the Graelo 480 and their plainest arithmetic (R3, R5).
-/
namespace Sys2Proof

/-- One byte of memory. -/
abbrev Byte := BitVec 8

/-- A 32-bit register value of one thread, or a thread mask (bit t for thread t). -/
abbrev W32 := BitVec 32

/-- A 64-bit value: a uniform register, a moment, a W64 encoding. -/
abbrev W64 := BitVec 64

/-- A virtual address of 57 bits (R297), also a PC (R40). -/
abbrev VAddr := BitVec 57

/-- Bit `i` of a natural number. -/
def bitAt (x i : Nat) : Bool := x.testBit i

/-- Bits `hi` down to `lo` of a natural number, inclusive at both ends (R3). -/
def bitsOf (x hi lo : Nat) : Nat := (x >>> lo) % 2 ^ (hi + 1 - lo)

/-- The 32 thread indices of a strand in ascending order (R63). -/
def threads : List Nat := List.range 32

/-- Little-endian value of a byte list: the first byte is the least significant (R5). -/
def leVal : List Byte → Nat
  | [] => 0
  | b :: bs => b.toNat + 256 * leVal bs

/-- The `n` little-endian bytes of a value (R5). -/
def leBytes : Nat → Nat → List Byte
  | 0, _ => []
  | n + 1, x => BitVec.ofNat 8 x :: leBytes n (x / 256)

/-- The unsigned number below 2^w that represents an integer in two's complement (R88). -/
def toWrap (w : Nat) (x : Int) : Nat := (x % (2 ^ w : Nat)).toNat

/-- The signed reading of the low `w` bits of a number (R88). -/
def sgn (w : Nat) (x : Nat) : Int :=
  let y := x % 2 ^ w
  if y < 2 ^ (w - 1) then (y : Int) else (y : Int) - (2 ^ w : Nat)

/-- An integer limited to a range. -/
def clampInt (lo hi x : Int) : Int := if x < lo then lo else if hi < x then hi else x

/-- The quotient rounded up of two naturals. -/
def ceilDiv (a b : Nat) : Nat := (a + b - 1) / b

/-- Whether bit `t` of a mask is set. -/
def inMask (m : W32) (t : Nat) : Bool := m.getLsbD t

/-- The threads of a mask in ascending order. -/
def maskThreads (m : W32) : List Nat := threads.filter (inMask m)

/-- The mask of a list of threads. -/
def maskOf (ts : List Nat) : W32 := ts.foldl (fun m t => m ||| (1#32 <<< t)) 0#32

end Sys2Proof
end

