-- ==== Sys2Proof/Syntax.lean ====
section
/-!
DEFINITION. The instructions of the Graelo 480 and the machine's steps that no instruction word encodes:
one constructor of Instr per row of spec/opcode_table.json. Operand specifiers and modifier codes are those of R49 and R54.
-/
namespace Sys2Proof

/-- The sixteen type codes of R54, in code order. -/
inductive Ty
  | i8 | i16 | i32 | i64 | n8 | n16 | n32 | n64 | b32 | b64 | g8 | g16 | f16 | f32 | f64 | m64
  deriving DecidableEq, Repr

/-- The rounding modes of R54 and R94, in code order. -/
inductive Rnd
  | rne | rtz | rup | rdn | rna | sr
  deriving DecidableEq, Repr

/-- The memory scopes of R54, in code order. -/
inductive Scope
  | strand | core | cluster | die | module | fabric
  deriving DecidableEq, Repr

/-- The access kinds of R54, in code order. -/
inductive Kind
  | plain | acq | rel | full
  deriving DecidableEq, Repr

/-- The covariance modes of R54 and R172, in code order: ctl takes %ctl.cov. -/
inductive Cov
  | ctl | ind | pos | neg | rho
  deriving DecidableEq, Repr

/-- The special registers of R76, in number order. -/
inductive SReg
  | tid | sidx | bsize | bidx | bidy | bidz | lane | core | module | slot | job | mask | dmask | fmask | xmask
  | valloc | kalloc | malloc | aalloc | cycle | ctl | mflag | fflag | mrow | evec | uvec | uepc | tsave | hstate
  | ecause | epc | eopc | emod | efd | efa | efb | egrd
  deriving DecidableEq, Repr

/-- An operand specifier of R49. -/
inductive Opnd
  | v (n : BitVec 8)
  | k (n : BitVec 6)
  | p (n : BitVec 3)
  | m (n : BitVec 6)
  | a (n : BitVec 6)
  | s (r : SReg)
  | imm (x : BitVec 17)
  | g (x : BitVec 16)
  | pair (b c : BitVec 8)
  | none
  deriving DecidableEq, Repr

/-- The guard, hint byte and UNI bit of a word (R39). -/
structure Hdr where
  gn : Bool
  gp : BitVec 3
  stall : BitVec 3
  yld : Bool
  ks : Bool
  kd : Bool
  wsb : Bool
  hx : Bool
  uni : Bool
  deriving DecidableEq, Repr

/-- The sources of an instruction with a wide form: two operands (F = 0), or the 42-bit literal with the
destination as first source (F = 1, R53). -/
inductive Srcs
  | two (a b : Opnd)
  | wide (l : BitVec 42)
  deriving DecidableEq, Repr

/-- Plain, saturating or carry form of IADD and ISUB (R120). -/
inductive AddMode
  | wrap
  | sat
  | carry (q : BitVec 3)
  deriving DecidableEq, Repr

/-- ICMP's conditions (R126). -/
inductive ICond
  | eq | ne | lt | le | gt | ge
  deriving DecidableEq, Repr

/-- FCMP's conditions (R131). -/
inductive FCond
  | eq | ne | lt | le | gt | ge | un | ord
  deriving DecidableEq, Repr

/-- The Q-formats (R105). -/
inductive QFmt
  | q2 | q3 | q4
  deriving DecidableEq, Repr

/-- PMOV's forms (R142). -/
inductive PForm
  | test | pack | unpack
  deriving DecidableEq, Repr

/-- SHFL's modes (R149). -/
inductive ShflMode
  | abs | rot | bfly | rev
  deriving DecidableEq, Repr

/-- The operations of REDX and SCAN (R144). -/
inductive RedOp
  | add | min | max | and | or | xor
  deriving DecidableEq, Repr

/-- MGET's selections (R184). -/
inductive MgetSel
  | mu | var | both
  deriving DecidableEq, Repr

/-- MCLP's selections (R192). -/
inductive MclpSel
  | mean | sdev | bound | sample
  deriving DecidableEq, Repr

/-- MCHK's tests (R194). -/
inductive MchkSel
  | vneg | nan | inf | bad
  deriving DecidableEq, Repr

/-- The register class of GROW and SHRK (R241). -/
inductive GClass
  | v | k | m
  deriving DecidableEq, Repr

/-- MKM's update of the plane (R374). -/
inductive MkmOp
  | set | or | andn
  deriving DecidableEq, Repr

/-- CSIG's operations (R422). -/
inductive SigOp
  | add | set | or
  deriving DecidableEq, Repr

/-- SWAIT's conditions (R423). -/
inductive SigCond
  | ge | eq | ne
  deriving DecidableEq, Repr

/-- What the other modules of a set report in a fabric sweep (R391, R433): their sums; that one of them has opened the class (R432);
that a WQT waits there, and that one of those waits closes the class (R395). -/
structure SweepSum where
  s : Nat
  c : Nat
  l : Nat
  a : Bool
  p : Bool
  opens : Bool := false
  waits : Bool := false
  closes : Bool := false
  deriving DecidableEq, Repr

/-- A participant's digest of its collective command (R430): the shared fields in order. -/
abbrev Digest := List Nat

/-- What TRACKED_WRITE_LAND lands (R44, R347): every element that an instruction in flight still has, one after the other, or
that of one thread. -/
inductive LandOf
  | all (id : Nat)
  | one (id t : Nat)
  deriving DecidableEq, Repr

/-- What SECTOR_LAND does for an engine command (R253, R350): a landing, or the reading of a source sector ahead of its landings. -/
inductive EngMove
  | land (n : Nat)
  | ahead (va : Nat)
  deriving DecidableEq, Repr

/-- What MATRIX_ROW_COMMIT does at an array pair (R270, R290): a row, or the fetching of a sector ahead for the running pass or
tile command. -/
inductive RowMove
  | commit (pair : Nat)
  | ahead (pair : Nat) (pass : Bool) (va : Nat)
  deriving DecidableEq, Repr

/-- Who launches (R298, R443): a host, by the submission at hand in a queue of a function; or a Puermum hart for itself, by a
descriptor of its own (log 41). -/
inductive LaunchBy
  | host (fn : Nat)
  | hart (desc : List Byte)
  deriving DecidableEq, Repr

/-- What VRED_REDUCE does for a VRED, by the command's number (R351, R397): its sums, and once they stand in M its flag; or the reading
of a source sector ahead of its sum. -/
inductive VredMove
  | reduce (vat id : Nat)
  | read (vat id va : Nat)
  deriving DecidableEq, Repr

/-- One window of a per-master access table (R450). -/
structure AccWin where
  base : Nat
  len : Nat
  rd : Bool
  wr : Bool
  deriving DecidableEq, Repr

/-- A message of a marker wave (R382): the job and class that count it, the wave's command stamp, the target and
source fabric node ids, the edge's type, weight and position, the hop, the value's words and, for a handler's
spawn, its order. -/
structure WaveMsg where
  job : Nat
  cls : Nat
  wave : Nat
  target : Nat
  source : Nat
  etype : Nat
  weight : BitVec 16
  pos : Nat
  spawn : Nat
  hop : Nat
  val : List (BitVec 64)
  deriving DecidableEq, Repr

/-- The registers that REGISTER_WRITE names: those whose write has no behaviour of its own (R6). -/
inductive RegName
  | sqbase (fn q : Nat)
  | cqbase (fn q : Nat)
  | sqsize (fn q : Nat)
  | cqsize (fn q : Nat)
  | weight (fn q : Nat)
  | keyChunks
  | screenRate (die : Nat)
  | blockedLimit
  | evtSource (unit n : Nat)
  | readOnly (unit off : Nat)
  | asidRoot (asid : Nat)
  deriving DecidableEq, Repr

/-- Every step of the machine that spec/opcode_table.json lists: first the 171 instructions, whose `h` holds the
guard, hints and UNI bit, then the 96 steps that no word encodes, each naming the unit it happens in and what the
outside world supplies. -/
inductive Instr
  /-- IADD (R121). Integer addition, optionally with carry predicate or saturation. -/
  | iadd (h : Hdr) (ty : Ty) (md : AddMode) (d : Opnd) (src : Srcs)
  /-- ISUB (R121). Integer subtraction, optionally with borrow predicate or saturation. -/
  | isub (h : Hdr) (ty : Ty) (md : AddMode) (d : Opnd) (src : Srcs)
  /-- IMUL (R121). Integer multiplication, low half, wrapping or saturating. -/
  | imul (h : Hdr) (ty : Ty) (sat : Bool) (d : Opnd) (src : Srcs)
  /-- IMULH (R121). High half of the exact integer product. -/
  | imulh (h : Hdr) (ty : Ty) (d a b : Opnd)
  /-- IMAD (R121). Integer multiply-add a × b + c. -/
  | imad (h : Hdr) (ty : Ty) (sat : Bool) (d a b : Opnd)
  /-- IMIN (R122). Signed or unsigned integer minimum. -/
  | imin (h : Hdr) (ty : Ty) (d : Opnd) (src : Srcs)
  /-- IMAX (R122). Signed or unsigned integer maximum. -/
  | imax (h : Hdr) (ty : Ty) (d : Opnd) (src : Srcs)
  /-- IABS (R122). Integer absolute value. -/
  | iabs (h : Hdr) (ty : Ty) (sat : Bool) (d a : Opnd)
  /-- INEG (R122). Integer negation. -/
  | ineg (h : Hdr) (ty : Ty) (sat : Bool) (d a : Opnd)
  /-- AND (R122). Bitwise and. -/
  | and (h : Hdr) (ty : Ty) (d : Opnd) (src : Srcs)
  /-- OR (R122). Bitwise or. -/
  | or (h : Hdr) (ty : Ty) (d : Opnd) (src : Srcs)
  /-- XOR (R122). Bitwise exclusive or. -/
  | xor (h : Hdr) (ty : Ty) (d : Opnd) (src : Srcs)
  /-- ANDN (R122). Bitwise a AND NOT b. -/
  | andn (h : Hdr) (ty : Ty) (d : Opnd) (src : Srcs)
  /-- NOT (R122). Bitwise complement. -/
  | not (h : Hdr) (ty : Ty) (d a : Opnd)
  /-- SHL (R123). Logical shift left. -/
  | shl (h : Hdr) (ty : Ty) (d a b : Opnd)
  /-- SHR (R123). Logical shift right. -/
  | shr (h : Hdr) (ty : Ty) (d a b : Opnd)
  /-- SAR (R123). Arithmetic shift right. -/
  | sar (h : Hdr) (ty : Ty) (d a b : Opnd)
  /-- ROL (R123). Rotate left. -/
  | rol (h : Hdr) (ty : Ty) (d a b : Opnd)
  /-- POPC (R123). Population count. -/
  | popc (h : Hdr) (ty : Ty) (d a : Opnd)
  /-- CLZ (R123). Count leading zeros. -/
  | clz (h : Hdr) (ty : Ty) (d a : Opnd)
  /-- CTZ (R123). Count trailing zeros. -/
  | ctz (h : Hdr) (ty : Ty) (d a : Opnd)
  /-- BREV (R123). Bit reversal. -/
  | brev (h : Hdr) (ty : Ty) (d a : Opnd)
  /-- BFX (R124). Bit field extract. -/
  | bfx (h : Hdr) (ty : Ty) (d a b : Opnd)
  /-- BFI (R124). Bit field insert. -/
  | bfi (h : Hdr) (ty : Ty) (d a b : Opnd)
  /-- LEA (R125). Address computation a + b × 2^s. -/
  | lea (h : Hdr) (ty : Ty) (s : BitVec 3) (d a b : Opnd)
  /-- MOV (R125). Register move of raw bits. -/
  | mov (h : Hdr) (ty : Ty) (d a : Opnd)
  /-- MOVI (R125). Load an immediate or wide literal constant. -/
  | movi (h : Hdr) (ty : Ty) (d : Opnd) (src : Srcs)
  /-- SEL (R125). Select between two values by a predicate. -/
  | sel (h : Hdr) (ty : Ty) (q : BitVec 3) (neg : Bool) (d a b : Opnd)
  /-- ICMP (R126). Integer compare writing a predicate. -/
  | icmp (h : Hdr) (ty : Ty) (c : ICond) (d a b : Opnd)
  /-- FADD (R128). Floating addition rounded once. -/
  | fadd (h : Hdr) (ty : Ty) (rnd : Rnd) (sat x2 : Bool) (d : Opnd) (src : Srcs)
  /-- FSUB (R128). Floating subtraction rounded once. -/
  | fsub (h : Hdr) (ty : Ty) (rnd : Rnd) (sat x2 : Bool) (d : Opnd) (src : Srcs)
  /-- FMUL (R128). Floating multiplication rounded once. -/
  | fmul (h : Hdr) (ty : Ty) (rnd : Rnd) (sat x2 : Bool) (d : Opnd) (src : Srcs)
  /-- FFMA (R128). Fused multiply-add rounded once. -/
  | ffma (h : Hdr) (ty : Ty) (rnd : Rnd) (sat x2 : Bool) (d a b : Opnd)
  /-- FMIN (R130). Floating minimum passing over NaNs. -/
  | fmin (h : Hdr) (ty : Ty) (x2 : Bool) (d : Opnd) (src : Srcs)
  /-- FMAX (R130). Floating maximum passing over NaNs. -/
  | fmax (h : Hdr) (ty : Ty) (x2 : Bool) (d : Opnd) (src : Srcs)
  /-- FABS (R130). Clear the sign bit. -/
  | fabs (h : Hdr) (ty : Ty) (x2 : Bool) (d a : Opnd)
  /-- FNEG (R130). Invert the sign bit. -/
  | fneg (h : Hdr) (ty : Ty) (x2 : Bool) (d a : Opnd)
  /-- FCMP (R131). Floating compare writing a predicate. -/
  | fcmp (h : Hdr) (ty : Ty) (c : FCond) (d a b : Opnd)
  /-- FCLS (R131). Floating classification test writing a predicate. -/
  | fcls (h : Hdr) (ty : Ty) (d a b : Opnd)
  /-- FSCL (R132). Scale by a power of two. -/
  | fscl (h : Hdr) (ty : Ty) (rnd : Rnd) (sat : Bool) (d a b : Opnd)
  /-- FRND (R132). Round to an integral value in the same format. -/
  | frnd (h : Hdr) (ty : Ty) (rnd : Rnd) (d a : Opnd)
  /-- FRCP (R133). Correctly rounded reciprocal. -/
  | frcp (h : Hdr) (ty : Ty) (d a : Opnd)
  /-- FRSQ (R133). Correctly rounded reciprocal square root. -/
  | frsq (h : Hdr) (ty : Ty) (d a : Opnd)
  /-- FSQRT (R128). Square root rounded once. -/
  | fsqrt (h : Hdr) (ty : Ty) (rnd : Rnd) (d a : Opnd)
  /-- FDIV (R128). Division rounded once. -/
  | fdiv (h : Hdr) (ty : Ty) (rnd : Rnd) (sat : Bool) (d a b : Opnd)
  /-- FEX2 (R133). Base-2 exponential. -/
  | fex2 (h : Hdr) (ty : Ty) (d a : Opnd)
  /-- FLG2 (R133). Base-2 logarithm. -/
  | flg2 (h : Hdr) (ty : Ty) (d a : Opnd)
  /-- FTRG (R133). Sine or cosine. -/
  | ftrg (h : Hdr) (ty : Ty) (cos : Bool) (d a : Opnd)
  /-- FTNH (R133). Hyperbolic tangent. -/
  | ftnh (h : Hdr) (ty : Ty) (d a : Opnd)
  /-- FERF (R133). Error function. -/
  | ferf (h : Hdr) (ty : Ty) (d a : Opnd)
  /-- FPHI (R133). Standard normal distribution function. -/
  | fphi (h : Hdr) (ty : Ty) (d a : Opnd)
  /-- FDOT (R134). Short dot product summed in the fixed tree into an F32 result. -/
  | fdot (h : Hdr) (ty : Ty) (rnd : Rnd) (sat : Bool) (d a b : Opnd)
  /-- CVT (R135). Convert one value between types under a rounding mode. -/
  | cvt (h : Hdr) (rnd : Rnd) (dt st : Ty) (sat : Bool) (d a : Opnd)
  /-- CVTS (R136). Convert a scaled value in one rounding. -/
  | cvts (h : Hdr) (rnd : Rnd) (dt st : Ty) (sat : Bool) (d a b : Opnd)
  /-- PACK (R137). Convert and pack two or four values into one register. -/
  | pack (h : Hdr) (dt st : Ty) (sat : Bool) (d a b : Opnd)
  /-- UNPK (R138). Widen one part of a packed register. -/
  | unpk (h : Hdr) (dt st : Ty) (sat : Bool) (d a b : Opnd)
  /-- QENC (R139). Encode a Q-format record across the fragment. -/
  | qenc (h : Hdr) (qf : QFmt) (st : Ty) (d a b : Opnd)
  /-- QDEC (R140). Decode 32 elements of a Q-format record. -/
  | qdec (h : Hdr) (ty : Ty) (hi : Bool) (qf : QFmt) (sat : Bool) (d a b : Opnd)
  /-- PLOP (R141). Predicate logic by a lookup table. -/
  | plop (h : Hdr) (tab : BitVec 4) (d a b : Opnd)
  /-- PMOV (R142). Test, pack or unpack predicates. -/
  | pmov (h : Hdr) (f : PForm) (d a b : Opnd)
  /-- BALLOT (R148). Gather a predicate into a mask at a lane-masked rendezvous. -/
  | ballot (h : Hdr) (d a b : Opnd)
  /-- VANY (R143). Vote any over the fragment. -/
  | vany (h : Hdr) (d a : Opnd)
  /-- VALL (R143). Vote all over the fragment. -/
  | vall (h : Hdr) (d a : Opnd)
  /-- SHFL (R149). Read a value from another thread of the segment at a rendezvous. -/
  | shfl (h : Hdr) (ty : Ty) (vp : BitVec 3) (md : ShflMode) (d a b : Opnd)
  /-- BCST (R150). Broadcast one thread's value to the fragment. -/
  | bcst (h : Hdr) (ty : Ty) (vp : BitVec 3) (d a b : Opnd)
  /-- REDX (R151). Reduce over participants at a rendezvous. -/
  | redx (h : Hdr) (ty : Ty) (op : RedOp) (d a b : Opnd)
  /-- SCAN (R152). Prefix reduction over participants at a rendezvous. -/
  | scan (h : Hdr) (ty : Ty) (op : RedOp) (ex : Bool) (d a b : Opnd)
  /-- MATCH (R153). Compare participants' values as bits at a rendezvous. -/
  | matchx (h : Hdr) (ty : Ty) (vp : BitVec 3) (all : Bool) (d a b : Opnd)
  /-- ELECT (R143). Set a predicate in the lowest active thread only. -/
  | elect (h : Hdr) (d : Opnd)
  /-- BRA (R157). Branch, splitting the fragment by the guard. -/
  | bra (h : Hdr) (off : BitVec 24)
  /-- BRX (R157). Indirect branch by per-thread target. -/
  | brx (h : Hdr) (a : Opnd)
  /-- CALL (R159). Branch that writes a return offset. -/
  | call (h : Hdr) (d : Opnd) (off : BitVec 24)
  /-- RET (R159). Return to per-thread offsets. -/
  | ret (h : Hdr) (a : Opnd)
  /-- RCV (R160). Push a reconvergence record. -/
  | rcv (h : Hdr) (off : BitVec 24)
  /-- EXIT (R161). End the active threads after a region end. -/
  | exit (h : Hdr)
  /-- NOP (R162). No operation. -/
  | nop (h : Hdr)
  /-- YLD (R162). Yield the lane for a window. -/
  | yld (h : Hdr)
  /-- TRAP (R163). Raise software cause 0xF0 + n. -/
  | trap (h : Hdr) (n : BitVec 4)
  /-- ERET (R164). Return from the %evec handler restoring the save area. -/
  | eret (h : Hdr)
  /-- IRET (R164). Return from the %uvec handler restoring the save area. -/
  | iret (h : Hdr)
  /-- SRD (R165). Read a special register. -/
  | srd (h : Hdr) (b64 : Bool) (d a : Opnd)
  /-- SWR (R166). Write a special register. -/
  | swr (h : Hdr) (b64 : Bool) (d a : Opnd)
  /-- SLEEP (R169). Block the fragment for n core cycles. -/
  | sleep (h : Hdr) (a : Opnd)
  /-- BRK (R170). Breakpoint stopping the fragment for the H7 hart when debug is set. -/
  | brk (h : Hdr) (n : BitVec 8)
  /-- MMOV (R182). Copy a moment register. -/
  | mmov (h : Hdr) (d a : Opnd)
  /-- MPUT (R183). Build a moment from a mean and a variance. -/
  | mput (h : Hdr) (d a b : Opnd)
  /-- MGET (R184). Extract raw mean or variance bits. -/
  | mget (h : Hdr) (sel : MgetSel) (d a : Opnd)
  /-- MADD (R185). Moment addition under a covariance mode. -/
  | madd (h : Hdr) (cov : Cov) (rnd : Rnd) (d a b : Opnd)
  /-- MSUB (R185). Moment subtraction under a covariance mode. -/
  | msub (h : Hdr) (cov : Cov) (rnd : Rnd) (d a b : Opnd)
  /-- MMUL (R185). Moment multiplication under a covariance mode. -/
  | mmul (h : Hdr) (cov : Cov) (rnd : Rnd) (d a b : Opnd)
  /-- MFMA (R186). Moment fused multiply-add. -/
  | mfma (h : Hdr) (cov : Cov) (rnd : Rnd) (d a b : Opnd)
  /-- MSCL (R187). Affine scaling of a moment. -/
  | mscl (h : Hdr) (rnd : Rnd) (d a b : Opnd)
  /-- MRLU (R188). Moment-matched ReLU. -/
  | mrlu (h : Hdr) (d a : Opnd)
  /-- MEXP (R188). Moment-matched exponential. -/
  | mexp (h : Hdr) (d a : Opnd)
  /-- MSQR (R188). Moment square. -/
  | msqr (h : Hdr) (rnd : Rnd) (d a : Opnd)
  /-- MPHI (R188). Moment-matched normal distribution function. -/
  | mphi (h : Hdr) (d a : Opnd)
  /-- MCLP (R192). Collapse a moment to mean, sdev, bound or sample. -/
  | mclp (h : Hdr) (sel : MclpSel) (rnd : Rnd) (d a b : Opnd)
  /-- MCHK (R194). Test a moment for negative variance, NaN or infinity. -/
  | mchk (h : Hdr) (sel : MchkSel) (d a : Opnd)
  /-- LDS (R229). Load from scratchpad. -/
  | lds (h : Hdr) (ty : Ty) (sc : Scope) (kd : Kind) (d a b : Opnd)
  /-- STS (R229). Store to scratchpad. -/
  | sts (h : Hdr) (ty : Ty) (sc : Scope) (kd : Kind) (d a b : Opnd)
  /-- LD (R229). Load from global memory. -/
  | ld (h : Hdr) (ty : Ty) (sc : Scope) (kd : Kind) (d a b : Opnd)
  /-- ST (R230). Store to global memory through the region store buffer. -/
  | st (h : Hdr) (ty : Ty) (sc : Scope) (kd : Kind) (d a b : Opnd)
  /-- LDB (R232). Format-aware load by page FMT. -/
  | ldb (h : Hdr) (ty : Ty) (d a b : Opnd)
  /-- STB (R233). Format-aware store by page FMT. -/
  | stb (h : Hdr) (ty : Ty) (d a b : Opnd)
  /-- PFT (R238). Prefetch a line into the read line buffer or L2. -/
  | pft (h : Hdr) (sc : Scope) (a b : Opnd)
  /-- FENCE (R239). End the region and order accesses at a scope. -/
  | fence (h : Hdr) (sc : Scope) (kd : Kind)
  /-- RGN (R239). End the idempotent region. -/
  | rgn (h : Hdr)
  /-- DREL (R240). Release a team's ownership of DETERM pages in a range. -/
  | drel (h : Hdr) (d a b : Opnd)
  /-- TLBP (R311). Lock the translations of a range. -/
  | tlbp (h : Hdr) (a b : Opnd)
  /-- TLBU (R312). Free a lock range record. -/
  | tlbu (h : Hdr) (a : Opnd)
  /-- XPRB (R314). Probe a translation without filling or service. -/
  | xprb (h : Hdr) (d a : Opnd)
  /-- TINV (R315). Privileged invalidation of translations across the module. -/
  | tinv (h : Hdr) (d a b : Opnd)
  /-- ATS_ADD (R237). Scratchpad atomic add. -/
  | atsAdd (h : Hdr) (ty : Ty) (sc : Scope) (kd : Kind) (d a b : Opnd)
  /-- ATS_MIN (R237). Scratchpad atomic minimum. -/
  | atsMin (h : Hdr) (ty : Ty) (sc : Scope) (kd : Kind) (d a b : Opnd)
  /-- ATS_MAX (R237). Scratchpad atomic maximum. -/
  | atsMax (h : Hdr) (ty : Ty) (sc : Scope) (kd : Kind) (d a b : Opnd)
  /-- ATS_AND (R237). Scratchpad atomic and. -/
  | atsAnd (h : Hdr) (ty : Ty) (sc : Scope) (kd : Kind) (d a b : Opnd)
  /-- ATS_OR (R237). Scratchpad atomic or. -/
  | atsOr (h : Hdr) (ty : Ty) (sc : Scope) (kd : Kind) (d a b : Opnd)
  /-- ATS_XOR (R237). Scratchpad atomic exclusive or. -/
  | atsXor (h : Hdr) (ty : Ty) (sc : Scope) (kd : Kind) (d a b : Opnd)
  /-- ATS_EXCH (R237). Scratchpad atomic exchange. -/
  | atsExch (h : Hdr) (ty : Ty) (sc : Scope) (kd : Kind) (d a b : Opnd)
  /-- ATS_CAS (R237). Scratchpad atomic compare-and-swap. -/
  | atsCas (h : Hdr) (ty : Ty) (sc : Scope) (kd : Kind) (d a b : Opnd)
  /-- ATG_ADD (R237). Global atomic add. -/
  | atgAdd (h : Hdr) (ty : Ty) (sc : Scope) (kd : Kind) (d a b : Opnd)
  /-- ATG_MIN (R237). Global atomic minimum. -/
  | atgMin (h : Hdr) (ty : Ty) (sc : Scope) (kd : Kind) (d a b : Opnd)
  /-- ATG_MAX (R237). Global atomic maximum. -/
  | atgMax (h : Hdr) (ty : Ty) (sc : Scope) (kd : Kind) (d a b : Opnd)
  /-- ATG_AND (R237). Global atomic and. -/
  | atgAnd (h : Hdr) (ty : Ty) (sc : Scope) (kd : Kind) (d a b : Opnd)
  /-- ATG_OR (R237). Global atomic or. -/
  | atgOr (h : Hdr) (ty : Ty) (sc : Scope) (kd : Kind) (d a b : Opnd)
  /-- ATG_XOR (R237). Global atomic exclusive or. -/
  | atgXor (h : Hdr) (ty : Ty) (sc : Scope) (kd : Kind) (d a b : Opnd)
  /-- ATG_EXCH (R237). Global atomic exchange. -/
  | atgExch (h : Hdr) (ty : Ty) (sc : Scope) (kd : Kind) (d a b : Opnd)
  /-- ATG_CAS (R237). Global atomic compare-and-swap. -/
  | atgCas (h : Hdr) (ty : Ty) (sc : Scope) (kd : Kind) (d a b : Opnd)
  /-- GROW (R242). Request a larger register allocation, try or wait. -/
  | grow (h : Hdr) (wait : Bool) (cl : GClass) (d a : Opnd)
  /-- SHRK (R243). Release register granules from the top of a class. -/
  | shrk (h : Hdr) (cl : GClass) (a : Opnd)
  /-- TJOIN (R244). Join a team with a rank. -/
  | tjoin (h : Hdr) (d a b : Opnd)
  /-- TLEAVE (R245). Leave a team, vacating the rank. -/
  | tleave (h : Hdr) (a : Opnd)
  /-- TBAR (R246). Team barrier arrival ending the region. -/
  | tbar (h : Hdr) (sc : Scope) (kd : Kind) (a : Opnd)
  /-- LSYN (R247). Lane-masked rendezvous, optionally a fence. -/
  | lsyn (h : Hdr) (sc : Scope) (kd : Kind) (b : Opnd)
  /-- XBI (R248). Initialise a transaction barrier record. -/
  | xbi (h : Hdr) (a b : Opnd)
  /-- XBA (R248). Arrive at a transaction barrier. -/
  | xba (h : Hdr) (a : Opnd)
  /-- XBE (R248). Add expected sectors to a transaction barrier. -/
  | xbe (h : Hdr) (a b : Opnd)
  /-- XBW (R248). Wait until a transaction barrier's phase changes. -/
  | xbw (h : Hdr) (a b : Opnd)
  /-- XBT (R248). Test whether a transaction barrier's phase changed. -/
  | xbt (h : Hdr) (d a b : Opnd)
  /-- CPY (R252). Queue a multidimensional copy command. -/
  | cpy (h : Hdr) (ui : Bool) (a b : Opnd)
  /-- GTH (R254). Queue a gather command. -/
  | gth (h : Hdr) (ui : Bool) (a b : Opnd)
  /-- SCT (R254). Queue a scatter command. -/
  | sct (h : Hdr) (ui : Bool) (a b : Opnd)
  /-- QPUT (R257). Append an entry to a hardware queue. -/
  | qput (h : Hdr) (a b : Opnd)
  /-- QGET (R257). Remove the oldest entry of a hardware queue. -/
  | qget (h : Hdr) (d a : Opnd)
  /-- MMA (R270). Queue a dense matrix pass into an accumulator tile. -/
  | mma (h : Hdr) (ty : Ty) (d a b : Opnd)
  /-- MMAS (R274). Queue a sparse matrix pass. -/
  | mmas (h : Hdr) (ty : Ty) (d a b : Opnd)
  /-- MMAM (R275). Queue a moment matrix pass into a tile pair. -/
  | mmam (h : Hdr) (cov : Cov) (d a b : Opnd)
  /-- AZRO (R285). Queue zeroing of a tile or pair. -/
  | azro (h : Hdr) (pair : Bool) (d : Opnd)
  /-- ALD (R286). Queue a whole-tile load. -/
  | ald (h : Hdr) (ty : Ty) (d a : Opnd)
  /-- AST (R287). Queue a whole-tile store. -/
  | ast (h : Hdr) (ty : Ty) (rnd : Rnd) (sat : Bool) (d a : Opnd)
  /-- AMOV (R288). Move 32 elements between a tile row and a register. -/
  | amov (h : Hdr) (ty : Ty) (rnd : Rnd) (sat put : Bool) (d a b : Opnd)
  /-- MWT (R289). Wait for the strand's matrix commands to finish. -/
  | mwt (h : Hdr)
  /-- MKM (R374). Broadcast a key query marking matching nodes. -/
  | mkm (h : Hdr) (op : MkmOp) (cls : BitVec 4) (a : Opnd)
  /-- MKS (R375). Set or clear a plane in listed nodes. -/
  | mks (h : Hdr) (cls : BitVec 4) (a : Opnd)
  /-- MKC (R376). Clear planes and fill slots over the node range. -/
  | mkc (h : Hdr) (cls : BitVec 4) (a : Opnd)
  /-- MKP (R380). Start a marker propagation wave. -/
  | mkp (h : Hdr) (cls : BitVec 4) (a : Opnd)
  /-- MKL (R377). Collect qualifying nodes into a list. -/
  | mkl (h : Hdr) (cls : BitVec 4) (a : Opnd)
  /-- MKN (R377). Count qualifying nodes. -/
  | mkn (h : Hdr) (cls : BitVec 4) (a : Opnd)
  /-- MKR (R379). Read one field of listed nodes. -/
  | mkr (h : Hdr) (cls : BitVec 4) (a : Opnd)
  /-- MKW (R379). Write one field of listed nodes. -/
  | mkw (h : Hdr) (cls : BitVec 4) (a : Opnd)
  /-- MKT (R378). Set a plane from a slot element comparison. -/
  | mkt (h : Hdr) (cls : BitVec 4) (a : Opnd)
  /-- HINS (R386). Install a Vat handler. -/
  | hins (h : Hdr) (cls : BitVec 4) (a : Opnd)
  /-- WOPN (R394). Open a wave class at a scope. -/
  | wopn (h : Hdr) (sc : Scope) (cls : BitVec 4) (d : Opnd)
  /-- WQT (R395). Wait for quiet of a wave class. -/
  | wqt (h : Hdr) (close : Bool) (sc : Scope) (cls : BitVec 4) (d : Opnd)
  /-- VRED (R397). Queue an element-wise reduction of channel buffers. -/
  | vred (h : Hdr) (a : Opnd)
  /-- VCMD (R398). Queue a raw bank fill or copy. -/
  | vcmd (h : Hdr) (cls : BitVec 4) (a : Opnd)
  /-- OMRK (R399). Place an ordering marker in the batch's command queues. -/
  | omrk (h : Hdr)
  /-- COLL (R427). Queue a collective operation on the fabric. -/
  | coll (h : Hdr) (ui : Bool) (a b : Opnd)
  /-- CSIG (R422). Send a signal update to a signal word's home. -/
  | csig (h : Hdr) (op : SigOp) (a b : Opnd)
  /-- SWAIT (R423). Wait until a signal word meets a condition. -/
  | swait (h : Hdr) (c : SigCond) (d a b : Opnd)
  /-- RPRT (R437). Queue a Couch repartition of items. -/
  | rprt (h : Hdr) (ui : Bool) (a b : Opnd)
  /-- ISSUE_SELECT (R206). Each window a lane chooses one READY fragment to issue. -/
  | issueSelect (c : Nat)
  /-- ACTIVE_SET_ENTRY (R204). The head of a lane's waiting queue enters a free active slot. -/
  | activeSetEntry (c lane : Nat)
  /-- ACTIVE_SET_DISPLACEMENT (R204). Every 64 windows with a waiting queue, the earliest entrant is displaced. -/
  | activeSetDisplacement (c lane : Nat)
  /-- TRACKED_WRITE_LAND (R44). A tracked instruction's result lands and clears its pending mark. -/
  | trackedWriteLand (sid : Nat) (n : LandOf)
  /-- TRAPWAIT_RETRY (R80). A TRAPWAIT fragment retries its instruction when the save area is free. -/
  | trapwaitRetry (sid f : Nat)
  /-- USER_INTERRUPT (R81). A held or new user interrupt is delivered to a fragment. -/
  | userInterrupt (sid : Nat)
  /-- THREAD_DEAD (R71). An uncorrectable error kills a thread and is reported as an event. -/
  | threadDead (sid t : Nat)
  /-- SLEEP_EXPIRE (R169). A sleeping fragment's cycle count runs out. -/
  | sleepExpire (sid f : Nat)
  /-- GROW_GRANT (R202). The head GROW.wait is served when enough blocks free. -/
  | growGrant (c : Nat)
  /-- GROW_WAIT_FAIL (R203). The youngest GROW.wait fails when no other strand can progress. -/
  | growWaitFail (c : Nat)
  /-- BATCH_PLACE (R327). The dispatcher places a batch on a core, creating its strands. -/
  | batchPlace (launch c tsave : Nat) (ptes : List (Nat × BitVec 64))
  /-- PARTITION_WORD_WRITE (R197). Firmware writes a core's partition word, taking effect only on an empty core. -/
  | partitionWordWrite (c : Nat) (w : W32)
  /-- BARRIER_ARRIVAL_MSG (R213). A slot or die entry sends its arrival count up the combiner tree. -/
  | barrierArrivalMsg (fromDie : Bool) (unit job team : Nat)
  /-- BARRIER_RELEASE (R213). A release travelling down the tree frees a slot's members. -/
  | barrierRelease (c slot : Nat)
  /-- BAR_TIMEOUT (R216). A barrier watchdog reaches its limit and ends the job. -/
  | barTimeout (c slot : Nat)
  /-- ENGINE_QUEUE_ADMIT (R220). A blocked command enters a freed engine queue entry. -/
  | engineQueueAdmit (c : Nat) (gather : Bool)
  /-- ENGINE_COMMAND_START (R220). A copy or gather engine starts its next queued command. -/
  | engineCommandStart (c : Nat) (gather : Bool)
  /-- SECTOR_LAND (R253). One destination sector of an engine command lands and updates its record. -/
  | sectorLand (c cmd : Nat) (n : EngMove)
  /-- ENGINE_COMMAND_FAULT (R255). A running engine command ends on a fault. -/
  | engineCommandFault (c cmd : Nat)
  /-- QUEUE_WAKE (R224). A blocked QPUT or QGET is served when its queue changes. -/
  | queueWake (c q : Nat)
  /-- RESERVATION_ADMIT (R263). A blocked matrix command takes a freed reservation entry. -/
  | reservationAdmit (cl : Nat)
  /-- MATRIX_PASS_START (R264). A pair arbiter starts a pass or resumes a suspended one. -/
  | matrixPassStart (pair : Nat)
  /-- TILE_COMMAND_START (R264). A pair arbiter starts a tile command on the tile port. -/
  | tileCommandStart (pair : Nat)
  /-- MATRIX_ROW_COMMIT (R270). A pass commits one output row to both halves. -/
  | matrixRowCommit (pair : RowMove)
  /-- MATRIX_PASS_SUSPEND (R276). A translation fault suspends a pass, setting %mrow. -/
  | matrixPassSuspend (pair : Nat)
  /-- MATRIX_COMMAND_COMPLETE (R276). A matrix command completes, clearing marks and %mrow. -/
  | matrixCommandComplete (pair : Nat)
  /-- MATRIX_ENGINE_ERROR (R280). An engine error ends the command and faults its tiles. -/
  | matrixEngineError (pair : Nat)
  /-- FETCH_FAULT (R307). An instruction fetch translation fails and stops the fragment. -/
  | fetchFault (sid f : Nat)
  /-- PAGE_FAULT_SERVICE (R308). H2 makes the page resident or declares it unmapped. -/
  | pageFaultService (n : Nat) (res : Option (List (Nat × W64)))
  /-- REGION_RESTART (R322). Firmware makes fragments READY at their region start. -/
  | regionRestart (sid : Nat)
  /-- RSB_ENTRY_WAIT (R324). A store waiting for a free buffer entry enters it. -/
  | rsbEntryWait (sid f : Nat)
  /-- TINV_AGENT_ACK (R316). A translation agent acknowledges after its dropped accesses complete. -/
  | tinvAgentAck (agent : Nat)
  /-- TINV_REGISTER_WRITE (R315). H2 starts an invalidation through the die register block. -/
  | tinvRegisterWrite (asid : Nat) (whole : Bool) (base len : Nat)
  /-- TIMING_REPLAY (R328). A late transition replays a cycle at half speed. -/
  | timingReplay (c : Nat)
  /-- SCREEN_SHADOW_END (R330). A shadow run finishes and signatures are compared. -/
  | screenShadowEnd (n : Nat) (sigs : Option (List (Nat × W64)))
  /-- DRAIN (R336). A ready buffer entry drains into P(d) or the write-combining buffer. -/
  | drain (sid n : Nat)
  /-- PROPAGATE (R336). The oldest write of a byte in P(d) enters M. -/
  | propagate (die pa : Nat)
  /-- FILL (R336). A sector enters the read line buffer. -/
  | fill (c sector : Nat)
  /-- DROP (R336). A sector leaves the read line buffer. -/
  | drop (c sector : Nat)
  /-- SEND (R336). A write-combining line is sent into the fabric. -/
  | send (c n : Nat)
  /-- WCB_AGE_SEND (R336). A line 2048 cycles old must be sent. -/
  | wcbAgeSend (c : Nat)
  /-- APPLY (R336). A packet with the lowest unapplied number is applied at its home. -/
  | apply (src dst : Nat)
  /-- TRANSACTION_ACK (R355). An outstanding transaction is acknowledged and frees its entry. -/
  | transactionAck (c : Nat)
  /-- MARK_ACCEPT (R371). The mark controller accepts and translates a queued marker command. -/
  | markAccept (c : Nat)
  /-- VAT_COMMAND_PROCESS (R372). A Vat processes one marker command. -/
  | vatCommandProcess (vat n : Nat)
  /-- WAVE_MESSAGE_CONSUME (R383). A Vat consumes one wave message and sends on changes. -/
  | waveMessageConsume (vat n : Nat)
  /-- STEP_CLOSE (R384). A Vat combines buffered stepped arrivals at a step close. -/
  | stepClose (vat job cls : Nat)
  /-- DECKLE_SWEEP (R391). The root runs one up-and-down counting sweep. -/
  | deckleSweep (job cls : Nat)
  /-- FABRIC_SWEEP (R433). A Deckle sweep runs across the module set on one plane. -/
  | fabricSweep (job cls : Nat) (plane : Nat) (others : SweepSum)
  /-- VAT_SELF_REFRESH_ENTRY (R393). A Vat saves its state and enters self-refresh. -/
  | vatSelfRefreshEntry (vat : Nat) (forced : Bool)
  /-- VAT_SELF_REFRESH_EXIT (R393). A Vat leaves self-refresh and restores its state. -/
  | vatSelfRefreshExit (vat : Nat)
  /-- VRED_REDUCE (R397). A Vat sums the buffers and releases the flag. -/
  | vredReduce (x : VredMove)
  /-- VCMD_BANK (R398). A Vat performs a bank fill or copy. -/
  | vcmdBank (vat : Nat)
  /-- FLIT_RETRY (R412). A link retries a flit whose check failed. -/
  | flitRetry (plane link : Nat) (bad : Bool)
  /-- LINK_FAILED (R412). A link failing 64 retries is declared failed. -/
  | linkFailed (plane link : Nat) (lost : List (Nat × Nat))
  /-- MODULE_DOWN (R413). No path to a module ends the jobs concerned. -/
  | moduleDown (dst : Nat)
  /-- BLOCKED_PACKET (R414). A switch input's timer marks its head packet blocked. -/
  | blockedPacket (plane sw port : Nat)
  /-- RECOVERY_TOKEN (R415). A switch holding the token sends its oldest blocked packet on the recovery lane. -/
  | recoveryToken (plane : Nat)
  /-- SWAIT_REREAD (R423). SWAIT reads the word again after it changes. -/
  | swaitReread (sid f : Nat)
  /-- COLL_ACCEPT (R426). The collective engine accepts a COLL or RPRT command. -/
  | collAccept (die : Nat)
  /-- COLL_DIGEST_COMPARE (R430). The group compares participant digests before data moves. -/
  | collDigestCompare (job gid : Nat) (others : List (Nat × Digest))
  /-- COLL_COMBINE (R427). A switch combines sibling partial results. -/
  | collCombine (job gid : Nat) (others : List (Nat × List Byte))
  /-- COLL_COMPLETE (R428). A participant's completion sector lands with STAT written. -/
  | collComplete (job gid : Nat) (done : List Nat)
  /-- COUCH_ASSIGN (R437). The group assigns repartitioned items to participants. -/
  | couchAssign (job gid : Nat) (others : List (Nat × Nat × List Byte))
  /-- SQTAIL (R441). Host submission doorbell write. -/
  | sqtail (fn q : Nat) (v : BitVec 13) (host : List (Nat × Byte))
  /-- CQHEAD (R441). Host completion-consumed doorbell write. -/
  | cqhead (fn q : Nat) (v : BitVec 13)
  /-- ENABLE (R441). Write to a queue's ENABLE starting or stopping it. -/
  | enable (fn q : Nat) (v : W32)
  /-- QUEUE_FETCH (R441). H0 fetches the next submission entry of a queue. -/
  | queueFetch (fn q : Nat)
  /-- NOP_ENTRY (R441). Submission entry OP 0x00 with no effect. -/
  | nopEntry (fn q : Nat)
  /-- LAUNCH (R444). Submission entry launching a kernel from a descriptor. -/
  | launch (who : LaunchBy) (q job asid : Nat)
  /-- SNAPSHOT (R453). Submission entry marking pages copy-on-write. -/
  | snapshot (fn q : Nat)
  /-- COMMIT (R453). Submission entry flipping the snapshot root. -/
  | commit (fn q : Nat)
  /-- BILL (R451). Function 0 entry writing a signed billing report. -/
  | bill (fn q : Nat)
  /-- COMPLETION_WRITE (R441). The device writes a completion entry when the ring has room. -/
  | completionWrite (fn q : Nat)
  /-- JOB_END (R443). A job ends once its strands ended and commands completed. -/
  | jobEnd (job : Nat)
  /-- PASID_TEARDOWN (R449). Host teardown of a PASID ends its jobs and stops its queues. -/
  | pasidTeardown (pasid : Nat)
  /-- TEARDOWN_TIMEOUT (R449). Teardown completes on returns or after 2^24 H0 cycles. -/
  | teardownTimeout (pasid : Nat)
  /-- FAIR_SHARE_PLACE (R446). H1 picks the next batch from the least-charged queue. -/
  | fairSharePlace (die tsave : Nat) (ptes : List (Nat × BitVec 64))
  /-- LATENCY_BOUND_EXPIRE (R447). A batch fails to place within its bound and H1 pre-empts. -/
  | latencyBoundExpire (launch : Nat)
  /-- BATCH_SAVE (R448). A batch is saved with its strands and scratchpad. -/
  | batchSave (batch : Nat)
  /-- BATCH_RESUME (R448). A saved batch is resumed on a core. -/
  | batchResume (batch c tsave : Nat) (ptes : List (Nat × BitVec 64))
  /-- BATCH_FLUSH (R447). A batch's state is discarded and it is requeued. -/
  | batchFlush (batch : Nat)
  /-- BATCH_DRAIN (R447). H1 waits for a resident batch to finish. -/
  | batchDrain (batch : Nat)
  /-- FIRMWARE_TRAP_SERVICE (R454). Firmware services a stopping software trap. -/
  | firmwareTrapService (sid f : Nat)
  /-- FIRMWARE_RESUME (R163). Firmware resumes a STOPPED fragment. -/
  | firmwareResume (sid f : Nat)
  /-- DEBUG_RESUME (R170). H7 resumes a fragment stopped at BRK or ends the job. -/
  | debugResume (sid f : Nat) (endJob : Bool)
  /-- MAILBOX_MESSAGE (R442). A hart receives one message in its mailbox, or takes its oldest. -/
  | mailboxMessage (src dst : Nat) (msg : Option (BitVec 256))
  /-- ACCESS_TABLE_WRITE (R450). H5 writes a per-master access table. -/
  | accessTableWrite (unit master win : Nat) (w : AccWin)
  /-- HOST_ACCESS_DENIED (R450). A host access no window admits completes with all ones. -/
  | hostAccessDenied (fn unit pa : Nat) (wr : Bool)
  /-- MODULE_RESET (R452). At reset H5 derives the identity key and verifies records. -/
  | moduleReset (recordsOk : Bool) (id : BitVec 12)
  /-- REGISTER_WRITE (R6). Write to a register with no behaviour of its own. -/
  | registerWrite (r : RegName) (v : W64)
  /-- WAVE_PORT_FORWARD (R433). A fabric port takes a wave message from its module onto the wire, or off the wire, counting it in C and S. -/
  | wavePortForward (port : Nat) (inbound : Option WaveMsg) (n : Nat)
  /-- HOST_CXL_MEM_ACCESS (R440). A host CXL.mem access admitted by an access-table window reads or writes module HBM. -/
  | hostCxlMemAccess (fn unit pa : Nat) (len : Nat) (wr : Option (List Byte))
  /-- TRANSLATION_RESPONSE (R449). A response to a translation request of a PASID returns to H0, which discards it when the PASID is dying. -/
  | translationResponse (pasid : Nat)
  /-- PKG_UNCORR (R392). An uncorrectable error in mark-bus or router traffic is a machine-check event, and the jobs concerned end. -/
  | pkgUncorr (jobs : List Nat)
  /-- HART_DENIED (R450). A hart access that no access-table window admits is refused and reported to H3 as a machine-check event. -/
  | hartDenied (hart unit pa : Nat) (wr : Bool)  deriving DecidableEq, Repr

end Sys2Proof
end

