-- ==== Sys2Proof/WellFormed.lean ====
section
/-!
DEFINITION. Which instructions are well formed: the checks that a fetched word meets at check 2 (MOD, R55) and
check 3 (fields, R42, R49 to R53) of R59, from the encoding tables of R120, R127, R135 to R144, R155, R174, R225,
R235, R310, R283, R370 and R420. modOk is check 2 beyond the reserved codes; fieldOk is check 3.
-/
namespace Sys2Proof

/-- Width of a type in bits (R88, R89, R113). -/
def Ty.width : Ty → Nat
  | .i8 | .n8 | .g8 => 8
  | .i16 | .n16 | .g16 | .f16 => 16
  | .i32 | .n32 | .b32 | .f32 => 32
  | .i64 | .n64 | .b64 | .f64 | .m64 => 64

/-- A signed integer type (R88). -/
def Ty.signed : Ty → Bool
  | .i8 | .i16 | .i32 | .i64 => true
  | _ => false

/-- One of the eight integer types i8-n64 (R115). -/
def Ty.isInt : Ty → Bool
  | .i8 | .i16 | .i32 | .i64 | .n8 | .n16 | .n32 | .n64 => true
  | _ => false

/-- A bit type (R88). -/
def Ty.isBits : Ty → Bool
  | .b32 | .b64 => true
  | _ => false

/-- A floating type (R89). -/
def Ty.isFloat : Ty → Bool
  | .g8 | .g16 | .f16 | .f32 | .f64 => true
  | _ => false

/-- The 64-bit types that occupy a vector register pair (R51). -/
def Ty.isPair : Ty → Bool
  | .i64 | .n64 | .b64 | .f64 => true
  | _ => false

/-- The types of the arithmetic floating instructions (R127). -/
def Ty.isArith : Ty → Bool
  | .f16 | .f32 | .f64 | .g16 => true
  | _ => false

/-- The types of the function instructions (R127). -/
def Ty.isFn : Ty → Bool
  | .f16 | .f32 | .g16 => true
  | _ => false

/-- The 16-bit floating types, which alone take .x2 (R127). -/
def Ty.isHalf : Ty → Bool
  | .f16 | .g16 => true
  | _ => false

/-- The types of .i32 .i64 .n32 .n64. -/
def Ty.isInt32up : Ty → Bool
  | .i32 | .i64 | .n32 | .n64 => true
  | _ => false

/-- Operand letters of R115, as sets. -/
structure Cls where
  v : Bool := false
  k : Bool := false
  kStar : Bool := false
  p : Bool := false
  m : Bool := false
  a : Bool := false
  s : Bool := false
  i : Bool := false
  g : Bool := false
  pr : Bool := false
  no : Bool := false

/-- Whether an operand's class stands in a set; k* asks for UNI (R115). -/
def Opnd.isIn (o : Opnd) (c : Cls) (uni : Bool) : Bool :=
  match o with
  | .v _ => c.v
  | .k _ => c.k || (c.kStar && uni)
  | .p _ => c.p
  | .m _ => c.m
  | .a _ => c.a
  | .s _ => c.s
  | .imm _ => c.i
  | .g _ => c.g
  | .pair _ _ => c.pr
  | .none => c.no

/-- The classes that UNI forbids: v, m, a and vector pair (R42). -/
def Opnd.uniOk (o : Opnd) : Bool :=
  match o with
  | .v _ | .m _ | .a _ | .pair _ _ => false
  | _ => true

/-- An even vector register, or an even pair, where the operand is a vector (R51). -/
def Opnd.even (o : Opnd) : Bool :=
  match o with
  | .v n => n.toNat % 2 == 0
  | .pair b c => b.toNat % 2 == 0 && c.toNat % 2 == 0
  | _ => true

/-- The parity rule of R51 for an operand of type `ty`. -/
def Opnd.parOk (ty : Ty) (o : Opnd) : Bool := !ty.isPair || o.even

/-- An even uniform register, where the operand is uniform (R268). -/
def Opnd.evenK (o : Opnd) : Bool :=
  match o with
  | .k n => n.toNat % 2 == 0
  | _ => true

/-- An even accumulator tile, where the operand is one (R283). -/
def Opnd.evenA (o : Opnd) : Bool :=
  match o with
  | .a n => n.toNat % 2 == 0
  | _ => true

def Opnd.isV : Opnd → Bool
  | .v _ => true
  | _ => false

def Opnd.isM : Opnd → Bool
  | .m _ => true
  | _ => false

def Opnd.isPair : Opnd → Bool
  | .pair _ _ => true
  | _ => false

def Opnd.isNone : Opnd → Bool
  | .none => true
  | _ => false

def Opnd.isImm : Opnd → Bool
  | .imm _ => true
  | _ => false

/-- Named class sets. -/
def cV : Cls := { v := true }
def cVK : Cls := { v := true, k := true }
def cVKs : Cls := { v := true, kStar := true }
def cVKI : Cls := { v := true, k := true, i := true }
def cVKG : Cls := { v := true, k := true, g := true }
def cVI : Cls := { v := true, i := true, no := true }
def cK : Cls := { k := true }
def cKI : Cls := { k := true, i := true }
def cKG : Cls := { k := true, g := true }
def cP : Cls := { p := true }
def cM : Cls := { m := true }
def cA : Cls := { a := true }
def cS : Cls := { s := true }
def cI : Cls := { i := true }
def cPr : Cls := { pr := true }
def cNo : Cls := { no := true }

/-- The literal of a wide form is legal for its type: for F32, F16, G16 and G8 its bits 41-32 are zero (R53). -/
def litOk (ty : Ty) (l : BitVec 42) : Bool :=
  match ty with
  | .f32 | .f16 | .g16 | .g8 => l.toNat < 2 ^ 32
  | _ => true

/-- D, A and B of a plain register instruction: their classes, the parity of those that carry type `ty`, and the
UNI rule. -/
def dabOk (h : Hdr) (ty : Ty) (cd ca cb : Cls) (d a b : Opnd) : Bool :=
  d.isIn cd h.uni && a.isIn ca h.uni && b.isIn cb h.uni
    && (!h.uni || (d.uniOk && a.uniOk && b.uniOk)) && d.parOk ty && a.parOk ty && b.parOk ty

/-- As dabOk for an instruction whose B is absent. -/
def daOk (h : Hdr) (ty : Ty) (cd ca : Cls) (d a : Opnd) : Bool :=
  d.isIn cd h.uni && a.isIn ca h.uni && (!h.uni || (d.uniOk && a.uniOk)) && d.parOk ty && a.parOk ty

/-- As dabOk where B is a 32-bit operand whatever the type (R123, R124, R132). -/
def dabOk32 (h : Hdr) (ty : Ty) (cd ca cb : Cls) (d a b : Opnd) : Bool :=
  d.isIn cd h.uni && a.isIn ca h.uni && b.isIn cb h.uni
    && (!h.uni || (d.uniOk && a.uniOk && b.uniOk)) && d.parOk ty && a.parOk ty

/-- D and the sources of an instruction with a wide form. -/
def srcsOk (h : Hdr) (ty : Ty) (cd ca cb : Cls) (d : Opnd) (src : Srcs) : Bool :=
  match src with
  | .two a b => dabOk h ty cd ca cb d a b
  | .wide l => d.isIn cd h.uni && (!h.uni || d.uniOk) && d.parOk ty && litOk ty l

/-- An instruction that accepts no UNI (R119, R155, R171, R225, R283). -/
def noUni (h : Hdr) : Bool := !h.uni

/-- The guard that RCV, ERET and IRET require (R155). -/
def always (h : Hdr) : Bool := h.gp == 7#3 && !h.gn

/-- The class sets of A and B in a global address, with the pair rule of R226. -/
def globalAddrOk (a b : Opnd) : Bool :=
  match a with
  | .k _ => b.isIn cVI false
  | .v n => n.toNat % 2 == 0 && (b.isImm || b.isNone)
  | _ => false

/-- A and B of a scratchpad address (R226); class v in both is none (log 67). -/
def scratchAddrOk (a b : Opnd) : Bool :=
  match a with
  | .k _ => b.isIn cVI false
  | .v _ => b.isImm || b.isNone
  | .none => b.isImm
  | _ => false

/-- D of a load or store: m exactly for .m64 (R225), with the parity of R51. -/
def memD (h : Hdr) (ty : Ty) (c : Cls) (d : Opnd) : Bool :=
  d.isIn c h.uni && (d.isM == (ty == .m64)) && d.parOk ty

/-- UNI forbids vector operands in D, A and B (R42). -/
def uni3 (h : Hdr) (d a b : Opnd) : Bool := !h.uni || (d.uniOk && a.uniOk && b.uniOk)

/-- The kind and scope cells of R225: a zero KIND asks for SCOPE 0. -/
def kindScope (sc : Scope) (kd : Kind) : Bool := kd != .plain || sc == .strand

/-- SCOPE 0 or 1. -/
def Scope.isLocal : Scope → Bool
  | .strand | .core => true
  | _ => false

/-- The type cells of the atomics (R236): arithmetic, bitwise, exchange. -/
def atomArith : Ty → Bool
  | .i32 | .n32 | .i64 | .n64 | .f32 => true
  | _ => false

/-- SCOPE and KIND of ATS: scope 0-1 (R237). -/
def atsMod (ok : Bool) (sc : Scope) (kd : Kind) : Bool := ok && sc.isLocal && kindScope sc kd

def atgMod (ok : Bool) (sc : Scope) (kd : Kind) : Bool := ok && kindScope sc kd

/-- D, A and B of an atomic: B is a pair exactly for .cas (R235), class 6 never for .f32 (R50). -/
def atomOk (h : Hdr) (glob cas : Bool) (ty : Ty) (d a b : Opnd) : Bool :=
  d.isIn { v := true, kStar := true, no := true } h.uni && a.isIn cVK h.uni
    && (if cas then b.isPair else b.isIn (if ty == .f32 then cVK else cVKI) h.uni)
    && uni3 h d a b && d.parOk ty && b.parOk ty && (!glob || a.even)

/-- The types of REDX and SCAN by operation (R144). -/
def redTy (op : RedOp) (ty : Ty) : Bool :=
  match op with
  | .and | .or | .xor => ty.isBits
  | _ => ty.isInt32up || ty.isFn

/-- The types of CVT and CVTS (R135). -/
def cvtTy (ty : Ty) : Bool := ty.isInt || ty.isFloat

/-- The type pairs of PACK (R137). -/
def packTy (dt st : Ty) : Bool :=
  match dt with
  | .i16 | .n16 | .f16 | .g16 => st == .i32 || st == .n32 || st == .f32
  | .i8 | .n8 | .g8 => st == .i16 || st == .n16 || st == .f16 || st == .g16
  | _ => false

/-- The type pairs of UNPK with SAT (R138). -/
def unpkTy (dt st : Ty) (sat : Bool) : Bool :=
  match st with
  | .i8 | .i16 | .n8 | .n16 => dt == .i32 || dt == .n32
  | .g8 | .f16 | .g16 => dt == .f32 && !sat
  | _ => false

/-- A class 6 immediate for an integer source, a class 7 immediate for a floating source (R50). -/
def cVKimm (ty : Ty) : Cls := { v := true, k := true, i := !ty.isFloat, g := ty.isFloat }

/-- A writable special register: access RW or W1C in R76 (R166). -/
def SReg.writable : SReg → Bool
  | .ctl | .mflag | .fflag | .mrow | .evec | .uvec | .uepc
  | .ecause | .epc | .eopc | .emod | .efd | .efa | .efb | .egrd => true
  | _ => false

def Opnd.sWritable : Opnd → Bool
  | .s r => r.writable
  | _ => false

/-- A parameter-block command of the marker family: A is k or i (R370). -/
def blockOk (h : Hdr) (a : Opnd) : Bool := a.isIn cKI h.uni

/-- Check 2 of R59 beyond the reserved codes, which decoding refuses: the types and combinations of each
instruction. -/
def modOk (i : Instr) : Bool :=
  match i with
  | .iadd _ ty md _ _ | .isub _ ty md _ _ =>
    ty.isInt && (match md with | .carry _ => ty == .n32 || ty == .n64 | _ => true)
  | .imul _ ty _ _ _ | .imad _ ty _ _ _ _ | .imin _ ty _ _ | .imax _ ty _ _ | .icmp _ ty _ _ _ _ => ty.isInt
  | .imulh _ ty _ _ _ | .bfx _ ty _ _ _ => ty.isInt32up
  | .iabs _ ty _ _ _ | .ineg _ ty _ _ _ => ty.signed
  | .and _ ty _ _ | .or _ ty _ _ | .xor _ ty _ _ | .andn _ ty _ _ => ty.isBits
  | .not _ ty _ _ | .popc _ ty _ _ | .clz _ ty _ _ | .ctz _ ty _ _ | .brev _ ty _ _ | .mov _ ty _ _ => ty.isBits
  | .shl _ ty _ _ _ | .shr _ ty _ _ _ | .rol _ ty _ _ _ | .bfi _ ty _ _ _ => ty.isBits
  | .sar _ ty _ _ _ => ty == .i32 || ty == .i64
  | .lea _ ty _ _ _ _ => ty == .n32 || ty == .n64
  | .movi _ ty _ _ => ty.isInt32up || ty.isBits || ty.isFloat
  | .sel _ ty _ _ _ _ _ => ty.isBits
  | .fadd _ ty _ _ x2 _ _ | .fsub _ ty _ _ x2 _ _ | .fmul _ ty _ _ x2 _ _ => ty.isArith && (!x2 || ty.isHalf)
  | .ffma _ ty _ _ x2 _ _ _ => ty.isArith && (!x2 || ty.isHalf)
  | .fmin _ ty x2 _ _ | .fmax _ ty x2 _ _ => ty.isArith && (!x2 || ty.isHalf)
  | .fabs _ ty x2 _ _ | .fneg _ ty x2 _ _ => ty.isArith && (!x2 || ty.isHalf)
  | .fcmp _ ty _ _ _ _ | .fscl _ ty _ _ _ _ _ | .fdiv _ ty _ _ _ _ _ | .frnd _ ty _ _ _ | .fsqrt _ ty _ _ _ => ty.isArith
  | .fcls _ ty _ _ _ => ty.isArith || ty == .g8
  | .frcp _ ty _ _ | .frsq _ ty _ _ | .fex2 _ ty _ _ | .flg2 _ ty _ _ | .ftnh _ ty _ _ | .ferf _ ty _ _
  | .fphi _ ty _ _ => ty.isFn
  | .ftrg _ ty _ _ _ => ty.isFn
  | .fdot _ ty _ _ _ _ _ => ty == .g8 || ty.isHalf
  | .cvt _ _ dt st _ _ _ | .cvts _ _ dt st _ _ _ _ => cvtTy dt && cvtTy st
  | .pack _ dt st _ _ _ _ => packTy dt st
  | .unpk _ dt st sat _ _ _ => unpkTy dt st sat
  | .qenc _ _ st _ _ _ => st == .f32 || st.isHalf || st == .g8
  | .qdec _ ty _ _ _ _ _ _ => ty.isFn
  | .shfl _ ty _ _ _ _ _ | .bcst _ ty _ _ _ _ | .matchx _ ty _ _ _ _ _ => ty.isBits
  | .redx _ ty op _ _ _ | .scan _ ty op _ _ _ _ => redTy op ty
  | .lds _ _ sc kd _ _ _ => sc.isLocal && (kd == .plain || kd == .acq) && kindScope sc kd
  | .sts _ _ sc kd _ _ _ => sc.isLocal && (kd == .plain || kd == .rel) && kindScope sc kd
  | .ld _ _ sc kd _ _ _ => (kd == .plain || kd == .acq) && kindScope sc kd
  | .st _ _ sc kd _ _ _ => (kd == .plain || kd == .rel) && kindScope sc kd
  | .pft _ sc _ _ => sc == .core || sc == .die
  | .fence _ _ kd => kd != .plain
  | .atsAdd _ ty sc kd _ _ _ | .atsMin _ ty sc kd _ _ _ | .atsMax _ ty sc kd _ _ _ => atsMod (atomArith ty) sc kd
  | .atsAnd _ ty sc kd _ _ _ | .atsOr _ ty sc kd _ _ _ | .atsXor _ ty sc kd _ _ _
  | .atsExch _ ty sc kd _ _ _ | .atsCas _ ty sc kd _ _ _ => atsMod ty.isBits sc kd
  | .atgAdd _ ty sc kd _ _ _ | .atgMin _ ty sc kd _ _ _ | .atgMax _ ty sc kd _ _ _ => atgMod (atomArith ty) sc kd
  | .atgAnd _ ty sc kd _ _ _ | .atgOr _ ty sc kd _ _ _ | .atgXor _ ty sc kd _ _ _
  | .atgExch _ ty sc kd _ _ _ | .atgCas _ ty sc kd _ _ _ => atgMod ty.isBits sc kd
  | .tbar _ sc kd _ => (kd == .plain || kd == .full) && kindScope sc kd
  | .lsyn _ sc kd _ => sc.isLocal && (kd == .plain || kd == .full) && kindScope sc kd
  | .mma _ ty _ _ _ => ty == .g8 || ty.isHalf || ty == .f32
  | .mmas _ ty _ _ _ => ty == .g8 || ty.isHalf
  | .ald _ ty _ _ => ty.isFloat || ty == .b64 || ty == .m64
  | .ast _ ty _ _ _ _ => ty.isFloat || ty == .b64 || ty == .m64
  | .amov _ ty rnd sat put _ _ _ => (ty.isFn || ty == .m64) && (!put || (rnd == .rne && !sat))
  | .wopn _ sc _ _ => sc == .module || sc == .fabric
  | .wqt _ _ sc _ _ => sc == .module || sc == .fabric
  | _ => true

/-- Check 3 of R59: operand classes, UNI, register parity, guards and operand values that a description fixes. -/
def fieldOk (i : Instr) : Bool :=
  match i with
  | .iadd h ty _ d src | .isub h ty _ d src => srcsOk h ty cVKs cVKI cVKI d src
  | .imul h ty _ d src => srcsOk h ty cVKs cVKI cVKI d src
  | .imulh h ty d a b => dabOk h ty cVKs cVK cVKI d a b
  | .imad h ty _ d a b => noUni h && dabOk h ty cV cV cPr d a b
  | .imin h ty d src | .imax h ty d src => srcsOk h ty cVKs cVKI cVKI d src
  | .iabs h ty _ d a | .ineg h ty _ d a => daOk h ty cVKs cVK d a
  | .and h ty d src | .or h ty d src | .xor h ty d src | .andn h ty d src => srcsOk h ty cVKs cVKI cVKI d src
  | .not h ty d a => daOk h ty cVKs cVKI d a
  | .shl h ty d a b | .shr h ty d a b | .rol h ty d a b | .sar h ty d a b => dabOk32 h ty cVKs cVK cVKI d a b
  | .popc h ty d a | .clz h ty d a | .ctz h ty d a => daOk h .b32 cVKs cVK d a && a.parOk ty
  | .brev h ty d a => daOk h ty cVKs cVK d a
  | .bfx h ty d a b => dabOk32 h ty cVKs cVK cVKI d a b
  | .bfi h ty d a b => noUni h && dabOk h ty cV cVK cPr d a b
  | .lea h ty _ d a b => dabOk h ty cVKs cVK cVKI d a b
  | .mov h ty d a => daOk h ty cVKs cVKI d a
  | .movi h ty d src =>
    match src with
    | .two a b => daOk h ty cVK (if ty.isFloat then { g := true } else cI) d a && b.isNone
    | .wide l => d.isIn cVK h.uni && (!h.uni || d.uniOk) && d.parOk ty && litOk ty l
  | .sel h ty _ _ d a b => dabOk h ty cVKs cVKI cVKI d a b
  | .icmp h ty _ d a b => dabOk h ty cP cVK cVKI d a b
  | .fadd h ty _ _ _ d src | .fsub h ty _ _ _ d src | .fmul h ty _ _ _ d src => srcsOk h ty cVKs cVKG cVKG d src
  | .ffma h ty _ _ _ d a b => noUni h && dabOk h ty cV cV cPr d a b
  | .fmin h ty _ d src | .fmax h ty _ d src => srcsOk h ty cVKs cVKG cVKG d src
  | .fabs h ty _ d a | .fneg h ty _ d a => daOk h ty cVKs cVK d a
  | .fcmp h ty _ d a b => dabOk h ty cP cVK cVKG d a b
  | .fcls h ty d a b => dabOk32 h ty cP cVK cVKI d a b
  | .fscl h ty _ _ d a b => dabOk32 h ty cVKs cVK cVKI d a b
  | .frnd h ty _ d a | .fsqrt h ty _ d a => daOk h ty cVKs cVK d a
  | .frcp h ty d a | .frsq h ty d a | .fex2 h ty d a | .flg2 h ty d a | .ftnh h ty d a | .ferf h ty d a
  | .fphi h ty d a => daOk h ty cVKs cVK d a
  | .fdiv h ty _ _ d a b => dabOk h ty cVKs cVKG cVKG d a b
  | .ftrg h ty _ d a => daOk h ty cVKs cVK d a
  | .fdot h ty _ _ d a b => noUni h && dabOk h ty cV cV cPr d a b
  | .cvt h _ dt st _ d a => d.isIn cVKs h.uni && a.isIn (cVKimm st) h.uni && (!h.uni || (d.uniOk && a.uniOk)) && d.parOk dt && a.parOk st
  | .cvts h _ dt st _ d a b =>
    d.isIn cVKs h.uni && a.isIn (cVKimm st) h.uni && b.isIn cVKG h.uni && uni3 h d a b && d.parOk dt && a.parOk st
  | .pack h _ _ _ d a b => dabOk h .b32 cVKs cVK cVK d a b
  | .unpk h _ st _ d a b =>
    dabOk h .b32 cVKs cVK cI d a b && (match b with | .imm x => x.toNat < 32 / st.width | _ => false)
  | .qenc h _ _ d a b => noUni h && dabOk h .b32 cV cKG cPr d a b
  | .qdec h _ _ _ _ d a b => noUni h && dabOk h .b32 cV cV cKG d a b
  | .plop h _ d a b => dabOk h .b32 cP cP cP d a b
  | .pmov h f d a b =>
    match f with
    | .test => dabOk h .b32 cP cVK cNo d a b
    | .pack => dabOk h .b32 cVKs cNo cNo d a b
    | .unpack => dabOk h .b32 cNo cVK cKI d a b
  | .ballot h d a b => noUni h && dabOk h .b32 cVK cP cKI d a b
  | .vany h d a | .vall h d a => noUni h && daOk h .b32 cP cP d a
  | .elect h d => noUni h && d.isIn cP h.uni
  | .shfl h ty _ _ d a b => noUni h && dabOk h ty cV { v := true, pr := true } (if a.isPair then cKI else cK) d a b
  | .bcst h ty _ d a b => noUni h && dabOk h ty cVK cV cKI d a b
  | .redx h ty _ d a b => noUni h && dabOk h ty cVK cV cKI d a b
  | .scan h ty _ _ d a b => noUni h && dabOk h ty cV cV cKI d a b
  | .matchx h ty _ _ d a b => noUni h && dabOk h .b32 cV cV cKI d a b && a.parOk ty
  | .bra _ _ => true
  | .call h d _ => d.isIn cVKs h.uni && (!h.uni || d.uniOk)
  | .rcv h _ => noUni h && always h
  | .brx h a | .ret h a => a.isIn cVK h.uni && (!h.uni || a.uniOk)
  | .exit _ | .nop _ | .yld _ => true
  | .eret h | .iret h => noUni h && always h
  | .trap h _ | .brk h _ => noUni h
  | .srd h b64 d a => daOk h (if b64 then .b64 else .b32) cVK cS d a
  | .swr h b64 d a => daOk h (if b64 then .b64 else .b32) cS cVKI d a && d.sWritable
  | .sleep h a => a.isIn cKI h.uni
  | .mmov h d a | .mrlu h d a | .mexp h d a | .mphi h d a => noUni h && daOk h .b32 cM cM d a
  | .mput h d a b => noUni h && dabOk h .b32 cM cVKG cVKG d a b
  | .mget h sel d a => noUni h && daOk h .b32 cV cM d a && (sel != .both || d.even)
  | .madd h _ _ d a b | .msub h _ _ d a b | .mmul h _ _ d a b | .mfma h _ _ d a b => noUni h && dabOk h .b32 cM cM cM d a b
  | .mscl h _ d a b => noUni h && dabOk h .b32 cM cM { k := true, g := true, pr := true } d a b
  | .msqr h _ d a => noUni h && daOk h .b32 cM cM d a
  | .mclp h sel _ d a b =>
    noUni h && dabOk h .b32 cV cM (match sel with | .mean | .sdev => cNo | .bound => cKG | .sample => cV) d a b
  | .mchk h _ d a => noUni h && daOk h .b32 cP cM d a
  | .lds h ty _ _ d a b => memD h ty { v := true, kStar := true, m := true } d && scratchAddrOk a b && uni3 h d a b
  | .sts h ty _ _ d a b => memD h ty { v := true, k := true, m := true } d && scratchAddrOk a b && uni3 h d a b
  | .ld h ty _ _ d a b => memD h ty { v := true, kStar := true, m := true } d && globalAddrOk a b && uni3 h d a b
  | .st h ty _ _ d a b => memD h ty { v := true, k := true, m := true } d && globalAddrOk a b && uni3 h d a b
  | .ldb h ty d a b | .stb h ty d a b => noUni h && memD h ty { v := true, m := true } d && a.isIn cK false && b.isIn cVKI false
  | .pft h _ a b => globalAddrOk a b && uni3 h .none a b
  | .fence _ _ _ | .rgn _ => true
  | .drel h d a b | .tinv h d a b => dabOk h .b32 cK cK cKI d a b
  | .tlbp h a b => daOk h .b32 cK cKI a b
  | .tlbu h a => a.isIn cK h.uni
  | .xprb h d a => daOk h .b32 cK cK d a
  | .atsAdd h ty _ _ d a b | .atsMin h ty _ _ d a b | .atsMax h ty _ _ d a b | .atsAnd h ty _ _ d a b
  | .atsOr h ty _ _ d a b | .atsXor h ty _ _ d a b | .atsExch h ty _ _ d a b => atomOk h false false ty d a b
  | .atsCas h ty _ _ d a b => atomOk h false true ty d a b
  | .atgAdd h ty _ _ d a b | .atgMin h ty _ _ d a b | .atgMax h ty _ _ d a b | .atgAnd h ty _ _ d a b
  | .atgOr h ty _ _ d a b | .atgXor h ty _ _ d a b | .atgExch h ty _ _ d a b => atomOk h true false ty d a b
  | .atgCas h ty _ _ d a b => atomOk h true true ty d a b
  | .grow h _ _ d a => daOk h .b32 cP cKI d a
  | .shrk h _ a | .tleave h a | .tbar h _ _ a | .xba h a => a.isIn cKI h.uni
  | .tjoin h d a b => dabOk h .b32 cK cK cKI d a b
  | .lsyn h _ _ b => noUni h && b.isIn cKI false
  | .xbi h a b | .xbe h a b | .xbw h a b => daOk h .b32 cKI cKI a b
  | .xbt h d a b => dabOk h .b32 cP cKI cKI d a b
  | .cpy h _ a b | .gth h _ a b | .sct h _ a b | .coll h _ a b | .rprt h _ a b => daOk h .b32 cKI cKI a b
  | .qput h a b => noUni h && daOk h .b32 cKI cVK a b
  | .qget h d a => noUni h && daOk h .b32 cV cKI d a
  | .mma h _ d a b | .mmas h _ d a b => noUni h && dabOk h .b32 cA cK cK d a b && a.evenK && b.evenK
  | .mmam h _ d a b => noUni h && dabOk h .b32 cA cK cK d a b && a.evenK && b.evenK && d.evenA
  | .azro h pr d => noUni h && d.isIn cA false && (!pr || d.evenA)
  | .ald h ty d a | .ast h ty _ _ d a => noUni h && daOk h .b32 cA cK d a && a.evenK && (ty != .m64 || d.evenA)
  | .amov h ty _ _ put d a b =>
    noUni h && (if put then dabOk h .b32 cA (if ty == .m64 then cM else cV) cKI d a b && (ty != .m64 || d.evenA)
      else dabOk h .b32 (if ty == .m64 then cM else cV) cA cKI d a b && (ty != .m64 || a.evenA))
  | .mwt _ | .omrk _ => true
  | .mkm h _ _ a | .mks h _ a | .mkc h _ a | .mkp h _ a | .mkl h _ a | .mkn h _ a | .mkr h _ a | .mkw h _ a
  | .mkt h _ a | .hins h _ a | .vcmd h _ a | .vred h a => blockOk h a
  | .wopn h _ _ d | .wqt h _ _ _ d => d.isIn cK h.uni
  | .csig h _ a b => daOk h .b32 cK cKI a b
  | .swait h _ d a b => dabOk h .b32 cK cK cKI d a b
  | _ => true

/-- The steps that no word encodes. -/
def Instr.isStep : Instr → Bool
  | .issueSelect _ | .activeSetEntry _ _ | .activeSetDisplacement _ _ | .trackedWriteLand _ _ | .trapwaitRetry _ _
  | .userInterrupt _ | .threadDead _ _ | .sleepExpire _ _ | .growGrant _ | .growWaitFail _ | .batchPlace _ _ _ _
  | .partitionWordWrite _ _ | .barrierArrivalMsg _ _ _ _ | .barrierRelease _ _ | .barTimeout _ _
  | .engineQueueAdmit _ _ | .engineCommandStart _ _ | .sectorLand _ _ _ | .engineCommandFault _ _ | .queueWake _ _
  | .reservationAdmit _ | .matrixPassStart _ | .tileCommandStart _ | .matrixRowCommit _ | .matrixPassSuspend _
  | .matrixCommandComplete _ | .matrixEngineError _ | .fetchFault _ _ | .pageFaultService _ _ | .regionRestart _
  | .rsbEntryWait _ _ | .tinvAgentAck _ | .tinvRegisterWrite _ _ _ _ | .timingReplay _ | .screenShadowEnd _ _
  | .drain _ _ | .propagate _ _ | .fill _ _ | .drop _ _ | .send _ _ | .wcbAgeSend _ | .apply _ _ | .transactionAck _
  | .markAccept _ | .vatCommandProcess _ _ | .waveMessageConsume _ _ | .stepClose _ _ _ | .deckleSweep _ _
  | .fabricSweep _ _ _ _ | .vatSelfRefreshEntry _ _ | .vatSelfRefreshExit _ | .vredReduce _ | .vcmdBank _
  | .flitRetry _ _ _ | .linkFailed _ _ _ | .moduleDown _ | .blockedPacket _ _ _ | .recoveryToken _ | .swaitReread _ _
  | .collAccept _ | .collDigestCompare _ _ _ | .collCombine _ _ _ | .collComplete _ _ _ | .couchAssign _ _ _
  | .sqtail _ _ _ _ | .cqhead _ _ _ | .enable _ _ _ | .queueFetch _ _ | .nopEntry _ _ | .launch _ _ _ _
  | .snapshot _ _ | .commit _ _ | .bill _ _ | .completionWrite _ _ | .jobEnd _ | .pasidTeardown _
  | .teardownTimeout _ | .fairSharePlace _ _ _ | .latencyBoundExpire _ | .batchSave _ | .batchResume _ _ _ _ | .batchFlush _
  | .batchDrain _ | .firmwareTrapService _ _ | .firmwareResume _ _ | .debugResume _ _ _ | .mailboxMessage _ _ _
  | .accessTableWrite _ _ _ _ | .hostAccessDenied _ _ _ _ | .moduleReset _ _ | .registerWrite _ _
  | .wavePortForward _ _ _ | .hostCxlMemAccess _ _ _ _ _ | .translationResponse _ | .pkgUncorr _ | .hartDenied _ _ _ _ => true
  | _ => false

/-- A well-formed instruction: one that decoding accepts (R59, checks 1 to 3). -/
def WellFormed (i : Instr) : Bool := !i.isStep && modOk i && fieldOk i

end Sys2Proof
end

