-- ==== Sys2Proof/Machine/Num.lean ====
section
/-!
DEFINITION. Number formats (R89 to R91), exact reals, rounding (R94, R95), stochastic rounding keys (R96), flags (R98),
conversions (R99, R100), the fixed tree (R102 to R104), Q-formats (R105 to R109), sparse lines (R110 to R112).
An exact real is (m + the signed square roots of naturals) times 2^e, so that every sum, product and moment expression
of the manual is held without loss before its one rounding (R101, R175).
-/
namespace Sys2Proof.Machine

/-- A floating format: exponent bits, fraction bits, bias; G8 has no infinities (R89, R91). -/
structure Fmt where
  eb : Nat
  p : Nat
  bias : Nat
  g8 : Bool := false
  deriving DecidableEq, Repr

def fmtW64 : Fmt := { eb := 10, p := 53, bias := 511 }
def fmtF64 : Fmt := { eb := 11, p := 52, bias := 1023 }
def fmtF32 : Fmt := { eb := 8, p := 23, bias := 127 }
def fmtG16 : Fmt := { eb := 8, p := 7, bias := 127 }
def fmtF16 : Fmt := { eb := 5, p := 10, bias := 15 }
def fmtG8 : Fmt := { eb := 4, p := 3, bias := 8, g8 := true }

/-- The format of a floating type; F32 for the others, which never ask. -/
def fmtOf (ty : Ty) : Fmt :=
  match ty with
  | .f64 => fmtF64
  | .g16 => fmtG16
  | .f16 => fmtF16
  | .g8 => fmtG8
  | _ => fmtF32

/-- Width of a format in bits. -/
def Fmt.width (f : Fmt) : Nat := 1 + f.eb + f.p

/-- The exponent of the largest finite values (R90). -/
def Fmt.emax (f : Fmt) : Int := if f.g8 then (2 ^ f.eb - 1 : Int) - f.bias else (2 ^ f.eb - 2 : Int) - f.bias

/-- The exponent of the smallest normal value (R90). -/
def Fmt.emin (f : Fmt) : Int := 1 - (f.bias : Int)

/-- The canonical NaN (R90, R92). -/
def Fmt.qnan (f : Fmt) : Nat := if f.g8 then 0x80 else (2 ^ f.eb - 1) * 2 ^ f.p + 2 ^ (f.p - 1)

/-- The encoding of an infinity; 0x80 in G8 (R90, R95). -/
def Fmt.infBits (f : Fmt) (neg : Bool) : Nat :=
  if f.g8 then 0x80 else neg.toNat * 2 ^ (f.eb + f.p) + (2 ^ f.eb - 1) * 2 ^ f.p

/-- The encoding of the largest finite value (R90). -/
def Fmt.maxBits (f : Fmt) (neg : Bool) : Nat :=
  neg.toNat * 2 ^ (f.eb + f.p) + (if f.g8 then 2 ^ (f.eb + f.p) - 1 else (2 ^ f.eb - 1) * 2 ^ f.p - 1)

/-- The encoding of a signed zero; G8 has one zero (R91). -/
def Fmt.zeroBits (f : Fmt) (neg : Bool) : Nat := if f.g8 then 0 else neg.toNat * 2 ^ (f.eb + f.p)

/-- The value of an encoding: NaN (signalling or not), infinity, or (-1)^neg m 2^e (R90). -/
inductive Num
  | nan (sig : Bool)
  | inf (neg : Bool)
  | fin (neg : Bool) (m : Nat) (e : Int)
  deriving DecidableEq, Repr

/-- Reads an encoding in a format (R90, R91). -/
def Fmt.dec (f : Fmt) (x : Nat) : Num :=
  let s := bitAt x (f.eb + f.p)
  let E := bitsOf x (f.eb + f.p - 1) f.p
  let T := x % 2 ^ f.p
  if f.g8 then
    if x % 256 = 0x80 then .nan false
    else if E = 0 then .fin s T (1 - (f.bias : Int) - f.p)
    else .fin s (2 ^ f.p + T) ((E : Int) - f.bias - f.p)
  else if E = 2 ^ f.eb - 1 then
    if T = 0 then .inf s else .nan (!bitAt T (f.p - 1))
  else if E = 0 then .fin s T (1 - (f.bias : Int) - f.p)
  else .fin s (2 ^ f.p + T) ((E : Int) - f.bias - f.p)

def Num.isNan : Num → Bool
  | .nan _ => true
  | _ => false

def Num.isSig : Num → Bool
  | .nan s => s
  | _ => false

def Num.isInf : Num → Bool
  | .inf _ => true
  | _ => false

def Num.isZero : Num → Bool
  | .fin _ m _ => m == 0
  | _ => false

def Num.neg : Num → Bool
  | .nan _ => false
  | .inf s => s
  | .fin s _ _ => s

/-- Sticky flag sets in %fflag's order: nv 4, dz 3, of 2, uf 1, nx 0 (R77). -/
abbrev Flags := BitVec 5

def flNone : Flags := 0#5
def flNv : Flags := 16#5
def flDz : Flags := 8#5
def flOf : Flags := 4#5
def flUf : Flags := 2#5
def flNx : Flags := 1#5

def flIf (b : Bool) (f : Flags) : Flags := if b then f else flNone

/-- Newton's iteration for the integer square root, from above. -/
def isqrtGo (n : Nat) : Nat → Nat → Nat
  | 0, x => x
  | k + 1, x =>
    let y := (x + n / x) / 2
    if y < x then isqrtGo n k y else x

/-- The integer square root. -/
def isqrt (n : Nat) : Nat := if n = 0 then 0 else isqrtGo n (n.log2 + 2) (2 ^ (n.log2 / 2 + 1))

/-- A bit length: 0 for 0. -/
def bitLen (n : Nat) : Nat := if n = 0 then 0 else n.log2 + 1

/-- An exact real: (m + signed roots) 2^e; `zneg` is the sign of an exact zero (R94). -/
structure XR where
  zneg : Bool
  m : Int
  e : Int
  rs : List (Bool × Nat)
  deriving DecidableEq, Repr

/-- An exact extended real: what an operation gives before rounding (R101, R104). -/
inductive Ext
  | nan
  | inf (neg : Bool)
  | fin (x : XR)
  deriving DecidableEq, Repr

def XR.isZero (x : XR) : Bool := x.m == 0 && x.rs.isEmpty

/-- A dyadic exact real. -/
def XR.dy (neg : Bool) (m : Nat) (e : Int) : XR := { zneg := neg, m := if neg then -(m : Int) else m, e := e, rs := [] }

def Num.ext : Num → Ext
  | .nan _ => .nan
  | .inf s => .inf s
  | .fin s m e => .fin (XR.dy s m e)

/-- The same real at a lower exponent. -/
def XR.lower (x : XR) (k : Nat) : XR :=
  { x with m := x.m * 2 ^ k, e := x.e - k, rs := x.rs.map fun (s, q) => (s, q * 4 ^ k) }

/-- The sum of two exact reals; an exact zero from nonzero terms or from zeros of two signs is +0, and -0 under .rdn
(R94). -/
def XR.add (rdn : Bool) (x y : XR) : XR :=
  let e := min x.e y.e
  let x' := x.lower (x.e - e).toNat
  let y' := y.lower (y.e - e).toNat
  let z := if x.isZero && y.isZero && x.zneg == y.zneg then x.zneg else rdn
  { zneg := z, m := x'.m + y'.m, e := e, rs := x'.rs ++ y'.rs }

def XR.neg (x : XR) : XR := { zneg := !x.zneg, m := -x.m, e := x.e, rs := x.rs.map fun (s, q) => (!s, q) }

def Ext.neg : Ext → Ext
  | .nan => .nan
  | .inf s => .inf (!s)
  | .fin x => .fin x.neg

/-- The sum of two extended reals; ∞ - ∞ is a NaN and invalid (R98, R104). -/
def Ext.add (rdn : Bool) (x y : Ext) : Ext × Flags :=
  match x, y with
  | .nan, _ => (.nan, flNone)
  | _, .nan => (.nan, flNone)
  | .inf s, .inf t => if s == t then (.inf s, flNone) else (.nan, flNv)
  | .inf s, _ => (.inf s, flNone)
  | _, .inf t => (.inf t, flNone)
  | .fin a, .fin b => (.fin (a.add rdn b), flNone)

/-- The exact product of two values; 0 × ∞ is a NaN and invalid, a signalling NaN is invalid (R98, R101). -/
def Num.mul (x y : Num) : Ext × Flags :=
  let sig := flIf (x.isSig || y.isSig) flNv
  match x, y with
  | .nan _, _ => (.nan, sig)
  | _, .nan _ => (.nan, sig)
  | .inf s, .inf t => (.inf (s != t), flNone)
  | .inf s, .fin t m _ => if m = 0 then (.nan, flNv) else (.inf (s != t), flNone)
  | .fin s m _, .inf t => if m = 0 then (.nan, flNv) else (.inf (s != t), flNone)
  | .fin s m e, .fin t n e' => (.fin (XR.dy (s != t) (m * n) (e + e')), flNone)

/-- A magnitude: in [M 2^E, M 2^E] when not sticky, strictly between M 2^E and (M + 1) 2^E when sticky. -/
structure Mag where
  neg : Bool
  M : Nat
  E : Int
  sticky : Bool
  deriving DecidableEq, Repr

/-- The magnitude of an irrational strictly between L 2^E and (L + 1) 2^E. -/
def magBetween (L : Int) (E : Int) : Mag :=
  if 0 ≤ L then { neg := false, M := L.toNat, E := E, sticky := true }
  else { neg := true, M := (-L - 1).toNat, E := E, sticky := true }

/-- The magnitude of m ± √q, q no square. -/
def magOne (m : Int) (e : Int) (s : Bool) (q : Nat) : Mag :=
  let K := bitLen m.natAbs + bitLen q + 100
  let S : Int := isqrt (q * 4 ^ K)
  let L := m * 2 ^ K + (if s then -S - 1 else S)
  magBetween L (e - K)

/-- The magnitude of an exact real with at most two roots: perfect squares and commensurable roots are folded, so what
is left is irrational. -/
def XR.mag (x : XR) : Mag :=
  let fold := x.rs.foldl (fun (acc : Int × List (Bool × Nat)) (r : Bool × Nat) =>
    let k := isqrt r.2
    if k * k = r.2 then (acc.1 + (if r.1 then -(k : Int) else k), acc.2) else (acc.1, acc.2 ++ [r])) (x.m, [])
  match fold.2 with
  | [] => { neg := if fold.1 = 0 then x.zneg else fold.1 < 0, M := fold.1.natAbs, E := x.e, sticky := false }
  | [(s, q)] => magOne fold.1 x.e s q
  | (s1, q1) :: (s2, q2) :: _ =>
    let r := isqrt (q1 * q2)
    if r * r = q1 * q2 then
      let c : Int := (if s1 then -(q1 : Int) else q1) + (if s2 then -(r : Int) else r)
      if c = 0 then { neg := if fold.1 = 0 then x.zneg else fold.1 < 0, M := fold.1.natAbs, E := x.e, sticky := false }
      else
        let m' := fold.1 * q1
        let q' := c.natAbs * c.natAbs * q1
        let K := bitLen m'.natAbs + bitLen q' + bitLen q1 + 100
        let S : Int := isqrt (q' * 4 ^ K)
        let L := m' * 2 ^ K + (if c < 0 then -S - 1 else S)
        magBetween (L / (q1 : Int)) (x.e - K)
    else
      let bl := bitLen fold.1.natAbs + bitLen q1 + bitLen q2
      let K' := 3 * bl + 100
      let W := 3 * (K' + bl) + 64
      let S1 : Int := isqrt (q1 * 4 ^ (K' + W))
      let S2 : Int := isqrt (q2 * 4 ^ (K' + W))
      let A := fold.1 * 2 ^ (K' + W) + (if s1 then -S1 - 1 else S1) + (if s2 then -S2 - 1 else S2)
      magBetween ((A + 1) / (2 ^ W : Int)) (x.e - K')

/-- The choice between the two neighbours (R94, R96): true takes the larger magnitude. `n` is the lower neighbour in
units, `rem` the exact remainder below 2^sh with a sticky part beyond it, `r` the stochastic draw. -/
def roundAway (md : Rnd) (neg : Bool) (n rem sh : Nat) (sticky : Bool) (r : Nat) : Bool :=
  let inexact := rem != 0 || sticky
  let half := if sh = 0 then false else bitAt rem (sh - 1)
  let below := (if sh = 0 then false else rem % 2 ^ (sh - 1) != 0) || sticky
  match md with
  | .rne => half && (below || n % 2 == 1)
  | .rtz => false
  | .rup => !neg && inexact
  | .rdn => neg && inexact
  | .rna => half
  | .sr => inexact && r < rem * 2 ^ 24 / 2 ^ sh

/-- A rounded result: its encoding and the flags it raises (R98). -/
structure Rounded where
  bits : Nat
  fl : Flags
  deriving DecidableEq, Repr

/-- The overflowed result of R95. -/
def overflowBits (f : Fmt) (md : Rnd) (sat neg : Bool) : Nat :=
  if sat then f.maxBits neg
  else match md with
    | .rne | .rna | .sr => f.infBits neg
    | .rtz => f.maxBits neg
    | .rup => if neg then f.maxBits neg else f.infBits neg
    | .rdn => if neg then f.infBits neg else f.maxBits neg

/-- Splits a magnitude at quantum 2^qe: the units, the remainder and its width. -/
def splitAt (g : Mag) (qe : Int) : Nat × Nat × Nat :=
  let sh := qe - g.E
  if sh ≤ 0 then (g.M * 2 ^ (-sh).toNat, 0, 0)
  else (g.M / 2 ^ sh.toNat, g.M % 2 ^ sh.toNat, sh.toNat)

/-- Encodes n units of 2^qe in a format; n 2^qe is a value of the format. -/
def encodeUnits (f : Fmt) (neg : Bool) (n : Nat) (qe : Int) : Nat :=
  let s := neg.toNat * 2 ^ (f.eb + f.p)
  if n = 0 then f.zeroBits neg
  else
    let ex := (n.log2 : Int) + qe
    if ex < f.emin then s + n * 2 ^ (qe - (f.emin - f.p)).toNat
    else
      let E := (ex + f.bias).toNat
      let sh := ex - f.p - qe
      let t := if sh ≤ 0 then n * 2 ^ (-sh).toNat else n / 2 ^ sh.toNat
      s + E * 2 ^ f.p + (t - 2 ^ f.p)

/-- Rounds a nonzero magnitude once to a format (R94, R95, R98). `r` is the stochastic draw. -/
def roundMag (f : Fmt) (md : Rnd) (sat : Bool) (r : Nat) (g : Mag) : Rounded :=
  let ex := (g.M.log2 : Int) + g.E
  let qe := max (ex - f.p) (f.emin - f.p)
  let (n, rem, sh) := splitAt g qe
  let inexact := rem != 0 || g.sticky
  let n' := if roundAway md g.neg n rem sh g.sticky r then n + 1 else n
  if n' ≠ 0 ∧ f.emax < (n'.log2 : Int) + qe then
    { bits := overflowBits f md sat g.neg, fl := flOf ||| flNx }
  else
    let (u, urem, ush) := splitAt g (ex - f.p)
    let u' := if roundAway md g.neg u urem ush g.sticky r then u + 1 else u
    let tiny := (u'.log2 : Int) + (ex - f.p) < f.emin
    { bits := encodeUnits f g.neg n' qe, fl := flIf inexact flNx ||| flIf (inexact && tiny) flUf }

/-- mix64 of R96. -/
def mix64 (z : W64) : W64 :=
  let z1 := (z ^^^ (z >>> 30)) * 0xBF58476D1CE4E5B9#64
  let z2 := (z1 ^^^ (z1 >>> 27)) * 0x94D049BB133111EB#64
  z2 ^^^ (z2 >>> 31)

/-- The draw of R96 for an exact value, from the key mixed up to the element index: bits 63-40 of the last key, which
takes the value truncated to W64. -/
def srDraw (key : W64) (g : Mag) : Nat :=
  let t := (roundMag fmtW64 .rtz false 0 g).bits
  bitsOf (mix64 (key ^^^ BitVec.ofNat 64 t)).toNat 63 40

/-- Rounds a magnitude, drawing the key only under .sr (R96). -/
def roundMagKey (f : Fmt) (md : Rnd) (sat : Bool) (key : W64) (g : Mag) : Rounded :=
  roundMag f md sat (if md == .sr then srDraw key g else 0) g

/-- round(x, fmt, mode) of R8, with .sat by R95. An infinity into G8 is invalid (R98). The largest value that
.sat puts in place of an infinity which was no overflow is not inexact (R128, log 69). -/
def roundExt (f : Fmt) (md : Rnd) (sat : Bool) (key : W64) (x : Ext) : Rounded :=
  match x with
  | .nan => { bits := f.qnan, fl := flNone }
  | .inf s => { bits := if sat then f.maxBits s else f.infBits s, fl := flIf f.g8 flNv }
  | .fin x =>
    let g := x.mag
    if g.M = 0 ∧ !g.sticky then { bits := f.zeroBits g.neg, fl := flNone }
    else roundMagKey f md sat key g

/-- w64(x) of R8; a node's rounding sets no flag but of (R98). -/
def w64Of (x : Ext) : Nat × Flags :=
  let r := roundExt fmtW64 .rne false 0 x
  (r.bits, r.fl &&& flOf)

/-- One level of the tree of R102: pairs are added and rounded, an unpaired last element is rounded alone. -/
def treeLevel : List Ext → List Ext × Flags
  | x :: y :: rest =>
    let (s, fl1) := x.add false y
    let (w, fl2) := w64Of s
    let (t, fl3) := treeLevel rest
    ((fmtW64.dec w).ext :: t, fl1 ||| fl2 ||| fl3)
  | [x] =>
    let (w, fl) := w64Of x
    ([(fmtW64.dec w).ext], fl)
  | [] => ([], flNone)

/-- tree_sum of R102 by levels; `fuel` bounds the number of levels. -/
def treeGo : Nat → List Ext → Nat × Flags
  | 0, _ => (0, flNone)
  | _ + 1, [] => (0, flNone)
  | _ + 1, [x] => w64Of x
  | k + 1, xs =>
    let (ys, fl) := treeLevel xs
    let (r, fl') := treeGo k ys
    (r, fl ||| fl')

/-- tree_sum of R102: the W64 encoding of the root and the flags of the nodes. -/
def treeSum (xs : List Ext) : Nat × Flags := treeGo (xs.length + 1) xs

/-- acc := w64(acc + root) of R103, on W64 encodings. -/
def accumulate (acc root : Nat) : Nat × Flags :=
  let (s, f1) := (fmtW64.dec acc).ext.add false (fmtW64.dec root).ext
  let (w, f2) := w64Of s
  (w, f1 ||| f2)

/-- FADD, FSUB on two encodings of one format (R128). -/
def fAdd (f : Fmt) (md : Rnd) (sat : Bool) (key : W64) (sub : Bool) (a b : Nat) : Rounded :=
  let x := f.dec a
  let y := f.dec b
  let y' := if sub then y.ext.neg else y.ext
  let (s, fl) := x.ext.add (md == .rdn) y'
  let r := roundExt f md sat key s
  { bits := r.bits, fl := r.fl ||| fl ||| flIf (x.isSig || y.isSig) flNv }

/-- FMUL (R128). -/
def fMul (f : Fmt) (md : Rnd) (sat : Bool) (key : W64) (a b : Nat) : Rounded :=
  let (s, fl) := (f.dec a).mul (f.dec b)
  let r := roundExt f md sat key s
  { bits := r.bits, fl := r.fl ||| fl }

/-- FFMA: the exact product plus c, rounded once (R101, R128). -/
def fFma (f : Fmt) (md : Rnd) (sat : Bool) (key : W64) (a b c : Nat) : Rounded :=
  let (p, f1) := (f.dec a).mul (f.dec b)
  let z := f.dec c
  let (s, f2) := p.add (md == .rdn) z.ext
  let r := roundExt f md sat key s
  { bits := r.bits, fl := r.fl ||| f1 ||| f2 ||| flIf z.isSig flNv }

/-- The magnitude of a quotient m/n 2^e. -/
def magDiv (neg : Bool) (m n : Nat) (e : Int) : Mag :=
  let K := bitLen n + 100
  { neg := neg, M := m * 2 ^ K / n, E := e - K, sticky := m * 2 ^ K % n != 0 }

/-- FDIV (R128). -/
def fDiv (f : Fmt) (md : Rnd) (sat : Bool) (key : W64) (a b : Nat) : Rounded :=
  let x := f.dec a
  let y := f.dec b
  let sig := flIf (x.isSig || y.isSig) flNv
  let infR := fun (s : Bool) => if sat then f.maxBits s else f.infBits s
  match x, y with
  | .nan _, _ => { bits := f.qnan, fl := sig }
  | _, .nan _ => { bits := f.qnan, fl := sig }
  | .inf _, .inf _ => { bits := f.qnan, fl := flNv }
  | .inf s, .fin t _ _ => { bits := infR (s != t), fl := flNone }
  | .fin s _ _, .inf t => { bits := f.zeroBits (s != t), fl := flNone }
  | .fin s m e, .fin t n e' =>
    if n = 0 then
      if m = 0 then { bits := f.qnan, fl := flNv } else { bits := infR (s != t), fl := flDz }
    else if m = 0 then { bits := f.zeroBits (s != t), fl := flNone }
    else roundMagKey f md sat key (magDiv (s != t) m n (e - e'))

/-- The root √(m 2^e) as an exact real (no sign). -/
def xrSqrt (m : Nat) (e : Int) : XR :=
  let odd := e % 2 = 1
  { zneg := false, m := 0, e := (if odd then e - 1 else e) / 2, rs := [(false, if odd then 2 * m else m)] }

/-- FSQRT (R128). -/
def fSqrt (f : Fmt) (md : Rnd) (key : W64) (a : Nat) : Rounded :=
  match f.dec a with
  | .nan s => { bits := f.qnan, fl := flIf s flNv }
  | .inf s => if s then { bits := f.qnan, fl := flNv } else { bits := f.infBits false, fl := flNone }
  | .fin s m e =>
    if m = 0 then { bits := f.zeroBits s, fl := flNone }
    else if s then { bits := f.qnan, fl := flNv }
    else roundExt f md false key (.fin (xrSqrt m e))

/-- FRCP: 1/a correctly rounded RNE (R133). -/
def fRcp (f : Fmt) (a : Nat) : Rounded :=
  match f.dec a with
  | .nan s => { bits := f.qnan, fl := flIf s flNv }
  | .inf s => { bits := f.zeroBits s, fl := flNone }
  | .fin s m e =>
    if m = 0 then { bits := f.infBits s, fl := flDz } else roundMag f .rne false 0 (magDiv s 1 m (-e))

/-- FRSQ: 1/√a correctly rounded RNE (R133). -/
def fRsq (f : Fmt) (a : Nat) : Rounded :=
  match f.dec a with
  | .nan s => { bits := f.qnan, fl := flIf s flNv }
  | .inf s => if s then { bits := f.qnan, fl := flNv } else { bits := f.zeroBits false, fl := flNone }
  | .fin s m e =>
    if m = 0 then { bits := f.infBits s, fl := flDz }
    else if s then { bits := f.qnan, fl := flNv }
    else
      let m' := if e % 2 = 1 then 2 * m else m
      let e' := (if e % 2 = 1 then e - 1 else e) / 2
      let K := bitLen m' + 100
      let M := isqrt (4 ^ K / m')
      roundMag f .rne false 0 { neg := false, M := M, E := -e' - K, sticky := M * M * m' != 4 ^ K }

/-- Compares two finite values as reals: -1, 0 or 1 as an ordering of exact integers. -/
def finLt (s : Bool) (m : Nat) (e : Int) (t : Bool) (n : Nat) (e' : Int) : Bool :=
  let k := min e e'
  let x : Int := (if s then -(m : Int) else m) * 2 ^ (e - k).toNat
  let y : Int := (if t then -(n : Int) else n) * 2 ^ (e' - k).toNat
  x < y

/-- a < b on values that are no NaNs, with -0 equal to +0 (R131). -/
def Num.lt (x y : Num) : Bool :=
  match x, y with
  | .nan _, _ => false
  | _, .nan _ => false
  | .inf s, .inf t => s && !t
  | .inf s, .fin _ _ _ => s
  | .fin _ _ _, .inf t => !t
  | .fin s m e, .fin t n e' => finLt s m e t n e'

/-- a = b on values that are no NaNs (R131). -/
def Num.eqv (x y : Num) : Bool := !x.isNan && !y.isNan && !x.lt y && !y.lt x

/-- FMIN and FMAX (R130): NaNs are passed over, -0 lies below +0, the chosen operand's encoding is unchanged. -/
def fMinMax (f : Fmt) (mx : Bool) (a b : Nat) : Rounded :=
  let x := f.dec a
  let y := f.dec b
  let fl := flIf (x.isSig || y.isSig) flNv
  let less := x.lt y || (x.eqv y && x.neg && !y.neg)
  let bits :=
    if x.isNan then (if y.isNan then f.qnan else b)
    else if y.isNan then a
    else if mx then (if less then b else a)
    else if less then a else b
  { bits := bits, fl := fl }

/-- FCMP's result and invalid flag (R131). -/
def fCmp (f : Fmt) (c : FCond) (a b : Nat) : Bool × Flags :=
  let x := f.dec a
  let y := f.dec b
  let nan := x.isNan || y.isNan
  let sig := x.isSig || y.isSig
  let lt := x.lt y
  let gt := y.lt x
  match c with
  | .eq => (!nan && !lt && !gt, flIf sig flNv)
  | .ne => (nan || lt || gt, flIf sig flNv)
  | .lt => (lt, flIf nan flNv)
  | .le => (!nan && !gt, flIf nan flNv)
  | .gt => (gt, flIf nan flNv)
  | .ge => (!nan && !lt, flIf nan flNv)
  | .un => (nan, flIf sig flNv)
  | .ord => (!nan, flIf sig flNv)

/-- The class k of FCLS (R131). -/
def fClass (f : Fmt) (a : Nat) : Nat :=
  match f.dec a with
  | .nan s => if s then 0 else 1
  | .inf s => if s then 2 else 9
  | .fin s m _ =>
    if m = 0 then (if s then 5 else 6)
    else if m < 2 ^ f.p then (if s then 4 else 7)
    else if s then 3 else 8

/-- Rounds a magnitude to an integer: the signed integer and whether it differs (R100, R132). -/
def roundToInt (md : Rnd) (key : W64) (g : Mag) : Int × Bool :=
  let (n, rem, sh) := splitAt g 0
  let inexact := rem != 0 || g.sticky
  let r := if md == .sr && inexact then srDraw key g else 0
  let n' := if roundAway md g.neg n rem sh g.sticky r then n + 1 else n
  (if g.neg then -(n' : Int) else n', inexact)

/-- FRND (R132): nx alone tells of a rounding, of one to zero too (log 18). -/
def fRnd (f : Fmt) (md : Rnd) (key : W64) (a : Nat) : Rounded :=
  match f.dec a with
  | .nan s => { bits := f.qnan, fl := flIf s flNv }
  | .inf s => { bits := f.infBits s, fl := flNone }
  | .fin s m e =>
    if m = 0 then { bits := f.zeroBits s, fl := flNone }
    else
      let (i, inex) := roundToInt md key { neg := s, M := m, E := e, sticky := false }
      { bits := encodeUnits f s i.natAbs 0, fl := flIf inex flNx }

/-- FSCL: a 2^n rounded (R132); n is already clamped. -/
def fScl (f : Fmt) (md : Rnd) (sat : Bool) (key : W64) (a : Nat) (n : Int) : Rounded :=
  match f.dec a with
  | .fin s m e => roundExt f md sat key (.fin (XR.dy s m (e + n)))
  | x => { bits := (roundExt f md sat key x.ext).bits, fl := flIf x.isSig flNv }

/-- A value of a format as an operation writes it: any NaN is the canonical one (R92). -/
def Fmt.tidy (f : Fmt) (x : Nat) : Nat := if (f.dec x).isNan then f.qnan else x

/-- The same for a value of a type. -/
def Ty.tidy (ty : Ty) (x : Nat) : Nat := if ty.isFloat then (fmtOf ty).tidy x else x

/-- The range of an integer type (R88). -/
def Ty.minInt (ty : Ty) : Int := if ty.signed then -(2 ^ (ty.width - 1) : Int) else 0
def Ty.maxInt (ty : Ty) : Int := if ty.signed then 2 ^ (ty.width - 1) - 1 else 2 ^ ty.width - 1

/-- An integer register value read in a type (R88, R116). -/
def intRead (ty : Ty) (x : Nat) : Int := if ty.signed then sgn ty.width x else (x % 2 ^ ty.width : Nat)

/-- The register encoding of an integer of a type: its low bits, sign- or zero-extended to 32 bits when narrower, or
64 bits (R88, R116). -/
def intWrite (ty : Ty) (x : Int) : Nat :=
  if ty.width = 64 then toWrap 64 x
  else if ty.signed then toWrap 32 (sgn ty.width (toWrap ty.width x)) else toWrap ty.width x

/-- Floating to integer (R100): always saturating; NaN gives 0; those cases set nv and no nx. -/
def fToInt (ty : Ty) (md : Rnd) (key : W64) (x : Ext) : Int × Flags :=
  match x with
  | .nan => (0, flNv)
  | .inf s => (if s then minInt ty else maxInt ty, flNv)
  | .fin x =>
    let g := x.mag
    if g.M = 0 ∧ !g.sticky then (0, flNone)
    else
      let (i, inex) := roundToInt md key g
      if i < minInt ty then (minInt ty, flNv)
      else if maxInt ty < i then (maxInt ty, flNv)
      else (i, flIf inex flNx)
where
  minInt (ty : Ty) : Int := Ty.minInt ty
  maxInt (ty : Ty) : Int := Ty.maxInt ty

/-- The levels V[c] of R105 in units of 1/1024. -/
def qLevels (q : QFmt) : List Int :=
  match q with
  | .q4 => [-1024, -725, -555, -427, -318, -221, -130, -43, 43, 130, 221, 318, 427, 555, 725, 1024]
  | .q3 => [-1024, -592, -326, -105, 105, 326, 592, 1024]
  | .q2 => [-1024, -284, 284, 1024]

/-- Bits per code, record length and records per page (R106, R107). -/
def qWidth (q : QFmt) : Nat :=
  match q with
  | .q2 => 2 | .q3 => 3 | .q4 => 4

def qLen (q : QFmt) : Nat := 1 + 8 * qWidth q

def qRecords (q : QFmt) : Nat :=
  match q with
  | .q2 => 123120 | .q3 => 83722 | .q4 => 63425

/-- Code j of a record's bytes (R106). -/
def qCode (q : QFmt) (rec : List Byte) (j : Nat) : Nat :=
  bitsOf (leVal rec.tail) (qWidth q * j + qWidth q - 1) (qWidth q * j)

/-- The exact value of element j of a record under superblock scale S (R108), with the product's invalid flag for a
signalling S. -/
def qElem (q : QFmt) (scale : Nat) (rec : List Byte) (j : Nat) : Num :=
  let v := ((qLevels q)[qCode q rec j]?).getD 0
  let b := (rec.head?.getD 0#8).toNat
  match fmtF32.dec scale with
  | .nan s => .nan s
  | .inf s => .inf (s != (decide (v < 0)))
  | .fin s m e => .fin (s != (decide (v < 0))) (v.natAbs * m * (b + 1)) (e - 18)

/-- |x 2^e - v s 2^es| as a comparable integer at exponent k. -/
def qDist (x : Int) (e : Int) (v : Int) (s : Nat) (es : Int) : Nat :=
  let k := min e es
  (1024 * x * 2 ^ (e - k).toNat - v * s * 2 ^ (es - k).toNat).natAbs

/-- The code of least distance; a tie takes the smaller level, and equal magnitudes the positive one (R109). -/
def qNearest (q : QFmt) (x : Int) (e : Int) (s : Nat) (es : Int) : Nat :=
  let lv := (qLevels q).zipIdx
  let better := fun (a b : Int × Nat) =>
    let da := qDist x e a.1 s es
    let db := qDist x e b.1 s es
    if da < db then true
    else if da > db then false
    else if a.1.natAbs < b.1.natAbs then true
    else if a.1.natAbs > b.1.natAbs then false
    else decide (a.1 > b.1)
  (lv.foldl (fun best c => if better c best then c else best) (lv.headD (0, 0))).2

/-- The codes' bit stream after the scale byte (R106). -/
def qPack (q : QFmt) (b : Nat) (cs : List Nat) : List Byte :=
  let stream := cs.zipIdx.foldl (fun acc (c, j) => acc + c * 2 ^ (qWidth q * j)) 0
  BitVec.ofNat 8 b :: leBytes (8 * qWidth q) stream

/-- Whether a decoded element differs from its source (R109); two NaNs do not (log 62). -/
def Num.differs (y x : Num) : Bool := !(y.eqv x) && !(y.isNan && x.isNan)

/-- Scale byte and codes of R109 for 64 values against a superblock scale, with nv and of. -/
def qCodes (q : QFmt) (scale : Nat) (xs : List Num) : Nat × List Nat × Flags :=
  let L := (qLevels q).length
  let bad := (0, xs.map fun _ => L / 2, flNv)
  match fmtF32.dec scale with
  | .fin false m es =>
    if m = 0 then bad
    else
      let big := xs.foldl (fun (acc : Num) x =>
        match x with
        | .fin _ n e => if acc.lt (.fin false n e) then .fin false n e else acc
        | _ => acc) (.fin false 0 0)
      let (n, e) := match big with | .fin _ n e => (n, e) | _ => (0, 0)
      let k := min e es
      let num := 256 * n * 2 ^ (e - k).toNat
      let den := m * 2 ^ (es - k).toNat
      let b := (clampInt 0 255 ((ceilDiv num den : Int) - 1)).toNat
      let cs := xs.map fun x =>
        match x with
        | .nan _ => (L / 2, flNv)
        | .inf t => (if t then 0 else L - 1, flOf)
        | .fin t c ex => (qNearest q (if t then -(c : Int) else c) ex (m * (b + 1)) (es - 8), flNone)
      (b, cs.map (·.1), cs.foldl (fun f c => f ||| c.2) flNone ||| flIf (decide (num > 256 * den)) flOf)
  | _ => bad

/-- The record that encodes 64 values against a superblock scale, with its flags: nx where a decoded element differs from
its source, whatever the scale (R109). -/
def qEncode (q : QFmt) (scale : Nat) (xs : List Num) : List Byte × Flags :=
  let (b, cs, fl) := qCodes q scale xs
  let rec_ := qPack q b cs
  (rec_, fl ||| flIf (xs.zipIdx.any fun x => (qElem q scale rec_ x.2).differs x.1) flNx)

/-- A mask byte of a sparse line has exactly four bits set (R112). -/
def fourBits (b : Byte) : Bool := ((List.range 8).filter fun i => b.getLsbD i).length == 4

/-- A sparse line meets R112: `g` mask bytes, then zero bytes up to byte 32. -/
def sparseOk (g : Nat) (line : List Byte) : Bool :=
  (line.take g).all fourBits && ((line.drop g).take (32 - g)).all (· == 0#8)

/-- The kept bytes of dense position `pos` in a line whose kept values are `sz` bytes; none where the mask bit is clear
(R110, R111). -/
def sparseElem (sz : Nat) (bytes : List Byte) (pos : Nat) : Option Nat :=
  let g := pos / 8
  let i := pos % 8
  let mb := (bytes[g]?).getD 0#8
  if mb.getLsbD i then
    let k := ((List.range i).filter fun j => mb.getLsbD j).length
    some (leVal ((bytes.drop (32 + 4 * sz * g + sz * k)).take sz))
  else none

end Sys2Proof.Machine
end

