-- ==== Sys2Proof/Machine/Elem.lean ====
section
/-!
DEFINITION. The functions that R133 and R188 name and whose error R133 and R190 bound: 2^x, log2, sine, cosine, tanh, erf,
the normal distribution, and the means and variances of the moment functions. Each is evaluated in fixed point far beyond
the precision of any result, so that a free encoding is held within the manual's bound of the exact value (log 6).
-/
namespace Sys2Proof.Machine

/-! ## Fixed-point reals: an integer x stands for x 2^-p -/

/-- Bits after the point. -/
def fxBits : Nat := 512

def fxOne (p : Nat) : Int := 2 ^ p
def fxMul (p : Nat) (x y : Int) : Int := x * y / 2 ^ p
def fxDiv (p : Nat) (x y : Int) : Int := x * 2 ^ p / y
def fxSqrt (p : Nat) (x : Int) : Int := isqrt (x.toNat * 2 ^ p)

/-- An integer times a power of two, towards minus infinity. -/
def shInt (x : Int) (k : Int) : Int := if 0 ≤ k then x * 2 ^ k.toNat else x / 2 ^ (-k).toNat

/-- The value ±m 2^e. -/
def fxOf (p : Nat) (neg : Bool) (m : Nat) (e : Int) : Int := shInt (if neg then -(m : Int) else m) (e + p)

/-- A power series: each term is the last times y, over den n. -/
def fxSeries (p : Nat) (y : Int) (den : Nat → Int) : Nat → Nat → Int → Int
  | 0, _, _ => 0
  | k + 1, n, t => if t = 0 then 0 else t + fxSeries p y den k (n + 1) (fxMul p t y / den n)

/-- The series of arctangents: the sum of w y^k / (2k + 1). -/
def fxArc (p : Nat) (y : Int) : Nat → Nat → Int → Int
  | 0, _, _ => 0
  | j + 1, k, w => if w = 0 then 0 else w / (2 * k + 1) + fxArc p y j (k + 1) (fxMul p w y)

/-- π, ln 2 and the logarithm of 1 ≤ x < 2. -/
def fxPi (p : Nat) : Int :=
  let at_ := fun (n : Int) => fxArc p (-(fxOne p / (n * n))) p 0 (fxOne p / n)
  16 * at_ 5 - 4 * at_ 239
def fxAtanh (p : Nat) (z : Int) : Int := fxArc p (fxMul p z z) p 0 z
def fxLn2 (p : Nat) : Int := 2 * fxAtanh p (fxOne p / 3)
def fxLn (p : Nat) (x : Int) : Int := 2 * fxAtanh p (fxDiv p (x - fxOne p) (x + fxOne p))

/-- The arctangent of 0 ≤ z ≤ 1, its argument halved twice. -/
def fxAtan (p : Nat) (z : Int) : Int :=
  let half := fun (z : Int) => fxDiv p z (fxOne p + fxSqrt p (fxOne p + fxMul p z z))
  let w := half (half z)
  4 * fxArc p (-(fxMul p w w)) p 0 w

/-- e^x for 0 ≤ x < 1. -/
def fxExp01 (p : Nat) (x : Int) : Int := fxSeries p x (fun n => n + 1) p 0 (fxOne p)

/-- e^x as m 2^k, m in fixed point. -/
def fxExp (p : Nat) (x : Int) : Int × Int :=
  let l := fxLn2 p
  let k := x / l
  (fxExp01 p (x - k * l), k)

/-- e^x for a value in fixed point. -/
def fxExpv (p : Nat) (x : Int) : Int := let (m, k) := fxExp p x; if k < -(p : Int) then 0 else shInt m k

/-- erf x for 0 ≤ x; beyond 20 it is 1 but for less than one unit. -/
def fxErf (p : Nat) (x : Int) : Int :=
  if 20 * fxOne p ≤ x then fxOne p - 1
  else
    let y := fxMul p x x
    let (m, k) := fxExp p (-y)
    let s := fxSeries p (2 * y) (fun n => 2 * n + 3) (4 * p) 0 x
    fxMul p (fxDiv p (2 * fxOne p) (fxSqrt p (fxPi p))) (shInt (m * s) (k - p))

/-- The standard normal distribution function and density. -/
def fxPhi (p : Nat) (x : Int) : Int :=
  let r := fxErf p (fxDiv p x.natAbs (fxSqrt p (2 * fxOne p)))
  (fxOne p + (if x < 0 then -r else r)) / 2
def fxPdf (p : Nat) (x : Int) : Int :=
  if 40 * fxOne p ≤ x.natAbs then 0 else fxDiv p (fxExpv p (-(fxMul p x x / 2))) (fxSqrt p (2 * fxPi p))

/-- tanh x for 0 ≤ x. -/
def fxTanh (p : Nat) (x : Int) : Int :=
  if 300 * fxOne p ≤ x then fxOne p - 1
  else
    let e := fxExpv p (2 * x)
    fxDiv p (e - fxOne p) (e + fxOne p)

/-- The sum in Owen's function: the terms ±q_j a^(2j+1)/(2j+1), where q_j is 1 less the first j + 1 terms of the
exponential series at x, each times e^-x. -/
def fxOwenGo (p : Nat) (x a2 : Int) : Nat → Nat → Int → Int → Int → Int
  | 0, _, _, _, _ => 0
  | k + 1, j, t, q, w =>
    let q' := q - t
    fxMul p q' w / (2 * j + 1) + fxOwenGo p x a2 k (j + 1) (fxMul p t x / (j + 1)) q' (-(fxMul p w a2))

/-- Owen's T(h, a) for 0 ≤ a ≤ 1 and |h| < 16. -/
def fxOwen (p : Nat) (h a : Int) : Int :=
  let x := fxMul p h h / 2
  fxDiv p (fxAtan p a - fxOwenGo p x (fxMul p a a) (2 * p) 0 (fxExpv p (-x)) (fxOne p) a) (2 * fxPi p)

/-! ## Results within a bound -/

/-- A real of magnitude close to m 2^e: an integer and an exponent. -/
abbrev Apx := Int × Int

/-- The exponent of the unit in the last place at a value (R133, R190). -/
def Fmt.ulpExp (f : Fmt) (v : Apx) : Int := max ((v.1.natAbs.log2 : Int) + v.2 - f.p) (f.emin - f.p)

/-- Whether a finite encoding lies within k units in the last place, and a further tolerance, of a value. -/
def within (f : Fmt) (k : Nat) (more v : Apx) (x : Nat) : Bool :=
  match f.dec (x % 2 ^ f.width) with
  | .fin s m e =>
    let u := f.ulpExp v
    let q := min (min e u) (min v.2 more.2)
    let d := (if s then -(m : Int) else m) * 2 ^ (e - q).toNat - v.1 * 2 ^ (v.2 - q).toNat
    decide ((d.natAbs : Int) ≤ k * 2 ^ (u - q).toNat + more.1 * 2 ^ (more.2 - q).toNat)
  | _ => false

/-- The magnitude of an inexact value. -/
def apxMag (v : Apx) : Mag := { neg := v.1 < 0, M := max v.1.natAbs 1, E := v.2, sticky := true }

/-- The result of a function that the manual bounds: the free encoding where it lies within the bound of the exact value,
the correctly rounded one elsewhere. The flags are those of the exact value (R98), and its overflow that of R95. -/
def boundRound (f : Fmt) (k : Nat) (more v : Apx) (x : Nat) : Rounded :=
  let r := roundMag f .rne false 0 (apxMag v)
  if r.fl &&& flOf == flOf then r else { bits := if within f k more v x then x % 2 ^ f.width else r.bits, fl := r.fl }

/-! ## The functions -/

/-- A value in fixed point. -/
def fxApx (x : Int) : Apx := (x, -(fxBits : Int))

/-- An exponent held to where every format has overflowed or has nothing left. -/
def apxClamp (v : Apx) : Apx := (v.1, max (-4000) (min 4000 v.2))

/-- 2^x of ±m 2^e, |x| < 2^20. -/
def apxEx2 (neg : Bool) (m : Nat) (e : Int) : Apx :=
  let p := fxBits
  let x := fxOf p neg m e
  let n := x / fxOne p
  (fxExp01 p (fxMul p (x - n * fxOne p) (fxLn2 p)), n - p)

/-- log2 of m 2^e, m nonzero. -/
def apxLg2 (m : Nat) (e : Int) : Apx :=
  let p := fxBits
  fxApx (((m.log2 : Int) + e) * fxOne p + fxDiv p (fxLn p (fxOf p false m (-(m.log2 : Int)))) (fxLn2 p))

/-- sin or cos of ±m 2^e, its argument reduced by multiples of π/2. -/
def apxTrg (cos neg : Bool) (m : Nat) (e : Int) : Apx :=
  let p := fxBits + 256
  let x := fxOf p neg m e
  let h := fxPi p / 2
  let k := (2 * x + h) / (2 * h)
  let r := x - k * h
  let y := -(fxMul p r r)
  let n := (k + (if cos then 1 else 0)) % 4
  let v := if n % 2 = 0 then fxSeries p y (fun n => (2 * n + 2) * (2 * n + 3)) p 0 r
    else fxSeries p y (fun n => (2 * n + 1) * (2 * n + 2)) p 0 (fxOne p)
  (if n < 2 then v else -v, -(p : Int))

/-- An odd function of ±m 2^e. -/
def apxOdd (g : Nat → Int → Int) (neg : Bool) (m : Nat) (e : Int) : Apx :=
  let y := g fxBits (fxOf fxBits false m e)
  fxApx (if neg then -y else y)

/-- Φ of ±m 2^e. -/
def apxPhi (neg : Bool) (m : Nat) (e : Int) : Apx := fxApx (fxPhi fxBits (fxOf fxBits neg m e))

/-- e^x of an exact ±m 2^e, as m 2^k. -/
def apxExp (x : Int × Int) : Apx :=
  let p := fxBits + 256
  let (m, k) := fxExp p (shInt x.1 (x.2 + p))
  (m, k - p)

/-- A value as an integer times a power of two. -/
def Num.apx : Num → Apx
  | .fin s m e => (if s then -(m : Int) else m, e)
  | _ => (0, 0)

/-- The sum of two such values. -/
def apxAdd (x y : Apx) : Apx :=
  let e := min x.2 y.2
  (x.1 * 2 ^ (x.2 - e).toNat + y.1 * 2 ^ (y.2 - e).toNat, e)

/-- The square root of a positive value, to many bits. -/
def apxSqrt (x : Apx) : Apx :=
  let odd := x.2 % 2
  (isqrt (x.1.toNat * 2 ^ odd.toNat * 4 ^ fxBits), (x.2 - odd) / 2 - fxBits)

/-- The quotient of two values in fixed point. -/
def apxQuot (p : Nat) (x y : Apx) : Int := shInt (x.1 * 2 ^ 2048 / y.1) (x.2 - y.2 - 2048 + p)

/-- Mean and variance of MRLU at (μ, v), v > 0 (R188): with α = μ/σ the mean is σ (φ(α) + α Φ(α)) and the variance v times
(α² + 1) Φ(α) + α φ(α) less the square of the mean's factor. -/
def apxMrlu (mu v : Apx) : Apx × Apx :=
  let p := fxBits
  let sg := apxSqrt v
  let al := apxQuot p mu sg
  let P := fxPhi p al
  let d := fxPdf p al
  let g := d + fxMul p al P
  let w := if 40 * fxOne p ≤ al then fxOne p - 1 else fxMul p (fxMul p al al + fxOne p) P + fxMul p al d - fxMul p g g
  ((sg.1 * max g 1, sg.2 - p), (v.1 * max w 1, v.2 - p))

/-- Mean and variance of MEXP at (μ, v), v > 0 (R188). -/
def apxMexp (mu v : Apx) : Apx × Apx :=
  let p := fxBits
  let x := fxOf p false v.1.toNat v.2
  let em : Apx :=
    if x < fxOne p then (fxSeries p x (fun n => n + 2) p 0 x, -(p : Int))
    else let (m, k) := apxExp v; if 2 * (p : Int) < k + p then (m, k) else apxAdd (m, k) (-1, 0)
  let t := apxExp (apxAdd (mu.1, mu.2 + 1) v)
  (apxClamp (apxExp (apxAdd mu (v.1, v.2 - 1))), apxClamp (em.1 * t.1, em.2 + t.2))

/-- Mean and variance of MPHI at (μ, v), v > 0 (R188), by Φ₂(h, h; r) = Φ(h) - 2 T(h, √((1 - r)/(1 + r))). -/
def apxMphi (mu v : Apx) : Apx × Apx :=
  let p := fxBits
  let h := apxQuot p mu (apxSqrt (apxAdd v (1, 0)))
  let P := fxPhi p h
  let w := if 16 * fxOne p ≤ h.natAbs then 1
    else P - 2 * fxOwen p h (apxQuot p (1, 0) (apxSqrt (apxAdd (v.1, v.2 + 1) (1, 0)))) - fxMul p P P
  (fxApx (max P 1), fxApx (max w 1))

end Sys2Proof.Machine
end

