-- ==== Sys2Proof/Config.lean ====
section
/-!
DEFINITION. What the manual leaves open and the model leaves free: constants without a body, of which no proof can see
a value. Each names its entry of the assumption log.
-/
namespace Sys2Proof.Config

/-- R48: whether an uncovered read of a register sees a fixed-latency write that is not yet due. The argument is a
counter that the step advances (log 5). -/
opaque freeBit : Nat → Bool

/-- R133: the values of the transcendental functions FEX2, FLG2, FTRG (sine, cosine), FTNH, FERF and FPHI at operands
for which the manual gives only an error bound: the type and the operand's encoding give an encoding, which is the result
where it lies within the bound (log 6). -/
opaque fex2 : Ty → Nat → Nat
opaque flg2 : Ty → Nat → Nat
opaque fsin : Ty → Nat → Nat
opaque fcos : Ty → Nat → Nat
opaque ftnh : Ty → Nat → Nat
opaque ferf : Ty → Nat → Nat
opaque fphi : Ty → Nat → Nat

/-- R188, R189: mean and variance encodings of MRLU, MEXP and MPHI at moments for which the manual gives only an error
bound, used where they lie within it (log 6). -/
opaque mrlu : Nat → Nat → Nat × Nat
opaque mexp : Nat → Nat → Nat × Nat
opaque mphi : Nat → Nat → Nat × Nat

/-- R451: the SM3 digest of a report of 144 bytes, as a 256-bit value, and the SM2 signature of 80 bytes by the identity
key, as a 512-bit value (log 12). -/
opaque sm3 : List Byte → BitVec 256
opaque sm2 : Nat → List Byte → BitVec 512

/-- R451: what an account's counters of Vat cycles and energy in mJ gain between two reports, by a counter that the step advances:
the manual gives no cost of a Vat's work and no energy model (log 12). -/
opaque vatCycles : Nat → Nat
opaque energy : Nat → Nat

/-- R329: a hash of a strand's committed stores, suppressed commands and EXIT PC (log 12). -/
opaque sigHash : List Nat → BitVec 64

/-- R329: whether the draw selects an ending batch at rate N, by a counter the step advances (log 14). -/
opaque screenDraw : Nat → Nat → Bool

/-- R362: the channel to which firmware's rotation assigns an interleaved granule (log 15). -/
opaque channelOf : Nat → Nat

/-- R387: the edge type and weight that the message of a handler's SD_GO carries, by the sender's fabric node id and the
order of the spawn; the manual gives a message those of its edge, and a spawn has none (log 16). -/
opaque spawnEdge : Nat → Nat → Nat × BitVec 16

/-- R252: the word that a decoding copy writes for an element of a Q page under XTYPE .b32, whose rounding the manual does not
state, by the element's scale and record bytes and its place in the record (log 64). -/
opaque xdecWord : Nat → Nat → BitVec 32

/-- R308, R442: the message by which H3 passes a fault to H2, by the fault's number (log 57). -/
opaque faultMsg : Nat → BitVec 256

/-- R453: which 8-byte word of M holds the root pointer of a PASID's snapshots, and the two roots, by the PASID and which of the
two (log 50). -/
opaque rootAt : Nat → BitVec 34
opaque snapRoot : Nat → Bool → BitVec 64

/-- R450: the HBM region controller of a physical address, as a unit with an access table (log 57). -/
opaque regionOf : Nat → Nat

/-- R85: the bytes of the parts of a saved record whose contents are listed without their places (0 the header, 1 a region
store, 2 a held interrupt, 3 a team), in those contents (log 54). -/
opaque savePart : Nat → List Nat → Nat → Byte

end Sys2Proof.Config
end

