-- ==== Sys2Proof/Decode.lean ====
section
/-!
DEFINITION. Decoding a 96-bit instruction word (R39, R49, R53 to R57) and encoding an instruction. decode is total on
any number: an unassigned OPC, a MOD that breaks R55 and a field that breaks check 3 of R59 are refused by name.
-/
namespace Sys2Proof

/-- The refusals of decoding, in the order of R59's checks 1 to 3. -/
inductive DecodeErr
  | illegalOpc | illegalMod | illegalField
  deriving DecidableEq, Repr

/-- The fields of an instruction word (R39); `d`, `a`, `b` are the 21-bit specifiers. -/
structure RawWord where
  opc : Nat
  hdr : Hdr
  mod : Nat
  d : Nat
  a : Nat
  b : Nat
  f : Bool
  deriving DecidableEq, Repr

/-- Splits a word into its fields (R39). -/
def rawOf (w : Nat) : RawWord :=
  { opc := bitsOf w 95 86
    hdr := { gn := bitAt w 85, gp := BitVec.ofNat 3 (bitsOf w 84 82), stall := BitVec.ofNat 3 (bitsOf w 81 79),
             yld := bitAt w 78, ks := bitAt w 77, kd := bitAt w 76, wsb := bitAt w 75, hx := bitAt w 74, uni := bitAt w 73 }
    mod := bitsOf w 72 64
    d := bitsOf w 63 43
    a := bitsOf w 42 22
    b := bitsOf w 21 1
    f := bitAt w 0 }

/-- The 42-bit literal area: literal bit i is word bit i + 1 (R53). -/
def RawWord.lit (r : RawWord) : Nat := r.a * 2 ^ 21 + r.b

/-- The type code of R54. -/
def Ty.code : Ty → Nat
  | .i8 => 0 | .i16 => 1 | .i32 => 2 | .i64 => 3 | .n8 => 4 | .n16 => 5 | .n32 => 6 | .n64 => 7
  | .b32 => 8 | .b64 => 9 | .g8 => 10 | .g16 => 11 | .f16 => 12 | .f32 => 13 | .f64 => 14 | .m64 => 15

/-- The type of a code of R54. -/
def tyNo (n : Nat) : Option Ty :=
  match n with
  | 0 => some .i8 | 1 => some .i16 | 2 => some .i32 | 3 => some .i64 | 4 => some .n8 | 5 => some .n16
  | 6 => some .n32 | 7 => some .n64 | 8 => some .b32 | 9 => some .b64 | 10 => some .g8 | 11 => some .g16
  | 12 => some .f16 | 13 => some .f32 | 14 => some .f64 | 15 => some .m64 | _ => none

/-- The rounding code of R54. -/
def Rnd.code : Rnd → Nat
  | .rne => 0 | .rtz => 1 | .rup => 2 | .rdn => 3 | .rna => 4 | .sr => 5

/-- The rounding mode of a code; 6 and 7 are reserved (R54). -/
def rndNo (n : Nat) : Option Rnd :=
  match n with
  | 0 => some .rne | 1 => some .rtz | 2 => some .rup | 3 => some .rdn | 4 => some .rna | 5 => some .sr | _ => none

/-- The scope code of R54. -/
def Scope.code : Scope → Nat
  | .strand => 0 | .core => 1 | .cluster => 2 | .die => 3 | .module => 4 | .fabric => 5

/-- The scope of a code; 6 and 7 are reserved (R54). -/
def scopeNo (n : Nat) : Option Scope :=
  match n with
  | 0 => some .strand | 1 => some .core | 2 => some .cluster | 3 => some .die | 4 => some .module | 5 => some .fabric
  | _ => none

/-- The kind code of R54. -/
def Kind.code : Kind → Nat
  | .plain => 0 | .acq => 1 | .rel => 2 | .full => 3

def kindNo (n : Nat) : Kind :=
  match n with
  | 0 => .plain | 1 => .acq | 2 => .rel | _ => .full

/-- The covariance code of R54. -/
def Cov.code : Cov → Nat
  | .ctl => 0 | .ind => 1 | .pos => 2 | .neg => 3 | .rho => 4

/-- The covariance mode of a code; 5 to 7 are reserved (R172). -/
def covOf (n : Nat) : Option Cov :=
  match n with
  | 0 => some .ctl | 1 => some .ind | 2 => some .pos | 3 => some .neg | 4 => some .rho | _ => none

/-- The special registers in number order (R76). -/
def sregList : List SReg :=
  [.tid, .sidx, .bsize, .bidx, .bidy, .bidz, .lane, .core, .module, .slot, .job, .mask, .dmask, .fmask, .xmask,
   .valloc, .kalloc, .malloc, .aalloc, .cycle, .ctl, .mflag, .fflag, .mrow, .evec, .uvec, .uepc, .tsave, .hstate,
   .ecause, .epc, .eopc, .emod, .efd, .efa, .efb, .egrd]

/-- The number of a special register (R76). -/
def SReg.num (r : SReg) : Nat := sregList.findIdx (· == r)

/-- The condition code of ICMP (R126). -/
def ICond.code : ICond → Nat
  | .eq => 0 | .ne => 1 | .lt => 2 | .le => 3 | .gt => 4 | .ge => 5

/-- The condition code of FCMP (R131). -/
def FCond.code : FCond → Nat
  | .eq => 0 | .ne => 1 | .lt => 2 | .le => 3 | .gt => 4 | .ge => 5 | .un => 6 | .ord => 7

def QFmt.code : QFmt → Nat
  | .q2 => 0 | .q3 => 1 | .q4 => 2

def qfmtOf (n : Nat) : Option QFmt :=
  match n with
  | 0 => some .q2 | 1 => some .q3 | 2 => some .q4 | _ => none

def PForm.code : PForm → Nat
  | .test => 0 | .pack => 1 | .unpack => 2

def ShflMode.code : ShflMode → Nat
  | .abs => 0 | .rot => 1 | .bfly => 2 | .rev => 3

def RedOp.code : RedOp → Nat
  | .add => 0 | .min => 1 | .max => 2 | .and => 3 | .or => 4 | .xor => 5

def MgetSel.code : MgetSel → Nat
  | .mu => 0 | .var => 1 | .both => 2

def MclpSel.code : MclpSel → Nat
  | .mean => 0 | .sdev => 1 | .bound => 2 | .sample => 3

def MchkSel.code : MchkSel → Nat
  | .vneg => 0 | .nan => 1 | .inf => 2 | .bad => 3

def GClass.code : GClass → Nat
  | .v => 0 | .k => 1 | .m => 2

def MkmOp.code : MkmOp → Nat
  | .set => 0 | .or => 1 | .andn => 2

def SigOp.code : SigOp → Nat
  | .add => 0 | .set => 1 | .or => 2

def SigCond.code : SigCond → Nat
  | .ge => 0 | .eq => 1 | .ne => 2

/-- The SUB bits 4-2 of .c, and the SAT and bit 0 fields, of IADD and ISUB (R120). -/
def AddMode.sub : AddMode → Nat
  | .carry q => q.toNat
  | _ => 0

def AddMode.satBit : AddMode → Nat
  | .sat => 1
  | _ => 0

def AddMode.cBit : AddMode → Nat
  | .carry _ => 1
  | _ => 0

/-- The operand of a 21-bit specifier (R49); a specifier that R49 refuses reads as none here, and decoding then
finds that its bits differ from those of none. -/
def opndOf (x : Nat) : Opnd :=
  let i := x % 2 ^ 17
  match x / 2 ^ 17 with
  | 0 => .v (BitVec.ofNat 8 i)
  | 1 => .k (BitVec.ofNat 6 i)
  | 2 => .p (BitVec.ofNat 3 i)
  | 3 => .m (BitVec.ofNat 6 i)
  | 4 => .a (BitVec.ofNat 6 i)
  | 5 => match sregList[i]? with
    | some r => .s r
    | none => .none
  | 6 => .imm (BitVec.ofNat 17 i)
  | 7 => .g (BitVec.ofNat 16 (i / 2))
  | 9 => .pair (BitVec.ofNat 8 (i / 256)) (BitVec.ofNat 8 i)
  | _ => .none

/-- The 21-bit specifier of an operand (R49). -/
def Opnd.bits : Opnd → Nat
  | .v n => n.toNat
  | .k n => 1 * 2 ^ 17 + n.toNat
  | .p n => 2 * 2 ^ 17 + n.toNat
  | .m n => 3 * 2 ^ 17 + n.toNat
  | .a n => 4 * 2 ^ 17 + n.toNat
  | .s r => 5 * 2 ^ 17 + r.num
  | .imm x => 6 * 2 ^ 17 + x.toNat
  | .g x => 7 * 2 ^ 17 + 2 * x.toNat
  | .pair b c => 9 * 2 ^ 17 + 256 * b.toNat + c.toNat
  | .none => 15 * 2 ^ 17

/-- TYPE in MOD bits 8-5. -/
def tyOf (r : RawWord) : Option Ty := tyNo (bitsOf r.mod 8 5)

/-- The source TYPE of a conversion, MOD bits 4-1 (R55). -/
def styOf (r : RawWord) : Option Ty := tyNo (bitsOf r.mod 4 1)

/-- SAT in MOD bit 1 (R55). -/
def satOf (r : RawWord) : Bool := bitAt r.mod 1

def bit0Of (r : RawWord) : Bool := bitAt r.mod 0

/-- MOD bits 4-2. -/
def sub3Of (r : RawWord) : BitVec 3 := BitVec.ofNat 3 (bitsOf r.mod 4 2)

def rndOf (r : RawWord) : Option Rnd := rndNo (bitsOf r.mod 4 2)

/-- RND of the moment family, MOD bits 2-0 (R55). -/
def mrndOf (r : RawWord) : Option Rnd := rndNo (bitsOf r.mod 2 0)

def scopeOf (r : RawWord) : Option Scope := scopeNo (bitsOf r.mod 4 2)

def kindOf (r : RawWord) : Kind := kindNo (bitsOf r.mod 1 0)

def clsOf (r : RawWord) : BitVec 4 := BitVec.ofNat 4 r.mod

/-- The form of IADD and ISUB: .c with .sat is refused (R120). -/
def addModeOf (r : RawWord) : Option AddMode :=
  if bit0Of r then (if satOf r then none else some (.carry (sub3Of r)))
  else if satOf r then some .sat else some .wrap

def icondOf (r : RawWord) : Option ICond :=
  match bitsOf r.mod 4 2 with
  | 0 => some .eq | 1 => some .ne | 2 => some .lt | 3 => some .le | 4 => some .gt | 5 => some .ge | _ => none

def fcondOf (r : RawWord) : Option FCond :=
  match bitsOf r.mod 4 2 with
  | 0 => some .eq | 1 => some .ne | 2 => some .lt | 3 => some .le | 4 => some .gt | 5 => some .ge | 6 => some .un
  | _ => some .ord

def pformOf (r : RawWord) : Option PForm :=
  match bitsOf r.mod 1 0 with
  | 0 => some .test | 1 => some .pack | 2 => some .unpack | _ => none

def shflOf (r : RawWord) : ShflMode :=
  match bitsOf r.mod 1 0 with
  | 0 => .abs | 1 => .rot | 2 => .bfly | _ => .rev

def redOf (r : RawWord) : Option RedOp :=
  match bitsOf r.mod 4 2 with
  | 0 => some .add | 1 => some .min | 2 => some .max | 3 => some .and | 4 => some .or | 5 => some .xor | _ => none

def mgetOf (r : RawWord) : Option MgetSel :=
  match bitsOf r.mod 8 6 with
  | 0 => some .mu | 1 => some .var | 2 => some .both | _ => none

def mclpOf (r : RawWord) : Option MclpSel :=
  match bitsOf r.mod 8 6 with
  | 0 => some .mean | 1 => some .sdev | 2 => some .bound | 3 => some .sample | _ => none

def mchkOf (r : RawWord) : Option MchkSel :=
  match bitsOf r.mod 8 6 with
  | 0 => some .vneg | 1 => some .nan | 2 => some .inf | 3 => some .bad | _ => none

def gclassOf (r : RawWord) : Option GClass :=
  match bitsOf r.mod 6 5 with
  | 0 => some .v | 1 => some .k | 2 => some .m | _ => none

def mkmOf (r : RawWord) : Option MkmOp :=
  match bitsOf r.mod 5 4 with
  | 0 => some .set | 1 => some .or | 2 => some .andn | _ => none

def sigopOf (r : RawWord) : Option SigOp :=
  match bitsOf r.mod 6 5 with
  | 0 => some .add | 1 => some .set | 2 => some .or | _ => none

def sigcOf (r : RawWord) : Option SigCond :=
  match bitsOf r.mod 6 5 with
  | 0 => some .ge | 1 => some .eq | 2 => some .ne | _ => none

/-- The sources of an instruction with a wide form (R53). -/
def srcsOf (r : RawWord) : Srcs :=
  if r.f then .wide (BitVec.ofNat 42 r.lit) else .two (opndOf r.a) (opndOf r.b)

/-- The branch offset, literal bits 23-0 (R156). -/
def offOf (r : RawWord) : BitVec 24 := BitVec.ofNat 24 r.lit

/-- MOD of the integer and floating families: TYPE, bits 4-2, bit 1 and bit 0 (R55). -/
def mInt (ty : Ty) (s3 b1 b0 : Nat) : Nat := 32 * ty.code + 4 * s3 + 2 * b1 + b0

/-- MOD of the conversion family (R55). -/
def mConv (dt st sat : Nat) : Nat := 32 * dt + 2 * st + sat

/-- MOD with TYPE and five SUB bits (R55). -/
def mSub5 (ty : Ty) (s5 : Nat) : Nat := 32 * ty.code + s5

/-- MOD of the moment family (R55). -/
def mMom (sub cov rnd : Nat) : Nat := 64 * sub + 8 * cov + rnd

/-- MOD of the memory and synchronisation families (R55). -/
def mMem (hi : Nat) (sc : Scope) (kd : Kind) : Nat := 32 * hi + 4 * sc.code + kd.code

/-- The fields D, A, B and F of an instruction, as one number below 2^64 (word bits 63-0). -/
def abEnc (d a b : Opnd) : Nat := d.bits * 2 ^ 43 + a.bits * 2 ^ 22 + b.bits * 2

/-- D with a literal area and F = 1 (R53). -/
def wideEnc (d : Opnd) (l : Nat) : Nat := d.bits * 2 ^ 43 + l * 2 + 1

def srcEnc (d : Opnd) (src : Srcs) : Nat :=
  match src with
  | .two a b => abEnc d a b
  | .wide l => wideEnc d l.toNat

/-- A branch offset sign-extended into the literal area (R156). -/
def litEnc (d : Opnd) (off : BitVec 24) : Nat := wideEnc d (off.signExtend 42).toNat

/-- The MOD field of an instruction (R55 and the encoding tables). -/
def instrMod (i : Instr) : Nat :=
  match i with
  | .iadd _ ty md _ _ => mInt ty md.sub md.satBit md.cBit
  | .isub _ ty md _ _ => mInt ty md.sub md.satBit md.cBit
  | .imul _ ty sat _ _ => mInt ty 0 sat.toNat 0
  | .imulh _ ty _ _ _ => mInt ty 0 0 0
  | .imad _ ty sat _ _ _ => mInt ty 0 sat.toNat 0
  | .imin _ ty _ _ => mInt ty 0 0 0
  | .imax _ ty _ _ => mInt ty 0 0 0
  | .iabs _ ty sat _ _ => mInt ty 0 sat.toNat 0
  | .ineg _ ty sat _ _ => mInt ty 0 sat.toNat 0
  | .and _ ty _ _ => mInt ty 0 0 0
  | .or _ ty _ _ => mInt ty 0 0 0
  | .xor _ ty _ _ => mInt ty 0 0 0
  | .andn _ ty _ _ => mInt ty 0 0 0
  | .not _ ty _ _ => mInt ty 0 0 0
  | .shl _ ty _ _ _ => mInt ty 0 0 0
  | .shr _ ty _ _ _ => mInt ty 0 0 0
  | .sar _ ty _ _ _ => mInt ty 0 0 0
  | .rol _ ty _ _ _ => mInt ty 0 0 0
  | .popc _ ty _ _ => mInt ty 0 0 0
  | .clz _ ty _ _ => mInt ty 0 0 0
  | .ctz _ ty _ _ => mInt ty 0 0 0
  | .brev _ ty _ _ => mInt ty 0 0 0
  | .bfx _ ty _ _ _ => mInt ty 0 0 0
  | .bfi _ ty _ _ _ => mInt ty 0 0 0
  | .lea _ ty s _ _ _ => mInt ty s.toNat 0 0
  | .mov _ ty _ _ => mInt ty 0 0 0
  | .movi _ ty _ _ => mInt ty 0 0 0
  | .sel _ ty q neg _ _ _ => mInt ty q.toNat 0 neg.toNat
  | .icmp _ ty c _ _ _ => mInt ty c.code 0 0
  | .fadd _ ty rnd sat x2 _ _ => mInt ty rnd.code sat.toNat x2.toNat
  | .fsub _ ty rnd sat x2 _ _ => mInt ty rnd.code sat.toNat x2.toNat
  | .fmul _ ty rnd sat x2 _ _ => mInt ty rnd.code sat.toNat x2.toNat
  | .ffma _ ty rnd sat x2 _ _ _ => mInt ty rnd.code sat.toNat x2.toNat
  | .fmin _ ty x2 _ _ => mInt ty 0 0 x2.toNat
  | .fmax _ ty x2 _ _ => mInt ty 0 0 x2.toNat
  | .fabs _ ty x2 _ _ => mInt ty 0 0 x2.toNat
  | .fneg _ ty x2 _ _ => mInt ty 0 0 x2.toNat
  | .fcmp _ ty c _ _ _ => mInt ty c.code 0 0
  | .fcls _ ty _ _ _ => mInt ty 0 0 0
  | .fscl _ ty rnd sat _ _ _ => mInt ty rnd.code sat.toNat 0
  | .fdiv _ ty rnd sat _ _ _ => mInt ty rnd.code sat.toNat 0
  | .fdot _ ty rnd sat _ _ _ => mInt ty rnd.code sat.toNat 0
  | .frnd _ ty rnd _ _ => mInt ty rnd.code 0 0
  | .fsqrt _ ty rnd _ _ => mInt ty rnd.code 0 0
  | .frcp _ ty _ _ => mInt ty 0 0 0
  | .frsq _ ty _ _ => mInt ty 0 0 0
  | .fex2 _ ty _ _ => mInt ty 0 0 0
  | .flg2 _ ty _ _ => mInt ty 0 0 0
  | .ftnh _ ty _ _ => mInt ty 0 0 0
  | .ferf _ ty _ _ => mInt ty 0 0 0
  | .fphi _ ty _ _ => mInt ty 0 0 0
  | .ftrg _ ty cos _ _ => mInt ty 0 0 cos.toNat
  | .cvt _ _ dt st sat _ _ => mConv dt.code st.code sat.toNat
  | .cvts _ _ dt st sat _ _ _ => mConv dt.code st.code sat.toNat
  | .pack _ dt st sat _ _ _ => mConv dt.code st.code sat.toNat
  | .unpk _ dt st sat _ _ _ => mConv dt.code st.code sat.toNat
  | .qenc _ qf st _ _ _ => mConv qf.code st.code 0
  | .qdec _ ty hi qf sat _ _ _ => mConv ty.code (4 * hi.toNat + qf.code) sat.toNat
  | .plop _ tab _ _ _ => tab.toNat
  | .pmov _ f _ _ _ => f.code
  | .ballot _ _ _ _ => 0
  | .vany _ _ _ => 0
  | .vall _ _ _ => 0
  | .shfl _ ty vp md _ _ _ => mSub5 ty (4 * vp.toNat + md.code)
  | .bcst _ ty vp _ _ _ => mSub5 ty (4 * vp.toNat)
  | .redx _ ty op _ _ _ => mSub5 ty (4 * op.code)
  | .scan _ ty op ex _ _ _ => mSub5 ty (4 * op.code + 2 * ex.toNat)
  | .matchx _ ty vp all _ _ _ => mSub5 ty (4 * vp.toNat + all.toNat)
  | .elect _ _ => 0
  | .bra _ _ => 0
  | .brx _ _ => 0
  | .call _ _ _ => 0
  | .ret _ _ => 0
  | .rcv _ _ => 0
  | .exit _ => 0
  | .nop _ => 0
  | .yld _ => 0
  | .eret _ => 0
  | .iret _ => 0
  | .trap _ n => n.toNat
  | .srd _ b64 _ _ => b64.toNat
  | .swr _ b64 _ _ => b64.toNat
  | .sleep _ _ => 0
  | .brk _ n => n.toNat
  | .mmov _ _ _ => 0
  | .mrlu _ _ _ => 0
  | .mexp _ _ _ => 0
  | .mphi _ _ _ => 0
  | .mput _ _ _ _ => 0
  | .mget _ sel _ _ => mMom sel.code 0 0
  | .madd _ cov rnd _ _ _ => mMom 0 cov.code rnd.code
  | .msub _ cov rnd _ _ _ => mMom 0 cov.code rnd.code
  | .mmul _ cov rnd _ _ _ => mMom 0 cov.code rnd.code
  | .mfma _ cov rnd _ _ _ => mMom 0 cov.code rnd.code
  | .mscl _ rnd _ _ _ => mMom 0 0 rnd.code
  | .msqr _ rnd _ _ => mMom 0 0 rnd.code
  | .mclp _ sel rnd _ _ _ => mMom sel.code 0 rnd.code
  | .mchk _ sel _ _ => mMom sel.code 0 0
  | .lds _ ty sc kd _ _ _ => mMem ty.code sc kd
  | .sts _ ty sc kd _ _ _ => mMem ty.code sc kd
  | .ld _ ty sc kd _ _ _ => mMem ty.code sc kd
  | .st _ ty sc kd _ _ _ => mMem ty.code sc kd
  | .ldb _ ty _ _ _ => mMem ty.code .strand .plain
  | .stb _ ty _ _ _ => mMem ty.code .strand .plain
  | .pft _ sc _ _ => mMem 0 sc .plain
  | .fence _ sc kd => mMem 0 sc kd
  | .rgn _ => 0
  | .drel _ _ _ _ => 0
  | .tlbp _ _ _ => 0
  | .tlbu _ _ => 0
  | .xprb _ _ _ => 0
  | .tinv _ _ _ _ => 0
  | .atsAdd _ ty sc kd _ _ _ => mMem ty.code sc kd
  | .atsMin _ ty sc kd _ _ _ => mMem ty.code sc kd
  | .atsMax _ ty sc kd _ _ _ => mMem ty.code sc kd
  | .atsAnd _ ty sc kd _ _ _ => mMem ty.code sc kd
  | .atsOr _ ty sc kd _ _ _ => mMem ty.code sc kd
  | .atsXor _ ty sc kd _ _ _ => mMem ty.code sc kd
  | .atsExch _ ty sc kd _ _ _ => mMem ty.code sc kd
  | .atsCas _ ty sc kd _ _ _ => mMem ty.code sc kd
  | .atgAdd _ ty sc kd _ _ _ => mMem ty.code sc kd
  | .atgMin _ ty sc kd _ _ _ => mMem ty.code sc kd
  | .atgMax _ ty sc kd _ _ _ => mMem ty.code sc kd
  | .atgAnd _ ty sc kd _ _ _ => mMem ty.code sc kd
  | .atgOr _ ty sc kd _ _ _ => mMem ty.code sc kd
  | .atgXor _ ty sc kd _ _ _ => mMem ty.code sc kd
  | .atgExch _ ty sc kd _ _ _ => mMem ty.code sc kd
  | .atgCas _ ty sc kd _ _ _ => mMem ty.code sc kd
  | .grow _ wait cl _ _ => 128 * wait.toNat + 32 * cl.code
  | .shrk _ cl _ => 32 * cl.code
  | .tjoin _ _ _ _ => 0
  | .tleave _ _ => 0
  | .tbar _ sc kd _ => mMem 0 sc kd
  | .lsyn _ sc kd _ => mMem 0 sc kd
  | .xbi _ _ _ => 0
  | .xba _ _ => 0
  | .xbe _ _ _ => 0
  | .xbw _ _ _ => 0
  | .xbt _ _ _ _ => 0
  | .cpy _ ui _ _ => 32 * ui.toNat
  | .gth _ ui _ _ => 32 * ui.toNat
  | .sct _ ui _ _ => 32 * ui.toNat
  | .coll _ ui _ _ => 32 * ui.toNat
  | .rprt _ ui _ _ => 32 * ui.toNat
  | .qput _ _ _ => 0
  | .qget _ _ _ => 0
  | .mma _ ty _ _ _ => mSub5 ty 0
  | .mmas _ ty _ _ _ => mSub5 ty 0
  | .mmam _ cov _ _ _ => mSub5 .m64 (4 * cov.code)
  | .azro _ pair _ => pair.toNat
  | .ald _ ty _ _ => mSub5 ty 0
  | .ast _ ty rnd sat _ _ => mSub5 ty (4 * rnd.code + 2 * sat.toNat)
  | .amov _ ty rnd sat put _ _ _ => mSub5 ty (4 * rnd.code + 2 * sat.toNat + put.toNat)
  | .mwt _ => 0
  | .mkm _ op cls _ => 16 * op.code + cls.toNat
  | .mks _ cls _ => cls.toNat
  | .mkc _ cls _ => cls.toNat
  | .mkp _ cls _ => cls.toNat
  | .mkl _ cls _ => cls.toNat
  | .mkn _ cls _ => cls.toNat
  | .mkr _ cls _ => cls.toNat
  | .mkw _ cls _ => cls.toNat
  | .mkt _ cls _ => cls.toNat
  | .hins _ cls _ => cls.toNat
  | .wopn _ sc cls _ => 16 * sc.code + cls.toNat
  | .wqt _ close sc cls _ => 128 * close.toNat + 16 * sc.code + cls.toNat
  | .vred _ _ => 0
  | .vcmd _ cls _ => cls.toNat
  | .omrk _ => 0
  | .csig _ op _ _ => 32 * op.code
  | .swait _ c _ _ _ => 32 * c.code
  | _ => 0

/-- The OPC field of an instruction (R57, R58). -/
def instrOpc (i : Instr) : Nat :=
  match i with
  | .iadd _ _ _ _ _ => 0
  | .isub _ _ _ _ _ => 1
  | .imul _ _ _ _ _ => 2
  | .imulh _ _ _ _ _ => 3
  | .imad _ _ _ _ _ _ => 4
  | .imin _ _ _ _ => 5
  | .imax _ _ _ _ => 6
  | .iabs _ _ _ _ _ => 7
  | .ineg _ _ _ _ _ => 8
  | .and _ _ _ _ => 9
  | .or _ _ _ _ => 10
  | .xor _ _ _ _ => 11
  | .andn _ _ _ _ => 12
  | .not _ _ _ _ => 13
  | .shl _ _ _ _ _ => 14
  | .shr _ _ _ _ _ => 15
  | .sar _ _ _ _ _ => 16
  | .rol _ _ _ _ _ => 17
  | .popc _ _ _ _ => 18
  | .clz _ _ _ _ => 19
  | .ctz _ _ _ _ => 20
  | .brev _ _ _ _ => 21
  | .bfx _ _ _ _ _ => 22
  | .bfi _ _ _ _ _ => 23
  | .lea _ _ _ _ _ _ => 24
  | .mov _ _ _ _ => 25
  | .movi _ _ _ _ => 26
  | .sel _ _ _ _ _ _ _ => 27
  | .icmp _ _ _ _ _ _ => 28
  | .fadd _ _ _ _ _ _ _ => 128
  | .fsub _ _ _ _ _ _ _ => 129
  | .fmul _ _ _ _ _ _ _ => 130
  | .ffma _ _ _ _ _ _ _ _ => 131
  | .fmin _ _ _ _ _ => 132
  | .fmax _ _ _ _ _ => 133
  | .fabs _ _ _ _ _ => 134
  | .fneg _ _ _ _ _ => 135
  | .fcmp _ _ _ _ _ _ => 136
  | .fcls _ _ _ _ _ => 137
  | .fscl _ _ _ _ _ _ _ => 138
  | .fdiv _ _ _ _ _ _ _ => 143
  | .fdot _ _ _ _ _ _ _ => 150
  | .frnd _ _ _ _ _ => 139
  | .fsqrt _ _ _ _ _ => 142
  | .frcp _ _ _ _ => 140
  | .frsq _ _ _ _ => 141
  | .fex2 _ _ _ _ => 144
  | .flg2 _ _ _ _ => 145
  | .ftnh _ _ _ _ => 147
  | .ferf _ _ _ _ => 148
  | .fphi _ _ _ _ => 149
  | .ftrg _ _ _ _ _ => 146
  | .cvt _ rnd _ _ _ _ _ => 256 + rnd.code
  | .cvts _ rnd _ _ _ _ _ _ => 264 + rnd.code
  | .pack _ _ _ _ _ _ _ => 272
  | .unpk _ _ _ _ _ _ _ => 273
  | .qenc _ _ _ _ _ _ => 274
  | .qdec _ _ _ _ _ _ _ _ => 275
  | .plop _ _ _ _ _ => 320
  | .pmov _ _ _ _ _ => 321
  | .ballot _ _ _ _ => 322
  | .vany _ _ _ => 323
  | .vall _ _ _ => 324
  | .shfl _ _ _ _ _ _ _ => 325
  | .bcst _ _ _ _ _ _ => 326
  | .redx _ _ _ _ _ _ => 327
  | .scan _ _ _ _ _ _ _ => 328
  | .matchx _ _ _ _ _ _ _ => 329
  | .elect _ _ => 330
  | .bra _ _ => 384
  | .brx _ _ => 385
  | .call _ _ _ => 386
  | .ret _ _ => 387
  | .rcv _ _ => 388
  | .exit _ => 389
  | .nop _ => 390
  | .yld _ => 391
  | .eret _ => 449
  | .iret _ => 450
  | .trap _ _ => 448
  | .srd _ _ _ _ => 451
  | .swr _ _ _ _ => 452
  | .sleep _ _ => 453
  | .brk _ _ => 454
  | .mmov _ _ _ => 512
  | .mrlu _ _ _ => 520
  | .mexp _ _ _ => 521
  | .mphi _ _ _ => 523
  | .mput _ _ _ _ => 513
  | .mget _ _ _ _ => 514
  | .madd _ _ _ _ _ _ => 515
  | .msub _ _ _ _ _ _ => 516
  | .mmul _ _ _ _ _ _ => 517
  | .mfma _ _ _ _ _ _ => 518
  | .mscl _ _ _ _ _ => 519
  | .msqr _ _ _ _ => 522
  | .mclp _ _ _ _ _ _ => 524
  | .mchk _ _ _ _ => 525
  | .lds _ _ _ _ _ _ _ => 640
  | .sts _ _ _ _ _ _ _ => 641
  | .ld _ _ _ _ _ _ _ => 642
  | .st _ _ _ _ _ _ _ => 643
  | .ldb _ _ _ _ _ => 644
  | .stb _ _ _ _ _ => 645
  | .pft _ _ _ _ => 646
  | .fence _ _ _ => 647
  | .rgn _ => 648
  | .drel _ _ _ _ => 649
  | .tlbp _ _ _ => 650
  | .tlbu _ _ => 651
  | .xprb _ _ _ => 652
  | .tinv _ _ _ _ => 653
  | .atsAdd _ _ _ _ _ _ _ => 656
  | .atsMin _ _ _ _ _ _ _ => 657
  | .atsMax _ _ _ _ _ _ _ => 658
  | .atsAnd _ _ _ _ _ _ _ => 659
  | .atsOr _ _ _ _ _ _ _ => 660
  | .atsXor _ _ _ _ _ _ _ => 661
  | .atsExch _ _ _ _ _ _ _ => 662
  | .atsCas _ _ _ _ _ _ _ => 663
  | .atgAdd _ _ _ _ _ _ _ => 672
  | .atgMin _ _ _ _ _ _ _ => 673
  | .atgMax _ _ _ _ _ _ _ => 674
  | .atgAnd _ _ _ _ _ _ _ => 675
  | .atgOr _ _ _ _ _ _ _ => 676
  | .atgXor _ _ _ _ _ _ _ => 677
  | .atgExch _ _ _ _ _ _ _ => 678
  | .atgCas _ _ _ _ _ _ _ => 679
  | .grow _ _ _ _ _ => 768
  | .shrk _ _ _ => 769
  | .tjoin _ _ _ _ => 770
  | .tleave _ _ => 771
  | .tbar _ _ _ _ => 772
  | .lsyn _ _ _ _ => 773
  | .xbi _ _ _ => 774
  | .xba _ _ => 775
  | .xbe _ _ _ => 776
  | .xbw _ _ _ => 777
  | .xbt _ _ _ _ => 778
  | .cpy _ _ _ _ => 832
  | .gth _ _ _ _ => 833
  | .sct _ _ _ _ => 834
  | .coll _ _ _ _ => 992
  | .rprt _ _ _ _ => 995
  | .qput _ _ _ => 835
  | .qget _ _ _ => 836
  | .mma _ _ _ _ _ => 896
  | .mmas _ _ _ _ _ => 897
  | .mmam _ _ _ _ _ => 898
  | .azro _ _ _ => 899
  | .ald _ _ _ _ => 900
  | .ast _ _ _ _ _ _ => 901
  | .amov _ _ _ _ _ _ _ _ => 902
  | .mwt _ => 903
  | .mkm _ _ _ _ => 960
  | .mks _ _ _ => 961
  | .mkc _ _ _ => 962
  | .mkp _ _ _ => 963
  | .mkl _ _ _ => 964
  | .mkn _ _ _ => 965
  | .mkr _ _ _ => 966
  | .mkw _ _ _ => 967
  | .mkt _ _ _ => 968
  | .hins _ _ _ => 969
  | .wopn _ _ _ _ => 970
  | .wqt _ _ _ _ _ => 971
  | .vred _ _ => 972
  | .vcmd _ _ _ => 973
  | .omrk _ => 974
  | .csig _ _ _ _ => 993
  | .swait _ _ _ _ _ => 994
  | _ => 0

/-- The guard, hints and UNI bit of an instruction; none for a step that no word encodes. -/
def instrHdr (i : Instr) : Option Hdr :=
  match i with
  | .iadd h _ _ _ _ => some h
  | .isub h _ _ _ _ => some h
  | .imul h _ _ _ _ => some h
  | .imulh h _ _ _ _ => some h
  | .imad h _ _ _ _ _ => some h
  | .imin h _ _ _ => some h
  | .imax h _ _ _ => some h
  | .iabs h _ _ _ _ => some h
  | .ineg h _ _ _ _ => some h
  | .and h _ _ _ => some h
  | .or h _ _ _ => some h
  | .xor h _ _ _ => some h
  | .andn h _ _ _ => some h
  | .not h _ _ _ => some h
  | .shl h _ _ _ _ => some h
  | .shr h _ _ _ _ => some h
  | .sar h _ _ _ _ => some h
  | .rol h _ _ _ _ => some h
  | .popc h _ _ _ => some h
  | .clz h _ _ _ => some h
  | .ctz h _ _ _ => some h
  | .brev h _ _ _ => some h
  | .bfx h _ _ _ _ => some h
  | .bfi h _ _ _ _ => some h
  | .lea h _ _ _ _ _ => some h
  | .mov h _ _ _ => some h
  | .movi h _ _ _ => some h
  | .sel h _ _ _ _ _ _ => some h
  | .icmp h _ _ _ _ _ => some h
  | .fadd h _ _ _ _ _ _ => some h
  | .fsub h _ _ _ _ _ _ => some h
  | .fmul h _ _ _ _ _ _ => some h
  | .ffma h _ _ _ _ _ _ _ => some h
  | .fmin h _ _ _ _ => some h
  | .fmax h _ _ _ _ => some h
  | .fabs h _ _ _ _ => some h
  | .fneg h _ _ _ _ => some h
  | .fcmp h _ _ _ _ _ => some h
  | .fcls h _ _ _ _ => some h
  | .fscl h _ _ _ _ _ _ => some h
  | .fdiv h _ _ _ _ _ _ => some h
  | .fdot h _ _ _ _ _ _ => some h
  | .frnd h _ _ _ _ => some h
  | .fsqrt h _ _ _ _ => some h
  | .frcp h _ _ _ => some h
  | .frsq h _ _ _ => some h
  | .fex2 h _ _ _ => some h
  | .flg2 h _ _ _ => some h
  | .ftnh h _ _ _ => some h
  | .ferf h _ _ _ => some h
  | .fphi h _ _ _ => some h
  | .ftrg h _ _ _ _ => some h
  | .cvt h _ _ _ _ _ _ => some h
  | .cvts h _ _ _ _ _ _ _ => some h
  | .pack h _ _ _ _ _ _ => some h
  | .unpk h _ _ _ _ _ _ => some h
  | .qenc h _ _ _ _ _ => some h
  | .qdec h _ _ _ _ _ _ _ => some h
  | .plop h _ _ _ _ => some h
  | .pmov h _ _ _ _ => some h
  | .ballot h _ _ _ => some h
  | .vany h _ _ => some h
  | .vall h _ _ => some h
  | .shfl h _ _ _ _ _ _ => some h
  | .bcst h _ _ _ _ _ => some h
  | .redx h _ _ _ _ _ => some h
  | .scan h _ _ _ _ _ _ => some h
  | .matchx h _ _ _ _ _ _ => some h
  | .elect h _ => some h
  | .bra h _ => some h
  | .brx h _ => some h
  | .call h _ _ => some h
  | .ret h _ => some h
  | .rcv h _ => some h
  | .exit h => some h
  | .nop h => some h
  | .yld h => some h
  | .eret h => some h
  | .iret h => some h
  | .trap h _ => some h
  | .srd h _ _ _ => some h
  | .swr h _ _ _ => some h
  | .sleep h _ => some h
  | .brk h _ => some h
  | .mmov h _ _ => some h
  | .mrlu h _ _ => some h
  | .mexp h _ _ => some h
  | .mphi h _ _ => some h
  | .mput h _ _ _ => some h
  | .mget h _ _ _ => some h
  | .madd h _ _ _ _ _ => some h
  | .msub h _ _ _ _ _ => some h
  | .mmul h _ _ _ _ _ => some h
  | .mfma h _ _ _ _ _ => some h
  | .mscl h _ _ _ _ => some h
  | .msqr h _ _ _ => some h
  | .mclp h _ _ _ _ _ => some h
  | .mchk h _ _ _ => some h
  | .lds h _ _ _ _ _ _ => some h
  | .sts h _ _ _ _ _ _ => some h
  | .ld h _ _ _ _ _ _ => some h
  | .st h _ _ _ _ _ _ => some h
  | .ldb h _ _ _ _ => some h
  | .stb h _ _ _ _ => some h
  | .pft h _ _ _ => some h
  | .fence h _ _ => some h
  | .rgn h => some h
  | .drel h _ _ _ => some h
  | .tlbp h _ _ => some h
  | .tlbu h _ => some h
  | .xprb h _ _ => some h
  | .tinv h _ _ _ => some h
  | .atsAdd h _ _ _ _ _ _ => some h
  | .atsMin h _ _ _ _ _ _ => some h
  | .atsMax h _ _ _ _ _ _ => some h
  | .atsAnd h _ _ _ _ _ _ => some h
  | .atsOr h _ _ _ _ _ _ => some h
  | .atsXor h _ _ _ _ _ _ => some h
  | .atsExch h _ _ _ _ _ _ => some h
  | .atsCas h _ _ _ _ _ _ => some h
  | .atgAdd h _ _ _ _ _ _ => some h
  | .atgMin h _ _ _ _ _ _ => some h
  | .atgMax h _ _ _ _ _ _ => some h
  | .atgAnd h _ _ _ _ _ _ => some h
  | .atgOr h _ _ _ _ _ _ => some h
  | .atgXor h _ _ _ _ _ _ => some h
  | .atgExch h _ _ _ _ _ _ => some h
  | .atgCas h _ _ _ _ _ _ => some h
  | .grow h _ _ _ _ => some h
  | .shrk h _ _ => some h
  | .tjoin h _ _ _ => some h
  | .tleave h _ => some h
  | .tbar h _ _ _ => some h
  | .lsyn h _ _ _ => some h
  | .xbi h _ _ => some h
  | .xba h _ => some h
  | .xbe h _ _ => some h
  | .xbw h _ _ => some h
  | .xbt h _ _ _ => some h
  | .cpy h _ _ _ => some h
  | .gth h _ _ _ => some h
  | .sct h _ _ _ => some h
  | .coll h _ _ _ => some h
  | .rprt h _ _ _ => some h
  | .qput h _ _ => some h
  | .qget h _ _ => some h
  | .mma h _ _ _ _ => some h
  | .mmas h _ _ _ _ => some h
  | .mmam h _ _ _ _ => some h
  | .azro h _ _ => some h
  | .ald h _ _ _ => some h
  | .ast h _ _ _ _ _ => some h
  | .amov h _ _ _ _ _ _ _ => some h
  | .mwt h => some h
  | .mkm h _ _ _ => some h
  | .mks h _ _ => some h
  | .mkc h _ _ => some h
  | .mkp h _ _ => some h
  | .mkl h _ _ => some h
  | .mkn h _ _ => some h
  | .mkr h _ _ => some h
  | .mkw h _ _ => some h
  | .mkt h _ _ => some h
  | .hins h _ _ => some h
  | .wopn h _ _ _ => some h
  | .wqt h _ _ _ _ => some h
  | .vred h _ => some h
  | .vcmd h _ _ => some h
  | .omrk h => some h
  | .csig h _ _ _ => some h
  | .swait h _ _ _ _ => some h
  | _ => none

/-- Word bits 63-0 of an instruction: D, A, B and F. -/
def instrLow (i : Instr) : Nat :=
  match i with
  | .iadd _ _ _ d src => srcEnc d src
  | .isub _ _ _ d src => srcEnc d src
  | .imul _ _ _ d src => srcEnc d src
  | .imulh _ _ d a b => abEnc d a b
  | .imad _ _ _ d a b => abEnc d a b
  | .imin _ _ d src => srcEnc d src
  | .imax _ _ d src => srcEnc d src
  | .iabs _ _ _ d a => abEnc d a .none
  | .ineg _ _ _ d a => abEnc d a .none
  | .and _ _ d src => srcEnc d src
  | .or _ _ d src => srcEnc d src
  | .xor _ _ d src => srcEnc d src
  | .andn _ _ d src => srcEnc d src
  | .not _ _ d a => abEnc d a .none
  | .shl _ _ d a b => abEnc d a b
  | .shr _ _ d a b => abEnc d a b
  | .sar _ _ d a b => abEnc d a b
  | .rol _ _ d a b => abEnc d a b
  | .popc _ _ d a => abEnc d a .none
  | .clz _ _ d a => abEnc d a .none
  | .ctz _ _ d a => abEnc d a .none
  | .brev _ _ d a => abEnc d a .none
  | .bfx _ _ d a b => abEnc d a b
  | .bfi _ _ d a b => abEnc d a b
  | .lea _ _ _ d a b => abEnc d a b
  | .mov _ _ d a => abEnc d a .none
  | .movi _ _ d src => srcEnc d src
  | .sel _ _ _ _ d a b => abEnc d a b
  | .icmp _ _ _ d a b => abEnc d a b
  | .fadd _ _ _ _ _ d src => srcEnc d src
  | .fsub _ _ _ _ _ d src => srcEnc d src
  | .fmul _ _ _ _ _ d src => srcEnc d src
  | .ffma _ _ _ _ _ d a b => abEnc d a b
  | .fmin _ _ _ d src => srcEnc d src
  | .fmax _ _ _ d src => srcEnc d src
  | .fabs _ _ _ d a => abEnc d a .none
  | .fneg _ _ _ d a => abEnc d a .none
  | .fcmp _ _ _ d a b => abEnc d a b
  | .fcls _ _ d a b => abEnc d a b
  | .fscl _ _ _ _ d a b => abEnc d a b
  | .fdiv _ _ _ _ d a b => abEnc d a b
  | .fdot _ _ _ _ d a b => abEnc d a b
  | .frnd _ _ _ d a => abEnc d a .none
  | .fsqrt _ _ _ d a => abEnc d a .none
  | .frcp _ _ d a => abEnc d a .none
  | .frsq _ _ d a => abEnc d a .none
  | .fex2 _ _ d a => abEnc d a .none
  | .flg2 _ _ d a => abEnc d a .none
  | .ftnh _ _ d a => abEnc d a .none
  | .ferf _ _ d a => abEnc d a .none
  | .fphi _ _ d a => abEnc d a .none
  | .ftrg _ _ _ d a => abEnc d a .none
  | .cvt _ _ _ _ _ d a => abEnc d a .none
  | .cvts _ _ _ _ _ d a b => abEnc d a b
  | .pack _ _ _ _ d a b => abEnc d a b
  | .unpk _ _ _ _ d a b => abEnc d a b
  | .qenc _ _ _ d a b => abEnc d a b
  | .qdec _ _ _ _ _ d a b => abEnc d a b
  | .plop _ _ d a b => abEnc d a b
  | .pmov _ _ d a b => abEnc d a b
  | .ballot _ d a b => abEnc d a b
  | .vany _ d a => abEnc d a .none
  | .vall _ d a => abEnc d a .none
  | .shfl _ _ _ _ d a b => abEnc d a b
  | .bcst _ _ _ d a b => abEnc d a b
  | .redx _ _ _ d a b => abEnc d a b
  | .scan _ _ _ _ d a b => abEnc d a b
  | .matchx _ _ _ _ d a b => abEnc d a b
  | .elect _ d => abEnc d .none .none
  | .bra _ off => litEnc .none off
  | .brx _ a => abEnc .none a .none
  | .call _ d off => litEnc d off
  | .ret _ a => abEnc .none a .none
  | .rcv _ off => litEnc .none off
  | .exit _ => abEnc .none .none .none
  | .nop _ => abEnc .none .none .none
  | .yld _ => abEnc .none .none .none
  | .eret _ => abEnc .none .none .none
  | .iret _ => abEnc .none .none .none
  | .trap _ _ => abEnc .none .none .none
  | .srd _ _ d a => abEnc d a .none
  | .swr _ _ d a => abEnc d a .none
  | .sleep _ a => abEnc .none a .none
  | .brk _ _ => abEnc .none .none .none
  | .mmov _ d a => abEnc d a .none
  | .mrlu _ d a => abEnc d a .none
  | .mexp _ d a => abEnc d a .none
  | .mphi _ d a => abEnc d a .none
  | .mput _ d a b => abEnc d a b
  | .mget _ _ d a => abEnc d a .none
  | .madd _ _ _ d a b => abEnc d a b
  | .msub _ _ _ d a b => abEnc d a b
  | .mmul _ _ _ d a b => abEnc d a b
  | .mfma _ _ _ d a b => abEnc d a b
  | .mscl _ _ d a b => abEnc d a b
  | .msqr _ _ d a => abEnc d a .none
  | .mclp _ _ _ d a b => abEnc d a b
  | .mchk _ _ d a => abEnc d a .none
  | .lds _ _ _ _ d a b => abEnc d a b
  | .sts _ _ _ _ d a b => abEnc d a b
  | .ld _ _ _ _ d a b => abEnc d a b
  | .st _ _ _ _ d a b => abEnc d a b
  | .ldb _ _ d a b => abEnc d a b
  | .stb _ _ d a b => abEnc d a b
  | .pft _ _ a b => abEnc .none a b
  | .fence _ _ _ => abEnc .none .none .none
  | .rgn _ => abEnc .none .none .none
  | .drel _ d a b => abEnc d a b
  | .tlbp _ a b => abEnc .none a b
  | .tlbu _ a => abEnc .none a .none
  | .xprb _ d a => abEnc d a .none
  | .tinv _ d a b => abEnc d a b
  | .atsAdd _ _ _ _ d a b => abEnc d a b
  | .atsMin _ _ _ _ d a b => abEnc d a b
  | .atsMax _ _ _ _ d a b => abEnc d a b
  | .atsAnd _ _ _ _ d a b => abEnc d a b
  | .atsOr _ _ _ _ d a b => abEnc d a b
  | .atsXor _ _ _ _ d a b => abEnc d a b
  | .atsExch _ _ _ _ d a b => abEnc d a b
  | .atsCas _ _ _ _ d a b => abEnc d a b
  | .atgAdd _ _ _ _ d a b => abEnc d a b
  | .atgMin _ _ _ _ d a b => abEnc d a b
  | .atgMax _ _ _ _ d a b => abEnc d a b
  | .atgAnd _ _ _ _ d a b => abEnc d a b
  | .atgOr _ _ _ _ d a b => abEnc d a b
  | .atgXor _ _ _ _ d a b => abEnc d a b
  | .atgExch _ _ _ _ d a b => abEnc d a b
  | .atgCas _ _ _ _ d a b => abEnc d a b
  | .grow _ _ _ d a => abEnc d a .none
  | .shrk _ _ a => abEnc .none a .none
  | .tjoin _ d a b => abEnc d a b
  | .tleave _ a => abEnc .none a .none
  | .tbar _ _ _ a => abEnc .none a .none
  | .lsyn _ _ _ b => abEnc .none .none b
  | .xbi _ a b => abEnc .none a b
  | .xba _ a => abEnc .none a .none
  | .xbe _ a b => abEnc .none a b
  | .xbw _ a b => abEnc .none a b
  | .xbt _ d a b => abEnc d a b
  | .cpy _ _ a b => abEnc .none a b
  | .gth _ _ a b => abEnc .none a b
  | .sct _ _ a b => abEnc .none a b
  | .coll _ _ a b => abEnc .none a b
  | .rprt _ _ a b => abEnc .none a b
  | .qput _ a b => abEnc .none a b
  | .qget _ d a => abEnc d a .none
  | .mma _ _ d a b => abEnc d a b
  | .mmas _ _ d a b => abEnc d a b
  | .mmam _ _ d a b => abEnc d a b
  | .azro _ _ d => abEnc d .none .none
  | .ald _ _ d a => abEnc d a .none
  | .ast _ _ _ _ d a => abEnc d a .none
  | .amov _ _ _ _ _ d a b => abEnc d a b
  | .mwt _ => abEnc .none .none .none
  | .mkm _ _ _ a => abEnc .none a .none
  | .mks _ _ a => abEnc .none a .none
  | .mkc _ _ a => abEnc .none a .none
  | .mkp _ _ a => abEnc .none a .none
  | .mkl _ _ a => abEnc .none a .none
  | .mkn _ _ a => abEnc .none a .none
  | .mkr _ _ a => abEnc .none a .none
  | .mkw _ _ a => abEnc .none a .none
  | .mkt _ _ a => abEnc .none a .none
  | .hins _ _ a => abEnc .none a .none
  | .wopn _ _ _ d => abEnc d .none .none
  | .wqt _ _ _ _ d => abEnc d .none .none
  | .vred _ a => abEnc .none a .none
  | .vcmd _ _ a => abEnc .none a .none
  | .omrk _ => abEnc .none .none .none
  | .csig _ _ a b => abEnc .none a b
  | .swait _ _ d a b => abEnc d a b
  | _ => 0

/-- The instruction that OPC, MOD's codes and the operand specifiers name, before the checks of R59: none for an
unassigned OPC, some none for a reserved MOD code (R57, R54). -/
def skeleton (r : RawWord) : Option (Option Instr) :=
  let h := r.hdr
  let d := opndOf r.d
  let a := opndOf r.a
  let b := opndOf r.b
  match r.opc with
  | 0 => some (tyOf r >>= fun ty => (addModeOf r).map fun md => .iadd h ty md d (srcsOf r))
  | 1 => some (tyOf r >>= fun ty => (addModeOf r).map fun md => .isub h ty md d (srcsOf r))
  | 2 => some (tyOf r >>= fun ty => some (.imul h ty (satOf r) d (srcsOf r)))
  | 3 => some (tyOf r >>= fun ty => some (.imulh h ty d a b))
  | 4 => some (tyOf r >>= fun ty => some (.imad h ty (satOf r) d a b))
  | 5 => some (tyOf r >>= fun ty => some (.imin h ty d (srcsOf r)))
  | 6 => some (tyOf r >>= fun ty => some (.imax h ty d (srcsOf r)))
  | 7 => some (tyOf r >>= fun ty => some (.iabs h ty (satOf r) d a))
  | 8 => some (tyOf r >>= fun ty => some (.ineg h ty (satOf r) d a))
  | 9 => some (tyOf r >>= fun ty => some (.and h ty d (srcsOf r)))
  | 10 => some (tyOf r >>= fun ty => some (.or h ty d (srcsOf r)))
  | 11 => some (tyOf r >>= fun ty => some (.xor h ty d (srcsOf r)))
  | 12 => some (tyOf r >>= fun ty => some (.andn h ty d (srcsOf r)))
  | 13 => some (tyOf r >>= fun ty => some (.not h ty d a))
  | 14 => some (tyOf r >>= fun ty => some (.shl h ty d a b))
  | 15 => some (tyOf r >>= fun ty => some (.shr h ty d a b))
  | 16 => some (tyOf r >>= fun ty => some (.sar h ty d a b))
  | 17 => some (tyOf r >>= fun ty => some (.rol h ty d a b))
  | 18 => some (tyOf r >>= fun ty => some (.popc h ty d a))
  | 19 => some (tyOf r >>= fun ty => some (.clz h ty d a))
  | 20 => some (tyOf r >>= fun ty => some (.ctz h ty d a))
  | 21 => some (tyOf r >>= fun ty => some (.brev h ty d a))
  | 22 => some (tyOf r >>= fun ty => some (.bfx h ty d a b))
  | 23 => some (tyOf r >>= fun ty => some (.bfi h ty d a b))
  | 24 => some (tyOf r >>= fun ty => some (.lea h ty (sub3Of r) d a b))
  | 25 => some (tyOf r >>= fun ty => some (.mov h ty d a))
  | 26 => some (tyOf r >>= fun ty => some (.movi h ty d (srcsOf r)))
  | 27 => some (tyOf r >>= fun ty => some (.sel h ty (sub3Of r) (bit0Of r) d a b))
  | 28 => some (tyOf r >>= fun ty => (icondOf r).map fun c => .icmp h ty c d a b)
  | 128 => some (tyOf r >>= fun ty => (rndOf r).map fun rnd => .fadd h ty rnd (satOf r) (bit0Of r) d (srcsOf r))
  | 129 => some (tyOf r >>= fun ty => (rndOf r).map fun rnd => .fsub h ty rnd (satOf r) (bit0Of r) d (srcsOf r))
  | 130 => some (tyOf r >>= fun ty => (rndOf r).map fun rnd => .fmul h ty rnd (satOf r) (bit0Of r) d (srcsOf r))
  | 131 => some (tyOf r >>= fun ty => (rndOf r).map fun rnd => .ffma h ty rnd (satOf r) (bit0Of r) d a b)
  | 132 => some (tyOf r >>= fun ty => some (.fmin h ty (bit0Of r) d (srcsOf r)))
  | 133 => some (tyOf r >>= fun ty => some (.fmax h ty (bit0Of r) d (srcsOf r)))
  | 134 => some (tyOf r >>= fun ty => some (.fabs h ty (bit0Of r) d a))
  | 135 => some (tyOf r >>= fun ty => some (.fneg h ty (bit0Of r) d a))
  | 136 => some (tyOf r >>= fun ty => (fcondOf r).map fun c => .fcmp h ty c d a b)
  | 137 => some (tyOf r >>= fun ty => some (.fcls h ty d a b))
  | 138 => some (tyOf r >>= fun ty => (rndOf r).map fun rnd => .fscl h ty rnd (satOf r) d a b)
  | 143 => some (tyOf r >>= fun ty => (rndOf r).map fun rnd => .fdiv h ty rnd (satOf r) d a b)
  | 150 => some (tyOf r >>= fun ty => (rndOf r).map fun rnd => .fdot h ty rnd (satOf r) d a b)
  | 139 => some (tyOf r >>= fun ty => (rndOf r).map fun rnd => .frnd h ty rnd d a)
  | 142 => some (tyOf r >>= fun ty => (rndOf r).map fun rnd => .fsqrt h ty rnd d a)
  | 140 => some (tyOf r >>= fun ty => some (.frcp h ty d a))
  | 141 => some (tyOf r >>= fun ty => some (.frsq h ty d a))
  | 144 => some (tyOf r >>= fun ty => some (.fex2 h ty d a))
  | 145 => some (tyOf r >>= fun ty => some (.flg2 h ty d a))
  | 147 => some (tyOf r >>= fun ty => some (.ftnh h ty d a))
  | 148 => some (tyOf r >>= fun ty => some (.ferf h ty d a))
  | 149 => some (tyOf r >>= fun ty => some (.fphi h ty d a))
  | 146 => some (tyOf r >>= fun ty => some (.ftrg h ty (bit0Of r) d a))
  | 256 => some (tyOf r >>= fun dt => (styOf r).map fun st => .cvt h .rne dt st (bit0Of r) d a)
  | 257 => some (tyOf r >>= fun dt => (styOf r).map fun st => .cvt h .rtz dt st (bit0Of r) d a)
  | 258 => some (tyOf r >>= fun dt => (styOf r).map fun st => .cvt h .rup dt st (bit0Of r) d a)
  | 259 => some (tyOf r >>= fun dt => (styOf r).map fun st => .cvt h .rdn dt st (bit0Of r) d a)
  | 260 => some (tyOf r >>= fun dt => (styOf r).map fun st => .cvt h .rna dt st (bit0Of r) d a)
  | 261 => some (tyOf r >>= fun dt => (styOf r).map fun st => .cvt h .sr dt st (bit0Of r) d a)
  | 264 => some (tyOf r >>= fun dt => (styOf r).map fun st => .cvts h .rne dt st (bit0Of r) d a b)
  | 265 => some (tyOf r >>= fun dt => (styOf r).map fun st => .cvts h .rtz dt st (bit0Of r) d a b)
  | 266 => some (tyOf r >>= fun dt => (styOf r).map fun st => .cvts h .rup dt st (bit0Of r) d a b)
  | 267 => some (tyOf r >>= fun dt => (styOf r).map fun st => .cvts h .rdn dt st (bit0Of r) d a b)
  | 268 => some (tyOf r >>= fun dt => (styOf r).map fun st => .cvts h .rna dt st (bit0Of r) d a b)
  | 269 => some (tyOf r >>= fun dt => (styOf r).map fun st => .cvts h .sr dt st (bit0Of r) d a b)
  | 272 => some (tyOf r >>= fun dt => (styOf r).map fun st => .pack h dt st (bit0Of r) d a b)
  | 273 => some (tyOf r >>= fun dt => (styOf r).map fun st => .unpk h dt st (bit0Of r) d a b)
  | 274 => some ((qfmtOf (bitsOf r.mod 8 5)) >>= fun qf => (styOf r).map fun st => .qenc h qf st d a b)
  | 275 => some (tyOf r >>= fun ty => (qfmtOf (bitsOf r.mod 2 1)).map fun qf => .qdec h ty (bitAt r.mod 3) qf (bit0Of r) d a b)
  | 320 => some (some (.plop h (BitVec.ofNat 4 r.mod) d a b))
  | 321 => some ((pformOf r).map fun f => .pmov h f d a b)
  | 322 => some (some (.ballot h d a b))
  | 323 => some (some (.vany h d a))
  | 324 => some (some (.vall h d a))
  | 325 => some (tyOf r >>= fun ty => some (.shfl h ty (sub3Of r) (shflOf r) d a b))
  | 326 => some (tyOf r >>= fun ty => some (.bcst h ty (sub3Of r) d a b))
  | 327 => some (tyOf r >>= fun ty => (redOf r).map fun op => .redx h ty op d a b)
  | 328 => some (tyOf r >>= fun ty => (redOf r).map fun op => .scan h ty op (bitAt r.mod 1) d a b)
  | 329 => some (tyOf r >>= fun ty => some (.matchx h ty (sub3Of r) (bit0Of r) d a b))
  | 330 => some (some (.elect h d))
  | 384 => some (some (.bra h (offOf r)))
  | 385 => some (some (.brx h a))
  | 386 => some (some (.call h d (offOf r)))
  | 387 => some (some (.ret h a))
  | 388 => some (some (.rcv h (offOf r)))
  | 389 => some (some (.exit h))
  | 390 => some (some (.nop h))
  | 391 => some (some (.yld h))
  | 449 => some (some (.eret h))
  | 450 => some (some (.iret h))
  | 448 => some (some (.trap h (BitVec.ofNat 4 r.mod)))
  | 451 => some (some (.srd h (bit0Of r) d a))
  | 452 => some (some (.swr h (bit0Of r) d a))
  | 453 => some (some (.sleep h a))
  | 454 => some (some (.brk h (BitVec.ofNat 8 r.mod)))
  | 512 => some (some (.mmov h d a))
  | 520 => some (some (.mrlu h d a))
  | 521 => some (some (.mexp h d a))
  | 523 => some (some (.mphi h d a))
  | 513 => some (some (.mput h d a b))
  | 514 => some ((mgetOf r).map fun sel => .mget h sel d a)
  | 515 => some ((covOf (bitsOf r.mod 5 3)) >>= fun cov => (mrndOf r).map fun rnd => .madd h cov rnd d a b)
  | 516 => some ((covOf (bitsOf r.mod 5 3)) >>= fun cov => (mrndOf r).map fun rnd => .msub h cov rnd d a b)
  | 517 => some ((covOf (bitsOf r.mod 5 3)) >>= fun cov => (mrndOf r).map fun rnd => .mmul h cov rnd d a b)
  | 518 => some ((covOf (bitsOf r.mod 5 3)) >>= fun cov => (mrndOf r).map fun rnd => .mfma h cov rnd d a b)
  | 519 => some ((mrndOf r).map fun rnd => .mscl h rnd d a b)
  | 522 => some ((mrndOf r).map fun rnd => .msqr h rnd d a)
  | 524 => some ((mclpOf r) >>= fun sel => (mrndOf r).map fun rnd => .mclp h sel rnd d a b)
  | 525 => some ((mchkOf r).map fun sel => .mchk h sel d a)
  | 640 => some (tyOf r >>= fun ty => (scopeOf r).map fun sc => .lds h ty sc (kindOf r) d a b)
  | 641 => some (tyOf r >>= fun ty => (scopeOf r).map fun sc => .sts h ty sc (kindOf r) d a b)
  | 642 => some (tyOf r >>= fun ty => (scopeOf r).map fun sc => .ld h ty sc (kindOf r) d a b)
  | 643 => some (tyOf r >>= fun ty => (scopeOf r).map fun sc => .st h ty sc (kindOf r) d a b)
  | 644 => some (tyOf r >>= fun ty => some (.ldb h ty d a b))
  | 645 => some (tyOf r >>= fun ty => some (.stb h ty d a b))
  | 646 => some ((scopeOf r).map fun sc => .pft h sc a b)
  | 647 => some ((scopeOf r).map fun sc => .fence h sc (kindOf r))
  | 648 => some (some (.rgn h))
  | 649 => some (some (.drel h d a b))
  | 650 => some (some (.tlbp h a b))
  | 651 => some (some (.tlbu h a))
  | 652 => some (some (.xprb h d a))
  | 653 => some (some (.tinv h d a b))
  | 656 => some (tyOf r >>= fun ty => (scopeOf r).map fun sc => .atsAdd h ty sc (kindOf r) d a b)
  | 657 => some (tyOf r >>= fun ty => (scopeOf r).map fun sc => .atsMin h ty sc (kindOf r) d a b)
  | 658 => some (tyOf r >>= fun ty => (scopeOf r).map fun sc => .atsMax h ty sc (kindOf r) d a b)
  | 659 => some (tyOf r >>= fun ty => (scopeOf r).map fun sc => .atsAnd h ty sc (kindOf r) d a b)
  | 660 => some (tyOf r >>= fun ty => (scopeOf r).map fun sc => .atsOr h ty sc (kindOf r) d a b)
  | 661 => some (tyOf r >>= fun ty => (scopeOf r).map fun sc => .atsXor h ty sc (kindOf r) d a b)
  | 662 => some (tyOf r >>= fun ty => (scopeOf r).map fun sc => .atsExch h ty sc (kindOf r) d a b)
  | 663 => some (tyOf r >>= fun ty => (scopeOf r).map fun sc => .atsCas h ty sc (kindOf r) d a b)
  | 672 => some (tyOf r >>= fun ty => (scopeOf r).map fun sc => .atgAdd h ty sc (kindOf r) d a b)
  | 673 => some (tyOf r >>= fun ty => (scopeOf r).map fun sc => .atgMin h ty sc (kindOf r) d a b)
  | 674 => some (tyOf r >>= fun ty => (scopeOf r).map fun sc => .atgMax h ty sc (kindOf r) d a b)
  | 675 => some (tyOf r >>= fun ty => (scopeOf r).map fun sc => .atgAnd h ty sc (kindOf r) d a b)
  | 676 => some (tyOf r >>= fun ty => (scopeOf r).map fun sc => .atgOr h ty sc (kindOf r) d a b)
  | 677 => some (tyOf r >>= fun ty => (scopeOf r).map fun sc => .atgXor h ty sc (kindOf r) d a b)
  | 678 => some (tyOf r >>= fun ty => (scopeOf r).map fun sc => .atgExch h ty sc (kindOf r) d a b)
  | 679 => some (tyOf r >>= fun ty => (scopeOf r).map fun sc => .atgCas h ty sc (kindOf r) d a b)
  | 768 => some ((gclassOf r).map fun cl => .grow h (bitAt r.mod 7) cl d a)
  | 769 => some ((gclassOf r).map fun cl => .shrk h cl a)
  | 770 => some (some (.tjoin h d a b))
  | 771 => some (some (.tleave h a))
  | 772 => some ((scopeOf r).map fun sc => .tbar h sc (kindOf r) a)
  | 773 => some ((scopeOf r).map fun sc => .lsyn h sc (kindOf r) b)
  | 774 => some (some (.xbi h a b))
  | 775 => some (some (.xba h a))
  | 776 => some (some (.xbe h a b))
  | 777 => some (some (.xbw h a b))
  | 778 => some (some (.xbt h d a b))
  | 832 => some (some (.cpy h (bitAt r.mod 5) a b))
  | 833 => some (some (.gth h (bitAt r.mod 5) a b))
  | 834 => some (some (.sct h (bitAt r.mod 5) a b))
  | 992 => some (some (.coll h (bitAt r.mod 5) a b))
  | 995 => some (some (.rprt h (bitAt r.mod 5) a b))
  | 835 => some (some (.qput h a b))
  | 836 => some (some (.qget h d a))
  | 896 => some (tyOf r >>= fun ty => some (.mma h ty d a b))
  | 897 => some (tyOf r >>= fun ty => some (.mmas h ty d a b))
  | 898 => some ((covOf (bitsOf r.mod 4 2)).map fun cov => .mmam h cov d a b)
  | 899 => some (some (.azro h (bit0Of r) d))
  | 900 => some (tyOf r >>= fun ty => some (.ald h ty d a))
  | 901 => some (tyOf r >>= fun ty => (rndOf r).map fun rnd => .ast h ty rnd (satOf r) d a)
  | 902 => some (tyOf r >>= fun ty => (rndOf r).map fun rnd => .amov h ty rnd (satOf r) (bit0Of r) d a b)
  | 903 => some (some (.mwt h))
  | 960 => some ((mkmOf r).map fun op => .mkm h op (clsOf r) a)
  | 961 => some (some (.mks h (clsOf r) a))
  | 962 => some (some (.mkc h (clsOf r) a))
  | 963 => some (some (.mkp h (clsOf r) a))
  | 964 => some (some (.mkl h (clsOf r) a))
  | 965 => some (some (.mkn h (clsOf r) a))
  | 966 => some (some (.mkr h (clsOf r) a))
  | 967 => some (some (.mkw h (clsOf r) a))
  | 968 => some (some (.mkt h (clsOf r) a))
  | 969 => some (some (.hins h (clsOf r) a))
  | 970 => some ((scopeNo (bitsOf r.mod 6 4)).map fun sc => .wopn h sc (clsOf r) d)
  | 971 => some ((scopeNo (bitsOf r.mod 6 4)).map fun sc => .wqt h (bitAt r.mod 7) sc (clsOf r) d)
  | 972 => some (some (.vred h a))
  | 973 => some (some (.vcmd h (clsOf r) a))
  | 974 => some (some (.omrk h))
  | 993 => some ((sigopOf r).map fun op => .csig h op a b)
  | 994 => some ((sigcOf r).map fun c => .swait h c d a b)
  | _ => none

/-- Word bits 63-0 as fetched. -/
def RawWord.lowBits (r : RawWord) : Nat := r.d * 2 ^ 43 + r.a * 2 ^ 22 + r.b * 2 + r.f.toNat

/-- Decodes a 96-bit word by checks 1 to 3 of R59, in their order. A bit that the instruction's description does not
assign is one that differs from the bits that the named instruction encodes to: in MOD it is an ILLEGAL_MOD (R55), in
the operand fields an ILLEGAL_FIELD (R49, R50, R53). -/
def decode (w : Nat) : Except DecodeErr Instr :=
  let r := rawOf w
  match skeleton r with
  | none => .error .illegalOpc
  | some none => .error .illegalMod
  | some (some i) =>
    if instrMod i != r.mod || !modOk i then .error .illegalMod
    else if instrLow i != r.lowBits || !fieldOk i then .error .illegalField
    else .ok i

/-- Word bits 85-73 of a header (R39). -/
def Hdr.bits (h : Hdr) : Nat :=
  4096 * h.gn.toNat + 512 * h.gp.toNat + 64 * h.stall.toNat + 32 * h.yld.toNat + 16 * h.ks.toNat + 8 * h.kd.toNat
    + 4 * h.wsb.toNat + 2 * h.hx.toNat + h.uni.toNat

/-- The 96-bit word of an instruction (R39); none for a step that no word encodes. -/
def encode (i : Instr) : Option Nat :=
  match instrHdr i with
  | none => none
  | some h => some (instrOpc i * 2 ^ 86 + h.bits * 2 ^ 73 + instrMod i * 2 ^ 64 + instrLow i)

/-- The twelve bytes of a word, bits 7-0 at the lowest address (R39). -/
def wordBytes (w : Nat) : List Byte := leBytes 12 w

/-- The instruction that the decoder reads from a word given as the table numbers its bits; the bits at and above
`nbits` are 0, and the bytes stand as the hardware stores them. -/
def decodeTableWord (nbits w : Nat) : Option Instr :=
  match decode (leVal (wordBytes (w % 2 ^ nbits))) with
  | .ok i => some i
  | .error _ => none

end Sys2Proof
end

