-- ==== Sys2Proof/Machine/Sparse.lean ====
section
/-!
DEFINITION. The two shapes in which State holds collections: a sparse table of words, where an unlisted key reads as
zero, and a record table, where an unlisted key is absent. Both are lists in ascending key order.
-/
namespace Sys2Proof.Machine

/-- A sparse table of words: ascending keys, no zero entry. -/
abbrev Sparse (w : Nat) := List (Nat × BitVec w)

/-- A record table: ascending keys. -/
abbrev NMap (α : Type) := List (Nat × α)

/-- The word at a key; an unlisted key reads as zero. -/
def spGet {w : Nat} : Sparse w → Nat → BitVec w
  | [], _ => 0#w
  | (k, v) :: r, a => if a = k then v else spGet r a

/-- The entries of a table under other keys. -/
def dropKey {α : Type} : List (Nat × α) → Nat → List (Nat × α)
  | [], _ => []
  | (k, v) :: r, a => if a = k then dropKey r a else (k, v) :: dropKey r a

/-- Inserts an entry before the first larger key. -/
def insKey {α : Type} : List (Nat × α) → Nat → α → List (Nat × α)
  | [], a, x => [(a, x)]
  | (k, v) :: r, a, x => if a < k then (a, x) :: (k, v) :: r else (k, v) :: insKey r a x

/-- Writes a word at a key; a zero word leaves the key unlisted. -/
def spPut {w : Nat} (m : Sparse w) (a : Nat) (x : BitVec w) : Sparse w :=
  if x = 0#w then dropKey m a else insKey (dropKey m a) a x

/-- Whether keys ascend strictly above a bound. -/
def keysAbove {α : Type} : List (Nat × α) → Option Nat → Bool
  | [], _ => true
  | (k, _) :: r, b => (match b with | none => true | some x => decide (x < k)) && keysAbove r (some k)

/-- The canonical form of a sparse table: strictly ascending keys and no zero entry. -/
def spWf {w : Nat} (m : Sparse w) : Bool := keysAbove m none && m.all fun e => e.2 != 0#w

/-- The record at a key. -/
def nmGet {α : Type} : NMap α → Nat → Option α
  | [], _ => none
  | (k, v) :: r, a => if a = k then some v else nmGet r a

/-- Writes the record at a key. -/
def nmSet {α : Type} (m : NMap α) (a : Nat) (x : α) : NMap α := insKey (dropKey m a) a x

/-- Removes the record at a key. -/
def nmDel {α : Type} (m : NMap α) (a : Nat) : NMap α := dropKey m a

/-- Changes the record at a key, where there is one. -/
def nmUpd {α : Type} (m : NMap α) (a : Nat) (f : α → α) : NMap α :=
  match nmGet m a with
  | some x => nmSet m a (f x)
  | none => m

/-- The keys of a table in order. -/
def nmKeys {α : Type} (m : NMap α) : List Nat := m.map (·.1)

/-- The records of a table in key order. -/
def nmVals {α : Type} (m : NMap α) : List α := m.map (·.2)

/-- The first natural from `n` on that is no key of the table, within `fuel` tries. -/
def firstFree (used : List Nat) : Nat → Nat → Option Nat
  | 0, _ => none
  | fuel + 1, n => if used.contains n then firstFree used fuel (n + 1) else some n

end Sys2Proof.Machine
end

