-- ==== Sys2Proof/Machine/State.lean ====
section
/-!
DEFINITION. The state of the Graelo 480 as plain data, its reset (R64, R76, R196, R441), and the ways a step can stop.
Numbers that software never reads as bits (counts, indices, orders, addresses while they key a table) are naturals.
-/
namespace Sys2Proof.Machine

/-- Why the machine itself stops. No rule of the manual stops the module, so these arise only in states that no step
makes; safe, because nothing is claimed of such a run. -/
inductive Fault
  /-- The issued fragment that `cur` names is not resident: raised by the check that every instruction meets. Safe. -/
  | strayIssue
  deriving DecidableEq, Repr

/-- Why a step has no meaning. -/
inductive Refusal
  /-- Raised by an arm of exec whose instruction has no meaning yet. Safe. -/
  | notModelled (mnemonic : String)
  /-- Raised by every instruction when no fragment is ISSUED: an instruction acts only for a fragment. Safe. -/
  | nothingIssued
  deriving DecidableEq, Repr

/-- The allocated register classes (R74). -/
inductive RC
  | v | k | p | m | a
  deriving DecidableEq, Repr

/-- A register of a class, as the scoreboard names it (R44). -/
structure RegRef where
  c : RC
  n : Nat
  deriving DecidableEq, Repr

/-- One register write: class, number, thread (element index for a tile, 0 for k), value. -/
structure Write where
  c : RC
  n : Nat
  t : Nat
  x : W64
  deriving DecidableEq, Repr

/-- A run of bytes of one page: virtual and physical address, home (0 this module, otherwise module + 1), page kind
(R300's ORD), length, and page format (R300's FMT). -/
structure Piece where
  va : Nat
  pa : Nat
  home : Nat
  ord : Nat
  len : Nat
  fmt : Nat := 0
  deriving DecidableEq, Repr

/-- How a load turns the bytes of its pieces into a value (R229, R232). -/
inductive Dec
  | raw (ty : Ty)
  | qel (q : QFmt) (j : Nat) (ty : Ty)
  | m32
  | sp (sz pos : Nat) (ty : Ty)
  deriving DecidableEq, Repr

/-- One thread's element of a memory operation in flight, an access of its own (R347): its pieces, its decoding, its operands,
and the bytes of a store. -/
structure Acc where
  t : Nat
  ps : List Piece
  dec : Dec
  b : W64
  c : W64
  bs : List Byte := []
  deriving DecidableEq, Repr

/-- What an instruction in flight has still to perform: a load, an atomic (operation by R58), an unbuffered store, each with
the elements that are left, or nothing. -/
inductive Flight
  | none
  | load (d : Opnd) (uni : Bool) (acq : Option Scope) (unord : Bool) (accs : List Acc)
  | atom (op : Nat) (ty : Ty) (d : Opnd) (uni : Bool) (sc : Scope) (kd : Kind) (accs : List Acc)
  | store (accs : List Acc)
  deriving DecidableEq, Repr

/-- A pending write of the scoreboard (R43, R44): due in a window when its latency is fixed; `ok` when a tracked one
may land. -/
structure Pend where
  id : Nat
  frag : Nat
  pc : VAddr
  mask : W32
  due : Option Nat
  ok : Bool
  marks : List RegRef
  writes : List Write
  fl : BitVec 5
  mfl : Bool
  op : Flight
  deriving DecidableEq, Repr

/-- Fragment states of R69; ISSUED is State.cur. -/
inductive FragSt
  | ready | stalled | blocked | joinwait | trapwait | stopped
  deriving DecidableEq, Repr

/-- Commands that wait for a queue entry (R220, R263, R371, R431), with the operands read at issue. -/
inductive CmdReq
  | cpy (off : Nat) (tag : W32) (ui : Bool)
  | gth (off : Nat) (tag : W32) (ui : Bool)
  | sct (off : Nat) (tag : W32) (ui : Bool)
  | mma (sparse : Bool) (ty : Ty) (d : Nat) (a b : W64 × W64)
  | mmam (rho : BitVec 32) (vclamp : Bool) (d : Nat) (a b : W64 × W64)
  | azro (pair : Bool) (d : Nat)
  | ald (ty : Ty) (vclamp : Bool) (d : Nat) (a : W64 × W64)
  | ast (ty : Ty) (rnd : Rnd) (sat vclamp : Bool) (d : Nat) (a : W64 × W64) (key : W64)
  | mark (mn : Nat) (sub : Nat) (cls : Nat) (off : Nat)
  | omrk
  | coll (off : Nat) (tag : W32) (ui : Bool)
  | rprt (off : Nat) (tag : W32) (ui : Bool)
  deriving DecidableEq, Repr

/-- What a fragment that is not READY waits for (R69, R86). Only saved fragments wait as the last two say: to issue their
instruction again on resumption (R147), and with a WQT whose quiet has been announced (R395). With a load of a sparse page the
fragment waits until its lines are read (R234). -/
inductive Wait
  | none
  | gap
  | wsb (rs : List RegRef)
  | marks
  | trackedFull
  | trap (cause : BitVec 8) (k56 : Option W64)
  | tbar (team : Nat) (phase : Nat) (sc : Scope) (full : Bool)
  | rdv (id : Nat)
  | grow (cl : GClass) (n : Nat) (pend : Nat) (stamp : Nat)
  | qget (q : Nat) (pend : Nat) (stamp : Nat)
  | qput (q : Nat) (mask : W32) (vals : List W32) (stamp : Nat)
  | xbw (off : Nat) (p : Nat)
  | swait (c : SigCond) (va : Nat) (b : W64) (pend : Nat)
  | wqt (cls : Nat) (close : Bool) (sc : Scope) (pend : Nat)
  | sleep (left : Nat)
  | cmd (r : CmdReq) (stamp : Nat)
  | accept
  | rsb
  | drain
  | fault (n : Nat)
  | trapStop (n : Nat) (k : W64)
  | debugStop
  | logPair
  | anew
  | line (pend : Nat) (strong : Bool)
  | quiet (sc : Scope) (pend : Nat)
  deriving DecidableEq, Repr

/-- A fragment of a strand: a split-table entry (R65) with its region start (R323); `fid` tells it from a later fragment of
the same entry (R81); `num` says that its send has taken a transaction entry and waits for a number of its pair (R411). -/
structure Frag where
  fid : Nat
  mask : W32
  pc : VAddr
  st : FragSt
  gap : Nat
  rix : Option Nat
  evt : W64
  wait : Wait
  rgn : VAddr
  since : Nat
  rel : Option Nat
  num : Bool := false
  deriving DecidableEq, Repr

/-- A reconvergence record (R65). -/
structure Rec where
  pc : VAddr
  mask : W32
  parent : Option Nat
  deriving DecidableEq, Repr

/-- A fragment at a rendezvous (R146): its guarded threads, and their source values and selectors, read in the fragment's
issue window (R117). -/
structure RdvIn where
  f : Nat
  mask : W32
  vals : List (Nat × Nat)
  sels : List (Nat × Nat)
  deriving DecidableEq, Repr

/-- An open lane-masked rendezvous (R146): its mask, the word of the instruction that opened it, and the fragments that
arrived. -/
structure Rdv where
  id : Nat
  mask : W32
  pc : VAddr
  word : Nat
  fs : List RdvIn
  deriving DecidableEq, Repr

/-- One byte of a buffered store: offset in its sector, value, writing thread (R320), and the store that wrote it, by its
stamp (R347). -/
structure RsbByte where
  off : Nat
  b : Byte
  t : Nat
  q : Nat := 0
  deriving DecidableEq, Repr

/-- A sector of the region store buffer (R320), `ord` and `fmt` its page's attributes; `hold` is the team, phase and rank of a DETERM entry held at a TBAR
(R343); `ready` after its commit; `carried` after a resumption (R325). -/
structure RsbEnt where
  id : Nat
  va : Nat
  pa : Nat
  home : Nat
  ord : Nat
  bytes : List RsbByte
  stale : Bool
  ready : Bool
  hold : Option (Nat × Nat × Nat)
  carried : Bool
  stamp : Nat
  fmt : Nat := 0
  deriving DecidableEq, Repr

/-- A held user interrupt (R81, R222): `frag` is the identity of the fragment that issued the copy. -/
structure UInt where
  frag : Nat
  status : BitVec 8
  tag : W32
  deriving DecidableEq, Repr

/-- Strand states of R70. -/
inductive StrandSt
  | active | pooled | saved | ended
  deriving DecidableEq, Repr

/-- The register files of a strand (R74): v and m by 32n + thread, a by 4096n + 64i + j. -/
structure Regs where
  v : Sparse 32
  k : Sparse 64
  p : Sparse 32
  m : Sparse 64
  a : Sparse 64
  valloc : Nat
  kalloc : Nat
  malloc : Nat
  aalloc : Nat
  deriving DecidableEq, Repr

/-- The special registers of a strand that SWR and the device write (R76, R77), with what is kept beside %hstate (R83,
R164, R243). -/
structure Spec where
  dmask : W32
  fmask : W32
  xmask : W32
  ctl : BitVec 4
  mflag : BitVec 1
  fflag : BitVec 5
  mrow : BitVec 7
  evec : VAddr
  uvec : VAddr
  uepc : VAddr
  tsave : VAddr
  hstate : BitVec 2
  ecause : BitVec 8
  epc : VAddr
  eopc : BitVec 10
  emod : BitVec 11
  efd : BitVec 21
  efa : BitVec 21
  efb : BitVec 21
  egrd : BitVec 12
  hcause : BitVec 8
  hfrag : Option Nat
  ufrag : Option Nat
  halloc : Nat × Nat × Nat
  deriving DecidableEq, Repr

/-- A strand (R63 to R87); `kept` is its trap save area while it is saved (R79), `abort` the fault of a region abort that
waits for the pending marks (R322). -/
structure Strand where
  core : Nat
  lane : Nat
  slot : Nat
  job : Nat
  batch : Nat
  sidx : Nat
  st : StrandSt
  entered : Nat
  r : Regs
  sp : Spec
  frags : NMap Frag
  recs : NMap Rec
  pend : List Pend
  rdvs : List Rdv
  rsb : List RsbEnt
  tail : Bool
  held : List UInt
  teams : List (Nat × Nat)
  faults : List (Nat × W64)
  endPc : VAddr
  launch : Nat × Nat × Nat
  acted : Bool
  log : List Nat
  kept : List Byte
  abort : Option Nat
  deriving DecidableEq, Repr

/-- A cached translation (R304): the page's base and size, and its attributes. -/
structure Tlb where
  asid : Nat
  base : Nat
  size : Nat
  pa : Nat
  home : Nat
  fmt : Nat
  ord : Nat
  x : Bool
  w : Bool
  deriving DecidableEq, Repr

/-- A lock range record (R309). -/
structure LockRec where
  base : Nat
  len : Nat
  asid : Nat
  batch : Nat
  deriving DecidableEq, Repr

/-- A barrier slot of a core (R212 to R215); its counts are those of its phase, which a release advances. -/
structure BarSlot where
  job : Nat
  team : Nat
  bidx : Option Nat
  phase : Nat
  arrived : Nat
  sent : Option Nat
  watch : Option Nat
  limit : Nat
  deriving DecidableEq, Repr

/-- Where a landing's byte comes from: zero, the scratchpad, global memory, or byte k of element e of a formatted page. -/
inductive SrcByte
  | zero
  | scr (off : Nat)
  | mem (va : Nat)
  | elem (e : Int) (k : Nat)
  deriving DecidableEq, Repr

/-- One landing of an engine command (R253): its place in the landing order, the destination's space (true: scratchpad),
and the destination address and source of each byte. -/
structure Landing where
  n : Nat
  scr : Bool
  bytes : List (Nat × SrcByte)
  deriving DecidableEq, Repr

/-- What the record of R460 names of the instruction that issued a command: its pc, its fragment's threads, and the strand's
core and slot. -/
structure Origin where
  pc : BitVec 57
  mask : W32
  core : Nat
  slot : Nat
  deriving DecidableEq, Repr

/-- A byte that an engine has read ahead of its use, and the format of its page (R290, R306, R350). -/
structure Ahead where
  b : Byte
  fmt : Nat
  deriving DecidableEq, Repr

/-- A command of the copy or gather engine (R220, R250 to R255): `lands` are the landings still to come, `out` the keys of
the global bytes landed, `seen` the bytes of source sectors that have been read ahead of their landing, by virtual address (R350),
`wait` a fault in service at landing `stop`, `denied` word 3 of the record of REMOTE_DENIED (R460). -/
structure EngCmd where
  id : Nat
  by_ : Origin
  sid : Nat
  frag : Nat
  job : Nat
  batch : Nat
  asid : Nat
  tag : W32
  ui : Bool
  xbr : Option Nat
  src : Nat
  xty : Option Ty
  rawq : Option (Nat × Nat)
  lands : List Landing
  out : List Nat
  seen : NMap Ahead
  started : Bool
  status : BitVec 8
  wait : Option Nat
  stop : Nat
  denied : List W64 := []
  deriving DecidableEq, Repr

/-- A hardware queue of a core (R223). -/
structure HwQ where
  batch : Option Nat
  ents : List (W32 × List W32)
  deriving DecidableEq, Repr

/-- A line of the write-combining buffer (R332, R419); `wait` says that its send has taken a transaction entry and waits for a
number of its pair (R411). -/
structure WcbLine where
  id : Nat
  home : Nat
  pa : Nat
  bytes : List (Nat × Byte)
  born : Nat
  sids : List Nat
  unord : Bool
  wait : Bool
  deriving DecidableEq, Repr

/-- A command sent on the mark bus (R371, R372): its opcode and block, the translations it holds, the Vats that have
still to process it, what they have collected, and the moves of a handler (R386); of a VRED, the source bytes read ahead, by virtual address, and, once
its sums are written, the start of its flag's release with their conditions (R351, R397). An MKP stays until its class is quiet; an
OMRK until the commands before it are done (R399). -/
structure MarkCmd where
  id : Nat
  core : Nat
  job : Nat
  batch : Nat
  sid : Nat
  asid : Nat
  cls : Option Nat
  mn : Nat
  sub : Nat
  blk : List Byte
  tr : List Tlb
  todo : List Nat
  acc : List (Nat × List Nat)
  moves : List Nat
  seen : NMap Byte := []
  rel : Option (Nat × BitVec 5) := none
  deriving DecidableEq, Repr

/-- A command waiting in a core's mark queue (R371): `blk` is its block once read, `cmd` what is sent once its checks are past,
`rel` the start of its waits once the strand's entries have drained (R351). -/
structure MarkReq where
  id : Nat
  sid : Nat
  frag : Nat
  req : CmdReq
  blk : List Byte
  cmd : Option MarkCmd
  rel : Option Nat
  deriving DecidableEq, Repr

/-- Counters of an endpoint for a (job, class) pair (R389). -/
structure Pair where
  s : Nat
  c : Nat
  l : Nat
  a : Bool
  p : Bool
  deriving DecidableEq, Repr

/-- A core (R196 to R224). -/
structure Core where
  reg : Nat
  acc : Nat
  window : Nat
  cycle : Nat
  laneTurn : Nat
  waitq : NMap (List Nat)
  disp : NMap Nat
  yields : NMap (Nat × Nat)
  nextYields : NMap (Nat × Nat)
  slots : NMap BarSlot
  copyQ : List EngCmd
  gathQ : List EngCmd
  queues : NMap HwQ
  wcb : List WcbLine
  rlb : NMap (List Byte)
  ott : Nat
  last : NMap Tlb
  tlb : List Tlb
  locked : List Tlb
  locks : List LockRec
  pipeC : List Tlb
  pipeG : List Tlb
  pipeM : List Tlb
  markQ : List MarkReq
  pairs : NMap Pair
  ev : NMap W64
  src : NMap Nat
  deriving DecidableEq, Repr

/-- A write in a die's L2 on its way to M (R332): the drain that put it there, the strand, and the access of that drain which it
belongs to (R347, R367). -/
structure PWrite where
  seq : Nat
  sid : Nat
  pa : Nat
  b : Byte
  unord : Bool
  acc : Nat := 0
  deriving DecidableEq, Repr

/-- A reservation-table entry (R263, R264, R276): `row` is the next row, `opB` the B operand as fetched before it (R270;
empty before the fetch), `put` the bytes that an AST has still to store at their pages, `out` the keys of those that it has stored, `seen` the bytes of
sectors that have been fetched ahead, by virtual address (R290). -/
structure MatCmd where
  id : Nat
  by_ : Origin
  sid : Nat
  frag : Nat
  core : Nat
  job : Nat
  asid : Nat
  req : CmdReq
  since : Nat
  prio : Nat
  run : Bool
  row : Nat
  susp : Option Nat
  fl : BitVec 5
  mfl : Bool
  pend : Option Nat
  opB : List W64
  put : List (Tlb × Nat × Byte)
  out : List Nat
  seen : NMap Ahead
  deriving DecidableEq, Repr

/-- A barrier combiner entry of a die or of the package (R212, R213): counts by child. -/
structure Comb where
  job : Nat
  team : Nat
  cnt : NMap Nat
  deriving DecidableEq, Repr

/-- A collective command in a die's queue (R425 to R438). -/
structure CollCmd where
  id : Nat
  by_ : Origin
  sid : Nat
  frag : Nat
  core : Nat
  job : Nat
  batch : Nat
  asid : Nat
  rprt : Bool
  off : Nat
  blk : List Byte
  ids : List Nat
  tag : W32
  ui : Bool
  xbr : Option Nat
  phase : Nat
  fl : BitVec 5
  short : Bool
  deriving DecidableEq, Repr

/-- A die: its L2's pending writes, its TLB, its matrix tables, its collective queue (R304, R332, R263, R431). -/
structure Die where
  p : List PWrite
  tlb : List Tlb
  mat : List MatCmd
  comb : NMap Comb
  coll : List CollCmd
  nextCore : NMap Nat
  screen : Nat
  ev : NMap W64
  src : NMap Nat
  deriving DecidableEq, Repr

/-- The state of a rank of a team (R244). -/
inductive RankSt
  | member (sid : Nat)
  | vacated
  deriving DecidableEq, Repr

/-- A team of a job (R212, R244): its size, its ranks (absent unjoined), its phase and who has arrived in it; `done` says that
the held DETERM entries of completed phases are still draining, `held` lists by rank the bytes that have drained (R343), `rels`
the cores that a release has still to reach. -/
structure Team where
  job : Nat
  num : Nat
  bidx : Option Nat
  size : Nat
  ranks : NMap RankSt
  phase : Nat
  arrived : List Nat
  done : Bool
  held : List (Nat × Nat)
  rels : List Nat
  deriving DecidableEq, Repr

/-- Phase record of a DETERM sector (R345): the writer and the first two loaders. -/
structure DetRec where
  writer : Option Nat
  loads : List Nat
  deriving DecidableEq, Repr

/-- Ownership of a DETERM page (R344), with its phase record by sector. -/
structure DetPage where
  page : Nat
  owner : Nat
  secs : NMap DetRec
  deriving DecidableEq, Repr

/-- A TINV in progress (R316): `swept` are the agents that have dropped the translations, `left` those that have still to
acknowledge. -/
structure Tinv where
  id : Nat
  sid : Option Nat
  asid : Nat
  whole : Bool
  lo : Nat
  hi : Nat
  left : List Nat
  swept : List Nat
  after : List (Nat × Nat)
  deriving DecidableEq, Repr

/-- A registration of the mark controller (R373). -/
inductive RegMode
  | fr
  | wf (comb etype : Nat)
  | wo
  deriving DecidableEq, Repr

/-- An open class of a job (R371, R394), its registrations (planes 0-31, slots 32-35, handlers 36-51), and the Vats that
have still to combine at the announced step close (R391); `again` says that a sweep was discarded since the last one (R433). -/
structure WClass where
  job : Nat
  cls : Nat
  sc : Scope
  regs : List (Nat × RegMode)
  close : List Nat
  again : Bool
  deriving DecidableEq, Repr

/-- A wave message on its way to a Vat, or buffered there (R382 to R384). -/
structure VMsg where
  vat : Nat
  m : WaveMsg
  deriving DecidableEq, Repr

/-- A Vat (R367 to R393): Mould columns by 1024 array + column, counters by 16 job + class, buffered arrivals, handlers by
16 job + HID, self-refresh. -/
structure Vat where
  mould : Sparse 256
  pairs : NMap Pair
  arr : List WaveMsg
  handlers : NMap (List Nat)
  sleep : Bool
  ev : NMap W64
  src : NMap Nat
  deriving DecidableEq, Repr

/-- What an ordered packet carries (R410): a write line; a signal, which to a local word travels as one of the pair of this
module with itself (R352); the request of a thread's load, ATG or STRONG access, with the payload bytes it carries; SWAIT's
read; or the request of a sector for the read line buffer. -/
inductive PktKind
  | line (pa : Nat) (bytes : List (Nat × Byte)) (unord : Bool)
  | csig (pa : Nat) (op : SigOp) (b : W64)
  | req (pa len n : Nat) (sid pend t : Nat)
  | read (pa : Nat) (sid f : Nat)
  | fill (pa : Nat)
  deriving DecidableEq, Repr

/-- A packet in flight (R411): its pair, number and order of sending, the jobs whose bytes it carries, and its content. -/
structure Pkt where
  src : Nat
  dst : Nat
  num : Nat
  seq : Nat
  core : Nat
  jobs : List Nat
  sid : Nat
  pc : VAddr
  mask : W32
  slot : Nat
  body : PktKind
  deriving DecidableEq, Repr

/-- A fabric port's or switch's state (R412 to R416): failed links, retry counts, blocked heads, the tokens; `passed` counts the
payload bytes of the packets that are sent and applied in one step. -/
structure Fabric where
  pkts : List Pkt
  next : NMap Nat
  applied : NMap Nat
  failed : List (Nat × Nat)
  retries : NMap Nat
  blocked : List (Nat × Nat × Nat)
  token : NMap Nat
  limit : Nat
  pairs : NMap Pair
  out : List WaveMsg
  ev : NMap W64
  src : NMap Nat
  passed : Nat := 0
  deriving DecidableEq, Repr

/-- What else the writing of a completion entry does (R441, R453). -/
inductive ComplKind
  | plain
  | commit (pasid : Nat)
  | log (sid f : Nat) (second : W64)
  deriving DecidableEq, Repr

/-- A completion that waits to be written: VALUE, TAG, SQHEAD, STATUS, and whether the queue's vector is raised. -/
structure Compl where
  value : W64
  tag : W32
  head : Nat
  status : BitVec 8
  irq : Bool
  kind : ComplKind
  deriving DecidableEq, Repr

/-- A host queue (R441), with the fair-share weight and charge of R446: `fetch` and `cqidx` are the device's ring indices,
`entry` the submission at hand, `asked` says that the translation for the next one has been requested (R449), `done` the
completions to write, `out` the commands not yet completed, `charge` core cycles over weight, `irqs` the count of raised
vectors. -/
structure HQueue where
  sqbase : W64
  cqbase : W64
  sqsize : BitVec 13
  cqsize : BitVec 13
  enable : Bool
  pasid : BitVec 20
  dying : Bool
  on : Bool
  sqtail : BitVec 13
  cqhead : BitVec 13
  fetch : Nat
  cqidx : Nat
  phase : Bool
  asked : Bool
  entry : Option (List Byte)
  done : List Compl
  out : Nat
  weight : Nat
  charge : Rat
  irqs : Nat
  deriving DecidableEq, Repr

/-- A launch (R444): `next` is its next batch index, `requeue` the indices of flushed batches, `live` says that H1 has placed
a batch of it, `since` is the time from which its next batch waits (R447), `done` and `cycles` are its completed batches and their
resident cycles, `kregs` the uniform registers loaded
at strand birth, `res` the resource record (REGS, UREGS, MREGS, ACCS, SCRATCH). -/
structure Launch where
  fn : Nat
  q : Nat
  job : Nat
  asid : Nat
  tag : W32
  irq : Bool
  head : Nat
  dims : Nat × Nat × Nat
  size : Nat
  limit : Nat
  acct : Nat
  debug : Bool
  prio : Nat
  seed : W64
  lbound : Nat
  part : Nat
  next : Nat
  requeue : List Nat
  live : Bool
  since : Nat
  done : Nat
  cycles : Nat
  kregs : List (Nat × W64)
  res : Nat × Nat × Nat × Nat × Nat
  deriving DecidableEq, Repr

/-- A job (R443): its address space, its text (the words as they stood at its launch, R40), its node window (R363), its
handlers (R386), its trap save areas by core (R79) and its end; `rel` is the start of the waits of R443. -/
structure Job where
  asid : Nat
  user : Bool
  launch : Nat
  base : Nat
  text : List Byte
  live : List (Nat × List Nat)
  hasLive : Bool
  nw : Nat
  lo : Nat
  hi : Nat
  elo : Nat
  ehi : Nat
  kw : Nat
  mset : List Nat
  hids : List Nat
  ended : Bool
  cause : Option (BitVec 8)
  exitCode : W64
  tsave : NMap Nat
  rel : Option Nat
  deriving DecidableEq, Repr

/-- What H1 has chosen for a resident batch (R447). -/
inductive Preempt
  | drain | save | flush
  deriving DecidableEq, Repr

/-- A resident or saved batch (R208, R209, R448). -/
structure Batch where
  job : Nat
  launch : Nat
  core : Nat
  idx : Nat
  pos : Nat × Nat × Nat
  size : Nat
  sids : List Nat
  scrBase : Nat
  scrSize : Nat
  scr : Sparse 8
  born : Nat
  saved : Bool
  ended : Bool
  qs : List (Nat × HwQ)
  locks : List LockRec
  pre : Option Preempt
  deriving DecidableEq, Repr

/-- The re-execution screen's runs (R329). -/
structure Screen where
  die : Nat
  job : Nat
  pos : Nat × Nat × Nat
  sigs : List (Nat × W64)
  deriving DecidableEq, Repr

/-- A translation fault in service (R308): who waits. -/
inductive Waiter
  | region (sid : Nat) (frag : Nat)
  | fetch (sid : Nat) (frag : Nat)
  | plain (sid : Nat) (frag : Nat)
  | tail (sid : Nat) (frag : Nat)
  | eng (c : Nat) (gather : Bool) (id : Nat)
  | mat (die : Nat) (id : Nat)
  | mark (c : Nat) (id : Nat)
  | coll (die : Nat) (id : Nat)
  | held (sid : Nat) (id : Nat)
  | resume (batch : Nat)
  deriving DecidableEq, Repr

structure PFault where
  asid : Nat
  va : Nat
  pc : Nat
  mask : W32
  who : Waiter
  deriving DecidableEq, Repr

/-- A PASID's snapshot (R453): the pages marked copy-on-write, which of the two roots is current, and whether a commit is not
complete yet. -/
structure Snap where
  pages : List Tlb
  alt : Bool
  busy : Bool
  deriving DecidableEq, Repr

/-- Before a PASID's first snapshot. -/
def Snap.none : Snap := { pages := [], alt := false, busy := false }

/-- Billing of a (function, account) (R451): the counters, and whether a Vat has worked for it since they were last brought up to
date. -/
structure Bill where
  core : Nat
  vat : Nat
  fab : Nat
  energy : Nat
  vats : Bool
  deriving DecidableEq, Repr

/-- Host and firmware (R440 to R455): `mailWait` are the messages whose sender waits for a full mailbox (R442), `rdata` is what
the host's last read of the module's memory gave (R450), `images` and `record` are the harts' firmware and the configuration
record (R452). -/
structure Hostside where
  queues : NMap HQueue
  mem : Sparse 8
  mail : NMap (List (Nat × BitVec 256))
  mailWait : List (Nat × Nat × BitVec 256)
  rdata : List Byte
  images : List (List Byte)
  record : List Byte
  faultLog : NMap (List (List W64))
  events : List (BitVec 8 × List Nat)
  access : NMap AccWin
  bills : NMap Bill
  reports : NMap Nat
  prev : NMap (BitVec 256)
  snaps : NMap Snap
  dying : List Nat
  asids : NMap Nat
  launchOk : Bool
  keyChunks : Nat
  tearOut : NMap Nat
  deriving DecidableEq, Repr

/-- The state of one module of the Graelo 480. `agenda`, `cur`, `freeCtr`, `seq`, `turn` and `auto` are the model's own: the
steps that the environment takes next, the ISSUED fragment (R69), the counter of free values, the order stamps, the core
whose lane issues next when nothing else is set, and whether the default policy's next step is one that finishes work
(log 1, log 5). -/
structure State where
  agenda : List Instr
  cur : Option (Nat × Nat)
  freeCtr : Nat
  seq : Nat
  turn : Nat
  auto : Bool
  mem : List Host.Cell
  roots : Sparse 64
  strands : NMap Strand
  batches : NMap Batch
  jobs : NMap Job
  launches : NMap Launch
  cores : NMap Core
  dies : NMap Die
  teams : NMap Team
  pkgComb : NMap Comb
  det : List DetPage
  tinvs : List Tinv
  pfaults : NMap PFault
  classes : List WClass
  marks : List MarkCmd
  msgs : List VMsg
  vats : NMap Vat
  module : BitVec 12
  fab : Fabric
  host : Hostside
  screens : NMap Screen
  deriving DecidableEq, Repr

/-- The canonical form of module memory: strictly ascending addresses and no byte equal to 0, which an unlisted address
reads as (log 3). -/
def Memory.wf (m : List Host.Cell) : Bool := spWf m

/-- A core after reset: the partition word of R196, %cycle 0 (R168), everything else empty. -/
def Core.reset : Core :=
  { reg := 48, acc := 16, window := 0, cycle := 0, laneTurn := 0, waitq := [], disp := [], yields := [], nextYields := [],
    slots := [], copyQ := [], gathQ := [], queues := [], wcb := [], rlb := [], ott := 0, last := [], tlb := [], locked := [],
    locks := [], pipeC := [], pipeG := [], pipeM := [], markQ := [], pairs := [], ev := [], src := [] }

/-- A die after reset: empty tables; the screen disabled (DESIGN CHOICE, log 4). -/
def Die.reset : Die :=
  { p := [], tlb := [], mat := [], comb := [], coll := [], nextCore := [], screen := 0, ev := [], src := [] }

def Vat.reset : Vat := { mould := [], pairs := [], arr := [], handlers := [], sleep := false, ev := [], src := [] }

/-- A host queue after reset (R441); its weight is a DESIGN CHOICE (log 4). -/
def HQueue.reset : HQueue :=
  { sqbase := 0#64, cqbase := 0#64, sqsize := 0#13, cqsize := 0#13, enable := false, pasid := 0#20, dying := false,
    on := false, sqtail := 0#13, cqhead := 0#13, fetch := 0, cqidx := 0, phase := true, asked := false, entry := none, done := [], out := 0,
    weight := 1, charge := 0, irqs := 0 }

def Regs.reset : Regs :=
  { v := [], k := [], p := [], m := [], a := [], valloc := 8, kalloc := 16, malloc := 0, aalloc := 0 }

/-- The special registers at strand birth (R64, R76, R77). -/
def Spec.reset : Spec :=
  { dmask := 0#32, fmask := 0#32, xmask := 0#32, ctl := 0#4, mflag := 0#1, fflag := 0#5, mrow := 0#7, evec := 0#57,
    uvec := 0#57, uepc := 0#57, tsave := 0#57, hstate := 0#2, ecause := 0#8, epc := 0#57, eopc := 0#10, emod := 0#11,
    efd := 0#21, efa := 0#21, efb := 0#21, egrd := 0#12, hcause := 0#8, hfrag := none, ufrag := none, halloc := (0, 0, 0) }

def Fabric.reset : Fabric :=
  { pkts := [], next := [], applied := [], failed := [], retries := [], blocked := [], token := [],
    limit := 65536, pairs := [], out := [], ev := [], src := [] }

def Hostside.reset : Hostside :=
  { queues := [], mem := [], mail := [], mailWait := [], rdata := [], images := [], record := [], faultLog := [], events := [], access := [], bills := [], reports := [], prev := [],
    snaps := [], dying := [], asids := [], launchOk := true, keyChunks := 1, tearOut := [] }

/-- The module right after reset: no launch, no strand, queues disabled (R441), every core at the partition word of
R196, memory with nothing listed (log 3), no address space valid (R298, log 4). -/
def State.reset : State :=
  { agenda := [], cur := none, freeCtr := 0, seq := 0, turn := 0, auto := false, mem := [], roots := [], strands := [], batches := [],
    jobs := [], launches := [], cores := [], dies := [], teams := [], pkgComb := [], det := [], tinvs := [], pfaults := [],
    classes := [], marks := [], msgs := [], vats := [], module := 0#12, fab := Fabric.reset,
    host := Hostside.reset, screens := [] }

end Sys2Proof.Machine
end

