-- ==== Sys2Proof/Machine/Flags.lean ====
section
/-!
DEFINITION. The sticky flags of a strand (R77, R98): the union of conditions over threads and elements, and the moment
flag.
-/
namespace Sys2Proof.Machine

/-- The union of flag sets over the elements of an instruction (R117). -/
def unionFlags (fs : List Flags) : Flags := fs.foldl (· ||| ·) flNone

/-- Sets sticky bits of %fflag and %mflag (R77): a set bit stays set. -/
def Spec.addFlags (sp : Spec) (fl : Flags) (mfl : Bool) : Spec :=
  { sp with fflag := sp.fflag ||| fl, mflag := if mfl then 1#1 else sp.mflag }

/-- %ctl's fields (R77). -/
def Spec.cov (sp : Spec) : Nat := bitsOf sp.ctl.toNat 3 2
def Spec.vclamp (sp : Spec) : Bool := sp.ctl.getLsbD 1
def Spec.sbchk (sp : Spec) : Bool := sp.ctl.getLsbD 0

/-- A thread that has not exited and is neither dead nor faulted (R8). -/
def Spec.live (sp : Spec) (t : Nat) : Bool := !inMask sp.xmask t && !inMask sp.dmask t && !inMask sp.fmask t

end Sys2Proof.Machine
end

