-- ==== Sys2Proof/Machine/Operands.lean ====
section
/-!
DEFINITION. Reading source operands and forming destination writes (R49 to R53, R74, R116), the registers an operand
names (R44, R75), and the threads an instruction acts for (R41, R42, R8).
-/
namespace Sys2Proof.Machine

/-- Key of thread t's copy of register n in the v and m tables. -/
def lkey (n t : Nat) : Nat := 32 * n + t

/-- Key of element (i, j) of tile n. -/
def akey (n i j : Nat) : Nat := 4096 * n + 64 * i + j

def Regs.rdV (r : Regs) (n t : Nat) : W32 := spGet r.v (lkey n t)
def Regs.rdK (r : Regs) (n : Nat) : W64 := spGet r.k n
def Regs.rdM (r : Regs) (n t : Nat) : W64 := spGet r.m (lkey n t)
def Regs.rdA (r : Regs) (n i j : Nat) : W64 := spGet r.a (akey n i j)

/-- The 32 bits of a predicate; p7 reads 1 in every thread (R74). -/
def Regs.rdP (r : Regs) (n : Nat) : W32 := if n = 7 then 0xFFFFFFFF#32 else spGet r.p n

/-- Thread t's bit of a predicate. -/
def Regs.bitP (r : Regs) (n t : Nat) : Bool := inMask (r.rdP n) t

/-- One register write (R74): a write to p7 is discarded (R50). -/
def Regs.wr (r : Regs) (w : Write) : Regs :=
  match w.c with
  | .v => { r with v := spPut r.v (lkey w.n w.t) (BitVec.ofNat 32 w.x.toNat) }
  | .k => { r with k := spPut r.k w.n w.x }
  | .m => { r with m := spPut r.m (lkey w.n w.t) w.x }
  | .a => { r with a := spPut r.a (4096 * w.n + w.t) w.x }
  | .p =>
    if w.n = 7 then r
    else
      let bit := 1#32 <<< w.t
      let old := spGet r.p w.n
      { r with p := spPut r.p w.n (if w.x = 0#64 then old &&& ~~~bit else old ||| bit) }

/-- Register writes in order. -/
def Regs.wrAll (r : Regs) (ws : List Write) : Regs := ws.foldl Regs.wr r

/-- Converts an encoding of one floating format to another under RNE (R52, R99). A NaN becomes the canonical one; no flag is
set, a signalling NaN included (log 69). -/
def fConv (src dst : Fmt) (x : Nat) : Nat := (roundExt dst .rne false 0#64 ((src.dec x).ext)).bits

/-- The bits, `ty.width` or 32 wide, that a source operand supplies to thread t (R51, R52, R116); a class 7 immediate of type
.g16 is not converted. -/
def Regs.src (r : Regs) (ty : Ty) (t : Nat) (o : Opnd) : Nat :=
  match o with
  | .v n =>
    if ty.width = 64 then (r.rdV n.toNat t).toNat + (r.rdV (n.toNat + 1) t).toNat * 2 ^ 32 else (r.rdV n.toNat t).toNat
  | .k n => if ty.width = 64 then (r.rdK n.toNat).toNat else (r.rdK n.toNat).toNat % 2 ^ 32
  | .m n => (r.rdM n.toNat t).toNat
  | .imm x => toWrap (if ty.width = 64 then 64 else 32) x.toInt
  | .g x => if ty = .g16 then x.toNat else fConv fmtG16 (fmtOf ty) x.toNat
  | _ => 0

/-- The two halves of a vector pair operand (R49). -/
def Regs.srcB (r : Regs) (ty : Ty) (t : Nat) (o : Opnd) : Nat :=
  match o with
  | .pair b _ => r.src ty t (.v b)
  | o => r.src ty t o

def Regs.srcC (r : Regs) (ty : Ty) (t : Nat) (o : Opnd) : Nat :=
  match o with
  | .pair _ c => r.src ty t (.v c)
  | _ => 0

/-- The literal of a wide form in its type (R53). -/
def litVal (ty : Ty) (l : BitVec 42) : Nat :=
  match ty with
  | .f64 => l.toNat * 2 ^ 22
  | .f32 => l.toNat % 2 ^ 32
  | .f16 | .g16 | .g8 => fConv fmtF32 (fmtOf ty) (l.toNat % 2 ^ 32)
  | _ => toWrap (if ty.width = 64 then 64 else 32) l.toInt % 2 ^ (if ty.width < 32 then 32 else ty.width)

/-- The first and second source of an instruction with a wide form (R53). -/
def Regs.srcs (r : Regs) (ty : Ty) (t : Nat) (d : Opnd) (s : Srcs) : Nat × Nat :=
  match s with
  | .two a b => (r.src ty t a, r.src ty t b)
  | .wide l => (r.src ty t d, litVal ty l)

/-- A uniform register operand's 64 bits, an immediate sign-extended to 64 bits (R116, R228). -/
def Regs.uni64 (r : Regs) (o : Opnd) : Nat :=
  match o with
  | .k n => (r.rdK n.toNat).toNat
  | .imm x => toWrap 64 x.toInt
  | _ => 0

/-- The same read as .n32. -/
def Regs.uni32 (r : Regs) (o : Opnd) : Nat := r.uni64 o % 2 ^ 32

/-- Extends a result of a type to the 64 bits of a uniform register (R51). -/
def uniExt (ty : Ty) (x : Nat) : W64 :=
  if ty.width = 64 then BitVec.ofNat 64 x
  else if ty.signed then BitVec.ofNat 64 (toWrap 64 (sgn 32 x)) else BitVec.ofNat 64 (x % 2 ^ 32)

/-- The writes of one value of a type to destination D of thread t. -/
def dstW (d : Opnd) (ty : Ty) (t : Nat) (x : Nat) : List Write :=
  match d with
  | .v n =>
    if ty.width = 64 then
      [⟨.v, n.toNat, t, BitVec.ofNat 64 (x % 2 ^ 32)⟩, ⟨.v, n.toNat + 1, t, BitVec.ofNat 64 (x / 2 ^ 32 % 2 ^ 32)⟩]
    else [⟨.v, n.toNat, t, BitVec.ofNat 64 (x % 2 ^ 32)⟩]
  | .k n => [⟨.k, n.toNat, 0, uniExt ty x⟩]
  | .p n => [⟨.p, n.toNat, t, BitVec.ofNat 64 x⟩]
  | .m n => [⟨.m, n.toNat, t, BitVec.ofNat 64 x⟩]
  | _ => []

/-- The registers that an operand names; `wide` for a 64-bit type. p7 and the special registers are named by none. -/
def refsOf (o : Opnd) (wide : Bool) : List RegRef :=
  match o with
  | .v n => if wide then [⟨.v, n.toNat⟩, ⟨.v, n.toNat + 1⟩] else [⟨.v, n.toNat⟩]
  | .k n => [⟨.k, n.toNat⟩]
  | .p n => if n = 7#3 then [] else [⟨.p, n.toNat⟩]
  | .m n => [⟨.m, n.toNat⟩]
  | .a n => [⟨.a, n.toNat⟩]
  | .pair b c =>
    if wide then [⟨.v, b.toNat⟩, ⟨.v, b.toNat + 1⟩, ⟨.v, c.toNat⟩, ⟨.v, c.toNat + 1⟩] else [⟨.v, b.toNat⟩, ⟨.v, c.toNat⟩]
  | _ => []

/-- The registers that the sources of an instruction with a wide form name. -/
def srcRefs (s : Srcs) (d : Opnd) (wide : Bool) : List RegRef :=
  match s with
  | .two a b => refsOf a wide ++ refsOf b wide
  | .wide _ => refsOf d wide

/-- What an instruction's checks need to know of it: the registers it reads and writes, whether it is tracked and
whether it is privileged (R59). -/
structure Uses where
  reads : List RegRef
  writes : List RegRef
  tracked : Bool
  priv : Bool
  deriving DecidableEq, Repr

/-- The uses of a fixed-latency instruction. -/
def uses (d : List RegRef) (rs : List RegRef) : Uses := { reads := rs, writes := d, tracked := false, priv := false }

/-- The uses of a tracked instruction (R44). -/
def usesT (d : List RegRef) (rs : List RegRef) : Uses := { uses d rs with tracked := true }

/-- A register lies beyond the strand's allocation (R75). -/
def Regs.beyond (r : Regs) (x : RegRef) : Bool :=
  match x.c with
  | .v => r.valloc ≤ x.n
  | .k => r.kalloc ≤ x.n && x.n < 56
  | .p => false
  | .m => r.malloc ≤ x.n
  | .a => r.aalloc ≤ x.n

/-- The issuing fragment's view of its strand. -/
structure Ctx where
  sid : Nat
  f : Nat
  st : Strand
  fr : Frag
  win : Nat
  kb : W64
  deriving DecidableEq, Repr

/-- The stochastic rounding key of R96 for thread t and element j, up to the element index; `kb` holds the seed and the
batch coordinates mixed in. -/
def srKey (kb : W64) (sidx t pc j : Nat) : W64 :=
  mix64 (mix64 (mix64 (kb ^^^ BitVec.ofNat 64 (32 * sidx + t)) ^^^ BitVec.ofNat 64 pc) ^^^ BitVec.ofNat 64 j)

def Ctx.key (c : Ctx) (t j : Nat) : W64 := srKey c.kb c.st.sidx t c.fr.pc.toNat j

/-- The guard value of thread t (R41). -/
def Ctx.guard (c : Ctx) (h : Hdr) (t : Nat) : Bool := c.st.r.bitP h.gp.toNat t != h.gn

/-- The live threads of the executing fragment in ascending order. -/
def Ctx.lives (c : Ctx) : List Nat := (maskThreads c.fr.mask).filter c.st.sp.live

/-- The leader of R42. -/
def Ctx.leader (c : Ctx) : Option Nat := c.lives.head?

/-- The threads an instruction executes for: active(s) (R8), or under UNI the leader when its guard is 1 (R42). -/
def Ctx.acts (c : Ctx) (h : Hdr) : List Nat :=
  if h.uni then
    match c.leader with
    | some t => if c.guard h t then [t] else []
    | none => []
  else c.lives.filter (c.guard h)

/-- The writes of per-thread results (R116): a uniform destination once, a predicate under UNI in every live thread of
the fragment (R42). -/
def Ctx.dst (c : Ctx) (h : Hdr) (d : Opnd) (ty : Ty) (vals : List (Nat × Nat)) : List Write :=
  match d with
  | .k _ => (vals.head?.map fun v => dstW d ty v.1 v.2).getD []
  | .p _ =>
    if h.uni then (vals.head?.map fun v => c.lives.flatMap fun t => dstW d ty t v.2).getD []
    else vals.flatMap fun v => dstW d ty v.1 v.2
  | _ => vals.flatMap fun v => dstW d ty v.1 v.2

end Sys2Proof.Machine
end

