-- ==== Sys2Proof/Machine/Xlate.lean ====
section
/-!
DEFINITION. Accessors of State, module memory (R332), the page-table walk (R298 to R302), the translation caches (R304,
R305, R309, R313) and the access checks (R306).
-/
namespace Sys2Proof.Machine

abbrev Out := Host.Outcome State Fault Refusal

def State.core (s : State) (c : Nat) : Core := (nmGet s.cores c).getD Core.reset
def State.setCore (s : State) (c : Nat) (x : Core) : State := { s with cores := nmSet s.cores c x }
def State.updCore (s : State) (c : Nat) (f : Core → Core) : State := s.setCore c (f (s.core c))
def State.die (s : State) (d : Nat) : Die := (nmGet s.dies d).getD Die.reset
def State.setDie (s : State) (d : Nat) (x : Die) : State := { s with dies := nmSet s.dies d x }
def State.updDie (s : State) (d : Nat) (f : Die → Die) : State := s.setDie d (f (s.die d))
def State.vat (s : State) (v : Nat) : Vat := (nmGet s.vats v).getD Vat.reset
def State.updVat (s : State) (v : Nat) (f : Vat → Vat) : State := { s with vats := nmSet s.vats v (f (s.vat v)) }
def State.updStrand (s : State) (sid : Nat) (f : Strand → Strand) : State := { s with strands := nmUpd s.strands sid f }
def State.updJob (s : State) (j : Nat) (f : Job → Job) : State := { s with jobs := nmUpd s.jobs j f }
def State.updBatch (s : State) (b : Nat) (f : Batch → Batch) : State := { s with batches := nmUpd s.batches b f }
def Strand.updFrag (st : Strand) (f : Nat) (g : Frag → Frag) : Strand := { st with frags := nmUpd st.frags f g }
def State.updFrag (s : State) (sid f : Nat) (g : Frag → Frag) : State := s.updStrand sid fun st => st.updFrag f g

/-- The die of a core (R76). -/
def dieOf (c : Nat) : Nat := c / 144

/-- Cores of the module (R76). -/
def coreCount : Nat := 1152

/-- A fresh order stamp. -/
def State.tick (s : State) : Nat × State := (s.seq, { s with seq := s.seq + 1 })

/-- The key of a physical byte: home 0 is this module, home m + 1 is module m (log 10). -/
def pkey (home pa : Nat) : Nat := home * 2 ^ 52 + pa

/-- The byte of M at a key. -/
def rdM1 (m : List Host.Cell) (a : Nat) : Byte := spGet m a

/-- `n` bytes of M. -/
def rdMN (m : List Host.Cell) (a n : Nat) : List Byte := (List.range n).map fun i => rdM1 m (a + i)

/-- Writes bytes to M. -/
def wrMN (m : List Host.Cell) : Nat → List Byte → List Host.Cell
  | _, [] => m
  | a, b :: bs => wrMN (spPut m a b) (a + 1) bs

/-- Writes bytes at listed addresses, in order. -/
def wrMs (m : List Host.Cell) (bs : List (Nat × Byte)) : List Host.Cell := bs.foldl (fun m e => spPut m e.1 e.2) m

/-- A little-endian value of M. -/
def State.rdM (s : State) (a n : Nat) : Nat := leVal (rdMN s.mem a n)

/-- What a translation gives (R297 to R302, R308, R313). -/
inductive XRes
  | ok (e : Tlb)
  | pageFault
  | bad
  | unmapped
  | lockMiss
  deriving DecidableEq, Repr

/-- The fields of a leaf entry (R300) as a cached translation of a page of `size` bytes. -/
def leafTlb (asid va size pte : Nat) : Tlb :=
  { asid := asid, base := va / size * size, size := size, pa := bitsOf pte 51 12 * 4096,
    home := if bitAt pte 9 then bitsOf pte 63 52 + 1 else 0, fmt := bitsOf pte 8 6, ord := bitsOf pte 5 4, x := bitAt pte 3,
    w := bitAt pte 2 }

/-- The checks of R301 on a leaf of a level. -/
def leafBad (own lvl size pte : Nat) : Bool :=
  let fmt := bitsOf pte 8 6
  let rem := bitAt pte 9
  let rmod := bitsOf pte 63 52
  fmt == 7 || ((fmt == 1 || fmt == 2 || fmt == 3) && lvl != 1) || (rem && (fmt != 0 || rmod == own)) || (!rem && rmod != 0)
    || bitsOf pte 51 12 * 4096 % size != 0

/-- A 64 KiB group: sixteen entries agree but for consecutive frames (R302). -/
def groupBad (es : List Nat) : Bool :=
  let b := es.headD 0
  !(es.zipIdx.all fun (e, q) => e == b + q * 4096)

/-- Bytes that a leaf maps at each level (R299). -/
def lvlSize (lvl : Nat) : Nat := 4096 * 512 ^ lvl

/-- The walk of R299 from a table at a level. -/
def walkGo (s : State) (asid va : Nat) : Nat → Nat → XRes
  | lvl, tab =>
    match lvl with
    | 0 =>
      let i := va / 4096 % 512
      let pte := s.rdM (tab + 8 * i) 8
      if !bitAt pte 0 then .pageFault
      else if !bitAt pte 1 then .bad
      else if bitAt pte 10 then
        let g := i / 16 * 16
        let es := (List.range 16).map fun q => s.rdM (tab + 8 * (g + q)) 8
        let b := es.headD 0
        if groupBad es || leafBad s.module.toNat 0 65536 b then .bad else .ok (leafTlb asid va 65536 b)
      else if leafBad s.module.toNat 0 4096 pte then .bad
      else .ok (leafTlb asid va 4096 pte)
    | l + 1 =>
      let pte := s.rdM (tab + 8 * (va / lvlSize (l + 1) % 512)) 8
      if !bitAt pte 0 then .pageFault
      else if bitAt pte 1 then
        if l + 1 > 2 || leafBad s.module.toNat (l + 1) (lvlSize (l + 1)) pte then .bad
        else .ok (leafTlb asid va (lvlSize (l + 1)) pte)
      else if bitsOf pte 63 52 != 0 || bitsOf pte 11 2 != 0 then .bad
      else walkGo s asid va l (bitsOf pte 51 12 * 4096)

/-- A walk from the ASID's root (R297, R298). -/
def walk (s : State) (asid va : Nat) : XRes :=
  if 2 ^ 57 ≤ va then .unmapped
  else
    let root := (spGet s.roots asid).toNat
    if !bitAt root 0 then .unmapped else walkGo s asid va 4 (bitsOf root 51 12 * 4096)

/-- Whether a cached translation serves an address. -/
def Tlb.hits (e : Tlb) (asid va : Nat) : Bool := e.asid == asid && e.base ≤ va && va < e.base + e.size

/-- Adds an entry to a cache of a given capacity; the oldest entry leaves (R304, log 7). -/
def tlbIns (cap : Nat) (l : List Tlb) (e : Tlb) : List Tlb := (e :: l.filter (· != e)).take cap

/-- A cached page that an invalidation drops (R316). -/
def Tinv.drops (t : Tinv) (e : Tlb) : Bool :=
  e.asid == t.asid && (t.whole || (decide (t.lo < e.base + e.size) && decide (e.base < t.hi)))

/-- The die of an agent that translates (R316): cores by number, dies from 4096 on. -/
def agentDie (ag : Nat) : Nat := if ag < 4096 then dieOf ag else ag - 4096

/-- Whether an agent is past step 1 of an invalidation (R316): it has dropped the translations, or it held none when the
invalidation began. -/
def Tinv.past (t : Tinv) (ag : Nat) : Bool := t.swept.contains ag || !t.left.contains ag

/-- What an agent finds in its die's TLB: no translation that an invalidation has made it drop already, though the die itself
may still hold it (R316, step 1). -/
def dieHit (s : State) (ag asid va : Nat) : Option Tlb :=
  (s.die (agentDie ag)).tlb.find? fun e => e.hits asid va && !(s.tinvs.any fun t => t.past ag && t.drops e)

/-- An agent's lookup in its die's TLB, and the walk on a miss with its fill (R304). -/
def dieXlate (s : State) (ag asid va : Nat) : XRes × State :=
  match dieHit s ag asid va with
  | some e => (.ok e, s)
  | none =>
    match walk s asid va with
    | .ok e => (.ok e, s.updDie (agentDie ag) fun x => { x with tlb := tlbIns 16384 x.tlb e })
    | r => (r, s)

/-- Whether an address lies in a lock range record of a batch (R309, R313). -/
def Core.inLock (c : Core) (asid batch va : Nat) : Bool :=
  c.locks.any fun r => r.asid == asid && r.batch == batch && decide (r.base ≤ va) && decide (va < r.base + r.len)

/-- A strand's translation at a lane thread slot (R304, R313). -/
def coreXlate (s : State) (c slot asid batch va : Nat) : XRes × State :=
  if 2 ^ 57 ≤ va then (.unmapped, s)
  else
    let co := s.core c
    match (nmGet co.last slot).filter (·.hits asid va) with
    | some e => (.ok e, s)
    | none =>
      match (co.locked ++ co.tlb).find? (·.hits asid va) with
      | some e => (.ok e, s.setCore c { co with last := nmSet co.last slot e })
      | none =>
        if co.inLock asid batch va then (.lockMiss, s)
        else
          match dieXlate s c asid va with
          | (.ok e, s') =>
            (.ok e, s'.updCore c fun x => { x with last := nmSet x.last slot e, tlb := tlbIns 512 x.tlb e })
          | r => r

/-- The pipe TLBs of R305. -/
inductive Pipe
  | copy | gather | matrix | none
  deriving DecidableEq, Repr

/-- An engine's translation through its pipe TLB and the die TLB (R305). -/
def pipeXlate (s : State) (p : Pipe) (c asid va : Nat) : XRes × State :=
  if 2 ^ 57 ≤ va then (.unmapped, s)
  else
    let co := s.core c
    let l := match p with | .copy => co.pipeC | .gather => co.pipeG | .matrix => co.pipeM | .none => []
    match l.find? (·.hits asid va) with
    | some e => (.ok e, s)
    | none =>
      match dieXlate s c asid va with
      | (.ok e, s') =>
        (.ok e, s'.updCore c fun x =>
          match p with
          | .copy => { x with pipeC := tlbIns 32 x.pipeC e }
          | .gather => { x with pipeG := tlbIns 32 x.pipeG e }
          | .matrix => { x with pipeM := tlbIns 32 x.pipeM e }
          | .none => x)
      | r => r

/-- A page whose bytes LD, ST and the atomics may not touch (R107). -/
def qFmt (fmt : Nat) : Bool := fmt == 1 || fmt == 2 || fmt == 3

/-- The piece of a page that an aligned access reads or writes. -/
def Tlb.piece (e : Tlb) (va len : Nat) : Piece :=
  { va := va, pa := e.pa + (va - e.base), home := e.home, ord := e.ord, len := len, fmt := e.fmt }

/-- A byte of a die's local view: the newest write in P(d), or M (R332). -/
def viewByte (s : State) (d key : Nat) : Byte :=
  match (s.die d).p.reverse.find? (·.pa == key) with
  | some w => w.b
  | none => rdM1 s.mem key

/-- Overwrites the read-line-buffer copies of the listed bytes (R336). -/
def rlbWrite (x : Core) (bs : List (Nat × Byte)) : Core :=
  { x with rlb := x.rlb.map fun (k, l) =>
      (k, l.zipIdx.map fun (b, i) => match bs.reverse.find? (·.1 == k + i) with | some e => e.2 | none => b) }

/-- Bytes of one sector of a strand that drain locally: they are appended to P(d) and overwrite RLB(c) copies (R336); the drained
sector holds a transaction entry until its acknowledgement (R355). `acc` names the access that a byte belongs to (R347). -/
def putLocal (s : State) (c sid : Nat) (unord : Bool) (bs : List (Nat × Byte)) (acc : Nat → Nat := fun _ => 0) : State :=
  let (q, s1) := s.tick
  let s2 := s1.updDie (dieOf c) fun d =>
    { d with p := d.p ++ bs.map fun e => { seq := q, sid := sid, pa := e.1, b := e.2, unord := unord, acc := acc e.1 } }
  s2.updCore c fun x => rlbWrite { x with ott := x.ott + 1 } bs

/-- Source 4 of R335: the die's local view, or the home module's memory. -/
def srcByte (s : State) (c key : Nat) : Byte := if key < 2 ^ 52 then viewByte s (dieOf c) key else rdM1 s.mem key

/-- The bytes that a core has sent and that their home has not applied: they overwrite what it copies from there (R336). -/
def sentBytes (s : State) (c : Nat) : List (Nat × Byte) :=
  s.fab.pkts.flatMap fun k => match k.body with
    | .line _ bs _ => if k.core == c && k.src == s.module.toNat then bs.map fun b => (pkey (k.dst + 1) b.1, b.2) else []
    | _ => []

/-- A sector as a core copies it by source 4 (R335, R336). -/
def sectorNow (s : State) (c key : Nat) : List Byte :=
  let sent := if key < 2 ^ 52 then [] else sentBytes s c
  (List.range 32).map fun i => match sent.reverse.find? (·.1 == key + i) with | some e => e.2 | none => srcByte s c (key + i)

/-- The sectors that a read line buffer holds (R1). -/
def rlbCap : Nat := 4096

/-- A sector enters a read line buffer; in a full one it takes the place of another, which leaves (R336, log 7). -/
def Core.fillRlb (x : Core) (key : Nat) (bs : List Byte) : Core :=
  let old := if (nmGet x.rlb key).isSome || decide (x.rlb.length < rlbCap) then x.rlb else x.rlb.drop 1
  { x with rlb := nmSet old key bs }

/-- An atomic overwrites the core's copy of the sector (R348). -/
def rlbAgain (s : State) (c key : Nat) : State :=
  if (nmGet (s.core c).rlb key).isSome then s.updCore c fun x => { x with rlb := nmSet x.rlb key (sectorNow s c key) } else s

/-- The bytes are in M of their home: no L2, write-combining line or packet of this module holds a write to them. -/
def allInM (s : State) (ks : List Nat) : Bool :=
  ks.isEmpty ||
    (!(s.dies.any fun d => d.2.p.any fun w => ks.contains w.pa)
      && !(s.cores.any fun c => c.2.wcb.any fun l => l.bytes.any fun b => ks.contains (pkey l.home (l.pa + b.1)))
      && !(s.fab.pkts.any fun k => match k.body with
          | .line _ bs _ => k.src == s.module.toNat && bs.any fun b => ks.contains (pkey (k.dst + 1) b.1)
          | _ => false))

end Sys2Proof.Machine
end

