-- ==== Sys2Proof/Machine/Ops.lean ====
section
/-!
DEFINITION. The shared operations of every instruction: landing of pending writes (R43, R44, R48), the end of a job
(R216, R456, R460), DETERM ownership (R344, R345), the region commit (R321 to R323), joining of fragments (R67), moving
the PC (R40, R43), taking a cause (R61, R78 to R80) and returning from one (R83), user interrupts (R81, R222), and the
checks of issue (R59).
-/
namespace Sys2Proof.Machine

/-! ## Operations in flight -/

/-- The byte keys of a piece. -/
def Piece.keys (p : Piece) : List Nat := (List.range p.len).map fun i => pkey p.home (p.pa + i)

def Acc.keys (a : Acc) : List Nat := a.ps.flatMap Piece.keys

def Flight.accs : Flight → List Acc
  | .none => []
  | .load _ _ _ _ as => as
  | .atom _ _ _ _ _ _ as => as
  | .store as => as

/-- The operation with other elements left. -/
def Flight.withAccs (x : Flight) (as : List Acc) : Flight :=
  match x with
  | .none => .none
  | .load d u q un _ => .load d u q un as
  | .atom op ty d u sc kd _ => .atom op ty d u sc kd as
  | .store _ => .store as

def Flight.isAcq : Flight → Bool
  | .load _ _ q un _ => q.isSome && !un
  | .atom _ _ _ _ _ kd _ => kd == .acq || kd == .full
  | _ => false

def Flight.isStore : Flight → Bool
  | .store _ => true
  | _ => false

/-- Whether an operation has an element on a page of one kind left. -/
def Flight.onOrd (x : Flight) (o : Nat) : Bool := x.accs.any fun a => a.ps.any fun p => p.ord == o

def Flight.strong (x : Flight) : Bool := x.onOrd 0

/-! ## Pending writes -/

def Pend.tracked (p : Pend) : Bool := p.due.isNone
def Pend.names (p : Pend) (rs : List RegRef) : Bool := p.marks.any rs.contains

/-- The strand after one pending write has landed: its registers and sticky flags (R44, R77). -/
def Strand.apply (st : Strand) (p : Pend) : Strand :=
  { st with r := st.r.wrAll p.writes, sp := st.sp.addFlags p.fl p.mfl }

/-- Lands the pending writes that a test chooses, in issue order. -/
def Strand.landIf (st : Strand) (g : Pend → Bool) : Strand :=
  { (st.pend.filter g).foldl Strand.apply st with pend := st.pend.filter fun p => !g p }

/-- A fixed-latency write that is due, or that an issue-later due write to one of its registers follows (R48). -/
def Strand.isDue (st : Strand) (win : Nat) (p : Pend) : Bool :=
  match p.due with
  | none => false
  | some d => d ≤ win || st.pend.any fun q => p.id < q.id && q.names p.marks && (match q.due with | some e => e ≤ win | none => false)

/-- Lands every fixed-latency write that is due in a window. -/
def Strand.landDue (st : Strand) (win : Nat) : Strand := st.landIf (st.isDue win)

/-- Lands every fixed-latency write (R43: before the fragment leaves the active set; R78: before the area is saved). -/
def Strand.landFixed (st : Strand) : Strand := st.landIf fun p => !p.tracked

/-- Lands the fixed-latency writes issued up to an identifier. -/
def Strand.landUpTo (st : Strand) (id : Nat) : Strand := st.landIf fun p => !p.tracked && p.id ≤ id

/-- The last fixed-latency pending write of a register. -/
def Strand.lastFixed (st : Strand) (r : RegRef) : Option Nat :=
  ((st.pend.filter fun p => !p.tracked && p.marks.contains r).getLast?).map (·.id)

/-- Uncovered reads (R48): for each register read whose fixed-latency write is not yet due, a free bit chooses the value
before or after the write. The counter of free bits advances with each. -/
def Strand.settle (st : Strand) (ctr : Nat) : List RegRef → Strand × Nat
  | [] => (st, ctr)
  | r :: rs =>
    match st.lastFixed r with
    | none => st.settle ctr rs
    | some id => (if Config.freeBit ctr then st.landUpTo id else st).settle (ctr + 1) rs

/-- Tracked marks. -/
def Strand.marked (st : Strand) (rs : List RegRef) : Bool := st.pend.any fun p => p.tracked && p.names rs
def Strand.trackedCount (st : Strand) : Nat := (st.pend.filter fun p => p.tracked && !p.marks.isEmpty).length
def Strand.anyTracked (st : Strand) : Bool := st.pend.any Pend.tracked

/-- An identifier for the next pending write of a strand. -/
def Strand.nextPend (st : Strand) : Nat := st.pend.foldl (fun n p => max n (p.id + 1)) 0

/-- The PC and mask of a fragment, for the record of a cause that its instruction meets later (R460). -/
def Strand.fragPc (st : Strand) (f : Nat) : VAddr := ((nmGet st.frags f).map (·.pc)).getD 0#57
def Strand.fragMask (st : Strand) (f : Nat) : W32 := ((nmGet st.frags f).map (·.mask)).getD 0#32

/-- Puts a pending write on the scoreboard. -/
def Strand.addPend (st : Strand) (p : Pend) : Strand := { st with pend := st.pend ++ [p] }
def Strand.delPend (st : Strand) (id : Nat) : Strand := { st with pend := st.pend.filter (·.id != id) }

/-- Entries of the outstanding-transaction table in use (R355): accesses in flight, sends that wait for a number, and sectors
and lines that await an acknowledgement. -/
def ottUsed (s : State) (c : Nat) : Nat :=
  (s.core c).ott + ((s.core c).wcb.filter (·.wait)).length
    + (s.strands.filter fun e => e.2.core == c).foldl (fun n e =>
        n + (e.2.pend.filter fun p => p.op != .none && (!p.op.isStore || p.op.strong)).length + (e.2.frags.filter fun f => f.2.num).length) 0

/-- The strand has done what a flush may not undo (R447): a release, an atomic, a STRONG access, or a command. -/
def State.acts (s : State) (sid : Nat) : State := s.updStrand sid fun st => { st with acted := true }

/-! ## Words of the kernel text -/

/-- The instruction word at a PC, as the launch's text holds it (R39, R40). -/
def Job.word (j : Job) (pc : VAddr) : Nat := leVal ((j.text.drop (pc.toNat - j.base)).take 12)

/-- A PC that names a word of the text (R40). -/
def Job.pcOk (j : Job) (pc : Nat) : Bool :=
  j.base ≤ pc && (pc - j.base) % 12 == 0 && pc - j.base < j.text.length

/-- An element of an atomic, as the strand's signature takes it (R329). -/
def Acc.sig (a : Acc) : List Nat := (a.ps.map (·.va)) ++ [a.b.toNat, a.c.toNat]

def State.job? (s : State) (st : Strand) : Option Job := nmGet s.jobs st.job
def State.asid (s : State) (st : Strand) : Nat := ((s.job? st).map (·.asid)).getD 0
def State.now (s : State) (st : Strand) : Nat := (s.core st.core).window

/-- The word of a fragment's instruction. -/
def State.wordAt (s : State) (st : Strand) (f : Nat) : Nat := ((s.job? st).map fun j => j.word (st.fragPc f)).getD 0

/-- The strand issues a command that acts outside the core: its signature takes the word (R329). -/
def State.signs (s : State) (sid f : Nat) : State := s.updStrand sid fun st => { st with log := st.log ++ [s.wordAt st f] }

/-- A command that acts outside the core, which a shadow run suppresses (R329, log 26): no gather into the core's own scratchpad, and
no matrix command that only reads memory. -/
def CmdReq.outward : CmdReq → Bool
  | .gth _ _ _ | .mma _ _ _ _ _ | .mmam _ _ _ _ _ | .azro _ _ | .ald _ _ _ _ => false
  | _ => true

/-- The strand sends a command (R329, R447). -/
def State.sends (s : State) (sid f : Nat) (r : CmdReq) : State := if r.outward then (s.acts sid).signs sid f else s.acts sid

/-! ## Logs and the end of a job -/

/-- Appends a record to a job's fault log; an end without a record of its own logs nothing. -/
def State.log (s : State) (j : Nat) (rec : List W64) : State :=
  let old := (nmGet s.host.faultLog j).getD []
  if rec.isEmpty then s else { s with host := { s.host with faultLog := nmSet s.host.faultLog j (old ++ [rec]) } }

def State.event (s : State) (cause : BitVec 8) (xs : List Nat) : State :=
  { s with host := { s.host with events := s.host.events ++ [(cause, xs)] } }

def w64n (n : Nat) : W64 := BitVec.ofNat 64 n

/-- The fault-log record of R460. -/
def faultRec (job : Nat) (cause : BitVec 8) (pc : Nat) (mask : W32) (core slot : Nat) (more : List W64) : List W64 :=
  [w64n (job * 2 ^ 48 + cause.toNat * 2 ^ 40 + 2 + more.length), w64n pc,
   w64n (mask.toNat * 2 ^ 32 + core * 2 ^ 21 + slot * 2 ^ 11)] ++ more

/-- The origin of a command that a fragment issues. -/
def Strand.origin (st : Strand) (f : Nat) : Origin :=
  { pc := ((nmGet st.frags f).map (·.pc)).getD 0#57, mask := ((nmGet st.frags f).map (·.mask)).getD 0#32, core := st.core, slot := st.slot }

/-- The record of R460 of a command's cause. -/
def originRec (job : Nat) (cause : BitVec 8) (o : Origin) (more : List W64) : List W64 :=
  faultRec job cause o.pc.toNat o.mask o.core o.slot more

/-- Whether a batch is resident: it has neither ended nor been saved. -/
def Batch.resident (b : Batch) : Bool := !b.ended && !b.saved

/-- The teams whose members a batch end dissolves, and DETERM ownership that ends with a team (R344, R245). -/
def State.dropTeams (s : State) (g : Nat → Team → Bool) : State :=
  let gone := (s.teams.filter fun e => g e.1 e.2).map (·.1)
  { s with teams := s.teams.filter fun e => !g e.1 e.2, det := s.det.filter fun d => !gone.contains d.owner }

/-- Whether the phase that an entry is held for has completed (R343). -/
def phaseOver (s : State) (h : Nat × Nat × Nat) : Bool := ((nmGet s.teams h.1).map fun t => decide (h.2.1 < t.phase)).getD false

/-- The strand as a job's end leaves it (R216): committed entries stay to drain, and so do held ones whose phase has completed;
everything else is discarded. -/
def Strand.kill (st : Strand) (past : Nat × Nat × Nat → Bool) : Strand :=
  { st with st := .ended, frags := [], recs := [], pend := [], rdvs := [],
            rsb := st.rsb.filter fun e => match e.hold with | some h => past h | none => e.ready, held := [], faults := [], abort := none }

/-- What a batch's end or kill frees on its core (R209): queues, lock records and locked entries, engine commands. -/
def Core.free (c : Core) (bid job : Nat) (gone : List Nat) : Core :=
  let locks := c.locks.filter (·.batch != bid)
  { c with
    queues := c.queues.map fun (n, q) => (n, if q.batch == some bid then { batch := none, ents := [] } else q)
    locks := locks
    locked := c.locked.filter fun e => locks.any fun r => r.asid == e.asid && r.base / 4096 * 4096 < e.base + e.size && e.base < r.base + r.len
    copyQ := c.copyQ.filter fun x => !gone.contains x.sid
    gathQ := c.gathQ.filter fun x => !gone.contains x.sid
    markQ := c.markQ.filter fun x => !gone.contains x.sid
    slots := c.slots.filter fun e => !(e.2.job == job && !gone.isEmpty) }

/-- A die without a job's commands and combiner entries, and a Vat without its arrivals and counters. -/
def Die.dropJob (d : Die) (j : Nat) : Die :=
  { d with mat := d.mat.filter (·.job != j), coll := d.coll.filter (·.job != j), comb := d.comb.filter fun x => x.2.job != j }
def Vat.dropJob (v : Vat) (j : Nat) : Vat :=
  { v with arr := v.arr.filter (·.job != j), pairs := v.pairs.filter fun p => p.1 / 16 != j,
           handlers := v.handlers.filter fun p => p.1 / 16 != j }

/-- The scratch range record of R211. -/
def scratchRec (b : Batch) (sts : List Strand) : List W64 :=
  let es := sts.filter fun st => st.sp.fmask != 0#32
  [w64n (b.job * 2 ^ 48 + 0x50 * 2 ^ 40 + es.length), w64n (b.pos.1 * 2 ^ 32 + b.pos.2.1), w64n (b.pos.2.2 * 2 ^ 32 + b.scrSize)]
    ++ es.map fun st => w64n (st.sidx * 2 ^ 32 + st.sp.fmask.toNat)

def Bill.none : Bill := { core := 0, vat := 0, fab := 0, energy := 0, vats := false }

/-- The number beyond the host's functions under which a hart's own launches stand: they have no queue and no account (R298, R451;
log 41). -/
def hartFn : Nat := 129

/-- Brings something to a job's account (R451). -/
def State.bill (s : State) (j : Nat) (g : Bill → Bill) : State :=
  match ((nmGet s.jobs j).bind fun x => nmGet s.launches x.launch).filter (·.fn != hartFn) with
  | Option.none => s
  | some l =>
    let k := l.fn * 65536 + l.acct
    { s with host := { s.host with bills := nmSet s.host.bills k (g ((nmGet s.host.bills k).getD Bill.none)) } }

/-! ## Fabric traffic (R410) -/

/-- What crosses the fabric. A write line also carries a STRONG store; a word is a CSIG's or SWAIT's; a wave message, a block and a
Couch item with its key have their bytes. -/
inductive Traffic
  | loadRequest
  | loadReply
  | writeLine
  | atgRequest (wide : Bool)
  | atgReply
  | word
  | wave (n : Nat)
  | block (n : Nat)
  | item (n : Nat)
  deriving DecidableEq, Repr

/-- The classes of packets (R410). -/
inductive TrafficClass
  | ordered | wave | collective
  deriving DecidableEq, Repr

def Traffic.cls : Traffic → TrafficClass
  | .wave _ => .wave
  | .block _ | .item _ => .collective
  | _ => .ordered

/-- The payload bytes. -/
def Traffic.payload : Traffic → Nat
  | .loadRequest => 0
  | .loadReply => 32
  | .writeLine => 128
  | .atgRequest wide => if wide then 16 else 8
  | .atgReply | .word => 8
  | .wave n | .block n | .item n => n

/-- The flits of 64 bytes in which packets of at most 256 bytes of payload move it, each behind a header of 32 bytes. -/
def Traffic.flits (k : Traffic) : Nat :=
  let n := k.payload
  n / 256 * ceilDiv (32 + 256) 64 + (if n % 256 = 0 ∧ n ≠ 0 then 0 else ceilDiv (32 + n % 256) 64)

/-- Payload bytes that cross the fabric for a job count for its account (R451). -/
def State.carry (s : State) (j : Nat) (k : Traffic) : State := s.bill j fun b => { b with fab := b.fab + k.payload }

/-- H1 charges a batch's resident core cycles to its queue, over the queue's weight, and H5 to its account (R446, R451). -/
def chargeBatch (s : State) (b : Batch) : State :=
  match (nmGet s.launches b.launch).filter (·.fn != hartFn) with
  | none => s
  | some l =>
    let n := (s.core b.core).cycle - b.born
    let k := l.fn * 65536 + l.acct
    let old := (nmGet s.host.bills k).getD Bill.none
    { s with host := { s.host with
      queues := nmUpd s.host.queues (l.fn * 8 + l.q) fun q => { q with charge := q.charge + (n : Rat) / (q.weight : Rat) }
      bills := nmSet s.host.bills k { old with core := old.core + n } } }

/-- The end of a job's batch by a cause: its cycles are charged, and its scratch range record follows (R211, R446, R451). -/
def killBatch (s : State) (b : Batch) : State :=
  let s1 := if b.resident then chargeBatch s b else s
  let sts := b.sids.filterMap (nmGet s.strands ·)
  if !b.ended && sts.any fun st => st.sp.fmask != 0#32 then s1.log b.job (scratchRec b sts) else s1

/-- Ends a job for a cause (R216, R456): every strand ends on every core, its slots, queues, ranges, blocks and tiles are
freed, its engine commands, classes, registrations, handlers and teams are discarded. The record goes to the fault log;
a job that has already ended keeps its first cause (R459). JOB_END then reports it. -/
def endJob (s : State) (j : Nat) (cause : BitVec 8) (rec : List W64) : State :=
  match nmGet s.jobs j with
  | none => s
  | some jb =>
    let s := s.log j rec
    if jb.ended then s
    else
      let sids := (s.strands.filter fun e => e.2.job == j).map (·.1)
      let bids := (s.batches.filter fun e => e.2.job == j).map (·.1)
      let s := (s.batches.filter fun e => e.2.job == j).foldl (fun s e => killBatch s e.2) s
      let s := s.updJob j fun x => { x with ended := true, cause := some cause, hids := [] }
      let s := { s with
        strands := s.strands.map fun (e : Nat × Strand) => if e.2.job == j then (e.1, e.2.kill (phaseOver s)) else e
        batches := s.batches.map fun (e : Nat × Batch) => if e.2.job == j then (e.1, { e.2 with ended := true, qs := [] }) else e
        cores := s.cores.map fun (e : Nat × Core) =>
          (e.1, bids.foldl (fun c b => c.free b j sids) { e.2 with pairs := e.2.pairs.filter fun p => p.1 / 16 != j })
        fab := { s.fab with pairs := s.fab.pairs.filter fun p => p.1 / 256 != j, out := s.fab.out.filter fun m => m.job != j }
        dies := s.dies.map fun (e : Nat × Die) => (e.1, e.2.dropJob j)
        pkgComb := s.pkgComb.filter fun x => x.2.job != j
        classes := s.classes.filter (·.job != j)
        marks := s.marks.filter (·.job != j)
        msgs := s.msgs.filter (·.m.job != j)
        vats := s.vats.map fun (e : Nat × Vat) => (e.1, e.2.dropJob j)
        pfaults := s.pfaults.filter fun e => match e.2.who with
          | .region sid _ | .fetch sid _ | .plain sid _ | .tail sid _ | .held sid _ => !sids.contains sid
          | _ => true }
      s.dropTeams fun _ t => t.job == j

/-- A cause that ends the job of the raising fragment (R62, R456, R460); `more` is word 3 where the record has one. -/
def endJobAt (s : State) (sid f : Nat) (cause : BitVec 8) (more : List W64) : State :=
  match nmGet s.strands sid with
  | none => s
  | some st =>
    match nmGet st.frags f with
    | none => s
    | some fr =>
      endJob (s.updFrag sid f fun x => { x with st := .stopped }) st.job cause
        (faultRec st.job cause fr.pc.toNat fr.mask st.core st.slot more)

/-! ## DETERM ownership -/

/-- The team a DETERM access is made for (R344): the team joined most recently, or the batch team (the first). -/
def Strand.curTeam (st : Strand) : Nat := ((st.teams.getLast?).map (·.1)).getD 0

/-- The page that holds an address, as a key of its home's frame. -/
def detPage (s : State) (asid va : Nat) : Nat :=
  match walk s asid va with
  | .ok e => pkey e.home e.pa
  | _ => 0

/-- How an access meets the phase record (R345): a load, a phase write, or a commit at TBAR on the owning team. -/
inductive DetKind
  | load | phase | tbar
  deriving DecidableEq, Repr

/-- The record of R346. -/
def detRec (s : State) (st : Strand) (cause : BitVec 8) (va team : Nat) (owner : Option Nat) (other : Nat) : List W64 :=
  let num := fun t => ((nmGet s.teams t).map (·.num)).getD 0
  let ow := match owner with | some o => num o | none => 0xFFFF
  let ph := match owner with | some o => ((nmGet s.teams o).map (·.phase)).getD 0 | none => 0
  [w64n (st.job * 2 ^ 48 + cause.toNat * 2 ^ 40 + ow), w64n (va / 32 * 32),
   w64n ((if cause = 0x4A#8 then ph % 65536 else 0) * 2 ^ 48 + num team * 2 ^ 32 + st.core * 2 ^ 21 + st.slot * 2 ^ 11 + other)]

/-- A DETERM access of a strand for a team (R344, R345): the state with ownership and phase record, or the cause and its
record. `sec` is the sector's key within its page's home. -/
def detAccess (s : State) (sid : Nat) (st : Strand) (team va sec : Nat) (kind : DetKind) : State ⊕ (BitVec 8 × List W64) :=
  let page := detPage s (s.asid st) va
  let own := s.det.find? (·.page == page)
  match own with
  | none =>
    if 65536 ≤ s.det.countP fun d => d.page / 2 ^ 52 == page / 2 ^ 52 then .inr (0x49#8, detRec s st 0x49#8 va team none 0x7FF)
    else
      let r : DetRec := match kind with
        | .load => { writer := none, loads := [sid] }
        | .phase => { writer := some sid, loads := [] }
        | .tbar => { writer := none, loads := [] }
      .inl { s with det := s.det ++ [{ page := page, owner := team, secs := if kind == .tbar then [] else [(sec, r)] }] }
  | some d =>
    if !(st.teams.any (·.1 == d.owner)) then .inr (0x49#8, detRec s st 0x49#8 va team (some d.owner) 0x7FF)
    else if kind == .tbar && team == d.owner then .inl s
    else
      let r := (nmGet d.secs sec).getD { writer := none, loads := [] }
      let coreOf := fun x => ((nmGet s.strands x).map (·.core)).getD 0x7FF
      match r.writer.filter (· != sid) with
      | some w => .inr (0x4A#8, detRec s st 0x4A#8 va team (some d.owner) (coreOf w))
      | none =>
        let others := r.loads.filter (· != sid)
        if kind != .load && !others.isEmpty then
          .inr (0x4A#8, detRec s st 0x4A#8 va team (some d.owner) (coreOf (others.headD 0)))
        else
          let r' : DetRec := if kind == .load then
              { r with loads := if r.loads.contains sid || 2 ≤ r.loads.length then r.loads else r.loads ++ [sid] }
            else { r with writer := some sid }
          .inl { s with det := s.det.map fun x => if x.page == page then { x with secs := nmSet x.secs sec r' } else x }

/-! ## Mailboxes -/

/-- One message of those that wait (R442): it enters its mailbox of 64, unless that is full or an earlier message of its sender
waits; the first component is the mailboxes, the second what still waits. -/
def mailStep (p : NMap (List (Nat × BitVec 256)) × List (Nat × Nat × BitVec 256)) (e : Nat × Nat × BitVec 256) :
    NMap (List (Nat × BitVec 256)) × List (Nat × Nat × BitVec 256) :=
  let box := (nmGet p.1 e.2.1).getD []
  if box.length < 64 && !(p.2.any fun x => x.1 == e.1) then (nmSet p.1 e.2.1 (box ++ [(e.1, e.2.2)]), p.2) else (p.1, p.2 ++ [e])

/-- Every message that waits and now may enters its mailbox, in the order sent (R442). -/
def mailSettle (s : State) : State :=
  let r := s.host.mailWait.foldl mailStep (s.host.mail, [])
  { s with host := { s.host with mail := r.1, mailWait := r.2 } }

/-- A hart sends a message (R442): it enters the mailbox of 64, or its sender waits. -/
def mailPut (s : State) (src dst : Nat) (m : BitVec 256) : State :=
  mailSettle { s with host := { s.host with mailWait := s.host.mailWait ++ [(src, dst, m)] } }

/-- A hart takes its oldest message, and those that wait for the room enter (R442). -/
def mailTake (s : State) (dst : Nat) : State :=
  mailSettle { s with host := { s.host with mail := nmSet s.host.mail dst (((nmGet s.host.mail dst).getD []).drop 1) } }

/-! ## Fault service and aborts -/

/-- Registers a translation fault for service: H3 passes it to H2 through its mailbox (R308, log 57). -/
def State.addFault (s : State) (asid va pc : Nat) (mask : W32) (w : Waiter) : Nat × State :=
  let (n, s) := s.tick
  let s := mailPut s 3 2 (Config.faultMsg n)
  (n, { s with pfaults := nmSet s.pfaults n { asid := asid, va := va, pc := pc, mask := mask, who := w } })

/-- The pending mark of a tracked instruction that is blocked before its effect. -/
def Wait.pend? : Wait → Option Nat
  | .grow _ _ p _ => some p
  | .qget _ p _ => some p
  | .swait _ _ _ p => some p
  | .wqt _ _ _ p => some p
  | .quiet _ p => some p
  | _ => Option.none

/-- A strand's commands that are not sent yet leave its core's mark queue: their fragments issue them again (R322, R371). -/
def withdrawMarks (s : State) (sid : Nat) : State :=
  match nmGet s.strands sid with
  | some st => { s with cores := nmUpd s.cores st.core fun x => { x with markQ := x.markQ.filter fun q => !(q.sid == sid && q.req != .omrk) } }
  | none => s

/-- Steps 2 and 3 of an abort (R322): uncommitted entries are discarded (carried ones stay, R325) and every fragment stops
at its region start, waiting for the service of fault `n`; a command that one of them waits to see accepted is withdrawn. -/
def abortRegion (s : State) (sid n : Nat) : State :=
  (withdrawMarks s sid).updStrand sid fun st =>
    { st with
      rsb := st.rsb.filter fun e => e.ready || e.hold.isSome || e.carried
      rdvs := []
      abort := none
      frags := st.frags.map fun (k, fr) => (k, { fr with st := .stopped, pc := fr.rgn, wait := .fault n, gap := 0, rel := none, num := false }) }

/-- An abort that waits goes on once every pending mark of the strand has cleared (R322, step 1). -/
def abortTry (s : State) (sid : Nat) : State :=
  match nmGet s.strands sid with
  | none => s
  | some st =>
    match st.abort with
    | none => s
    | some n => if st.anyTracked then s else abortRegion s sid n

/-- A translation fault of a strand's global access (R322, R324): the strand issues nothing more until its pending marks have
cleared and its region is aborted; in the tail after a forced commit only the fragment stops and REGION_UNSAFE follows the
service. -/
def strandFault (s : State) (sid f va : Nat) : State :=
  match nmGet s.strands sid with
  | none => s
  | some st =>
    match nmGet st.frags f with
    | none => s
    | some fr =>
      if st.tail then
        let (n, s) := s.addFault (s.asid st) va fr.pc.toNat fr.mask (.tail sid f)
        s.updFrag sid f fun fr => { fr with st := .stopped, wait := .fault n }
      else
        let (n, s) := s.addFault (s.asid st) va fr.pc.toNat fr.mask (.region sid f)
        abortTry (s.updStrand sid fun st =>
          Strand.updFrag { st with abort := some n } f fun fr => { fr with st := .stopped, wait := .fault n }) sid

/-- What follows a failed translation of a strand (R297, R301, R308). -/
def strandXFail (s : State) (sid f va : Nat) (r : XRes) : State :=
  match r with
  | .pageFault => strandFault s sid f va
  | .bad => endJobAt s sid f 0x48#8 []
  | _ => endJobAt s sid f 0x46#8 []

/-! ## The region commit -/

/-- Whether the bytes of an entry may stand on the page that its address now has (R107, R306): one of the format they were stored
to, or neither of a Q format. -/
def RsbEnt.fits (e : RsbEnt) (t : Tlb) : Bool := e.fmt == t.fmt || (!qFmt e.fmt && !qFmt t.fmt)

/-- A stale entry under a new translation. -/
def RsbEnt.again (e : RsbEnt) (p : Piece) : RsbEnt := { e with pa := p.pa, home := p.home, ord := p.ord, fmt := p.fmt, stale := false }

/-- Validation of one uncommitted entry (R321, R344): a stale entry is translated again, a DETERM entry checked. A page of another
format than the entry's ends the job with FORMAT_MISMATCH (R306, log 74). -/
def validate (s : State) (sid f team : Nat) (kind : DetKind) (st : Strand) (e : RsbEnt) : (State × RsbEnt) ⊕ State :=
  let asid := s.asid st
  let det := fun (s : State) (e : RsbEnt) =>
    if e.ord == 3 then
      match detAccess s sid st team e.va (pkey e.home e.pa) kind with
      | .inl s' => .inl (s', e)
      | .inr (c, rec) => .inr (endJob (s.updFrag sid f fun x => { x with st := .stopped }) st.job c rec)
    else .inl (s, e)
  let fresh := fun (s : State) (t : Tlb) =>
    if !t.w then .inr (endJobAt s sid f 0x47#8 [])
    else if !e.fits t then .inr (endJobAt s sid f 0x42#8 [])
    else det s (e.again (t.piece e.va 32))
  if e.stale then
    match coreXlate s st.core (st.lane * 8 + 0) asid st.batch e.va with
    | (.ok t, s') => fresh s' t
    | (.lockMiss, s') =>
      match dieXlate s' st.core asid e.va with
      | (.ok t, s'') => fresh s'' t
      | (r, s'') => .inr (strandXFail s'' sid f e.va r)
    | (r, s') => .inr (strandXFail s' sid f e.va r)
  else det s e

/-- Validation of the uncommitted entries in order. -/
def validateAll (s : State) (sid f team : Nat) (kind : DetKind) (st : Strand) : List RsbEnt → (State × List RsbEnt) ⊕ State
  | [] => .inl (s, [])
  | e :: es =>
    match validate s sid f team kind st e with
    | .inr s' => .inr s'
    | .inl (s', e') =>
      match validateAll s' sid f team kind st es with
      | .inr s'' => .inr s''
      | .inl (s'', es') => .inl (s'', e' :: es')

/-- A buffered entry that no region end has committed yet. -/
def RsbEnt.open (e : RsbEnt) : Bool := !e.ready && e.hold.isNone

/-- The bytes that an entry commits. On a DETERM page an entry keeps each thread's byte, so that the thread reads its own
(R335), and commits the highest thread's (R320, R343); elsewhere a byte is buffered once. -/
def RsbEnt.final (e : RsbEnt) : List RsbByte :=
  e.bytes.filter fun b => !(e.bytes.any fun x => x.off == b.off && b.t < x.t)

/-- A sector's mask and data, as a strand's signature takes them (R329). -/
def RsbEnt.sig (e : RsbEnt) : List Nat :=
  [e.va, (e.final.map fun b => 2 ^ b.off).foldl (· + ·) 0, (e.final.map fun b => b.b.toNat * 256 ^ b.off).foldl (· + ·) 0]

/-- Two entries of one DETERM sector as one: each thread's later byte. -/
def RsbEnt.absorb (old new : RsbEnt) : RsbEnt :=
  { old with bytes := (old.bytes.filter fun b => !(new.bytes.any fun x => x.off == b.off && x.t == b.t)) ++ new.bytes }

/-- Entries that commit together: a carried and a new entry of one DETERM sector are one, so that the highest thread's byte
is what it commits (R325, R343). -/
def mergeDet (es : List RsbEnt) : List RsbEnt :=
  es.foldl (fun acc e =>
    let same := fun (x : RsbEnt) => e.ord == 3 && x.ord == 3 && pkey x.home x.pa / 32 == pkey e.home e.pa / 32
    if acc.any same then acc.map fun x => if same x then x.absorb e else x else acc ++ [e]) []

/-- The region end of a fragment (R321, R323): the uncommitted entries become ready to drain, or, for a TBAR on a team,
its DETERM entries are held for that team's phase and rank (R343). `next` becomes the fragment's region start and every
other fragment's becomes its own PC. The flag is false when the instruction must not proceed: the region aborted or the
job ended. -/
def endRegion (s : State) (sid f : Nat) (next : VAddr) (tb : Option (Nat × Nat × Nat)) : State × Bool :=
  match nmGet s.strands sid with
  | none => (s, true)
  | some st =>
    let team := match tb with | some (t, _, _) => t | none => st.curTeam
    let kind : DetKind := if tb.isSome then .tbar else .phase
    let opened := st.rsb.filter RsbEnt.open
    match validateAll s sid f team kind st opened with
    | .inr s' => (s', false)
    | .inl (s', es) =>
      let (q, s') := s'.tick
      let es := mergeDet es
      let done := es.map fun e =>
        match tb with
        | some h => if e.ord == 3 then { e with hold := some h, carried := false, stamp := q } else { e with ready := true, carried := false, stamp := q }
        | none => { e with ready := true, carried := false, stamp := q }
      (s'.updStrand sid fun x =>
        { x with
          rsb := (x.rsb.filter fun e => !e.open) ++ done
          tail := false
          log := x.log ++ es.flatMap RsbEnt.sig
          frags := x.frags.map fun (k, fr) => (k, { fr with rgn := if k == f then next else fr.pc }) }, true)

/-! ## Joining and moving -/

/-- The fragments of a strand that wait at a record. -/
def Strand.joiners (st : Strand) (r : Nat) : List (Nat × Frag) :=
  st.frags.filter fun e => e.2.st == .joinwait && e.2.rix == some r

/-- Whether the JOINWAIT fragments of a record cover its expected mask (R67); a record without one stays (log 63). -/
def Strand.joinReady (st : Strand) (r : Nat) (x : Rec) : Bool :=
  let js := st.joiners r
  let e := maskOf ((maskThreads x.mask).filter st.sp.live)
  !js.isEmpty && (js.foldl (fun m j => m ||| j.2.mask) 0#32) == e

/-- The fusion of R67: the lowest entry survives at the parent record. A handler that one of the fragments entered goes on in
the fused one (R164); it owes the largest gap that is left (log 63). -/
def Strand.fuse (st : Strand) (r : Nat) (x : Rec) (win : Nat) : Strand :=
  let js := st.joiners r
  let lo := (js.head?.map (·.1)).getD 0
  let m := js.foldl (fun m j => m ||| j.2.mask) 0#32
  let g := js.foldl (fun n j => max n j.2.gap) 0
  let keep := st.frags.filter fun e => !(js.any (·.1 == e.1)) || e.1 == lo
  let stay := fun (x : Option Nat) => x.map fun f => if js.any (·.1 == f) then lo else f
  { st with
    recs := nmDel st.recs r
    sp := { st.sp with hfrag := stay st.sp.hfrag, ufrag := stay st.sp.ufrag }
    frags := nmUpd keep lo fun fr =>
      { fr with mask := m, pc := x.pc, rix := x.parent, gap := g, st := if g = 0 then .ready else .stalled,
                wait := if g = 0 then .none else .gap, since := win } }

/-- After a fragment has arrived or been freed, records whose join is complete fuse, each after the region end that the
fusion makes (R67, R321): where that aborts, the fragments stay apart. A fused fragment may arrive at its parent's record
at once. -/
def joinGo (s : State) (sid : Nat) : Nat → State
  | 0 => s
  | fuel + 1 =>
    match nmGet s.strands sid with
    | none => s
    | some st =>
      let st := { st with frags := st.frags.map fun (k, fr) =>
        (k, match fr.rix.bind (nmGet st.recs ·) with
            | some x => if (fr.st == .ready || fr.st == .stalled) && fr.pc == x.pc && (fr.wait == .none || fr.wait == .gap)
                then { fr with st := .joinwait, wait := .none } else fr
            | none => fr) }
      let s := { s with strands := nmSet s.strands sid st }
      match st.recs.find? fun e => st.joinReady e.1 e.2 with
      | none => s
      | some (r, x) =>
        match endRegion s sid (((st.joiners r).head?.map (·.1)).getD 0) x.pc none with
        | (s1, true) => joinGo (s1.updStrand sid fun y => y.fuse r x (s1.now y)) sid fuel
        | (s1, false) => s1

def joinAll (s : State) (sid : Nat) : State := joinGo s sid 9

/-- Gives a fragment its next PC and its stall gap, then joins it where its record says so (R43, R67). -/
def moveTo (s : State) (sid f : Nat) (h : Hdr) (pc : VAddr) : State :=
  joinAll (s.updFrag sid f fun fr =>
    { fr with pc := pc, st := .stalled, wait := .gap, gap := max h.stall.toNat 1, evt := 0#64, rel := none, num := false }) sid

/-- The fall-through of a completed instruction (R40): beyond the text the fragment raises PC_BAD at that word. -/
def advance (s : State) (sid f : Nat) (h : Hdr) : State :=
  match nmGet s.strands sid with
  | none => s
  | some st =>
    match nmGet st.frags f, s.job? st with
    | some fr, some j =>
      if j.pcOk (fr.pc.toNat + 12) then moveTo s sid f h (fr.pc + 12#57) else endJobAt s sid f 0x06#8 []
    | _, _ => s

/-- A branch to a target (R40): a bad one raises PC_BAD and leaves the PC. -/
def branchTo (s : State) (sid f : Nat) (h : Hdr) (pc : Nat) : State :=
  match nmGet s.strands sid with
  | none => s
  | some st =>
    match s.job? st with
    | some j => if j.pcOk pc then moveTo s sid f h (BitVec.ofNat 57 pc) else endJobAt s sid f 0x06#8 []
    | none => s

/-- A blocked or stopped fragment gets its next PC: it is READY, or STALLED for what is left of its gap (R43, R69). -/
def wakeTo (s : State) (sid f : Nat) (pc : VAddr) : State :=
  match nmGet s.strands sid with
  | none => s
  | some st =>
    joinAll (s.updFrag sid f fun fr =>
      { fr with pc := pc, st := if fr.gap = 0 then .ready else .stalled, wait := if fr.gap = 0 then .none else .gap, evt := 0#64,
                rel := none, num := false, since := s.now st }) sid

/-- Completes a blocked fragment's instruction: its event has occurred, and it goes on at the next word. -/
def unblock (s : State) (sid f : Nat) : State :=
  match nmGet s.strands sid with
  | none => s
  | some st =>
    match nmGet st.frags f, s.job? st with
    | some fr, some j =>
      if j.pcOk (fr.pc.toNat + 12) then wakeTo s sid f (fr.pc + 12#57) else endJobAt s sid f 0x06#8 []
    | _, _ => s

/-- Sets a fragment's region start (R323). -/
def setRgn (s : State) (sid f : Nat) (pc : VAddr) : State := s.updFrag sid f fun fr => { fr with rgn := pc }

/-- Completes a blocked instruction that ended its region: the region starts at the next word (R323). -/
def unblockRgn (s : State) (sid f : Nat) : State :=
  unblock (s.updFrag sid f fun fr => { fr with rgn := fr.pc + 12#57 }) sid f

/-! ## The trap save area -/

/-- The bytes that a trap entry writes (R78). -/
def saveArea (st : Strand) (mask : W32) : List Byte :=
  let v := (List.range 8).flatMap fun i => threads.flatMap fun t => leBytes 4 (st.r.rdV (st.r.valloc - 8 + i) t).toNat
  let k := (List.range 8).flatMap fun i => leBytes 8 (st.r.rdK (56 + i)).toNat
  let p := (List.range 7).flatMap fun i => leBytes 4 (st.r.rdP i).toNat
  v ++ k ++ p ++ leBytes 4 mask.toNat ++ List.replicate 32 0#8

/-- The registers that a save area holds, restored to where they came from (R83): `valloc` is the allocation at the entry. -/
def restoreArea (r : Regs) (valloc : Nat) (bs : List Byte) : Regs :=
  let at4 := fun o => leVal ((bs.drop o).take 4)
  let v := (List.range 8).flatMap fun i => threads.map fun t => (⟨.v, valloc - 8 + i, t, w64n (at4 (128 * i + 4 * t))⟩ : Write)
  let k := (List.range 8).map fun i => (⟨.k, 56 + i, 0, w64n (leVal ((bs.drop (1024 + 8 * i)).take 8))⟩ : Write)
  let p := (List.range 7).flatMap fun i => threads.map fun t => (⟨.p, i, t, w64n (bitsOf (at4 (1088 + 4 * i)) t t)⟩ : Write)
  r.wrAll (v ++ k ++ p)

/-- The address of a strand's save area (R78). -/
def Strand.area (st : Strand) : Nat := st.sp.tsave.toNat + st.slot * 1152

/-- The pieces of a strand's save area, or nothing where firmware's mapping is broken (R79). -/
def areaPieces (s : State) (st : Strand) (write : Bool) : Option (List Piece) :=
  let a := st.area
  let p0 := a / 4096 * 4096
  let ends := [(a, min (p0 + 4096) (a + 1152)), (p0 + 4096, a + 1152)]
  ends.foldr (fun (lo, hi) acc =>
    if hi ≤ lo then acc
    else match acc, walk s (s.asid st) lo with
      | some ps, .ok e => if write && !e.w then none else some (e.piece lo (hi - lo) :: ps)
      | _, _ => none) (some [])

/-- The byte addresses of pieces in order. -/
def pieceKeys (ps : List Piece) : List Nat := ps.flatMap fun p => (List.range p.len).map fun i => pkey p.home (p.pa + i)

/-- The strand's buffer without bytes that are overwritten past it. -/
def Strand.forget (st : Strand) (ks : List Nat) : Strand :=
  let cut := st.rsb.map fun (e : RsbEnt) => { e with bytes := e.bytes.filter fun b => !ks.contains (pkey e.home e.pa / 32 * 32 + b.off) }
  { st with rsb := cut.filter fun e => !e.bytes.isEmpty }

/-- Writes a strand's save area past the region store buffer (R79), over what an earlier handler's edit left there: it
reaches the die's L2, or M of another home. -/
def writeArea (s : State) (sid : Nat) (st : Strand) (ps : List Piece) (bs : List Byte) : State :=
  let ks := pieceKeys ps
  let s := s.updStrand sid (·.forget ks)
  let all := ks.zip bs
  let far := all.filter fun e => !(e.1 < 2 ^ 52)
  let s := { s with mem := wrMs s.mem far }
  ((all.map (·.1 / 32)).eraseDups.filter fun k => decide (32 * k < 2 ^ 52)).foldl (fun s k =>
    putLocal s st.core sid false (all.filter fun e => e.1 / 32 == k)) s

/-- Whether the sectors of a strand's save area find no room in its core's transaction table (R355): the entry waits. -/
def areaWaits (s : State) (st : Strand) : Bool :=
  match areaPieces s st true with
  | some ps => decide (256 < ottUsed s st.core + (((pieceKeys ps).map (· / 32)).eraseDups.filter fun k => decide (32 * k < 2 ^ 52)).length)
  | none => false

/-- A byte as a strand's own load reads it now: its buffer, then the die's view (R79, R335). -/
def ownByte (s : State) (st : Strand) (key : Nat) : Byte :=
  let hit := st.rsb.reverse.find? fun e => pkey e.home e.pa / 32 == key / 32 && e.bytes.any fun b => b.off == key % 32
  match hit.bind fun e => e.final.find? fun b => b.off == key % 32 with
  | some b => b.b
  | none => if key < 2 ^ 52 then viewByte s (dieOf st.core) key else rdM1 s.mem key

/-! ## Taking a cause -/

/-- The trap registers of R61, decoded from the word at the trapping PC. -/
def Spec.trapRegs (sp : Spec) (cause : BitVec 8) (pc : VAddr) (w : Nat) : Spec :=
  { sp with
    ecause := cause, epc := pc, eopc := BitVec.ofNat 10 (bitsOf w 95 86),
    emod := BitVec.ofNat 11 (bitsOf w 0 0 * 1024 + bitsOf w 73 73 * 512 + bitsOf w 72 64),
    efd := BitVec.ofNat 21 (bitsOf w 63 43), efa := BitVec.ofNat 21 (bitsOf w 42 22), efb := BitVec.ofNat 21 (bitsOf w 21 1),
    egrd := BitVec.ofNat 12 (bitsOf w 81 74 * 16 + bitsOf w 85 82) }

/-- Entry to a handler, after the waits of R80 and R81: the region ends, the area is written, then `set` writes the
registers. A bad handler PC raises PC_BAD at the instruction (R40); a broken mapping of the area ends the job (R79). -/
def enterHandler (s : State) (sid f : Nat) (handler : VAddr) (set : Strand → Frag → Strand) : State :=
  let s := s.updStrand sid Strand.landFixed
  match nmGet s.strands sid with
  | none => s
  | some st =>
    match nmGet st.frags f, s.job? st with
    | some fr, some j =>
      if !j.pcOk handler.toNat then endJobAt s sid f 0x06#8 []
      else
        match endRegion s sid f handler none with
        | (s1, false) => s1
        | (s1, true) =>
          match areaPieces s1 st true with
          | none => endJobAt s1 sid f 0x46#8 []
          | some ps =>
            let s2 := writeArea s1 sid st ps (saveArea st fr.mask)
            let s3 := s2.updStrand sid fun x =>
              match nmGet x.frags f with
              | some y => set { x with sp := { x.sp with halloc := (x.r.valloc, x.r.kalloc, x.r.malloc) } } y
              | none => x
            s3.updFrag sid f fun y =>
              { y with pc := handler, rgn := handler, st := .stalled, wait := .gap, gap := 1, evt := 0#64, rel := none, num := false, since := s.now st }
    | _, _ => s

/-- Entry to %evec for a cause (R61, R80); MATRIX_FAULT also writes k56 and clears the faulted marks (R280, R281). -/
def enterTrap (s : State) (sid f : Nat) (cause : BitVec 8) (k56 : Option W64) : State :=
  match nmGet s.strands sid with
  | none => s
  | some st =>
    let w := match nmGet st.frags f, s.job? st with | some fr, some j => j.word fr.pc | _, _ => 0
    enterHandler s sid f st.sp.evec fun x fr =>
      let sp := { x.sp.trapRegs cause fr.pc w with hstate := x.sp.hstate ||| 1#2, hcause := cause, hfrag := some f }
      match k56 with
      | some k => { x with sp := sp, r := { x.r with k := spPut x.r.k 56 k }, faults := [] }
      | none => { x with sp := sp }

/-- Whether a fragment is inside a handler (R80): the one that entered it, with the entry it keeps when it splits; a part that
splits off is another fragment (log 71). -/
def Strand.inHandler (st : Strand) (f : Nat) : Bool := st.sp.hfrag == some f || st.sp.ufrag == some f

/-- A cause with user delivery (R62, R80, R456): with %evec = 0 the job ends; pending marks are waited for; inside a handler
the job ends then; while another fragment holds the save area the fragment is in TRAPWAIT. -/
def raiseUser (s : State) (sid f : Nat) (cause : BitVec 8) (k56 : Option W64) : State :=
  match nmGet s.strands sid with
  | none => s
  | some st =>
    if st.sp.evec = 0#57 then endJobAt s sid f cause []
    else if st.anyTracked || st.abort.isSome then s.updFrag sid f fun fr => { fr with st := .stalled, wait := .trap cause k56 }
    else if st.inHandler f then endJobAt s sid f cause []
    else if st.sp.hstate ≠ 0#2 then s.updFrag sid f fun fr => { fr with st := .trapwait, wait := .none }
    else if areaWaits s st then s.updFrag sid f fun fr => { fr with st := .stalled, wait := .trap cause k56 }
    else enterTrap s sid f cause k56

/-- After marks have cleared, fragments that wait to take a cause take it (R80), unless the region aborts (R322): the fragment
then meets the cause again. -/
def trapsReady (s : State) (sid : Nat) : State :=
  match nmGet s.strands sid with
  | none => s
  | some st =>
    if st.anyTracked || st.abort.isSome then s
    else st.frags.foldl (fun s e => match e.2.wait with
      | .trap c k => if e.2.st == .stalled then raiseUser s sid e.1 c k else s
      | _ => s) s

/-- ERET's and IRET's restore (R79, R83): the area is read after the region end, the registers come back. -/
def leaveHandler (s : State) (sid f : Nat) (pc : VAddr) (set : Spec → Spec) (h : Hdr) : State :=
  match nmGet s.strands sid with
  | none => s
  | some st =>
    match s.job? st with
    | none => s
    | some j =>
      if !j.pcOk pc.toNat then endJobAt s sid f 0x06#8 []
      else
        match endRegion s sid f pc none with
        | (s1, false) => s1
        | (s1, true) =>
          match areaPieces s1 st false, nmGet s1.strands sid with
          | some ps, some st1 =>
            let bs := (pieceKeys ps).map (ownByte s1 st1)
            let s2 := s1.updStrand sid fun x =>
              let x := x.landFixed
              { x with r := restoreArea x.r x.sp.halloc.1 bs, sp := set x.sp }
            moveTo s2 sid f h pc
          | _, _ => endJobAt s1 sid f 0x46#8 []

/-! ## User interrupts -/

/-- The fragment a user interrupt goes to (R81): the one of that identity, or else the lowest-numbered. -/
def Strand.intFrag (st : Strand) (fid : Nat) : Option Nat :=
  match st.frags.find? fun e => e.2.fid == fid with
  | some e => some e.1
  | none => st.frags.head?.map (·.1)

/-- The identity of a fragment. -/
def Strand.fidOf (st : Strand) (f : Nat) : Nat := ((nmGet st.frags f).map (·.fid)).getD 0

/-- Abandons a fragment's wait for a user interrupt (R82): the blocking instruction issues again, or a sleep ends. -/
def abandon (s : State) (sid f : Nat) (fr : Frag) : State :=
  let go := fun (st : Strand) => st.updFrag f fun x => { x with wait := .none, st := .ready, evt := 0#64, since := s.now st, num := false }
  match fr.wait with
  | .qget _ p _ | .swait _ _ _ p | .wqt _ _ _ p => s.updStrand sid fun st => go (st.delPend p)
  | .sleep _ =>
    match nmGet s.strands sid with
    | none => s
    | some _ => unblock s sid f
  | _ => s.updStrand sid go

/-- Whether a user interrupt may be delivered to a fragment now (R82; log 47). -/
def Frag.takesInt (fr : Frag) : Bool :=
  match fr.st with
  | .ready => true
  | .stalled => match fr.wait with | .trap _ _ | .line _ _ => false | _ => true
  | .blocked => match fr.wait with
    | .sleep _ | .xbw _ _ | .qget _ _ _ | .qput _ _ _ _ | .swait _ _ _ _ | .wqt _ _ _ _ | .cmd _ _ => true
    | _ => false
  | _ => false

/-! ## Issue -/

/-- Traps of a fragment without a result: the state after the cause, as an outcome. -/
def trapOut (s : State) (c : Ctx) (cause : BitVec 8) : Out := .next (raiseUser s c.sid c.f cause none)

/-- A supervisor cause at an instruction (R456). -/
def supOut (s : State) (c : Ctx) (cause : BitVec 8) : Out := .next (endJobAt s c.sid c.f cause [])

/-- The uncovered dependences that the checking scoreboard finds (R47). -/
def Strand.short (st : Strand) (win : Nat) (h : Hdr) (rs : List RegRef) : Bool :=
  st.pend.any fun p => p.names rs && (match p.due with | some d => win < d | none => !h.wsb)

/-- A faulted tile that an instruction names (R280). -/
def Strand.faulted (st : Strand) (u : Uses) : Option W64 :=
  ((st.faults.find? fun e => (u.reads ++ u.writes).any fun r => r.c == .a && r.n == e.1)).map (·.2)

/-- The seed and batch coordinates of a strand, mixed (R96). -/
def State.keyBase (s : State) (st : Strand) : W64 :=
  match nmGet s.batches st.batch with
  | none => 0#64
  | some b =>
    let seed := ((nmGet s.launches b.launch).map (·.seed)).getD 0#64
    let x := w64n b.pos.1
    let y := w64n b.pos.2.1
    let z := w64n b.pos.2.2
    mix64 (mix64 (mix64 (seed ^^^ x) ^^^ y) ^^^ z)

/-- The cores once the lane of a fragment has its yield for the next window (R45). -/
def yieldMark (cores : NMap Core) (c : Ctx) : NMap Core :=
  let x := (nmGet cores c.st.core).getD Core.reset
  nmSet cores c.st.core { x with nextYields := nmSet x.nextYields c.st.lane (c.sid, c.f) }

/-- The checks that every issued instruction meets, in the order of R59 and R459, then its body; with YLD = 1 the fragment
yields, whatever becomes of it (R45; of a fragment that splits, the part that keeps its entry: log 68). -/
def issueChecks (h : Hdr) (u : Uses) (s : State) (sid f : Nat) (st : Strand) (fr : Frag) (body : Ctx → State → Out) : Out :=
  let win := s.now st
  let gd := refsOf (.p h.gp) false
  let all := u.reads ++ u.writes ++ gd
  let c : Ctx := { sid := sid, f := f, st := st, fr := fr, win := win, kb := s.keyBase st }
  if h.wsb && st.marked all then
    .next (s.updFrag sid f fun x => { x with st := .stalled, wait := .wsb all })
  else if u.tracked && 16 ≤ st.trackedCount then
    .next (s.updFrag sid f fun x => { x with st := .blocked, wait := .trackedFull, evt := 0#64 })
  else if u.priv && ((s.job? st).map (·.user)).getD true then supOut s c 0x05#8
  else if (u.reads ++ u.writes).any st.r.beyond then trapOut s c 0x07#8
  else if st.sp.sbchk && st.short win h all then trapOut s c 0x04#8
  else
    match st.faulted u with
    | some k => .next (raiseUser s sid f 0x84#8 (some k))
    | none =>
      let (st', ctr) := st.settle s.freeCtr (u.reads ++ gd)
      let c' := { c with st := st' }
      body c' { s with strands := nmSet s.strands sid st', freeCtr := ctr, cores := if h.yld then yieldMark s.cores c' else s.cores }

/-- An instruction of the ISSUED fragment. Only an issued fragment executes (R69). -/
def issue (h : Hdr) (u : Uses) (s : State) (body : Ctx → State → Out) : Out :=
  match s.cur with
  | none => .refused .nothingIssued
  | some (sid, f) =>
    match nmGet s.strands sid with
    | none => .fault .strayIssue
    | some st =>
      match nmGet st.frags f with
      | none => .fault .strayIssue
      | some fr => issueChecks h u { s with cur := none } sid f st fr body

/-- Puts an instruction's results on the strand (R43, R44, R56): at latency 1 they are written at once, after older
fixed-latency writes of the same registers; otherwise they are pending until their window. -/
def Strand.result (st : Strand) (f win lat : Nat) (marks : List RegRef) (ws : List Write) (fl : Flags) (mfl : Bool) : Strand :=
  if lat ≤ 1 then
    let st := st.landIf fun p => !p.tracked && p.names marks
    { st with r := st.r.wrAll ws, sp := st.sp.addFlags fl mfl }
  else
    st.addPend { id := st.nextPend, frag := f, pc := st.fragPc f, mask := st.fragMask f, due := some (win + lat), ok := true, marks := marks, writes := ws, fl := fl, mfl := mfl, op := .none }

/-- Results of a tracked instruction that are computed at issue and land later (R44). -/
def Strand.track (st : Strand) (f : Nat) (ok : Bool) (marks : List RegRef) (ws : List Write) (fl : Flags) (mfl : Bool) (op : Flight) : Strand :=
  st.addPend { id := st.nextPend, frag := f, pc := st.fragPc f, mask := st.fragMask f, due := none, ok := ok, marks := marks, writes := ws, fl := fl, mfl := mfl, op := op }

/-- What a lane instruction computes: its writes and flags, or a user cause that leaves everything unchanged. -/
inductive Res
  | ok (ws : List Write) (fl : Flags) (mfl : Bool)
  | cause (c : BitVec 8)
  deriving DecidableEq, Repr

/-- An instruction whose whole effect is results of a fixed latency: the checks, the results, the next PC. -/
def laneOp (h : Hdr) (lat : Nat) (u : Uses) (s : State) (body : Ctx → Res) : Out :=
  issue h u s fun c s =>
    match body c with
    | .cause e => trapOut s c e
    | .ok ws fl mfl =>
      .next (advance (s.updStrand c.sid fun st => st.result c.f c.win lat u.writes ws fl mfl) c.sid c.f h)

/-- The same for a tracked instruction whose results are known at issue: they land by TRACKED_WRITE_LAND. -/
def laneOpT (h : Hdr) (u : Uses) (s : State) (body : Ctx → Res) : Out :=
  issue h { u with tracked := true } s fun c s =>
    match body c with
    | .cause e => trapOut s c e
    | .ok ws fl mfl =>
      .next (advance (s.updStrand c.sid fun st => st.track c.f true u.writes ws fl mfl .none) c.sid c.f h)

/-- Per-thread values of an instruction for its acting threads, with flags (R117). -/
def mapActs (c : Ctx) (h : Hdr) (g : Nat → Nat × Flags) : List (Nat × Nat) × Flags :=
  let xs := (c.acts h).map fun t => (t, g t)
  (xs.map fun x => (x.1, x.2.1), unionFlags (xs.map fun x => x.2.2))

/-- The result of an instruction that writes one value of a type per thread. -/
def valRes (c : Ctx) (h : Hdr) (d : Opnd) (ty : Ty) (g : Nat → Nat × Flags) : Res :=
  let (vs, fl) := mapActs c h g
  .ok (c.dst h d ty vs) fl false

/-- The same without flags. -/
def valRes0 (c : Ctx) (h : Hdr) (d : Opnd) (ty : Ty) (g : Nat → Nat) : Res :=
  .ok (c.dst h d ty ((c.acts h).map fun t => (t, g t))) flNone false

end Sys2Proof.Machine
end

