-- ==== Sys2Proof/Machine/Integer.lean ====
section
/-!
DEFINITION. The integer instructions (R120 to R126).
-/
namespace Sys2Proof.Machine

/-- An integer result of a type, wrapped or saturated (R88, R121). -/
def intFit (ty : Ty) (sat : Bool) (x : Int) : Nat :=
  intWrite ty (if sat then clampInt (Ty.minInt ty) (Ty.maxInt ty) x else intRead ty (toWrap 64 x))

/-- A two-source integer instruction with a wide form: the results of `g` on the operands read in the type. -/
def intBin (h : Hdr) (ty : Ty) (lat : Nat) (d : Opnd) (src : Srcs) (s : State) (g : Int → Int → Nat) : Out :=
  let w := ty.width = 64
  laneOp h lat (uses (refsOf d w) (srcRefs src d w)) s fun c =>
    valRes0 c h d ty fun t =>
      let x := c.st.r.srcs ty t d src
      g (intRead ty x.1) (intRead ty x.2)

/-- The carry and borrow forms of R121: the carry predicate is read and written. -/
def intCarry (h : Hdr) (ty : Ty) (q : BitVec 3) (d : Opnd) (src : Srcs) (s : State) (sub : Bool) : Out :=
  let w := ty.width = 64
  let qr := refsOf (.p q) false
  laneOp h 1 (uses (refsOf d w ++ qr) (srcRefs src d w ++ qr)) s fun c =>
    let vals := (c.acts h).map fun t =>
      let x := c.st.r.srcs ty t d src
      let a := intRead ty x.1
      let b := intRead ty x.2
      let ci : Int := (c.st.r.bitP q.toNat t).toNat
      let y := if sub then a - b - ci else a + b + ci
      let co := if sub then decide (y < 0) else decide ((2 ^ ty.width : Int) ≤ y)
      (t, toWrap ty.width y, co.toNat)
    .ok (c.dst h d ty (vals.map fun v => (v.1, v.2.1)) ++ c.dst h (.p q) .b32 (vals.map fun v => (v.1, v.2.2))) flNone false

def execIadd (h : Hdr) (ty : Ty) (md : AddMode) (d : Opnd) (src : Srcs) (s : State) : Out :=
  match md with
  | .carry q => intCarry h ty q d src s false
  | .wrap => intBin h ty 1 d src s fun a b => intFit ty false (a + b)
  | .sat => intBin h ty 1 d src s fun a b => intFit ty true (a + b)

def execIsub (h : Hdr) (ty : Ty) (md : AddMode) (d : Opnd) (src : Srcs) (s : State) : Out :=
  match md with
  | .carry q => intCarry h ty q d src s true
  | .wrap => intBin h ty 1 d src s fun a b => intFit ty false (a - b)
  | .sat => intBin h ty 1 d src s fun a b => intFit ty true (a - b)

/-- Latency of IMUL, IMULH and IMAD (R56). -/
def mulLat (ty : Ty) : Nat := if ty.width = 64 then 7 else 2

def execImul (h : Hdr) (ty : Ty) (sat : Bool) (d : Opnd) (src : Srcs) (s : State) : Out :=
  intBin h ty (mulLat ty) d src s fun a b => intFit ty sat (a * b)

/-- The high half of the exact product (R121). -/
def execImulh (h : Hdr) (ty : Ty) (d a b : Opnd) (s : State) : Out :=
  intBin h ty (mulLat ty) d (.two a b) s fun x y => intFit ty false (x * y / (2 ^ ty.width : Int))

/-- A three-source integer instruction whose B is a pair. -/
def intTri (h : Hdr) (ty : Ty) (lat : Nat) (d a b : Opnd) (s : State) (g : Nat → Nat → Nat → Nat) : Out :=
  let w := ty.width = 64
  laneOp h lat (uses (refsOf d w) (refsOf a w ++ refsOf b w)) s fun c =>
    valRes0 c h d ty fun t => g (c.st.r.src ty t a) (c.st.r.srcB ty t b) (c.st.r.srcC ty t b)

def execImad (h : Hdr) (ty : Ty) (sat : Bool) (d a b : Opnd) (s : State) : Out :=
  intTri h ty (mulLat ty) d a b s fun x y z => intFit ty sat (intRead ty x * intRead ty y + intRead ty z)

def execImin (h : Hdr) (ty : Ty) (d : Opnd) (src : Srcs) (s : State) : Out :=
  intBin h ty 1 d src s fun a b => intWrite ty (if b < a then b else a)

def execImax (h : Hdr) (ty : Ty) (d : Opnd) (src : Srcs) (s : State) : Out :=
  intBin h ty 1 d src s fun a b => intWrite ty (if a < b then b else a)

/-- A one-source instruction on the operand's bits. -/
def bitsUn (h : Hdr) (ty : Ty) (lat : Nat) (d a : Opnd) (s : State) (g : Nat → Nat) : Out :=
  let w := ty.width = 64
  laneOp h lat (uses (refsOf d w) (refsOf a w)) s fun c => valRes0 c h d ty fun t => g (c.st.r.src ty t a)

def execIabs (h : Hdr) (ty : Ty) (sat : Bool) (d a : Opnd) (s : State) : Out :=
  bitsUn h ty 1 d a s fun x => intFit ty sat (if intRead ty x < 0 then -intRead ty x else intRead ty x)

def execIneg (h : Hdr) (ty : Ty) (sat : Bool) (d a : Opnd) (s : State) : Out :=
  bitsUn h ty 1 d a s fun x => intFit ty sat (-intRead ty x)

/-- A two-source bitwise instruction with a wide form (R122). -/
def bitsBin (h : Hdr) (ty : Ty) (d : Opnd) (src : Srcs) (s : State) (g : Nat → Nat → Nat) : Out :=
  let w := ty.width = 64
  laneOp h 1 (uses (refsOf d w) (srcRefs src d w)) s fun c =>
    valRes0 c h d ty fun t => let x := c.st.r.srcs ty t d src; g x.1 x.2

def execAnd (h : Hdr) (ty : Ty) (d : Opnd) (src : Srcs) (s : State) : Out := bitsBin h ty d src s fun a b => a &&& b
def execOr (h : Hdr) (ty : Ty) (d : Opnd) (src : Srcs) (s : State) : Out := bitsBin h ty d src s fun a b => a ||| b
def execXor (h : Hdr) (ty : Ty) (d : Opnd) (src : Srcs) (s : State) : Out := bitsBin h ty d src s fun a b => a ^^^ b
def execAndn (h : Hdr) (ty : Ty) (d : Opnd) (src : Srcs) (s : State) : Out :=
  bitsBin h ty d src s fun a b => a &&& (2 ^ ty.width - 1 - b % 2 ^ ty.width)
def execNot (h : Hdr) (ty : Ty) (d a : Opnd) (s : State) : Out :=
  bitsUn h ty 1 d a s fun x => 2 ^ ty.width - 1 - x % 2 ^ ty.width

/-- A shift: the value in the type, the count a 32-bit operand (R123). -/
def shiftOp (h : Hdr) (ty : Ty) (d a b : Opnd) (s : State) (g : Nat → Nat → Nat) : Out :=
  let w := ty.width = 64
  laneOp h 1 (uses (refsOf d w) (refsOf a w ++ refsOf b false)) s fun c =>
    valRes0 c h d ty fun t => g (c.st.r.src ty t a) (c.st.r.src .n32 t b)

def execShl (h : Hdr) (ty : Ty) (d a b : Opnd) (s : State) : Out :=
  shiftOp h ty d a b s fun x n => if n < ty.width then x * 2 ^ n % 2 ^ ty.width else 0

def execShr (h : Hdr) (ty : Ty) (d a b : Opnd) (s : State) : Out :=
  shiftOp h ty d a b s fun x n => if n < ty.width then x / 2 ^ n else 0

def execSar (h : Hdr) (ty : Ty) (d a b : Opnd) (s : State) : Out :=
  shiftOp h ty d a b s fun x n =>
    let y := intRead ty x
    intWrite ty (if n < ty.width then y / (2 ^ n : Int) else if 0 ≤ y then 0 else -1)

def execRol (h : Hdr) (ty : Ty) (d a b : Opnd) (s : State) : Out :=
  shiftOp h ty d a b s fun x n =>
    let m := n % ty.width
    (x * 2 ^ m + x / 2 ^ (ty.width - m)) % 2 ^ ty.width

/-- The ones among the low w bits. -/
def popCount (w x : Nat) : Nat := ((List.range w).filter fun i => bitAt x i).length

/-- A count instruction: its destination is a 32-bit register for both types (R120). -/
def countOp (h : Hdr) (ty : Ty) (d a : Opnd) (s : State) (g : Nat → Nat) : Out :=
  laneOp h 2 (uses (refsOf d false) (refsOf a (ty.width = 64))) s fun c =>
    valRes0 c h d .b32 fun t => g (c.st.r.src ty t a)

def execPopc (h : Hdr) (ty : Ty) (d a : Opnd) (s : State) : Out := countOp h ty d a s (popCount ty.width)

def execClz (h : Hdr) (ty : Ty) (d a : Opnd) (s : State) : Out := countOp h ty d a s fun x => ty.width - bitLen x

def execCtz (h : Hdr) (ty : Ty) (d a : Opnd) (s : State) : Out :=
  countOp h ty d a s fun x => ((List.range ty.width).find? fun i => bitAt x i).getD ty.width

def execBrev (h : Hdr) (ty : Ty) (d a : Opnd) (s : State) : Out :=
  bitsUn h ty 1 d a s fun x =>
    (List.range ty.width).foldl (fun y i => if bitAt x i then y + 2 ^ (ty.width - 1 - i) else y) 0

/-- BFX's field (R124). -/
def bfx (ty : Ty) (a ctl : Nat) : Nat :=
  let pos := ctl % 256
  let len := ctl / 256 % 256
  if len = 0 ∨ ty.width ≤ pos then 0
  else
    let n := min len (ty.width - pos)
    let f := a / 2 ^ pos % 2 ^ n
    intWrite ty (if ty.signed then sgn n f else f)

/-- BFI's result (R124). -/
def bfi (ty : Ty) (a b ctl : Nat) : Nat :=
  let pos := ctl % 256
  let len := ctl / 256 % 256
  if len = 0 ∨ ty.width ≤ pos then b
  else
    let n := min len (ty.width - pos)
    b - b / 2 ^ pos % 2 ^ n * 2 ^ pos + a % 2 ^ n * 2 ^ pos

def execBfx (h : Hdr) (ty : Ty) (d a b : Opnd) (s : State) : Out := shiftOp h ty d a b s fun x n => bfx ty x n
def execBfi (h : Hdr) (ty : Ty) (d a b : Opnd) (s : State) : Out := intTri h ty 1 d a b s fun x y z => bfi ty x y z

def execLea (h : Hdr) (ty : Ty) (sh : BitVec 3) (d a b : Opnd) (s : State) : Out :=
  let w := ty.width = 64
  laneOp h 1 (uses (refsOf d w) (refsOf a w ++ refsOf b w)) s fun c =>
    valRes0 c h d ty fun t => (c.st.r.src ty t a + c.st.r.src ty t b * 2 ^ sh.toNat) % 2 ^ ty.width

def execMov (h : Hdr) (ty : Ty) (d a : Opnd) (s : State) : Out :=
  let w := ty.width = 64
  laneOp h 1 (uses (refsOf d w) (refsOf a w)) s fun c => valRes0 c h d ty fun t => c.st.r.src ty t a

/-- MOVI (R125): the immediate or the literal in the destination's type. -/
def execMovi (h : Hdr) (ty : Ty) (d : Opnd) (src : Srcs) (s : State) : Out :=
  laneOp h 1 (uses (refsOf d (ty.width = 64)) []) s fun c =>
    valRes0 c h d ty fun t =>
      match src with
      | .two a _ => c.st.r.src ty t a
      | .wide l => litVal ty l

def execSel (h : Hdr) (ty : Ty) (q : BitVec 3) (neg : Bool) (d a b : Opnd) (s : State) : Out :=
  let w := ty.width = 64
  laneOp h 1 (uses (refsOf d w) (refsOf a w ++ refsOf b w ++ refsOf (.p q) false)) s fun c =>
    valRes0 c h d ty fun t => if c.st.r.bitP q.toNat t != neg then c.st.r.src ty t a else c.st.r.src ty t b

/-- The conditions of R126. -/
def icmp (cnd : ICond) (a b : Int) : Bool :=
  match cnd with
  | .eq => a == b
  | .ne => a != b
  | .lt => a < b
  | .le => a ≤ b
  | .gt => b < a
  | .ge => b ≤ a

def execIcmp (h : Hdr) (ty : Ty) (cnd : ICond) (d a b : Opnd) (s : State) : Out :=
  let w := ty.width = 64
  laneOp h 1 (uses (refsOf d false) (refsOf a w ++ refsOf b w)) s fun c =>
    valRes0 c h d .b32 fun t => (icmp cnd (intRead ty (c.st.r.src ty t a)) (intRead ty (c.st.r.src ty t b))).toNat

end Sys2Proof.Machine
end

