-- ==== Sys2Proof/Machine/Float.lean ====
section
/-!
DEFINITION. The floating-point instructions (R127 to R134).
-/
namespace Sys2Proof.Machine

/-- One half of a packed 16-bit operand (R129). -/
def half (hi : Bool) (x : Nat) : Nat := if hi then x / 65536 % 65536 else x % 65536

/-- Applies a floating operation to operands of a type: a 16-bit type uses the low half, and .x2 both (R129). The index
of the result is j of R96. -/
def flApply (ty : Ty) (x2 : Bool) (g : Nat → Nat → Nat → Nat → Rounded) (a b c : Nat) : Nat × Flags :=
  if ty.isHalf then
    let lo := g 0 (half false a) (half false b) (half false c)
    if x2 then
      let hi := g 1 (half true a) (half true b) (half true c)
      (lo.bits + hi.bits * 65536, lo.fl ||| hi.fl)
    else (lo.bits, lo.fl)
  else if ty == .g8 then let r := g 0 (a % 256) (b % 256) (c % 256); (r.bits, r.fl)
  else let r := g 0 a b c; (r.bits, r.fl)

/-- A constant source used in both halves of an .x2 form (R129). -/
def dupHalf (ty : Ty) (x2 : Bool) (o : Opnd) (x : Nat) : Nat :=
  match o with
  | .g _ => if x2 && ty.isHalf then x % 65536 * 65537 else x
  | _ => x

/-- A floating instruction of two sources with a wide form. -/
def flBin (h : Hdr) (ty : Ty) (x2 : Bool) (lat : Nat) (d : Opnd) (src : Srcs) (s : State)
    (g : W64 → Nat → Nat → Rounded) : Out :=
  let w := ty.width = 64
  laneOp h lat (uses (refsOf d w) (srcRefs src d w)) s fun c =>
    valRes c h d ty fun t =>
      let x := c.st.r.srcs ty t d src
      let a := match src with | .two a _ => dupHalf ty x2 a x.1 | .wide _ => x.1
      let b := match src with | .two _ b => dupHalf ty x2 b x.2 | .wide _ => dupHalf ty x2 (.g 0#16) x.2
      flApply ty x2 (fun j p q _ => g (c.key t j) p q) a b 0

/-- Latency of FADD, FSUB, FMUL and FFMA (R56). -/
def addLat (ty : Ty) : Nat := if ty == .f64 then 5 else 3

def execFadd (h : Hdr) (ty : Ty) (rnd : Rnd) (sat x2 : Bool) (d : Opnd) (src : Srcs) (s : State) : Out :=
  flBin h ty x2 (addLat ty) d src s fun k a b => fAdd (fmtOf ty) rnd sat k false a b

def execFsub (h : Hdr) (ty : Ty) (rnd : Rnd) (sat x2 : Bool) (d : Opnd) (src : Srcs) (s : State) : Out :=
  flBin h ty x2 (addLat ty) d src s fun k a b => fAdd (fmtOf ty) rnd sat k true a b

def execFmul (h : Hdr) (ty : Ty) (rnd : Rnd) (sat x2 : Bool) (d : Opnd) (src : Srcs) (s : State) : Out :=
  flBin h ty x2 (addLat ty) d src s fun k a b => fMul (fmtOf ty) rnd sat k a b

def execFfma (h : Hdr) (ty : Ty) (rnd : Rnd) (sat x2 : Bool) (d a b : Opnd) (s : State) : Out :=
  let w := ty.width = 64
  laneOp h (addLat ty) (uses (refsOf d w) (refsOf a w ++ refsOf b w)) s fun c =>
    valRes c h d ty fun t =>
      flApply ty x2 (fun j x y z => fFma (fmtOf ty) rnd sat (c.key t j) x y z) (c.st.r.src ty t a) (c.st.r.srcB ty t b)
        (c.st.r.srcC ty t b)

def execFmin (h : Hdr) (ty : Ty) (x2 : Bool) (d : Opnd) (src : Srcs) (s : State) : Out :=
  flBin h ty x2 1 d src s fun _ a b => fMinMax (fmtOf ty) false a b

def execFmax (h : Hdr) (ty : Ty) (x2 : Bool) (d : Opnd) (src : Srcs) (s : State) : Out :=
  flBin h ty x2 1 d src s fun _ a b => fMinMax (fmtOf ty) true a b

/-- A floating instruction of one source. -/
def flUn (h : Hdr) (ty : Ty) (x2 : Bool) (lat : Nat) (d a : Opnd) (s : State) (g : W64 → Nat → Rounded) : Out :=
  let w := ty.width = 64
  laneOp h lat (uses (refsOf d w) (refsOf a w)) s fun c =>
    valRes c h d ty fun t => flApply ty x2 (fun j x _ _ => g (c.key t j) x) (c.st.r.src ty t a) 0 0

/-- The sign bit's weight. -/
def signW (ty : Ty) : Nat := 2 ^ (ty.width - 1)

def execFabs (h : Hdr) (ty : Ty) (x2 : Bool) (d a : Opnd) (s : State) : Out :=
  flUn h ty x2 1 d a s fun _ x => { bits := x % signW ty, fl := flNone }

def execFneg (h : Hdr) (ty : Ty) (x2 : Bool) (d a : Opnd) (s : State) : Out :=
  flUn h ty x2 1 d a s fun _ x => { bits := if signW ty ≤ x then x - signW ty else x + signW ty, fl := flNone }

def execFcmp (h : Hdr) (ty : Ty) (cnd : FCond) (d a b : Opnd) (s : State) : Out :=
  let w := ty.width = 64
  laneOp h 1 (uses (refsOf d false) (refsOf a w ++ refsOf b w)) s fun c =>
    valRes c h d .b32 fun t =>
      let r := fCmp (fmtOf ty) cnd (c.st.r.src ty t a % 2 ^ ty.width) (c.st.r.src ty t b % 2 ^ ty.width)
      (r.1.toNat, r.2)

def execFcls (h : Hdr) (ty : Ty) (d a b : Opnd) (s : State) : Out :=
  laneOp h 1 (uses (refsOf d false) (refsOf a (ty.width = 64) ++ refsOf b false)) s fun c =>
    valRes0 c h d .b32 fun t =>
      (bitAt (c.st.r.src .n32 t b) (fClass (fmtOf ty) (c.st.r.src ty t a % 2 ^ ty.width))).toNat

def execFscl (h : Hdr) (ty : Ty) (rnd : Rnd) (sat : Bool) (d a b : Opnd) (s : State) : Out :=
  let w := ty.width = 64
  laneOp h 3 (uses (refsOf d w) (refsOf a w ++ refsOf b false)) s fun c =>
    valRes c h d ty fun t =>
      let n := clampInt (-4096) 4096 (sgn 32 (c.st.r.src .i32 t b))
      flApply ty false (fun j x _ _ => fScl (fmtOf ty) rnd sat (c.key t j) x n) (c.st.r.src ty t a) 0 0

def execFrnd (h : Hdr) (ty : Ty) (rnd : Rnd) (d a : Opnd) (s : State) : Out :=
  flUn h ty false 3 d a s fun k x => fRnd (fmtOf ty) rnd k x

def execFrcp (h : Hdr) (ty : Ty) (d a : Opnd) (s : State) : Out := flUn h ty false 6 d a s fun _ x => fRcp (fmtOf ty) x
def execFrsq (h : Hdr) (ty : Ty) (d a : Opnd) (s : State) : Out := flUn h ty false 6 d a s fun _ x => fRsq (fmtOf ty) x

/-- A tracked floating instruction of one source. -/
def flUnT (h : Hdr) (ty : Ty) (d a : Opnd) (s : State) (g : W64 → Nat → Rounded) : Out :=
  let w := ty.width = 64
  laneOpT h (usesT (refsOf d w) (refsOf a w)) s fun c =>
    valRes c h d ty fun t => flApply ty false (fun j x _ _ => g (c.key t j) x) (c.st.r.src ty t a) 0 0

def execFsqrt (h : Hdr) (ty : Ty) (rnd : Rnd) (d a : Opnd) (s : State) : Out :=
  flUnT h ty d a s fun k x => fSqrt (fmtOf ty) rnd k x

def execFdiv (h : Hdr) (ty : Ty) (rnd : Rnd) (sat : Bool) (d a b : Opnd) (s : State) : Out :=
  let w := ty.width = 64
  laneOpT h (usesT (refsOf d w) (refsOf a w ++ refsOf b w)) s fun c =>
    valRes c h d ty fun t =>
      flApply ty false (fun j x y _ => fDiv (fmtOf ty) rnd sat (c.key t j) x y) (c.st.r.src ty t a) (c.st.r.src ty t b) 0

/-! ## The function instructions (R133) -/

/-- The exact one. -/
def oneBits (f : Fmt) (neg : Bool) : Nat := neg.toNat * 2 ^ (f.eb + f.p) + f.bias * 2 ^ f.p

/-- FEX2 (R133): exact at integers, within 1 ulp elsewhere; overflow, and underflow to zero, are those of the exact value
under RNE (R95). -/
def fEx2 (ty : Ty) (a : Nat) : Rounded :=
  let f := fmtOf ty
  match f.dec a with
  | .nan s => { bits := f.qnan, fl := flIf s flNv }
  | .inf s => { bits := if s then f.zeroBits false else f.infBits false, fl := flNone }
  | .fin s m e =>
    let big := !(({ neg := s, M := m, E := e, sticky := false } : Mag).M * 2 ^ e.toNat < 2 ^ 20) && 0 ≤ e
    let whole := if big then true else if 0 ≤ e then true else m % 2 ^ (-e).toNat == 0
    let v : Int := if big then 2 ^ 20 else if 0 ≤ e then (m : Int) * 2 ^ e.toNat else (m : Int) / 2 ^ (-e).toNat
    if whole then roundMag f .rne false 0 { neg := false, M := 1, E := if s then -v else v, sticky := false }
    else
      let x := apxEx2 s m e
      let r := roundMag f .rne false 0 (apxMag x)
      if r.bits = 0 then r else boundRound f 1 (0, 0) x (Config.fex2 ty a)

/-- FLG2 (R133): exact at powers of two, within 1 ulp elsewhere. -/
def fLg2 (ty : Ty) (a : Nat) : Rounded :=
  let f := fmtOf ty
  match f.dec a with
  | .nan s => { bits := f.qnan, fl := flIf s flNv }
  | .inf s => if s then { bits := f.qnan, fl := flNv } else { bits := f.infBits false, fl := flNone }
  | .fin s m e =>
    if m = 0 then { bits := f.infBits true, fl := flDz }
    else if s then { bits := f.qnan, fl := flNv }
    else if m = 2 ^ m.log2 then
      let k : Int := (m.log2 : Int) + e
      if k = 0 then { bits := f.zeroBits false, fl := flNone }
      else roundMag f .rne false 0 { neg := k < 0, M := k.natAbs, E := 0, sticky := false }
    else boundRound f 1 (0, 0) (apxLg2 m e) (Config.flg2 ty a)

/-- FTRG (R133): within 2 ulp. -/
def fTrg (ty : Ty) (cos : Bool) (a : Nat) : Rounded :=
  let f := fmtOf ty
  match f.dec a with
  | .nan s => { bits := f.qnan, fl := flIf s flNv }
  | .inf _ => { bits := f.qnan, fl := flNv }
  | .fin s m e =>
    if m = 0 then (if cos then { bits := oneBits f false, fl := flNone } else { bits := f.zeroBits s, fl := flNone })
    else boundRound f 2 (0, 0) (apxTrg cos s m e) (if cos then Config.fcos ty a else Config.fsin ty a)

/-- FTNH and FERF (R133): odd functions with limits ±1, within 2 ulp. -/
def fOdd (g : Nat → Int → Int) (free : Ty → Nat → Nat) (ty : Ty) (a : Nat) : Rounded :=
  let f := fmtOf ty
  match f.dec a with
  | .nan s => { bits := f.qnan, fl := flIf s flNv }
  | .inf s => { bits := oneBits f s, fl := flNone }
  | .fin s m e =>
    if m = 0 then { bits := f.zeroBits s, fl := flNone } else boundRound f 2 (0, 0) (apxOdd g s m e) (free ty a)

def fTnh (ty : Ty) (a : Nat) : Rounded := fOdd fxTanh Config.ftnh ty a
def fErf (ty : Ty) (a : Nat) : Rounded := fOdd fxErf Config.ferf ty a

/-- FPHI (R133): within 2 ulp; Φ(±0) is one half, of which the result may differ too. -/
def fPhi (ty : Ty) (a : Nat) : Rounded :=
  let f := fmtOf ty
  match f.dec a with
  | .nan s => { bits := f.qnan, fl := flIf s flNv }
  | .inf s => if s then { bits := f.zeroBits false, fl := flNone } else { bits := oneBits f false, fl := flNone }
  | .fin s m e =>
    let x := Config.fphi ty a % 2 ^ f.width
    let half := (f.bias - 1) * 2 ^ f.p
    if m ≠ 0 then boundRound f 2 (0, 0) (apxPhi s m e) x
    else if within f 2 (0, 0) (1, -1) x then { bits := x, fl := flIf (x != half) flNx }
    else { bits := half, fl := flNone }

def execFex2 (h : Hdr) (ty : Ty) (d a : Opnd) (s : State) : Out := flUn h ty false 6 d a s fun _ x => fEx2 ty x
def execFlg2 (h : Hdr) (ty : Ty) (d a : Opnd) (s : State) : Out := flUn h ty false 6 d a s fun _ x => fLg2 ty x
def execFtrg (h : Hdr) (ty : Ty) (cos : Bool) (d a : Opnd) (s : State) : Out := flUnT h ty d a s fun _ x => fTrg ty cos x
def execFtnh (h : Hdr) (ty : Ty) (d a : Opnd) (s : State) : Out := flUnT h ty d a s fun _ x => fTnh ty x
def execFerf (h : Hdr) (ty : Ty) (d a : Opnd) (s : State) : Out := flUnT h ty d a s fun _ x => fErf ty x
def execFphi (h : Hdr) (ty : Ty) (d a : Opnd) (s : State) : Out := flUnT h ty d a s fun _ x => fPhi ty x

/-- Element i of a register of packed elements (R134). -/
def packed (ty : Ty) (x i : Nat) : Nat := x / 2 ^ (ty.width * i) % 2 ^ ty.width

/-- FDOT (R134): the fixed tree of the products, one W64 accumulation, one final rounding, on which nx and uf are judged
(log 18). -/
def fDot (ty : Ty) (rnd : Rnd) (sat : Bool) (key : W64) (a b c : Nat) : Rounded :=
  let f := fmtOf ty
  let n := if ty == .g8 then 4 else 2
  let ps := (List.range n).map fun i => (f.dec (packed ty a i)).mul (f.dec (packed ty b i))
  let (root, f1) := treeSum (ps.map (·.1))
  let z := fmtF32.dec c
  let (acc, f2) := z.ext.add false (fmtW64.dec root).ext
  let (w, f3) := w64Of acc
  let r := roundExt fmtF32 rnd sat key (fmtW64.dec w).ext
  { bits := r.bits, fl := r.fl ||| f1 ||| f2 ||| f3 ||| unionFlags (ps.map (·.2)) ||| flIf z.isSig flNv }

def execFdot (h : Hdr) (ty : Ty) (rnd : Rnd) (sat : Bool) (d a b : Opnd) (s : State) : Out :=
  laneOp h 4 (uses (refsOf d false) (refsOf a false ++ refsOf b false)) s fun c =>
    valRes c h d .f32 fun t =>
      let r := fDot ty rnd sat (c.key t 0) (c.st.r.src .b32 t a) (c.st.r.srcB .b32 t b) (c.st.r.srcC .b32 t b)
      (r.bits, r.fl)

end Sys2Proof.Machine
end

