-- ==== Sys2Proof/Machine/Convert.lean ====
section
/-!
DEFINITION. The conversion and format instructions (R135 to R140).
-/
namespace Sys2Proof.Machine

/-- The exact value of a source of any conversion type, with the invalid flag of a signalling NaN (R99, R100). -/
def cvtSrc (ty : Ty) (x : Nat) : Ext × Flags :=
  if ty.isFloat then
    let n := (fmtOf ty).dec (x % 2 ^ ty.width)
    (n.ext, flIf n.isSig flNv)
  else
    let i := intRead ty x
    (.fin (XR.dy (decide (i < 0)) i.natAbs 0), flNone)

/-- A conversion to a type (R99, R100, R135); from integer to integer it sets no flag, whatever the value (R98, log 69). -/
def cvtTo (dt st : Ty) (rnd : Rnd) (sat : Bool) (key : W64) (x : Ext) : Nat × Flags :=
  if dt.isFloat then
    let f := fmtOf dt
    let r := roundExt f rnd sat key x
    (r.bits, r.fl)
  else if st.isFloat then
    let (i, fl) := fToInt dt rnd key x
    (intWrite dt i, fl)
  else
    match x with
    | .fin r => (intFit dt sat r.m, flNone)
    | _ => (0, flNone)

/-- CVT of one value (R135). -/
def cvt (dt st : Ty) (rnd : Rnd) (sat : Bool) (key : W64) (x : Nat) : Nat × Flags :=
  let (e, f1) := cvtSrc st x
  let (y, f2) := cvtTo dt st rnd sat key e
  (y, f1 ||| f2)

/-- CVTS of one value by a binary32 scale (R136): the exact product is converted once; an integer 0 counts as +0 (log 18). -/
def cvts (dt st : Ty) (rnd : Rnd) (sat : Bool) (key : W64) (x sc : Nat) : Nat × Flags :=
  let n : Num := if st.isFloat then (fmtOf st).dec (x % 2 ^ st.width)
    else .fin (decide (intRead st x < 0)) (intRead st x).natAbs 0
  let (e, f1) := n.mul (fmtF32.dec sc)
  let (y, f2) := cvtTo dt .f32 rnd sat key e
  (y, f1 ||| f2)

def execCvt (h : Hdr) (rnd : Rnd) (dt st : Ty) (sat : Bool) (d a : Opnd) (s : State) : Out :=
  laneOp h 3 (uses (refsOf d (dt.width = 64)) (refsOf a (st.width = 64))) s fun c =>
    valRes c h d dt fun t => cvt dt st rnd sat (c.key t 0) (c.st.r.src st t a)

def execCvts (h : Hdr) (rnd : Rnd) (dt st : Ty) (sat : Bool) (d a b : Opnd) (s : State) : Out :=
  laneOp h 4 (uses (refsOf d (dt.width = 64)) (refsOf a (st.width = 64) ++ refsOf b false)) s fun c =>
    valRes c h d dt fun t => cvts dt st rnd sat (c.key t 0) (c.st.r.src st t a) (c.st.r.src .f32 t b)

/-- PACK of the parts of two registers (R137). -/
def packVal (dt st : Ty) (sat : Bool) (a b : Nat) : Nat × Flags :=
  let parts := if st.width = 32 then [a, b] else [packed st a 0, packed st a 1, packed st b 0, packed st b 1]
  let rs := parts.map fun x => cvt dt st .rne sat 0#64 x
  (rs.zipIdx.foldl (fun acc (r, i) => acc + r.1 % 2 ^ dt.width * 2 ^ (dt.width * i)) 0, unionFlags (rs.map (·.2)))

/-- PACK (R137). The packed word is a .b32 value, so a uniform destination takes it with bits 63 to 32 zero, under a signed type too
(R51, log 71). -/
def execPack (h : Hdr) (dt st : Ty) (sat : Bool) (d a b : Opnd) (s : State) : Out :=
  laneOp h 2 (uses (refsOf d false) (refsOf a false ++ refsOf b false)) s fun c =>
    valRes c h d .b32 fun t => packVal dt st sat (c.st.r.src .b32 t a) (c.st.r.src .b32 t b)

/-- UNPK (R138): the part's conversion is exact but for an integer part clamped or wrapped into its destination. -/
def execUnpk (h : Hdr) (dt st : Ty) (sat : Bool) (d a b : Opnd) (s : State) : Out :=
  laneOp h 2 (uses (refsOf d false) (refsOf a false)) s fun c =>
    valRes c h d dt fun t => cvt dt st .rne sat 0#64 (packed st (c.st.r.src .b32 t a) (c.st.r.src .n32 t b))

/-- The 64 values that QENC and STB encode: an inactive thread's are +0 (R139, R233). -/
def qVals (c : Ctx) (st : Ty) (on : List Nat) (b0 c0 : Opnd) : List Num :=
  (List.range 64).map fun j =>
    let t := j % 32
    if on.contains t then (fmtOf st).dec (c.st.r.src .b32 t (if j < 32 then b0 else c0) % 2 ^ st.width) else .fin false 0 0

/-- Four bytes of a record from byte 4t on; bytes beyond it are 0 (R139). -/
def recWord (rec : List Byte) (t : Nat) : Nat := leVal ((rec.drop (4 * t)).take 4)

def pairFst (o : Opnd) : Opnd := match o with | .pair b _ => .v b | o => o
def pairSnd (o : Opnd) : Opnd := match o with | .pair _ c => .v c | o => o

def execQenc (h : Hdr) (qf : QFmt) (st : Ty) (d a b : Opnd) (s : State) : Out :=
  laneOp h 6 (uses (refsOf d false) (refsOf a false ++ refsOf b false)) s fun c =>
    let on := c.acts h
    let (rec, fl) := qEncode qf (c.st.r.src .f32 0 a) (qVals c st on (pairFst b) (pairSnd b))
    .ok (c.dst h d .b32 (on.map fun t => (t, recWord rec t))) (if on.isEmpty then flNone else fl) false

/-- The record that QDEC reads across the fragment (R140). -/
def gatherRec (c : Ctx) (on : List Nat) (a : Opnd) (len : Nat) : List Byte :=
  (List.range len).map fun q =>
    let t := q / 4
    if on.contains t then BitVec.ofNat 8 (c.st.r.src .b32 t a / 256 ^ (q % 4)) else 0#8

/-- round(element, type, RNE) of a decoded record element (R108, R140). -/
def qRound (ty : Ty) (sat : Bool) (n : Num) : Nat × Flags :=
  let r := roundExt (fmtOf ty) .rne sat 0#64 n.ext
  (r.bits, r.fl ||| flIf n.isSig flNv)

def execQdec (h : Hdr) (ty : Ty) (hi : Bool) (qf : QFmt) (sat : Bool) (d a b : Opnd) (s : State) : Out :=
  laneOp h 6 (uses (refsOf d false) (refsOf a false ++ refsOf b false)) s fun c =>
    let on := c.acts h
    let rec_ := gatherRec c on a (qLen qf)
    valRes c h d ty fun t => qRound ty sat (qElem qf (c.st.r.src .f32 0 b) rec_ (t + if hi then 32 else 0))

end Sys2Proof.Machine
end

