-- ==== Sys2Proof/Machine/CrossLane.lean ====
section
/-!
DEFINITION. The predicate and cross-lane instructions (R141 to R154) and the lane-masked rendezvous (R146).
-/
namespace Sys2Proof.Machine

/-! ## Predicate logic and votes -/

def execPlop (h : Hdr) (tab : BitVec 4) (d a b : Opnd) (s : State) : Out :=
  laneOp h 1 (uses (refsOf d false) (refsOf a false ++ refsOf b false)) s fun c =>
    valRes0 c h d .b32 fun t =>
      let bit := fun o => match o with | Opnd.p n => (c.st.r.bitP n.toNat t).toNat | _ => 0
      (tab.getLsbD (2 * bit a + bit b)).toNat

/-- p0 to p6. -/
def preds : List Opnd := [.p 0#3, .p 1#3, .p 2#3, .p 3#3, .p 4#3, .p 5#3, .p 6#3]

/-- The packed predicates of thread t (R142). -/
def packPreds (r : Regs) (t : Nat) : Nat :=
  (List.range 7).foldl (fun x n => if r.bitP n t then x + 2 ^ n else x) 128

/-- PMOV (R142); .unpack counts p0 to p6 as written whatever B holds (log 67). -/
def execPmov (h : Hdr) (fm : PForm) (d a b : Opnd) (s : State) : Out :=
  match fm with
  | .test =>
    laneOp h 1 (uses (refsOf d false) (refsOf a false)) s fun c =>
      valRes0 c h d .b32 fun t => if c.st.r.src .b32 t a = 0 then 0 else 1
  | .pack =>
    laneOp h 1 (uses (refsOf d false) (preds.flatMap fun o => refsOf o false)) s fun c =>
      valRes0 c h d .b32 fun t => packPreds c.st.r t
  | .unpack =>
    laneOp h 1 (uses (preds.flatMap fun o => refsOf o false) (refsOf a false ++ refsOf b false)) s fun c =>
      .ok ((List.range 7).flatMap fun n =>
        c.dst h (.p (BitVec.ofNat 3 n)) .b32
          (((c.acts h).filter fun t => bitAt (c.st.r.src .b32 t b) n).map fun t => (t, (bitAt (c.st.r.src .b32 t a) n).toNat)))
        flNone false

/-- Thread t's bit of a predicate operand. -/
def predBit (r : Regs) (o : Opnd) (t : Nat) : Bool := match o with | .p n => r.bitP n.toNat t | _ => false

def execVany (h : Hdr) (d a : Opnd) (s : State) : Out :=
  laneOp h 2 (uses (refsOf d false) (refsOf a false)) s fun c =>
    let r := (c.acts h).any (predBit c.st.r a)
    valRes0 c h d .b32 fun _ => r.toNat

def execVall (h : Hdr) (d a : Opnd) (s : State) : Out :=
  laneOp h 2 (uses (refsOf d false) (refsOf a false)) s fun c =>
    let r := (c.acts h).all (predBit c.st.r a)
    valRes0 c h d .b32 fun _ => r.toNat

def execElect (h : Hdr) (d : Opnd) (s : State) : Out :=
  laneOp h 2 (uses (refsOf d false) []) s fun c =>
    valRes0 c h d .b32 fun t => if (c.acts h).head? == some t then 1 else 0

/-- BCST (R150). -/
def execBcst (h : Hdr) (ty : Ty) (vp : BitVec 3) (d a b : Opnd) (s : State) : Out :=
  let w := ty.width = 64
  laneOp h 4 (uses (refsOf d w ++ refsOf (.p vp) false) (refsOf a w ++ refsOf b false)) s fun c =>
    let on := c.acts h
    let n := sgn 64 (c.st.r.uni64 b)
    let ok := decide (0 ≤ n) && decide (n ≤ 31) && on.contains n.toNat
    let x := if ok then c.st.r.src ty n.toNat a else 0
    .ok (c.dst h d ty (on.map fun t => (t, x)) ++ c.dst h (.p vp) .b32 (on.map fun t => (t, ok.toNat))) flNone false

/-! ## Reductions -/

/-- The reduction of a list of values (R151, R152); an empty list gives the identity. -/
def reduce (op : RedOp) (ty : Ty) (xs : List Nat) : Nat × Flags :=
  let m := 2 ^ ty.width
  match op with
  | .and => (xs.foldl (fun a b => a &&& b) (m - 1), flNone)
  | .or => (xs.foldl (fun a b => a ||| b) 0, flNone)
  | .xor => (xs.foldl (fun a b => a ^^^ b) 0, flNone)
  | .add =>
    if ty.isFloat then
      let f := fmtOf ty
      let ns := xs.map fun x => f.dec (x % m)
      if ns.isEmpty then (0, flNone)
      else
        let (w, f1) := treeSum (ns.map Num.ext)
        let r := roundExt f .rne false 0#64 (fmtW64.dec w).ext
        (r.bits, f1 ||| r.fl ||| flIf (ns.any Num.isSig) flNv)
    else (intWrite ty (intRead ty (toWrap 64 (xs.foldl (fun a x => a + intRead ty x) 0))), flNone)
  | .min | .max =>
    let mx := op == .max
    if ty.isFloat then
      let f := fmtOf ty
      match xs.map (· % m) with
      | [] => (f.infBits mx, flNone)
      | [x] => let n := f.dec x; (f.tidy x, flIf n.isSig flNv)
      | x :: rest => rest.foldl (fun acc y => let r := fMinMax f mx acc.1 y; (r.bits, acc.2 ||| r.fl)) (x, flNone)
    else
      match xs.map (intRead ty) with
      | [] => (intWrite ty (if mx then Ty.minInt ty else Ty.maxInt ty), flNone)
      | x :: rest => (intWrite ty (rest.foldl (fun a b => if mx then (if a < b then b else a) else if b < a then b else a) x), flNone)

/-! ## The rendezvous -/

/-- The latencies of the rendezvous instructions (R56). -/
def rdvLat (i : Instr) : Nat :=
  match i with
  | .ballot _ _ _ _ => 3
  | .shfl _ _ _ _ _ _ _ | .matchx _ _ _ _ _ _ _ => 4
  | .redx _ _ _ _ _ _ | .scan _ _ _ _ _ _ _ => 6
  | _ => 1

/-- The source operand of a rendezvous instruction and its type. -/
def rdvSrc (i : Instr) : Ty × Opnd :=
  match i with
  | .shfl _ ty _ _ _ a _ => (ty, pairFst a)
  | .redx _ ty _ _ a _ | .scan _ ty _ _ _ a _ | .matchx _ ty _ _ _ a _ => (ty, a)
  | .ballot _ _ a _ => (.b32, a)
  | _ => (.b32, .none)

/-- What a fragment reads for thread t in its issue window (R117, R146): its source, and SHFL's selector (R149). -/
def rdvRead (r : Regs) (i : Instr) (t : Nat) : Nat :=
  let (ty, a) := rdvSrc i
  match a with
  | .p n => (r.bitP n.toNat t).toNat
  | a => r.src ty t a

def rdvSelect (r : Regs) (i : Instr) (t : Nat) : Nat :=
  match i with
  | .shfl _ _ _ _ _ (.pair _ c) _ => (r.rdV c.toNat t).toNat
  | .shfl _ _ _ _ _ _ b => r.uni64 b / 2 ^ 32 % 256
  | _ => 0

/-- The entry of a fragment in a rendezvous. -/
def rdvEnter (r : Regs) (i : Instr) (f : Nat) (ts : List Nat) : RdvIn :=
  { f := f, mask := maskOf ts, vals := ts.map fun t => (t, rdvRead r i t), sels := ts.map fun t => (t, rdvSelect r i t) }

/-- A fragment of a rendezvous with its instruction, its participants and what it read. -/
structure RdvPart where
  f : Nat
  i : Instr
  ts : List Nat
  vals : List (Nat × Nat)
  sels : List (Nat × Nat)

/-- A thread's entry in a list of values by thread. -/
def byThread (xs : List (Nat × Nat)) (t : Nat) : Nat := ((xs.find? (·.1 == t)).map (·.2)).getD 0

/-- Thread t's source value, as its own fragment read it. -/
def rdvVal (ps : List RdvPart) (t : Nat) : Nat :=
  match ps.find? fun p => p.ts.contains t with
  | some p => byThread p.vals t
  | none => 0

/-- SHFL's source thread (R149). -/
def shflFrom (md : ShflMode) (sel t : Nat) : Nat :=
  let d := sel % 32
  let g := 2 ^ (5 - min (sel / 32 % 8) 5)
  let b := t - t % g
  match md with
  | .abs => b + d % g
  | .rot => b + (t - b + d) % g
  | .bfly => t ^^^ (d % g)
  | .rev => b + g - 1 - (t - b)

/-- A value written to D of each listed thread, or once where D is uniform (R148, R151). -/
def partDst (d : Opnd) (ty : Ty) (vals : List (Nat × Nat)) : List Write :=
  match d with
  | .k _ => (vals.head?.map fun v => dstW d ty v.1 v.2).getD []
  | _ => vals.flatMap fun v => dstW d ty v.1 v.2

/-- The writes and flags of one fragment's part of a rendezvous (R148 to R153). -/
def rdvWrites (ps : List RdvPart) (mlive : W32) (p : RdvPart) : List Write × Flags :=
  let all := threads.filter fun t => ps.any fun q => q.ts.contains t
  let v := rdvVal ps
  let full := maskOf all == mlive
  match p.i with
  | .ballot _ d _ _ =>
    let m := (maskOf (all.filter fun t => v t == 1)).toNat
    (partDst d .b32 (p.ts.map fun t => (t, m)), flNone)
  | .shfl _ ty vp md d _ _ =>
    let src := fun t => shflFrom md (byThread p.sels t) t
    (partDst d ty (p.ts.map fun t => (t, if all.contains (src t) then v (src t) else 0))
      ++ partDst (.p vp) .b32 (p.ts.map fun t => (t, (all.contains (src t)).toNat)), flNone)
  | .redx _ ty op d _ _ =>
    let x := reduce op ty (all.map v)
    (partDst d ty (p.ts.map fun t => (t, x.1)), x.2)
  | .scan _ ty op ex d _ _ =>
    let xs := p.ts.map fun t => (t, reduce op ty ((all.filter fun u => if ex then u < t else u ≤ t).map v))
    (partDst d ty (xs.map fun x => (x.1, x.2.1)), unionFlags (xs.map fun x => x.2.2))
  | .matchx _ ty vp al d _ _ =>
    let key := fun t => v t % 2 ^ ty.width
    let same := match all with | [] => true | u :: _ => all.all fun t => key t == key u
    let val := fun t => if al then (if same then (maskOf all).toNat else 0) else (maskOf (all.filter fun u => key u == key t)).toNat
    let ok := full && (!al || same)
    (partDst d .b32 (p.ts.map fun t => (t, val t)) ++ partDst (.p vp) .b32 (p.ts.map fun t => (t, ok.toNat)), flNone)
  | _ => ([], flNone)

/-- The registers a rendezvous instruction writes. -/
def rdvMarks (i : Instr) : List RegRef :=
  match i with
  | .ballot _ d _ _ => refsOf d false
  | .shfl _ ty vp _ d _ _ => refsOf d (ty.width = 64) ++ refsOf (.p vp) false
  | .redx _ ty _ d _ _ => refsOf d (ty.width = 64)
  | .scan _ ty _ _ d _ _ => refsOf d (ty.width = 64)
  | .matchx _ _ vp _ d _ _ => refsOf d false ++ refsOf (.p vp) false
  | _ => []

/-- The threads of a rendezvous that are still live. -/
def liveMask (sp : Spec) (m : W32) : W32 := maskOf ((maskThreads m).filter sp.live)

/-- Whether the fragments of a rendezvous cover its live mask (R146). -/
def Strand.rdvReady (st : Strand) (r : Rdv) : Bool :=
  let m := liveMask st.sp r.mask
  let arr := r.fs.foldl (fun x e => x ||| ((nmGet st.frags e.f).map (·.mask)).getD 0#32) 0#32
  (m &&& arr) == m

/-- After an LSYN.full every participant waits until the buffer has drained and its loads are performed (R247, R339). -/
def Strand.drained (st : Strand) : Bool :=
  !(st.rsb.any fun e => e.ready && e.hold.isNone) && !(st.pend.any fun p => p.op != .none)

/-- The release of a fragment from its rendezvous: READY at the next word after the latency, counted from this window, and
after what is left of its own gap (R43, R146). -/
def rdvRelease (s : State) (sid lat f : Nat) : State :=
  unblock (s.updFrag sid f fun fr => { fr with gap := max lat fr.gap }) sid f

/-- Executes the first complete rendezvous of a strand, if any; one step of `rdvTry`. -/
def rdvOnce (s : State) (sid : Nat) : Option State :=
  match nmGet s.strands sid with
  | none => none
  | some st =>
    match st.rdvs.find? st.rdvReady with
    | none => none
    | some r =>
      let st0 := { st with rdvs := st.rdvs.filter (·.id != r.id) }
      let s0 := { s with strands := nmSet s.strands sid st0 }
      match s.job? st with
      | none => some s0
      | some j =>
        let ps := r.fs.filterMap fun e =>
          match nmGet st.frags e.f with
          | some fr =>
            match decode (j.word fr.pc) with
            | .ok i => some { f := e.f, i := i, ts := (maskThreads e.mask).filter st.sp.live, vals := e.vals, sels := e.sels : RdvPart }
            | .error _ => none
          | none => none
        let ml := liveMask st.sp r.mask
        let win := s.now st
        let s1 := ps.foldl (fun (s : State) p =>
          let (ws, fl) := rdvWrites ps ml p
          s.updStrand sid fun x => x.result p.f win (rdvLat p.i) (rdvMarks p.i) ws fl false) s0
        let fence := ps.any fun p => match p.i with | .lsyn _ _ .full _ => true | _ => false
        if fence then
          let f0 := (ps.head?.map (·.f)).getD 0
          let nxt := (((nmGet st.frags f0).map (·.pc)).getD 0#57) + 12#57
          match endRegion s1 sid f0 nxt none with
          | (s2, false) => some s2
          | (s2, true) =>
            let s2 := ps.foldl (fun (s : State) p => s.updFrag sid p.f fun fr => { fr with rgn := fr.pc + 12#57 }) (s2.acts sid)
            let ok := ((nmGet s2.strands sid).map Strand.drained).getD true
            some (ps.foldl (fun s p =>
              if ok then rdvRelease s sid 1 p.f else s.updFrag sid p.f fun fr => { fr with wait := .drain }) s2)
        else some (ps.foldl (fun s p => rdvRelease s sid (rdvLat p.i) p.f) s1)

/-- Executes the complete rendezvous of a strand (R146), also after a thread has left `live`. -/
def rdvTry (s : State) (sid : Nat) : Nat → State
  | 0 => s
  | fuel + 1 =>
    match rdvOnce s sid with
    | none => s
    | some s' => rdvTry s' sid fuel

/-- Fragments that an LSYN.full holds until the buffer has drained (R247). -/
def drainWake (s : State) (sid : Nat) : State :=
  match nmGet s.strands sid with
  | none => s
  | some st =>
    if st.drained then
      st.frags.foldl (fun s e => if e.2.wait == .drain then unblock s sid e.1 else s) s
    else s

/-- The mask operand of a rendezvous (R145). -/
def rdvMask (r : Regs) (b : Opnd) : W32 := BitVec.ofNat 32 (r.uni64 b)

/-- A fragment issues a rendezvous instruction (R146). -/
def rdvIssue (i : Instr) (h : Hdr) (mask : W32) (c : Ctx) (s : State) : Out :=
  let ml := liveMask c.st.sp mask
  let me := rdvEnter c.st.r i c.f (c.acts h)
  let word := ((s.job? c.st).map fun j => j.word c.fr.pc).getD 0
  let wait := fun (id : Nat) (fr : Frag) => { fr with st := .blocked, wait := .rdv id, evt := 0#64, gap := max h.stall.toNat 1 }
  if me.mask &&& ~~~mask ≠ 0#32 then trapOut s c 0x60#8
  else if c.fr.mask &&& ml = 0#32 then .next (advance s c.sid c.f h)
  else
    match c.st.rdvs.find? fun r => liveMask c.st.sp r.mask &&& ml != 0#32 with
    | some r =>
      if liveMask c.st.sp r.mask ≠ ml ∨ word / 2 ^ 86 ≠ r.word / 2 ^ 86 ∨ word / 2 ^ 64 % 512 ≠ r.word / 2 ^ 64 % 512 then
        trapOut s c 0x60#8
      else
        let s1 := s.updStrand c.sid fun (st : Strand) =>
          Strand.updFrag { st with rdvs := st.rdvs.map fun (x : Rdv) => if x.id == r.id then { x with fs := x.fs ++ [me] } else x } c.f (wait r.id)
        .next (rdvTry s1 c.sid 8)
    | none =>
      let (id, s0) := s.tick
      let r : Rdv := { id := id, mask := mask, pc := c.fr.pc, word := word, fs := [me] }
      let s1 := s0.updStrand c.sid fun (st : Strand) => Strand.updFrag { st with rdvs := st.rdvs ++ [r] } c.f (wait id)
      .next (rdvTry s1 c.sid 8)

def execBallot (h : Hdr) (d a b : Opnd) (s : State) : Out :=
  issue h (uses (refsOf d false) (refsOf a false ++ refsOf b false)) s fun c s => rdvIssue (.ballot h d a b) h (rdvMask c.st.r b) c s

def execShfl (h : Hdr) (ty : Ty) (vp : BitVec 3) (md : ShflMode) (d a b : Opnd) (s : State) : Out :=
  let w := ty.width = 64
  issue h (uses (refsOf d w ++ refsOf (.p vp) false) (refsOf a w ++ refsOf b false)) s fun c s =>
    rdvIssue (.shfl h ty vp md d a b) h (rdvMask c.st.r b) c s

def execRedx (h : Hdr) (ty : Ty) (op : RedOp) (d a b : Opnd) (s : State) : Out :=
  let w := ty.width = 64
  issue h (uses (refsOf d w) (refsOf a w ++ refsOf b false)) s fun c s => rdvIssue (.redx h ty op d a b) h (rdvMask c.st.r b) c s

def execScan (h : Hdr) (ty : Ty) (op : RedOp) (ex : Bool) (d a b : Opnd) (s : State) : Out :=
  let w := ty.width = 64
  issue h (uses (refsOf d w) (refsOf a w ++ refsOf b false)) s fun c s => rdvIssue (.scan h ty op ex d a b) h (rdvMask c.st.r b) c s

def execMatchx (h : Hdr) (ty : Ty) (vp : BitVec 3) (al : Bool) (d a b : Opnd) (s : State) : Out :=
  issue h (uses (refsOf d false ++ refsOf (.p vp) false) (refsOf a (ty.width = 64) ++ refsOf b false)) s fun c s =>
    rdvIssue (.matchx h ty vp al d a b) h (rdvMask c.st.r b) c s

end Sys2Proof.Machine
end

