-- ==== Sys2Proof/Machine/Barrier.lean ====
section
/-!
DEFINITION. Teams and barrier phases (R209, R212 to R217, R244 to R246): members and their cores, the combiner tree, the
completion of a phase with the draining of its held DETERM entries (R343), and releases.
-/
namespace Sys2Proof.Machine

/-- The key of a team by its number within a job; number 0 names the batch team (R209, R244). -/
def teamKey (s : State) (job batch num : Nat) : Option Nat :=
  (s.teams.find? fun e => e.2.job == job && (if num = 0 then e.2.bidx == some batch else e.2.bidx.isNone && e.2.num == num)).map (·.1)

/-- The member strands of a team. -/
def Team.members (t : Team) : List Nat :=
  t.ranks.filterMap fun e => match e.2 with | .member sid => some sid | .vacated => none

/-- The rank of a member. -/
def Team.rankOf (t : Team) (sid : Nat) : Option Nat :=
  (t.ranks.find? fun e => e.2 == .member sid).map (·.1)

/-- The expected count: the size without the vacated ranks (R213, R244). -/
def Team.expected (t : Team) : Nat := t.size - (t.ranks.filter fun e => e.2 == .vacated).length

/-- The cores that hold members; a saved member's core does not count (R214). -/
def teamCores (s : State) (t : Team) : List Nat :=
  (t.members.filterMap fun sid => match nmGet s.strands sid with
    | some st => if st.st == .saved then none else some st.core
    | none => none).eraseDups

/-- Members on a core. -/
def membersOn (s : State) (t : Team) (c : Nat) : List Nat :=
  t.members.filter fun sid => match nmGet s.strands sid with
    | some st => st.core == c && st.st != .saved
    | none => false

/-- The barrier slot of a team on a core. -/
def slotOf (s : State) (c job : Nat) (t : Team) : Option (Nat × BarSlot) :=
  (s.core c).slots.find? fun e => e.2.job == job && e.2.team == t.num && e.2.bidx == t.bidx

/-- The key of a team in the combiner tables. -/
def combKey (job : Nat) (t : Team) : Nat := (job * 65536 + t.num) * 2 ^ 32 + (match t.bidx with | some b => b + 1 | none => 0)

/-- Arrivals of saved members that have arrived (R214): they count at the level above their core. -/
def detachedArr (s : State) (t : Team) : Nat :=
  (t.arrived.filter fun sid => match nmGet s.strands sid with | some st => st.st == .saved | none => false).length

/-- The arrivals that a slot holds in its team's phase: none while the release of the phase before is on its way (R213). -/
def BarSlot.now (x : BarSlot) (t : Team) : Nat := if x.phase = t.phase then x.arrived else 0

/-- One more arrival at a slot in its team's phase; the first starts the watchdog (R215). -/
def BarSlot.arrive (x : BarSlot) (t : Team) : BarSlot :=
  if x.phase = t.phase then { x with arrived := x.arrived + 1, watch := some (x.watch.getD 0) }
  else { x with phase := t.phase, arrived := 1, sent := none, watch := some 0 }

/-- The release of a phase reaches a slot: an arrival of the next phase stays. -/
def BarSlot.release (x : BarSlot) (t : Team) : BarSlot :=
  if x.phase = t.phase then x else { x with phase := t.phase, arrived := 0, sent := none, watch := none }

/-- The arrivals that the top of a team's path holds (R213). -/
def topHeld (s : State) (job : Nat) (t : Team) : Nat :=
  let cs := teamCores s t
  let ds := (cs.map dieOf).eraseDups
  let k := combKey job t
  let base := match cs, ds with
    | [c], _ => ((slotOf s c job t).map (·.2.now t)).getD 0
    | _, [d] => ((nmGet (s.die d).comb k).map fun x => (x.cnt.map (·.2)).foldl (· + ·) 0).getD 0
    | _, _ => ((nmGet s.pkgComb k).map fun x => (x.cnt.map (·.2)).foldl (· + ·) 0).getD 0
  base + detachedArr s t

/-- The ranks of a team that are members or still unjoined (R245). -/
def Team.alive (t : Team) : Nat := t.members.length + (List.range t.size).countP fun r => (nmGet t.ranks r).isNone

/-- Whether held entries of a team's completed phases are still to drain (R343). -/
def heldLeft (s : State) (tk phase : Nat) : Bool :=
  s.strands.any fun e => e.2.rsb.any fun x => match x.hold with | some (k, p, _) => k == tk && decide (p < phase) | none => false

/-- The release of a completed phase leaves for every core with a member, once the held entries of all ranks are in M of their
home (R213, R343); a team without ranks left then dissolves (R245). -/
def teamSettle (s : State) (tk : Nat) : State :=
  match nmGet s.teams tk with
  | none => s
  | some t =>
    if !t.done || heldLeft s tk t.phase || !allInM s (t.held.map (·.2)) then s
    else if t.alive = 0 then s.dropTeams fun k _ => k == tk
    else { s with teams := nmSet s.teams tk { t with done := false, held := [], rels := t.rels ++ teamCores s t } }

/-- The same for every team. -/
def settleTeams (s : State) : State := s.teams.foldl (fun s e => teamSettle s e.1) s

/-- Completes a team's phase (R213): it advances, the DETERM record of the team's pages clears (R345), held entries may drain,
and the release follows them. -/
def completePhase (s : State) (tk : Nat) (t : Team) : State :=
  let k := combKey t.job t
  teamSettle { s with
    teams := nmSet s.teams tk { t with phase := t.phase + 1, arrived := [], done := true }
    dies := s.dies.map fun (e : Nat × Die) => (e.1, { e.2 with comb := nmUpd e.2.comb k fun x => { x with cnt := [] } })
    pkgComb := nmUpd s.pkgComb k fun x => { x with cnt := [] }
    det := s.det.map fun (d : DetPage) => if d.owner == tk then { d with secs := [] } else d } tk

/-- The phase completes when the top holds every expected arrival (R213). -/
def topCheck (s : State) (tk : Nat) : State :=
  match nmGet s.teams tk with
  | none => s
  | some t => if t.expected = 0 ∨ topHeld s t.job t < t.expected ∨ t.arrived.isEmpty then s else completePhase s tk t

/-- One arrival of a member at its core's slot (R213, R215). -/
def arrive (s : State) (tk sid : Nat) : State :=
  match nmGet s.teams tk, nmGet s.strands sid with
  | some t, some st =>
    if t.arrived.contains sid then s
    else
      let s1 := { s with teams := nmSet s.teams tk { t with arrived := t.arrived ++ [sid] } }
      let s2 := match slotOf s1 st.core t.job t with
        | some (n, sl) => s1.updCore st.core fun c =>
            { c with slots := nmSet c.slots n (sl.arrive t) }
        | none => s1
      topCheck s2 tk
  | _, _ => s

/-- Whether a strand's fragments at TBAR on a team cover its live threads (R246). -/
def Strand.tbarCovers (st : Strand) (tk phase : Nat) : Bool :=
  let m := st.frags.foldl (fun x e => match e.2.wait with
    | .tbar k p _ _ => if k == tk && p == phase then x ||| e.2.mask else x
    | _ => x) 0#32
  (threads.filter st.sp.live).all fun t => inMask m t

/-- The teams at whose barrier a fragment of the strand waits. -/
def Strand.tbarTeams (st : Strand) : List (Nat × Nat) :=
  (st.frags.filterMap fun e => match e.2.wait with | .tbar k p _ _ => some (k, p) | _ => none).eraseDups

/-- Whether the strand's own committed entries have drained, and its unbuffered stores have been performed (R337, R342); `un`
leaves out UNORDERED pages (R340). -/
def Strand.ownDrained (st : Strand) (un : Bool) : Bool :=
  !(st.rsb.any fun e => e.ready && e.hold.isNone && !(un && e.ord == 2))
    && !(st.pend.any fun p => p.op.isStore && p.op.accs.any fun a => a.ps.any fun x => !(un && x.ord == 2))

/-- The waits of a release of scope X (R337). `stamp` is the release's start, once the own entries have drained. The
result is the stamp to keep, and whether the waits are over. -/
def relWaits (s : State) (st : Strand) (sc : Scope) (un : Bool) (stamp : Option Nat) : Option Nat × Bool :=
  match sc with
  | .strand => (stamp, true)
  | .core | .cluster | .die => (stamp, st.ownDrained un)
  | .module | .fabric =>
    match (match stamp with | some q => some q | none => if st.ownDrained un then some s.seq else none) with
    | none => (none, false)
    | some q =>
      let die := s.die (dieOf st.core)
      let co := s.core st.core
      let near := !(die.p.any fun w => w.seq < q && !(un && w.unord)) && !(co.wcb.any fun l => l.id < q && !(un && l.unord))
      let far := match sc with
        | .fabric => !(s.fab.pkts.any fun k => k.src == s.module.toNat && k.dst != k.src && k.core == st.core && (match k.body with | .line _ _ u => !(un && u) | _ => true))
        | _ => true
      (some q, near && far)

/-- The wider of two scopes. -/
def widest (x y : Scope) : Scope := if x.code < y.code then y else x

/-- What a strand's fragments at TBAR on a team ask for together (R246): the widest scope, and .full where one has it. -/
def Strand.tbarSync (st : Strand) (tk phase : Nat) : Scope × Bool :=
  st.frags.foldl (fun x e => match e.2.wait with
    | .tbar k p sc full => if k == tk && p == phase then (widest x.1 sc, x.2 || full) else x
    | _ => x) (.strand, false)

/-- The start of the waits of a strand's barrier, kept with its fragments there (R337). -/
def Strand.tbarRel (st : Strand) (tk phase : Nat) : Option Nat :=
  st.frags.findSome? fun e => match e.2.wait with | .tbar k p _ _ => if k == tk && p == phase then e.2.rel else none | _ => none

/-- The strand arrives where its waiting fragments now cover its live threads, .full after the waits of a release at the
widest scope (R246, R337), and its accesses to DETERM pages are performed, so that they belong to the phase they were issued in
(R345; log 17). -/
def tbarTry (s : State) (sid : Nat) : State :=
  match nmGet s.strands sid with
  | none => s
  | some st =>
    st.tbarTeams.foldl (fun s kp =>
      match nmGet s.teams kp.1 with
      | none => s
      | some t =>
        if t.phase != kp.2 || t.arrived.contains sid || !st.tbarCovers kp.1 kp.2 || st.pend.any (·.op.onOrd 3) then s
        else
          let (sc, full) := st.tbarSync kp.1 kp.2
          if !full then arrive s kp.1 sid
          else
            match relWaits s st sc false (st.tbarRel kp.1 kp.2) with
            | (_, true) => arrive (s.acts sid) kp.1 sid
            | (q, false) =>
              (s.tick.2).updStrand sid fun x => { x with frags := x.frags.map fun (k, fr) =>
                (k, match fr.wait with | .tbar a p _ _ => if a == kp.1 && p == kp.2 then { fr with rel := q } else fr | _ => fr) }) s

/-- Drops every sector of a core's read line buffer, at an acquire of scope .cluster or wider (R338). -/
def dropRlb (s : State) (c : Nat) (sc : Scope) : State :=
  if sc.isLocal then s else s.updCore c fun x => { x with rlb := [] }

/-- A release reaches a core's slot (R213): the members blocked in a completed phase become READY; .full is an acquire
at the widest scope of the strand's fragments (R246, R338). -/
def releaseSlot (s : State) (c tk : Nat) : State :=
  match nmGet s.teams tk with
  | none => s
  | some t =>
    let s1 := { s with teams := nmSet s.teams tk { t with rels := t.rels.erase c } }
    let s2 : State := match slotOf s1 c t.job t with
      | some (n, sl) => s1.updCore c fun x => { x with slots := nmSet x.slots n (sl.release t) }
      | none => s1
    s2.strands.foldl (fun (s : State) (e : Nat × Strand) =>
      if e.2.core == c && e.2.st != .saved then
        e.2.frags.foldl (fun s x => match x.2.wait with
          | .tbar k p _ _ =>
            if k == tk && p < t.phase then (let (sc, full) := e.2.tbarSync k p; let s' := unblockRgn s e.1 x.1; if full then dropRlb s' c sc else s')
            else s
          | _ => s) s
      else s) s2

/-- The barrier record of R217; the watchdog fired in the cycle in which its count met the limit. -/
def barrierRec (s : State) (c slot tk : Nat) : List W64 :=
  match nmGet s.teams tk with
  | none => []
  | some t =>
    let mem := t.ranks.filterMap fun e => match e.2 with | .member sid => some (e.1, sid) | .vacated => none
    let stOf := fun (sid : Nat) =>
      if t.arrived.contains sid then 0
      else match nmGet s.strands sid with
        | some st => if st.st == .ended then 2 else if st.st == .saved then 3 else 1
        | none => 2
    let ents := ((mem.filter fun e => stOf e.2 != 0) ++ (mem.filter fun e => stOf e.2 == 0)).take 4096
    let body := ents.flatMap fun (rank, sid) =>
      let k := stOf sid
      let (co, sl, pc) := match nmGet s.strands sid with
        | some st =>
          let sv := st.st == .saved
          let p := match k with
            | 0 => 0
            | 2 => st.endPc.toNat
            | _ => (st.frags.head?.map fun x => x.2.pc.toNat).getD 0
          (if sv then 0x7FF else st.core, if sv then 0x3FF else st.slot, p)
        | none => (0, 0, 0)
      [w64n (k * 2 ^ 62 + rank * 2 ^ 32 + co * 2 ^ 21 + sl * 2 ^ 11), w64n pc]
    [w64n (t.job * 2 ^ 48 + t.num * 2 ^ 32 + 0x63 * 2 ^ 24 + mem.length), w64n (t.expected * 2 ^ 32 + t.arrived.length),
     w64n (t.phase % 65536 * 2 ^ 48 + slot * 2 ^ 42 + c * 2 ^ 31), w64n (((s.core c).cycle - ((nmGet (s.core c).slots slot).map fun x => x.watch.getD 0 - x.limit).getD 0))] ++ body

/-- The core drops a slot, die and package entries of a team that no longer has members there (R212). -/
def teamPrune (s : State) (tk : Nat) : State :=
  match nmGet s.teams tk with
  | none => s
  | some t =>
    let cs := teamCores s t
    let s1 := { s with cores := s.cores.map fun (e : Nat × Core) =>
      (e.1, if cs.contains e.1 then e.2
            else { e.2 with slots := e.2.slots.filter fun x => !(x.2.job == t.job && x.2.team == t.num && x.2.bidx == t.bidx) }) }
    if t.alive = 0 ∧ !t.done then s1.dropTeams fun k _ => k == tk else s1

end Sys2Proof.Machine
end

