-- ==== Sys2Proof/Machine/Leave.lean ====
section
/-!
DEFINITION. Threads leaving `live` (R71, R73, R161), the end of a strand (R70, R282) and of a batch (R209, R211, R329).
-/
namespace Sys2Proof.Machine

/-- Ends a batch whose last strand has ended, with nothing of it in flight (R73, R209): its queues, locks and slots are freed, a scratch range record is
logged (R211), the batch team dissolves (R344), its launch counts it, and the screen may select it (R329). -/
def batchEnd (s : State) (bid : Nat) : State :=
  match nmGet s.batches bid with
  | none => s
  | some b =>
    let sts := b.sids.filterMap (nmGet s.strands ·)
    if b.ended || !(sts.all fun st => st.st == .ended && st.pend.isEmpty) then s
    else
      let s0 := chargeBatch s b
      let s1 := if sts.any fun st => st.sp.fmask != 0#32 then s0.log b.job (scratchRec b sts) else s0
      let s2 := { s1 with
        batches := nmSet s1.batches bid { b with ended := true }
        cores := nmSet s1.cores b.core ((s1.core b.core).free bid b.job [])
        launches := nmUpd s1.launches b.launch fun l => { l with done := l.done + 1, cycles := l.cycles + ((s.core b.core).cycle - b.born) } }
      let tks := (s2.teams.filter fun e => e.2.bidx == some bid).map (·.1)
      let s3 := tks.foldl (fun (s : State) (k : Nat) =>
        match nmGet s.teams k with
        | some t =>
          let cs := s.cores.map fun (e : Nat × Core) =>
            (e.1, { e.2 with slots := e.2.slots.filter fun x => !(x.2.job == t.job && x.2.bidx == t.bidx && t.bidx.isSome) })
          State.dropTeams { s with cores := cs } fun x _ => x == k
        | none => s) s2
      let n := (s.die (dieOf b.core)).screen
      let pick := if n = 0 then false else if n = 1 then true else Config.screenDraw s.freeCtr n
      let s4 := { s3 with freeCtr := s3.freeCtr + (if n ≤ 1 then 0 else 1) }
      if pick then
        let (q, s5) := s4.tick
        { s5 with screens := nmSet s5.screens q { die := dieOf b.core, job := b.job, pos := b.pos,
                                                  sigs := sts.map fun st => (st.sidx, Config.sigHash st.log) } }
      else s4

/-- An ended strand is over once nothing of it is in flight (R73, R161): an undelivered faulted mark ends the job (R282);
otherwise the batch is looked at. -/
def finishStrand (s : State) (sid : Nat) : State :=
  match nmGet s.strands sid with
  | none => s
  | some st =>
    if st.st != .ended || !st.pend.isEmpty then s
    else
      match st.faults with
      | (_, k56) :: _ => endJob s st.job 0x84#8 (faultRec st.job 0x84#8 st.endPc.toNat 0#32 st.core st.slot [k56])
      | [] => batchEnd s st.batch

/-- The end of a strand (R70, R73): every fragment is freed, held interrupts are discarded. What is in flight still takes
effect, as EXIT would have waited for it; what only a blocked fragment waited for does not. -/
def endStrand (s : State) (sid : Nat) (pc : VAddr) : State :=
  match nmGet s.strands sid with
  | none => s
  | some st =>
    let gone := st.frags.filterMap fun e => e.2.wait.pend?
    let st := st.landFixed
    let st' := { st with st := .ended, frags := [], recs := [], pend := st.pend.filter fun p => !gone.contains p.id, rdvs := [],
                         held := [], endPc := pc, rsb := st.rsb.filter fun e => e.ready || e.hold.isSome,
                         log := st.log ++ [pc.toNat], abort := none }
    finishStrand { s with strands := nmSet s.strands sid st' } sid

/-- A freed fragment leaves its handler without restoring the save area (R161). -/
def Spec.leaveFreed (sp : Spec) (f : Nat) : Spec :=
  let sp := if sp.hfrag == some f then { sp with hstate := sp.hstate &&& 2#2, hfrag := none } else sp
  if sp.ufrag == some f then { sp with hstate := sp.hstate &&& 1#2, ufrag := none } else sp

/-- After threads have left `live`: masks lose them, empty fragments are freed, joins, rendezvous and barriers are
evaluated again, and a strand without a live thread ends (R67, R71, R73, R146, R246). A rendezvous stays open when every fragment
in it is gone (log 71). -/
def afterLeave (s : State) (sid : Nat) (pc : VAddr) : State :=
  match nmGet s.strands sid with
  | none => s
  | some st =>
    if !(threads.any st.sp.live) then endStrand s sid pc
    else
      let fr := st.frags.map fun (k, x) => (k, { x with mask := maskOf ((maskThreads x.mask).filter st.sp.live) })
      let gone := (fr.filter fun e => e.2.mask == 0#32).map (·.1)
      let keep := fr.filter fun e => e.2.mask != 0#32
      let rdvs := st.rdvs.map fun (r : Rdv) => { r with fs := r.fs.filter fun e => !gone.contains e.f }
      let st' := { st with frags := keep, sp := gone.foldl Spec.leaveFreed st.sp, rdvs := rdvs }
      let s1 := { s with strands := nmSet s.strands sid st' }
      tbarTry (rdvTry (joinAll s1 sid) sid 8) sid

/-- Threads end by EXIT (R161), after the region end. -/
def exitThreads (s : State) (sid : Nat) (m : W32) (pc : VAddr) : State :=
  afterLeave (s.updStrand sid fun st => { st with sp := { st.sp with xmask := st.sp.xmask ||| m } }) sid pc

/-- The buffered bytes of the current region that departing threads wrote are taken out (R71): a byte whose committed
value is theirs is left unwritten. -/
def RsbEnt.without (e : RsbEnt) (m : W32) : RsbEnt :=
  let lost := (e.final.filter fun b => inMask m b.t).map (·.off)
  { e with bytes := e.bytes.filter fun b => !inMask m b.t && !lost.contains b.off }

def Strand.unbuffer (st : Strand) (m : W32) : Strand :=
  let cut := st.rsb.map fun (e : RsbEnt) => if e.open then e.without m else e
  { st with rsb := cut.filter fun e => !e.bytes.isEmpty }

/-- Threads are switched off for a scratchpad range fault (R71, R210). -/
def faultThreads (s : State) (sid : Nat) (m : W32) (pc : VAddr) : State :=
  if m = 0#32 then s
  else afterLeave (s.updStrand sid fun st => { st.unbuffer m with sp := { st.sp with fmask := st.sp.fmask ||| m } }) sid pc

/-- Threads die of an uncorrectable error (R71): THREAD_DEAD is reported as an event. -/
def killThreads (s : State) (sid : Nat) (m : W32) (pc : VAddr) : State :=
  match nmGet s.strands sid with
  | none => s
  | some st =>
    let s1 := s.event 0xE0#8 [st.job, st.core, st.slot, m.toNat]
    afterLeave (s1.updStrand sid fun st => { st.unbuffer m with sp := { st.sp with dmask := st.sp.dmask ||| m } }) sid pc

end Sys2Proof.Machine
end

