-- ==== Sys2Proof/Machine/Control.lean ====
section
/-!
DEFINITION. The control instructions (R155 to R162).
-/
namespace Sys2Proof.Machine

/-- The split-table entries in use on a core (R65). -/
def usedEntries (s : State) (c : Nat) : List Nat :=
  s.strands.flatMap fun e => if e.2.core == c && e.2.st != .saved && e.2.st != .ended then nmKeys e.2.frags else []

/-- The lowest free entries of a core (R66, R158). -/
def freeEntries (used : List Nat) : Nat → List Nat
  | 0 => []
  | n + 1 =>
    match firstFree used 4096 0 with
    | some e => if e < 4096 then e :: freeEntries (e :: used) n else []
    | none => []

/-- Groups threads by target, in order of their lowest thread (R157). -/
def groupBy (ts : List (Nat × Nat)) : List (Nat × List Nat) :=
  ts.foldl (fun gs (t, pc) =>
    match gs.find? (·.1 == pc) with
    | some _ => gs.map fun g => if g.1 == pc then (g.1, g.2 ++ [t]) else g
    | none => gs ++ [(pc, [t])]) []

/-- A branch (R157, R158): taken threads with their targets; the others of the live threads fall through. `ws` are
CALL's register writes, made only when the branch takes effect. Of a branch with YLD that splits the fragment, the part that
keeps its entry yields (R45, log 68). -/
def branch (h : Hdr) (c : Ctx) (s : State) (taken : List (Nat × Nat)) (marks : List RegRef) (ws : List Write) : State :=
  match s.job? c.st with
  | none => s
  | some j =>
    if !(taken.all fun e => j.pcOk e.2) then endJobAt s c.sid c.f 0x06#8 []
    else
      let nextPc := c.fr.pc.toNat + 12
      let fall := c.lives.filter fun t => !(taken.any (·.1 == t))
      let gs := (groupBy taken).map fun g => (g.1, maskOf g.2, g.2.headD 32)
      let all : List (Nat × W32) :=
        if fall.isEmpty then gs.map fun g => (g.1, g.2.1)
        else (nextPc, maskOf fall) :: gs.map fun g => (g.1, g.2.1)
      match all with
      | [] => s
      | (pc0, m0) :: rest =>
        let fresh := freeEntries (usedEntries s c.st.core) rest.length
        if 8 < c.st.frags.length + rest.length ∨ fresh.length < rest.length then raiseUser s c.sid c.f 0x61#8 none
        else
          let s1 := s.updStrand c.sid fun st => st.result c.f c.win 1 marks ws flNone false
          if !fall.isEmpty && !j.pcOk nextPc then endJobAt s1 c.sid c.f 0x06#8 []
          else
            let gap := max h.stall.toNat 1
            let mk := fun (pc : Nat) (m : W32) (fr : Frag) =>
              { fr with mask := m, pc := BitVec.ofNat 57 pc, st := .stalled, wait := .gap, gap := gap, evt := 0#64, rel := none }
            let s2 := s1.updStrand c.sid fun st =>
              let fr0 := mk pc0 m0 c.fr
              { st with frags := ((rest.zip fresh).foldl (fun m (g, e) => nmSet m e { mk g.1 g.2 c.fr with fid := s1.seq + 1 + e }) (nmSet st.frags c.f fr0)) }
            let s2 := { s2 with seq := s2.seq + (if rest.isEmpty then 0 else 4096) }
            joinAll s2 c.sid

/-- A branch under UNI (R42, R157): the whole fragment moves or falls through. -/
def branchUni (h : Hdr) (c : Ctx) (s : State) (pc : Nat) (marks : List RegRef) (ws : List Write) : State :=
  match c.acts h with
  | [] => advance s c.sid c.f h
  | _ =>
    match s.job? c.st with
    | none => s
    | some j =>
      if !j.pcOk pc then endJobAt s c.sid c.f 0x06#8 []
      else branchTo (s.updStrand c.sid fun st => st.result c.f c.win 1 marks ws flNone false) c.sid c.f h pc

/-- The target of a literal offset (R156); a target below zero is no PC. -/
def litTarget (pc : VAddr) (off : BitVec 24) : Nat :=
  let x : Int := pc.toNat + 12 + 12 * off.toInt
  if x < 0 then 2 ^ 57 else x.toNat

/-- BRA (R157): a bad literal target raises PC_BAD whatever threads take the branch, but not under UNI (log 67). -/
def execBra (h : Hdr) (off : BitVec 24) (s : State) : Out :=
  issue h (uses [] []) s fun c s =>
    let pc := litTarget c.fr.pc off
    if h.uni then .next (branchUni h c s pc [] [])
    else if !(((s.job? c.st).map fun j => j.pcOk pc).getD true) then supOut s c 0x06#8
    else .next (branch h c s ((c.acts h).map fun t => (t, pc)) [] [])

/-- The target of BRX and RET for thread t: the text base plus the operand as .n32 (R157). -/
def regTarget (s : State) (c : Ctx) (a : Opnd) (t : Nat) : Nat :=
  ((s.job? c.st).map (·.base)).getD 0 + c.st.r.src .n32 t a

/-- BRX's and RET's effect. -/
def branchReg (h : Hdr) (a : Opnd) (s : State) : Out :=
  issue h (uses [] (refsOf a false)) s fun c s =>
    if h.uni then .next (branchUni h c s (regTarget s c a ((c.leader).getD 0)) [] [])
    else .next (branch h c s ((c.acts h).map fun t => (t, regTarget s c a t)) [] [])

def execBrx (h : Hdr) (a : Opnd) (s : State) : Out := branchReg h a s
def execRet (h : Hdr) (a : Opnd) (s : State) : Out := branchReg h a s

/-- CALL (R159); a bad literal target as for BRA (log 67). -/
def execCall (h : Hdr) (d : Opnd) (off : BitVec 24) (s : State) : Out :=
  issue h (uses (refsOf d false) []) s fun c s =>
    let pc := litTarget c.fr.pc off
    let ret := c.fr.pc.toNat + 12 - ((s.job? c.st).map (·.base)).getD 0
    let ws := c.dst h d .n32 ((c.acts h).map fun t => (t, ret))
    if h.uni then .next (branchUni h c s pc (refsOf d false) ws)
    else if !(((s.job? c.st).map fun j => j.pcOk pc).getD true) then supOut s c 0x06#8
    else .next (branch h c s ((c.acts h).map fun t => (t, pc)) (refsOf d false) ws)

/-- RCV (R160). -/
def execRcv (h : Hdr) (off : BitVec 24) (s : State) : Out :=
  issue h (uses [] []) s fun c s =>
    let pc := litTarget c.fr.pc off
    match s.job? c.st with
    | none => .next s
    | some j =>
      if !j.pcOk pc then supOut s c 0x06#8
      else if 8 ≤ c.st.recs.length then trapOut s c 0x62#8
      else
        let r := (firstFree (nmKeys c.st.recs) 9 0).getD 0
        let s1 := s.updStrand c.sid fun st =>
          Strand.updFrag { st with recs := nmSet st.recs r { pc := BitVec.ofNat 57 pc, mask := maskOf c.lives, parent := c.fr.rix } } c.f fun fr =>
            { fr with rix := some r }
        .next (advance s1 c.sid c.f h)

/-- EXIT (R161). -/
def execExit (h : Hdr) (s : State) : Out :=
  issue h (uses [] []) s fun c s =>
    if c.st.anyTracked then .next (s.updFrag c.sid c.f fun fr => { fr with st := .stalled, wait := .marks })
    else
      match c.acts h with
      | [] => .next (advance s c.sid c.f h)
      | on =>
        let s := s.updStrand c.sid Strand.landFixed
        match endRegion s c.sid c.f (c.fr.pc + 12#57) none with
        | (s1, false) => .next s1
        | (s1, true) =>
          let ending := if h.uni then c.lives else on
          let left := c.lives.filter fun t => !ending.contains t
          let s2 := exitThreads s1 c.sid (maskOf ending) c.fr.pc
          .next (if left.isEmpty then s2 else advance s2 c.sid c.f h)

def execNop (h : Hdr) (s : State) : Out :=
  issue h (uses [] []) s fun c s => .next (advance s c.sid c.f h)

/-- YLD is NOP with the yield of R45 (R162). -/
def execYld (h : Hdr) (s : State) : Out :=
  issue { h with yld := true } (uses [] []) s fun c s => .next (advance s c.sid c.f h)

end Sys2Proof.Machine
end

