-- ==== Sys2Proof/Machine/Moment.lean ====
section
/-!
DEFINITION. The moment instructions (R171 to R194): covariance modes, the exact expressions of each half, their one
rounding, negative variances, and the collapse of a moment.
-/
namespace Sys2Proof.Machine

/-- The mean's and the variance's encodings of an M64 value (R113, R171). -/
def momMean (x : Nat) : Nat := x % 2 ^ 32
def momVar (x : Nat) : Nat := x / 2 ^ 32 % 2 ^ 32

/-- An M64 value of two binary32 encodings. -/
def momPack (mean var : Nat) : Nat := mean % 2 ^ 32 + var % 2 ^ 32 * 2 ^ 32

/-- A variance that fails: its sign is set, it is nonzero and no NaN (R178). -/
def varFails (v : Nat) : Bool :=
  match fmtF32.dec v with
  | .nan _ => false
  | .inf s => s
  | .fin s m _ => s && m != 0

/-- A variance as a number: -0 reads +0 (R114), and a failing one counts as its replacement +0 (R180). -/
def varNum (v : Nat) : Num :=
  match fmtF32.dec v with
  | .fin s m e => if s then .fin false 0 e else .fin false m e
  | .inf true => .fin false 0 0
  | x => x

def meanNum (x : Nat) : Num := fmtF32.dec (momMean x)

def numOne : Num := .fin false 1 0

/-- 2^k as a value. -/
def numPow (k : Int) : Num := .fin false 1 k

def Num.negate : Num → Num
  | .nan s => .nan s
  | .inf s => .inf (!s)
  | .fin s m e => .fin (!s) m e

/-- Product of values with an optional root of a product: sign, magnitude as factors. An undefined product is a NaN and
invalid (R176); a NaN factor makes a NaN. -/
def momTerm (fs roots : List Num) : Ext × Flags :=
  let all := fs ++ roots
  if all.any Num.isNan then (.nan, flNone)
  else
    let neg := fs.foldl (fun b x => b != x.neg) false
    if all.any Num.isInf then
      if all.any Num.isZero then (.nan, flNv) else (.inf neg, flNone)
    else
      let prod := fun (xs : List Num) => xs.foldl (fun (a : Nat × Int) x => match x with | .fin _ m e => (a.1 * m, a.2 + e) | _ => a) (1, 0)
      let (m, e) := prod fs
      if roots.isEmpty then (.fin (XR.dy neg m e), flNone)
      else
        let (n, e') := prod roots
        if m = 0 ∨ n = 0 then (.fin (XR.dy neg 0 0), flNone)
        else
          let r := xrSqrt n e'
          (.fin { zneg := neg, m := 0, e := e + r.e, rs := r.rs.map fun x => (neg, m * m * x.2) }, flNone)

/-- The sum of terms, exact, with the flags of the terms. -/
def momAdd (rdn : Bool) : List (Ext × Flags) → Ext × Flags
  | [] => (.fin (XR.dy false 0 0), flNone)
  | [x] => x
  | x :: y :: r =>
    let (z, fl) := x.1.add rdn y.1
    r.foldl (fun (acc : Ext × Flags) t => let (w, f) := acc.1.add rdn t.1; (w, acc.2 ||| t.2 ||| f)) (z, x.2 ||| y.2 ||| fl)

/-- The sum of terms of a half: ∞ - ∞ among them is a NaN and invalid, also beside a NaN term (R98, R176). -/
def momSum (rdn : Bool) (ts : List (Ext × Flags)) : Ext × Flags :=
  let has := fun (b : Bool) => ts.any fun x => x.1 == .inf b
  let (x, fl) := momAdd rdn ts
  (x, fl ||| flIf (has false && has true) flNv)

/-- The correlation of a covariance mode (R172, R173): a value in [-1, 1] or a NaN. -/
def covRho (st : Strand) (cov : Cov) : Num :=
  let mode := match cov with
    | .ctl => st.sp.cov
    | .ind => 0
    | .pos => 1
    | .neg => 2
    | .rho => 3
  match mode with
  | 0 => .fin false 0 0
  | 1 => numOne
  | 2 => numOne.negate
  | _ =>
    let r := fmtF32.dec ((st.r.rdK 63).toNat % 2 ^ 32)
    if r.isNan then r
    else if numOne.lt r then numOne
    else if r.lt numOne.negate then numOne.negate
    else r

/-- The registers that a covariance mode reads: k63 under RHO (R173). -/
def covRefs (s : State) (cov : Cov) : List RegRef :=
  let ctl := match s.cur with
    | some (sid, _) => ((nmGet s.strands sid).map (·.sp.cov)).getD 0
    | none => 0
  match cov with
  | .rho => [⟨.k, 63⟩]
  | .ctl => if ctl = 3 then [⟨.k, 63⟩] else []
  | _ => []

/-- The terms of the mean and the variance of a product (R185's MMUL row); a term with ρ = 0 is absent (R176). -/
def mmulTerms (rho ma va mb vb : Num) : List (Ext × Flags) × List (Ext × Flags) :=
  if rho.isZero then
    ([momTerm [ma, mb] []], [momTerm [ma, ma, vb] [], momTerm [mb, mb, va] [], momTerm [va, vb] []])
  else
    let one_rr : Num := match rho with
      | .fin _ m e => if 0 ≤ e then .fin false (1 + m * m * 2 ^ (2 * e.toNat)) 0 else .fin false (2 ^ (2 * (-e).toNat) + m * m) (2 * e)
      | x => x
    ([momTerm [ma, mb] [], momTerm [rho] [va, vb]],
     [momTerm [ma, ma, vb] [], momTerm [mb, mb, va] [], momTerm [va, vb, one_rr] [], momTerm [numPow 1, rho, ma, mb] [va, vb]])

/-- The terms of a sum or difference (R185). -/
def maddTerms (sub : Bool) (rho ma va mb vb : Num) : List (Ext × Flags) × List (Ext × Flags) :=
  let mb' := if sub then mb.negate else mb
  let r' := if sub then rho.negate else rho
  ([momTerm [ma] [], momTerm [mb'] []],
   [momTerm [va] [], momTerm [vb] []] ++ (if rho.isZero then [] else [momTerm [numPow 1, r'] [va, vb]]))

/-- One thread's moment result: its M64 value, its flags, and whether an input or the result failed (R178, R179). -/
structure MomRes where
  x : Nat
  fl : Flags
  bad : Bool
  deriving DecidableEq, Repr

/-- Both halves the canonical NaN (R176). -/
def momNan : Nat := momPack fmtF32.qnan fmtF32.qnan

/-- Forms a result from the terms of its halves (R175 to R177): `ins` are the values read, a NaN among them makes both
halves NaN; an undefined product or sum in either half sets nv all the same. -/
def momForm (md : Rnd) (k0 k1 : W64) (ins : List Num) (mt vt : List (Ext × Flags)) : Nat × Flags :=
  let (m, f1) := momSum (md == .rdn) mt
  let (v, f2) := momSum (md == .rdn) vt
  if ins.any Num.isNan ∨ m = .nan ∨ v = .nan then (momNan, ((f1 ||| f2) &&& flNv) ||| flIf (ins.any Num.isSig) flNv)
  else
    let rm := roundExt fmtF32 md false k0 m
    let rv := roundExt fmtF32 md false k1 v
    let vb := if rv.bits % 2 ^ 31 = 0 then 0 else rv.bits
    (momPack rm.bits vb, f1 ||| f2 ||| rm.fl ||| rv.fl)

/-- Writes moment results, or raises NEGVAR (R180). -/
def momWrite (c : Ctx) (h : Hdr) (d : Opnd) (ty : Ty) (g : Nat → MomRes) : Res :=
  let xs := (c.acts h).map fun t => (t, g t)
  let bad := xs.any fun x => x.2.bad
  if bad && !c.st.sp.vclamp then .cause 0x20#8
  else .ok (c.dst h d ty (xs.map fun x => (x.1, x.2.x))) (unionFlags (xs.map fun x => x.2.fl)) bad

/-- An instruction of two moment operands (R185). -/
def momBin (h : Hdr) (lat : Nat) (cov : Cov) (rnd : Rnd) (d a b : Opnd) (s : State)
    (g : Num → Num → Num → Num → Num → List (Ext × Flags) × List (Ext × Flags)) : Out :=
  laneOp h lat (uses (refsOf d false) (refsOf a false ++ refsOf b false ++ covRefs s cov)) s fun c =>
    momWrite c h d .m64 fun t =>
      let x := c.st.r.src .m64 t a
      let y := c.st.r.src .m64 t b
      let rho := covRho c.st cov
      let (ma, va, mb, vb) := (meanNum x, varNum (momVar x), meanNum y, varNum (momVar y))
      let (mt, vt) := g rho ma va mb vb
      let (r, fl) := momForm rnd (c.key t 0) (c.key t 1) [rho, ma, va, mb, vb] mt vt
      { x := r, fl := fl, bad := varFails (momVar x) || varFails (momVar y) }

def execMadd (h : Hdr) (cov : Cov) (rnd : Rnd) (d a b : Opnd) (s : State) : Out :=
  momBin h 3 cov rnd d a b s (maddTerms false)

def execMsub (h : Hdr) (cov : Cov) (rnd : Rnd) (d a b : Opnd) (s : State) : Out :=
  momBin h 3 cov rnd d a b s (maddTerms true)

def execMmul (h : Hdr) (cov : Cov) (rnd : Rnd) (d a b : Opnd) (s : State) : Out :=
  momBin h 4 cov rnd d a b s mmulTerms

/-- MFMA: the product's exact moments plus an independent addend, rounded once (R186). -/
def execMfma (h : Hdr) (cov : Cov) (rnd : Rnd) (d a b : Opnd) (s : State) : Out :=
  laneOp h 4 (uses (refsOf d false) (refsOf d false ++ refsOf a false ++ refsOf b false ++ covRefs s cov)) s fun c =>
    momWrite c h d .m64 fun t =>
      let x := c.st.r.src .m64 t a
      let y := c.st.r.src .m64 t b
      let z := c.st.r.src .m64 t d
      let rho := covRho c.st cov
      let (ma, va, mb, vb, mz, vz) := (meanNum x, varNum (momVar x), meanNum y, varNum (momVar y), meanNum z, varNum (momVar z))
      let (mt, vt) := mmulTerms rho ma va mb vb
      let (r, fl) := momForm rnd (c.key t 0) (c.key t 1) [rho, ma, va, mb, vb, mz, vz] (mt ++ [momTerm [mz] []]) (vt ++ [momTerm [vz] []])
      { x := r, fl := fl, bad := varFails (momVar x) || varFails (momVar y) || varFails (momVar z) }

/-- MSCL's constants α and β (R187). -/
def msclConsts (c : Ctx) (t : Nat) (b : Opnd) : Nat × Nat :=
  match b with
  | .k n => ((c.st.r.rdK n.toNat).toNat % 2 ^ 32, (c.st.r.rdK n.toNat).toNat / 2 ^ 32)
  | .pair _ _ => (c.st.r.srcB .f32 t b, c.st.r.srcC .f32 t b)
  | o => (c.st.r.src .f32 t o, 0)

def execMscl (h : Hdr) (rnd : Rnd) (d a b : Opnd) (s : State) : Out :=
  laneOp h 3 (uses (refsOf d false) (refsOf a false ++ refsOf b false)) s fun c =>
    momWrite c h d .m64 fun t =>
      let x := c.st.r.src .m64 t a
      let (al, be) := msclConsts c t b
      let (al, be) := (fmtF32.dec al, fmtF32.dec be)
      let (m, v) := (meanNum x, varNum (momVar x))
      let (r, fl) := momForm rnd (c.key t 0) (c.key t 1) [m, v, al, be] [momTerm [al, m] [], momTerm [be] []] [momTerm [al, al, v] []]
      { x := r, fl := fl, bad := varFails (momVar x) }

/-- MSQR's value (R188, R191). -/
def msqrVal (rnd : Rnd) (k0 k1 : W64) (m v : Num) : Nat × Flags :=
  if !(m.isNan || v.isNan) && (m.isInf || v.isInf) then (momPack (fmtF32.infBits false) (fmtF32.infBits false), flNone)
  else momForm rnd k0 k1 [m, v] [momTerm [m, m] [], momTerm [v] []] [momTerm [numPow 1, v, v] [], momTerm [numPow 2, m, m, v] []]

def execMsqr (h : Hdr) (rnd : Rnd) (d a : Opnd) (s : State) : Out :=
  laneOp h 4 (uses (refsOf d false) (refsOf a false)) s fun c =>
    momWrite c h d .m64 fun t =>
      let x := c.st.r.src .m64 t a
      let (r, fl) := msqrVal rnd (c.key t 0) (c.key t 1) (meanNum x) (varNum (momVar x))
      { x := r, fl := fl, bad := varFails (momVar x) }

/-- The result of MRLU, MEXP or MPHI: NaN inputs (R176), infinite inputs (R191), v = 0 (R188), else two encodings within
the bounds of R190: `km` and `kv` ulp of mean and variance, with 2^-22 of the square of the mean where `more` says so. A
failing result variance is replaced by +0 (R179, R180). -/
def momFun (inf : Bool → Bool → Bool → Nat × Nat) (zero : Num → Nat → Rounded) (exact : Apx → Apx → Apx × Apx)
    (km kv : Nat) (more : Bool) (free : Nat → Nat → Nat × Nat) (x : Nat) : MomRes :=
  let mb := momMean x
  let v := varNum (momVar x)
  let m := fmtF32.dec mb
  let inBad := varFails (momVar x)
  if m.isNan || v.isNan then { x := momNan, fl := flIf (m.isSig || v.isSig) flNv, bad := inBad }
  else if m.isInf || v.isInf then
    let (rm, rv) := inf m.isInf m.neg v.isInf
    { x := momPack rm (if m.isInf && !v.isInf && rv = 1 then (if v.isZero then 0 else momVar x) else rv), fl := flNone, bad := inBad }
  else if v.isZero then
    let r := zero m mb
    { x := momPack r.bits 0, fl := r.fl, bad := inBad }
  else
    let (fm, fv) := free mb (momVar x)
    let (em, ev) := exact m.apx v.apx
    let rm := boundRound fmtF32 km (0, 0) em fm
    let rv := boundRound fmtF32 kv (if more then (em.1 * em.1, 2 * em.2 - 22) else (0, 0)) ev fv
    let outBad := varFails rv.bits
    { x := momPack rm.bits (if outBad || rv.bits % 2 ^ 31 = 0 then 0 else rv.bits), fl := rm.fl ||| rv.fl, bad := inBad || outBad }

/-- A tracked moment function. -/
def momFunOp (h : Hdr) (d a : Opnd) (s : State) (g : Nat → MomRes) : Out :=
  laneOpT h (usesT (refsOf d false) (refsOf a false)) s fun c => momWrite c h d .m64 fun t => g (c.st.r.src .m64 t a)

def posInf : Nat := fmtF32.infBits false

/-- MRLU's free encodings, but for the input (+0, 1), whose result the manual states (R294). -/
def mrluFree (m v : Nat) : Nat × Nat := if m = 0 ∧ v = 0x3F800000 then (0x3ECC422A, 0x3EAE833E) else Config.mrlu m v

/-- MEXP's free encodings: its variance is never below zero (R179, R189). -/
def mexpFree (m v : Nat) : Nat × Nat := ((Config.mexp m v).1, (Config.mexp m v).2 % 2 ^ 31)

/-- MRLU (R188, R191). -/
def mrluVal (x : Nat) : MomRes :=
  momFun
    (fun mi mn vi =>
      if vi then (posInf, posInf)
      else if mi && !mn then (posInf, 1) else (0, 0))
    (fun m mb => { bits := (match m with | .fin false k _ => if k = 0 then 0 else mb | _ => 0), fl := flNone })
    apxMrlu 2 4 true mrluFree x

/-- MEXP (R188, R191); exp of a zero is 1 exactly. -/
def mexpVal (x : Nat) : MomRes :=
  momFun
    (fun mi mn vi => if vi then (posInf, posInf) else if mi && mn then (0, 0) else (posInf, posInf))
    (fun m mb => if m.isZero then { bits := oneBits fmtF32 false, fl := flNone } else boundRound fmtF32 2 (0, 0) (apxClamp (apxExp m.apx)) (mexpFree mb 0).1)
    apxMexp 2 2 false mexpFree x

/-- MPHI (R188, R191); at v = 0 the mean has the bits of FPHI. -/
def mphiVal (x : Nat) : MomRes :=
  momFun
    (fun mi mn _ => if mi then (if mn then (0, 0) else (oneBits fmtF32 false, 0)) else (0x3F000000, 0x3E800000))
    (fun _ mb => fPhi .f32 mb)
    apxMphi 2 4 true Config.mphi x

def execMrlu (h : Hdr) (d a : Opnd) (s : State) : Out := momFunOp h d a s mrluVal
def execMexp (h : Hdr) (d a : Opnd) (s : State) : Out := momFunOp h d a s mexpVal
def execMphi (h : Hdr) (d a : Opnd) (s : State) : Out := momFunOp h d a s mphiVal

/-- MMOV (R182). -/
def execMmov (h : Hdr) (d a : Opnd) (s : State) : Out :=
  laneOp h 1 (uses (refsOf d false) (refsOf a false)) s fun c => valRes0 c h d .m64 fun t => c.st.r.src .m64 t a

/-- MPUT's variance (R183): -0 and a failing value become +0, a NaN the canonical one. -/
def mputVar (v : Nat) : Nat × Flags :=
  match fmtF32.dec v with
  | .nan s => (fmtF32.qnan, flIf s flNv)
  | .inf s => (if s then 0 else v, flNone)
  | .fin s _ _ => (if s then 0 else v, flNone)

def execMput (h : Hdr) (d a b : Opnd) (s : State) : Out :=
  laneOp h 1 (uses (refsOf d false) (refsOf a false ++ refsOf b false)) s fun c =>
    momWrite c h d .m64 fun t =>
      let m := c.st.r.src .f32 t a
      let v := c.st.r.src .f32 t b
      let (v', fl) := mputVar v
      { x := momPack m v', fl := fl, bad := varFails v }

/-- MGET (R184). -/
def execMget (h : Hdr) (sel : MgetSel) (d a : Opnd) (s : State) : Out :=
  let ty : Ty := if sel == .both then .b64 else .b32
  laneOp h 1 (uses (refsOf d (sel == .both)) (refsOf a false)) s fun c =>
    valRes0 c h d ty fun t =>
      let x := c.st.r.src .m64 t a
      match sel with
      | .mu => momMean x
      | .var => momVar x
      | .both => x

/-- MCLP's value (R192, R193). -/
def mclpVal (sel : MclpSel) (rnd : Rnd) (key : W64) (m v : Num) (z : Num) : Nat × Flags :=
  let ins := [m, v] ++ (match sel with | .mean | .sdev => [] | _ => [z])
  let ts := match sel with
    | .mean => [momTerm [m] []]
    | .sdev => [momTerm [] [v]]
    | .bound | .sample => [momTerm [m] [], momTerm [z] [v]]
  let (x, fl) := momSum (rnd == .rdn) ts
  if ins.any Num.isNan then (fmtF32.qnan, (fl &&& flNv) ||| flIf (ins.any Num.isSig) flNv)
  else
    let r := roundExt fmtF32 rnd false key x
    (r.bits, r.fl ||| fl)

def execMclp (h : Hdr) (sel : MclpSel) (rnd : Rnd) (d a b : Opnd) (s : State) : Out :=
  laneOp h 5 (uses (refsOf d false) (refsOf a false ++ refsOf b false)) s fun c =>
    momWrite c h d .f32 fun t =>
      let x := c.st.r.src .m64 t a
      let z := fmtF32.dec (c.st.r.src .f32 t b)
      let (r, fl) := mclpVal sel rnd (c.key t 0) (meanNum x) (varNum (momVar x)) z
      { x := r, fl := fl, bad := varFails (momVar x) }

/-- MCHK's test (R194). -/
def mchkVal (sel : MchkSel) (x : Nat) : Bool :=
  let m := meanNum x
  let v := fmtF32.dec (momVar x)
  match sel with
  | .vneg => varFails (momVar x)
  | .nan => m.isNan || v.isNan
  | .inf => m.isInf || v.isInf
  | .bad => varFails (momVar x) || m.isNan || v.isNan

def execMchk (h : Hdr) (sel : MchkSel) (d a : Opnd) (s : State) : Out :=
  laneOp h 4 (uses (refsOf d false) (refsOf a false)) s fun c =>
    valRes0 c h d .b32 fun t => (mchkVal sel (c.st.r.src .m64 t a)).toNat

end Sys2Proof.Machine
end

