-- ==== Sys2Proof/Machine/Access.lean ====
section
/-!
DEFINITION. What the memory instructions share: addresses (R226), the threads that access (R228), translation and its
checks (R306), the region store buffer (R320, R324), the write-combining buffer (R332, R419), the sources of a load
(R335), and the waits of releases (R337) and acquires (R338).
-/
namespace Sys2Proof.Machine

/-! ## Fragments that wait -/

/-- The fragment issues its instruction again in a later window: a condition of the ordering chapter does not hold yet. -/
def stay (s : State) (sid f : Nat) : State :=
  s.updFrag sid f fun fr => { fr with st := .stalled, wait := .gap, gap := 1 }

/-- The fragment becomes READY at its word. -/
def State.ready (s : State) (sid f : Nat) : State :=
  match nmGet s.strands sid with
  | none => s
  | some st => s.updFrag sid f fun fr => { fr with st := .ready, wait := .none, gap := 0, evt := 0#64, since := s.now st }

/-- Whether a wait for pending marks is over (R44). -/
def Wait.over (w : Wait) (st : Strand) : Bool :=
  match w with
  | .wsb rs => !st.marked rs
  | .marks => !st.anyTracked
  | .trackedFull => decide (st.trackedCount < 16)
  | _ => false

/-- After a mark has cleared: fragments whose wait for marks is over issue again (R44), waiting causes are taken (R80), fences
that waited for the buffer go on (R247), an abort goes on (R322), and a strand whose threads are all gone is over (R73). -/
def afterLand (s : State) (sid : Nat) : State :=
  match nmGet s.strands sid with
  | none => s
  | some st =>
    let s1 := st.frags.foldl (fun (s : State) (e : Nat × Frag) => if e.2.wait.over st then s.ready sid e.1 else s) s
    finishStrand (abortTry (drainWake (trapsReady s1 sid) sid) sid) sid

/-! ## Ordering markers -/

/-- A command of a batch that an ordering marker follows has not taken effect yet (R399): at a Vat, in a mark queue, in an
engine's queue, in the reservation table, or still waiting for an entry. -/
def earlierOpen (s : State) (batch id : Nat) : Bool :=
  let sids := ((nmGet s.batches batch).map (·.sids)).getD []
  let eng := fun (q : List EngCmd) => q.any fun x => x.batch == batch && decide (x.id < id)
  s.marks.any (fun x => x.batch == batch && decide (x.id < id) && !x.todo.isEmpty)
  || s.cores.any (fun e => eng e.2.copyQ || eng e.2.gathQ || e.2.markQ.any fun x => x.req != .omrk && sids.contains x.sid && decide (x.id < id))
  || s.dies.any (fun e => e.2.mat.any (fun x => sids.contains x.sid && decide (x.id < id)) || e.2.coll.any fun x => x.batch == batch && decide (x.id < id))
  || sids.any fun sid => ((nmGet s.strands sid).map fun st => st.frags.any fun f => match f.2.wait with | .cmd r q => r != .omrk && decide (q < id) | _ => false).getD false

/-- The opcode of OMRK, by which a marker stands among the commands sent. -/
def opOmrk : Nat := 0x3CE

/-- The ordering markers of a batch: sent, in a mark queue, or waiting for an entry of one (R399). -/
def omrks (s : State) (batch : Nat) : List Nat :=
  let sids := ((nmGet s.batches batch).map (·.sids)).getD []
  ((s.marks.filter fun m => m.mn == opOmrk && m.batch == batch).map (·.id))
    ++ (s.cores.flatMap fun e => (e.2.markQ.filter fun x => x.req == .omrk && sids.contains x.sid).map (·.id))
    ++ sids.flatMap fun sid => ((nmGet s.strands sid).map fun st => st.frags.filterMap fun f => match f.2.wait with
      | .cmd r q => if r = .omrk then some q else none
      | _ => none).getD []

/-- Whether a marker of its batch holds a command back (R399). -/
def omrkHolds (s : State) (batch id : Nat) : Bool :=
  (omrks s batch).any fun m => decide (m < id) && earlierOpen s batch m

/-! ## Addresses -/

/-- The offset part of an address (R226). -/
def Ctx.offset (c : Ctx) (b : Opnd) (t : Nat) : Nat :=
  match b with
  | .v n => (c.st.r.rdV n.toNat t).toNat
  | .k n => (c.st.r.rdK n.toNat).toNat
  | .imm x => toWrap 64 x.toInt
  | _ => 0

/-- A scratchpad offset (R226). -/
def Ctx.scrAddr (c : Ctx) (a b : Opnd) (t : Nat) : Nat :=
  let base := match a with
    | .v n => (c.st.r.rdV n.toNat t).toNat
    | .k n => (c.st.r.rdK n.toNat).toNat
    | _ => 0
  (base + c.offset b t) % 2 ^ 32

/-- A global virtual address (R226). -/
def Ctx.gblAddr (c : Ctx) (a b : Opnd) (t : Nat) : Nat :=
  let base := match a with
    | .v _ => c.st.r.src .b64 t a
    | .k n => (c.st.r.rdK n.toNat).toNat
    | _ => 0
  (base + c.offset b t) % 2 ^ 64

/-- An operand that supplies no per-thread value. -/
def onceOpnd : Opnd → Bool
  | .k _ => true
  | .imm _ => true
  | .none => true
  | _ => false

/-- The threads that access (R228): the leader once under UNI or when no operand is per-thread, otherwise the acting
threads; none when none act. -/
def Ctx.memActs (c : Ctx) (h : Hdr) (ops : List Opnd) : List Nat :=
  let on := c.acts h
  if on.isEmpty then [] else if !h.uni && ops.all onceOpnd then c.leader.toList else on

/-- Bytes of a type in memory (R227). -/
def tyBytes (ty : Ty) : Nat := ty.width / 8

/-- The register value of a loaded encoding (R88, R229). -/
def ldVal (ty : Ty) (x : Nat) : Nat := if ty.isInt then intWrite ty (intRead ty x) else x % 2 ^ ty.width

/-- The bytes that a store takes from D for thread t (R229). -/
def Ctx.stBytes (c : Ctx) (ty : Ty) (t : Nat) (d : Opnd) : List Byte := leBytes (tyBytes ty) (c.st.r.src ty t d)

/-! ## Translation with its checks -/

/-- One element of an access: thread, address, length. -/
structure Elem where
  t : Nat
  va : Nat
  len : Nat
  deriving DecidableEq, Repr

/-- A translated element. -/
structure Place where
  t : Nat
  p : Piece
  e : Tlb
  deriving DecidableEq, Repr

/-- The lane thread slot of a thread (R304). -/
def Strand.tslot (st : Strand) (t : Nat) : Nat := st.lane * 8 + t % 8

/-- Translates the elements of a strand's access in order (R304, R306, R313); the first that fails takes its cause. -/
def xlateElems (s : State) (c : Ctx) (write : Bool) : List Elem → (State × List Place) ⊕ State
  | [] => .inl (s, [])
  | x :: xs =>
    match coreXlate s c.st.core (c.st.tslot x.t) (s.asid c.st) c.st.batch x.va with
    | (.ok e, s1) =>
      if write && !e.w then .inr (endJobAt s1 c.sid c.f 0x47#8 [])
      else
        match xlateElems s1 c write xs with
        | .inl (s2, ps) => .inl (s2, { t := x.t, p := e.piece x.va x.len, e := e } :: ps)
        | .inr s2 => .inr s2
    | (.lockMiss, s1) => .inr (raiseUser s1 c.sid c.f 0x43#8 none)
    | (r, s1) => .inr (strandXFail s1 c.sid c.f x.va r)

/-- Global elements of one width: alignment first (R227), then translation, then the format rule of `bad`. -/
def gblPlaces (s : State) (c : Ctx) (write : Bool) (w : Nat) (bad : Nat → Bool) (xs : List Elem) : (State × List Place) ⊕ State :=
  if xs.any fun x => x.va % w != 0 then .inr (raiseUser s c.sid c.f 0x41#8 none)
  else
    match xlateElems s c write xs with
    | .inr s' => .inr s'
    | .inl (s', ps) => if ps.any fun p => bad p.e.fmt then .inr (raiseUser s' c.sid c.f 0x42#8 none) else .inl (s', ps)

/-! ## The region store buffer -/

/-- The key of the sector that holds a physical byte. -/
def sectorKey (home pa : Nat) : Nat := pkey home (pa / 32 * 32)

/-- The sectors of a piece: virtual address and key. -/
def Piece.sectors (p : Piece) : List (Nat × Nat) :=
  (List.range ((p.pa + p.len + 31) / 32 - p.pa / 32)).map fun i => (p.va / 32 * 32 + 32 * i, pkey p.home (p.pa / 32 * 32 + 32 * i))

/-- The bytes of a piece within one of its sectors. -/
def Piece.inSector (p : Piece) (key : Nat) (bs : List Byte) : List (Nat × Byte) :=
  (bs.zipIdx.map fun (b, i) => (pkey p.home (p.pa + i), b)).filter fun e => e.1 / 32 == key / 32

/-- The open entry that merges stores to a sector (R320); carried entries take no new store (R325). -/
def RsbEnt.takes (e : RsbEnt) (key : Nat) : Bool := e.open && !e.carried && sectorKey e.home e.pa == key

/-- The place that a piece of an access gives a sector of virtual memory: key, home, page kind. -/
def placeOf (ps : List Piece) (va : Nat) : Option (Nat × Nat × Nat) :=
  ps.findSome? fun p => (p.sectors.find? (·.1 == va)).map fun k => (k.2, p.home, p.ord)

/-- A stale entry lies elsewhere than an access to its addresses goes (R317). -/
def Strand.misplaced (st : Strand) (ps : List Piece) : Bool :=
  st.rsb.any fun e => e.stale && match placeOf ps e.va with | some k => k.1 != sectorKey e.home e.pa | none => false

/-- Stale entries move to where an access to their addresses goes, so that the strand finds its own bytes there and merges with
them (R320, R335). They stay stale: their page is checked as they commit (R321). -/
def Strand.rekey (st : Strand) (ps : List Piece) : Strand :=
  { st with rsb := st.rsb.map fun (e : RsbEnt) => if e.stale then (match placeOf ps e.va with
      | some (k, home, ord) => { e with pa := k % 2 ^ 52, home := home, ord := ord }
      | none => e) else e }

/-- Puts bytes of one thread of the store q into an entry (R320): a later store replaces a byte; on a DETERM page only the same
thread's. -/
def RsbEnt.put (e : RsbEnt) (t q : Nat) (bs : List (Nat × Byte)) : RsbEnt :=
  let fresh := bs.map fun x => ({ off := x.1 % 32, b := x.2, t := t, q := q } : RsbByte)
  { e with bytes := (e.bytes.filter fun b => !(fresh.any fun x => x.off == b.off && (e.ord != 3 || x.t == b.t))) ++ fresh }

/-- Buffers bytes of one thread of the store q in a sector of the strand's share. -/
def Strand.buffer (st : Strand) (id : Nat) (t q : Nat) (p : Piece) (va key : Nat) (bs : List (Nat × Byte)) : Strand :=
  if st.rsb.any (·.takes key) then { st with rsb := st.rsb.map fun (e : RsbEnt) => if e.takes key then e.put t q bs else e }
  else
    let e : RsbEnt := { id := id, va := va, pa := key % 2 ^ 52, home := p.home, ord := p.ord, bytes := [], stale := false, ready := false,
                        hold := none, carried := false, stamp := id, fmt := p.fmt }
    { st with rsb := st.rsb ++ [e.put t q bs] }

/-- A store's piece with its thread and bytes. -/
structure StoreReq where
  t : Nat
  p : Piece
  bs : List Byte
  deriving DecidableEq, Repr

/-- The new entries that a list of stores needs. -/
def Strand.needs (st : Strand) (xs : List StoreReq) : Nat :=
  ((xs.flatMap fun x => x.p.sectors.map (·.2)).eraseDups.filter fun k => !(st.rsb.any (·.takes k))).length

/-- Entries in use on a core (R320). -/
def rsbUsed (s : State) (c : Nat) : Nat :=
  (s.strands.filter fun e => e.2.core == c && e.2.st != .saved).foldl (fun n e => n + e.2.rsb.length) 0

/-- Whether a core's buffer holds an entry that is ready to drain (R324): a committed one, or one held for a phase that has
completed. -/
def rsbReady (s : State) (c : Nat) : Bool :=
  s.strands.any fun e => e.2.core == c && e.2.st != .saved && e.2.rsb.any fun x => match x.hold with
    | some h => phaseOver s h
    | none => x.ready

/-- The forced commit of R324: the buffered entries become ready to drain, and the region's tail is unsafe. -/
def forceCommit (s : State) (sid f : Nat) : State × Bool :=
  match nmGet s.strands sid with
  | none => (s, true)
  | some st =>
    match validateAll s sid f st.curTeam .phase st (st.rsb.filter RsbEnt.open) with
    | .inr s' => (s', false)
    | .inl (s', es) =>
      let (q, s') := s'.tick
      let es := mergeDet es
      let done := es.map fun (e : RsbEnt) => { e with ready := true, carried := false, stamp := q }
      (s'.updStrand sid fun x =>
        { x with rsb := (x.rsb.filter fun e => !e.open) ++ done, tail := true, log := x.log ++ es.flatMap RsbEnt.sig }, true)

/-- The fragment waits for a buffer entry (R324); its store issues again. -/
def waitRsb (s : State) (sid f : Nat) : State :=
  s.updFrag sid f fun fr => { fr with st := .blocked, wait := .rsb, evt := 0#64 }

/-- Enters the stores of one instruction into the strand's share, in thread order. -/
def bufferAll (s : State) (sid : Nat) (xs : List StoreReq) : State :=
  let q := s.seq
  xs.foldl (fun s x =>
    x.p.sectors.foldl (fun s k =>
      let (id, s1) := s.tick
      s1.updStrand sid fun st => st.buffer id x.t q x.p k.1 k.2 (x.p.inSector k.2 x.bs)) s) s

/-- The room that stores find (R324): they enter, or a commit is forced, or they wait. The flag is true when they may
enter now. -/
def rsbRoom (s : State) (sid f : Nat) (xs : List StoreReq) : State × Bool :=
  match nmGet s.strands sid with
  | none => (s, false)
  | some st =>
    let need := st.needs xs
    if need = 0 then (s, true)
    else if 64 < st.rsb.length + need then
      if st.rsb.any RsbEnt.open then
        match forceCommit s sid f with
        | (s1, true) => (waitRsb s1 sid f, false)
        | (s1, false) => (s1, false)
      else (waitRsb s sid f, false)
    else if 16384 < rsbUsed s st.core + need then
      if !rsbReady s st.core && st.rsb.any RsbEnt.open then
        match forceCommit s sid f with
        | (s1, true) => (waitRsb s1 sid f, false)
        | (s1, false) => (s1, false)
      else (waitRsb s sid f, false)
    else (s, true)

/-! ## Operations in flight -/

/-- An acquire of the strand has not been performed yet: its later accesses wait for it (R338). -/
def Strand.acquiring (st : Strand) : Bool := st.pend.any fun p => p.op.isAcq

/-- A STRONG access of the strand is in flight (R342). -/
def Strand.strongBusy (st : Strand) : Bool := st.pend.any fun p => p.op.strong

/-- A later access of the same thread to bytes of one in flight (R333). -/
def Strand.overlaps (st : Strand) (t : Nat) (ks : List Nat) : Bool :=
  st.pend.any fun p => p.op.accs.any fun a => a.t == t && a.keys.any ks.contains

/-- A signal of the strand to one of these bytes has not been applied: its later accesses to them wait (R333). -/
def sigPending (s : State) (sid : Nat) (ks : List Nat) : Bool :=
  s.fab.pkts.any fun k => k.sid == sid && match k.body with
    | .csig pa _ _ => (let home := if k.src = k.dst then 0 else k.dst + 1; (List.range 8).any fun i => ks.contains (pkey home (pa + i)))
    | _ => false

/-- Loads of the strand that have not been performed (R339). -/
def Strand.loading (st : Strand) : Bool := st.pend.any fun p => p.op != .none && !p.op.isStore

/-! ## The write-combining buffer and packets -/

/-- A packet of this module to a home that is not applied yet (R333, R336). -/
def pktsTo (s : State) (home : Nat) : Bool := s.fab.pkts.any fun k => k.src == s.module.toNat && k.dst + 1 == home

/-- The key of a pair of modules in the fabric's tables. -/
def pairKey (src dst : Nat) : Nat := src * 4096 + dst

/-- A pair of modules holds 4096 unacknowledged numbers (R411). -/
def pairFull (s : State) (home : Nat) : Bool :=
  decide (4096 ≤ (s.fab.pkts.filter fun k => k.src == s.module.toNat && k.dst + 1 == home).length)

/-- A packet takes the next number of its pair and enters F (R336, R411). -/
def sendPkt (s : State) (k : Pkt) : State :=
  let key := pairKey k.src k.dst
  let n := (nmGet s.fab.next key).getD 0
  { s with seq := s.seq + 1
           fab := { s.fab with pkts := s.fab.pkts ++ [{ k with num := n, seq := s.seq }], next := nmSet s.fab.next key ((n + 1) % 2 ^ 32) } }

/-- An access of an engine to a home whose earlier packets are all applied: its packet is sent and applied in one step, and
takes its number (R350, R411); k is what carries its bytes (R410). -/
def passPkt (s : State) (home : Nat) (k : Traffic) : State :=
  if home = 0 then s
  else
    let key := pairKey s.module.toNat (home - 1)
    let n := (nmGet s.fab.next key).getD 0
    { s with fab := { s.fab with
        next := nmSet s.fab.next key ((n + 1) % 2 ^ 32)
        applied := nmSet s.fab.applied key ((n + 1) % 2 ^ 32)
        passed := s.fab.passed + k.payload } }

/-- The line leaves WCB(c), enters F, and overwrites RLB copies of its bytes (R336); it holds a transaction entry (R355). -/
def sendLine (s : State) (c : Nat) (l : WcbLine) : State :=
  let jobs := (l.sids.filterMap fun x => (nmGet s.strands x).map (·.job)).eraseDups
  let st := (l.sids.head?).bind (nmGet s.strands ·)
  let s1 := sendPkt s { src := s.module.toNat, dst := l.home - 1, num := 0, seq := 0, core := c, jobs := jobs, sid := l.sids.headD 0,
                        pc := 0#57, mask := 0#32, slot := (st.map (·.slot)).getD 0,
                        body := .line l.pa (l.bytes.map fun b => (l.pa + b.1, b.2)) l.unord }
  let s2 := jobs.foldl (fun s j => s.carry j .writeLine) s1
  s2.updCore c fun x =>
    rlbWrite { x with wcb := x.wcb.filter (·.id != l.id), ott := x.ott + 1 } (l.bytes.map fun b => (pkey l.home (l.pa + b.1), b.2))

/-- A line that is to be sent takes a transaction entry, and leaves when a number of its pair is free; until then it waits with
its entry (R355, R411). -/
def trySend (s : State) (c : Nat) (l : WcbLine) : State :=
  if !l.wait && decide (256 ≤ ottUsed s c) then s
  else if pairFull s l.home then
    s.updCore c fun x => { x with wcb := x.wcb.map fun (y : WcbLine) => if y.id == l.id then { y with wait := true } else y }
  else sendLine s c l

/-- The line of a write-combining buffer that covers an address. -/
def Core.lineOf (x : Core) (home pa : Nat) : Option WcbLine := x.wcb.find? fun l => l.home == home && l.pa == pa / 128 * 128

/-- A drain to a remote address finds its line or room for a new one; with all 64 lines in use the oldest is sent first
(R336). -/
def wcbRoom (s : State) (c home pa : Nat) : State × Bool :=
  if home = 0 ∨ ((s.core c).lineOf home pa).isSome ∨ (s.core c).wcb.length < 64 then (s, true)
  else match (s.core c).wcb with
    | l :: _ => (let s1 := trySend s c l; (s1, decide ((s1.core c).wcb.length < 64)))
    | [] => (s, true)

/-- Merges bytes of one remote sector into the WCB line of their address, or makes a line (R336). -/
def wcbPut (s : State) (c sid home : Nat) (unord : Bool) (bs : List (Nat × Byte)) : State :=
  match bs with
  | [] => s
  | (a, _) :: _ =>
    let line := a % 2 ^ 52 / 128 * 128
    let put := fun (old : List (Nat × Byte)) => (old.filter fun o => !(bs.any fun b => b.1 % 128 == o.1)) ++ bs.map fun b => (b.1 % 128, b.2)
    match (s.core c).lineOf home line with
    | some l =>
      s.updCore c fun x => { x with wcb := x.wcb.map fun (y : WcbLine) =>
        if y.id == l.id then { y with bytes := put y.bytes, sids := (y.sids ++ [sid]).eraseDups, unord := y.unord && unord } else y }
    | none =>
      let (q, s) := s.tick
      s.updCore c fun x =>
        { x with wcb := x.wcb ++ [{ id := q, home := home, pa := line, bytes := put [], born := x.cycle, sids := [sid], unord := unord, wait := false }] }

/-- Bytes of one sector drain (R336): local ones into P(d), remote ones into the write-combining buffer. -/
def drainBytes (s : State) (c sid : Nat) (home : Nat) (unord : Bool) (bs : List (Nat × Byte)) (acc : Nat → Nat := fun _ => 0) : State :=
  if home = 0 then putLocal s c sid unord bs acc else wcbPut s c sid home unord bs

/-- Bytes of any number of sectors drain, sector by sector. -/
def drainCells (s : State) (c sid : Nat) (home : Nat) (unord : Bool) (bs : List (Nat × Byte)) : State :=
  ((bs.map (·.1 / 32)).eraseDups).foldl (fun s k => drainBytes s c sid home unord (bs.filter fun x => x.1 / 32 == k)) s

/-- Whether a number of sectors of one home finds no room in a core's transaction table as they drain (R355): a remote sector
takes its entry with its line. -/
def drainFull (s : State) (c home n : Nat) : Bool := home == 0 && decide (256 < ottUsed s c + n)

/-! ## Access tables (R418, R450) -/

/-- The masters of an access table: functions by number, harts from 0x100, peer modules from 0x1000 (R450). -/
def masterHart (h : Nat) : Nat := 0x100 + h
def masterPeer (m : Nat) : Nat := 0x1000 + m

/-- The fabric ingress of a module as a unit with an access table; other units lie below 0x10000. -/
def unitIngress (m : Nat) : Nat := 0x10000 + m

/-- The key of a window. -/
def accKey (unit master win : Nat) : Nat := (unit * 8192 + master % 8192) * 16 + win % 16

/-- Whether a window of a master admits an access (R450). -/
def admitted (s : State) (unit master pa len : Nat) (wr : Bool) : Bool :=
  (List.range 16).any fun i => match nmGet s.host.access (accKey unit master i) with
    | some w => decide (w.base ≤ pa) && decide (pa + len ≤ w.base + w.len) && (if wr then w.wr else w.rd)
    | none => false

/-- Whether the region controller of an address admits a hart's access (R450). -/
def hartMay (s : State) (hart pa len : Nat) (wr : Bool) : Bool := admitted s (Config.regionOf pa) (masterHart hart) pa len wr

/-- The event that reports a refused hart access to a unit to H3 (R450). -/
def hartRefused (s : State) (hart unit pa : Nat) (wr : Bool) : State := s.event 0xE4#8 [hart, unit, pa, wr.toNat]

/-- The same for the module's memory. -/
def hartDenied (s : State) (hart pa : Nat) (wr : Bool) : State := hartRefused s hart (Config.regionOf pa) pa wr

/-- A hart's write to the module's memory, where its table admits it (R450). -/
def hartWrite (s : State) (hart pa : Nat) (bs : List Byte) : State :=
  if hartMay s hart pa bs.length true then { s with mem := wrMN s.mem pa bs } else hartDenied s hart pa true

/-- The host's read gives bytes (R440, R450). -/
def State.hostReads (s : State) (bs : List Byte) : State := { s with host := { s.host with rdata := bs } }

/-- A host access of n bytes that no window admits (R450): a read completes with all ones, a write is discarded, and H5 logs it
(log 57). -/
def hostDenied (s : State) (fn unit pa len : Nat) (wr : Bool) : State :=
  let s1 := s.event 0x00#8 [fn, unit, pa, wr.toNat]
  if wr then s1 else s1.hostReads (List.replicate len 0xFF#8)

/-- The register blocks as units with access tables (R450, log 60): the control blocks of cores, dies, Vats and fabric ports from
0, 0x1000, 0x2000 and 0x3000 on, the functions' first memory BARs from 0x4000 on, and the module's own block 0x5000. -/
def unitRegs (b : Nat) : Nat := 0x20000 + b

/-- A register as its access tables see it: who writes it, the blocks that hold it, its offset there and its length in bytes. -/
structure RegAt where
  master : Nat
  blocks : List Nat
  off : Nat
  len : Nat
  deriving DecidableEq, Repr

/-- A queue register or doorbell of a function (R441), which the function writes. -/
def barAt (fn off len : Nat) : RegAt := { master := fn, blocks := [0x4000 + fn], off := off, len := len }

/-- A register that a hart writes; where the spec gives no offset it is taken as 0 (log 60). -/
def hartAt (hart : Nat) (blocks : List Nat) (off len : Nat) : RegAt := { master := masterHart hart, blocks := blocks, off := off, len := len }

/-- The first block whose table refuses the register's writer (R450). -/
def State.regRefuses (s : State) (r : RegAt) (wr : Bool) : Option Nat :=
  r.blocks.find? fun b => !admitted s (unitRegs b) r.master r.off r.len wr

/-- A register write, where the tables admit it; a refused write of a function is discarded and logged, one of a hart is
reported to H3 (R450). -/
def State.regWrite (s : State) (r : RegAt) (put : State → State) : State :=
  match s.regRefuses r true with
  | none => put s
  | some b =>
    if r.master < masterHart 0 then hostDenied s r.master (unitRegs b) r.off r.len true
    else hartRefused s (r.master - masterHart 0) (unitRegs b) r.off true

/-- Whether the home admits an access of this module to bytes of a page (R418); local pages need none. -/
def homeAdmits (s : State) (home pa len : Nat) (rd wr : Bool) : Bool :=
  let ok := admitted s (unitIngress (home - 1)) (masterPeer s.module.toNat) pa len
  home == 0 || ((!rd || ok false) && (!wr || ok true))

/-- Word 3 of the record of REMOTE_DENIED: the home and the refused line (R460). -/
def deniedWord (home pa : Nat) : W64 := w64n ((home - 1) * 2 ^ 52 + pa / 128 * 128)

/-- The first piece that its home refuses. -/
def refusedPiece (s : State) (ps : List Piece) (rd wr : Bool) : Option Piece := ps.find? fun p => !homeAdmits s p.home p.pa p.len rd wr

/-! ## Loads -/

/-- The strand's own buffered byte, as a load of thread t on a page kind sees it (R335). -/
def Strand.buffered (st : Strand) (ord t key : Nat) : Option Byte :=
  (st.rsb.reverse.findSome? fun e =>
    if pkey e.home e.pa / 32 == key / 32 then
      if e.ord == 3 || ord == 3 then e.bytes.find? fun b => b.off == key % 32 && b.t == t
      else e.final.find? fun b => b.off == key % 32
    else none).map (·.b)

/-- The byte of a WCB line (R335). -/
def Core.wcbByte (c : Core) (home key : Nat) : Option Byte :=
  let pa := key % 2 ^ 52
  ((c.wcb.find? fun l => l.home == home && l.pa == pa / 128 * 128).bind fun l => l.bytes.find? (·.1 == pa % 128)).map (·.2)

/-- The byte of an RLB copy (R335). -/
def Core.rlbByte (c : Core) (key : Nat) : Option Byte := (nmGet c.rlb (key / 32 * 32)).bind fun l => l[key % 32]?

/-- One byte of a load by R335; a STRONG page is read at M (R342). -/
def loadByte (s : State) (st : Strand) (t ord home key : Nat) : Byte :=
  if ord = 0 then rdM1 s.mem key
  else
    match st.buffered ord t key with
    | some b => b
    | none =>
      let co := s.core st.core
      match (if home = 0 then none else co.wcbByte home key) with
      | some b => b
      | none =>
        match co.rlbByte key with
        | some b => b
        | none => srcByte s st.core key

/-- The bytes of a piece, as a load of thread t reads them. -/
def loadPiece (s : State) (st : Strand) (t : Nat) (p : Piece) : List Byte := p.keys.map (loadByte s st t p.ord p.home)

/-- The bytes of a piece that neither the strand's buffer nor a write-combining line holds. -/
def openKeys (s : State) (st : Strand) (t : Nat) (p : Piece) : List Nat :=
  p.keys.filter fun k => (st.buffered p.ord t k).isNone && (p.home == 0 || ((s.core st.core).wcbByte p.home k).isNone)

/-- Sectors that a load read from source 4 enter RLB(c) (R335). -/
def installRlb (s : State) (st : Strand) (t : Nat) (p : Piece) : State :=
  if p.ord = 0 then s
  else
    p.sectors.foldl (fun s k =>
      if ((openKeys s st t p).any fun x => x / 32 == k.2 / 32) && (nmGet (s.core st.core).rlb k.2).isNone then
        s.updCore st.core fun x => x.fillRlb k.2 (sectorNow s st.core k.2)
      else s) s

/-- A WCB line that holds some but not all of the bytes of a remote load: it is sent first (R335). -/
def partLine (s : State) (st : Strand) (t : Nat) (p : Piece) : Option WcbLine :=
  if p.home = 0 ∨ p.ord = 0 then none
  else
    let co := s.core st.core
    let ks := p.keys.filter fun k => (st.buffered p.ord t k).isNone
    let hit := ks.filter fun k => (co.wcbByte p.home k).isSome
    if hit.isEmpty || hit.length == ks.length then none else co.lineOf p.home p.pa

/-- Sends a line that covers a load in part; the copies of the load's other bytes leave RLB(c), so that every byte is read by
source 4 (R335). -/
def sendPart (s : State) (c : Nat) (l : WcbLine) (p : Piece) : State :=
  let s1 := trySend s c l
  if (s1.core c).wcb.any (·.id == l.id) then s1
  else s1.updCore c fun x => { x with rlb := p.sectors.foldl (fun m k => nmDel m k.2) x.rlb }

/-- A remote piece that a load of thread t must ask its home for (R335, R342). -/
def asksHome (s : State) (st : Strand) (t : Nat) (p : Piece) : Bool :=
  p.home != 0 && (p.ord == 0 || (openKeys s st t p).any fun k => ((s.core st.core).rlbByte k).isNone)

/-! ## Releases -/

/-- Makes the waits of a release at an issued fragment: true when they are over; otherwise the fragment issues again. -/
def release (s : State) (sid f : Nat) (sc : Scope) (un : Bool) : State × Bool :=
  match nmGet s.strands sid with
  | none => (s, false)
  | some st =>
    match nmGet st.frags f with
    | none => (s, false)
    | some fr =>
      match relWaits s st sc un fr.rel with
      | (_, true) => (s.acts sid, true)
      | (q, false) =>
        let (_, s1) := s.tick
        ((stay s1 sid f).updFrag sid f fun x => { x with rel := q }, false)

end Sys2Proof.Machine
end

