-- ==== Sys2Proof/Machine/Scratch.lean ====
section
/-!
DEFINITION. A batch's scratchpad (R200, R210, R227, R349) and the transaction barrier records in it (R218, R219, R248).
-/
namespace Sys2Proof.Machine

def State.batch? (s : State) (b : Nat) : Option Batch := nmGet s.batches b

/-- Bytes of a batch's range. -/
def readScr (s : State) (bid off n : Nat) : List Byte :=
  match s.batch? bid with
  | none => List.replicate n 0#8
  | some b => (List.range n).map fun i => spGet b.scr (off + i)

/-- Writes bytes at listed offsets. -/
def writeScr (s : State) (bid : Nat) (bs : List (Nat × Byte)) : State :=
  s.updBatch bid fun b => { b with scr := bs.foldl (fun m e => spPut m e.1 e.2) b.scr }

/-- Bytes at consecutive offsets. -/
def atOff (off : Nat) (bs : List Byte) : List (Nat × Byte) := bs.zipIdx.map fun (b, i) => (off + i, b)

def scrSize (s : State) (bid : Nat) : Nat := ((s.batch? bid).map (·.scrSize)).getD 0

/-- The scratchpad accesses of an instruction (R227): threads beyond the range are switched off (R210), then a misaligned
one raises MISALIGN. -/
def scrPlaces (s : State) (c : Ctx) (w : Nat) (xs : List (Nat × Nat)) : (State × List (Nat × Nat)) ⊕ State :=
  let size := scrSize s c.st.batch
  let out := xs.filter fun x => size < x.2 + w
  let rest := xs.filter fun x => !(size < x.2 + w)
  let s1 := faultThreads s c.sid (maskOf (out.map (·.1))) c.fr.pc
  if rest.any fun x => x.2 % w != 0 then .inr (raiseUser s1 c.sid c.f 0x41#8 none) else .inl (s1, rest)

/-! ## Transaction barriers -/

/-- A record of R218. -/
structure Xb where
  phase : Nat
  arr : Nat
  exp : Nat
  reload : Nat
  done : Nat
  rsv : Nat
  deriving DecidableEq, Repr

def xbDec (x : Nat) : Xb :=
  { phase := bitsOf x 3 0, arr := bitsOf x 23 4, exp := bitsOf x 63 24, reload := bitsOf x 83 64, done := bitsOf x 123 84, rsv := bitsOf x 127 124 }

def Xb.enc (x : Xb) : Nat :=
  x.phase % 16 + x.arr % 2 ^ 20 * 2 ^ 4 + x.exp % 2 ^ 40 * 2 ^ 24 + x.reload % 2 ^ 20 * 2 ^ 64 + x.done % 2 ^ 40 * 2 ^ 84
    + x.rsv % 16 * 2 ^ 124

/-- The advance that follows every update (R219). -/
def Xb.advance (x : Xb) : Xb :=
  if x.arr = 0 ∧ x.done = x.exp then { x with phase := (x.phase + 1) % 16, arr := x.reload, exp := 0, done := 0 } else x

def Xb.arrive (x : Xb) : Xb := { x with arr := (x.arr + (2 ^ 20 - 1)) % 2 ^ 20 }
def Xb.expect (x : Xb) (n : Nat) : Xb := { x with exp := (x.exp + n) % 2 ^ 40 }
def Xb.land (x : Xb) (n : Nat) : Xb := { x with done := (x.done + n) % 2 ^ 40 }

def readXb (s : State) (bid off : Nat) : Xb := xbDec (leVal (readScr s bid off 16))

/-- Whether an offset names a record of the batch (R248). -/
def xbOk (s : State) (bid off : Nat) : Bool := off % 16 == 0 && off + 16 ≤ scrSize s bid

/-- Fragments that wait by XBW for a record's phase: they return when it differs (R248), an acquire at .module (R249,
R350). -/
def xbWake (s : State) (bid : Nat) : State :=
  match s.batch? bid with
  | none => s
  | some b =>
    b.sids.foldl (fun (s : State) (sid : Nat) =>
      match nmGet s.strands sid with
      | none => s
      | some st =>
        st.frags.foldl (fun (s : State) (e : Nat × Frag) => match e.2.wait with
          | .xbw off p => if (readXb s bid off).phase ≠ p then dropRlb (unblock s sid e.1) st.core .module else s
          | _ => s) s) s

/-- One update of a record (R219). -/
def xbUpdate (s : State) (bid off : Nat) (g : Xb → Xb) : State :=
  xbWake (writeScr s bid (atOff off (leBytes 16 (g (readXb s bid off)).advance.enc))) bid

/-- Bytes of ordinary accesses to scratchpad; a changed record may end a wait. -/
def storeScr (s : State) (bid : Nat) (bs : List (Nat × Byte)) : State := xbWake (writeScr s bid bs) bid

end Sys2Proof.Machine
end

