-- ==== Sys2Proof/Machine/Memory.lean ====
section
/-!
DEFINITION. Loads, stores and atomics (R229 to R237): their checks, their start, and the step in which a tracked one is
performed and lands (R44, R335, R348).
-/
namespace Sys2Proof.Machine

/-! ## Scratchpad -/

/-- LDS (R229, R349). -/
def execLds (h : Hdr) (ty : Ty) (_sc : Scope) (_kd : Kind) (d a b : Opnd) (s : State) : Out :=
  let dw := refsOf d (ty.width = 64)
  issue h (usesT dw (refsOf a false ++ refsOf b false)) s fun c s =>
    if c.st.acquiring then .next (stay s c.sid c.f)
    else
      let w := tyBytes ty
      match scrPlaces s c w ((c.memActs h [d, a, b]).map fun t => (t, c.scrAddr a b t)) with
      | .inr s1 => .next s1
      | .inl (s1, []) => .next (advance s1 c.sid c.f h)
      | .inl (s1, ts) =>
        let ws := ts.flatMap fun x => dstW d ty x.1 (ldVal ty (leVal (readScr s1 c.st.batch x.2 w)))
        .next (advance (s1.updStrand c.sid fun st => st.track c.f true dw ws flNone false .none) c.sid c.f h)

/-- STS (R229, R230): in ascending thread order, so that the highest thread's byte stays. -/
def execSts (h : Hdr) (ty : Ty) (_sc : Scope) (kd : Kind) (d a b : Opnd) (s : State) : Out :=
  issue h (uses [] (refsOf d (ty.width = 64) ++ refsOf a false ++ refsOf b false)) s fun c s =>
    if c.st.acquiring then .next (stay s c.sid c.f)
    else
      match scrPlaces s c (tyBytes ty) ((c.memActs h [d, a, b]).map fun t => (t, c.scrAddr a b t)) with
      | .inr s1 => .next s1
      | .inl (s1, []) => .next (advance s1 c.sid c.f h)
      | .inl (s1, ts) =>
        let bs := ts.flatMap fun x => atOff x.2 (c.stBytes ty x.1 d)
        if kd == .rel then
          match endRegion s1 c.sid c.f (c.fr.pc + 12#57) none with
          | (s2, false) => .next s2
          | (s2, true) => .next (advance (storeScr (s2.acts c.sid) c.st.batch bs) c.sid c.f h)
        else .next (advance (storeScr s1 c.st.batch bs) c.sid c.f h)

/-! ## The arithmetic of atomics -/

/-- The new value of an atomic, with its flags (R58, R236). -/
def atomNew (op : Nat) (ty : Ty) (old b c : Nat) : Nat × Flags :=
  let m := 2 ^ ty.width
  match op with
  | 0 =>
    if ty == .f32 then
      let r := fAdd fmtF32 .rne false 0#64 false old b
      (r.bits, r.fl)
    else ((old + b) % m, flNone)
  | 1 | 2 =>
    if ty == .f32 then
      let r := fMinMax fmtF32 (op == 2) old b
      (r.bits, r.fl)
    else
      let less := intRead ty old < intRead ty b
      let eq := intRead ty old = intRead ty b
      (if eq then old else if (op == 1) == decide less then old else b % m, flNone)
  | 3 => (old &&& (b % m), flNone)
  | 4 => (old ||| (b % m), flNone)
  | 5 => (old ^^^ (b % m), flNone)
  | 6 => (b % m, flNone)
  | _ => (if old = b % m then c % m else old, flNone)

/-- The operands of an atomic for thread t. -/
def Ctx.atomOps (c : Ctx) (ty : Ty) (b : Opnd) (t : Nat) : Nat × Nat := (c.st.r.srcB ty t b, c.st.r.srcC ty t b)

/-- One thread's update of bytes: the new memory image of the bytes, the old value, the flags. -/
def atomBytes (op : Nat) (ty : Ty) (old : List Byte) (b c : Nat) : List Byte × Nat × Flags :=
  let o := leVal old
  let (n, fl) := atomNew op ty o b c
  (leBytes (tyBytes ty) n, o, fl)

/-! ## Performing an access -/

/-- Committed entries of the strand that still hold one of these sectors (R336: one sector drains in buffer order). -/
def Strand.pendingSectors (st : Strand) (ks : List Nat) : Bool :=
  st.rsb.any fun e => e.ready && e.hold.isNone && ks.contains (sectorKey e.home e.pa)

/-- The value that a load's bytes give, its type and its flags (R108, R110, R114, R229). -/
def decVal (dec : Dec) (bs : List Byte) : Ty × Nat × Flags :=
  match dec with
  | .raw ty => (ty, ldVal ty (leVal bs), flNone)
  | .qel q j ty =>
    let x := qElem q (leVal (bs.take 4)) (bs.drop 4) j
    let r := roundExt (fmtOf ty) .rne false 0#64 x.ext
    (ty, r.bits, r.fl ||| flIf x.isSig flNv)
  | .m32 =>
    let m := fmtF16.dec (leVal (bs.take 2))
    let v := fmtF16.dec (leVal (bs.drop 2))
    let half := fun (n : Num) => (roundExt fmtF32 .rne false 0#64 n.ext).bits
    let vb := half v
    (.m64, momPack (half m) (if vb = 2 ^ 31 then 0 else vb), flIf (m.isSig || v.isSig) flNv)
  | .sp sz pos ty => (ty, ((sparseElem sz bs pos).map (ldVal ty)).getD 0, flNone)

/-- DETERM checks of the elements of a flight (R344, R345). -/
def detAccs (s : State) (sid : Nat) (kind : DetKind) (accs : List Acc) : State ⊕ (BitVec 8 × List W64) :=
  ((accs.flatMap fun a => (a.ps.filter fun p => p.ord == 3).flatMap Piece.sectors)).foldl (fun acc k =>
    match acc with
    | .inr e => .inr e
    | .inl s =>
      match nmGet s.strands sid with
      | none => .inl s
      | some st => detAccess s sid st st.curTeam k.1 k.2 kind) (.inl s)

/-- The directory's check of the elements of an access as they are performed (R344, R345): the state with ownership and phase
records; or the access is not performed, and the job has ended (R346). -/
def detPerform (s : State) (sid : Nat) (kind : DetKind) (accs : List Acc) : State × Bool :=
  match detAccs s sid kind accs with
  | .inl s1 => (s1, true)
  | .inr (cause, rec) => (endJob s (((nmGet s.strands sid).map (·.job)).getD 0) cause rec, false)

/-- A write-combining line that must be sent before a load is performed (R335), and the piece that it covers in part. -/
def loadSends (s : State) (st : Strand) (accs : List Acc) : Option (WcbLine × Piece) :=
  accs.findSome? fun a => a.ps.findSome? fun p => (partLine s st a.t p).map fun l => (l, p)

/-- A write-combining line that holds bytes of an atomic (R348). -/
def atomSends (s : State) (c : Nat) (accs : List Acc) : Option WcbLine :=
  (s.core c).wcb.find? fun l => accs.any fun a => a.ps.any fun p => p.home == l.home && p.home != 0 &&
    l.bytes.any fun b => p.keys.contains (pkey l.home (l.pa + b.1))

/-- An earlier operation of the same thread on the same bytes is in flight (R333). -/
def Strand.earlierClash (st : Strand) (id : Nat) (accs : List Acc) : Bool :=
  st.pend.any fun p => p.id < id && p.op.accs.any fun a => accs.any fun b => a.t == b.t && a.keys.any b.keys.contains

/-- Whether an atomic's bytes are at home: no P(d) and no committed entry of the strand holds a write to them (R348). -/
def atomClear (s : State) (st : Strand) (accs : List Acc) : Bool :=
  let ks := accs.flatMap Acc.keys
  !(s.dies.any fun d => d.2.p.any fun w => ks.contains w.pa) && !st.pendingSectors (accs.flatMap fun a => a.ps.flatMap fun p => p.sectors.map (·.2))

/-- A Vat in self-refresh holds back the loads of its channel's memory (R393). -/
def vatAsleep (s : State) (accs : List Acc) : Bool :=
  accs.any fun a => a.ps.any fun p => p.home == 0 && bitAt p.pa 51 && (s.vat (bitsOf p.pa 48 40)).sleep

/-- What a load reads, and the copies its reads install (R335). -/
def readAccs (s : State) (st : Strand) (accs : List Acc) : State × List (Nat × Ty × Nat × Flags) :=
  let rs := accs.map fun a => (a.t, decVal a.dec (a.ps.flatMap (loadPiece s st a.t)))
  (accs.foldl (fun s a => a.ps.foldl (fun s x => installRlb s st a.t x) s) s, rs)

/-- The register writes of a load's results. -/
def readWrites (d : Opnd) (rs : List (Nat × Ty × Nat × Flags)) : List Write := rs.flatMap fun r => dstW d r.2.1 r.1 r.2.2.1

/-- The union of a load's flags. -/
def readFlags (rs : List (Nat × Ty × Nat × Flags)) : Flags := unionFlags (rs.map fun r => r.2.2.2)

/-- One element of an atomic at M of its home (R348): the old value and the flags; the core's copy of the sector is
overwritten. -/
def atomElem (s : State) (st : Strand) (op : Nat) (ty : Ty) (a : Acc) : State × Nat × Flags :=
  let ks := a.keys
  let (bs, o, f) := atomBytes op ty (ks.map (rdM1 s.mem)) a.b.toNat a.c.toNat
  (rlbAgain { s with mem := wrMs s.mem (ks.zip bs) } st.core (ks.headD 0 / 32 * 32), o, f)

/-- The elements of an atomic, threads in order (R237): the writes of its old values and its flags. -/
def atomAccs (s : State) (st : Strand) (op : Nat) (ty : Ty) (d : Opnd) (accs : List Acc) : State × List Write × Flags :=
  accs.foldl (fun (acc : State × List Write × Flags) a =>
    let (s, o, f) := atomElem acc.1 st op ty a
    (s, acc.2.1 ++ dstW d ty a.t (ldVal ty o), acc.2.2 ||| f)) (s, [], flNone)

/-! ## Starting a global load -/

/-- Whether a list of pieces touches a page of one kind. -/
def anyOrd (o : Nat) (ps : List Piece) : Bool := ps.any fun p => p.ord == o

/-- An element of a sparse page (R112, R232). -/
def Dec.sparse : Dec → Bool
  | .sp _ _ _ => true
  | _ => false

/-- The bytes of a load are those of a sparse line that breaks R112 (R234). -/
def Dec.breaks (d : Dec) (bs : List Byte) : Bool :=
  match d with
  | .sp sz _ _ => !sparseOk (24 / sz) bs
  | _ => false

/-- The same of a load's element as it reads its bytes now. -/
def Acc.badLine (s : State) (st : Strand) (a : Acc) : Bool := a.dec.breaks (a.ps.flatMap (loadPiece s st a.t))

/-- A load of a sparse page holds its fragment at the instruction until its lines have been read, since a line may raise
SPARSE_MASK there (R234; log 17). -/
def lineWait (s : State) (c : Ctx) (h : Hdr) (id : Nat) (strong : Bool) : State :=
  s.updFrag c.sid c.f fun fr => { fr with st := .stalled, wait := .line id strong, gap := max h.stall.toNat 1 }

/-- Stale entries that hold bytes of the addresses of an access get their place under its translation first (R317, R320): the
fragment issues again. -/
def replace (s : State) (c : Ctx) (ps : List Piece) : State := stay (s.updStrand c.sid fun st => st.rekey ps) c.sid c.f

/-- Starts a tracked load (R229, R333, R338, R342, R355): it waits for an acquire in flight, unless its pages are UNORDERED (R340),
for the strand's previous STRONG access, for its signals to the same bytes, for a transaction entry; a STRONG access ends the region
first. -/
def startLoad (h : Hdr) (c : Ctx) (s : State) (d : Opnd) (marks : List RegRef) (acq : Option Scope) (accs : List Acc) : State :=
  match nmGet s.strands c.sid with
  | none => s
  | some st =>
    let ps := accs.flatMap (·.ps)
    let strong := anyOrd 0 ps
    let unord := ps.all fun p => p.ord == 2
    let sparse := accs.any (·.dec.sparse)
    if (st.acquiring && !unord) || (strong && st.strongBusy) || sigPending s c.sid (accs.flatMap Acc.keys) || decide (256 ≤ ottUsed s c.st.core) then
      stay s c.sid c.f
    else if st.misplaced ps then replace s c ps
    else
      let op : Flight := .load d h.uni acq unord accs
      let go := fun (s : State) =>
        let s1 := s.updStrand c.sid fun st => st.track c.f true marks [] flNone false op
        if sparse then lineWait s1 c h st.nextPend strong else advance s1 c.sid c.f h
      if strong then
        match endRegion s c.sid c.f (if sparse then c.fr.pc else c.fr.pc + 12#57) none with
        | (s1, false) => s1
        | (s1, true) => go (s1.acts c.sid)
      else go s

/-- LD (R229). -/
def execLd (h : Hdr) (ty : Ty) (sc : Scope) (kd : Kind) (d a b : Opnd) (s : State) : Out :=
  let dw := refsOf d (ty.width = 64)
  issue h (usesT dw (refsOf a true ++ refsOf b false)) s fun c s =>
    let w := tyBytes ty
    match (c.memActs h [d, a, b]).map fun t => ({ t := t, va := c.gblAddr a b t, len := w } : Elem) with
    | [] => .next (advance s c.sid c.f h)
    | xs =>
      match gblPlaces s c false w qFmt xs with
      | .inr s1 => .next s1
      | .inl (s1, ps) =>
        .next (startLoad h c s1 d dw (if kd == .acq then some sc else none)
          (ps.map fun p => { t := p.t, ps := [p.p], dec := .raw ty, b := 0#64, c := 0#64 }))

/-! ## Starting a global store -/

/-- An unbuffered store's elements, as the strand's signature takes them (R329). -/
def StoreReq.sig (x : StoreReq) : List Nat := [x.p.va, 2 ^ x.bs.length - 1, leVal x.bs]

/-- Stores that pass the region store buffer are on their way, each thread's element by itself (R230, R342, R347). -/
def flyStores (s : State) (c : Ctx) (xs : List StoreReq) : State :=
  (s.acts c.sid).updStrand c.sid fun st =>
    Strand.track { st with log := st.log ++ xs.flatMap StoreReq.sig } c.f true [] [] flNone false
      (.store (xs.map fun (x : StoreReq) => { t := x.t, ps := [x.p], dec := .raw .b32, b := 0#64, c := 0#64, bs := x.bs }))

/-- Performs a store (R229, R230, R324, R337, R342): ST.rel and stores to STRONG pages pass the buffer. `fl` and `mfl` are the flags
of a formatted store, set with it. -/
def startStore (h : Hdr) (c : Ctx) (s : State) (rel : Option Scope) (fl : Flags) (mfl : Bool) (xs : List StoreReq) : State :=
  match nmGet s.strands c.sid with
  | none => s
  | some st =>
    let ps := xs.map (·.p)
    let strong := xs.filter fun x => x.p.ord == 0
    let busy := st.acquiring || xs.any (fun x => st.overlaps x.t x.p.keys) || sigPending s c.sid (ps.flatMap Piece.keys)
      || (!strong.isEmpty && (st.strongBusy || decide (256 ≤ ottUsed s c.st.core)))
    if busy then stay s c.sid c.f
    else if st.misplaced ps then replace s c ps
    else
      let fin := fun (s : State) => advance (s.updStrand c.sid fun st => { st with sp := st.sp.addFlags fl mfl }) c.sid c.f h
      let next := fun (s : State) => setRgn s c.sid c.f (c.fr.pc + 12#57)
      match rel with
      | some sc =>
        match endRegion s c.sid c.f c.fr.pc none with
        | (s1, false) => s1
        | (s1, true) =>
          let waits := if ps.all fun p => p.ord == 2 then (s1, true) else release s1 c.sid c.f sc true
          match waits with
          | (s2, false) => s2
          | (s2, true) => fin (next (flyStores s2 c xs))
      | none =>
        let soft := xs.filter fun x => x.p.ord != 0
        let ended := if strong.isEmpty then (s, true) else endRegion s c.sid c.f c.fr.pc none
        match ended with
        | (s1, false) => s1
        | (s1, true) =>
          match rsbRoom s1 c.sid c.f soft with
          | (s2, false) => s2
          | (s2, true) => fin (bufferAll (if strong.isEmpty then s2 else next (flyStores s2 c strong)) c.sid soft)

/-- ST (R229, R230). -/
def execSt (h : Hdr) (ty : Ty) (sc : Scope) (kd : Kind) (d a b : Opnd) (s : State) : Out :=
  issue h (uses [] (refsOf d (ty.width = 64) ++ refsOf a true ++ refsOf b false)) s fun c s =>
    let w := tyBytes ty
    match (c.memActs h [d, a, b]).map fun t => ({ t := t, va := c.gblAddr a b t, len := w } : Elem) with
    | [] => .next (advance s c.sid c.f h)
    | xs =>
      match gblPlaces s c true w qFmt xs with
      | .inr s1 => .next s1
      | .inl (s1, ps) =>
        .next (startStore h c s1 (if kd == .rel then some sc else none) flNone false
          (ps.map fun p => { t := p.t, p := p.p, bs := c.stBytes ty p.t d }))

/-! ## Format-aware loads and stores -/

/-- The Q-format of a page's FMT. -/
def qOf (fmt : Nat) : QFmt := if fmt = 1 then .q2 else if fmt = 2 then .q3 else .q4

/-- Translates a list of elements that must all lie on pages of one format (R231); `w` is 1 where no element alignment is
asked. -/
def fmtPlaces (s : State) (c : Ctx) (write : Bool) (w fmt : Nat) (xs : List Elem) : (State × List Place) ⊕ State :=
  gblPlaces s c write w (fun f => f != fmt) xs

/-- The format of the page that holds P, translated for the leader (R231). -/
def pageFmt (s : State) (c : Ctx) (write : Bool) (t p : Nat) : (State × Nat) ⊕ State :=
  match xlateElems s c write [{ t := t, va := p, len := 1 }] with
  | .inr s1 => .inr s1
  | .inl (s1, pl) => .inl (s1, ((pl.head?).map (·.e.fmt)).getD 0)

/-- A user cause of the issuing fragment. -/
def userCause (s : State) (c : Ctx) (cause : BitVec 8) : State := raiseUser s c.sid c.f cause none

/-- Whether LDB reads a type on a page format (R232). -/
def ldbPair (fmt : Nat) (ty : Ty) : Bool :=
  match fmt with
  | 0 => true
  | 1 | 2 | 3 => ty == .f32 || ty == .f16 || ty == .g16 || ty == .b32
  | 4 => ty == .g8 || ty == .i8 || ty == .n8
  | 5 => ty == .f16 || ty == .g16 || ty == .i16 || ty == .n16
  | 6 => ty == .m64
  | _ => false

/-- The alignment that a page format asks of P (R232). -/
def fmtAlign (fmt : Nat) : Nat :=
  match fmt with
  | 1 | 2 | 3 => 2 * 1024 * 1024
  | 4 | 5 => 128
  | 6 => 4
  | _ => 1

/-- The element index of thread t (R231). -/
def Ctx.elemIx (c : Ctx) (b : Opnd) (t : Nat) : Nat := c.offset b t % 2 ^ 32

/-- LDB (R232); its causes in the order of R234 (log 70). -/
def execLdb (h : Hdr) (ty : Ty) (d a b : Opnd) (s : State) : Out :=
  let dw := refsOf d (ty.width = 64)
  issue h (usesT dw (refsOf a false ++ refsOf b false)) s fun c s =>
    match c.memActs h [d] with
    | [] => .next (advance s c.sid c.f h)
    | ts =>
      let P := c.offset a 0
      let lead := c.leader.getD 0
      match pageFmt s c false lead P with
      | .inr s1 => .next s1
      | .inl (s1, fmt) =>
        let start := fun (s : State) (accs : List Acc) => Host.Outcome.next (startLoad h c s d dw none accs)
        let acc := fun (t : Nat) (ps : List Piece) (dec : Dec) => ({ t := t, ps := ps, dec := dec, b := 0#64, c := 0#64 } : Acc)
        let q := qOf fmt
        let rec' := fun (t : Nat) => if ty == .b32 then c.elemIx b lead else c.elemIx b t / 64
        if !ldbPair fmt ty || (qFmt fmt && ts.any fun t => decide (qRecords q ≤ rec' t)) then .next (userCause s1 c 0x42#8)
        else if P % fmtAlign fmt ≠ 0 then .next (userCause s1 c 0x41#8)
        else if fmt = 0 then
          let w := tyBytes ty
          match fmtPlaces s1 c false w 0 (ts.map fun t => { t := t, va := (P + c.elemIx b t * w) % 2 ^ 64, len := w }) with
          | .inr s2 => .next s2
          | .inl (s2, ps) => start s2 (ps.map fun p => acc p.t [p.p] (.raw ty))
        else if qFmt fmt then
          let len := qLen q
          match xlateElems s1 c false [{ t := lead, va := P, len := 1 }] with
          | .inr s2 => .next s2
          | .inl (s2, pl) =>
            match pl with
            | [] => .next s2
            | p0 :: _ =>
              let at_ := fun (o n : Nat) => ({ p0.p with va := P + o, pa := p0.p.pa + o, len := n } : Piece)
              start s2 (ts.map fun t =>
                let r := 4096 + rec' t * len
                if ty == .b32 then acc t [at_ (r + min (4 * t) len) (min 4 (len - 4 * t))] (.raw .b32)
                else acc t [at_ (4 * (rec' t / 256)) 4, at_ r len] (.qel q (c.elemIx b t % 64) ty))
        else if fmt = 6 then
          match fmtPlaces s1 c false 1 6 (ts.map fun t => { t := t, va := (P + 4 * c.elemIx b t) % 2 ^ 64, len := 4 }) with
          | .inr s2 => .next s2
          | .inl (s2, ps) => start s2 (ps.map fun p => acc p.t [p.p] .m32)
        else
          let sz := tyBytes ty
          let per := if fmt = 4 then 192 else 96
          match fmtPlaces s1 c false 1 fmt (ts.map fun t => { t := t, va := (P + 128 * (c.elemIx b t / per)) % 2 ^ 64, len := 128 }) with
          | .inr s2 => .next s2
          | .inl (s2, ps) =>
            start s2 (ps.map fun p => acc p.t [p.p] (.sp sz (c.elemIx b p.t % per) ty))

/-- A moment narrowed to M32 under RNE (R114): its four bytes, its flags, and whether its variance fails (R178). -/
def narrowM32 (x : Nat) : List Byte × Flags × Bool :=
  let half := fun (n : Num) => roundExt fmtF16 .rne false 0#64 n.ext
  let m := meanNum x
  let v := varNum (momVar x)
  let rm := half m
  let rv := half v
  (leBytes 4 (rm.bits + rv.bits * 2 ^ 16), rm.fl ||| rv.fl ||| flIf (m.isSig || v.isSig) flNv, varFails (momVar x))

/-- STB (R233); its causes in the order of R234. An encoding one reads v(2n+1) beside v2n, which only the format of the page
tells: the wait for a mark on it (R44) and STALL_SHORT (R47) come after the page's translation and before its other causes
(log 70). -/
def execStb (h : Hdr) (ty : Ty) (d a b : Opnd) (s : State) : Out :=
  issue h (uses [] (refsOf d (ty.width = 64) ++ refsOf a false ++ refsOf b false)) s fun c s =>
    match c.memActs h [d] with
    | [] => .next (advance s c.sid c.f h)
    | ts =>
      let P := c.offset a 0
      let lead := c.leader.getD 0
      match pageFmt s c true lead P with
      | .inr s1 => .next s1
      | .inl (s1, fmt) =>
        if fmt = 0 then
          let w := tyBytes ty
          match fmtPlaces s1 c true w 0 (ts.map fun t => { t := t, va := (P + c.elemIx b t * w) % 2 ^ 64, len := w }) with
          | .inr s2 => .next s2
          | .inl (s2, ps) => .next (startStore h c s2 none flNone false (ps.map fun p => { t := p.t, p := p.p, bs := c.stBytes ty p.t d }))
        else if fmt = 6 && ty == .m64 then
          if P % 4 ≠ 0 then .next (userCause s1 c 0x41#8)
          else
            match fmtPlaces s1 c true 1 6 (ts.map fun t => { t := t, va := (P + 4 * c.elemIx b t) % 2 ^ 64, len := 4 }) with
            | .inr s2 => .next s2
            | .inl (s2, ps) =>
              let rs := ps.map fun p => (p, narrowM32 (c.st.r.src .m64 p.t d))
              let bad := rs.any fun r => r.2.2.2
              if bad && !c.st.sp.vclamp then .next (userCause s2 c 0x20#8)
              else .next (startStore h c s2 none (unionFlags (rs.map fun r => r.2.2.1)) bad (rs.map fun r => { t := r.1.t, p := r.1.p, bs := r.2.1 }))
        else if qFmt fmt && (ty == .b32 || ty == .f32 || ty == .f16 || ty == .g16 || ty == .g8) then
          let q := qOf fmt
          let len := qLen q
          let i := c.elemIx b lead
          let odd := match d with | .v n => n.toNat % 2 == 1 | _ => true
          let hi : List RegRef := match d with | .v n => if ty == .b32 || odd then [] else [⟨.v, n.toNat + 1⟩] | _ => []
          if h.wsb && c.st.marked hi then .next (s1.updFrag c.sid c.f fun x => { x with st := .stalled, wait := .wsb hi })
          else if c.st.sp.sbchk && c.st.short c.win h hi then .next (userCause s1 c 0x04#8)
          else if (ty != .b32 && odd) || decide (qRecords q ≤ i) then .next (userCause s1 c 0x42#8)
          else if P % fmtAlign fmt ≠ 0 then .next (userCause s1 c 0x41#8)
          else
            match xlateElems s1 c true [{ t := lead, va := P, len := 1 }] with
            | .inr s2 => .next s2
            | .inl (s2, pl) =>
              match pl, d with
              | p0 :: _, .v n =>
                let at_ := fun (o k : Nat) => ({ p0.p with va := P + o, pa := p0.p.pa + o, len := k } : Piece)
                let (st', ctr) := c.st.settle s2.freeCtr hi
                let s3 := { s2 with strands := nmSet s2.strands c.sid st', freeCtr := ctr }
                let (bs, fl) :=
                  if ty == .b32 then
                    ((List.range len).map fun j =>
                      if ts.contains (j / 4) then BitVec.ofNat 8 ((st'.r.rdV n.toNat (j / 4)).toNat / 2 ^ (8 * (j % 4))) else 0#8, flNone)
                  else
                    let scale := leVal (loadPiece s3 st' lead (at_ (4 * (i / 256)) 4))
                    let xs := (List.range 64).map fun j =>
                      if ts.contains (j % 32) then (fmtOf ty).dec ((st'.r.rdV (n.toNat + j / 32) (j % 32)).toNat % 2 ^ ty.width)
                      else .fin false 0 0
                    qEncode q scale xs
                .next (startStore h c s3 none fl false [{ t := lead, p := at_ (4096 + i * len) len, bs := bs }])
              | _, _ => .next s2
        else .next (userCause s1 c 0x42#8)

/-! ## Atomics -/

/-- ATS (R235 to R237): in the issue window, in ascending thread order (R349), after the region end. -/
def atsOp (op : Nat) (h : Hdr) (ty : Ty) (d a b : Opnd) (s : State) : Out :=
  let w := ty.width = 64
  let dw := refsOf d w
  issue h (usesT dw (refsOf a false ++ refsOf b w)) s fun c s =>
    if c.st.acquiring then .next (stay s c.sid c.f)
    else
      match scrPlaces s c (tyBytes ty) ((c.memActs h [d, a, b]).map fun t => (t, c.scrAddr a .none t)) with
      | .inr s1 => .next s1
      | .inl (s1, []) => .next (advance s1 c.sid c.f h)
      | .inl (s1, ts) =>
        match endRegion s1 c.sid c.f (c.fr.pc + 12#57) none with
        | (s2, false) => .next s2
        | (s2, true) =>
          let (s3, ws, fl) := ts.foldl (fun (acc : State × List Write × Flags) x =>
            let (y, z) := c.atomOps ty b x.1
            let (bs, o, f) := atomBytes op ty (readScr acc.1 c.st.batch x.2 (tyBytes ty)) y z
            (writeScr acc.1 c.st.batch (atOff x.2 bs), acc.2.1 ++ dstW d ty x.1 (ldVal ty o), acc.2.2 ||| f)) (s2, [], flNone)
          let s4 := xbWake (s3.acts c.sid) c.st.batch
          .next (advance (s4.updStrand c.sid fun st => st.track c.f true dw ws fl false .none) c.sid c.f h)

def execAtsAdd (h : Hdr) (ty : Ty) (_sc : Scope) (_kd : Kind) (d a b : Opnd) (s : State) : Out := atsOp 0 h ty d a b s
def execAtsMin (h : Hdr) (ty : Ty) (_sc : Scope) (_kd : Kind) (d a b : Opnd) (s : State) : Out := atsOp 1 h ty d a b s
def execAtsMax (h : Hdr) (ty : Ty) (_sc : Scope) (_kd : Kind) (d a b : Opnd) (s : State) : Out := atsOp 2 h ty d a b s
def execAtsAnd (h : Hdr) (ty : Ty) (_sc : Scope) (_kd : Kind) (d a b : Opnd) (s : State) : Out := atsOp 3 h ty d a b s
def execAtsOr (h : Hdr) (ty : Ty) (_sc : Scope) (_kd : Kind) (d a b : Opnd) (s : State) : Out := atsOp 4 h ty d a b s
def execAtsXor (h : Hdr) (ty : Ty) (_sc : Scope) (_kd : Kind) (d a b : Opnd) (s : State) : Out := atsOp 5 h ty d a b s
def execAtsExch (h : Hdr) (ty : Ty) (_sc : Scope) (_kd : Kind) (d a b : Opnd) (s : State) : Out := atsOp 6 h ty d a b s
def execAtsCas (h : Hdr) (ty : Ty) (_sc : Scope) (_kd : Kind) (d a b : Opnd) (s : State) : Out := atsOp 7 h ty d a b s

/-- ATG (R235 to R237): it ends the region, makes the waits of its release, and is performed at its home later (R348). -/
def atgOp (op : Nat) (h : Hdr) (ty : Ty) (sc : Scope) (kd : Kind) (d a b : Opnd) (s : State) : Out :=
  let w := ty.width = 64
  let dw := refsOf d w
  issue h (usesT dw (refsOf a true ++ refsOf b w)) s fun c s =>
    match (c.memActs h [d, a, b]).map fun t => ({ t := t, va := c.gblAddr a .none t, len := tyBytes ty } : Elem) with
    | [] => .next (advance s c.sid c.f h)
    | xs =>
      match gblPlaces s c true (tyBytes ty) qFmt xs with
      | .inr s1 => .next s1
      | .inl (s1, ps) =>
        if c.st.acquiring || ps.any (fun p => c.st.overlaps p.t p.p.keys) || (anyOrd 0 (ps.map (·.p)) && c.st.strongBusy)
            || sigPending s1 c.sid (ps.flatMap fun p => p.p.keys) || decide (256 ≤ ottUsed s1 c.st.core) then .next (stay s1 c.sid c.f)
        else
          match endRegion s1 c.sid c.f c.fr.pc none with
          | (s2, false) => .next s2
          | (s2, true) =>
            let unord := ps.all fun p => p.p.ord == 2
            let waits := if (kd == .rel || kd == .full) && !unord then release s2 c.sid c.f sc true else (s2, true)
            match waits with
            | (s3, false) => .next s3
            | (s3, true) =>
              let kd' := if unord then .plain else kd
              let accs := ps.map fun p =>
                let (y, z) := c.atomOps ty b p.t
                ({ t := p.t, ps := [p.p], dec := .raw ty, b := w64n y, c := w64n z } : Acc)
              let s4 := s3.updStrand c.sid fun st =>
                Strand.track { st with log := st.log ++ s3.wordAt st c.f :: accs.flatMap Acc.sig } c.f true dw [] flNone false (.atom op ty d h.uni sc kd' accs)
              .next (advance (setRgn (s4.acts c.sid) c.sid c.f (c.fr.pc + 12#57)) c.sid c.f h)

def execAtgAdd (h : Hdr) (ty : Ty) (sc : Scope) (kd : Kind) (d a b : Opnd) (s : State) : Out := atgOp 0 h ty sc kd d a b s
def execAtgMin (h : Hdr) (ty : Ty) (sc : Scope) (kd : Kind) (d a b : Opnd) (s : State) : Out := atgOp 1 h ty sc kd d a b s
def execAtgMax (h : Hdr) (ty : Ty) (sc : Scope) (kd : Kind) (d a b : Opnd) (s : State) : Out := atgOp 2 h ty sc kd d a b s
def execAtgAnd (h : Hdr) (ty : Ty) (sc : Scope) (kd : Kind) (d a b : Opnd) (s : State) : Out := atgOp 3 h ty sc kd d a b s
def execAtgOr (h : Hdr) (ty : Ty) (sc : Scope) (kd : Kind) (d a b : Opnd) (s : State) : Out := atgOp 4 h ty sc kd d a b s
def execAtgXor (h : Hdr) (ty : Ty) (sc : Scope) (kd : Kind) (d a b : Opnd) (s : State) : Out := atgOp 5 h ty sc kd d a b s
def execAtgExch (h : Hdr) (ty : Ty) (sc : Scope) (kd : Kind) (d a b : Opnd) (s : State) : Out := atgOp 6 h ty sc kd d a b s
def execAtgCas (h : Hdr) (ty : Ty) (sc : Scope) (kd : Kind) (d a b : Opnd) (s : State) : Out := atgOp 7 h ty sc kd d a b s

/-! ## Landing -/

/-- The acquire that an operation makes once all its elements have been performed (R338, R340). -/
def acquireOf (s : State) (core : Nat) (op : Flight) : State :=
  match op with
  | .load _ _ (some sc) false _ => dropRlb s core sc
  | .atom _ _ _ _ sc kd _ => if kd == .acq || kd == .full then dropRlb s core sc else s
  | _ => s

/-- A fragment that a load of a sparse page holds goes on once the load is performed. -/
def lineDone (s : State) (sid id : Nat) : State :=
  match nmGet s.strands sid with
  | none => s
  | some st => st.frags.foldl (fun (s : State) (e : Nat × Frag) => match e.2.wait with
      | .line n strong => if n = id then (if strong then unblockRgn s sid e.1 else unblock s sid e.1) else s
      | _ => s) s

/-- A line that breaks R112 ends the load without a write, and raises SPARSE_MASK at the instruction (R234). -/
def lineBad (s : State) (sid : Nat) (p : Pend) : State :=
  afterLand (raiseUser (s.updStrand sid fun st => st.delPend p.id) sid p.frag 0x83#8 none) sid

/-- A tracked operation without an element left leaves the scoreboard with its writes, and the fragments that waited for it go
on (R44). -/
def landPend (s : State) (sid : Nat) (st : Strand) (p : Pend) : State :=
  let s1 := (acquireOf s st.core p.op).updStrand sid fun st => { st.apply p with pend := st.pend.filter (·.id != p.id) }
  afterLand (lineDone s1 sid p.id) sid

/-- The element of thread t has been performed, with its register writes and flags; the last one lands the operation. -/
def elemDone (s : State) (sid id t : Nat) (ws : List Write) (fl : Flags) : State :=
  match nmGet s.strands sid with
  | none => s
  | some st =>
    match st.pend.find? (·.id == id) with
    | none => s
    | some p =>
      let p' := { p with op := p.op.withAccs (p.op.accs.filter fun a => a.t != t), writes := p.writes ++ ws, fl := p.fl ||| fl }
      if p'.op.accs.isEmpty then landPend s sid st p'
      else s.updStrand sid fun st => { st with pend := st.pend.map fun (q : Pend) => if q.id == id then p' else q }

/-- A thread's request is on its way to its home (R410). -/
def reqOut (s : State) (sid id t : Nat) : Bool :=
  s.fab.pkts.any fun k => match k.body with | .req _ _ _ a b c => a == sid && b == id && c == t | _ => false

/-- The request of a thread's element enters F (R336, R411); k is what it carries (R410). -/
def sendReq (s : State) (sid : Nat) (st : Strand) (p : Pend) (t : Nat) (k : Traffic) (x : Piece) : State :=
  if pairFull s x.home then s
  else
    (sendPkt s { src := s.module.toNat, dst := x.home - 1, num := 0, seq := 0, core := st.core, jobs := [st.job], sid := sid, pc := p.pc,
                 mask := p.mask, slot := st.slot, body := .req x.pa x.len k.payload sid p.id t }).carry st.job k

/-- A load's element is performed where its bytes are at hand; otherwise a line goes first, or a request goes to its home
(R335, R342). -/
def goLoad (s : State) (sid : Nat) (st : Strand) (p : Pend) (d : Opnd) (a : Acc) : State :=
  match loadSends s st [a] with
  | some (l, x) => sendPart s st.core l x
  | none =>
    match a.ps.find? (asksHome s st a.t) with
    | some x => sendReq s sid st p a.t .loadRequest x
    | none =>
      if a.badLine s st then lineBad s sid p
      else
        match detPerform s sid .load [a] with
        | (s1, false) => s1
        | (s1, true) =>
          let (s2, rs) := readAccs s1 st [a]
          elemDone s2 sid p.id a.t (readWrites d rs) (readFlags rs)

/-- An atomic's element, the lowest thread first (R237, R348): a line that holds its bytes goes first, and every write to them
that this module holds. -/
def goAtom (s : State) (sid : Nat) (st : Strand) (p : Pend) (op : Nat) (ty : Ty) (d : Opnd) (a : Acc) : State :=
  match atomSends s st.core [a] with
  | some l => trySend s st.core l
  | none =>
    if (p.op.accs.head?.map (·.t)) ≠ some a.t ∨ !atomClear s st [a] then s
    else
      match a.ps.find? fun x => x.home != 0 with
      | some x => sendReq s sid st p a.t (.atgRequest (op == 7 && ty.width == 64)) x
      | none =>
        match detPerform s sid .phase [a] with
        | (s1, false) => s1
        | (s1, true) =>
          let (s2, o, f) := atomElem s1 st op ty a
          elemDone s2 sid p.id a.t (dstW d ty a.t (ldVal ty o)) f

/-- The elements of an unbuffered store that are performed with one: those in its sector of a node record, which a Vat finds all
or none of (R367); elsewhere each is by itself (R347). -/
def storeMates (p : Pend) (a : Acc) (x : Piece) : List Acc :=
  if x.home = 0 ∧ bitAt x.pa 51 then p.op.accs.filter fun b => b.ps.any fun y => sectorKey y.home y.pa == sectorKey x.home x.pa else [a]

/-- The bytes of a store's elements in thread order. -/
def storeCells (as : List Acc) : List (Nat × Byte) := as.flatMap fun b => b.keys.zip b.bs

/-- An unbuffered store's element (R229, R230, R342): after lower threads' to the same bytes and after the strand's committed
entries of its sectors. -/
def goStore (s : State) (sid : Nat) (st : Strand) (p : Pend) (a : Acc) : State :=
  match a.ps with
  | [x] =>
    let as := storeMates p a x
    let lower := p.op.accs.any fun b => decide (b.t < a.t) && !as.contains b && b.keys.any a.keys.contains
    let done := fun (s : State) => as.foldl (fun s b => elemDone s sid p.id b.t [] flNone) s
    if lower || st.earlierClash p.id as || st.pendingSectors (x.sectors.map (·.2)) then s
    else if x.ord = 0 then
      if x.home ≠ 0 then sendReq s sid st p a.t .writeLine x else done { s with mem := wrMs s.mem (storeCells as) }
    else
      match wcbRoom s st.core x.home x.pa with
      | (s1, false) => s1
      | (s1, true) =>
        if drainFull s1 st.core x.home x.sectors.length then s1
        else
          match detPerform s1 sid .phase as with
          | (s2, false) => s2
          | (s2, true) => done (drainCells s2 st.core sid x.home (x.ord == 2) (storeCells as))
  | _ => s

/-- The element of thread t of an operation in flight goes as far as it can (R333, R347). -/
def goElem (s : State) (sid id t : Nat) : State :=
  match nmGet s.strands sid with
  | none => s
  | some st =>
    match st.pend.find? (·.id == id) with
    | none => s
    | some p =>
      match p.op.accs.find? (·.t == t) with
      | none => s
      | some a =>
        if st.earlierClash id [a] || vatAsleep s [a] || reqOut s sid id t then s
        else
          match p.op with
          | .none => s
          | .load d _ _ _ _ => goLoad s sid st p d a
          | .atom op ty d _ _ _ _ => goAtom s sid st p op ty d a
          | .store _ => goStore s sid st p a

/-- TRACKED_WRITE_LAND (R44): a tracked result lands and clears its mark. Of an access in flight, the element of one thread, or of
every thread in turn, is performed first, each an access of its own (R347). -/
def execTrackedWriteLand (sid : Nat) (n : LandOf) (s : State) : Out :=
  let id := match n with | .all id => id | .one id _ => id
  match nmGet s.strands sid with
  | none => .next s
  | some st =>
    match st.pend.find? fun p => p.id == id && p.tracked && p.ok && st.st != .saved with
    | none => .next s
    | some p =>
      if p.op.accs.isEmpty then .next (landPend s sid st p)
      else
        let ts := match n with
          | .one _ t => [t]
          | .all _ => p.op.accs.map fun (a : Acc) => a.t
        .next (ts.foldl (fun s t => goElem s sid id t) s)

/-! ## At the home -/

/-- A byte of an access as its request reads it when it is applied: the strand's own newer bytes, and M of the home (R335). -/
def homeByte (s : State) (st : Strand) (t ord home key : Nat) : Byte :=
  if ord = 0 then rdM1 s.mem key
  else
    match st.buffered ord t key with
    | some b => b
    | none => ((s.core st.core).wcbByte home key).getD (rdM1 s.mem key)

/-- A request is applied at its home, and its reply performs the element (R336, R342, R348). A load that a line now covers in
part asks again behind the line (R335). -/
def applyReq (s : State) (sid id t : Nat) : State :=
  match nmGet s.strands sid with
  | none => s
  | some st =>
    match st.pend.find? (·.id == id) with
    | none => s
    | some p =>
      match p.op.accs.find? (·.t == t) with
      | none => s
      | some a =>
        match p.op with
        | .none => s
        | .load d _ _ _ _ =>
          let s := s.carry st.job .loadReply
          if (loadSends s st [a]).isSome then s
          else
            let bs := a.ps.flatMap fun (x : Piece) => x.keys.map (homeByte s st t x.ord x.home)
            if a.dec.breaks bs then lineBad s sid p
            else
              match detPerform s sid .load [a] with
              | (s1, false) => s1
              | (s1, true) =>
                let (ty, v, fl) := decVal a.dec bs
                let keep := (a.ps.filter (·.ord != 0)).flatMap fun x => x.sectors.map (·.2)
                let s2 := keep.foldl (fun (s : State) k => s.updCore st.core fun c => c.fillRlb k (sectorNow s st.core k)) s1
                elemDone s2 sid id t (dstW d ty t v) fl
        | .atom op ty d _ _ _ _ =>
          match detPerform s sid .phase [a] with
          | (s1, false) => s1
          | (s1, true) =>
            let (s2, o, f) := atomElem s1 st op ty a
            elemDone (s2.carry st.job .atgReply) sid id t (dstW d ty t (ldVal ty o)) f
        | .store _ => elemDone { s with mem := wrMs s.mem (storeCells [a]) } sid id t [] flNone

end Sys2Proof.Machine
end

