-- ==== Sys2Proof/Machine/Order.lean ====
section
/-!
DEFINITION. Prefetch, fences, regions and ownership (R238 to R240), the translation instructions and invalidation (R309
to R319), and the steps of the ordering machine that no instruction causes (R336, R355).
-/
namespace Sys2Proof.Machine

/-! ## Fences -/

/-- The instruction is over: its region start is the next word (R323), and the fragment goes on. -/
def doneRgn (s : State) (c : Ctx) (h : Hdr) : State := advance (setRgn s c.sid c.f (c.fr.pc + 12#57)) c.sid c.f h

/-- A TINV that the strand issued has not completed (R318). -/
def tinvOpen (s : State) (sid : Nat) : Bool := s.tinvs.any fun t => t.sid == some sid

/-- A fence (R239, R318, R337 to R339): the region ends; .rel and .full make the waits of a release; .acq and .full wait
for the strand's earlier loads; .full at .module or .fabric for its invalidations. True when the fence is over. -/
def fence (s : State) (c : Ctx) (sc : Scope) (kd : Kind) : State × Bool :=
  match endRegion s c.sid c.f c.fr.pc none with
  | (s1, false) => (s1, false)
  | (s1, true) =>
    let rel := kd == .rel || kd == .full
    let acq := kd == .acq || kd == .full
    let far := sc == .module || sc == .fabric
    match (if rel then release s1 c.sid c.f sc false else (s1, true)) with
    | (s2, false) => (s2, false)
    | (s2, true) =>
      let loading := ((nmGet s2.strands c.sid).map Strand.loading).getD false
      if (acq && loading) || (kd == .full && far && tinvOpen s2 c.sid) then (stay s2 c.sid c.f, false)
      else (if acq then dropRlb s2 c.st.core sc else s2, true)

/-- FENCE (R239). -/
def execFence (h : Hdr) (sc : Scope) (kd : Kind) (s : State) : Out :=
  issue h (uses [] []) s fun c s =>
    if (c.acts h).isEmpty then .next (advance s c.sid c.f h)
    else
      match fence s c sc kd with
      | (s1, false) => .next s1
      | (s1, true) => .next (doneRgn s1 c h)

/-- RGN (R239). -/
def execRgn (h : Hdr) (s : State) : Out :=
  issue h (uses [] []) s fun c s =>
    if (c.acts h).isEmpty then .next (advance s c.sid c.f h)
    else
      match endRegion s c.sid c.f (c.fr.pc + 12#57) none with
      | (s1, false) => .next s1
      | (s1, true) => .next (advance s1 c.sid c.f h)

/-- The leaves of a table that overlap a range of virtual addresses. -/
def leavesGo (s : State) (asid lo hi : Nat) : Nat → Nat → Nat → List Tlb
  | lvl, tab, base =>
    match lvl with
    | 0 =>
      (List.range 512).flatMap fun i =>
        let va := base + 4096 * i
        if hi ≤ va ∨ va + 4096 ≤ lo then []
        else match walkGo s asid va 0 tab with | .ok e => [e] | _ => []
    | l + 1 =>
      let sz := lvlSize (l + 1)
      (List.range 512).flatMap fun i =>
        let va := base + sz * i
        if hi ≤ va ∨ va + sz ≤ lo then []
        else
          let pte := s.rdM (tab + 8 * i) 8
          if !bitAt pte 0 then []
          else if bitAt pte 1 then (match walkGo s asid va (l + 1) tab with | .ok e => [e] | _ => [])
          else leavesGo s asid lo hi l (bitsOf pte 51 12 * 4096) va

/-- The mapped pages of an address space that overlap a range. -/
def leavesIn (s : State) (asid lo hi : Nat) : List Tlb :=
  let root := (spGet s.roots asid).toNat
  if bitAt root 0 then leavesGo s asid lo hi 4 (bitsOf root 51 12 * 4096) 0 else []

/-- Clears a team's ownership of the DETERM pages that overlap a range (R240). -/
def dropOwner (s : State) (asid team lo hi : Nat) : State :=
  let ks := (leavesIn s asid lo hi).map fun e => pkey e.home e.pa
  { s with det := s.det.filter fun d => !(d.owner == team && ks.contains d.page) }

/-- DREL (R240). -/
def execDrel (h : Hdr) (d a b : Opnd) (s : State) : Out :=
  issue h (uses [] (refsOf d false ++ refsOf a false ++ refsOf b false)) s fun c s =>
    if (c.acts h).isEmpty then .next (advance s c.sid c.f h)
    else
      match (teamKey s c.st.job c.st.batch (c.st.r.uni64 d % 65536)).filter fun k => c.st.teams.any (·.1 == k) with
      | none => trapOut s c 0x66#8
      | some k =>
        match fence s c .module .rel with
        | (s1, false) => .next s1
        | (s1, true) =>
          let lo := c.st.r.uni64 a
          let len := c.st.r.uni64 b
          let s2 := if len = 0 then s1 else dropOwner s1 (s1.asid c.st) k lo (lo + len)
          .next (doneRgn s2 c h)

/-- Brings a sector to a core's read line buffer (R335, R336): at once from the die's view, or by a request to its home, for the
job that asks. -/
def fillSector (s : State) (c home key : Nat) (jobs : List Nat) : State :=
  if home = 0 then s.updCore c fun x => x.fillRlb key (sectorNow s c key)
  else if pairFull s home ∨ !homeAdmits s home (key % 2 ^ 52) 32 true false then s
  else
    sendPkt s { src := s.module.toNat, dst := home - 1, num := 0, seq := 0, core := c, jobs := jobs, sid := 0, pc := 0#57, mask := 0#32, slot := 0,
                body := .fill (key % 2 ^ 52) }

/-- PFT (R238): at .core the sectors of the line are brought to the read line buffer; a line in L2 is no state of the machine. A
prefetch that fails is dropped. -/
def prefetch (s : State) (c : Ctx) (core : Bool) (t va : Nat) : State :=
  match coreXlate s c.st.core (c.st.tslot t) (s.asid c.st) c.st.batch va with
  | (.ok e, s1) =>
    let p := e.piece va 1
    if !core || e.ord == 0 then s1
    else (List.range 4).foldl (fun s i => fillSector s c.st.core e.home (pkey e.home (p.pa / 128 * 128 + 32 * i)) [c.st.job]) s1
  | (_, _) => s

def execPft (h : Hdr) (sc : Scope) (a b : Opnd) (s : State) : Out :=
  issue h (uses [] (refsOf a true ++ refsOf b false)) s fun c s =>
    let ts := c.memActs h [a, b]
    .next (advance (ts.foldl (fun s t => prefetch s c (sc == .core) t (c.gblAddr a b t)) s) c.sid c.f h)

/-! ## Locked translations -/

/-- The pages that cover a range, by a walk of each; or the address and the failure (R311). -/
def pagesGo (s : State) (c asid hi : Nat) : Nat → Nat → (State × List Tlb) ⊕ (State × Nat × XRes)
  | 0, _ => .inl (s, [])
  | n + 1, va =>
    if hi ≤ va then .inl (s, [])
    else
      match dieXlate s c asid va with
      | (.ok e, s1) =>
        match pagesGo s1 c asid hi n (e.base + e.size) with
        | .inl (s2, es) => .inl (s2, e :: es)
        | .inr r => .inr r
      | (r, s1) => .inr (s1, va, r)

/-- Whether a page lies under a lock record. -/
def LockRec.covers (r : LockRec) (e : Tlb) : Bool :=
  r.asid == e.asid && decide (r.base / 4096 * 4096 < e.base + e.size) && decide (e.base < r.base + r.len)

/-- A core without one record of a batch, and without the entries that no other record shares (R312). -/
def Core.unlock (x : Core) (batch base : Nat) : Core :=
  let locks := x.locks.filter fun r => !(r.batch == batch && r.base == base)
  { x with locks := locks, locked := x.locked.filter fun e => locks.any (·.covers e) }

/-- TLBP (R311). -/
def execTlbp (h : Hdr) (a b : Opnd) (s : State) : Out :=
  issue h (uses [] (refsOf a false ++ refsOf b false)) s fun c s =>
    if (c.acts h).isEmpty then .next (advance s c.sid c.f h)
    else
      match endRegion s c.sid c.f c.fr.pc none with
      | (s1, false) => .next s1
      | (s1, true) =>
        let base := c.st.r.uni64 a
        let len := c.st.r.uni64 b
        if len = 0 then .next (doneRgn s1 c h)
        else
          let asid := s1.asid c.st
          match pagesGo s1 c.st.core asid (base + len) (len / 4096 + 2) base with
          | .inr (s2, va, r) => .next (strandXFail s2 c.sid c.f va r)
          | .inl (s2, es) =>
            let co := (s2.core c.st.core).unlock c.st.batch base
            let new := es.filter fun e => !co.locked.contains e
            if 16 ≤ co.locks.length ∨ 64 < co.locked.length + new.length then .next (raiseUser s2 c.sid c.f 0x44#8 none)
            else
              let rec1 : LockRec := { base := base, len := len, asid := asid, batch := c.st.batch }
              .next (doneRgn (s2.setCore c.st.core { co with locks := co.locks ++ [rec1], locked := co.locked ++ new }) c h)

/-- TLBU (R312). -/
def execTlbu (h : Hdr) (a : Opnd) (s : State) : Out :=
  issue h (uses [] (refsOf a false)) s fun c s =>
    if (c.acts h).isEmpty then .next (advance s c.sid c.f h)
    else .next (advance (s.updCore c.st.core fun x => x.unlock c.st.batch (c.st.r.uni64 a)) c.sid c.f h)

/-- The result of XPRB for a translation (R314). -/
def xprbVal (e : Tlb) (src : Nat) (locked : Bool) : Nat :=
  let size := if e.size = 4096 then 0 else if e.size = 65536 then 1 else if e.size = 2 ^ 21 then 2 else 3
  (if e.home = 0 then 0 else (e.home - 1) * 2 ^ 52 + 2 ^ 10) + src * 2 ^ 12 + locked.toNat * 2 ^ 11 + e.fmt * 2 ^ 7 + e.ord * 2 ^ 5
    + e.x.toNat * 2 ^ 4 + e.w.toNat * 2 ^ 3 + size * 2 + 1

/-- XPRB's lookup (R314): no fill of the core's TLB and no service. -/
def xprb (s : State) (core asid va : Nat) : Nat :=
  if 2 ^ 57 ≤ va then 0
  else
    let co := s.core core
    match co.locked.find? (·.hits asid va) with
    | some e => xprbVal e 0 true
    | none =>
      match co.tlb.find? (·.hits asid va) with
      | some e => xprbVal e 0 false
      | none =>
        match dieHit s core asid va with
        | some e => xprbVal e 1 false
        | none => match walk s asid va with | .ok e => xprbVal e 2 false | _ => 0

def execXprb (h : Hdr) (d a : Opnd) (s : State) : Out :=
  let dw := refsOf d false
  issue h (usesT dw (refsOf a false)) s fun c s =>
    if (c.acts h).isEmpty then .next (advance s c.sid c.f h)
    else
      let ws := dstW d .b64 0 (xprb s c.st.core (s.asid c.st) (c.st.r.uni64 a))
      .next (advance (s.updStrand c.sid fun st => st.track c.f true dw ws flNone false .none) c.sid c.f h)

/-! ## Invalidation -/

/-- The agents that cache translations (R316): cores by number, dies from 4096 on. -/
def tinvAgents (s : State) : List Nat := nmKeys s.cores ++ (nmKeys s.dies).map (· + 4096)

/-- Starts an invalidation (R315, R316); an empty range completes at once. -/
def startTinv (s : State) (sid : Option Nat) (asid : Nat) (whole : Bool) (base len : Nat) : State :=
  if !whole && len == 0 then s
  else
    match tinvAgents s with
    | [] => s
    | ags =>
      let (n, s1) := s.tick
      { s1 with tinvs := s1.tinvs ++ [{ id := n, sid := sid, asid := asid, whole := whole, lo := base / 4096 * 4096,
                                        hi := ceilDiv (base + len) 4096 * 4096, left := ags, swept := [], after := [] }] }

/-- TINV (R315). -/
def execTinv (h : Hdr) (d a b : Opnd) (s : State) : Out :=
  issue h { uses [] (refsOf d false ++ refsOf a false ++ refsOf b false) with priv := true } s fun c s =>
    if (c.acts h).isEmpty then .next (advance s c.sid c.f h)
    else
      let x := c.st.r.uni64 d
      .next (advance (startTinv s (some c.sid) (x % 65536) (bitAt x 16) (c.st.r.uni64 a) (c.st.r.uni64 b)) c.sid c.f h)

/-- TINV_REGISTER_WRITE (R315): H2 starts the same operation through the register block, where its table admits H2 (R450). -/
def execTinvRegisterWrite (asid : Nat) (whole : Bool) (base len : Nat) (s : State) : Out :=
  .next (s.regWrite (hartAt 2 [0x1000] 0 8) fun s => startTinv s none (asid % 65536) whole base len)

/-- An address under a dropped translation: in the range, or in a page that an agent dropped. -/
def Tinv.reaches (t : Tinv) (va : Nat) : Bool :=
  t.whole || (decide (t.lo ≤ va) && decide (va < t.hi)) || t.after.any fun r => decide (r.1 ≤ va) && decide (va < r.2)

/-- Step 1 of R316 for a core: cached translations are dropped. -/
def Core.sweep (x : Core) (t : Tinv) : Core :=
  let keep := fun (l : List Tlb) => l.filter fun e => !t.drops e
  { x with last := x.last.filter fun e => !t.drops e.2, tlb := keep x.tlb, locked := keep x.locked, pipeC := keep x.pipeC,
           pipeG := keep x.pipeG, pipeM := keep x.pipeM }

/-- The translations that an agent drops, as address ranges. -/
def tinvDropped (s : State) (ag : Nat) (t : Tinv) : List (Nat × Nat) :=
  let es := if ag < 4096 then
      let x := s.core ag
      x.last.map (·.2) ++ x.tlb ++ x.locked ++ x.pipeC ++ x.pipeG ++ x.pipeM
    else (s.die (ag - 4096)).tlb
  ((es.filter t.drops).map fun e => (e.base, e.base + e.size)).eraseDups

/-- Step 3 of R316: an access issued under a dropped translation is still on its way on a core; a line of a strand that a flush
has removed may be one (R317). -/
def tinvBusy (s : State) (c : Nat) (t : Tinv) : Bool :=
  (s.strands.any fun e => e.2.core == c && s.asid e.2 == t.asid &&
    (e.2.pend.any (fun p => p.op.accs.any fun a => a.ps.any fun x => t.reaches x.va)
      || e.2.rsb.any fun r => r.ready && r.hold.isNone && t.reaches r.va))
  || (s.die (dieOf c)).mat.any (fun m => m.core == c && m.put.any fun x => t.drops x.1)
  || (s.core c).wcb.any fun l => l.sids.any fun i => match nmGet s.strands i with | some st => s.asid st == t.asid | none => true

/-- Buffered sectors whose translation was dropped are marked stale (R317). -/
def Strand.markStale (st : Strand) (t : Tinv) : Strand :=
  { st with rsb := st.rsb.map fun (e : RsbEnt) => if (e.open || e.hold.isSome) && t.reaches e.va then { e with stale := true } else e }

/-- TINV_AGENT_ACK (R316, R317): the agent drops the translations, marks buffered sectors stale and, when nothing issued
under them is on its way and no marker command holds one (R371), acknowledges; the last acknowledgement completes the invalidation. -/
def execTinvAgentAck (agent : Nat) (s : State) : Out :=
  match s.tinvs.find? fun t => t.left.contains agent with
  | none => .next s
  | some t0 =>
    let t := { t0 with after := (t0.after ++ tinvDropped s agent t0).eraseDups, swept := (t0.swept ++ [agent]).eraseDups }
    let s1 := if agent < 4096 then
        { s.updCore agent (·.sweep t) with
          strands := s.strands.map fun (e : Nat × Strand) =>
            if e.2.core == agent && s.asid e.2 == t.asid then (e.1, e.2.markStale t) else e }
      else s.updDie (agent - 4096) fun d => { d with tlb := d.tlb.filter fun e => !t.drops e }
    let cmds := s.marks ++ s.cores.flatMap fun e => e.2.markQ.filterMap (·.cmd)
    let held := decide (4096 ≤ agent) && cmds.any fun (m : MarkCmd) => dieOf m.core == agent - 4096 && m.tr.any t.drops
    let busy := (decide (agent < 4096) && tinvBusy s1 agent t) || held
    let t' := if busy then t else { t with left := t.left.filter (· != agent) }
    .next { s1 with tinvs := (s1.tinvs.map fun (x : Tinv) => if x.id == t.id then t' else x).filter fun x => !x.left.isEmpty }

/-! ## Steps of the ordering machine -/

/-- The bytes of an entry, as it drains. -/
def RsbEnt.cells (e : RsbEnt) : List (Nat × Byte) := e.final.map fun b => (pkey e.home (e.pa + b.off), b.b)

/-- The access that a byte of an entry belongs to (R347): a thread's element of a store, or, in a node record, the whole store
(R367). -/
def RsbEnt.access (e : RsbEnt) (key : Nat) : Nat :=
  ((e.final.find? fun b => pkey e.home (e.pa + b.off) == key).map fun b => if bitAt e.pa 51 then b.q * 32 else b.q * 32 + b.t).getD 0

/-- An entry leaves the buffer by the drain step (R336), once earlier committed entries of its sector have; a local one takes a
transaction entry (R355), and a remote one a line. The flag says that it has. -/
def drainEnt (s : State) (sid : Nat) (st : Strand) (e : RsbEnt) : State × Bool :=
  let earlier := (st.rsb.takeWhile fun x => x.id != e.id).any fun x => x.ready && x.hold.isNone && sectorKey x.home x.pa == sectorKey e.home e.pa
  if earlier || (e.ord != 0 && drainFull s st.core e.home 1) then (s, false)
  else
    match (if e.ord = 0 then (s, true) else wcbRoom s st.core e.home e.pa) with
    | (s1, false) => (s1, false)
    | (s1, true) =>
      let s2 := s1.updStrand sid fun x => { x with rsb := x.rsb.filter fun y => y.id != e.id }
      (if e.ord = 0 then { s2 with mem := wrMs s2.mem e.cells } else drainBytes s2 st.core sid e.home (e.ord == 2) e.cells e.access, true)

/-- Whether it is the turn of an entry held for a team, phase and rank (R343): the phase has completed, every lower rank's
entries have drained, and what they wrote is in M of its home. Of a job that has ended the own bytes stand for the last. -/
def heldTurn (s : State) (st : Strand) (e : RsbEnt) (h : Nat × Nat × Nat) : Bool :=
  let lower := s.strands.any fun x => x.2.rsb.any fun y => match y.hold with
    | some (k, p, r) => k == h.1 && p == h.2.1 && decide (r < h.2.2)
    | none => false
  let before := match nmGet s.teams h.1 with
    | some t => (t.held.filter fun x => decide (x.1 < h.2.2)).map (·.2)
    | none => e.cells.map (·.1)
  (phaseOver s h || (st.st == .ended && (nmGet s.teams h.1).isNone)) && !lower && allInM s before

/-- The end of a held entry whose page no longer serves it (R306, R308). -/
def heldEnd (s : State) (sid : Nat) (st : Strand) (n : Nat) (cause : BitVec 8) : State :=
  endJob (s.updStrand sid fun x => { x with rsb := x.rsb.filter fun (y : RsbEnt) => y.id != n }) st.job cause (faultRec st.job cause 0 0#32 st.core st.slot [])

/-- A held entry whose translation was dropped is translated again (R317, R319; log 74): a fault is serviced first. -/
def heldAgain (s : State) (sid : Nat) (st : Strand) (e : RsbEnt) : State :=
  if s.pfaults.any fun x => x.2.who == .held sid e.id then s
  else
    match dieXlate s st.core (s.asid st) e.va with
    | (.ok t, s1) =>
      let p := t.piece e.va 32
      if !t.w then heldEnd s1 sid st e.id 0x47#8
      else if !e.fits t then heldEnd s1 sid st e.id 0x42#8
      else s1.updStrand sid fun x => { x with rsb := x.rsb.map fun (y : RsbEnt) =>
        if y.id == e.id then (RsbEnt.again y p) else y }
    | (.pageFault, s1) => (s1.addFault (s1.asid st) e.va 0 0#32 (.held sid e.id)).2
    | (.bad, s1) => heldEnd s1 sid st e.id 0x48#8
    | (_, s1) => heldEnd s1 sid st e.id 0x46#8

/-- A held entry drains in its turn (R343), and a release that waited for it may leave. -/
def drainHeld (s : State) (sid : Nat) (st : Strand) (e : RsbEnt) (h : Nat × Nat × Nat) : State :=
  if !heldTurn s st e h then s
  else if e.stale then heldAgain s sid st e
  else
    match drainEnt s sid st e with
    | (s1, false) => s1
    | (s1, true) =>
      settleTeams { s1 with teams := nmUpd s1.teams h.1 fun t => { t with held := t.held ++ e.cells.map fun b => (h.2.2, b.1) } }

/-- DRAIN (R336): a ready entry drains, or an entry that a TBAR held in its turn (R343). -/
def execDrain (sid n : Nat) (s : State) : Out :=
  match nmGet s.strands sid with
  | none => .next s
  | some st =>
    match st.rsb.find? fun e => e.id == n && (e.ready || e.hold.isSome) with
    | none => .next s
    | some e =>
      match e.hold with
      | some h => .next (drainHeld s sid st e h)
      | none => .next (drainWake (drainEnt s sid st e).1 sid)

/-- The access of one drain that a write belongs to. -/
def PWrite.access (w : PWrite) : Nat × Nat := (w.seq, w.acc)

/-- The accesses that enter M with one (R336, R347): itself, and every one that drained earlier in its sector with a byte in common
with one that enters. -/
def propSet (ws : List PWrite) (q : Nat × Nat) : List (Nat × Nat) :=
  let older := (((ws.map PWrite.access).eraseDups).filter fun x => decide (x.1 < q.1)).reverse
  let bytes := fun (xs : List (Nat × Nat)) => (ws.filter fun w => xs.contains w.access).map (·.pa)
  older.foldl (fun xs x => if ws.any fun w => w.access == x && (bytes xs).contains w.pa then x :: xs else xs) [q]

/-- PROPAGATE (R336): the oldest write to a byte in P(d) enters M. The other bytes of the same access enter in the same step, so
that it enters M as a whole in each sector (R347, R367), behind the older writes to the same bytes (log 27). -/
def execPropagate (die pa : Nat) (s : State) : Out :=
  match (s.die die).p.find? fun w => w.pa == pa with
  | none => .next s
  | some w =>
    let xs := propSet ((s.die die).p.filter fun x => x.pa / 32 == pa / 32) w.access
    let go := fun (x : PWrite) => x.pa / 32 == pa / 32 && xs.contains x.access
    let bs := ((s.die die).p.filter go).map fun x => (x.pa, x.b)
    .next (settleTeams ({ s with mem := wrMs s.mem bs }.updDie die fun d => { d with p := d.p.filter fun x => !go x }))

/-- FILL (R336): a sector enters RLB(c) as source 4 of R335 reads it. -/
def execFill (c sector : Nat) (s : State) : Out :=
  let k := sector / 32 * 32
  if coreCount ≤ c then .next s else .next (fillSector s c (k / 2 ^ 52) k [])

/-- DROP (R336). -/
def execDrop (c sector : Nat) (s : State) : Out :=
  if coreCount ≤ c then .next s else .next (s.updCore c fun x => { x with rlb := nmDel x.rlb (sector / 32 * 32) })

/-- SEND (R336): a line leaves the write-combining buffer; it holds a transaction entry until its acknowledgement (R355, R411). -/
def execSend (c n : Nat) (s : State) : Out :=
  match (s.core c).wcb.find? fun l => l.id == n with
  | none => .next s
  | some l => .next (trySend s c l)

/-- WCB_AGE_SEND (R336): the oldest line that was made 2048 or more core cycles ago is sent. -/
def execWcbAgeSend (c : Nat) (s : State) : Out :=
  let co := s.core c
  match co.wcb.find? fun l => decide (l.born + 2048 ≤ co.cycle) with
  | none => .next s
  | some l => .next (trySend s c l)

/-- TRANSACTION_ACK (R355): a drained sector in the L2, or a line applied at its home, frees its entry. -/
def execTransactionAck (c : Nat) (s : State) : Out :=
  let out := (s.fab.pkts.filter fun k => k.core == c && k.src == s.module.toNat && (match k.body with | .line _ _ _ => true | _ => false)).length
  if out < (s.core c).ott then .next (s.updCore c fun x => { x with ott := x.ott - 1 }) else .next s

/-- RSB_ENTRY_WAIT (R324): an entry has freed, and the waiting store issues again and enters it. -/
def execRsbEntryWait (sid f : Nat) (s : State) : Out :=
  match nmGet s.strands sid with
  | none => .next s
  | some st =>
    match nmGet st.frags f with
    | none => .next s
    | some fr =>
      if fr.wait == .rsb && decide (st.rsb.length < 64) && decide (rsbUsed s st.core < 16384) then .next (s.ready sid f) else .next s

/-- Counters of an event source: each counter that selects it counts (R455). -/
def countEv (ev : NMap W64) (src : NMap Nat) (code : Nat) : NMap W64 :=
  src.foldl (fun m e => if e.2 == code then nmSet m e.1 ((nmGet m e.1).getD 0#64 + 1#64) else m) ev

/-- The event sources that the manual names (R455); their codes are the model's own (log 14). -/
def evTimingReplay : Nat := 1
def evScreenAbort : Nat := 2
def evBlockedPacket : Nat := 3
def evRecoverySend : Nat := 4

/-- SCREEN_SHADOW_END (R330): signatures that differ are reported for their strands; a faulted shadow is only counted. -/
def execScreenShadowEnd (n : Nat) (sigs : Option (List (Nat × W64))) (s : State) : Out :=
  match nmGet s.screens n with
  | none => .next s
  | some sc =>
    let s1 := { s with screens := nmDel s.screens n }
    match sigs with
    | none => .next (s1.updDie sc.die fun d => { d with ev := countEv d.ev d.src evScreenAbort })
    | some xs =>
      .next (sc.sigs.foldl (fun (s : State) g =>
        match xs.find? fun x => x.1 == g.1 with
        | some x => if x.2 == g.2 then s else s.event 0xE1#8 [sc.job, sc.pos.1, sc.pos.2.1, sc.pos.2.2, g.1]
        | none => s) s1)

end Sys2Proof.Machine
end

