-- ==== Sys2Proof/Machine/Sync.lean ====
section
/-!
DEFINITION. Register allocation (R198, R201 to R203, R241 to R243), teams and barriers (R212 to R217, R244 to R247),
transaction-barrier instructions (R248, R249).
-/
namespace Sys2Proof.Machine

/-! ## Register blocks -/

/-- Register-file blocks of given counts (R198): k56 to k63 take none. -/
def regBlocks (v k m : Nat) : Nat := v / 8 + m / 4 + ceilDiv (k / 16) 8

def Regs.blocks (r : Regs) : Nat := regBlocks r.valloc r.kalloc r.malloc

/-- A strand holds resources of its core. -/
def Strand.resident (st : Strand) : Bool := st.st == .active || st.st == .pooled

/-- Whether a strand's blocks and tiles are taken on its core: an ended one's until its batch ends (R209). -/
def holds (s : State) (st : Strand) : Bool :=
  st.resident || (st.st == .ended && ((nmGet s.batches st.batch).map Batch.resident).getD false)

/-- Register blocks that the strands of a core hold (R198). -/
def usedBlocks (s : State) (c : Nat) : Nat :=
  (s.strands.filter fun e => e.2.core == c && holds s e.2).foldl (fun n e => n + e.2.r.blocks) 0

/-- Free register blocks of a core (R196, R198). -/
def freeBlocks (s : State) (c : Nat) : Nat := (s.core c).reg * 64 - usedBlocks s c

/-- The allocation of a class, and its granule (R74). -/
def Regs.alloc (r : Regs) : GClass → Nat
  | .v => r.valloc
  | .k => r.kalloc
  | .m => r.malloc

def granule : GClass → Nat
  | .v => 8
  | .k => 16
  | .m => 4

def classMax : GClass → Nat
  | .v => 256
  | .k => 64
  | .m => 64

def roundUp (n g : Nat) : Nat := ceilDiv n g * g

/-- Sets a class's allocation; registers at or beyond it hold nothing (R64, R243), k56 to k63 excepted. -/
def Regs.setAlloc (r : Regs) (cl : GClass) (n : Nat) : Regs :=
  match cl with
  | .v => { r with valloc := n, v := r.v.filter fun e => e.1 < 32 * n }
  | .k => { r with kalloc := n, k := r.k.filter fun e => e.1 < n || 56 ≤ e.1 }
  | .m => { r with malloc := n, m := r.m.filter fun e => e.1 < 32 * n }

/-- The GROW.wait requests of a core, by order of issue: stamp, strand, fragment, class, count, mark. -/
def growQueue (s : State) (c : Nat) : List (Nat × Nat × Nat × GClass × Nat × Nat) :=
  let all := (s.strands.filter fun e => e.2.core == c && e.2.resident).flatMap fun e =>
    e.2.frags.filterMap fun f => match f.2.wait with
      | .grow cl n p q => some (q, e.1, f.1, cl, n, p)
      | _ => none
  all.mergeSort fun x y => x.1 ≤ y.1

/-- Whether the blocks for a new count are free (R201). -/
def growFits (s : State) (st : Strand) (cl : GClass) (n : Nat) : Bool :=
  (st.r.setAlloc cl n).blocks ≤ st.r.blocks + freeBlocks s st.core

/-- The predicate that GROW and XBT write: in every live thread of the fragment's mask (R242, R248). -/
def liveP (st : Strand) (mask : W32) (d : Opnd) (x : Bool) : List Write :=
  ((maskThreads mask).filter st.sp.live).flatMap fun t => dstW d .b32 t x.toNat

/-- GROW (R242). -/
def execGrow (h : Hdr) (wait : Bool) (cl : GClass) (d a : Opnd) (s : State) : Out :=
  let dw := refsOf d false
  issue h (usesT dw (refsOf a false)) s fun c s =>
    if (c.acts h).isEmpty then .next (advance s c.sid c.f h)
    else
      let n := roundUp (c.st.r.uni32 a) (granule cl)
      let done := fun (s : State) (x : Bool) =>
        Host.Outcome.next (advance (s.updStrand c.sid fun st => st.track c.f true dw (liveP st c.fr.mask d x) flNone false .none) c.sid c.f h)
      let grown := fun (s : State) => s.updStrand c.sid fun st => { st with r := st.r.setAlloc cl n }
      if n ≤ c.st.r.alloc cl then done s true
      else if classMax cl < n then done s false
      else if !wait then
        if (growQueue s c.st.core).isEmpty && growFits s c.st cl n then done (grown s) true else done s false
      else
        let (q, s1) := s.tick
        let clN := match cl with | .v => 0 | .k => 1 | .m => 2
        let p := c.st.nextPend
        .next (s1.updStrand c.sid fun st =>
          (st.track c.f false dw [] flNone false .none).updFrag c.f fun fr =>
            { fr with st := .blocked, wait := .grow cl n p q, evt := w64n (clN * 2 ^ 32 + n % 512), gap := max h.stall.toNat 1 })

/-- A GROW.wait completes (R202, R203): its mark may land with the result, and its fragment goes on. -/
def growDone (s : State) (sid f p : Nat) (ok : Bool) : State :=
  match nmGet s.strands sid with
  | none => s
  | some st =>
    match nmGet st.frags f, s.job? st with
    | some fr, some j =>
      let d : Opnd := match decode (j.word fr.pc) with | .ok (.grow _ _ _ d _) => d | _ => .none
      let ws := liveP st fr.mask d ok
      let s1 := s.updStrand sid fun st =>
        { st with pend := st.pend.map fun (x : Pend) => if x.id == p then { x with ok := true, writes := ws } else x }
      unblock s1 sid f
    | _, _ => s

/-- Whether the head of a core's GROW queue can be served (R202). -/
def growHead (s : State) (c : Nat) : Option (Nat × Nat × Nat × GClass × Nat × Nat) :=
  ((growQueue s c).head?).filter fun x => match nmGet s.strands x.2.1 with
    | some st => x.2.2.2.2.1 ≤ st.r.alloc x.2.2.2.1 || growFits s st x.2.2.2.1 x.2.2.2.2.1
    | none => false

/-- GROW_GRANT (R202): the head request is served when enough blocks are free. -/
def execGrowGrant (c : Nat) (s : State) : Out :=
  match growHead s c with
  | none => .next s
  | some (_, sid, f, cl, n, p) =>
    let s1 := s.updStrand sid fun st => if n ≤ st.r.alloc cl then st else { st with r := st.r.setAlloc cl n }
    .next (growDone s1 sid f p true)

/-- A fragment that keeps a GROW.wait from failing (R203). -/
def Frag.moves (fr : Frag) : Bool :=
  match fr.st with
  | .ready => true
  | .stalled => true
  | .blocked => match fr.wait with
    | .grow _ _ _ _ => false
    | .sleep _ => false
    | _ => true
  | _ => false

/-- The GROW.wait that fails (R203): the youngest, when no resident strand of the core can go on. -/
def growFails (s : State) (c : Nat) : Option (Nat × Nat × Nat × GClass × Nat × Nat) :=
  if (growHead s c).isSome || s.strands.any fun e => e.2.core == c && e.2.resident && e.2.frags.any fun f => f.2.moves then none
  else (growQueue s c).getLast?

/-- GROW_WAIT_FAIL (R203). -/
def execGrowWaitFail (c : Nat) (s : State) : Out :=
  match growFails s c with
  | none => .next s
  | some (_, sid, f, _, _, p) => .next (growDone s sid f p false)

/-- The least count that SHRK may leave (R201, R243). -/
def Strand.floor (st : Strand) (f : Nat) (cl : GClass) : Nat :=
  let pick := fun (x : Nat × Nat × Nat) => match cl with | .v => x.1 | .k => x.2.1 | .m => x.2.2
  if st.inHandler f then max (pick st.launch) (pick st.sp.halloc) else pick st.launch

def classOf : GClass → RC
  | .v => .v
  | .k => .k
  | .m => .m

/-- SHRK (R243): it waits for marks on the registers that it frees. -/
def execShrk (h : Hdr) (cl : GClass) (a : Opnd) (s : State) : Out :=
  issue h (uses [] (refsOf a false)) s fun c s =>
    let n := max (roundUp (c.st.r.uni32 a) (granule cl)) (c.st.floor c.f cl)
    if (c.acts h).isEmpty || decide (c.st.r.alloc cl ≤ n) then .next (advance s c.sid c.f h)
    else
      let frees := fun (r : RegRef) => r.c == classOf cl && decide (n ≤ r.n) && !(cl == .k && decide (56 ≤ r.n))
      if c.st.pend.any fun p => p.tracked && p.marks.any frees then
        .next (s.updFrag c.sid c.f fun fr =>
          { fr with st := .stalled, wait := .wsb ((c.st.pend.filter Pend.tracked).flatMap fun p => p.marks.filter frees) })
      else
        .next (advance (s.updStrand c.sid fun st =>
          let st := st.landIf fun p => !p.tracked && p.marks.any frees
          { st with r := st.r.setAlloc cl n }) c.sid c.f h)

/-! ## Teams -/

/-- Cores of a team on a die. -/
def coresOnDie (cs : List Nat) (d : Nat) : Nat := (cs.filter fun c => dieOf c == d).length

/-- Die combiner entries in use: teams with members on two or more cores of the die (R212). -/
def dieEntries (s : State) (d : Nat) : Nat := (s.teams.filter fun e => 2 ≤ coresOnDie (teamCores s e.2) d).length

/-- Package entries in use: teams that span two or more dies (R212). -/
def pkgEntries (s : State) : Nat := (s.teams.filter fun e => 2 ≤ (((teamCores s e.2).map dieOf).eraseDups).length).length

/-- Whether a member on a core finds its slot and combiner entries (R212, R244). -/
def teamRoom (s : State) (t : Option Team) (c : Nat) (slot : Bool) : Bool :=
  let cs := (t.map (teamCores s)).getD []
  let cs' := if cs.contains c then cs else cs ++ [c]
  let d := dieOf c
  let needDie := coresOnDie cs d < 2 && 2 ≤ coresOnDie cs' d
  let needPkg := ((cs.map dieOf).eraseDups).length < 2 && 2 ≤ ((cs'.map dieOf).eraseDups).length
  (slot || (s.core c).slots.length < 64) && (!needDie || dieEntries s d < 2048) && (!needPkg || pkgEntries s < 4096)

/-- The watchdog limit of a job (R215). -/
def jobLimit (s : State) (j : Nat) : Nat := (((nmGet s.jobs j).bind fun x => nmGet s.launches x.launch).map (·.limit)).getD (2 ^ 28)

/-- Gives a team a slot on a core, if it has none. -/
def addSlot (s : State) (c job num : Nat) (bidx : Option Nat) : State :=
  let co := s.core c
  if co.slots.any fun e => e.2.job == job && e.2.team == num && e.2.bidx == bidx then s
  else
    match firstFree (nmKeys co.slots) 65 0 with
    | none => s
    | some n =>
      let ph := ((s.teams.find? fun e => e.2.job == job && e.2.num == num && e.2.bidx == bidx).map (·.2.phase)).getD 0
      s.setCore c { co with slots := nmSet co.slots n { job := job, team := num, bidx := bidx, phase := ph, arrived := 0, sent := none, watch := none, limit := jobLimit s job } }

/-- The die entry of a team takes a count of one core; the package entry, of one die. -/
def dieCount (s : State) (t : Team) (c n : Nat) : State :=
  let k := combKey t.job t
  s.updDie (dieOf c) fun d => { d with comb := nmSet d.comb k { job := t.job, team := t.num, cnt := nmSet ((nmGet d.comb k).map (·.cnt) |>.getD []) c n } }

def pkgCount (s : State) (t : Team) (d n : Nat) : State :=
  let k := combKey t.job t
  { s with pkgComb := nmSet s.pkgComb k { job := t.job, team := t.num, cnt := nmSet ((nmGet s.pkgComb k).map (·.cnt) |>.getD []) d n } }

/-- The sum that a die entry holds. -/
def dieSum (s : State) (t : Team) (d : Nat) : Nat :=
  ((nmGet (s.die d).comb (combKey t.job t)).map fun x => (x.cnt.map (·.2)).foldl (· + ·) 0).getD 0

/-- A wider combiner takes over as the top: the former top sends its count up (R213). -/
def teamSpread (s : State) (old new : List Nat) (t : Team) : State :=
  match old with
  | [] => s
  | c0 :: _ =>
    let s1 := if old.length = 1 ∧ 2 ≤ new.length then
        let n := ((slotOf s c0 t.job t).map (·.2.now t)).getD 0
        dieCount (match slotOf s c0 t.job t with
          | some (i, sl) => s.updCore c0 fun x => { x with slots := nmSet x.slots i { sl.release t with arrived := n, sent := some n } }
          | none => s) t c0 n
      else s
    let d0 := dieOf c0
    if ((old.map dieOf).eraseDups).length = 1 ∧ 2 ≤ ((new.map dieOf).eraseDups).length then pkgCount s1 t d0 (dieSum s1 t d0) else s1

/-- TJOIN's refusals (R244), in the order its description gives. -/
def tjoinCause (s : State) (st : Strand) (num rank size : Nat) : Option (BitVec 8) :=
  let t := (s.teams.find? fun e => e.2.job == st.job && e.2.bidx.isNone && e.2.num == num)
  let bad : Bool := num == 0 || size == 0 || decide (size ≤ rank) ||
    (match t with
     | some (k, x) => x.size != size || (match nmGet x.ranks rank with | some (.member _) => true | _ => false) || st.teams.any (·.1 == k)
     | none => false)
  if bad then some 0x66#8
  else
    let slot := match t with | some (_, x) => (slotOf s st.core st.job x).isSome | none => false
    let joined := (st.teams.filter fun e => ((nmGet s.teams e.1).map (·.bidx.isNone)).getD false).length
    if !teamRoom s (t.map (·.2)) st.core slot || 16 ≤ joined then some 0x65#8 else none

/-- TJOIN's effect (R244): the state and the number of members. -/
def tjoin (s : State) (sid : Nat) (st : Strand) (num rank size : Nat) : State × Nat :=
  let (k, s0) : Nat × State := match teamKey s st.job st.batch num with
    | some k => (k, s)
    | none =>
      let (q, s') := s.tick
      (q, { s' with teams := nmSet s'.teams q { job := st.job, num := num, bidx := none, size := size, ranks := [], phase := 0, arrived := [],
                                                done := false, held := [], rels := [] } })
  match nmGet s0.teams k with
  | none => (s0, 0)
  | some t =>
    let old := teamCores s0 t
    let t' := { t with ranks := nmSet t.ranks rank (.member sid) }
    let s1 := { s0 with teams := nmSet s0.teams k t' }
    let s2 := s1.updStrand sid fun x => { x with teams := x.teams ++ [(k, rank)] }
    let s3 := addSlot s2 st.core st.job num none
    (teamSpread s3 old (teamCores s3 t') t', t'.members.length)

/-- TJOIN (R244). -/
def execTjoin (h : Hdr) (d a b : Opnd) (s : State) : Out :=
  let dw := refsOf d false
  issue h (usesT dw (refsOf a false ++ refsOf b false)) s fun c s =>
    if (c.acts h).isEmpty then .next (advance s c.sid c.f h)
    else
      let x := c.st.r.uni64 a
      let (num, rank, size) := (x % 65536, bitsOf x 47 32, c.st.r.uni64 b % 65536)
      match tjoinCause s c.st num rank size with
      | some e => trapOut s c e
      | none =>
        let (s1, n) := tjoin s c.sid c.st num rank size
        .next (advance (s1.updStrand c.sid fun st => st.track c.f true dw (dstW d .b64 0 (n % 65536)) flNone false .none) c.sid c.f h)

/-- The membership that a team operand names. -/
def Ctx.member (c : Ctx) (s : State) (a : Opnd) : Option (Nat × Nat) :=
  (teamKey s c.st.job c.st.batch (c.st.r.uni64 a % 65536)).bind fun k => (c.st.teams.find? (·.1 == k))

/-- TLEAVE's effect (R245). -/
def tleave (s : State) (sid k rank : Nat) : State :=
  match nmGet s.teams k with
  | none => s
  | some t =>
    let s1 := { s with teams := nmSet s.teams k { t with ranks := nmSet t.ranks rank .vacated, arrived := t.arrived.filter (· != sid) } }
    let s2 := s1.updStrand sid fun st => { st with teams := st.teams.filter (·.1 != k) }
    let s3 := match nmGet s2.strands sid with
      | none => s2
      | some st => st.frags.foldl (fun (s : State) (e : Nat × Frag) => match e.2.wait with
          | .tbar x _ _ _ => if x == k then unblockRgn s sid e.1 else s
          | _ => s) s2
    match nmGet s3.teams k with
    | none => s3
    | some t' =>
      let s4 := if t'.expected = 0 then completePhase s3 k t' else topCheck s3 k
      teamPrune s4 k

/-- TLEAVE (R245). -/
def execTleave (h : Hdr) (a : Opnd) (s : State) : Out :=
  issue h (uses [] (refsOf a false)) s fun c s =>
    if (c.acts h).isEmpty then .next (advance s c.sid c.f h)
    else
      match c.member s a with
      | none => trapOut s c 0x66#8
      | some (k, rank) => .next (advance (tleave s c.sid k rank) c.sid c.f h)

/-- TBAR (R246): the region ends, its DETERM entries held for the phase (R343); the fragment is BLOCKED, and the strand
arrives once its fragments cover its live threads and the waits of a release that .full asks for are over. -/
def execTbar (h : Hdr) (sc : Scope) (kd : Kind) (a : Opnd) (s : State) : Out :=
  issue h (uses [] (refsOf a false)) s fun c s =>
    if (c.acts h).isEmpty then .next (advance s c.sid c.f h)
    else
      match c.member s a with
      | none => trapOut s c 0x66#8
      | some (k, rank) =>
        let ph := ((nmGet s.teams k).map (·.phase)).getD 0
        match endRegion s c.sid c.f c.fr.pc (some (k, ph, rank)) with
        | (s1, false) => .next s1
        | (s1, true) =>
          let s2 := s1.updFrag c.sid c.f fun fr =>
            { fr with st := .blocked, wait := .tbar k ph sc (kd == .full), gap := max h.stall.toNat 1, rel := none,
                      evt := w64n (c.st.r.uni64 a % 65536 + ph % 65536 * 65536) }
          .next (tbarTry s2 c.sid)

/-- LSYN (R247). -/
def execLsyn (h : Hdr) (sc : Scope) (kd : Kind) (b : Opnd) (s : State) : Out :=
  issue h (uses [] (refsOf b false)) s fun c s =>
    if (c.acts h).isEmpty then .next (advance s c.sid c.f h) else rdvIssue (.lsyn h sc kd b) h (rdvMask c.st.r b) c s

/-- The arrival message of a slot or of a die entry to the combiner above it (R213), where one is due: a slot whose members
have all arrived sends its count, a die entry whose slots have all sent sends their sum. -/
def arrivalMsg (s : State) (fromDie : Bool) (unit k : Nat) (t : Team) : Option State :=
  let cs := teamCores s t
  if !fromDie then
    match slotOf s unit t.job t with
    | none => none
    | some (n, sl) =>
      if cs.length < 2 ∨ sl.phase ≠ t.phase ∨ sl.arrived ≠ (membersOn s t unit).length ∨ sl.sent = some sl.arrived then none
      else
        let s1 := dieCount s t unit sl.arrived
        some (topCheck (s1.updCore unit fun x => { x with slots := nmSet x.slots n { sl with sent := some sl.arrived } }) k)
  else
    let mine := cs.filter fun c => dieOf c == unit
    let all := mine.all fun c => ((slotOf s c t.job t).map fun x => x.2.phase == t.phase && x.2.sent.isSome).getD false
    let sum := dieSum s t unit
    let last := ((nmGet s.pkgComb (combKey t.job t)).bind fun x => nmGet x.cnt unit).getD 0
    if ((cs.map dieOf).eraseDups).length < 2 ∨ mine.isEmpty ∨ !all ∨ sum = last then none
    else some (topCheck (pkgCount s t unit sum) k)

/-- BARRIER_ARRIVAL_MSG (R213): the next message that is due from a core's slot, or a die's entry, for a team of that number;
0 names the batch teams. -/
def execBarrierArrivalMsg (fromDie : Bool) (unit job team : Nat) (s : State) : Out :=
  match (s.teams.filter fun e => e.2.job == job && e.2.num == team).findSome? fun e => arrivalMsg s fromDie unit e.1 e.2 with
  | some s' => .next s'
  | none => .next s

/-- BARRIER_RELEASE (R213). -/
def execBarrierRelease (c slot : Nat) (s : State) : Out :=
  match nmGet (s.core c).slots slot with
  | none => .next s
  | some sl =>
    match s.teams.find? fun e => e.2.job == sl.job && e.2.num == sl.team && e.2.bidx == sl.bidx && e.2.rels.contains c with
    | none => .next s
    | some (k, _) => .next (releaseSlot s c k)

/-- BAR_TIMEOUT (R215, R216): a watchdog at its limit ends the job, unless its phase has completed at the top. -/
def execBarTimeout (c slot : Nat) (s : State) : Out :=
  match nmGet (s.core c).slots slot with
  | none => .next s
  | some sl =>
    match sl.watch, s.teams.find? fun e => e.2.job == sl.job && e.2.num == sl.team && e.2.bidx == sl.bidx with
    | some n, some (k, t) =>
      let saved := t.members.any fun sid => match nmGet s.strands sid with | some st => st.st == .saved | none => false
      if n < sl.limit ∨ saved then .next s
      else if sl.phase ≠ t.phase then .next (s.updCore c fun x => { x with slots := nmSet x.slots slot { sl with watch := none } })
      else .next (endJob s sl.job 0x63#8 (barrierRec s c slot k))
    | _, _ => .next s

/-! ## Transaction barriers -/

/-- The record that an instruction names (R248), or XB_ADDR. -/
def xbOp (h : Hdr) (u : Uses) (a : Opnd) (s : State) (go : Ctx → Nat → State → Out) : Out :=
  issue h u s fun c s =>
    if (c.acts h).isEmpty then .next (advance s c.sid c.f h)
    else
      let r := c.st.r.uni32 a
      if xbOk s c.st.batch r then go c r s else trapOut s c 0x51#8

/-- XBI (R248): sets the fields and makes no advance check. -/
def execXbi (h : Hdr) (a b : Opnd) (s : State) : Out :=
  xbOp h (uses [] (refsOf a false ++ refsOf b false)) a s fun c r s =>
    let n := c.st.r.uni32 b % 2 ^ 20
    let x : Xb := { phase := 0, arr := n, exp := 0, reload := n, done := 0, rsv := 0 }
    .next (advance (storeScr s c.st.batch (atOff r (leBytes 16 x.enc))) c.sid c.f h)

/-- XBA (R219). -/
def execXba (h : Hdr) (a : Opnd) (s : State) : Out :=
  xbOp h (uses [] (refsOf a false)) a s fun c r s => .next (advance (xbUpdate s c.st.batch r Xb.arrive) c.sid c.f h)

/-- XBE (R219). -/
def execXbe (h : Hdr) (a b : Opnd) (s : State) : Out :=
  xbOp h (uses [] (refsOf a false ++ refsOf b false)) a s fun c r s =>
    .next (advance (xbUpdate s c.st.batch r (·.expect (c.st.r.uni64 b))) c.sid c.f h)

/-- XBW (R248, R249). -/
def execXbw (h : Hdr) (a b : Opnd) (s : State) : Out :=
  xbOp h (uses [] (refsOf a false ++ refsOf b false)) a s fun c r s =>
    let p := c.st.r.uni32 b % 16
    if (readXb s c.st.batch r).phase ≠ p then .next (dropRlb (advance s c.sid c.f h) c.st.core .module)
    else
      .next (s.updFrag c.sid c.f fun fr =>
        { fr with st := .blocked, wait := .xbw r p, evt := w64n (r + p * 2 ^ 32), gap := max h.stall.toNat 1 })

/-- XBT (R248, R249). -/
def execXbt (h : Hdr) (d a b : Opnd) (s : State) : Out :=
  let dw := refsOf d false
  xbOp h (usesT dw (refsOf a false ++ refsOf b false)) a s fun c r s =>
    let x := decide ((readXb s c.st.batch r).phase ≠ c.st.r.uni32 b % 16)
    let s1 := if x then dropRlb s c.st.core .module else s
    .next (advance (s1.updStrand c.sid fun st => st.track c.f true dw (liveP st c.fr.mask d x) flNone false .none) c.sid c.f h)

end Sys2Proof.Machine
end

