-- ==== Sys2Proof/Machine/Engines.lean ====
section
/-!
DEFINITION. The copy and gather engines (R220 to R222, R250 to R256, R350) and the hardware queues (R223, R224, R257).
-/
namespace Sys2Proof.Machine

/-! ## Waiting for an engine -/

/-- A user interrupt is held for delivery (R81); with %uvec = 0 (log 47), or after the strand has ended, it is discarded. -/
def holdInt (s : State) (sid f : Nat) (status : BitVec 8) (tag : W32) : State :=
  s.updStrand sid fun st =>
    if st.sp.uvec = 0#57 ∨ st.st = .ended then st else { st with held := st.held ++ [{ frag := f, status := status, tag := tag }] }

/-- Whether a strand's completion of a .ui command must wait (R221). -/
def heldFull (s : State) (sid : Nat) : Bool := ((nmGet s.strands sid).map fun st => decide (64 ≤ st.held.length)).getD false

/-- The stores of the strand are out (R350): every entry has drained, a sibling's uncommitted one too, but those that a TBAR holds
(log 70), and its remote ones have been sent. -/
def storesOut (s : State) (sid : Nat) : Bool :=
  match nmGet s.strands sid with
  | none => true
  | some st => st.ownDrained false && st.rsb.all (·.hold.isSome) && !((s.core st.core).wcb.any fun l => l.sids.contains sid)

/-- The fragment waits for a queue entry (R220), with the operands it read. -/
def waitCmd (s : State) (sid f : Nat) (h : Hdr) (r : CmdReq) : State :=
  let (q, s1) := s.tick
  s1.updFrag sid f fun fr => { fr with st := .blocked, wait := .cmd r q, evt := 0#64, gap := max h.stall.toNat 1 }

/-- Fragments of a core that wait for an entry, by stamp: strand, fragment, request. -/
def cmdQueue (s : State) (cores : List Nat) (g : CmdReq → Bool) : List (Nat × Nat × Nat × CmdReq) :=
  let all := (s.strands.filter fun e => cores.contains e.2.core && e.2.resident).flatMap fun e =>
    e.2.frags.filterMap fun f => match f.2.wait with
      | .cmd r q => if g r then some (q, e.1, f.1, r) else none
      | _ => none
  all.mergeSort fun x y => x.1 ≤ y.1

/-! ## Command blocks -/

/-- A little-endian word of the scratchpad. -/
def scrWord (s : State) (bid off n : Nat) : Nat := leVal (readScr s bid off n)

/-- The sectors of a row's bytes in ascending order of first appearance, and their bytes. -/
def groupSectors (bs : List (Nat × SrcByte)) : List (List (Nat × SrcByte)) :=
  ((bs.map fun b => b.1 / 32).eraseDups).map fun k => bs.filter fun b => b.1 / 32 == k

/-- Numbers the landings of rows in their order (R220, R253). -/
def numberLands (scr : Bool) (rows : List (List (Nat × SrcByte))) : List Landing :=
  ((rows.flatMap groupSectors).zipIdx).map fun (b, n) => { n := n, scr := scr, bytes := b }

/-- The index vectors of dimensions above 0, dimension 1 fastest, as the sums of source and destination strides. -/
def boxRows : List (Nat × Int × Int) → List (Int × Int)
  | [] => [(0, 0)]
  | (n, ss, ds) :: rest => (boxRows rest).flatMap fun (a, b) => (List.range n).map fun (i : Nat) => (a + (i : Int) * ss, b + (i : Int) * ds)

/-- An address of an engine: an offset stays an integer below 2^32, a virtual address wraps at 2^64. -/
def engAddr (scr : Bool) (x : Int) : Nat := if scr then x.toNat else toWrap 64 x

/-- The type of a code of R54. -/
def tyOfCode : Nat → Ty
  | 0 => .i8 | 1 => .i16 | 2 => .i32 | 3 => .i64 | 4 => .n8 | 5 => .n16 | 6 => .n32 | 7 => .n64
  | 8 => .b32 | 9 => .b64 | 10 => .g8 | 11 => .g16 | 12 => .f16 | 13 => .f32 | 14 => .f64 | _ => .m64

/-- What an accepted block asks for; `bad` says that XTYPE's width differs from the element size, which ends the command when
it runs (R252). -/
structure EngPlan where
  xbr : Option Nat
  bad : Bool
  src : Nat
  xty : Option Ty
  rawq : Option (Nat × Nat)
  lands : List Landing
  deriving DecidableEq, Repr

/-- The barrier record of a command (R251). -/
def planXbr (x : Nat) : Option Nat := if x = 2 ^ 32 - 1 then none else some x

/-- A transaction-barrier record named by a block that XB_BAD refuses. -/
def xbrBad (s : State) (bid x : Nat) : Bool := match planXbr x with | some o => !xbOk s bid o | none => false

/-- The CPY block at an offset (R251, R252, R255), or its cause. -/
def cpyPlan (s : State) (bid off : Nat) : EngPlan ⊕ BitVec 8 :=
  let size := scrSize s bid
  if off % 64 ≠ 0 ∨ size < off + 64 then .inr 0x80#8
  else
    let w := scrWord s bid off 8
    let nd := w % 16 + 1
    let dir := bitsOf w 5 4
    let esz : Nat := 2 ^ bitsOf w 7 6
    let xdec := bitAt w 11
    let word := fun o => scrWord s bid (off + o) 8
    let ssc := dir == 1 || dir == 3
    let dsc := dir == 0 || dir == 3
    if size < off + 64 + 24 * nd then .inr 0x80#8
    else if bitsOf w 31 16 ≠ 0 ∨ bitsOf w 10 8 ≠ 0 ∨ (!xdec ∧ bitsOf w 15 12 ≠ 0) ∨ scrWord s bid (off + 24) 40 ≠ 0 then .inr 0x80#8
    else if (List.range nd).any fun d => word (64 + 24 * d) / 2 ^ 32 != 0 then .inr 0x80#8
    else if xdec && ssc then .inr 0x80#8
    else
      let dims := (List.range nd).map fun d => (word (64 + 24 * d) % 2 ^ 32, sgn 64 (word (72 + 24 * d)), sgn 64 (word (80 + 24 * d)))
      let src := if ssc then word 8 % 2 ^ 32 else word 8
      let dst := if dsc then word 16 % 2 ^ 32 else word 16
      let empty := dims.any fun d => d.1 == 0
      let inBox := fun (base : Nat) (st : Nat × Int × Int → Int) =>
        let lo := dims.foldl (fun (a : Int) d => a + min 0 (((d.1 : Int) - 1) * st d)) (base : Int)
        let hi := dims.foldl (fun (a : Int) d => a + max 0 (((d.1 : Int) - 1) * st d)) (base : Int)
        decide (0 ≤ lo) && decide (hi + (esz : Int) ≤ (size : Int))
      if !empty && ((ssc && !inBox src (fun d => d.2.1)) || (dsc && !inBox dst (fun d => d.2.2))) then .inr 0x81#8
      else
        match planXbr (w / 2 ^ 32) with
        | some x => if xbOk s bid x then .inl (mk w nd dims src dst ssc dsc xdec esz empty) else .inr 0x51#8
        | none => .inl (mk w nd dims src dst ssc dsc xdec esz empty)
where
  mk (w _nd : Nat) (dims : List (Nat × Int × Int)) (src dst : Nat) (ssc dsc xdec : Bool) (esz : Nat) (empty : Bool) : EngPlan :=
    let d0 := dims.headD (0, 0, 0)
    let rows : List (List (Nat × SrcByte)) := if empty then [] else (boxRows dims.tail).map fun (a, b) =>
      (List.range d0.1).flatMap fun (i : Nat) =>
        let so : Int := a + (i : Int) * d0.2.1
        let dd : Int := (dst : Int) + b + (i : Int) * d0.2.2
        (List.range esz).map fun (k : Nat) =>
          (engAddr dsc (dd + (k : Int)),
           if xdec then SrcByte.elem so k
           else if ssc then SrcByte.scr (engAddr true ((src : Int) + so + (k : Int)))
           else SrcByte.mem (engAddr false ((src : Int) + so + (k : Int))))
    -- a later element of one row replaces the byte of an earlier one (R252)
    let dedup := rows.map fun r => (r.zipIdx.filter fun (b, i) => !((r.drop (i + 1)).any fun x => x.1 == b.1)).map (·.1)
    { xbr := planXbr (w / 2 ^ 32), bad := xdec && (tyOfCode (bitsOf w 15 12)).width != 8 * esz, src := src,
      xty := if xdec then some (tyOfCode (bitsOf w 15 12)) else none, rawq := none, lands := numberLands dsc dedup }

/-- The GTH or SCT block at an offset (R254, R255), or its cause. -/
def gthPlan (s : State) (bid off : Nat) (gather : Bool) : EngPlan ⊕ BitVec 8 :=
  let size := scrSize s bid
  if off % 16 ≠ 0 ∨ size < off + 48 then .inr 0x80#8
  else
    let word := fun o => scrWord s bid (off + o) 8
    let scr := bitAt (word 40) 0
    let base := if scr then word 0 % 2 ^ 32 else word 0
    let rows := word 8 / 2 ^ 32
    let idx := word 8 % 2 ^ 32
    let rlen := word 16 / 2 ^ 32
    let n := word 16 % 2 ^ 32
    let stride := word 24
    let limit := word 32 % 2 ^ 32
    if word 40 / 2 ≠ 0 ∨ rlen = 0 ∨ 4096 < rlen ∨ 2 ^ 20 < n ∨ idx % 4 ≠ 0 then .inr 0x80#8
    else if n ≠ 0 ∧ (size < idx + 4 * n ∨ size < rows + n * rlen) then .inr 0x81#8
    else
      let ks := (List.range n).map fun i => scrWord s bid (idx + 4 * i) 4
      if scr && (ks.any fun k => decide (k < limit) && decide (size < base + k * stride + rlen)) then .inr 0x81#8
      else
        if xbrBad s bid (word 32 / 2 ^ 32) then .inr 0x51#8
        else
          let tab := fun (k j : Nat) => if scr then base + k * stride + j else (base + k * stride + j) % 2 ^ 64
          let lands :=
            if gather then
              numberLands true (ks.zipIdx.map fun (k, i) => (List.range rlen).map fun j =>
                (rows + i * rlen + j, if limit ≤ k then SrcByte.zero else if scr then SrcByte.scr (tab k j) else SrcByte.mem (tab k j)))
            else
              numberLands scr (ks.zipIdx.map fun (k, i) =>
                if limit ≤ k then [] else (List.range rlen).map fun j => (tab k j, SrcByte.scr (rows + i * rlen + j)))
          .inl { xbr := planXbr (word 32 / 2 ^ 32), bad := false, src := base, xty := none, rawq := some (rlen, stride), lands := lands }

/-! ## Acceptance -/

def engQueue (s : State) (c : Nat) (gather : Bool) : List EngCmd := if gather then (s.core c).gathQ else (s.core c).copyQ

def setEngQueue (s : State) (c : Nat) (gather : Bool) (q : List EngCmd) : State :=
  s.updCore c fun x => if gather then { x with gathQ := q } else { x with copyQ := q }

/-- The request of a command instruction: which engine, its block, tag and interrupt. -/
def cmdParts (r : CmdReq) : Option (Bool × Bool × Nat × W32 × Bool) :=
  match r with
  | .cpy off tag ui => some (false, false, off, tag, ui)
  | .gth off tag ui => some (true, true, off, tag, ui)
  | .sct off tag ui => some (true, false, off, tag, ui)
  | _ => none

/-- Accepts a command into its engine's queue (R219, R250, R255): the block is read, its sectors are expected; a command
of zero extent completes in the same update, unless its interrupt or a marker must wait (R221, R399). `q` is the order of
its issue. -/
def acceptEng (s : State) (sid f : Nat) (r : CmdReq) (q : Nat) : State ⊕ BitVec 8 :=
  match nmGet s.strands sid, cmdParts r with
  | some st, some (eng, gather, off, tag, ui) =>
    match (if eng then gthPlan s st.batch off gather else cpyPlan s st.batch off) with
    | .inr e => .inr e
    | .inl p =>
      let cmd : EngCmd := { id := q, by_ := st.origin f, sid := sid, frag := st.fidOf f, job := st.job, batch := st.batch, asid := s.asid st, tag := tag, ui := ui, xbr := p.xbr,
                            src := p.src, xty := p.xty, rawq := p.rawq, lands := p.lands, out := [], seen := [], started := false,
                            status := if p.bad && !p.lands.isEmpty then 0x42#8 else 0#8,
                            wait := none, stop := 0 }
      let zero := p.lands.isEmpty && !(ui && heldFull s sid) && !omrkHolds s st.batch q
      let s1 := match p.xbr with
        | some x => xbUpdate s st.batch x fun b => if zero then b.arrive else b.expect p.lands.length
        | none => s
      if zero then .inl (if ui then holdInt s1 sid (st.fidOf f) 0#8 tag else s1)
      else .inl (setEngQueue s1 st.core eng (engQueue s1 st.core eng ++ [cmd]))
  | _, _ => .inl s

/-- CPY, GTH and SCT (R250, R350): the region ends, the strand's stores go out, and the command is accepted or waits for
a queue entry. -/
def engIssue (h : Hdr) (a b : Opnd) (mk : Nat → W32 → CmdReq) (s : State) : Out :=
  issue h (uses [] (refsOf a false ++ refsOf b false)) s fun c s =>
    if (c.acts h).isEmpty then .next (advance s c.sid c.f h)
    else
      match endRegion s c.sid c.f c.fr.pc none with
      | (s1, false) => .next s1
      | (s1, true) =>
        let r := mk (c.st.r.uni32 a) (BitVec.ofNat 32 (c.st.r.uni32 b))
        let eng := ((cmdParts r).map (·.1)).getD false
        let same := fun (x : CmdReq) => ((cmdParts x).map (·.1)) == some eng
        let s2 := s1.sends c.sid c.f r
        if c.st.acquiring || !storesOut s1 c.sid then .next (stay s1 c.sid c.f)
        else if 32 ≤ (engQueue s1 c.st.core eng).length ∨ !(cmdQueue s1 [c.st.core] same).isEmpty then .next (waitCmd s2 c.sid c.f h r)
        else
          let (q, s2) := s2.tick
          match acceptEng s2 c.sid c.f r q with
          | .inr e => .next (raiseUser s2 c.sid c.f e none)
          | .inl s2 => .next (doneRgn s2 c h)

def execCpy (h : Hdr) (ui : Bool) (a b : Opnd) (s : State) : Out := engIssue h a b (fun o t => .cpy o t ui) s
def execGth (h : Hdr) (ui : Bool) (a b : Opnd) (s : State) : Out := engIssue h a b (fun o t => .gth o t ui) s
def execSct (h : Hdr) (ui : Bool) (a b : Opnd) (s : State) : Out := engIssue h a b (fun o t => .sct o t ui) s

/-- ENGINE_QUEUE_ADMIT (R220): the oldest waiting command enters a freed entry, once the strand's stores are out (R350). -/
def execEngineQueueAdmit (c : Nat) (gather : Bool) (s : State) : Out :=
  if 32 ≤ (engQueue s c gather).length then .next s
  else
    match cmdQueue s [c] fun x => ((cmdParts x).map (·.1)) == some gather with
    | [] => .next s
    | (q, sid, f, r) :: _ =>
      if !storesOut s sid then .next s
      else
      match acceptEng s sid f r q with
      | .inr e => .next (raiseUser (s.updFrag sid f fun fr => { fr with st := .stalled, wait := .none }) sid f e none)
      | .inl s1 => .next (unblockRgn s1 sid f)

/-- ENGINE_COMMAND_START (R220): commands start in queue order. -/
def execEngineCommandStart (c : Nat) (gather : Bool) (s : State) : Out :=
  match (engQueue s c gather).find? fun x => !x.started with
  | none => .next s
  | some x => .next (setEngQueue s c gather ((engQueue s c gather).map fun (y : EngCmd) => if y.id == x.id then { y with started := true } else y))

/-! ## Running -/

/-- How an engine's access fails: a page to service, a malformed entry, a status, a refusal by the home (R418) with word 3 of its
record, or a packet that must be applied first. -/
inductive EngErr
  | page (va : Nat)
  | bad
  | status (c : BitVec 8)
  | denied (w : W64)
  | busy
  deriving DecidableEq, Repr

/-- A translation by an engine (R305, R306). -/
def engXlate (s : State) (p : Pipe) (c asid va : Nat) (write : Bool) : Except EngErr (State × Tlb) :=
  match pipeXlate s p c asid va with
  | (.ok e, s1) => if write && !e.w then .error (.status 0x47#8) else .ok (s1, e)
  | (.pageFault, _) => .error (.page va)
  | (.bad, _) => .error .bad
  | _ => .error (.status 0x46#8)

/-- A byte that an engine reads, as it was when its sector was read ahead, or now: through the die's local view or a load
packet, never through RLB(c) (R350). `first` says that the read asks the home for another sector; `ok` are the page formats that
serve it (R306). -/
def engRead (s : State) (p : Pipe) (c asid : Nat) (seen : NMap Ahead) (first : Bool) (va : Nat) (ok : Nat → Bool) : Except EngErr (State × Byte) :=
  match nmGet seen va with
  | some x => if !ok x.fmt then .error (.status 0x42#8) else .ok (s, x.b)
  | none => do
    let (s1, e) ← engXlate s p c asid va false
    let key := pkey e.home (e.pa + (va - e.base))
    if !ok e.fmt then .error (.status 0x42#8)
    else if first && e.home != 0 && pktsTo s1 e.home then .error .busy
    else if !homeAdmits s1 e.home (e.pa + (va - e.base)) 1 true false then .error (.denied (deniedWord e.home (e.pa + (va - e.base))))
    else .ok (if first then passPkt s1 e.home .loadReply else s1, if e.ord = 0 then rdM1 s1.mem key else srcByte s1 c key)

/-- Consecutive bytes. -/
def engReadN (s : State) (p : Pipe) (c asid : Nat) (seen : NMap Ahead) (ok : Nat → Bool) : Nat → Nat → Except EngErr (State × List Byte) :=
  go s true
where
  go (s : State) (first : Bool) : Nat → Nat → Except EngErr (State × List Byte)
    | _, 0 => .ok (s, [])
    | va, n + 1 => do
      let (s1, b) ← engRead s p c asid seen (first || va % 32 == 0) (va % 2 ^ 64) ok
      let (s2, bs) ← go s1 false (va + 1) n
      return (s2, b :: bs)

/-- An engine reads a whole sector ahead of its use, with the format of its page (R290, R350). -/
def engAhead (s : State) (p : Pipe) (c asid : Nat) (seen : NMap Ahead) (va : Nat) : State × NMap Ahead :=
  let a := va / 32 * 32
  let go : Except EngErr (State × NMap Ahead) := do
    let (s1, e) ← engXlate s p c asid a false
    let (s2, bs) ← engReadN s1 p c asid [] (fun _ => true) a 32
    return (s2, bs.zipIdx.foldl (fun m x => nmSet m (a + x.2) { b := x.1, fmt := e.fmt }) seen)
  match go with
  | .ok r => r
  | .error _ => (s, seen)

/-- A format page as an engine decodes it (R252): PLAIN data is no format here. -/
def xdecPair (fmt : Nat) (ty : Ty) : Bool := fmt != 0 && ldbPair fmt ty

/-- The bytes of an element of a Q page, decoded; the manual does not round it to .b32 (R252, log 64). %fflag is left as it is
(log 65). -/
def qBytes (q : QFmt) (j : Nat) (ty : Ty) (bs : List Byte) : List Byte :=
  if ty == .b32 then leBytes 4 (Config.xdecWord (leVal bs) j).toNat else leBytes (tyBytes ty) (decVal (.qel q j ty) bs).2.1

/-- Where element e of a formatted page lies (R106, R111, R112): the offsets and lengths of the bytes that give it, a Q record's
scale before the record. -/
def elemSpans (fmt : Nat) (e : Int) : List (Int × Nat) :=
  if qFmt fmt then (let i := e / 64; [(4 * (i / 256), 4), (4096 + i * (qLen (qOf fmt) : Int), qLen (qOf fmt))])
  else if fmt = 6 then [(4 * e, 4)]
  else [(128 * (e / (if fmt = 4 then 192 else 96)), 128)]

/-- The bytes of spans from an address on, in order. -/
def engSpans (s : State) (p : Pipe) (c asid : Nat) (seen : NMap Ahead) (ok : Nat → Bool) (src : Nat) : List (Int × Nat) → Except EngErr (State × List Byte)
  | [] => .ok (s, [])
  | x :: xs => do
    let (s1, b) ← engReadN s p c asid seen ok (toWrap 64 ((src : Int) + x.1)) x.2
    let (s2, bs) ← engSpans s1 p c asid seen ok src xs
    return (s2, b ++ bs)

/-- The bytes of element e of the formatted page at SRC, rounded to the type (R252), so that a NaN is the canonical one (R92). -/
def engElem (s : State) (p : Pipe) (c asid : Nat) (seen : NMap Ahead) (src : Nat) (ty : Ty) (e : Int) : Except EngErr (State × List Byte) := do
  let (s1, pg) ← engXlate s p c asid src false
  let fmt := pg.fmt
  if !xdecPair fmt ty then .error (.status 0x42#8)
  else if src % fmtAlign fmt ≠ 0 then .error (.status 0x41#8)
  else
    if qFmt fmt && (decide (e < 0) || decide ((qRecords (qOf fmt) : Int) ≤ e / 64)) then .error (.status 0x42#8)
    else
      let (s2, bs) ← engSpans s1 p c asid seen (fun x => x == fmt) src (elemSpans fmt e)
      if qFmt fmt then return (s2, qBytes (qOf fmt) (e % 64).toNat ty bs)
      else if fmt = 6 then return (s2, leBytes (tyBytes ty) (decVal .m32 bs).2.1)
      else
        let per : Nat := if fmt = 4 then 192 else 96
        if !sparseOk (per / 8) bs then .error (.status 0x83#8)
        else return (s2, leBytes (tyBytes ty) (Ty.tidy ty (decVal (.sp (tyBytes ty) (e % (per : Int)).toNat ty) bs).2.1))

/-- The raw Q record rule of GTH and SCT (R254), and CPY's refusal of Q pages (R252). -/
def rawFmt (rawq : Option (Nat × Nat)) (fmt : Nat) : Bool :=
  if qFmt fmt then
    match rawq with
    | some (rlen, stride) => rlen == qLen (qOf fmt) && stride == rlen
    | none => false
  else true

/-- The source sector of a landing's byte. -/
def SrcByte.sector : SrcByte → Option Nat
  | .mem va => some (va / 32)
  | _ => none

/-- The value of one byte of a landing; `last` is the sector that the byte before came from. -/
def engByte (s : State) (p : Pipe) (c : Nat) (x : EngCmd) (last : Option Nat) (b : SrcByte) : Except EngErr (State × Byte) :=
  match b with
  | .zero => .ok (s, 0#8)
  | .scr off => .ok (s, (readScr s x.batch off 1).headD 0#8)
  | .mem va => engRead s p c x.asid x.seen (last != some (va / 32)) va (rawFmt x.rawq)
  | .elem e k => do
    let (s1, bs) ← engElem s p c x.asid x.seen x.src (x.xty.getD .b32) e
    return (s1, (bs[k]?).getD 0#8)

def engBytes (s : State) (p : Pipe) (c : Nat) (x : EngCmd) (last : Option Nat) : List (Nat × SrcByte) → Except EngErr (State × List (Nat × Byte))
  | [] => .ok (s, [])
  | (a, b) :: r => do
    let (s1, v) ← engByte s p c x last b
    let (s2, vs) ← engBytes s1 p c x b.sector r
    return (s2, (a, v) :: vs)

/-- Puts one landing's bytes in their place (R253, R350): scratchpad, or a global sector by the drain step. The keys are
those of the global bytes written; a state without keys says that the landing has not been made. -/
def engPut (s : State) (p : Pipe) (c : Nat) (x : EngCmd) (scr : Bool) (bs : List (Nat × Byte)) : Except EngErr ((State × List Nat) ⊕ State) :=
  if scr then .ok (.inl (storeScr s x.batch bs, []))
  else
    match bs with
    | [] => .ok (.inl (s, []))
    | (a, _) :: _ => do
      let (s1, e) ← engXlate s p c x.asid a true
      if !rawFmt x.rawq e.fmt then .error (.status 0x42#8)
      else
        let cells := bs.map fun b => (pkey e.home (e.pa + (b.1 - e.base)), b.2)
        let key := pkey e.home ((e.pa + (a - e.base)) / 32 * 32)
        let det := match nmGet s1.strands x.sid with
          | some st => if e.ord = 3 then detAccess s1 x.sid st st.curTeam a key .phase else .inl s1
          | none => .inl s1
        match det with
        | .inr (cause, rec) => return .inr (endJob s1 x.job cause rec)
        | .inl s2 =>
          if e.ord = 0 then
            if e.home ≠ 0 ∧ pktsTo s2 e.home then .error .busy
            else if !homeAdmits s2 e.home (e.pa + (a - e.base)) bs.length false true then .error (.denied (deniedWord e.home (e.pa + (a - e.base))))
            else return .inl ({ passPkt s2 e.home .writeLine with mem := wrMs s2.mem cells }, [])
          else if drainFull s2 c e.home 1 then return .inr s2
          else
            match wcbRoom s2 c e.home (e.pa + (a - e.base)) with
            | (s3, false) => return .inr s3
            | (s3, true) => return .inl (drainBytes s3 c x.sid e.home (e.ord == 2) cells, cells.map (·.1))

/-- Removes a command from its queue. -/
def engDrop (s : State) (c : Nat) (gather : Bool) (id : Nat) : State :=
  setEngQueue s c gather ((engQueue s c gather).filter (·.id != id))

def engUpd (s : State) (c : Nat) (gather : Bool) (id : Nat) (g : EngCmd → EngCmd) : State :=
  setEngQueue s c gather ((engQueue s c gather).map fun (x : EngCmd) => if x.id == id then g x else x)

/-- The end of a command by a fault (R255): its sectors count as landed, the barrier update, then the interrupt's STATUS
or the end of the job. -/
def engFail (s : State) (c : Nat) (gather : Bool) (x : EngCmd) : State :=
  if x.ui && heldFull s x.sid then s
  else
    let s1 := engDrop s c gather x.id
    let s2 := match x.xbr with
      | some o => xbUpdate s1 x.batch o fun b => (b.land (max 1 x.lands.length)).arrive
      | none => s1
    if x.ui then holdInt s2 x.sid x.frag x.status x.tag
    else endJob s2 x.job x.status (originRec x.job x.status x.by_ x.denied)

/-- A running command meets a failed access. -/
def engError (s : State) (c : Nat) (gather : Bool) (x : EngCmd) (n : Nat) (e : EngErr) : State :=
  match e with
  | .busy => s
  | .bad => endJob s x.job 0x48#8 (originRec x.job 0x48#8 x.by_ [])
  | .status cause => engUpd s c gather x.id fun (y : EngCmd) => { y with status := cause }
  | .denied w => engUpd s c gather x.id fun (y : EngCmd) => { y with status := 0xC0#8, denied := [w] }
  | .page va =>
    let (k, s1) := s.addFault x.asid va 0 0#32 (.eng c gather x.id)
    engUpd s1 c gather x.id fun (y : EngCmd) => { y with wait := some k, stop := n }

/-- The completion of a command (R219, R221): the last sector's update, then the interrupt. -/
def engComplete (s : State) (c : Nat) (gather : Bool) (x : EngCmd) (zero : Bool) : State :=
  let s1 := engDrop s c gather x.id
  let s2 := match x.xbr with
    | some o => xbUpdate s1 x.batch o fun b => if zero then b.arrive else (b.land 1).arrive
    | none => s1
  if x.ui then holdInt s2 x.sid x.frag 0#8 x.tag else s2

/-- The command of a core by its identifier, with its engine. -/
def engFind (s : State) (c id : Nat) : Option (Bool × EngCmd) :=
  match (s.core c).copyQ.find? (·.id == id) with
  | some x => some (false, x)
  | none => ((s.core c).gathQ.find? (·.id == id)).map fun x => (true, x)

/-- The payload bytes that an engine's packets have carried from s to t count for the job's account (R451). -/
def billSent (s t : State) (j : Nat) : State :=
  let n := t.fab.passed - s.fab.passed
  if n = 0 then t else t.bill j fun b => { b with fab := b.fab + n }

/-- The source sector at an address is read ahead of the landings that take it (R350). -/
def engFetch (s : State) (c : Nat) (gather : Bool) (x : EngCmd) (va : Nat) : State :=
  let (s1, seen) := engAhead s (if gather then .gather else .copy) c x.asid x.seen va
  billSent s (engUpd s1 c gather x.id fun (y : EngCmd) => { y with seen := seen }) x.job

/-- Whether a landing takes bytes of the sector at an address (R350). -/
def Landing.takes (l : Landing) (s : State) (x : EngCmd) (va : Nat) : Bool :=
  l.bytes.any fun b => match b.2 with
    | .mem a => a / 32 == va / 32
    | .elem e _ =>
      let fmt := match walk s x.asid x.src with | .ok p => p.fmt | _ => 0
      (elemSpans fmt e).any fun r => (List.range r.2).any fun i => toWrap 64 ((x.src : Int) + r.1 + (i : Int)) / 32 == va / 32
    | _ => false

/-- A command whose access is in service translates only for the landings before the faulting one (R308). -/
def EngCmd.mayFetch (x : EngCmd) (s : State) (va : Nat) : Bool :=
  x.wait.isNone || x.lands.any fun l => decide (l.n < x.stop) && l.takes s x va

/-- SECTOR_LAND (R219 to R221, R253): landing n of a command, when no earlier one still to come writes a common byte. The
last sector's update is made when every sector is in M. Or the step reads a source sector for landings to come. -/
def execSectorLand (c cmd : Nat) (n : EngMove) (s : State) : Out :=
  match engFind s c cmd with
  | none => .next s
  | some (gather, x) =>
    if x.status ≠ 0#8 ∨ omrkHolds s x.batch x.id then .next s
    else
    match n with
    | .ahead va => .next (if x.mayFetch s va then engFetch s c gather x va else s)
    | .land n =>
    if !x.started then .next s
    else if x.lands.isEmpty then
      if allInM s x.out && !(x.ui && heldFull s x.sid) then .next (engComplete s c gather x (x.out.isEmpty && x.stop == 0)) else .next s
    else
      match x.lands.find? (·.n == n) with
      | none => .next s
      | some l =>
        let clash := x.lands.any fun y => y.n < n && y.scr == l.scr && y.bytes.any fun b => l.bytes.any fun d => d.1 == b.1
        let held := x.wait.isSome && decide (x.stop ≤ n)
        if clash || held then .next s
        else
          let p : Pipe := if gather then .gather else .copy
          match engBytes s p c x none l.bytes with
          | .error e => .next (engError s c gather x n e)
          | .ok (s1, bs) =>
            match engPut s1 p c x l.scr bs with
            | .error e => .next (engError s1 c gather x n e)
            | .ok (.inr s2) => .next s2
            | .ok (.inl (s2', ks)) =>
              let s2 := billSent s s2' x.job
              let rest := x.lands.filter (·.n != n)
              let s3 := engUpd s2 c gather x.id fun (y : EngCmd) => { y with lands := rest, out := y.out ++ ks, stop := max y.stop 1 }
              if rest.isEmpty then
                if allInM s3 (x.out ++ ks) && !(x.ui && heldFull s3 x.sid) then .next (engComplete s3 c gather { x with lands := rest } false)
                else .next s3
              else
                .next (match x.xbr with | some o => xbUpdate s3 x.batch o (·.land 1) | none => s3)

/-- ENGINE_COMMAND_FAULT (R255): a command whose access failed ends. -/
def execEngineCommandFault (c cmd : Nat) (s : State) : Out :=
  match engFind s c cmd with
  | none => .next s
  | some (gather, x) => if x.status = 0#8 then .next s else .next (engFail s c gather x)

/-! ## Hardware queues -/

/-- A queue of a core. -/
def State.hwq (s : State) (c n : Nat) : HwQ := (nmGet (s.core c).queues n).getD { batch := none, ents := [] }
def State.setHwq (s : State) (c n : Nat) (q : HwQ) : State := s.updCore c fun x => { x with queues := nmSet x.queues n q }

/-- Fragments that wait on a queue, by order of issue: stamp, strand, fragment. -/
def queueWaiters (s : State) (c q : Nat) (get : Bool) : List (Nat × Nat × Nat) :=
  let all := (s.strands.filter fun e => e.2.core == c && e.2.resident).flatMap fun e =>
    e.2.frags.filterMap fun f => match f.2.wait with
      | .qget n _ st => if get && n == q then some (st, e.1, f.1) else none
      | .qput n _ _ st => if !get && n == q then some (st, e.1, f.1) else none
      | _ => none
  all.mergeSort fun x y => x.1 ≤ y.1

/-- The queue that an instruction names, bound to the batch on first use, or QUEUE_OWNER (R223). -/
def queueOp (h : Hdr) (u : Uses) (a : Opnd) (s : State) (go : Ctx → Nat → State → Out) : Out :=
  issue h u s fun c s =>
    if (c.acts h).isEmpty then .next (advance s c.sid c.f h)
    else
      let n := c.st.r.uni64 a % 64
      let q := s.hwq c.st.core n
      match q.batch with
      | some b => if b = c.st.batch then go c n s else trapOut s c 0x64#8
      | none => go c n (s.setHwq c.st.core n { q with batch := some c.st.batch })

/-- The oldest entry goes to a QGET: each thread of its mask gets its value, others 0 (R257). -/
def takeEntry (ws : List Write) (e : W32 × List W32) : List Write :=
  ws.map fun w => { w with x := if inMask e.1 w.t then ((e.2[w.t]?).getD 0#32).setWidth 64 else 0#64 }

/-- QPUT (R224, R257). -/
def execQput (h : Hdr) (a b : Opnd) (s : State) : Out :=
  queueOp h (uses [] (refsOf a false ++ refsOf b false)) a s fun c n s =>
    let m := maskOf (c.acts h)
    let vals := threads.map fun t => if inMask m t then BitVec.ofNat 32 (c.st.r.src .b32 t b) else 0#32
    let q := s.hwq c.st.core n
    if 16 ≤ q.ents.length ∨ !(queueWaiters s c.st.core n false).isEmpty then
      let (st, s1) := s.tick
      .next (s1.updFrag c.sid c.f fun fr =>
        { fr with st := .blocked, wait := .qput n m vals st, evt := w64n n, gap := max h.stall.toNat 1 })
    else .next (advance (s.setHwq c.st.core n { q with ents := q.ents ++ [(m, vals)] }) c.sid c.f h)

/-- QGET (R224, R257). -/
def execQget (h : Hdr) (d a : Opnd) (s : State) : Out :=
  let dw := refsOf d false
  queueOp h (usesT dw (refsOf a false)) a s fun c n s =>
    let q := s.hwq c.st.core n
    let ws := c.dst h d .b32 ((c.acts h).map fun t => (t, 0))
    match q.ents with
    | e :: rest =>
      if (queueWaiters s c.st.core n true).isEmpty then
        let s1 := s.setHwq c.st.core n { q with ents := rest }
        .next (advance (s1.updStrand c.sid fun st => st.track c.f true dw (takeEntry ws e) flNone false .none) c.sid c.f h)
      else .next (block c h dw ws n s)
    | [] => .next (block c h dw ws n s)
where
  block (c : Ctx) (h : Hdr) (dw : List RegRef) (ws : List Write) (n : Nat) (s : State) : State :=
    let (q, s1) := s.tick
    let p := c.st.nextPend
    s1.updStrand c.sid fun st =>
      (st.track c.f false dw ws flNone false .none).updFrag c.f fun fr =>
        { fr with st := .blocked, wait := .qget n p q, evt := w64n n, gap := max h.stall.toNat 1 }

/-- QUEUE_WAKE (R224): the oldest blocked QGET takes an entry; otherwise the oldest blocked QPUT adds one. -/
def execQueueWake (c q : Nat) (s : State) : Out :=
  let hq := s.hwq c q
  match hq.ents, queueWaiters s c q true with
  | e :: rest, (_, sid, f) :: _ =>
    let p := (((nmGet s.strands sid).bind fun st => nmGet st.frags f).bind fun fr => fr.wait.pend?).getD 0
    let s1 := s.setHwq c q { hq with ents := rest }
    let s2 := s1.updStrand sid fun st =>
      { st with pend := st.pend.map fun (x : Pend) => if x.id == p then { x with ok := true, writes := takeEntry x.writes e } else x }
    .next (unblock s2 sid f)
  | _, _ =>
    match queueWaiters s c q false with
    | (_, sid, f) :: _ =>
      if 16 ≤ hq.ents.length then .next s
      else
        match ((((nmGet s.strands sid).bind fun st => nmGet st.frags f).map (fun (fr : Frag) => fr.wait)) : Option Wait) with
        | some (Wait.qput _ m vals _) => .next (unblock (s.setHwq c q { hq with ents := hq.ents ++ [(m, vals)] }) sid f)
        | _ => .next s
    | [] => .next s

end Sys2Proof.Machine
end

