-- ==== Sys2Proof/Machine/Matrix.lean ====
section
/-!
DEFINITION. The cluster's matrix engine (R262 to R292): descriptors, the reservation table, passes, tile commands,
suspensions, engine errors and faulted tiles.
-/
namespace Sys2Proof.Machine

/-! ## Commands -/

/-- The tiles a command names (R283). -/
def CmdReq.tiles : CmdReq → List Nat
  | .mma _ _ d _ _ => [d]
  | .mmam _ _ d _ _ => [d, d + 1]
  | .azro pair d => if pair then [d, d + 1] else [d]
  | .ald ty _ d _ => if ty == .m64 then [d, d + 1] else [d]
  | .ast ty _ _ _ d _ _ => if ty == .m64 then [d, d + 1] else [d]
  | _ => []

/-- The opcode of a matrix command (R57), or 0 for another. -/
def CmdReq.opc : CmdReq → Nat
  | .mma sp _ _ _ _ => if sp then 0x381 else 0x380
  | .mmam _ _ _ _ _ => 0x382
  | .azro _ _ => 0x383
  | .ald _ _ _ _ => 0x384
  | .ast _ _ _ _ _ _ _ => 0x385
  | _ => 0

def CmdReq.isMat (r : CmdReq) : Bool := r.opc != 0

/-- A pass, as opposed to a tile command (R264). -/
def CmdReq.isPass (r : CmdReq) : Bool := r.opc != 0 && decide (r.opc ≤ 0x382)

/-- A command that writes its tiles; AST only reads them (R56). -/
def CmdReq.writesTile (r : CmdReq) : Bool := r.isMat && r.opc != 0x385

def tileRefs (ts : List Nat) : List RegRef := ts.map fun n => ⟨.a, n⟩

/-- The element size that a type implies in a descriptor (R268). -/
def descSize (ty : Ty) : Nat := if ty == .m64 then 4 else tyBytes ty

/-- A dense descriptor breaks R267 or R268. -/
def descBad (ty : Ty) (d : W64 × W64) : Bool :=
  let a := d.1.toNat
  let b := d.2.toNat
  bitsOf a 63 57 != 0 || bitsOf b 63 32 != 0 || a % descSize ty != 0 || b % descSize ty != 0

/-- A sparse descriptor breaks R267 or R268. -/
def sparseBad (d : W64 × W64) : Bool := bitsOf d.1.toNat 63 57 != 0 || d.1.toNat % 128 != 0

/-! ## The reservation table -/

/-- The table entries of a cluster, of a pair, and of a strand. -/
def clusterCmds (s : State) (cl : Nat) : List MatCmd := (s.die (cl / 36)).mat.filter fun m => m.core / 4 == cl
def pairCmds (s : State) (pair : Nat) : List MatCmd := (s.die (pair / 72)).mat.filter fun m => m.core / 2 == pair
def strandCmds (s : State) (sid : Nat) : List MatCmd := (s.dies.flatMap fun e => e.2.mat).filter (·.sid == sid)

def updMat (s : State) (m : MatCmd) : State :=
  s.updDie (dieOf m.core) fun d => { d with mat := d.mat.map fun (x : MatCmd) => if x.id == m.id then m else x }

def dropMat (s : State) (m : MatCmd) : State :=
  s.updDie (dieOf m.core) fun d => { d with mat := d.mat.filter (·.id != m.id) }

/-- A command takes an entry (R263, R284), `q` the order of its issue: pending marks fall on the tiles it writes. -/
def takeMat (s : State) (sid f : Nat) (r : CmdReq) (q : Nat) : State :=
  match nmGet s.strands sid with
  | none => s
  | some st =>
    let prio := (((nmGet s.batches st.batch).bind fun b => nmGet s.launches b.launch).map (·.prio)).getD 0
    let pend := if r.writesTile then some st.nextPend else none
    let m : MatCmd := { id := q, by_ := st.origin f, sid := sid, frag := f, core := st.core, job := st.job, asid := s.asid st, req := r,
                        since := (s.core st.core).cycle, prio := prio, run := false, row := 0, susp := none, fl := flNone, mfl := false,
                        pend := pend, opB := [], put := [], out := [], seen := [] }
    let s2 := s.updDie (dieOf st.core) fun d => { d with mat := d.mat ++ [m] }
    if r.writesTile then s2.updStrand sid fun x => x.track f false (tileRefs r.tiles) [] flNone false .none else s2

/-- A matrix command at issue (R268, R284, R290): descriptors, the region's end, the strand's stores, an entry. -/
def matIssue (h : Hdr) (reads writes : List RegRef) (tracked : Bool) (s : State) (bad : Ctx → Bool) (mk : Ctx → CmdReq) : Out :=
  issue h { uses writes reads with tracked := tracked } s fun c s =>
    if (c.acts h).isEmpty then .next (advance s c.sid c.f h)
    else if bad c then trapOut s c 0x82#8
    else
      match endRegion s c.sid c.f c.fr.pc none with
      | (s1, false) => .next s1
      | (s1, true) =>
        if c.st.acquiring || !storesOut s1 c.sid then .next (stay s1 c.sid c.f)
        else
          let s1 := s1.sends c.sid c.f (mk c)
          let cl := c.st.core / 4
          let waiting := cmdQueue s1 [4 * cl, 4 * cl + 1, 4 * cl + 2, 4 * cl + 3] CmdReq.isMat
          if 32 ≤ (clusterCmds s1 cl).length ∨ !waiting.isEmpty then .next (waitCmd s1 c.sid c.f h (mk c))
          else
            let (q, s2) := s1.tick
            .next (doneRgn (takeMat s2 c.sid c.f (mk c) q) c h)

/-- The index of an operand's register. -/
def opndIx : Opnd → Nat
  | .v n => n.toNat
  | .k n => n.toNat
  | .m n => n.toNat
  | .a n => n.toNat
  | _ => 0

/-- The two uniform registers of a descriptor (R267). -/
def descRefs (o : Opnd) : List RegRef := [⟨.k, opndIx o⟩, ⟨.k, opndIx o + 1⟩]
def Ctx.desc (c : Ctx) (o : Opnd) : W64 × W64 := (c.st.r.rdK (opndIx o), c.st.r.rdK (opndIx o + 1))

/-- The tiles of an operand, two for a pair. -/
def tilesOf (pair : Bool) (o : Opnd) : List RegRef := tileRefs (if pair then [opndIx o, opndIx o + 1] else [opndIx o])

def execMma (h : Hdr) (ty : Ty) (d a b : Opnd) (s : State) : Out :=
  matIssue h (descRefs a ++ descRefs b) (tilesOf false d) true s
    (fun c => descBad ty (c.desc a) || descBad ty (c.desc b))
    (fun c => .mma false ty (opndIx d) (c.desc a) (c.desc b))

def execMmas (h : Hdr) (ty : Ty) (d a b : Opnd) (s : State) : Out :=
  matIssue h (descRefs a ++ descRefs b) (tilesOf false d) true s
    (fun c => sparseBad (c.desc a) || descBad ty (c.desc b))
    (fun c => .mma true ty (opndIx d) (c.desc a) (c.desc b))

/-- The correlation of the issue window as a binary32 encoding (R172, R173). -/
def rhoBits (x : Num) : BitVec 32 := BitVec.ofNat 32 (roundExt fmtF32 .rne false 0#64 x.ext).bits

def execMmam (h : Hdr) (cov : Cov) (d a b : Opnd) (s : State) : Out :=
  matIssue h (descRefs a ++ descRefs b ++ covRefs s cov) (tilesOf true d) true s
    (fun c => descBad .m64 (c.desc a) || descBad .m64 (c.desc b))
    (fun c => .mmam (rhoBits (covRho c.st cov)) c.st.sp.vclamp (opndIx d) (c.desc a) (c.desc b))

def execAzro (h : Hdr) (pair : Bool) (d : Opnd) (s : State) : Out :=
  matIssue h [] (tilesOf pair d) true s (fun _ => false) (fun _ => .azro pair (opndIx d))

def execAld (h : Hdr) (ty : Ty) (d a : Opnd) (s : State) : Out :=
  matIssue h (descRefs a) (tilesOf (ty == .m64) d) true s (fun c => descBad ty (c.desc a))
    (fun c => .ald ty c.st.sp.vclamp (opndIx d) (c.desc a))

/-- The stochastic rounding key of an engine command up to the element index: the leader's, at the instruction (R96). -/
def Ctx.cmdKey (c : Ctx) : W64 :=
  mix64 (mix64 (c.kb ^^^ BitVec.ofNat 64 (32 * c.st.sidx + c.leader.getD 0)) ^^^ BitVec.ofNat 64 c.fr.pc.toNat)

def execAst (h : Hdr) (ty : Ty) (rnd : Rnd) (sat : Bool) (d a : Opnd) (s : State) : Out :=
  matIssue h (descRefs a ++ tilesOf (ty == .m64) d) [] false s (fun c => descBad ty (c.desc a))
    (fun c => .ast ty rnd sat c.st.sp.vclamp (opndIx d) (c.desc a) c.cmdKey)

/-- MWT (R289): the fragment stalls while a command of its strand holds an entry; then a faulted mark is delivered. -/
def execMwt (h : Hdr) (s : State) : Out :=
  issue h (uses [] []) s fun c s =>
    if (c.acts h).isEmpty then .next (advance s c.sid c.f h)
    else if !(strandCmds s c.sid).isEmpty then .next (stay s c.sid c.f)
    else
      match c.st.faults with
      | (_, k56) :: _ => .next (raiseUser s c.sid c.f 0x84#8 (some k56))
      | [] => .next (advance s c.sid c.f h)

/-- Whether a blocked command may be accepted now (R44, R290): the strand's stores are out, and a command that marks tiles
finds fewer than 16 tracked instructions. -/
def mayTake (s : State) (sid : Nat) (r : CmdReq) : Bool :=
  storesOut s sid && (!r.writesTile || ((nmGet s.strands sid).map fun st => decide (st.trackedCount < 16)).getD true)

/-- RESERVATION_ADMIT (R263): the oldest blocked command of a cluster enters a freed entry. -/
def execReservationAdmit (cl : Nat) (s : State) : Out :=
  if 32 ≤ (clusterCmds s cl).length then .next s
  else
    match cmdQueue s [4 * cl, 4 * cl + 1, 4 * cl + 2, 4 * cl + 3] CmdReq.isMat with
    | [] => .next s
    | (q, sid, f, r) :: _ => if mayTake s sid r then .next (unblockRgn (takeMat s sid f r q) sid f) else .next s

/-! ## The arbiter -/

/-- Core cycles that an entry has waited. -/
def MatCmd.waited (m : MatCmd) (s : State) : Nat := (s.core m.core).cycle - m.since

/-- Whether an entry comes before another (R264). -/
def MatCmd.before (s : State) (x y : MatCmd) : Bool :=
  let wx := x.waited s
  let wy := y.waited s
  let lane : MatCmd → Nat := fun m => ((nmGet s.strands m.sid).map (fun (st : Strand) => st.lane)).getD 0
  let tie := if wx ≠ wy then decide (wy < wx) else if x.core ≠ y.core then decide (x.core < y.core) else
    if lane x ≠ lane y then decide (lane x < lane y) else decide (x.id < y.id)
  if 2048 ≤ wx ∨ 2048 ≤ wy then tie
  else if x.prio ≠ y.prio then decide (y.prio < x.prio) else tie

/-- The entry that a pair's arbiter starts (R264): its strand has no earlier command, and it waits for no fault. -/
def matPick (s : State) (pair : Nat) (pass : Bool) : Option MatCmd :=
  let all := pairCmds s pair
  if all.any fun m => m.run && m.req.isPass == pass then none
  else
    let can := all.filter fun m => !m.run && m.susp.isNone && m.req.isPass == pass && !((strandCmds s m.sid).any fun x => x.id < m.id)
      && !omrkHolds s (((nmGet s.strands m.sid).map fun (st : Strand) => st.batch).getD 0) m.id
    can.foldl (fun (best : Option MatCmd) m => match best with | none => some m | some b => if m.before s b then some m else some b) none

def execMatrixPassStart (pair : Nat) (s : State) : Out :=
  match matPick s pair true with
  | none => .next s
  | some m => .next (updMat s { m with run := true })

def execTileCommandStart (pair : Nat) (s : State) : Out :=
  match matPick s pair false with
  | none => .next s
  | some m => .next (updMat s { m with run := true })

/-! ## Operand fetch -/

/-- Page formats of a dense operand, and of ALD (R271, R286). -/
def denseFmt (ty : Ty) (fmt : Nat) : Bool := fmt == 0 || (ty == .g8 && qFmt fmt) || (ty == .m64 && fmt == 6)

/-- The element code of a type: W64 for a floating type, the M64 code or the raw bits otherwise (R269, R286). -/
def matVal (ty : Ty) (x : Nat) : Nat × Flags :=
  if ty == .m64 || ty == .b64 then (x % 2 ^ 64, flNone)
  else
    let n := (fmtOf ty).dec x
    let r := roundExt fmtW64 .rne false 0#64 n.ext
    (r.bits, r.fl ||| flIf n.isSig flNv)

/-- Column j of the row at address p, whose column 0 lies on the page e (R269); under `chk` a failing variance is an engine error
as the element is fetched (R275, R279). -/
def denseElem (s : State) (c asid : Nat) (seen : NMap Ahead) (ty : Ty) (chk : Bool) (e : Tlb) (p j : Nat) : Except EngErr (State × Nat × Flags) :=
  let same := fun (f : Nat) => f == e.fmt
  if e.fmt = 0 then
    let va := (p + j * tyBytes ty) % 2 ^ 64
    if ty == .m64 && va % 8 != 0 then .error (.status 0x41#8)
    else do
      let (s1, bs) ← engReadN s .matrix c asid seen same va (tyBytes ty)
      if ty == .m64 && chk && varFails (momVar (leVal bs)) then .error (.status 0x20#8) else return (s1, matVal ty (leVal bs))
  else if e.fmt = 6 then do
    let (s1, bs) ← engReadN s .matrix c asid seen same ((p + 4 * j) % 2 ^ 64) 4
    let (_, x, fl) := decVal .m32 bs
    if chk && varFails (momVar x) then .error (.status 0x20#8) else return (s1, x, fl)
  else
    let q := qOf e.fmt
    let off := p - e.base
    if off < 4096 ∨ (off - 4096) % qLen q ≠ 0 ∨ qRecords q ≤ (off - 4096) / qLen q then .error (.status 0x42#8)
    else do
      let (s1, sc) ← engReadN s .matrix c asid seen same (e.base + 4 * ((off - 4096) / qLen q / 256)) 4
      let (s2, rc) ← engReadN s1 .matrix c asid seen same p (qLen q)
      let n := qElem q (leVal sc) rc j
      return (s2, (roundExt fmtW64 .rne false 0#64 n.ext).bits, flIf n.isSig flNv)

def denseElems (s : State) (c asid : Nat) (seen : NMap Ahead) (ty : Ty) (chk : Bool) (e : Tlb) (p : Nat) : List Nat → Except EngErr (State × List (Nat × Flags))
  | [] => .ok (s, [])
  | j :: js => do
    let (s1, x) ← denseElem s c asid seen ty chk e p j
    let (s2, xs) ← denseElems s1 c asid seen ty chk e p js
    return (s2, x :: xs)

/-- The first n columns of the row at an address (R269). -/
def denseRow (s : State) (c asid : Nat) (seen : NMap Ahead) (ty : Ty) (chk : Bool) (p n : Nat) : Except EngErr (State × List (Nat × Flags)) := do
  let (s1, e) ← engXlate s .matrix c asid p false
  if !denseFmt ty e.fmt then .error (.status 0x42#8)
  else denseElems s1 c asid seen ty chk e p (List.range n)

/-- The address of row i of a dense operand (R269). -/
def rowAddr (d : W64 × W64) (i : Nat) : Nat := toWrap 64 ((d.1.toNat : Int) + (i : Int) * sgn 32 d.2.toNat)

/-- The descriptors that a command reads or writes at. -/
def CmdReq.descs : CmdReq → List (W64 × W64)
  | .mma _ _ _ a b => [a, b]
  | .mmam _ _ _ a b => [a, b]
  | .ald _ _ _ a => [a]
  | .ast _ _ _ _ _ a _ => [a]
  | _ => []

/-- Rows of a dense operand in order. -/
def denseRows (s : State) (c asid : Nat) (seen : NMap Ahead) (ty : Ty) (chk : Bool) (d : W64 × W64) (n : Nat) : List Nat → Except EngErr (State × List (List (Nat × Flags)))
  | [] => .ok (s, [])
  | i :: is => do
    let (s1, r) ← denseRow s c asid seen ty chk (rowAddr d i) n
    let (s2, rs) ← denseRows s1 c asid seen ty chk d n is
    return (s2, r :: rs)

/-- The sparse lines of a row, each checked by R112 (R274): line number and bytes. -/
def sparseLines (s : State) (c asid : Nat) (seen : NMap Ahead) (base per fmt : Nat) : List Nat → Except EngErr (State × List (Nat × List Byte))
  | [] => .ok (s, [])
  | l :: ls => do
    let (s1, bs) ← engReadN s .matrix c asid seen (fun f => f == fmt) ((base + 128 * l) % 2 ^ 64) 128
    if !sparseOk (per / 8) bs then .error (.status 0x83#8)
    else
      let (s2, r) ← sparseLines s1 c asid seen base per fmt ls
      return (s2, (l, bs) :: r)

/-- Row i of a sparse operand (R269, R274): none at a clear position. -/
def sparseRow (s : State) (c asid : Nat) (seen : NMap Ahead) (ty : Ty) (d : W64 × W64) (i K : Nat) : Except EngErr (State × List (Option Nat)) := do
  let fmt : Nat := if ty == .g8 then 4 else 5
  let per : Nat := if ty == .g8 then 192 else 96
  let ix := fun (k : Nat) => d.2.toNat / 2 ^ 32 + i * (d.2.toNat % 2 ^ 32) + k
  let (s1, ls) ← sparseLines s c asid seen d.1.toNat per fmt (((List.range K).map fun k => ix k / per).eraseDups)
  return (s1, (List.range K).map fun k =>
    let line := ((ls.find? fun l => l.1 == ix k / per).map (·.2)).getD []
    (sparseElem (tyBytes ty) line (ix k % per)).map fun x => (matVal ty x).1)

/-! ## Passes -/

/-- K of a pass (R271). -/
def passK (ty : Ty) : Nat :=
  match ty with
  | .g8 => 64
  | .f16 | .g16 => 32
  | .f32 => 8
  | _ => 16

/-- An element of a tile after a sum is added (R103, R270). -/
def addRoot (old : W64) (xs : List Ext) : Nat × Flags :=
  let (root, f1) := treeSum xs
  let (w, f2) := accumulate old.toNat root
  (w, f1 ||| f2)

/-- The flags that a pass may set (R272). -/
def passFlags (fl : Flags) : Flags := fl &&& (flNv ||| flOf)

/-- Element j of a row of an MMA or MMAS pass: the products of a row of A with column j of B (R270, R274). -/
def mmaElem (r : Regs) (d i : Nat) (as : List (Option Nat)) (b : List W64) (j : Nat) : Write × Flags :=
  let xs := as.zipIdx.map fun (a, k) =>
    match a with
    | none => (Ext.fin (XR.dy false 0 0), flNone)
    | some x => (fmtW64.dec x).mul (fmtW64.dec ((b[64 * k + j]?).getD 0#64).toNat)
  let (w, fl) := addRoot (r.rdA d i j) (xs.map (·.1))
  (⟨.a, d, 64 * i + j, w64n w⟩, passFlags (unionFlags (xs.map (·.2)) ||| fl))

/-- The exact moments of one product (R185, R195, R275): a NaN in an input or in either half makes both NaN (R176). -/
def momProduct (rho : Num) (x y : Nat) : Ext × Ext × Flags :=
  let (ma, va, mb, vb) := (meanNum x, varNum (momVar x), meanNum y, varNum (momVar y))
  let (mt, vt) := mmulTerms rho ma va mb vb
  let (m, f1) := momSum false mt
  let (v, f2) := momSum false vt
  if [rho, ma, va, mb, vb].any Num.isNan ∨ m = .nan ∨ v = .nan then (.nan, .nan, f1 ||| f2) else (m, v, f1 ||| f2)

/-- Element j of a row of an MMAM pass (R275). -/
def mmamElem (r : Regs) (d i : Nat) (rho : Num) (as : List Nat) (b : List W64) (j : Nat) : List Write × Flags :=
  let xs := as.zipIdx.map fun (a, k) => momProduct rho a ((b[64 * k + j]?).getD 0#64).toNat
  let (m, f1) := addRoot (r.rdA d i j) (xs.map (·.1))
  let (v, f2) := addRoot (r.rdA (d + 1) i j) (xs.map (·.2.1))
  ([⟨.a, d, 64 * i + j, w64n m⟩, ⟨.a, d + 1, 64 * i + j, w64n v⟩], passFlags (unionFlags (xs.map (·.2.2)) ||| f1 ||| f2))

/-- Whether elements of a moment operand hold a failing variance (R178, R275). -/
def momFailing (xs : List Nat) : Bool := xs.any fun x => varFails (momVar x)

/-- The B operand of a pass as it stands, fetched before the pass's next row unless it is at hand (R270). -/
def passB (s : State) (m : MatCmd) (ty : Ty) (chk : Bool) (b : W64 × W64) : Except EngErr (State × List W64) :=
  if m.opB.isEmpty then do
    let (s1, rs) ← denseRows s m.core m.asid m.seen ty chk b 64 (List.range (passK ty))
    return (s1, rs.flatMap fun r => r.map fun x => w64n x.1)
  else .ok (s, m.opB)

/-- The next row of a pass (R270, R275): B, the writes of row `m.row`, their flags, and whether a variance was clamped. -/
def passRow (s : State) (r : Regs) (m : MatCmd) : Except EngErr (State × List W64 × List Write × Flags × Bool) :=
  match m.req with
  | .mma sp ty d a b => do
    let (s1, bs) ← passB s m ty false b
    let (s2, as) ← (if sp then sparseRow s1 m.core m.asid m.seen ty a m.row (passK ty)
                    else do
                      let (s3, xs) ← denseRow s1 m.core m.asid m.seen ty false (rowAddr a m.row) (passK ty)
                      return (s3, xs.map fun x => some x.1))
    let es := (List.range 64).map fun j => mmaElem r d m.row as bs j
    return (s2, bs, es.map (·.1), unionFlags (es.map (·.2)), false)
  | .mmam rho vc d a b => do
    let (s1, bs) ← passB s m .m64 (!vc) b
    let (s2, xs) ← denseRow s1 m.core m.asid m.seen .m64 (!vc) (rowAddr a m.row) 16
    let bad1 := momFailing (bs.map (·.toNat))
    let bad2 := momFailing (xs.map (·.1))
    let es := (List.range 64).map fun j => mmamElem r d m.row (fmtF32.dec rho.toNat) (xs.map (·.1)) bs j
    return (s2, bs, es.flatMap (·.1), unionFlags (es.map (·.2)), bad1 || bad2)
  | _ => .ok (s, [], [], flNone, false)

/-! ## Tile commands -/

/-- The tile elements that ALD loads (R286). -/
def aldWrites (ty : Ty) (d : Nat) (xs : List (Nat × Flags)) : List Write × Flags × Bool :=
  if ty == .m64 then
    let half := fun (n : Num) => w64n (roundExt fmtW64 .rne false 0#64 n.ext).bits
    let ws := xs.zipIdx.flatMap fun (x, e) =>
      ([⟨.a, d, e, half (meanNum x.1)⟩, ⟨.a, d + 1, e, half (varNum (momVar x.1))⟩] : List Write)
    let sig := xs.any fun x => (meanNum x.1).isSig || (varNum (momVar x.1)).isSig
    (ws, unionFlags (xs.map (·.2)) ||| flIf sig flNv, momFailing (xs.map (·.1)))
  else (xs.zipIdx.map fun (x, e) => ⟨.a, d, e, w64n x.1⟩, unionFlags (xs.map (·.2)), false)

/-- One element as AST rounds it (R287, R114): bytes, flags, and whether its variance fails. -/
def astElem (r : Regs) (ty : Ty) (rnd : Rnd) (sat : Bool) (key : W64) (d : Nat) (m32 : Bool) (e : Nat) : List Byte × Flags × Bool :=
  let n := fun (t : Nat) => fmtW64.dec (r.rdA t (e / 64) (e % 64)).toNat
  let k := fun (j : Nat) => mix64 (key ^^^ BitVec.ofNat 64 j)
  if ty == .b64 then (leBytes 8 (r.rdA d (e / 64) (e % 64)).toNat, flNone, false)
  else if ty == .m64 then
    let f := if m32 then fmtF16 else fmtF32
    let w := if m32 then 16 else 32
    let rm := roundExt f rnd sat (k (2 * e)) (n d).ext
    let rv := roundExt f rnd sat (k (2 * e + 1)) (n (d + 1)).ext
    let v := f.dec rv.bits
    let neg := !v.isNan && v.neg
    let vb := if neg then 0 else rv.bits
    (leBytes (w / 4) (rm.bits + vb * 2 ^ w), rm.fl ||| rv.fl ||| flIf ((n d).isSig || (n (d + 1)).isSig) flNv, neg && !v.isZero)
  else
    let x := if ty == .f64 then roundExt fmtF64 .rne false 0#64 (n d).ext else roundExt (fmtOf ty) rnd sat (k e) (n d).ext
    (leBytes (tyBytes ty) x.bits, x.fl ||| flIf (n d).isSig flNv, false)

/-- The bytes of row i at their pages (R269, R287): the page of column 0 fixes the row's format. -/
def astRow (s : State) (r : Regs) (m : MatCmd) (ty : Ty) (rnd : Rnd) (sat vc : Bool) (d : Nat) (desc : W64 × W64) (key : W64) (i : Nat) :
    Except EngErr (State × List (Tlb × Nat × Byte) × Flags × Bool) := do
  let p := rowAddr desc i
  let (s1, e0) ← engXlate s .matrix m.core m.asid p true
  if !(e0.fmt == 0 || (ty == .m64 && e0.fmt == 6)) then .error (.status 0x42#8)
  else
    let m32 : Bool := e0.fmt == 6
    let size : Nat := if m32 then 4 else tyBytes ty
    let cols := (List.range 64).map fun j => ((p + j * size) % 2 ^ 64, astElem r ty rnd sat key d m32 (64 * i + j))
    if ty == .m64 && !m32 && p % 8 != 0 then .error (.status 0x41#8)
    else
      let (s2, bs) ← place s1 e0.fmt (cols.flatMap fun x => x.2.1.zipIdx.map fun (b, o) => (x.1 + o, b))
      let neg := cols.any (·.2.2.2)
      if neg && !vc then .error (.status 0x20#8) else return (s2, bs, unionFlags (cols.map (·.2.2.1)), neg)
where
  place (s : State) (fmt : Nat) : List (Nat × Byte) → Except EngErr (State × List (Tlb × Nat × Byte))
    | [] => .ok (s, [])
    | (va, b) :: r => do
      let (s1, e) ← engXlate s .matrix m.core m.asid va true
      if e.fmt ≠ fmt then .error (.status 0x42#8)
      else
        let (s2, xs) ← place s1 fmt r
        return (s2, (e, va, b) :: xs)

def astRows (s : State) (r : Regs) (m : MatCmd) (ty : Ty) (rnd : Rnd) (sat vc : Bool) (d : Nat) (desc : W64 × W64) (key : W64) :
    List Nat → Except EngErr (State × List (Tlb × Nat × Byte) × Flags × Bool)
  | [] => .ok (s, [], flNone, false)
  | i :: is => do
    let (s1, b1, f1, n1) ← astRow s r m ty rnd sat vc d desc key i
    let (s2, b2, f2, n2) ← astRows s1 r m ty rnd sat vc d desc key is
    return (s2, b1 ++ b2, f1 ||| f2, n1 || n2)

/-- The key of a byte on its page. -/
def byteKey (x : Tlb × Nat × Byte) : Nat := pkey x.1.home (x.1.pa + (x.2.1 - x.1.base))

/-- The DETERM ownership checks of AST's sectors, before any byte is written (R290, R344, R345). -/
def astDet (s : State) (sid : Nat) (bs : List (Tlb × Nat × Byte)) : State ⊕ (BitVec 8 × List W64) :=
  (bs.filter fun x => x.1.ord == 3).foldl (fun acc x =>
    match acc with
    | .inr e => .inr e
    | .inl s =>
      match nmGet s.strands sid with
      | none => .inl s
      | some st => detAccess s sid st st.curTeam x.2.1 (byteKey x / 32 * 32) .phase) (.inl s)

/-! ## Progress -/

/-- The end of a command (R272, R276, R277, R285): marks clear, flags are set, %mrow is 0, the entry frees. -/
def completeMat (s : State) (m : MatCmd) : State :=
  let s1 := dropMat s m
  let s2 := s1.updStrand m.sid fun st =>
    let st := match m.pend with | some p => st.delPend p | none => st
    { st with sp := { st.sp.addFlags m.fl m.mfl with mrow := 0#7 } }
  afterLand s2 m.sid

/-- What a running command does next. -/
inductive MatNext
  | row (s : State) (m : MatCmd) (ws : List Write)
  | done (s : State) (m : MatCmd) (ws : List Write)
  | page (va : Nat)
  | err (cause : BitVec 8)
  | dead (cause : BitVec 8) (more : List W64)
  | busy
  deriving DecidableEq, Repr

/-- A failed fetch: a page to service, an engine error (R279), or a cause that ends the job (R306, R308, R418), with word 3 of its
record. -/
def matErr : EngErr → MatNext
  | .page va => .page va
  | .bad => .dead 0x48#8 []
  | .busy => .busy
  | .denied w => .dead 0xC0#8 [w]
  | .status c => if c = 0x46#8 ∨ c = 0x47#8 then .dead c [] else .err c

/-- AST's next sector lands by the drain step, past the region store buffer (R287, R350), a STRONG one at M; after the last the
command is over when every sector is in M. -/
def astNext (s : State) (m : MatCmd) : MatNext :=
  match m.put with
  | [] => if allInM s m.out then .done s m [] else .busy
  | x :: _ =>
    let mine := fun (y : Tlb × Nat × Byte) => byteKey y / 32 == byteKey x / 32
    let cells := (m.put.filter mine).map fun y => (byteKey y, y.2.2)
    let rest := m.put.filter fun y => !mine y
    let home := x.1.home
    let pa := byteKey x % 2 ^ 52
    if x.1.ord = 0 then
      if home ≠ 0 ∧ pktsTo s home then .busy
      else if !homeAdmits s home (pa / 32 * 32) 32 false true then .dead 0xC0#8 [deniedWord home pa]
      else .row { passPkt s home .writeLine with mem := wrMs s.mem cells } { m with put := rest } []
    else if drainFull s m.core home 1 then .busy
    else
      match wcbRoom s m.core home pa with
      | (s1, false) => .row s1 m []
      | (s1, true) => .row (drainBytes s1 m.core m.sid home (x.1.ord == 2) cells) { m with put := rest, out := m.out ++ cells.map (·.1) } []

/-- The next action of a running command. -/
def matNext (s : State) (st : Strand) (m : MatCmd) : MatNext :=
  match m.req with
  | .mma _ _ _ _ _ | .mmam _ _ _ _ _ =>
    if 64 ≤ m.row then .done s m []
    else
      match passRow s st.r m with
      | .error e => matErr e
      | .ok (s1, b, ws, fl, neg) => .row s1 { m with row := m.row + 1, opB := b, seen := [], fl := m.fl ||| fl, mfl := m.mfl || neg } ws
  | .azro pair d =>
    .done s m ((if pair then [d, d + 1] else [d]).flatMap fun n => (List.range 4096).map fun e => (⟨.a, n, e, 0#64⟩ : Write))
  | .ald ty vc d desc =>
    match denseRows s m.core m.asid m.seen ty (!vc) desc 64 (List.range 64) with
    | .error e => matErr e
    | .ok (s1, rs) =>
      let (ws, fl, neg) := aldWrites ty d rs.flatten
      .done s1 { m with fl := fl, mfl := neg } ws
  | .ast ty rnd sat vc d desc key =>
    if 64 ≤ m.row then astNext s m
    else
      match astRows s st.r m ty rnd sat vc d desc key (List.range 64) with
      | .error e => matErr e
      | .ok (s1, bs, fl, neg) =>
        match astDet s1 m.sid bs with
        | .inr (cause, rec) => .row (endJob s1 m.job cause rec) m []
        | .inl s2 => .row s2 { m with row := 64, fl := fl, mfl := neg, put := bs } []
  | _ => .busy

/-- The running command of a pair, a pass or a tile command, with its strand. -/
def matRunning (s : State) (pair : Nat) (pass : Bool) : Option (MatCmd × Strand) :=
  ((pairCmds s pair).find? fun m => m.run && m.req.isPass == pass).bind fun m => (nmGet s.strands m.sid).map fun st => (m, st)

def putTile (s : State) (sid : Nat) (ws : List Write) : State := s.updStrand sid fun st => { st with r := st.r.wrAll ws }

/-- The sector at an address is fetched ahead for a running command, or is the next that an AST stores (R290). -/
def matAhead (s : State) (m : MatCmd) (va : Nat) : State :=
  let near := fun (y : Tlb × Nat × Byte) => y.2.1 / 32 == va / 32
  if m.put.any near then updMat s { m with put := m.put.filter near ++ m.put.filter fun y => !near y }
  else
    let (s1, seen) := engAhead s .matrix m.core m.asid m.seen va
    billSent s (updMat s1 { m with seen := seen }) m.job

/-- MATRIX_ROW_COMMIT (R270): the pass commits its next row to both halves in one step. Or the step fetches the sector at
an address for the running pass or tile command of the pair. -/
def execMatrixRowCommit (pair : RowMove) (s : State) : Out :=
  match pair with
  | .ahead pair pass va =>
    match matRunning s pair pass with
    | none => .next s
    | some (m, _) => .next (matAhead s m va)
  | .commit pair =>
    match matRunning s pair true with
    | none => .next s
    | some (m, st) =>
      match matNext s st m with
      | .row s1 m1 ws => .next (billSent s (updMat (putTile s1 m.sid ws) m1) m.job)
      | _ => .next s

/-- MATRIX_COMMAND_COMPLETE (R276, R285 to R287): a pass whose last row has committed, or the pair's tile command: AZRO
and ALD write their tiles, AST stores, and completes when its sectors are in M. -/
def execMatrixCommandComplete (pair : Nat) (s : State) : Out :=
  let done := fun (pass : Bool) =>
    match matRunning s pair pass with
    | none => none
    | some (m, st) =>
      match matNext s st m with
      | .done s1 m1 ws => some (billSent s (completeMat (putTile s1 m.sid ws) m1) m.job)
      | .row s1 m1 _ => if pass then none else some (billSent s (updMat s1 m1) m.job)
      | _ => none
  match done true with
  | some s1 => .next s1
  | none => .next ((done false).getD s)

/-- Suspends a command for the service of a fault (R276): a pass sets %mrow, releases its arrays, and fetches B anew. -/
def suspendMat (s : State) (m : MatCmd) (va : Nat) : State :=
  let (n, s1) := s.addFault m.asid va 0 0#32 (.mat (dieOf m.core) m.id)
  let s2 := updMat s1 { m with run := false, susp := some n, opB := [] }
  if m.req.isPass then s2.updStrand m.sid fun st => { st with sp := { st.sp with mrow := BitVec.ofNat 7 m.row } } else s2

/-- MATRIX_PASS_SUSPEND (R276). -/
def execMatrixPassSuspend (pair : Nat) (s : State) : Out :=
  let go := fun (pass : Bool) =>
    match matRunning s pair pass with
    | none => none
    | some (m, st) => match matNext s st m with | .page va => some (suspendMat s m va) | _ => none
  match go true with
  | some s1 => .next s1
  | none => .next ((go false).getD s)

/-- The k56 content of R281. -/
def matK56 (m : MatCmd) (cause : BitVec 8) : W64 :=
  w64n (cause.toNat * 2 ^ 56 + (m.req.tiles.headD 0) * 2 ^ 50 + m.req.opc * 2 ^ 40 + (if m.req.isPass then m.row else 0))

/-- An engine error (R280): the command ends, its tiles are faulted, and the strand's later commands are discarded with
theirs, those that wait for an entry too. -/
def failMat (s : State) (m : MatCmd) (cause : BitVec 8) : State :=
  let k56 := matK56 m cause
  let later := (strandCmds s m.sid).filter fun x => m.id < x.id
  let blocked := (cmdQueue s (List.range 4 |>.map fun i => m.core / 4 * 4 + i) CmdReq.isMat).filter fun e => e.2.1 == m.sid
  let tiles := (m.req.tiles ++ later.flatMap (·.req.tiles) ++ blocked.flatMap fun e => e.2.2.2.tiles).eraseDups
  let s1 := (m :: later).foldl dropMat s
  let s2 := s1.updStrand m.sid fun st =>
    let st := (m :: later).foldl (fun (st : Strand) x => match x.pend with | some p => st.delPend p | none => st) st
    { st with faults := st.faults ++ tiles.map fun n => (n, k56)
              sp := { st.sp.addFlags (if m.req.isPass then m.fl else flNone) false with mrow := BitVec.ofNat 7 (if m.req.isPass then m.row else 0) } }
  afterLand (blocked.foldl (fun s e => unblockRgn s e.2.1 e.2.2.1) s2) m.sid

/-- MATRIX_ENGINE_ERROR (R280); a cause that ends the job does so here (R276, R308). -/
def execMatrixEngineError (pair : Nat) (s : State) : Out :=
  let go := fun (pass : Bool) =>
    match matRunning s pair pass with
    | none => none
    | some (m, st) =>
      match matNext s st m with
      | .err cause => some (failMat s m cause)
      | .dead cause more => some (endJob s m.job cause (originRec m.job cause m.by_ more))
      | _ => none
  match go true with
  | some s1 => .next s1
  | none => .next ((go false).getD s)

/-! ## AMOV -/

/-- The row and half that AMOV's selector names (R288). -/
def Ctx.amovBase (c : Ctx) (b : Opnd) : Nat :=
  let s := c.offset b 0 % 128
  64 * (s % 64) + 32 * (s / 64)

/-- AMOV.get of one element (R288): value, flags, and whether the result's variance fails. -/
def amovGet (c : Ctx) (ty : Ty) (rnd : Rnd) (sat : Bool) (n e t : Nat) : MomRes :=
  let x := fun (k : Nat) => fmtW64.dec (c.st.r.rdA k (e / 64) (e % 64)).toNat
  if ty == .m64 then
    let rm := roundExt fmtF32 rnd sat (c.key t 0) (x n).ext
    let rv := roundExt fmtF32 rnd sat (c.key t 1) (x (n + 1)).ext
    let v := fmtF32.dec rv.bits
    let neg := !v.isNan && v.neg
    { x := momPack rm.bits (if neg then 0 else rv.bits), fl := rm.fl ||| rv.fl ||| flIf ((x n).isSig || (x (n + 1)).isSig) flNv,
      bad := neg && !v.isZero }
  else
    let r := roundExt (fmtOf ty) rnd sat (c.key t 0) (x n).ext
    { x := r.bits, fl := r.fl ||| flIf (x n).isSig flNv, bad := false }

/-- AMOV.put of one element (R288). -/
def amovPut (c : Ctx) (ty : Ty) (a : Opnd) (n e t : Nat) : List Write × Flags × Bool :=
  let w := fun (x : Num) => w64n (roundExt fmtW64 .rne false 0#64 x.ext).bits
  let x := c.st.r.src ty t a
  if ty == .m64 then
    let m := meanNum x
    let v := varNum (momVar x)
    ([⟨.a, n, e, w m⟩, ⟨.a, n + 1, e, w v⟩], flIf (m.isSig || v.isSig) flNv, varFails (momVar x))
  else
    let m := (fmtOf ty).dec x
    ([⟨.a, n, e, w m⟩], flIf m.isSig flNv, false)

/-- AMOV (R288). -/
def execAmov (h : Hdr) (ty : Ty) (rnd : Rnd) (sat put : Bool) (d a b : Opnd) (s : State) : Out :=
  let pair := ty == .m64
  if put then
    laneOpT h (usesT (tilesOf pair d) (refsOf a false ++ refsOf b false)) s fun c =>
      let xs := (c.acts h).map fun t => amovPut c ty a (opndIx d) (c.amovBase b + t) t
      let bad := xs.any (·.2.2)
      if bad && !c.st.sp.vclamp then .cause 0x20#8
      else .ok (xs.flatMap (·.1)) (unionFlags (xs.map (·.2.1))) bad
  else
    laneOpT h (usesT (refsOf d false) (tilesOf pair a ++ refsOf b false)) s fun c =>
      momWrite c h d (if pair then .m64 else ty) fun t => amovGet c ty rnd sat (opndIx a) (c.amovBase b + t) t

end Sys2Proof.Machine
end

