-- ==== Sys2Proof/Machine/Marker.lean ====
section
/-!
DEFINITION. Marker and Vat commands up to the mark bus (R363, R370 to R381, R386, R388, R394, R395, R397 to R399): the
core's mark queue, parameter blocks, registrations, classes, and the waits of WQT.
-/
namespace Sys2Proof.Machine

/-! ## The mark queue -/

/-- A command reaches the mark queue (R371): the region ends; the fragment is BLOCKED until the command is accepted. OMRK
does not block the strand (R399). -/
def markIssue (h : Hdr) (reads : List RegRef) (s : State) (mk : Ctx → CmdReq) : Out :=
  issue h (uses [] reads) s fun c s =>
    if (c.acts h).isEmpty then .next (advance s c.sid c.f h)
    else
      match endRegion s c.sid c.f c.fr.pc none with
      | (s1, false) => .next s1
      | (s1, true) =>
        let isMark := fun (r : CmdReq) => match r with | .mark _ _ _ _ | .omrk => true | _ => false
        let r := mk c
        let s2 := s1.sends c.sid c.f r
        if c.st.acquiring then .next (stay s1 c.sid c.f)
        else if 32 ≤ (s1.core c.st.core).markQ.length ∨ !(cmdQueue s1 [c.st.core] isMark).isEmpty then .next (waitCmd s2 c.sid c.f h r)
        else
          let (q, s2) := s2.tick
          let s3 := s2.updCore c.st.core fun x => { x with markQ := x.markQ ++ [{ id := q, sid := c.sid, frag := c.f, req := r, blk := [], cmd := none, rel := none }] }
          if r = .omrk then .next (doneRgn s3 c h)
          else .next (s3.updFrag c.sid c.f fun fr => { fr with st := .blocked, wait := .accept, evt := 0#64, gap := max h.stall.toNat 1 })

/-- The block offset of a command, read as .n32 (R370). -/
def markOp (h : Hdr) (mn sub : Nat) (cls : BitVec 4) (a : Opnd) (s : State) : Out :=
  markIssue h (refsOf a false) s fun c => .mark mn sub cls.toNat (c.st.r.uni32 a)

def execMkm (h : Hdr) (op : MkmOp) (cls : BitVec 4) (a : Opnd) (s : State) : Out :=
  markOp h 0x3C0 (match op with | .set => 0 | .or => 1 | .andn => 2) cls a s
def execMks (h : Hdr) (cls : BitVec 4) (a : Opnd) (s : State) : Out := markOp h 0x3C1 0 cls a s
def execMkc (h : Hdr) (cls : BitVec 4) (a : Opnd) (s : State) : Out := markOp h 0x3C2 0 cls a s
def execMkp (h : Hdr) (cls : BitVec 4) (a : Opnd) (s : State) : Out := markOp h 0x3C3 0 cls a s
def execMkl (h : Hdr) (cls : BitVec 4) (a : Opnd) (s : State) : Out := markOp h 0x3C4 0 cls a s
def execMkn (h : Hdr) (cls : BitVec 4) (a : Opnd) (s : State) : Out := markOp h 0x3C5 0 cls a s
def execMkr (h : Hdr) (cls : BitVec 4) (a : Opnd) (s : State) : Out := markOp h 0x3C6 0 cls a s
def execMkw (h : Hdr) (cls : BitVec 4) (a : Opnd) (s : State) : Out := markOp h 0x3C7 0 cls a s
def execMkt (h : Hdr) (cls : BitVec 4) (a : Opnd) (s : State) : Out := markOp h 0x3C8 0 cls a s
def execHins (h : Hdr) (cls : BitVec 4) (a : Opnd) (s : State) : Out := markOp h 0x3C9 0 cls a s
def execVred (h : Hdr) (a : Opnd) (s : State) : Out := markOp h 0x3CC 0 0#4 a s
def execVcmd (h : Hdr) (cls : BitVec 4) (a : Opnd) (s : State) : Out := markOp h 0x3CD 0 cls a s
def execOmrk (h : Hdr) (s : State) : Out := markIssue h [] s fun _ => .omrk

/-! ## Parameter blocks -/

/-- A little-endian field of a block. -/
def blkN (b : List Byte) (off n : Nat) : Nat := leVal ((b.drop off).take n)

/-- Size and alignment of a command's block (R371, R374 to R380, R386, R397, R398). -/
def blkShape (mn : Nat) : Nat × Nat :=
  match mn with
  | 0x3C0 => (320, 64)
  | 0x3C3 => (64, 64)
  | 0x3C4 | 0x3C5 => (32, 8)
  | 0x3C6 | 0x3C7 | 0x3C8 => (24, 8)
  | 0x3CC => (96, 32)
  | 0x3CD => (80, 16)
  | _ => (16, 8)

/-- MKP's fields (R380). -/
structure Mkp where
  hops : Nat
  hid : Nat
  acc : Bool
  stepped : Bool
  edge : Nat
  nelem : Nat
  etype : Nat
  comb : Nat
  slot : Bool
  dslot : Nat
  dplane : Nat
  sslot : Nat
  splane : Nat
  tmask : Nat
  deriving DecidableEq, Repr

def mkpOf (b : List Byte) : Mkp :=
  let w := blkN b 0 8
  { hops := bitsOf w 55 40, hid := bitsOf w 39 36, acc := bitAt w 35, stepped := bitAt w 34, edge := bitsOf w 33 32,
    nelem := bitsOf w 30 24 + 1, etype := bitsOf w 23 20, comb := bitsOf w 19 16, slot := bitAt w 15, dslot := bitsOf w 14 13,
    dplane := bitsOf w 12 8, sslot := bitsOf w 7 6, splane := bitsOf w 4 0, tmask := blkN b 32 32 }

/-- Bytes of a wave's element (R380). -/
def Mkp.esz (p : Mkp) : Nat := if p.etype = 4 ∨ p.etype = 5 then 8 else 4

/-- A combination that R381's table does not allow; `hids` are the handlers the job has installed. -/
def mkpBad (p : Mkp) (hids : List Nat) : Bool :=
  let int := p.etype == 1 || p.etype == 2
  let ok :=
    match p.comb with
    | 0 => if p.slot then p.etype == 0 && p.edge == 0 else true
    | 1 => p.slot && p.etype == 0 && p.edge == 0
    | 2 | 3 => p.slot && decide (1 ≤ p.etype) && decide (p.etype ≤ 4) && (p.edge != 2 || p.etype == 3 || p.etype == 4)
    | 4 => p.slot && decide (1 ≤ p.etype) && (if int then p.edge != 2 else p.stepped)
    | 5 => p.stepped && hids.contains p.hid
    | _ => false
  !ok || decide (5 < p.etype) || p.edge == 3 || decide (256 < p.nelem * p.esz)

/-- A block that breaks its table (R371): misplaced values and nonzero reserved fields. -/
def blkBad (mn : Nat) (b : List Byte) (hids : List Nat) : Bool :=
  let w := fun (o : Nat) => blkN b o 8
  let zero := fun (o n : Nat) => (b.drop o).take n |>.any (· != 0#8)
  match mn with
  | 0x3C0 =>
    bitsOf (w 0) 63 32 != 0 || bitsOf (w 0) 7 5 != 0 || decide (4 < bitsOf (w 0) 14 12) ||
      (List.range 4).any (fun q => decide (256 < bitsOf (w 8) (16 * q + 15) (16 * q))) || zero 16 48
  | 0x3C1 => decide (2 ^ 20 < bitsOf (w 8) 31 0) || bitsOf (w 8) 39 37 != 0 || bitsOf (w 8) 63 41 != 0
  | 0x3C2 => bitsOf (w 0) 63 36 != 0 || bitsOf (w 8) 63 32 != 0
  | 0x3C3 => bitsOf (w 0) 63 56 != 0 || bitAt (w 0) 31 || bitAt (w 0) 5 || zero 8 24 || mkpBad (mkpOf b) hids
  | 0x3C4 | 0x3C5 => w 8 % 8 != 0 || bitsOf (w 16) 63 49 != 0 || w 24 != 0
  | 0x3C6 | 0x3C7 =>
    decide (2 ^ 20 < bitsOf (w 8) 31 0) || bitsOf (w 8) 34 32 == 7 || bitsOf (w 8) 63 35 != 0 || w 16 % 4 != 0
  | 0x3C8 =>
    let x := w 8
    bitsOf x 11 8 == 0 || decide (3 < bitsOf x 11 8) || decide (5 < bitsOf x 14 12) || bitAt x 15 || bitsOf x 23 21 != 0 || bitsOf x 63 25 != 0
      || bitsOf (w 16) 63 32 != 0
  | 0x3C9 => w 0 % 4 != 0 || bitsOf (w 8) 6 0 == 0 || decide (64 < bitsOf (w 8) 6 0) || bitAt (w 8) 7 || bitsOf (w 8) 63 12 != 0
  | 0x3CC =>
    let n := bitsOf (w 0) 2 0 + 1
    bitsOf (w 0) 31 3 != 0 || bitsOf (w 0) 63 32 == 0 || decide (2 ^ 20 < bitsOf (w 0) 63 32) || w 8 % 4 != 0 || w 16 % 8 != 0
      || (List.range 8).any fun i => if i < n then w (32 + 8 * i) % 4 != 0 else w (32 + 8 * i) != 0
  | 0x3CD =>
    let x := w 8
    w 0 % 2 ^ 21 != 0 || bitsOf x 39 37 != 0 || bitsOf x 47 45 != 0 || bitsOf x 63 54 != 0 || decide (32 < bitsOf x 36 32 + bitsOf x 44 40 + 1)
  | _ => false

/-- Entry size of a field (R379). -/
def fieldSize (f : Nat) : Nat := if f = 0 then 4 else if f ≤ 4 then 256 else if f = 5 then 64 else 128

/-- The virtual ranges a block names: address, length, and whether the command writes there (R371). -/
def blkRanges (mn : Nat) (b : List Byte) : List (Nat × Nat × Bool) :=
  let w := fun (o : Nat) => blkN b o 8
  match mn with
  | 0x3C1 => [(w 0, 4 * bitsOf (w 8) 31 0, false)]
  | 0x3C4 => [(w 8, 8 + 4 * bitsOf (w 16) 31 0, true)]
  | 0x3C5 => [(w 8, 8, true)]
  | 0x3C6 => let n := bitsOf (w 8) 31 0; [(w 0, 4 * n, false), (w 16, n * fieldSize (bitsOf (w 8) 34 32), true)]
  | 0x3C7 => let n := bitsOf (w 8) 31 0; [(w 0, 4 * n, false), (w 16, n * fieldSize (bitsOf (w 8) 34 32), false)]
  | 0x3C9 => [(w 0, 4 * bitsOf (w 8) 6 0, false)]
  | 0x3CC =>
    let n := 4 * bitsOf (w 0) 63 32
    (List.range (bitsOf (w 0) 2 0 + 1)).map (fun i => (w (32 + 8 * i), n, false)) ++ [(w 8, n, true), (w 16, 8, true)]
  | 0x3CD => [(w 0, 2 ^ 21, true)]
  | _ => []

/-- The channel of a channel-local physical address (R362). -/
def channelOf (pa : Nat) : Option Nat := if bitAt pa 51 then some (bitsOf pa 48 40) else none

/-- The channel of the one channel-local frame in which a range lies wholly, by the translations at hand (R397). -/
def rangeChannel (tr : List Tlb) (va len : Nat) : Option Nat :=
  let es := (tr.filter fun e => decide (e.base < va + len) && decide (va < e.base + e.size)).eraseDups
  match es with
  | [] => none
  | [e] => channelOf e.pa
  | _ => none

/-- Why acceptance does not go on (R371). -/
inductive MarkStop
  | page (va : Nat)
  | dead (cause : BitVec 8)
  | cause (c : BitVec 8)
  deriving DecidableEq, Repr

/-- Translates the ranges of a block through the die's TLB (R305, R371, R417). -/
def markXlate (s : State) (d asid : Nat) : List (Nat × Nat × Bool) → State × (List Tlb ⊕ MarkStop)
  | [] => (s, .inl [])
  | (va, len, write) :: rest =>
    if len ≠ 0 ∧ 2 ^ 57 < va + len then (s, .inr (.dead 0x46#8))
    else
      match (if len = 0 then .inl (s, []) else pagesGo s (4096 + d) asid (va + len) (len / 4096 + 2) va) with
      | .inr (s1, x, .pageFault) => (s1, .inr (.page x))
      | .inr (s1, _, .bad) => (s1, .inr (.dead 0x48#8))
      | .inr (s1, _, _) => (s1, .inr (.dead 0x46#8))
      | .inl (s1, es) =>
        if es.any fun e => e.home != 0 then (s1, .inr (.cause 0xA0#8))
        else if write && es.any fun e => !e.w then (s1, .inr (.dead 0x47#8))
        else
          match markXlate s1 d asid rest with
          | (s2, .inl ts) => (s2, .inl (es ++ ts))
          | r => r

/-- The placement rules of VRED and VCMD on translated ranges (R397, R398): the addressed Vat, or none. -/
def markTarget (mn : Nat) (b : List Byte) (tr : List Tlb) : Option Nat :=
  let w := fun (o : Nat) => blkN b o 8
  if mn = 0x3CC then
    let n := bitsOf (w 0) 2 0 + 1
    let chs := (List.range n).map fun i => rangeChannel tr (w (32 + 8 * i)) (4 * bitsOf (w 0) 63 32)
    let cs := chs.filterMap id
    if cs.length = n ∧ cs.eraseDups.length = n then cs.head? else none
  else
    (tr.find? fun e => decide (e.base ≤ w 0) && decide (w 0 < e.base + e.size) && decide (2 ^ 21 ≤ e.size)).bind fun e => channelOf e.pa

/-! ## Registrations -/

/-- Registration targets: planes 0-31, slots from 32, handlers from 36 (R373, R386). -/
def planeReg (n : Nat) : Nat := n
def slotReg (n : Nat) : Nat := 32 + n
def handlerReg (n : Nat) : Nat := 36 + n

/-- The registrations of a command (R374 to R380, R386). -/
def markRegs (mn : Nat) (b : List Byte) : List (Nat × RegMode) :=
  let w := fun (o : Nat) => blkN b o 8
  match mn with
  | 0x3C0 => [(planeReg (bitsOf (w 0) 4 0), .wo)]
  | 0x3C1 => [(planeReg (bitsOf (w 8) 36 32), .wo)]
  | 0x3C2 =>
    ((List.range 32).filter fun i => bitAt (w 0) i).map (fun i => (planeReg i, .wo)) ++
    ((List.range 4).filter fun i => bitAt (w 0) (32 + i)).map fun i => (slotReg i, .wo)
  | 0x3C3 =>
    let p := mkpOf b
    let dst := if p.slot then slotReg p.dslot else planeReg p.dplane
    [(planeReg p.splane, .fr)] ++ (if p.slot then [(slotReg p.sslot, .fr)] else [])
      ++ [(dst, if p.stepped then .wo else .wf p.comb (if p.slot then p.etype else 0))]
      ++ (if p.comb = 5 then [(handlerReg p.hid, .fr)] else [])
  | 0x3C7 =>
    let f := bitsOf (w 8) 34 32
    if f = 0 then (List.range 32).map fun i => (planeReg i, .wo) else if f ≤ 4 then [(slotReg (f - 1), .wo)] else []
  | 0x3C8 => [(planeReg (bitsOf (w 8) 20 16), .wo)]
  | 0x3C9 => [(handlerReg (bitsOf (w 8) 11 8), .wo)]
  | _ => []

/-- Two registrations of different classes on one target conflict (R373). -/
def regClash (t : Nat) (x y : RegMode) : Bool :=
  match x, y with
  | .fr, .fr => false
  | .wo, _ => true
  | _, .wo => true
  | .wf c e, .wf c' e' => !(c == c' && e == e')
  | .wf _ _, .fr => decide (32 ≤ t)
  | .fr, .wf _ _ => decide (32 ≤ t)

def marksClash (s : State) (job cls : Nat) (rs : List (Nat × RegMode)) : Bool :=
  s.classes.any fun x => x.job == job && x.cls != cls && x.regs.any fun o => rs.any fun r => r.1 == o.1 && regClash r.1 r.2 o.2

/-! ## Handler moves (R386 to R388) -/

def portUnit (p : Nat) : Bool := decide (0x100 ≤ p) && decide (p < 0x13C)
def portTmp (p : Nat) : Bool := decide (0x190 ≤ p) && decide (p < 0x1A0)
def portNd (p : Nat) : Bool := decide (0x080 ≤ p) && decide (p ≤ 0x0C0)

/-- Ports with R access. -/
def portR (p : Nat) : Bool :=
  decide (p < 0x45) || portNd p || (decide (0x0C1 ≤ p) && decide (p ≤ 0x0C4)) || (portUnit p && p % 4 == 2) || portTmp p

/-- Ports with W access. -/
def portW (p : Nat) : Bool :=
  portNd p || (portUnit p && decide (p % 4 < 2)) || (decide (0x140 ≤ p) && decide (p ≤ 0x182)) || portTmp p

/-- A move that HINS refuses (R386). -/
def moveBad (x : Nat) : Bool :=
  let form := bitsOf x 31 30
  let dst := bitsOf x 29 21
  let src := bitsOf x 20 12
  form == 3 || !portW dst || (form != 1 && !portR src) || (form == 0 && bitsOf x 11 0 != 0) || (form == 2 && bitsOf x 7 0 != 0)

def handlerBad (xs : List Nat) : Bool := xs.any moveBad || decide (4 < (xs.filter fun x => bitsOf x 29 21 == 0x182).length)

/-! ## Acceptance -/

/-- A translation at hand for an address. -/
def trFind (tr : List Tlb) (va : Nat) : Option Tlb := tr.find? fun e => decide (e.base ≤ va) && decide (va < e.base + e.size)

/-- Bytes of M under the translations of a command; an address without one reads as 0. -/
def trRead (s : State) (tr : List Tlb) (va n : Nat) : List Byte :=
  (List.range n).map fun i => match trFind tr (va + i) with | some e => rdM1 s.mem (pkey e.home (e.pa + (va + i - e.base))) | none => 0#8

/-- The moves of a HINS block. -/
def hinsMoves (s : State) (b : List Byte) (tr : List Tlb) : List Nat :=
  (List.range (bitsOf (blkN b 8 8) 6 0)).map fun i => leVal (trRead s tr (blkN b 0 8 + 4 * i) 4)

/-- The counter key of a class of a job. -/
def pairKeyOf (job cls : Nat) : Nat := job * 16 + cls

/-- The key of a counter pair at the fabric interface of a plane (R389). -/
def portPair (k plane : Nat) : Nat := k * 16 + plane % 16

/-- A counter pair after messages are sent and consumed (R389, R390). -/
def Pair.count (x : Pair) (sent used : Nat) : Pair :=
  if sent = 0 ∧ used = 0 then x else { x with s := (x.s + sent) % 2 ^ 64, c := (x.c + used) % 2 ^ 64, a := true }

def pairZero : Pair := { s := 0, c := 0, l := 0, a := false, p := false }
def pairUpd (m : NMap Pair) (k : Nat) (g : Pair → Pair) : NMap Pair := nmSet m k (g ((nmGet m k).getD pairZero))

/-- Every Vat of the module (R362). -/
def allVats : List Nat := List.range 512

/-- Step 3 of acceptance (R371): the block, read once. -/
def markBlk (s : State) (st : Strand) (q : MarkReq) (mn off : Nat) (hids : List Nat) : Option (List Byte) :=
  let (size, al) := blkShape mn
  if !q.blk.isEmpty then some q.blk
  else if off % al ≠ 0 ∨ scrSize s st.batch < off + size then none
  else
    let b := readScr s st.batch off size
    if blkBad mn b hids then none else some b

/-- Steps 2 to 5 of acceptance (R371): the state with the ranges translated and the registrations made, the block, and the
command to send or why acceptance does not go on. -/
def markCheck (s : State) (c : Nat) (st : Strand) (q : MarkReq) (mn sub cls off : Nat) : State × List Byte × (MarkCmd ⊕ MarkStop) :=
  match s.job? st with
  | none => (s, [], .inr (.cause 0xA4#8))
  | some j =>
    if mn ≠ 0x3CC ∧ j.nw = 0 ∧ j.hi = 0 then (s, [], .inr (.cause 0xA4#8))
    else
      match markBlk s st q mn off j.hids with
      | none => (s, [], .inr (.cause 0xA0#8))
      | some b =>
        match markXlate s (dieOf c) j.asid (blkRanges mn b) with
        | (s1, .inr e) => (s1, b, .inr e)
        | (s1, .inl tr) =>
          let one := mn == 0x3CC || mn == 0x3CD
          let tgt := markTarget mn b tr
          let moves := if mn = 0x3C9 then hinsMoves s1 b tr else []
          let regs := markRegs mn b
          if one && tgt.isNone then (s1, b, .inr (.cause 0xA0#8))
          else if handlerBad moves then (s1, b, .inr (.cause 0xA3#8))
          else if mn ≠ 0x3CC ∧ !(s1.classes.any fun x => x.job == st.job && x.cls == cls) then (s1, b, .inr (.cause 0xA2#8))
          else if marksClash s1 st.job cls regs then (s1, b, .inr (.cause 0xA1#8))
          else
            let m : MarkCmd := { id := q.id, core := c, job := st.job, batch := st.batch, sid := q.sid, asid := j.asid,
                                 cls := if mn = 0x3CC then none else some cls, mn := mn, sub := sub, blk := b, tr := tr,
                                 todo := if one then tgt.toList else allVats, acc := [], moves := moves }
            ({ s1 with classes := s1.classes.map fun (x : WClass) =>
                if x.job == st.job && x.cls == cls then { x with regs := (x.regs ++ regs).eraseDups } else x }, b, .inl m)

/-- An ordering marker as it is sent (R399). -/
def omrkCmd (s : State) (c : Nat) (st : Strand) (q : MarkReq) : MarkCmd :=
  { id := q.id, core := c, job := st.job, batch := st.batch, sid := q.sid, asid := s.asid st, cls := none, mn := opOmrk,
    sub := 0, blk := [], tr := [], todo := [], acc := [], moves := [] }

/-- Step 6 (R371, R390): the command is on the mark bus, its handler is the job's, and the core's port counts it. -/
def markSend (s : State) (c : Nat) (m : MarkCmd) : State :=
  let s1 := { s with marks := s.marks ++ [m] }
  let s2 := if m.mn = 0x3C9 then s1.updJob m.job fun x => { x with hids := (x.hids ++ [bitsOf (blkN m.blk 8 8) 11 8]).eraseDups } else s1
  match m.cls with
  | some k => s2.updCore c fun x => { x with pairs := pairUpd x.pairs (pairKeyOf m.job k) (·.count m.todo.length 0) }
  | none => s2

/-- The waits of R351 before a command is sent: the strand's own entries to local pages are in M, for VRED those of UNORDERED
pages apart (R340). `stamp` is their start, once the entries have drained. -/
def markWaits (s : State) (sid : Nat) (st : Strand) (un : Bool) (stamp : Option Nat) : Option Nat × Bool :=
  let near := fun (home ord : Nat) => home == 0 && !(un && ord == 2)
  let left := st.rsb.any (fun e => e.ready && e.hold.isNone && near e.home e.ord)
    || st.pend.any fun p => p.op.isStore && p.op.accs.any fun a => a.ps.any fun x => near x.home x.ord
  match (match stamp with | some q => some q | none => if left then none else some s.seq) with
  | none => (none, false)
  | some q => (some q, !((s.die (dieOf st.core)).p.any fun w => w.sid == sid && decide (w.seq < q) && !(un && w.unord)))

/-- Removes a request from its core's mark queue. -/
def markDrop (s : State) (c id : Nat) : State := s.updCore c fun x => { x with markQ := x.markQ.filter (·.id != id) }

/-- Ordering markers that nothing waits behind go (R399). -/
def pruneMarkers (s : State) : State :=
  { s with marks := s.marks.filter fun m => !(m.mn == opOmrk && !earlierOpen s m.batch m.id) }

/-- A request that waits for an entry moves into the mark queue (R371). -/
def markFill (s : State) (c : Nat) : State :=
  let isMark := fun (r : CmdReq) => match r with | .mark _ _ _ _ | .omrk => true | _ => false
  if 32 ≤ (s.core c).markQ.length then s
  else
    match cmdQueue s [c] isMark with
    | [] => s
    | (q, sid, f, r) :: _ =>
      let s1 := s.updCore c fun x => { x with markQ := x.markQ ++ [{ id := q, sid := sid, frag := f, req := r, blk := [], cmd := none, rel := none }] }
      if r = .omrk then unblockRgn s1 sid f else s1.updFrag sid f fun fr => { fr with wait := .accept }

/-- Replaces a request in its core's mark queue. -/
def markPut (s : State) (c : Nat) (q : MarkReq) : State :=
  s.updCore c fun x => { x with markQ := x.markQ.map fun (y : MarkReq) => if y.id == q.id then q else y }

/-- MARK_ACCEPT (R371, R351): the oldest command of a core's mark queue passes its checks, or is sent once the strand's stores are
in M. -/
def execMarkAccept (c : Nat) (s0 : State) : Out :=
  let s := pruneMarkers (markFill s0 c)
  match (s.core c).markQ with
  | [] => .next s
  | q :: _ =>
    match nmGet s.strands q.sid with
    | none => .next (markDrop s c q.id)
    | some st =>
      if s.pfaults.any fun e => e.2.who == .mark c q.id then .next s
      else
        match q.cmd with
        | some m =>
          match markWaits s q.sid st (m.mn == 0x3CC) q.rel with
          | (w, false) => (let (_, s1) := s.tick; .next (markPut s1 c { q with rel := w }))
          | (_, true) =>
            let s1 := markDrop (markSend s c m) c q.id
            .next (if q.req = .omrk then s1 else unblockRgn s1 q.sid q.frag)
        | none =>
          match q.req with
          | .mark mn sub cls off =>
            match markCheck s c st q mn sub cls off with
            | (s1, b, .inl m) => .next (markPut s1 c { q with blk := b, cmd := some m })
            | (s1, b, .inr (.page va)) => .next ((markPut s1 c { q with blk := b }).addFault (s1.asid st) va 0 0#32 (.mark c q.id)).2
            | (s1, _, .inr (.dead cause)) => .next (endJobAt (markDrop s1 c q.id) q.sid q.frag cause [])
            | (s1, _, .inr (.cause cause)) =>
              .next (raiseUser ((markDrop s1 c q.id).updFrag q.sid q.frag fun fr => { fr with st := .stalled, wait := .none }) q.sid q.frag cause none)
          | _ => .next (markPut s c { q with cmd := some (omrkCmd s c st q) })

/-! ## Classes -/

/-- The endpoints' pairs of a class are zeroed or freed (R394, R395). -/
def dropPairs (s : State) (k : Nat) : State :=
  { s with
    cores := s.cores.map fun (e : Nat × Core) => (e.1, { e.2 with pairs := nmDel e.2.pairs k })
    vats := s.vats.map fun (e : Nat × Vat) => (e.1, { e.2 with pairs := nmDel e.2.pairs k, arr := e.2.arr.filter fun m => pairKeyOf m.job m.cls != k })
    fab := { s.fab with pairs := s.fab.pairs.filter fun e => e.1 / 16 != k } }

/-- Opens a class of a job: its pairs are zero at every endpoint, and it has no registration (R394). -/
def openClass (s : State) (job cls : Nat) (sc : Scope) : State :=
  { dropPairs s (pairKeyOf job cls) with classes := s.classes ++ [{ job := job, cls := cls, sc := sc, regs := [], close := [], again := false }] }

/-- Whether a WOPN at .fabric of another module of a job's set may open a class here (R432, log 10): it is not open, and the
module's endpoints have a free pair. -/
def peerOpens (s : State) (job cls : Nat) : Bool :=
  !(s.classes.any fun x => x.job == job && x.cls == cls) && decide (s.classes.length < 64) && decide (cls < 16)
    && ((nmGet s.jobs job).map fun j => !j.ended && j.mset.any (· != s.module.toNat)).getD false

/-- WOPN (R394, R432): each endpoint keeps 64 pairs; whether an endpoint of another module of the set has one free is
free. -/
def execWopn (h : Hdr) (sc : Scope) (cls : BitVec 4) (d : Opnd) (s : State) : Out :=
  let dw := refsOf d false
  issue h (usesT dw []) s fun c s =>
    if (c.acts h).isEmpty then .next (advance s c.sid c.f h)
    else
      let job := c.st.job
      let isOpen := s.classes.any fun x => x.job == job && x.cls == cls.toNat
      let mset := ((s.job? c.st).map (·.mset)).getD []
      let ask := sc == .fabric && mset.any fun m => m != s.module.toNat
      let full := decide (64 ≤ s.classes.length) || (ask && !isOpen && Config.freeBit s.freeCtr)
      let code : Nat := if isOpen then 2 else if full then 1 else 0
      let s1 := if ask && !isOpen then { s with freeCtr := s.freeCtr + 1 } else s
      let s2 := if code = 0 then openClass s1 job cls.toNat sc else s1
      let ws := dstW d .b64 0 code
      .next (advance ((s2.acts c.sid).updStrand c.sid fun st => st.track c.f true dw ws flNone false .none) c.sid c.f h)

/-- WQT (R395). -/
def execWqt (h : Hdr) (close : Bool) (sc : Scope) (cls : BitVec 4) (d : Opnd) (s : State) : Out :=
  let dw := refsOf d false
  issue h (usesT dw []) s fun c s =>
    if (c.acts h).isEmpty then .next (advance s c.sid c.f h)
    else if s.classes.any fun x => x.job == c.st.job && x.cls == cls.toNat then
      let p := c.st.nextPend
      .next ((s.acts c.sid).updStrand c.sid fun st =>
        (st.track c.f false dw (dstW d .b64 0 0) flNone false .none).updFrag c.f fun fr =>
          { fr with st := .blocked, wait := .wqt cls.toNat close sc p, evt := w64n cls.toNat, gap := max h.stall.toNat 1 })
    else .next (advance (s.updStrand c.sid fun st => st.track c.f true dw (dstW d .b64 0 2) flNone false .none) c.sid c.f h)

end Sys2Proof.Machine
end

