-- ==== Sys2Proof/Machine/Vats.lean ====
section
/-!
DEFINITION. The Vats (R362 to R397): node memory, matching, the steps that process commands and messages, free and
stepped waves, handlers, the Deckle's counts and announcements, VRED, VCMD and self-refresh.
-/
namespace Sys2Proof.Machine

/-! ## Node memory -/

/-- A little-endian value of the job's address space as a Vat reads it in M (R351, R363). -/
def rdVa (s : State) (asid va n : Nat) : Nat :=
  match walk s asid va with
  | .ok e => if e.home = 0 then s.rdM (e.pa + (va - e.base)) n else 0
  | _ => 0

/-- Writes bytes of one page of the job's address space in M. -/
def wrVa (s : State) (asid va : Nat) (bs : List Byte) : State :=
  match walk s asid va with
  | .ok e => if e.home = 0 then { s with mem := wrMN s.mem (e.pa + (va - e.base)) bs } else s
  | _ => s

/-- The record of node l of Vat v (R363). -/
def Job.node (j : Job) (v l : Nat) : Nat := j.nw + v * 2 ^ 27 + 1280 * l
def Job.edge (j : Job) (v e : Nat) : Nat := j.nw + v * 2 ^ 27 + 0x3C00000 + 8 * e

def ndType (s : State) (j : Job) (v l : Nat) : Nat := rdVa s j.asid (j.node v l) 2
def ndPlanes (s : State) (j : Job) (v l : Nat) : Nat := rdVa s j.asid (j.node v l + 192) 4
def setPlanes (s : State) (j : Job) (v l x : Nat) : State := wrVa s j.asid (j.node v l + 192) (leBytes 4 x)

/-- A local index of the job's range (R364). -/
def Job.has (j : Job) (l : Nat) : Bool := decide (j.lo ≤ l) && decide (l < j.hi)

/-- A node of the range whose VALID bit is set (R365). -/
def ndValid (s : State) (j : Job) (v l : Nat) : Bool := j.has l && bitAt (rdVa s j.asid (j.node v l + 2) 2) 0

/-- The local indices of the job's range. -/
def Job.nodes (j : Job) : List Nat := (List.range (j.hi - j.lo)).map (· + j.lo)

/-- A bit of a number set to a value. -/
def putBit (x i : Nat) (b : Bool) : Nat := if bitAt x i == b then x else if b then x + 2 ^ i else x - 2 ^ i

/-- Element e of a slot, `n` bytes. -/
def slotAt (j : Job) (v l slot e n : Nat) : Nat := j.node v l + 256 + 256 * slot + e * n

/-! ## Matching (R368, R369) -/

/-- The Mould column of chunk q of node l (R368). -/
def mouldKey (w q l : Nat) : Nat := 1024 * (w * (l / 1024) + q) + l % 1024

/-- Rows in which a chunk agrees with a query under its care mask (R369). -/
def chunkCount (key : BitVec 256) (query care : Nat) (xnor : Bool) : Nat :=
  ((List.range 256).filter fun r => bitAt care r && (if xnor then key.getLsbD r == bitAt query r else key.getLsbD r && bitAt query r)).length

/-- The match of a node (R369). -/
def nodeMatch (s : State) (j : Job) (v : Nat) (b : List Byte) (l : Nat) : Bool :=
  let w0 := blkN b 0 8
  let hits := (List.range j.kw).filter fun q =>
    decide (bitsOf (blkN b 8 8) (16 * q + 15) (16 * q) ≤
      chunkCount (spGet (s.vat v).mould (mouldKey j.kw q l)) (blkN b (64 + 32 * q) 32) (blkN b (192 + 32 * q) 32) (bitAt w0 (8 + q)))
  ndValid s j v l && decide (bitsOf w0 14 12 ≤ hits.length) && (!bitAt w0 15 || ndType s j v l == bitsOf w0 31 16)

/-- A node qualifies for MKL, MKN and MKT (R377). -/
def qualifies (s : State) (j : Job) (v l req exc : Nat) (ty : Option Nat) : Bool :=
  let p := ndPlanes s j v l
  ndValid s j v l && p &&& req == req && p &&& exc == 0 && (match ty with | some t => ndType s j v l == t | none => true)

/-! ## Messages -/

/-- An edge of a node that a Vat follows (R366): its position, target, type and weight. -/
structure EdgeTo where
  pos : Nat
  target : Nat
  etype : Nat
  weight : BitVec 16
  deriving DecidableEq, Repr

/-- Whether a wave of a class reaches a target (R366, R432). -/
def reachable (s : State) (j : Job) (sc : Scope) (target : Nat) : Bool :=
  let md := bitsOf target 36 25
  bitsOf target 39 37 == 0 && (md == s.module.toNat || (sc == .fabric && j.mset.contains md))

/-- The edges that a Vat follows from a node (R366). -/
def followed (s : State) (j : Job) (sc : Scope) (v l : Nat) : List EdgeTo :=
  let eoff := rdVa s j.asid (j.node v l + 4) 4 % 2 ^ 22
  (List.range (rdVa s j.asid (j.node v l + 8) 2)).filterMap fun p =>
    let e := eoff + p
    if e < j.elo ∨ j.ehi ≤ e ∨ 2 ^ 22 ≤ e then none
    else
      let x := rdVa s j.asid (j.edge v e) 8
      if reachable s j sc (x % 2 ^ 40) then some { pos := p, target := x % 2 ^ 40, etype := bitsOf x 47 40, weight := BitVec.ofNat 16 (bitsOf x 63 48) }
      else none

/-- A sum or product of a floating element with a weight, rounded to nearest even (R382). -/
def edgeFl (f : Fmt) (mul : Bool) (x : Nat) (w : Num) : Nat :=
  let e := if mul then ((f.dec x).mul w).1 else ((f.dec x).ext.add false w.ext).1
  (roundExt f .rne false 0#64 e).bits

/-- The edge rule on one element (R382). A wave's, a handler's and MKT's arithmetic sets no %fflag (log 69). -/
def edgeVal (p : Mkp) (w : BitVec 16) (x : W64) : W64 :=
  let n := x.toNat
  let ω := fmtG16.dec w.toNat
  let mul := p.edge == 2
  if p.edge = 0 then x
  else
    match p.etype with
    | 3 => w64n (edgeFl fmtF32 mul (n % 2 ^ 32) ω)
    | 4 => w64n (edgeFl fmtW64 mul n ω)
    | 5 =>
      let vb := if bitAt n 63 then 0 else n / 2 ^ 32
      let v := if mul then (roundExt fmtF32 .rne false 0#64 (momTerm [fmtF32.dec vb, ω, ω] []).1).bits else vb
      w64n (momPack (edgeFl fmtF32 mul (n % 2 ^ 32) ω) v)
    | _ =>
      let k := sgn 16 w.toNat
      w64n (toWrap 32 (if mul then (n : Int) * k else (n : Int) + k))

/-- The fabric id of a node of this module (R364). -/
def fabricId (s : State) (v l : Nat) : Nat := s.module.toNat * 2 ^ 25 + v * 2 ^ 16 + l

/-- The messages of a node along its followed edges of the wave's types (R383). -/
def sendAlong (s : State) (j : Job) (sc : Scope) (m : MarkCmd) (p : Mkp) (v l hop : Nat) (val : List W64) : List WaveMsg :=
  ((followed s j sc v l).filter fun e => bitAt p.tmask e.etype).map fun e =>
    { job := m.job, cls := m.cls.getD 0, wave := m.id, target := e.target, source := fabricId s v l, etype := e.etype, weight := e.weight,
      pos := e.pos, spawn := 0, hop := hop, val := val.map (edgeVal p e.weight) }

/-- Messages leave for their Vats, or for a port of the fabric. -/
def emit (s : State) (ms : List WaveMsg) : State :=
  let own := ms.filter fun m => bitsOf m.target 36 25 == s.module.toNat
  let far := ms.filter fun m => bitsOf m.target 36 25 != s.module.toNat
  { s with msgs := s.msgs ++ own.map (fun m => { vat := bitsOf m.target 24 16, m := m }), fab := { s.fab with out := s.fab.out ++ far } }

/-- The elements of a slot. -/
def slotVals (s : State) (j : Job) (p : Mkp) (v l slot : Nat) : List W64 :=
  (List.range p.nelem).map fun e => w64n (rdVa s j.asid (slotAt j v l slot e p.esz) p.esz)

/-- The scope with which a class is open. -/
def classScope (s : State) (job cls : Nat) : Scope :=
  ((s.classes.find? fun x => x.job == job && x.cls == cls).map (·.sc)).getD .module

/-- Whether a hop may be sent on (R383, R384). -/
def Mkp.more (p : Mkp) (h : Nat) : Bool := p.hops == 0 || decide (h < p.hops)

/-! ## Commands at a Vat -/

/-- Whether a job has ended, or never was. -/
def State.gone (s : State) (j : Nat) : Bool := ((nmGet s.jobs j).map (·.ended)).getD true

/-- Writes a command's output under its translations (R351), a phase write of its strand on a DETERM page (R344, R345); nothing is
written after the job has ended. -/
def markWrite (s : State) (m : MarkCmd) (va : Nat) (bs : List Byte) : State :=
  if s.gone m.job then s
  else
  let cells := bs.zipIdx.filterMap fun (b, i) => (trFind m.tr (va + i)).map fun e => (e, va + i, b)
  match astDet s m.sid cells with
  | .inr (cause, rec) => endJob s m.job cause rec
  | .inl s1 => { s1 with mem := wrMs s1.mem (cells.map fun x => (byteKey x, x.2.2)) }

/-- The entries of a node list with their positions: Vat and local index where valid by R364. -/
def nodeList (s : State) (j : Job) (m : MarkCmd) (n : Nat) : List (Nat × Option (Nat × Nat)) :=
  (List.range n).map fun i =>
    let x := leVal (trRead s m.tr (blkN m.blk 0 8 + 4 * i) 4)
    (i, if x < 2 ^ 25 ∧ j.has (x % 65536) then some (x / 65536, x % 65536) else none)

/-- Offset of a field in a node record (R379, R365). -/
def fieldOff (f : Nat) : Nat := if f = 0 then 192 else if f ≤ 4 then 256 * f else if f = 5 then 0 else 64

/-- The test of MKT (R378), with no %fflag (log 69). -/
def mktTest (etype cond x k : Nat) : Bool :=
  let c : FCond := match cond with | 0 => .eq | 1 => .ne | 2 => .lt | 3 => .le | 4 => .gt | _ => .ge
  if etype = 3 then (fCmp fmtF32 c x k).1
  else
    let r := fun (y : Nat) => if etype = 1 then sgn 32 y else (y : Int)
    let ic : ICond := match cond with | 0 => .eq | 1 => .ne | 2 => .lt | 3 => .le | 4 => .gt | _ => .ge
    icmp ic (r x) (r k)

/-- What a Vat does with a command: the state, the messages it sends, and the nodes it collects (R374 to R383, R386). -/
def vatAct (s : State) (j : Job) (m : MarkCmd) (v : Nat) : State × List WaveMsg × List Nat :=
  let b := m.blk
  let w := fun (o : Nat) => blkN b o 8
  let each := fun (g : State → Nat → State) => j.nodes.foldl g s
  match m.mn with
  | 0x3C0 =>
    let d := bitsOf (w 0) 4 0
    (each fun s l =>
      let hit := nodeMatch s j v b l
      let x := ndPlanes s j v l
      let bit := match m.sub with | 0 => hit | 1 => hit || bitAt x d | _ => bitAt x d && !hit
      setPlanes s j v l (putBit x d bit), [], [])
  | 0x3C1 =>
    ((nodeList s j m (bitsOf (w 8) 31 0)).foldl (fun s e => match e.2 with
      | some (u, l) => if u = v then setPlanes s j v l (putBit (ndPlanes s j v l) (bitsOf (w 8) 36 32) (!bitAt (w 8) 40)) else s
      | none => s) s, [], [])
  | 0x3C2 =>
    (each fun s l =>
      let x := ndPlanes s j v l
      let s1 := setPlanes s j v l (x - (x &&& bitsOf (w 0) 31 0))
      ((List.range 4).filter fun i => bitAt (w 0) (32 + i)).foldl (fun s i =>
        wrVa s j.asid (slotAt j v l i 0 4) ((List.range 64).flatMap fun _ => leBytes 4 (bitsOf (w 8) 31 0))) s1, [], [])
  | 0x3C3 =>
    let p := mkpOf b
    let sc := classScope s m.job (m.cls.getD 0)
    let front := j.nodes.filter fun l => ndValid s j v l && bitAt (ndPlanes s j v l) p.splane
    (s, front.flatMap fun l => sendAlong s j sc m p v l 1 (if p.slot then slotVals s j p v l p.sslot else []), [])
  | 0x3C4 | 0x3C5 =>
    let ty := if bitAt (w 16) 48 then some (bitsOf (w 16) 47 32) else none
    (s, [], j.nodes.filter fun l => qualifies s j v l (bitsOf (w 0) 31 0) (bitsOf (w 0) 63 32) ty)
  | 0x3C6 =>
    let f := bitsOf (w 8) 34 32
    let n := fieldSize f
    ((nodeList s j m (bitsOf (w 8) 31 0)).foldl (fun s e => match e.2 with
      | some (u, l) => if u = v then markWrite s m (w 16 + n * e.1) (leBytes n (rdVa s j.asid (j.node v l + fieldOff f) n)) else s
      | none => if v = 0 then markWrite s m (w 16 + n * e.1) (List.replicate n 0#8) else s) s, [], [])
  | 0x3C7 =>
    let f := bitsOf (w 8) 34 32
    let n := fieldSize f
    ((nodeList s j m (bitsOf (w 8) 31 0)).foldl (fun s e => match e.2 with
      | some (u, l) =>
        if u = v then
          let bs := trRead s m.tr (w 16 + n * e.1) n
          let s1 := wrVa s j.asid (j.node v l + fieldOff f) bs
          if f = 6 then
            s1.updVat v fun x => { x with mould := (List.range j.kw).foldl (fun mo q =>
              spPut mo (mouldKey j.kw q l) (BitVec.ofNat 256 (leVal ((bs.drop (32 * q)).take 32)))) x.mould }
          else s1
        else s
      | none => s) s, [], [])
  | 0x3C8 =>
    let x := w 8
    (each fun s l =>
      if qualifies s j v l (bitsOf (w 0) 31 0) (bitsOf (w 0) 63 32) none then
        let e := rdVa s j.asid (slotAt j v l (bitsOf x 1 0) (bitsOf x 7 2) 4) 4
        let t := mktTest (bitsOf x 11 8) (bitsOf x 14 12) e (bitsOf (w 16) 31 0)
        let d := bitsOf x 20 16
        let p := ndPlanes s j v l
        setPlanes s j v l (putBit p d (if bitAt x 24 then t || bitAt p d else t))
      else s, [], [])
  | 0x3C9 =>
    (s.updVat v fun x => { x with handlers := nmSet x.handlers (m.job * 16 + bitsOf (w 8) 11 8) m.moves }, [], [])
  | _ => (s, [], [])

/-- The output of MKL and MKN once every Vat has looked (R377). -/
def listOut (s : State) (m : MarkCmd) : State :=
  let ids := (m.acc.mergeSort fun a b => a.1 ≤ b.1).flatMap fun a => a.2.map fun l => a.1 * 2 ^ 16 + l
  let out := blkN m.blk 8 8
  let n := leBytes 8 ids.length
  if m.mn = 0x3C5 then markWrite s m out n
  else if m.mn = 0x3C4 then markWrite s m out (n ++ (ids.take (bitsOf (blkN m.blk 16 8) 31 0)).flatMap (leBytes 4))
  else s

/-- A Vat has processed a command (R372, R390, R451): it counts, and the last one completes the command. -/
def vatDone (s : State) (m : MarkCmd) (v : Nat) (ms : List WaveMsg) (ids : List Nat) : State :=
  let s1 := (emit s ms).bill m.job fun b => { b with vats := true }
  let s2 := match m.cls with
    | some k => s1.updVat v fun x => { x with pairs := pairUpd x.pairs (pairKeyOf m.job k) (·.count ms.length 1) }
    | none => s1
  let m' := { m with todo := m.todo.filter (· != v), acc := if ids.isEmpty then m.acc else m.acc ++ [(v, ids)] }
  if m'.todo.isEmpty ∧ m.mn ≠ 0x3C3 then
    let s3 := { s2 with marks := s2.marks.filter (·.id != m.id) }
    pruneMarkers (listOut s3 m')
  else { s2 with marks := s2.marks.map fun (x : MarkCmd) => if x.id == m.id then m' else x }

/-- Whether a Vat may process a command now (R372, R393, R399): it is awake, no earlier command of the class from the same
core waits at it, and no marker holds the command. -/
def vatMay (s : State) (m : MarkCmd) (v : Nat) : Bool :=
  m.todo.contains v && !(s.vat v).sleep && !omrkHolds s m.batch m.id
    && !(s.marks.any fun x => x.job == m.job && x.core == m.core && x.cls == m.cls && m.cls.isSome && decide (x.id < m.id) && x.todo.contains v)

/-- VAT_COMMAND_PROCESS (R372). -/
def execVatCommandProcess (vat n : Nat) (s : State) : Out :=
  match s.marks.find? fun m => m.id == n with
  | none => .next s
  | some m =>
    match nmGet s.jobs m.job with
    | none => .next s
    | some j =>
      if !vatMay s m vat ∨ m.mn = 0x3CC ∨ m.mn = 0x3CD then .next s
      else
        let (s1, ms, ids) := vatAct s j m vat
        .next (if s1.gone m.job then s1 else vatDone s1 m vat ms ids)

/-! ## Free waves -/

/-- Combines one element of a free wave (R383), or folds one of a stepped wave (R384), with no %fflag (log 69). -/
def combine (p : Mkp) (x y : W64) : W64 :=
  let a := x.toNat
  let b := y.toNat
  match p.comb with
  | 0 => x ||| y
  | 1 => x &&& y
  | 2 | 3 =>
    let mx := p.comb == 3
    match p.etype with
    | 3 => w64n (fMinMax fmtF32 mx (a % 2 ^ 32) (b % 2 ^ 32)).bits
    | 4 => w64n (fMinMax fmtW64 mx a b).bits
    | 1 => if decide (sgn 32 a < sgn 32 b) == mx then y else x
    | _ => if decide (a % 2 ^ 32 < b % 2 ^ 32) == mx then y else x
  | _ => w64n ((a + b) % 2 ^ 32)

/-- A message of a free wave meets its node (R383): the state and what the node sends on. -/
def freeArrive (s : State) (j : Job) (sc : Scope) (c : MarkCmd) (p : Mkp) (v : Nat) (m : WaveMsg) : State × List WaveMsg :=
  let l := bitsOf m.target 15 0
  if !ndValid s j v l then (s, [])
  else if !p.slot then
    let x := ndPlanes s j v l
    if bitAt x p.dplane then (s, [])
    else
      let s1 := setPlanes s j v l (putBit x p.dplane true)
      (s1, if p.more m.hop then sendAlong s1 j sc c p v l (m.hop + 1) m.val else [])
  else
    let old := slotVals s j p v l p.dslot
    let new := (old.zip m.val).map fun e => combine p e.1 e.2
    if new = old then (s, [])
    else
      let s1 := wrVa s j.asid (slotAt j v l p.dslot 0 p.esz) (new.flatMap fun x => leBytes p.esz x.toNat)
      (s1, if p.more m.hop then sendAlong s1 j sc c p v l (m.hop + 1) m.val else [])

/-- WAVE_MESSAGE_CONSUME (R383, R384, R390, R401): message n of those on their way to a Vat. It waits for its command, for
an announced step close at the Vat, and for a sleeping Vat. -/
def execWaveMessageConsume (vat n : Nat) (s : State) : Out :=
  match (s.msgs.filter (·.vat == vat))[n]? with
  | none => .next s
  | some x =>
    let m := x.m
    match s.marks.find? (fun c => c.id == m.wave && c.job == m.job), nmGet s.jobs m.job with
    | some c, some j =>
      let p := mkpOf c.blk
      let closing := s.classes.any fun k => k.job == m.job && k.cls == m.cls && k.close.contains vat
      if c.todo.contains vat ∨ (s.vat vat).sleep ∨ (p.stepped ∧ closing) then .next s
      else
        let s0 := ({ s with msgs := s.msgs.erase x } : State).bill m.job fun b => { b with vats := true }
        let k := pairKeyOf m.job m.cls
        if p.stepped then
          .next (s0.updVat vat fun y => { y with arr := y.arr ++ [m], pairs := pairUpd y.pairs k fun q => { q.count 0 1 with p := true } })
        else
          let (s1, ms) := freeArrive s0 j (classScope s m.job m.cls) c p vat m
          .next ((emit s1 ms).updVat vat fun y => { y with pairs := pairUpd y.pairs k (·.count ms.length 1) })
    | _, _ => .next s

/-! ## Handlers (R387, R388) -/

/-- A handler at work: the 32-bit values of its ports, and the messages it has sent: target and words. -/
structure HSt where
  ports : Sparse 32
  sends : List (Nat × List W32)
  deriving DecidableEq, Repr

def HSt.rd (h : HSt) (p : Nat) : W32 := spGet h.ports p

/-- The result of unit i (R387), with no %fflag (log 69). -/
def unitRes (i : Nat) (a b : W32) : W32 :=
  let x := a.toNat
  let y := b.toNat
  let n := fun (k : Nat) => BitVec.ofNat 32 k
  match i with
  | 0 => a + b
  | 1 => a - b
  | 2 => if sgn 32 y < sgn 32 x then b else a
  | 3 => if sgn 32 x < sgn 32 y then b else a
  | 4 => a &&& b
  | 5 => a ||| b
  | 6 => a ^^^ b
  | 7 => a <<< (y % 32)
  | 8 => a >>> (y % 32)
  | 9 => n (fAdd fmtF32 .rne false 0#64 false x y).bits
  | 10 => n (fMul fmtF32 .rne false 0#64 x y).bits
  | 11 => n (fMinMax fmtF32 false x y).bits
  | 12 => n (fMinMax fmtF32 true x y).bits
  | 13 => n ((x == y).toNat + 2 * (decide (sgn 32 x < sgn 32 y)).toNat + 4 * (decide (sgn 32 y < sgn 32 x)).toNat + 8 * (decide (x < y)).toNat)
  | _ => n ((fCmp fmtF32 .eq x y).1.toNat + 2 * (fCmp fmtF32 .lt x y).1.toNat + 4 * (fCmp fmtF32 .gt x y).1.toNat + 8 * (fCmp fmtF32 .un x y).1.toNat)

/-- Writes a port: a second operand computes its unit, SD_GO stages a message. -/
def HSt.wr (h : HSt) (nwords p : Nat) (x : W32) : HSt :=
  let h1 := { h with ports := spPut h.ports p x }
  if portUnit p && p % 4 == 1 then { h1 with ports := spPut h1.ports (p + 1) (unitRes ((p - 0x100) / 4) (h.rd (p - 1)) x) }
  else if p = 0x182 then
    { h1 with sends := h1.sends ++ [((h.rd 0x180).toNat + (h.rd 0x181).toNat % 256 * 2 ^ 32, (List.range nwords).map fun i => h.rd (0x140 + i))] }
  else h1

/-- One move (R388). -/
def HSt.move (h : HSt) (nwords x : Nat) : HSt :=
  let dst := bitsOf x 29 21
  let src := bitsOf x 20 12
  match bitsOf x 31 30 with
  | 0 => h.wr nwords dst (h.rd src)
  | 1 => h.wr nwords dst (BitVec.ofInt 32 (sgn 21 x))
  | _ =>
    let c := bitsOf x 11 9
    let fl := (h.rd (if c < 4 then 0x136 else 0x13A)).getLsbD (c % 4)
    if fl != bitAt x 8 then h.wr nwords dst (h.rd src) else h

/-- The first NELEM 32-bit words of a message's elements: beyond them MSG_D reads 0 (R387, log 66). -/
def msgWords (p : Mkp) (val : List W64) : List W32 :=
  (val.flatMap fun (x : W64) => if p.esz = 8 then [x.setWidth 32, (x >>> 32).setWidth 32] else [x.setWidth 32]).take p.nelem

/-- The elements of message words. -/
def wordVals (p : Mkp) (ws : List W32) : List W64 :=
  (List.range p.nelem).map fun e =>
    let at_ := fun (i : Nat) => ((ws[i]?).getD 0#32).setWidth 64
    if p.esz = 8 then at_ (2 * e) ||| at_ (2 * e + 1) <<< 32 else at_ e

/-- Ports from a list of words. -/
def loadPorts (m : Sparse 32) (base : Nat) (ws : List W32) : Sparse 32 := ws.zipIdx.foldl (fun m e => spPut m (base + e.2) e.1) m

/-- Runs a node's handler on one arrival (R387): the state and the messages it sends. -/
def runHandler (s : State) (j : Job) (sc : Scope) (c : MarkCmd) (p : Mkp) (v l : Nat) (spawn0 : Nat) (m : WaveMsg) : State × List WaveMsg :=
  let moves := (nmGet (s.vat v).handlers (c.job * 16 + p.hid)).getD []
  let id := fabricId s v l
  let word := fun (n : Nat) => BitVec.ofNat 32 n
  let nd := (List.range 64).map fun i => word (rdVa s j.asid (slotAt j v l p.dslot i 4) 4)
  let hdr := [m.source % 2 ^ 32, m.source / 2 ^ 32, m.weight.toNat, m.etype, m.hop].map word
  let own := [ndPlanes s j v l, ndType s j v l, rdVa s j.asid (j.node v l + 8) 2, id % 2 ^ 32, id / 2 ^ 32].map word
  let h0 : HSt := { ports := loadPorts (loadPorts (loadPorts (loadPorts [] 0 (msgWords p m.val)) 0x40 hdr) 0x80 nd) 0xC0 own, sends := [] }
  let h := moves.foldl (fun h x => h.move p.nelem x) h0
  let s1 := wrVa s j.asid (slotAt j v l p.dslot 0 4) ((List.range 64).flatMap fun i => leBytes 4 (h.rd (0x80 + i)).toNat)
  let s2 := setPlanes s1 j v l (h.rd 0xC0).toNat
  let ok := h.sends.filter fun e => p.more m.hop && reachable s j sc e.1
  (s2, ok.zipIdx.map fun (e, i) =>
    let k := spawn0 + i + 1
    { job := c.job, cls := c.cls.getD 0, wave := c.id, target := e.1, source := id, etype := (Config.spawnEdge id k).1 % 256,
      weight := (Config.spawnEdge id k).2, pos := 0, spawn := k, hop := m.hop + 1, val := wordVals p e.2 })

/-! ## Stepped waves (R384) -/

/-- The order of a node's arrivals: source, then position in its list, its spawns last in spawn order. -/
def arrBefore (x y : WaveMsg) : Bool :=
  if x.source ≠ y.source then decide (x.source < y.source)
  else if x.spawn ≠ y.spawn then decide (x.spawn < y.spawn)
  else decide (x.pos ≤ y.pos)

/-- A sum of a step: round(w64(base + tree_sum(arr)), F32, RNE), or w64(base + tree_sum(arr)) for .w64; with no %fflag (log 69). -/
def stepSum (f : Fmt) (base : Option Nat) (xs : List Nat) : Nat :=
  let b := match base with | some x => (roundExt fmtW64 .rne false 0#64 (f.dec x).ext).bits | none => 0
  let w := (accumulate b (treeSum (xs.map fun x => (f.dec x).ext)).1).1
  if f == fmtW64 then w else (roundExt f .rne false 0#64 (fmtW64.dec w).ext).bits

/-- Element values of a step close (R384); the minimum or maximum of one value is that value, a NaN the canonical one (R92). -/
def stepElem (p : Mkp) (old : W64) (arr : List W64) : W64 :=
  let base := if p.acc then some old else none
  if p.comb = 4 ∧ 3 ≤ p.etype then
    let half := fun (hi : Bool) (x : W64) =>
      let n := x.toNat / (if hi then 2 ^ 32 else 1) % 2 ^ 32
      if hi && bitAt n 31 then 0 else n
    match p.etype with
    | 3 => w64n (stepSum fmtF32 (base.map (half false)) (arr.map (half false)))
    | 4 => w64n (stepSum fmtW64 (base.map (·.toNat)) (arr.map (·.toNat)))
    | _ =>
      w64n (momPack (stepSum fmtF32 (base.map (half false)) (arr.map (half false))) (stepSum fmtF32 (base.map (half true)) (arr.map (half true))))
  else
    let tidy := fun (x : W64) =>
      if (p.comb = 2 ∨ p.comb = 3) ∧ p.etype = 3 then w64n (fmtF32.tidy (x.toNat % 2 ^ 32))
      else if (p.comb = 2 ∨ p.comb = 3) ∧ p.etype = 4 then w64n (fmtW64.tidy x.toNat) else x
    match base.toList ++ arr with
    | [] => old
    | x :: xs => tidy (xs.foldl (combine p) x)

/-- The step close of one node for one wave (R384): the state and the messages of the next step. -/
def closeNode (s : State) (j : Job) (sc : Scope) (c : MarkCmd) (p : Mkp) (v l : Nat) (arr : List WaveMsg) : State × List WaveMsg :=
  if !ndValid s j v l then (s, [])
  else
    let arr := arr.mergeSort arrBefore
    let k := (arr.map (·.hop)).foldl max 0
    let dest := fun (s : State) => if p.slot then slotVals s j p v l p.dslot else [w64n (bitAt (ndPlanes s j v l) p.dplane).toNat]
    let old := dest s
    let (s1, ms) :=
      if p.comb = 5 then
        arr.foldl (fun (acc : State × List WaveMsg) m =>
          let (s2, xs) := runHandler acc.1 j sc c p v l acc.2.length m
          (s2, acc.2 ++ xs)) (s, [])
      else if p.slot then
        let new := (List.range p.nelem).map fun e => stepElem p ((old[e]?).getD 0#64) (arr.map fun m => (m.val[e]?).getD 0#64)
        (wrVa s j.asid (slotAt j v l p.dslot 0 p.esz) (new.flatMap fun x => leBytes p.esz x.toNat), [])
      else (setPlanes s j v l (putBit (ndPlanes s j v l) p.dplane true), [])
    if dest s1 ≠ old ∧ p.more k then (s1, ms ++ sendAlong s1 j sc c p v l (k + 1) (if p.slot then dest s1 else [])) else (s1, ms)

/-- STEP_CLOSE (R384, R390, R391): a Vat at which a step close was announced combines the class's arrivals; the messages
it sends are counted before its P bit clears. -/
def execStepClose (vat job cls : Nat) (s : State) : Out :=
  match s.classes.find? (fun k => k.job == job && k.cls == cls && k.close.contains vat), nmGet s.jobs job with
  | some _, some j =>
    if (s.vat vat).sleep then .next s
    else
      let mine := (s.vat vat).arr.filter fun m => m.job == job && m.cls == cls
      let keys := (mine.map fun m => (m.wave, bitsOf m.target 15 0)).eraseDups
      let (s1, ms) := keys.foldl (fun (acc : State × List WaveMsg) k =>
        match s.marks.find? (fun c => c.id == k.1 && c.job == job) with
        | some c =>
          let (s2, xs) := closeNode acc.1 j (classScope s job cls) c (mkpOf c.blk) vat k.2
            (mine.filter fun m => m.wave == k.1 && bitsOf m.target 15 0 == k.2)
          (s2, acc.2 ++ xs)
        | none => acc) (s, [])
      let s2 := (emit s1 ms).updVat vat fun x =>
        { x with arr := x.arr.filter fun m => !(m.job == job && m.cls == cls),
                 pairs := pairUpd x.pairs (pairKeyOf job cls) fun q => { q.count ms.length 0 with p := false } }
      .next { s2 with classes := s2.classes.map fun (k : WClass) => if k.job == job && k.cls == cls then { k with close := k.close.filter (· != vat) } else k }
  | _, _ => .next s

/-! ## The Deckle -/

/-- The sums of this module's endpoints of a key (R391), each a 64-bit counter (R389); the fabric's ports report at .fabric
scope. -/
def moduleSum (s : State) (k : Nat) (ports : Bool) : SweepSum :=
  let ps := (s.cores.filterMap fun e => nmGet e.2.pairs k) ++ (s.vats.filterMap fun e => nmGet e.2.pairs k) ++
    (if ports then (s.fab.pairs.filter fun e => e.1 / 16 == k).map (·.2) else [])
  ps.foldl (fun (t : SweepSum) q => { s := (t.s + q.s) % 2 ^ 64, c := (t.c + q.c) % 2 ^ 64, l := t.l + q.l, a := t.a || q.a, p := t.p || q.p })
    { s := 0, c := 0, l := 0, a := false, p := false }

/-- The endpoints clear their activity bits as they report (R391). -/
def clearActive (s : State) (k : Nat) (ports : Bool) : State :=
  let off := fun (m : NMap Pair) => nmUpd m k fun q => { q with a := false }
  { s with
    cores := s.cores.map fun (e : Nat × Core) => (e.1, { e.2 with pairs := off e.2.pairs })
    vats := s.vats.map fun (e : Nat × Vat) => (e.1, { e.2 with pairs := off e.2.pairs })
    fab := if ports then { s.fab with pairs := s.fab.pairs.map fun (e : Nat × Pair) => (e.1, if e.1 / 16 == k then { e.2 with a := false } else e.2) }
      else s.fab }

/-- Whether a WQT of a class waits. -/
def classWaits (s : State) (job cls : Nat) : Bool :=
  s.strands.any fun e => e.2.job == job && e.2.frags.any fun f => match f.2.wait with | .wqt c _ _ _ => c == cls | _ => false

/-- The announcement of quiet (R391, R392, R395): every waiting WQT of the class returns as an acquire at its scope, the
registrations clear, and with .cls the class closes. A saved fragment finds it on its resumption. -/
def announceQuiet (s : State) (job cls : Nat) (t : SweepSum) : State :=
  let val := w64n (t.s % 2 ^ 32 * 2 ^ 32 + min t.l 65535 * 2 ^ 16 + (if t.l = 0 then 0 else 1))
  let waits := (s.strands.filter fun e => e.2.job == job).flatMap fun e =>
    e.2.frags.filterMap fun f => match f.2.wait with
      | .wqt c cl sc p => if c == cls then some (e.1, f.1, cl, sc, p, e.2.core) else none
      | _ => none
  let s1 := { s with marks := s.marks.filter fun m => !(m.job == job && m.cls == some cls && m.mn == 0x3C3) }
  let s2 := waits.foldl (fun (s : State) (w : Nat × Nat × Bool × Scope × Nat × Nat) =>
    let (sid, f, _, sc, p, core) := w
    let s3 := s.updStrand sid fun st => { st with pend := st.pend.map fun (x : Pend) =>
      if x.id == p then { x with ok := true, writes := x.writes.map fun y => { y with x := val } } else x }
    if ((nmGet s3.strands sid).map (·.st == .saved)).getD false then s3.updFrag sid f fun fr => { fr with wait := .quiet sc p }
    else dropRlb (unblock s3 sid f) core sc) s1
  if t.closes || waits.any fun w => w.2.2.1 then
    { dropPairs s2 (pairKeyOf job cls) with classes := s2.classes.filter fun k => !(k.job == job && k.cls == cls) }
  else { s2 with classes := s2.classes.map fun (k : WClass) => if k.job == job && k.cls == cls then { k with regs := [] } else k }

/-- The root's use of a sweep's sums (R391). -/
def sweepEnd (s : State) (job cls : Nat) (t : SweepSum) : State :=
  if t.s ≠ t.c ∨ t.a then s
  else if t.p then
    let ps := (s.vats.filter fun e => ((nmGet e.2.pairs (pairKeyOf job cls)).map (·.p)).getD false).map (·.1)
    { s with classes := s.classes.map fun (k : WClass) => if k.job == job && k.cls == cls then { k with close := ps } else k }
  else announceQuiet s job cls t

/-- Whether a sweep of a class is due (R391): it is open at the scope, a WQT waits or a P bit is set, the last step close
has been carried out, and every Vat reports (R393). -/
def sweepDue (s : State) (job cls : Nat) (fabric : Bool) (t : SweepSum) : Bool :=
  s.classes.any (fun k => k.job == job && k.cls == cls && (k.sc == .fabric) == fabric && k.close.isEmpty)
    && (classWaits s job cls || t.waits || t.p) && !(s.vats.any fun e => e.2.sleep)

/-- DECKLE_SWEEP (R391): the up and the down pass of one sweep within the module. -/
def execDeckleSweep (job cls : Nat) (s : State) : Out :=
  let k := pairKeyOf job cls
  let t := moduleSum s k false
  if sweepDue s job cls false t then .next (sweepEnd (clearActive s k false) job cls t) else .next s

/-! ## Links and planes (R408) -/

/-- Links of a plane by number: module m's down link, and up-port u of leaf l, which the link joins to a spine. -/
def downLink (m : Nat) : Nat := m
def upLink (leaf u : Nat) : Nat := 4096 + 64 * leaf + u

/-- The leaf and down-port of a module, and the spine and its port of up-port u of a leaf. -/
def leafOf (m : Nat) : Nat := m / 64
def downPort (m : Nat) : Nat := m % 64
def spineOf (u : Nat) : Nat := u / 2
def spinePort (leaf u : Nat) : Nat := 2 * leaf + u % 2

def State.linkOk (s : State) (plane link : Nat) : Bool := !s.fab.failed.contains (plane, link)

/-- A leaf reaches a spine over one of its two links to it. -/
def State.spineOk (s : State) (plane leaf sp : Nat) : Bool := s.linkOk plane (upLink leaf (2 * sp)) || s.linkOk plane (upLink leaf (2 * sp + 1))

/-- A working path between two modules on a plane (R409): over their leaf, or over a spine that both leaves reach. -/
def State.pathOk (s : State) (plane a b : Nat) : Bool :=
  s.linkOk plane (downLink a) && s.linkOk plane (downLink b) &&
    (leafOf a == leafOf b || (List.range 32).any fun sp => s.spineOk plane (leafOf a) sp && s.spineOk plane (leafOf b) sp)

/-- A working path on some plane. -/
def State.reaches (s : State) (a b : Nat) : Bool := a == b || (List.range 16).any fun p => s.pathOk p a b

/-- The lowest plane on which every module of a set reaches the root of a sweep, spine 0 (R433). -/
def sweepPlane (s : State) (mset : List Nat) : Option Nat :=
  (List.range 16).find? fun p => mset.all fun m => s.linkOk p (downLink m) && s.spineOk p (leafOf m) 0

/-- The plane on which a job's sweeps run. -/
def jobPlane (s : State) (job : Nat) : Option Nat := sweepPlane s (s.module.toNat :: ((nmGet s.jobs job).map (·.mset)).getD [])

/-- FABRIC_SWEEP (R391, R433): a sweep of a .fabric class over the module set on the plane chosen for it; `others` is what the
other modules report. The sweep after a discarded one reports A = 1. A class that another module has opened opens here first
(R432). -/
def execFabricSweep (job cls plane : Nat) (others : SweepSum) (s : State) : Out :=
  let k := pairKeyOf job cls
  let o := moduleSum s k true
  let again := s.classes.any fun x => x.job == job && x.cls == cls && x.again
  let t : SweepSum := { others with
    s := (o.s + others.s) % 2 ^ 64, c := (o.c + others.c) % 2 ^ 64, l := o.l + others.l, a := o.a || others.a || again, p := o.p || others.p }
  if others.opens && peerOpens s job cls then .next (openClass s job cls .fabric)
  else if sweepDue s job cls true t && jobPlane s job == some plane then
    let s1 := clearActive s k true
    .next (sweepEnd { s1 with classes := s1.classes.map fun (x : WClass) => if x.job == job && x.cls == cls then { x with again := false } else x } job cls t)
  else .next s

/-- The sweeps that run on a plane are discarded (R433). -/
def spoilSweeps (s : State) (plane : Nat) : State :=
  { s with classes := s.classes.map fun (x : WClass) => if x.sc == .fabric && jobPlane s x.job == some plane then { x with again := true } else x }

/-- A wave message on the wire (R410): NELEM elements of the size that its MKP names; none for a plane. -/
def waveTraffic (s : State) (m : WaveMsg) : Traffic :=
  .wave (m.val.length * (((s.marks.find? fun c => c.id == m.wave && c.job == m.job).map fun c => (mkpOf c.blk).esz).getD 4))

/-- WAVE_PORT_FORWARD (R433): the port of a plane takes message n from its module to the wire, or one off the wire to its module,
counting it in C and S; a message of a class that another module opened finds it open here (R432). -/
def execWavePortForward (port : Nat) (inbound : Option WaveMsg) (n : Nat) (s : State) : Out :=
  let count := fun (s : State) (m : WaveMsg) =>
    ({ s with fab := { s.fab with pairs := pairUpd s.fab.pairs (portPair (pairKeyOf m.job m.cls) port) (·.count 1 1) } } : State).carry m.job (waveTraffic s m)
  match inbound with
  | some m =>
    let s := if peerOpens s m.job m.cls then openClass s m.job m.cls .fabric else s
    let known := s.classes.any fun k => k.job == m.job && k.cls == m.cls && k.sc == .fabric
    if known && bitsOf m.target 36 25 == s.module.toNat && s.linkOk (port % 16) (downLink s.module.toNat) then
      .next { count s m with msgs := s.msgs ++ [{ vat := bitsOf m.target 24 16, m := m }] }
    else .next s
  | none =>
    match s.fab.out[n]? with
    | some m =>
      if s.pathOk (port % 16) s.module.toNat (bitsOf m.target 36 25) then
        .next (let s1 := count s m; { s1 with fab := { s1.fab with out := s1.fab.out.eraseIdx n } })
      else .next s
    | none => .next s

/-! ## VRED and VCMD -/

/-- The fields of a VRED's block (R397). -/
def MarkCmd.vredCount (m : MarkCmd) : Nat := bitsOf (blkN m.blk 0 8) 63 32
def MarkCmd.vredSrcs (m : MarkCmd) : List Nat := (List.range (bitsOf (blkN m.blk 0 8) 2 0 + 1)).map fun k => blkN m.blk (32 + 8 * k) 8
def MarkCmd.vredDst (m : MarkCmd) : Nat := blkN m.blk 8 8

/-- A byte of a source: as it was read ahead, or as it stands in M (R397). -/
def vredByte (s : State) (m : MarkCmd) (va : Nat) : Byte := (nmGet m.seen va).getD ((trRead s m.tr va 1).headD 0#8)

/-- Element i of a VRED (R397): the sum of its buffers' elements, rounded once, and the conditions of R98. -/
def vredElem (s : State) (m : MarkCmd) (i : Nat) : Rounded :=
  let xs := m.vredSrcs.map fun a => fmtF32.dec (leVal ((List.range 4).map fun k => vredByte s m (a + 4 * i + k)))
  let sum := treeSum (xs.map Num.ext)
  let r := roundExt fmtF32 .rne false 0#64 (fmtW64.dec sum.1).ext
  { bits := r.bits, fl := sum.2 ||| r.fl ||| flIf (xs.any Num.isSig) flNv }

/-- The sums of a VRED in ascending element order, each written before the next is read (R397). -/
def vredSums (s : State) (m : MarkCmd) : State × Flags :=
  (List.range m.vredCount).foldl (fun (acc : State × Flags) i =>
    let r := vredElem acc.1 m i
    (markWrite acc.1 m (m.vredDst + 4 * i) (leBytes 4 r.bits), acc.2 ||| r.fl)) (s, flNone)

/-- Whether the destination takes a byte of M, under whatever address (R397). -/
def vredTakes (m : MarkCmd) (key : Nat) : Bool :=
  m.tr.any fun e =>
    let va := e.base + (key - pkey e.home e.pa)
    decide (pkey e.home e.pa ≤ key) && decide (key < pkey e.home e.pa + e.size) && decide (m.vredDst ≤ va) && decide (va < m.vredDst + 4 * m.vredCount)

/-- A source sector is read ahead of its sums, once, where the destination does not overlap it (R397). -/
def vredAhead (s : State) (m : MarkCmd) (va : Nat) : MarkCmd :=
  let as := (List.range 32).map (va / 32 * 32 + ·)
  let src := fun (a : Nat) => m.vredSrcs.any fun x => decide (x ≤ a) && decide (a < x + 4 * m.vredCount)
  let hit := fun (a : Nat) => match trFind m.tr a with | some e => vredTakes m (pkey e.home (e.pa + (a - e.base))) | none => true
  if m.rel.isSome || as.any (fun a => (nmGet m.seen a).isSome || (src a && hit a)) then m
  else { m with seen := (as.filter src).foldl (fun x a => nmSet x a ((trRead s m.tr a 1).headD 0#8)) m.seen }

/-- The waits of the flag's release at .module (R337, R351), made for the strand that issued the command: what it committed, its
die's writes and its core's lines before q, without those of UNORDERED pages (R340). -/
def vredFree (s : State) (m : MarkCmd) (q : Nat) : Bool :=
  !(((nmGet s.strands m.sid).map (·.rsb)).getD [] |>.any fun e => e.ready && e.hold.isNone && e.ord != 2 && decide (e.stamp < q))
    && !((s.die (dieOf m.core)).p.any fun w => decide (w.seq < q) && !w.unord)
    && !((s.core m.core).wcb.any fun l => decide (l.id < q) && !l.unord)

/-- A VRED at its Vat: the sums; then, its waits over, the flag with the union of the conditions (R351, R397). -/
def vredStep (s : State) (m : MarkCmd) (vat : Nat) : State :=
  match m.rel with
  | none =>
    let r := vredSums s m
    let (q, s1) := r.1.tick
    if r.1.gone m.job then r.1
    else { s1 with marks := s1.marks.map fun (x : MarkCmd) => if x.id == m.id then { m with rel := some (q, r.2) } else x }
  | some (q, fl) =>
    if !vredFree s m q then s
    else
      let s1 := markWrite s m (blkN m.blk 16 8) (leBytes 8 (blkN m.blk 24 8 ||| fl.toNat))
      if s1.gone m.job then s1 else vatDone s1 m vat [] []

/-- VRED_REDUCE (R397, R351). -/
def execVredReduce (x : VredMove) (s : State) : Out :=
  let at_ := fun (vat id : Nat) => s.marks.find? fun m => m.id == id && m.mn == 0x3CC && vatMay s m vat
  match x with
  | .reduce vat id => .next (match at_ vat id with | some m => vredStep s m vat | none => s)
  | .read vat id va => .next (match at_ vat id with
    | some m => { s with marks := s.marks.map fun (y : MarkCmd) => if y.id == id then vredAhead s m va else y }
    | none => s)

/-- VCMD_BANK (R398). -/
def execVcmdBank (vat : Nat) (s : State) : Out :=
  match s.marks.find? fun m => m.mn == 0x3CD && vatMay s m vat with
  | none => .next s
  | some m =>
    let w := fun (o : Nat) => blkN m.blk o 8
    let x := w 8
    let at_ := fun (q b : Nat) => w 0 + 65536 * q + 2048 * b
    let rows := (List.range (bitsOf x 44 40 + 1)).map (· + bitsOf x 36 32)
    let banks := (List.range 32).filter fun b => bitAt x b
    let s1 := banks.foldl (fun (s1 : State) b =>
      let src := if bitAt x 48 then trRead s m.tr (at_ (bitsOf x 53 49) b) 2048 else (List.range 32).flatMap fun _ => (m.blk.drop 16).take 64
      rows.foldl (fun (s2 : State) q => markWrite s2 m (at_ q b) src) s1) s
    .next (if s1.gone m.job then s1 else vatDone s1 m vat [] [])

/-! ## Self-refresh and errors -/

/-- A Vat that holds live state of a job (R393). -/
def vatBusy (s : State) (v : Nat) : Bool :=
  !(s.vat v).arr.isEmpty || !(s.vat v).pairs.isEmpty || s.marks.any (fun m => m.todo.contains v) || s.msgs.any fun m => m.vat == v

/-- VAT_SELF_REFRESH_ENTRY (R393): entry is deferred while the Vat holds live state, unless forced; the state it saves to
its channel's reserved rows is kept as it stands. -/
def execVatSelfRefreshEntry (vat : Nat) (forced : Bool) (s : State) : Out :=
  if 512 ≤ vat || (vatBusy s vat && !forced) then .next s else .next (s.updVat vat fun x => { x with sleep := true })

def execVatSelfRefreshExit (vat : Nat) (s : State) : Out :=
  if 512 ≤ vat then .next s else .next (s.updVat vat fun x => { x with sleep := false })

/-- PKG_UNCORR (R392): a machine-check event, and the jobs concerned end. -/
def execPkgUncorr (jobs : List Nat) (s : State) : Out :=
  .next (jobs.foldl (fun s j => endJob s j 0xE2#8 []) (s.event 0xE2#8 jobs))

end Sys2Proof.Machine
end

