-- ==== Sys2Proof/Machine/Fabric.lean ====
section
/-!
DEFINITION. The fabric (R408 to R438): signals, packets and their application, links, deadlock recovery, modules that
vanish, collectives and the Couch.
-/
namespace Sys2Proof.Machine

/-! ## Signals -/

/-- Translates a signal word's address (R421): SIG_ADDR, or a fault whose service leaves the fragment STOPPED at its
instruction. -/
def sigPage (s : State) (c : Ctx) (va : Nat) (wr : Bool) : (State × Piece) ⊕ State :=
  if va % 8 ≠ 0 then .inr (userCause s c 0xC5#8)
  else
    match coreXlate s c.st.core (c.st.tslot (c.leader.getD 0)) (s.asid c.st) c.st.batch va with
    | (.ok e, s1) =>
      if e.fmt ≠ 0 ∨ e.ord = 3 ∨ (wr ∧ !e.w) then .inr (userCause s1 c 0xC5#8) else .inl (s1, e.piece va 8)
    | (.lockMiss, s1) => .inr (userCause s1 c 0x43#8)
    | (.pageFault, s1) =>
      let (n, s2) := s1.addFault (s1.asid c.st) va c.fr.pc.toNat c.fr.mask (.plain c.sid c.f)
      .inr (s2.updFrag c.sid c.f fun fr => { fr with st := .stopped, wait := .fault n })
    | (.bad, s1) => .inr (endJobAt s1 c.sid c.f 0x48#8 [])
    | (_, s1) => .inr (endJobAt s1 c.sid c.f 0x46#8 [])

/-- The lines that a core sends before a signal (R348, R352): those of its die's write-combining buffers that hold ordered writes to
the home (R340), and its own that hold bytes of the word. -/
def sigLines (s : State) (c : Nat) (p : Piece) : List (Nat × WcbLine) :=
  let own := fun (l : WcbLine) => l.bytes.any fun b => p.keys.contains (pkey l.home (l.pa + b.1))
  if p.home = 0 then []
  else (s.cores.filter fun e => dieOf e.1 == dieOf c).flatMap fun e =>
    (e.2.wcb.filter fun l => l.home == p.home && (!l.unord || (e.1 == c && own l))).map fun l => (e.1, l)

/-- A send that waits for a number of its pair takes a transaction entry, if one is free (R355, R411). -/
def holdNum (s : State) (sid f c : Nat) : State :=
  if 256 ≤ ottUsed s c then s else s.updFrag sid f fun fr => { fr with num := true }

/-- A signal packet enters F with the next number of its pair (R352, R411). -/
def sendSig (s : State) (c : Ctx) (p : Piece) (op : SigOp) (b : W64) : State :=
  let src := s.module.toNat
  let s1 := sendPkt s { src := src, dst := if p.home = 0 then src else p.home - 1, num := 0, seq := 0, core := c.st.core, jobs := [c.st.job],
                        sid := c.sid, pc := c.fr.pc, mask := c.fr.mask, slot := c.st.slot, body := .csig p.pa op b }
  if p.home = 0 then s1 else s1.carry c.st.job .word

/-- Whether a signal of thread t may not leave yet: for the strand's ordered stores (R352), for its own accesses to the word (R333,
R348), for an acquire in flight (R338), or, on a STRONG page, for the strand's last STRONG access (R342). -/
def Strand.sigHeld (st : Strand) (t : Nat) (p : Piece) : Bool :=
  !st.ownDrained true || st.pendingSectors (p.sectors.map (·.2)) || (p.ord == 0 && st.strongBusy) || st.acquiring || st.overlaps t p.keys

/-- CSIG (R352, R422): the region ends, the strand's entries drain, the lines before the signal are sent, and the signal follows
them; where it waits for a number of its pair it holds a transaction entry (R411). -/
def execCsig (h : Hdr) (op : SigOp) (a b : Opnd) (s : State) : Out :=
  issue h (uses [] (refsOf a false ++ refsOf b false)) s fun c s =>
    if (c.acts h).isEmpty then .next (advance s c.sid c.f h)
    else
      match sigPage s c (c.st.r.uni64 a) true with
      | .inr s1 => .next s1
      | .inl (s1, p) =>
        if c.st.misplaced [p] then .next (replace s1 c [p])
        else
          match endRegion s1 c.sid c.f c.fr.pc none with
          | (s2, false) => .next s2
          | (s2, true) =>
            if ((nmGet s2.strands c.sid).map fun st => st.sigHeld (c.leader.getD 0) p).getD true then .next (stay s2 c.sid c.f)
            else
              let s3 := (sigLines s2 c.st.core p).foldl (fun (s : State) l => trySend s l.1 l.2) s2
              if !(sigLines s3 c.st.core p).isEmpty then .next (stay s3 c.sid c.f)
              else if p.home ≠ 0 ∧ pairFull s3 p.home then .next (stay (holdNum s3 c.sid c.f c.st.core) c.sid c.f)
              else .next (doneRgn (sendSig ((s3.acts c.sid).signs c.sid c.f) c p op (w64n (c.st.r.uni64 b))) c h)

/-- SWAIT's condition (R423). -/
def sigHolds (c : SigCond) (x b : W64) : Bool :=
  match c with
  | .ge => decide (b.toNat ≤ x.toNat)
  | .eq => x == b
  | .ne => x != b

/-- SWAIT (R423): the fragment is BLOCKED, and SWAIT_REREAD reads the word. -/
def execSwait (h : Hdr) (cd : SigCond) (d a b : Opnd) (s : State) : Out :=
  let dw := refsOf d false
  issue h (usesT dw (refsOf a false ++ refsOf b false)) s fun c s =>
    if (c.acts h).isEmpty then .next (advance s c.sid c.f h)
    else
      let va := c.st.r.uni64 a
      match sigPage s c va false with
      | .inr s1 => .next s1
      | .inl (s1, p) =>
        if c.st.acquiring || sigPending s1 c.sid p.keys || c.st.overlaps (c.leader.getD 0) p.keys then .next (stay s1 c.sid c.f)
        else
        let p := c.st.nextPend
        .next ((s1.acts c.sid).updStrand c.sid fun st =>
          (st.track c.f false dw (dstW d .b64 0 0) flNone false .none).updFrag c.f fun fr =>
            { fr with st := .blocked, wait := .swait cd va (w64n (c.st.r.uni64 b)) p, evt := w64n va, gap := max h.stall.toNat 1 })

/-- The word of a waiting SWAIT; none where its page no longer serves it (R421). -/
def sigWord (s : State) (st : Strand) (va : Nat) : Option Piece :=
  match (coreXlate s st.core (st.tslot 0) (s.asid st) st.batch va).1 with
  | .ok e => if e.fmt ≠ 0 ∨ e.ord = 3 then none else some (e.piece va 8)
  | _ => none

/-- The value that SWAIT reads: the word at its home under the strand's own bytes of it that have not reached it (R333, log 72). -/
def sigVal (s : State) (st : Strand) (p : Piece) : W64 := w64n (leVal (p.keys.map (homeByte s st 0 p.ord p.home)))

/-- What one read of a waiting SWAIT comes to (R348, R423): the word; a line to send first; a request to the home; or a read that
must wait. -/
inductive SigRead
  | val (x : W64)
  | send (l : WcbLine)
  | ask
  | wait

/-- SWAIT's read of a fragment is on its way to its home (R410). -/
def readOut (s : State) (sid f : Nat) : Bool :=
  s.fab.pkts.any fun k => match k.body with | .read _ a b => a == sid && b == f | _ => false

/-- SWAIT reads as ATG does: behind every write to its bytes that this module holds (R348), and on a STRONG page behind the strand's
last STRONG access (R342). -/
def sigRead (s : State) (st : Strand) (p : Piece) : SigRead :=
  let accs : List Acc := [{ t := 0, ps := [p], dec := .raw .b64, b := 0#64, c := 0#64 }]
  match atomSends s st.core accs with
  | some l => .send l
  | none =>
    if !atomClear s st accs || vatAsleep s accs || (p.ord == 0 && st.strongBusy) then .wait
    else if p.home ≠ 0 then .ask
    else .val (sigVal s st p)

/-- A read of a waiting SWAIT gives a value (R423): one that satisfies the condition goes to D, the strand acquires at .fabric, and
the fragment goes on. -/
def swaitGets (s : State) (sid f : Nat) (st : Strand) (ord n : Nat) (x : W64) : State :=
  let s1 := s.updStrand sid fun st => { st with pend := st.pend.map fun (q : Pend) =>
    if q.id == n then { q with ok := true, writes := q.writes.map fun w => { w with x := x } } else q }
  dropRlb (if ord = 0 then unblockRgn s1 sid f else unblock s1 sid f) st.core .fabric

/-- SWAIT's request leaves for the home with a transaction entry, which it holds until its reply; where it waits for a number of
its pair it takes the entry first (R355, R411). -/
def sigAsk (s : State) (sid f : Nat) (st : Strand) (fr : Frag) (p : Piece) : State :=
  if pairFull s p.home then holdNum s sid f st.core
  else if !fr.num && decide (256 ≤ ottUsed s st.core) then s
  else
    (sendPkt (s.updFrag sid f fun x => { x with num := true })
      { src := s.module.toNat, dst := p.home - 1, num := 0, seq := 0, core := st.core, jobs := [st.job], sid := sid, pc := fr.pc, mask := fr.mask,
        slot := st.slot, body := .read p.pa sid f }).carry st.job .word

/-- One read of the word p by a fragment that waits in SWAIT. -/
def sigTry (s : State) (sid f : Nat) (st : Strand) (fr : Frag) (cd : SigCond) (b : W64) (n : Nat) (p : Piece) : State :=
  match sigRead s st p with
  | .send l => trySend s st.core l
  | .wait => s
  | .ask => sigAsk s sid f st fr p
  | .val x => if sigHolds cd x b then swaitGets s sid f st p.ord n x else s

/-- SWAIT_REREAD (R423): the word is read again, at once, or by a request to its home; on a STRONG page each read ends the region
first (R342). -/
def execSwaitReread (sid f : Nat) (s : State) : Out :=
  match nmGet s.strands sid with
  | none => .next s
  | some st =>
    match nmGet st.frags f with
    | none => .next s
    | some fr =>
      match fr.wait with
      | .swait cd va b n =>
        if readOut s sid f then .next s
        else
          match sigWord s st va with
          | none => .next (abandon s sid f fr)
          | some p =>
            if st.misplaced [p] then .next (s.updStrand sid fun st => st.rekey [p])
            else if p.ord ≠ 0 then .next (sigTry s sid f st fr cd b n p)
            else
              match endRegion s sid f fr.pc none with
              | (s1, false) => .next s1
              | (s1, true) => .next (sigTry s1 sid f ((nmGet s1.strands sid).getD st) fr cd b n p)
      | _ => .next s

/-- SWAIT's read is applied at its home (R423), and its transaction entry frees. -/
def applyRead (s : State) (sid f home pa : Nat) : State :=
  match (nmGet s.strands sid).bind fun st => (nmGet st.frags f).map fun (fr : Frag) => (st, fr) with
  | none => s
  | some (st, fr) =>
    match fr.wait with
    | .swait cd va b n =>
      let s1 := s.updFrag sid f fun x => { x with num := false }
      match sigWord s1 st va with
      | some p =>
        let x := sigVal s1 st p
        if pkey p.home p.pa = pkey home pa ∧ sigHolds cd x b then swaitGets s1 sid f st p.ord n x else s1
      | none => s1
    | _ => s

/-! ## Packets -/

/-- What an ordered packet carries (R410). -/
def PktKind.traffic : PktKind → Traffic
  | .line _ _ _ => .writeLine
  | .csig _ _ _ | .read _ _ _ => .word
  | .req _ _ n _ _ _ => if n = 0 then .loadRequest else if n = 128 then .writeLine else .atgRequest (n == 16)
  | .fill _ => .loadRequest

/-- The range of bytes that a packet writes at its home. -/
def Pkt.range (k : Pkt) : Nat × Nat :=
  match k.body with
  | .line pa bs _ =>
    let lo := bs.foldl (fun m b => min m b.1) (pa + 128)
    let hi := bs.foldl (fun m b => max m (b.1 + 1)) pa
    (lo, hi - lo)
  | .csig pa _ _ => (pa, 8)
  | .req pa n _ _ _ _ => (pa, n)
  | .read pa _ _ => (pa, 8)
  | .fill pa => (pa, 32)

/-- The rights that a packet needs at its home (R418): to read and to write. -/
def Pkt.needs (s : State) (k : Pkt) : Bool × Bool :=
  match k.body with
  | .line _ _ _ => (false, true)
  | .csig _ _ _ => (true, true)
  | .read _ _ _ => (true, false)
  | .fill _ => (true, false)
  | .req _ _ _ sid id _ =>
    match (((nmGet s.strands sid).bind fun st => st.pend.find? fun (p : Pend) => p.id == id).map fun (p : Pend) => p.op : Option Flight) with
    | some (.atom _ _ _ _ _ _ _) => (true, true)
    | some (.store _) => (false, true)
    | _ => (true, false)

/-- Whether the home admits a packet (R418); a signal to a local word meets no table. -/
def Pkt.admitted (s : State) (k : Pkt) : Bool :=
  let ok := fun wr => Machine.admitted s (unitIngress k.dst) (masterPeer k.src) k.range.1 k.range.2 wr
  k.src == k.dst || ((!(k.needs s).1 || ok false) && (!(k.needs s).2 || ok true))

/-- REMOTE_DENIED for a refused packet (R418): an engine command whose bytes it held ends by R255; otherwise the job
ends. -/
def denyPkt (s : State) (k : Pkt) : State :=
  let ks : List Nat := match k.body with | .line _ bs _ => bs.map fun (b : Nat × Byte) => pkey (k.dst + 1) b.1 | _ => []
  let hit := fun (x : EngCmd) => x.out.any ks.contains
  let c := s.core k.core
  if c.copyQ.any hit || c.gathQ.any hit then
    let mark := fun (q : List EngCmd) => q.map fun (x : EngCmd) => if hit x then { x with status := 0xC0#8, denied := [deniedWord (k.dst + 1) k.range.1] } else x
    s.setCore k.core { c with copyQ := mark c.copyQ, gathQ := mark c.gathQ }
  else k.jobs.foldl (fun s j => endJob s j 0xC0#8 (faultRec j 0xC0#8 k.pc.toNat k.mask k.core k.slot [deniedWord (k.dst + 1) k.range.1])) s

/-- The new value of a signal word (R422). -/
def sigNew (op : SigOp) (x b : W64) : W64 :=
  match op with
  | .add => x + b
  | .set => b
  | .or => x ||| b

/-- The effect of a packet at its home. -/
def applyPkt (s : State) (k : Pkt) : State :=
  match k.body with
  | .line _ bs _ => { s with mem := wrMs s.mem (bs.map fun b => (pkey (k.dst + 1) b.1, b.2)) }
  | .csig pa op b =>
    let key := if k.src = k.dst then pkey 0 pa else pkey (k.dst + 1) pa
    let v := sigNew op (w64n (s.rdM key 8)) b
    let cells := (leBytes 8 v.toNat).zipIdx.map fun (x, i) => (key + i, x)
    rlbAgain { s with mem := wrMs s.mem cells } k.core (key / 32 * 32)
  | .req _ _ _ sid id t => applyReq s sid id t
  | .read pa sid f => applyRead s sid f (k.dst + 1) pa
  | .fill pa =>
    let key := pkey (k.dst + 1) pa
    (k.jobs.foldl (fun s j => s.carry j .loadReply) s).updCore k.core fun x => x.fillRlb key (sectorNow s k.core key)

/-- A local signal waits for the writes in P of its die at its issue, and for every write to its bytes (R348, R352). -/
def sigReady (s : State) (k : Pkt) : Bool :=
  match k.body with
  | .csig pa _ _ =>
    k.src != k.dst ||
      (!((s.die (dieOf k.core)).p.any fun w => decide (w.seq < k.seq) && !w.unord) &&
       !(s.dies.any fun d => d.2.p.any fun w => decide (pa ≤ w.pa) && decide (w.pa < pa + 8)))
  | _ => true

/-- APPLY (R336, R411, R418): the packet with the lowest unapplied number of its pair. -/
def execApply (src dst : Nat) (s : State) : Out :=
  match s.fab.pkts.find? fun k => k.src == src && k.dst == dst with
  | none => .next s
  | some k =>
    if !sigReady s k || !s.reaches src dst then .next s
    else
      let ok := k.admitted s
      let s1 := { s with fab := { s.fab with
        pkts := s.fab.pkts.filter fun x => !(x.src == src && x.dst == dst && x.num == k.num)
        applied := nmSet s.fab.applied (pairKey src dst) ((k.num + 1) % 2 ^ 32) } }
      .next (settleTeams (if ok then applyPkt s1 k else denyPkt s1 k))

/-! ## Links -/

/-- The key of a link of a plane. -/
def linkKey (plane link : Nat) : Nat := link * 16 + plane % 16

/-- FLIT_RETRY (R412): a link's count of consecutive retries of one flit. -/
def execFlitRetry (plane link : Nat) (bad : Bool) (s : State) : Out :=
  let k := linkKey plane link
  let n := (nmGet s.fab.retries k).getD 0
  if 8192 ≤ link then .next s else .next { s with fab := { s.fab with retries := if bad then nmSet s.fab.retries k (n + 1) else nmDel s.fab.retries k } }

/-- Losses at the interface of a plane (R392), by counter key of an open .fabric class: they count in L and C. -/
def loseMsgs (s : State) (plane : Nat) (lost : List (Nat × Nat)) : NMap Pair :=
  lost.foldl (fun m e =>
    if e.2 ≠ 0 && s.classes.any fun k => k.sc == .fabric && pairKeyOf k.job k.cls == e.1 then
      pairUpd m (portPair e.1 plane) fun q => { q with l := q.l + e.2, c := (q.c + e.2) % 2 ^ 64, a := true }
    else m) s.fab.pairs

/-- LINK_FAILED (R392, R412, R433): after 64 retries the link is failed, H4 gets the event where an end of the link is this module's,
the wave messages that the receiving
end did not consume are losses at this module's port of the plane, and a sweep under way there is discarded. -/
def execLinkFailed (plane link : Nat) (lost : List (Nat × Nat)) (s : State) : Out :=
  let k := linkKey plane link
  if (nmGet s.fab.retries k).getD 0 < 64 ∨ s.fab.failed.contains (plane % 16, link) then .next s
  else
    let s0 := spoilSweeps s (plane % 16)
    let s1 := if link = downLink s.module.toNat then s0.event 0xC6#8 [plane % 16, link] else s0
    .next { s1 with fab := { s1.fab with
      failed := s1.fab.failed ++ [(plane % 16, link)]
      retries := nmDel s1.fab.retries k
      pairs := loseMsgs s1 plane lost } }

/-- A strand's traffic to a module: accesses in flight, and a signal it waits for (R413). -/
def Strand.trafficTo (s : State) (st : Strand) (home : Nat) : Bool :=
  st.pend.any (fun p => p.op.accs.any fun a => a.ps.any fun x => x.home == home)
  || st.rsb.any (fun e => e.ready && e.home == home)
  || st.frags.any fun f => match f.2.wait with
    | .swait _ va _ _ => (match walk s (s.asid st) va with | .ok e => e.home == home | _ => false)
    | _ => false

/-- Whether an address lies on a page of a home. -/
def vaAt (s : State) (asid va home : Nat) : Bool := match walk s asid va with | .ok e => e.home == home | _ => false

/-- A started engine command whose next landing reads or writes at a home (R413, R417). -/
def EngCmd.trafficTo (s : State) (x : EngCmd) (home : Nat) : Bool :=
  x.started && match x.lands with
    | [] => x.out.any fun k => k / 2 ^ 52 == home
    | l :: _ => l.bytes.any fun b => (!l.scr && vaAt s x.asid b.1 home) || match b.2 with
      | .mem va => vaAt s x.asid va home
      | .elem _ _ => vaAt s x.asid x.src home
      | _ => false

/-- A running matrix command whose next row reads or writes at a home (R413, R417). -/
def MatCmd.trafficTo (s : State) (m : MatCmd) (home : Nat) : Bool :=
  m.run && (m.put.any (fun b => b.1.home == home) || m.req.descs.any fun d => vaAt s m.asid (rowAddr d m.row) home)

/-- The jobs with a packet to a module outstanding or waiting (R413). -/
def jobsTo (s : State) (dst : Nat) : List Nat :=
  let jobOf := fun (sid : Nat) => ((nmGet s.strands sid).map (·.job)).toList
  (((s.fab.pkts.filter fun k => k.src == s.module.toNat && k.dst == dst && dst != s.module.toNat).flatMap (·.jobs))
    ++ ((s.strands.filter fun e => e.2.trafficTo s (dst + 1)).map fun e => e.2.job)
    ++ (s.cores.flatMap fun e => (e.2.wcb.filter fun l => l.home == dst + 1).flatMap fun l => l.sids.flatMap jobOf)
    ++ (s.dies.flatMap fun e => (e.2.coll.filter fun c => c.ids.contains dst).map (·.job))
    ++ (s.cores.flatMap fun e => ((e.2.copyQ ++ e.2.gathQ).filter fun x => x.trafficTo s (dst + 1)).map (·.job))
    ++ (s.dies.flatMap fun e => (e.2.mat.filter fun m => m.trafficTo s (dst + 1)).map (·.job))
    ++ ((s.fab.out.filter fun m => bitsOf m.target 36 25 == dst).map (·.job))).eraseDups

/-- MODULE_DOWN (R413, R429, R439): no plane has a working path to the module; the jobs with traffic to it end, and their
collective commands get CAUSE 0xC1; what was on its way there goes nowhere. -/
def execModuleDown (dst : Nat) (s : State) : Out :=
  if s.reaches s.module.toNat dst then .next s
  else
  let js := jobsTo s dst
  let s1 := s.dies.foldl (fun (s : State) d => (d.2.coll.filter fun c => js.contains c.job).foldl (fun (s : State) c =>
    writeScr s c.batch (atOff (c.off + (if c.rprt then 96 else 48)) (leBytes 8 (0xC1 * 2 ^ 56)))) s) s
  let s2 := js.foldl (fun (s : State) j => endJob s j 0xC1#8 (faultRec j 0xC1#8 0 0#32 0 0 [w64n (dst * 2 ^ 52)])) s1
  let s3 := { s2 with fab := { s2.fab with pkts := s2.fab.pkts.filter fun k => k.dst != dst || k.src == k.dst } }
  .next { s3 with cores := s3.cores.map fun (e : Nat × Core) => (e.1, { e.2 with wcb := e.2.wcb.filter fun l => l.home != dst + 1 }) }

/-! ## Deadlock recovery -/

/-- Counts an event at the fabric port of a plane (R416, R455). -/
def portEvent (f : Fabric) (plane code : Nat) : Fabric :=
  { f with ev := countEv f.ev (f.src.filter fun e => e.1 / 8 == plane) code }

/-- BLOCKED_PACKET (R414): the timer of a switch input reaches its limit. Switches are numbered in the token's order:
leaves 0 to 63, spines 64 to 95. -/
def execBlockedPacket (plane sw port : Nat) (s : State) : Out :=
  if 16 ≤ plane ∨ 96 ≤ sw ∨ 128 ≤ port ∨ s.fab.blocked.contains (plane, sw, port) then .next s
  else .next { s with fab := portEvent { s.fab with blocked := s.fab.blocked ++ [(plane, sw, port)] } plane evBlockedPacket }

/-- RECOVERY_TOKEN (R415): the switch that holds a plane's token sends its oldest blocked packet on the recovery lane, if
it has one; the token passes on. -/
def execRecoveryToken (plane : Nat) (s : State) : Out :=
  let at_ := (nmGet s.fab.token plane).getD 0
  let f := { s.fab with token := nmSet s.fab.token plane ((at_ + 1) % 96) }
  if 16 ≤ plane then .next s
  else
  match s.fab.blocked.find? fun b => b.1 == plane && b.2.1 == at_ with
  | some b => .next { s with fab := portEvent { f with blocked := f.blocked.erase b } plane evRecoverySend }
  | none => .next { s with fab := f }

/-! ## Collective commands -/

/-- COLL and RPRT end the region and wait for the die's collective queue (R428, R431, R438). -/
def collIssue (h : Hdr) (a b : Opnd) (mk : Nat → W32 → CmdReq) (s : State) : Out :=
  issue h (uses [] (refsOf a false ++ refsOf b false)) s fun c s =>
    if (c.acts h).isEmpty then .next (advance s c.sid c.f h)
    else
      match endRegion s c.sid c.f c.fr.pc none with
      | (s1, false) => .next s1
      | (s1, true) =>
        if c.st.acquiring then .next (stay s1 c.sid c.f)
        else
          let r := mk (c.st.r.uni32 a) (BitVec.ofNat 32 (c.st.r.uni32 b))
          .next (waitCmd (s1.sends c.sid c.f r) c.sid c.f h r)

def execColl (h : Hdr) (ui : Bool) (a b : Opnd) (s : State) : Out := collIssue h a b (fun o t => .coll o t ui) s
def execRprt (h : Hdr) (ui : Bool) (a b : Opnd) (s : State) : Out := collIssue h a b (fun o t => .rprt o t ui) s

/-- The fields that both blocks share (R425, R434). -/
def blkGid (b : List Byte) : Nat := bitsOf (blkN b 0 8) 63 48
def blkPart (b : List Byte) : Nat := bitsOf (blkN b 0 8) 47 36 + 1
def blkRank (b : List Byte) : Nat := bitsOf (blkN b 0 8) 35 24

/-- COLL's fields (R425). -/
def collOp (b : List Byte) : Nat := bitsOf (blkN b 0 8) 23 20
def collRed (b : List Byte) : Nat := bitsOf (blkN b 0 8) 19 16
def collTy (b : List Byte) : Ty := tyOfCode (bitsOf (blkN b 0 8) 15 12)
def collRoot (b : List Byte) : Nat := bitsOf (blkN b 0 8) 11 0
def collCount (b : List Byte) : Nat := blkN b 8 4

/-- Source and destination bytes of a COLL (R427). -/
def collSrcLen (b : List Byte) : Nat :=
  let n := collCount b * tyBytes (collTy b)
  match collOp b with
  | 1 => blkPart b * n
  | 4 => 0
  | _ => n
def collDstLen (b : List Byte) : Nat :=
  let n := collCount b * tyBytes (collTy b)
  match collOp b with
  | 2 => blkPart b * n
  | 4 => 0
  | _ => n

/-- RPRT's fields (R434). -/
def rprtStride (b : List Byte) : Nat := 16 + 16 * bitsOf (blkN b 0 8) 23 16
def rprtItems (b : List Byte) : Nat := blkN b 8 4
def rprtCap (b : List Byte) : Nat := blkN b 48 4
def rprtBox (b : List Byte) : List Nat := (List.range 6).map fun i => blkN b (64 + 4 * i) 4

/-- The named buffers of a command (R428, R438): address, length, written. An absent KEYS or KEPT is empty. -/
def collBufs (rprt : Bool) (b : List Byte) : List (Nat × Nat × Bool) :=
  if rprt then
    let opt := fun (o n : Nat) => if blkN b o 8 = 0 then 0 else n
    [(blkN b 16 8, rprtItems b * rprtStride b, false), (blkN b 24 8, rprtCap b * rprtStride b, true),
     (blkN b 32 8, opt 32 (8 * rprtCap b), true), (blkN b 40 8, opt 40 (4 * rprtItems b), true)]
  else [(blkN b 16 8, collSrcLen b, false), (blkN b 24 8, collDstLen b, true)]

/-- The sectors that a range of addresses touches. -/
def sectorsOf (va n : Nat) : Nat := if n = 0 then 0 else (va + n - 1) / 32 - va / 32 + 1

/-- The destination sectors of a command, and its completion sector (R428). -/
def collSectors (rprt : Bool) (b : List Byte) : Nat :=
  ((collBufs rprt b).filter (·.2.2)).foldl (fun n x => n + sectorsOf x.1 x.2.1) 0

/-- Where STAT lies in the block. -/
def statOff (rprt : Bool) : Nat := if rprt then 96 else 48

def overlapping (x y : Nat × Nat × Bool) : Bool :=
  x.2.1 != 0 && y.2.1 != 0 && decide (x.1 < y.1 + y.2.1) && decide (y.1 < x.1 + x.2.1)

/-- The checks of R426 on the block alone, but for the list and the pages. -/
def collBlkBad (b : List Byte) : Bool :=
  let es := tyBytes (collTy b)
  let t := bitsOf (blkN b 0 8) 15 12
  let bs := collBufs false b
  let src := bs.headD (0, 0, false)
  let dst := (bs[1]?).getD (0, 0, true)
  blkN b 40 8 != 0 || blkN b 56 8 != 0 || decide (blkPart b ≤ blkRank b) || (collOp b == 3 && decide (blkPart b ≤ collRoot b))
    || decide (5 ≤ collOp b) || (collOp b == 4 && collCount b != 0) || decide (2 < collRed b) || decide (2 ^ 24 < collCount b)
    || !([2, 6, 8, 11, 12, 13].contains t) || (t == 8 && decide (collOp b ≤ 1))
    || src.1 % es != 0 || dst.1 % es != 0
    || (overlapping src dst && !(src.1 == dst.1 && (collOp b == 0 || collOp b == 3)))

/-- A binary32 value in units of 2^-149; infinities and NaNs have none. -/
def f32Units (x : Nat) : Option Int :=
  match fmtF32.dec x with
  | .fin s m e => some ((if s then -1 else 1) * ((m : Int) * 2 ^ (e + 149).toNat))
  | _ => none

/-- R426's part of RPRT's checks on the block alone. -/
def rprtBlkBad (b : List Byte) : Bool :=
  blkN b 0 2 != 0 || blkN b 52 4 != 0 || blkN b 88 8 != 0 || blkN b 120 8 != 0 || decide (blkPart b ≤ blkRank b)

/-- R435's checks on the block alone. -/
def rprtDescBad (b : List Byte) : Bool :=
  let bx := (rprtBox b).map f32Units
  let axis := fun (a : Nat) => match (bx[a]?).getD none, (bx[a + 3]?).getD none with | some lo, some hi => decide (lo < hi) | _, _ => false
  let bs := collBufs true b
  let clash := (List.range 4).any fun i => (List.range i).any fun j => overlapping ((bs[i]?).getD (0, 0, false)) ((bs[j]?).getD (0, 0, false))
  !((List.range 3).all axis) || clash || blkN b 16 8 % 16 != 0 || blkN b 24 8 % 16 != 0 || blkN b 32 8 % 8 != 0 || blkN b 40 8 % 4 != 0
    || decide (2 ^ 24 < rprtItems b) || decide (2 ^ 24 < rprtCap b)

/-- Translates the pages of a range; a page that `bad` refuses gives the cause. -/
def collPages (s : State) (d asid : Nat) (bad : Bool → Tlb → Bool) (cause : BitVec 8) : List (Nat × Nat × Bool) → State × (List Tlb ⊕ MarkStop)
  | [] => (s, .inl [])
  | (va, len, wr) :: rest =>
    match (if len = 0 then .inl (s, []) else pagesGo s (4096 + d) asid (va + len) (len / 4096 + 2) va) with
    | .inr (s1, x, .pageFault) => (s1, .inr (.page x))
    | .inr (s1, _, .bad) => (s1, .inr (.dead 0x48#8))
    | .inr (s1, _, _) => (s1, .inr (.dead 0x46#8))
    | .inl (s1, es) =>
      if es.any (bad wr) then (s1, .inr (.cause cause))
      else
        match collPages s1 d asid bad cause rest with
        | (s2, .inl ts) => (s2, .inl (es ++ ts))
        | r => r

/-- Bytes through a die's view, under translations at hand. -/
def viewBytes (s : State) (d : Nat) (tr : List Tlb) (va n : Nat) : List Byte :=
  (List.range n).map fun i => match trFind tr (va + i) with
    | some e => (let k := pkey e.home (e.pa + (va + i - e.base)); if k < 2 ^ 52 then viewByte s d k else rdM1 s.mem k)
    | none => 0#8

/-- Acceptance of a command (R426, R428, R435): the state with the command queued, or what stops it. -/
def acceptColl (s : State) (d sid f : Nat) (st : Strand) (r : CmdReq) (q : Nat) : State × Option MarkStop :=
  let (rprt, off, tag, ui) : Bool × Nat × W32 × Bool := match r with
    | .coll o t u => (false, o, t, u)
    | .rprt o t u => (true, o, t, u)
    | _ => (false, 0, 0#32, false)
  let size := if rprt then 128 else 64
  if off % 64 ≠ 0 ∨ scrSize s st.batch < off + size then (s, some (.cause 0xC2#8))
  else
    let b := readScr s st.batch off size
    let asid := s.asid st
    let xb := blkN b 12 4
    if (if rprt then rprtBlkBad b else collBlkBad b) then (s, some (.cause 0xC2#8))
    else if rprt && rprtDescBad b then (s, some (.cause 0xC4#8))
    else
      let list := blkN b (if rprt then 56 else 32) 8
      match collPages s d asid (fun _ e => e.home != 0) 0xC2#8 [(list, 2 * blkPart b, false)] with
      | (s1, .inr e) => (s1, some e)
      | (s1, .inl lt) =>
        let ids := (List.range (blkPart b)).map fun i => leVal (viewBytes s1 d lt (list + 2 * i) 2)
        if (ids[blkRank b]?) ≠ some s.module.toNat ∨ ids.eraseDups.length ≠ ids.length then (s1, some (.cause 0xC2#8))
        else
          let badPage := fun (wr : Bool) (e : Tlb) => e.home != 0 || e.fmt != 0 || (wr && !e.w)
          match collPages s1 d asid badPage (if rprt then 0xC4#8 else 0xC2#8) (collBufs rprt b) with
          | (s2, .inr e) => (s2, some e)
          | (s2, .inl _) =>
            if xbrBad s2 st.batch xb then (s2, some (.cause 0x51#8))
            else
              let c : CollCmd := { id := q, by_ := st.origin f, sid := sid, frag := st.fidOf f, core := st.core, job := st.job, batch := st.batch, asid := asid, rprt := rprt,
                                   off := off, blk := b, ids := ids, tag := tag, ui := ui, xbr := planXbr xb, phase := 0, fl := flNone, short := false }
              let s3 := match c.xbr with
                | some x => xbUpdate s2 st.batch x (·.expect (collSectors rprt b + 1))
                | none => s2
              (s3.updDie d fun x => { x with coll := x.coll ++ [c] }, none)

def CmdReq.isColl (r : CmdReq) : Bool := match r with | .coll _ _ _ | .rprt _ _ _ => true | _ => false

/-- COLL_ACCEPT (R426, R431): the oldest waiting command of a die enters its queue of 32, or meets its cause. -/
def execCollAccept (die : Nat) (s : State) : Out :=
  if 32 ≤ (s.die die).coll.length then .next s
  else
    match cmdQueue s ((List.range 144).map (· + 144 * die)) CmdReq.isColl with
    | [] => .next s
    | (q, sid, f, r) :: _ =>
      match nmGet s.strands sid with
      | none => .next s
      | some st =>
        if s.pfaults.any fun e => e.2.who == .coll die q then .next s
        else
          match acceptColl s die sid f st r q with
          | (s1, none) => .next (unblockRgn s1 sid f)
          | (s1, some (.page va)) => .next (s1.addFault (s1.asid st) va 0 0#32 (.coll die q)).2
          | (s1, some (.dead cause)) => .next (endJobAt s1 sid f cause [])
          | (s1, some (.cause cause)) => .next (raiseUser (s1.updFrag sid f fun fr => { fr with st := .stalled, wait := .none }) sid f cause none)

/-- Whether a command of a group that was issued before still waits at a full queue (R431), by its block as it stands. -/
def collAhead (s : State) (job gid id : Nat) : Bool :=
  s.strands.any fun e => e.2.job == job && e.2.resident && e.2.frags.any fun f => match f.2.wait with
    | .cmd (.coll off _ _) q => decide (q < id) && blkGid (readScr s e.2.batch off 8) == gid
    | .cmd (.rprt off _ _) q => decide (q < id) && blkGid (readScr s e.2.batch off 8) == gid
    | _ => false

/-- The command of a group that this module executes: the oldest on its GID (R431), with its die. -/
def collNow (s : State) (job gid : Nat) : Option (Nat × CollCmd) :=
  let all := s.dies.flatMap fun e => (e.2.coll.filter fun c => c.job == job && blkGid c.blk == gid).map fun c => (e.1, c)
  (all.foldl (fun m x => match m with | some y => if x.2.id < y.2.id then some x else m | none => some x) none).filter fun x =>
    !collAhead s job gid x.2.id

def updColl (s : State) (d : Nat) (c : CollCmd) : State :=
  s.updDie d fun x => { x with coll := x.coll.map fun (y : CollCmd) => if y.id == c.id then c else y }
def dropColl (s : State) (d id : Nat) : State := s.updDie d fun x => { x with coll := x.coll.filter (·.id != id) }

/-- The digest of a command (R430, R435). -/
def CollCmd.digest (c : CollCmd) : Digest :=
  if c.rprt then [1, blkGid c.blk, blkPart c.blk, bitsOf (blkN c.blk 0 8) 23 16] ++ rprtBox c.blk ++ c.ids
  else [0, blkGid c.blk, blkPart c.blk, collOp c.blk, collRed c.blk, bitsOf (blkN c.blk 0 8) 15 12, collCount c.blk, collRoot c.blk] ++ c.ids

/-- Whether a list of reports covers every rank but this participant's. -/
def CollCmd.covered (c : CollCmd) (ranks : List Nat) : Bool :=
  (List.range (blkPart c.blk)).all fun r => r == blkRank c.blk || ranks.contains r

/-- The named buffers' pages, by the die's translations as they stand. -/
def CollCmd.pages (c : CollCmd) (s : State) (d : Nat) : List Tlb :=
  match (collPages s d c.asid (fun _ _ => false) 0#8 (collBufs c.rprt c.blk)).2 with
  | .inl ts => ts
  | .inr _ => []

/-- Whether a physical byte lies in the named buffers. -/
def CollCmd.names (c : CollCmd) (ts : List Tlb) (pa : Nat) : Bool :=
  ts.any fun e => e.home == 0 && decide (e.pa ≤ pa) && decide (pa < e.pa + e.size) &&
    (collBufs c.rprt c.blk).any fun b => decide (b.1 ≤ e.base + (pa - e.pa)) && decide (e.base + (pa - e.pa) < b.1 + b.2.1)

/-- The waits of R352 for the named buffers: the strand's entries have drained, its unbuffered stores have been performed, and the
die's writes have propagated. -/
def CollCmd.arrived (c : CollCmd) (s : State) (d : Nat) : Bool :=
  let ts := c.pages s d
  let fly := fun (st : Strand) => st.pend.any fun p => p.op.isStore && p.op.accs.any fun a => a.ps.any fun x =>
    x.home == 0 && x.ord != 2 && (List.range x.len).any fun i => c.names ts (x.pa + i)
  let near := ((nmGet s.strands c.sid).map fun st => fly st || st.rsb.any fun e => e.ready && e.hold.isNone && e.ord != 2 && e.home == 0 &&
    e.final.any fun b => c.names ts (e.pa + b.off)).getD false
  !near && !((s.die d).p.any fun w => !w.unord && c.names ts w.pa)

/-- Writes STAT into the block (R429). -/
def writeStat (s : State) (c : CollCmd) (cause : Nat) : State :=
  writeScr s c.batch (atOff (c.off + statOff c.rprt) (leBytes 8 (cause * 2 ^ 56 + (if c.short then 256 else 0) + c.fl.toNat)))

/-- A command ends on a cause (R255, R430). -/
def collFail (s : State) (d : Nat) (c : CollCmd) (cause : BitVec 8) : State :=
  if c.ui && heldFull s c.sid then s
  else
    let s1 := writeStat (dropColl s d c.id) c cause.toNat
    let n := if c.phase = 2 then 1 else collSectors c.rprt c.blk + 1
    let s2 := match c.xbr with
      | some o => xbUpdate s1 c.batch o fun b => (b.land n).arrive
      | none => xbWake s1 c.batch
    if c.ui then holdInt s2 c.sid c.frag cause c.tag
    else endJob s2 c.job cause (originRec c.job cause c.by_ [])

/-- COLL_DIGEST_COMPARE (R430): once this participant has arrived, with the digests of all the others. -/
def execCollDigestCompare (job gid : Nat) (others : List (Nat × Digest)) (s : State) : Out :=
  match collNow s job gid with
  | none => .next s
  | some (d, c) =>
    if c.phase ≠ 0 ∨ !c.covered (others.map (·.1)) ∨ !c.arrived s d ∨ omrkHolds s c.batch c.id then .next s
    else if others.any fun o => o.1 != blkRank c.blk && decide (o.1 < blkPart c.blk) && o.2 != c.digest then .next (collFail s d c 0xC3#8)
    else .next (updColl s d { c with phase := 1 })

/-! ## Data of a collective -/

/-- Reads a buffer through the die's view. -/
def collRead (s : State) (d : Nat) (c : CollCmd) (va n : Nat) : State × (List Byte ⊕ MarkStop) :=
  match collPages s d c.asid (fun _ _ => false) 0#8 [(va, n, false)] with
  | (s1, .inl ts) => (s1, .inl (viewBytes s1 d ts va n))
  | (s1, .inr e) => (s1, .inr e)

/-- Checks and writes a buffer in M (R344, R352); its page may have lost W since acceptance. -/
def collWrite (s : State) (d : Nat) (c : CollCmd) (va : Nat) (bs : List Byte) : State × Option (MarkStop ⊕ List W64) :=
  match collPages s d c.asid (fun _ e => !e.w) 0x47#8 [(va, bs.length, true)] with
  | (s1, .inr e) => (s1, some (.inl e))
  | (s1, .inl ts) =>
    let cells := bs.zipIdx.filterMap fun (b, i) => (trFind ts (va + i)).map fun e => (e, va + i, b)
    match astDet s1 c.sid cells with
    | .inr (_, rec) => (s1, some (.inr rec))
    | .inl s2 => ({ s2 with mem := wrMs s2.mem (cells.map fun x => (byteKey x, x.2.2)) }, none)

/-- Writes several buffers, or none of them: the first that fails decides. -/
def collWrites (s : State) (d : Nat) (c : CollCmd) : List (Nat × List Byte) → State × Option (MarkStop ⊕ List W64)
  | [] => (s, none)
  | (va, bs) :: rest =>
    match (if bs.isEmpty then (s, none) else collWrite s d c va bs) with
    | (s1, none) => collWrites s1 d c rest
    | r => r

/-- What a failed access of a running command does: service (R308), the end by R255, or the end of the job. -/
def collStop (s : State) (d : Nat) (c : CollCmd) (e : MarkStop ⊕ List W64) : State :=
  match e with
  | .inl (.page va) => (s.addFault c.asid va 0 0#32 (.coll d c.id)).2
  | .inl (.dead cause) => if cause = 0x48#8 then endJob s c.job cause (originRec c.job cause c.by_ []) else collFail s d c cause
  | .inl (.cause cause) => collFail s d c cause
  | .inr rec => endJob s c.job (BitVec.ofNat 8 (bitsOf ((rec.headD 0#64).toNat) 47 40)) rec

/-- Element i of a list of encodings. -/
def elemAt (es : Nat) (bs : List Byte) (i : Nat) : Nat := leVal ((bs.drop (es * i)).take es)

/-- The reduction of R427 over operands in rank order. -/
def redVal (ty : Ty) (op : Nat) (xs : List Nat) : Nat × Flags :=
  let f := fmtOf ty
  if ty.isInt then
    let v := match op with
      | 0 => xs.foldl (fun a x => (a + x) % 2 ^ 32) 0
      | _ => match xs with
        | [] => 0
        | x :: r => r.foldl (fun a y => if (op == 1) == decide (intRead ty y < intRead ty a) then y else a) x
    (v, flNone)
  else if op = 0 then
    let ns := xs.map f.dec
    let (root, f1) := treeSum (ns.map Num.ext)
    let r := roundExt f .rne false 0#64 (fmtW64.dec root).ext
    (r.bits, f1 ||| r.fl ||| flIf (ns.any Num.isSig) flNv)
  else
    match xs with
    | [] => (0, flNone)
    | [x] => (f.tidy x, flIf (f.dec x).isSig flNv)
    | x :: r => r.foldl (fun (a : Nat × Flags) y => (let m := fMinMax f (op == 2) a.1 y; (m.bits, a.2 ||| m.fl))) (x, flNone)

/-- This participant's destination bytes (R427), from the sources in rank order. -/
def collResult (b : List Byte) (srcs : List (List Byte)) : List Byte × Flags :=
  let ty := collTy b
  let es := tyBytes ty
  let n := collCount b
  let red := fun (base : Nat) =>
    let rs := (List.range n).map fun i => redVal ty (collRed b) (srcs.map fun x => elemAt es x (base + i))
    (rs.flatMap fun r => leBytes es r.1, unionFlags (rs.map (·.2)))
  match collOp b with
  | 0 => red 0
  | 1 => red (blkRank b * n)
  | 2 => (srcs.flatten, flNone)
  | 3 => ((srcs[collRoot b]?).getD [], flNone)
  | _ => ([], flNone)

/-- Whether a rank's source is read (R427). -/
def collReads (b : List Byte) (r : Nat) : Bool := collOp b != 4 && (collOp b != 3 || r == collRoot b)

/-- A collective command's own bytes cross the fabric (R410, R451) where it has other participants: the source that it gives, and
the result that it takes. -/
def collCarry (s : State) (c : CollCmd) (ks : List Traffic) : State :=
  if blkPart c.blk ≤ 1 then s else ks.foldl (fun s k => s.carry c.job k) s

/-- COLL_COMBINE (R427, R428): the results reach this participant's destination, whose sectors land. `others` are the
source bytes of the other participants. -/
def execCollCombine (job gid : Nat) (others : List (Nat × List Byte)) (s : State) : Out :=
  match collNow s job gid with
  | none => .next s
  | some (d, c) =>
    let b := c.blk
    let me := blkRank b
    let src := fun (r : Nat) => ((others.find? fun o => o.1 == r).map (·.2)).getD []
    let given := (List.range (blkPart b)).all fun r => r == me || !collReads b r || (src r).length == collSrcLen b
    if c.phase ≠ 1 ∨ c.rprt ∨ !given ∨ s.pfaults.any (fun e => e.2.who == .coll d c.id) then .next s
    else
      match (if collReads b me then collRead s d c (blkN b 16 8) (collSrcLen b) else (s, .inl [])) with
      | (s1, .inr e) => .next (collStop s1 d c (.inl e))
      | (s1, .inl mine) =>
        let (out, fl) := collResult b ((List.range (blkPart b)).map fun r => if r = me then mine else src r)
        match collWrites s1 d c [(blkN b 24 8, out)] with
        | (s2, some e) => .next (collStop s2 d c e)
        | (s2, none) =>
          let s3 := collCarry (updColl s2 d { c with phase := 2, fl := fl }) c [.block mine.length, .block out.length]
          .next (match c.xbr with
            | some o => if collSectors false b = 0 then s3 else xbUpdate s3 c.batch o (·.land (collSectors false b))
            | none => s3)

/-- Drops a core's read-line-buffer sectors of the named buffers (R352). -/
def dropNamed (s : State) (d : Nat) (c : CollCmd) : State :=
  let ts := c.pages s d
  s.updCore c.core fun x => { x with rlb := x.rlb.filter fun e => !((List.range 32).any fun i => c.names ts (e.1 + i)) }

/-- COLL_COMPLETE (R428, R429, R438): when every other participant, listed in `done`, has its destination written and its
copies dropped, STAT is written, the completion sector lands, and the interrupt is held. -/
def execCollComplete (job gid : Nat) (done : List Nat) (s : State) : Out :=
  match collNow s job gid with
  | none => .next s
  | some (d, c) =>
    if c.phase ≠ 2 ∨ !c.covered done ∨ (c.ui && heldFull s c.sid) then .next s
    else
      let s1 := writeStat (dropNamed (dropColl s d c.id) d c) c 0
      let s2 := match c.xbr with
        | some o => xbUpdate s1 c.batch o fun b => (b.land 1).arrive
        | none => xbWake s1 c.batch
      .next (if c.ui then holdInt s2 c.sid c.frag 0#8 c.tag else s2)

/-! ## The Couch -/

/-- An item of the group: key, source rank, source index, weight in units of 2^-149, its bytes, and whether it sets nv. -/
structure CouchItem where
  key : Nat
  rank : Nat
  ix : Nat
  w : Nat
  bs : List Byte
  nv : Bool
  deriving DecidableEq, Repr

/-- One axis of R436. -/
def couchQ (c lo hi : Nat) : Nat :=
  match fmtF32.dec c with
  | .nan _ => 0
  | .inf s => if s then 0 else 2 ^ 21 - 1
  | .fin _ _ _ =>
    match f32Units c, f32Units lo, f32Units hi with
    | some x, some l, some h => (max 0 (min ((2 ^ 21 * (x - l)) / (h - l)) (2 ^ 21 - 1))).toNat
    | _, _, _ => 0

/-- The interleaved key of R436. -/
def couchKey (qx qy qz : Nat) : Nat :=
  ((List.range 21).map fun i => bitsOf qx i i * 2 ^ (3 * i) + bitsOf qy i i * 2 ^ (3 * i + 1) + bitsOf qz i i * 2 ^ (3 * i + 2)).foldl (· + ·) 0

/-- A weight in units of 2^-149, and whether it sets nv (R436). -/
def couchW (x : Nat) : Nat × Bool :=
  match fmtF32.dec x with
  | .fin s m e => if m = 0 then (0, false) else if s then (0, true) else (m * 2 ^ (e + 149).toNat, false)
  | _ => (0, true)

/-- The items of one participant's array. -/
def couchItems (box : List Nat) (stride rank : Nat) (bs : List Byte) : List CouchItem :=
  (List.range (bs.length / stride)).map fun i =>
    let it := (bs.drop (stride * i)).take stride
    let c := fun (a : Nat) => leVal ((it.drop (4 * a)).take 4)
    let q := fun (a : Nat) => couchQ (c a) ((box[a]?).getD 0) ((box[a + 3]?).getD 0)
    let w := couchW (c 3)
    { key := couchKey (q 0) (q 1) (q 2), rank := rank, ix := i, w := w.1, bs := it,
      nv := w.2 || (List.range 3).any fun a => (fmtF32.dec (c a)).isNan }

def CouchItem.le (x y : CouchItem) : Bool :=
  if x.key ≠ y.key then decide (x.key < y.key) else if x.rank ≠ y.rank then decide (x.rank < y.rank) else decide (x.ix ≤ y.ix)

/-- The destinations of R437 before the passes: item and rank. -/
def couchDest (n W T : Nat) : Nat → Nat → List CouchItem → List (CouchItem × Nat)
  | _, _, [] => []
  | j, p, x :: r =>
    let dst := if W = 0 then n * j / T else min (n - 1) (n * (2 * p + x.w) / (2 * W))
    (x, dst) :: couchDest n W T (j + 1) (p + x.w) r

/-- The forward pass: what exceeds a rank's capacity moves to the next rank; the last keeps all. -/
def couchFwd : List CouchItem → List (Nat × List CouchItem) → List (Nat × List CouchItem)
  | _, [] => []
  | carry, [(cap, run)] => [(cap, carry ++ run)]
  | carry, (cap, run) :: rest =>
    let all := carry ++ run
    (cap, all.take cap) :: couchFwd (all.drop cap) rest

/-- The backward pass, over the ranks from the highest: the first items that exceed a rank's capacity move down. -/
def couchBwd : List CouchItem → List (Nat × List CouchItem) → List (Nat × List CouchItem)
  | _, [] => []
  | carry, [(cap, run)] => [(cap, run ++ carry)]
  | carry, (cap, run) :: rest =>
    let all := run ++ carry
    let k := all.length - cap
    (cap, all.drop k) :: couchBwd (all.take k) rest

/-- The runs of every rank, and the items that stay at their senders (R437). -/
def couchAssign (caps : List Nat) (items : List CouchItem) : List (List CouchItem) × List CouchItem :=
  let ord := items.mergeSort CouchItem.le
  let n := caps.length
  let T := ord.length
  let W := ord.foldl (fun a x => a + x.w) 0
  let room := caps.foldl (· + ·) 0
  let ds := couchDest n W T 0 0 ord
  let kept := ds.drop room
  let runs := caps.zipIdx.map fun (cap, r) => (cap, ((ds.take room).filter fun e => e.2 == r).map (·.1))
  (((couchBwd [] (couchFwd [] runs).reverse).reverse).map (·.2), kept.map (·.1))

/-- COUCH_ASSIGN (R437, R438): the group's items, of which `others` gives every other participant's capacity and array, go
to their ranks; this participant's run, keys and list of kept items are written. -/
def execCouchAssign (job gid : Nat) (others : List (Nat × Nat × List Byte)) (s : State) : Out :=
  match collNow s job gid with
  | none => .next s
  | some (d, c) =>
    let b := c.blk
    let me := blkRank b
    let stride := rprtStride b
    if c.phase ≠ 1 ∨ !c.rprt ∨ !c.covered (others.map (·.1)) ∨ s.pfaults.any (fun e => e.2.who == .coll d c.id) then .next s
    else
      match collRead s d c (blkN b 16 8) (rprtItems b * stride) with
      | (s1, .inr e) => .next (collStop s1 d c (.inl e))
      | (s1, .inl mine) =>
        let part := fun (r : Nat) => if r = me then (rprtCap b, mine) else ((others.find? fun o => o.1 == r).map (·.2)).getD (0, [])
        let ps := (List.range (blkPart b)).map part
        let items := (ps.zipIdx.map fun (p, r) => couchItems (rprtBox b) stride r p.2).flatten
        let (runs, kept) := couchAssign (ps.map (·.1)) items
        let run := (runs[me]?).getD []
        let own := ((kept.filter fun x => x.rank == me).map (·.ix)).mergeSort (fun x y => decide (x ≤ y))
        let opt := fun (o : Nat) (bs : List Byte) => if blkN b o 8 = 0 then [] else [(blkN b o 8, bs)]
        match collWrites s1 d c ([(blkN b 24 8, run.flatMap (·.bs))] ++ opt 32 (run.flatMap fun x => leBytes 8 x.key) ++ opt 40 (own.flatMap (leBytes 4))) with
        | (s2, some e) => .next (collStop s2 d c e)
        | (s2, none) =>
          let s3 := writeScr s2 c.batch (atOff (c.off + 104) (leBytes 4 own.length ++ leBytes 4 run.length ++ leBytes 8 items.length))
          let gone := (runs.zipIdx.filter fun r => r.2 != me).flatMap fun r => r.1.filter (·.rank == me)
          let moves := (run.filter (·.rank != me) ++ gone).map fun _ => Traffic.item (stride + 8)
          let s4 := collCarry (updColl s3 d { c with phase := 2, fl := flIf (run.any (·.nv)) flNv, short := !kept.isEmpty }) c moves
          .next (match c.xbr with
            | some o => xbUpdate s4 c.batch o (·.land (collSectors true b))
            | none => s4)

end Sys2Proof.Machine
end

