-- ==== Sys2Proof/Machine/Fetch.lean ====
section
/-!
DEFINITION. Fetching and decoding the word of an ISSUED fragment (R40, R59, R306, R307), and placing one instruction
where the machine fetches next.
-/
namespace Sys2Proof.Machine

/-- What a fetch gives: an instruction to execute, or a state in which the fragment does not execute. -/
inductive Fetched
  | run (i : Instr) (s : State)
  | done (s : State)
  deriving DecidableEq, Repr

/-- The translation check of a fetch, for the first and the last byte of the word (R40, R306). -/
def fetchXlate (s : State) (c asid pc : Nat) : XRes × State :=
  match dieXlate s c asid pc with
  | (.ok e, s1) =>
    match dieXlate s1 c asid (pc + 11) with
    | (.ok e2, s2) => (.ok { e with x := e.x && e2.x }, s2)
    | r => r
  | r => r

/-- The address whose translation a fetch misses: that of the first byte, or of the last where the word straddles a page
boundary (R40). -/
def fetchVa (s : State) (c asid pc : Nat) : Nat :=
  match dieXlate s c asid pc with
  | (.ok _, _) => pc + 11
  | _ => pc

/-- A fetch whose translation fails leaves its fragment STOPPED at its PC, the region untouched (R307); `va` is the address
that faults. -/
def stopFetch (s : State) (sid f va : Nat) (st : Strand) : State :=
  let m := ((nmGet st.frags f).map (·.mask)).getD 0#32
  let (n, s) := s.addFault (s.asid st) va (st.fragPc f).toNat m (.fetch sid f)
  s.updFrag sid f fun fr => { fr with st := .stopped, wait := .fault n }

/-- Fetches and decodes the word at the issued fragment's PC (R39, R40, R59). -/
def fetch (s : State) (sid f : Nat) : Fetched :=
  match nmGet s.strands sid with
  | none => .done { s with cur := none }
  | some st =>
    match nmGet st.frags f, s.job? st with
    | some fr, some j =>
      let s0 := { s with cur := none }
      if !j.pcOk fr.pc.toNat then .done (endJobAt s0 sid f 0x06#8 [])
      else
        match fetchXlate s st.core j.asid fr.pc.toNat with
        | (.pageFault, s1) => .done (stopFetch { s1 with cur := none } sid f (fetchVa s1 st.core j.asid fr.pc.toNat) st)
        | (.bad, s1) => .done (endJobAt { s1 with cur := none } sid f 0x48#8 [])
        | (.ok e, s1) =>
          if !e.x then .done (endJobAt { s1 with cur := none } sid f 0x47#8 [])
          else
            match decode (j.word fr.pc) with
            | .ok i => .run i s1
            | .error .illegalOpc => .done (raiseUser { s1 with cur := none } sid f 0x01#8 none)
            | .error .illegalMod => .done (raiseUser { s1 with cur := none } sid f 0x02#8 none)
            | .error .illegalField => .done (raiseUser { s1 with cur := none } sid f 0x03#8 none)
        | (_, s1) => .done (endJobAt { s1 with cur := none } sid f 0x46#8 [])
    | _, _ => .done { s with cur := none }

/-- The strand that stands for a loaded program (log 2): allocated to the full counts, one fragment at PC 0. -/
def loadedStrand : Strand :=
  { core := 0, lane := 0, slot := 0, job := 1, batch := 1, sidx := 0, st := .active, entered := 0,
    r := { Regs.reset with valloc := 256, kalloc := 64, malloc := 64, aalloc := 64 }, sp := Spec.reset,
    frags := [(0, { fid := 0, mask := 0xFFFFFFFF#32, pc := 0#57, st := .ready, gap := 0, rix := none, evt := 0#64, wait := .none,
                    rgn := 0#57, since := 0, rel := none })],
    recs := [], pend := [], rdvs := [], rsb := [], tail := false, held := [], teams := [(0, 0)], faults := [], endPc := 0#57,
    launch := (256, 64, 64), acted := false, log := [], kept := [], abort := none }

/-- The job of a loaded program: address space 1, its text at address 0. -/
def loadedJob (w : Nat) : Job :=
  { asid := 1, user := true, launch := 1, base := 0, text := leBytes 12 w ++ List.replicate 12 0#8, live := [],
    hasLive := false, nw := 0, lo := 0, hi := 0, elo := 0, ehi := 0, kw := 1, mset := [], hids := [], ended := false,
    cause := none, exitCode := 0#64, tsave := [], rel := none }

def loadedLaunch : Launch :=
  { fn := 0, q := 0, job := 1, asid := 1, tag := 0#32, irq := false, head := 0, dims := (1, 1, 1), size := 1,
    limit := 268435456, acct := 0, debug := false, prio := 0, seed := 0#64, lbound := 0, part := 2101296, next := 1,
    requeue := [], live := true, since := 0, done := 0, cycles := 0, kregs := [], res := (256, 64, 64, 64, 0) }

def loadedBatch : Batch :=
  { job := 1, launch := 1, core := 0, idx := 0, pos := (0, 0, 0), size := 1, sids := [1], scrBase := 0, scrSize := 65536, scr := [],
    born := 0, saved := false, ended := false, qs := [], locks := [], pre := none }

/-- The page-table entries that map virtual addresses 0 to 2^30 - 1 of address space 1 onto physical address 0,
executable, writable, PLAIN and RELEASE (R299, R300). -/
def loadedTables : List Host.Cell :=
  [(0x10000000, 1#8), (0x10000001, 0x10#8), (0x10000003, 0x10#8), (0x10001000, 1#8), (0x10001001, 0x20#8), (0x10001003, 0x10#8),
   (0x10002000, 0x1F#8)]

/-- A machine in which the next step fetches and runs the word `w` (log 2): the loader's part of a launch. -/
def placeWord (s : State) (w : Nat) : State :=
  { s with
    agenda := []
    cur := some (1, 0)
    strands := nmSet s.strands 1 loadedStrand
    batches := nmSet s.batches 1 loadedBatch
    jobs := nmSet s.jobs 1 (loadedJob w)
    launches := nmSet s.launches 1 loadedLaunch
    teams := nmSet s.teams 0 { job := 1, num := 0, bidx := some 1, size := 1, ranks := [(0, .member 1)], phase := 0,
                               arrived := [], done := false, held := [], rels := [] }
    cores := nmSet s.cores 0 { (s.core 0) with slots := nmSet (s.core 0).slots 0 { job := 1, team := 0, bidx := some 1, phase := 0, arrived := 0, sent := none, watch := none, limit := 268435456 } }
    roots := spPut s.roots 1 0x10000001#64
    mem := loadedTables.foldl (fun m e => spPut m e.1 e.2) s.mem }

end Sys2Proof.Machine
end

