-- ==== Sys2Proof/Machine/Lanes.lean ====
section
/-!
DEFINITION. A core's lanes: the passing of windows (R43, R169, R215), the active set (R204), the choice of a fragment
(R45, R206), TRAPWAIT, user interrupts (R80 to R82), sleeps, and threads that die (R71).
-/
namespace Sys2Proof.Machine

/-- The strands of a lane of a core that are resident. -/
def laneStrands (s : State) (c lane : Nat) : List (Nat × Strand) :=
  s.strands.filter fun e => e.2.core == c && e.2.lane == lane && e.2.resident

def Strand.anyReady (st : Strand) : Bool := st.frags.any fun e => e.2.st == .ready

/-- A strand of the active set with nothing to do (R204). -/
def Strand.idle (st : Strand) : Bool := !(st.frags.any fun e => e.2.st == .ready || e.2.st == .stalled)

/-! ## The active set -/

/-- The lane's queue (R204): the strands that wait, those that a displacement has put there among them, and behind them the
pooled ones that have become READY since, in the order in which they did. -/
def laneQueue (s : State) (c lane : Nat) : List Nat :=
  let old := (nmGet (s.core c).waitq lane).getD []
  let ready := (laneStrands s c lane).filter fun e => e.2.st == .pooled && e.2.anyReady
  let keep := old.filter fun sid => (laneStrands s c lane).any fun e => e.1 == sid && e.2.st == .pooled && !e.2.idle
  let since := fun (st : Strand) => st.frags.foldl (fun (m : Option Nat) f => if f.2.st == .ready then some (match m with | some x => min x f.2.since | none => f.2.since) else m) none
  let new := (ready.filter fun e => !old.contains e.1).mergeSort fun x y => decide ((since x.2).getD 0 ≤ (since y.2).getD 0)
  keep ++ new.map (·.1)

/-- The ACTIVE strands of a lane. -/
def laneActive (s : State) (c lane : Nat) : List (Nat × Strand) := (laneStrands s c lane).filter fun e => e.2.st == .active

/-- A strand leaves the active set (R43, R204): its fixed-latency results are written, and its fragments owe no gap. -/
def Strand.pool (win : Nat) (st : Strand) : Strand :=
  { st.landFixed with
    st := .pooled
    frags := st.frags.map fun (k, fr) =>
      (k, if fr.st == .stalled && fr.wait == .gap then { fr with st := .ready, wait := .none, gap := 0, since := win } else { fr with gap := 0 }) }

/-- Admits a strand to the active set. -/
def enter (s : State) (sid : Nat) : State :=
  let (q, s1) := s.tick
  s1.updStrand sid fun st => { st with st := .active, entered := q }

def setQueue (s : State) (c lane : Nat) (q : List Nat) : State := s.updCore c fun x => { x with waitq := nmSet x.waitq lane q }

/-- While a strand waits, the idle strands of the lane are pooled (R204). -/
def poolIdle (s : State) (c lane : Nat) : State :=
  (laneActive s c lane).foldl (fun s e => if e.2.idle then s.updStrand e.1 (Strand.pool (s.core c).window) else s) s

/-- The head of a lane's queue can enter at once (R204): a slot is free, or that of an idle strand. -/
def entryDue (s : State) (c lane : Nat) : Bool :=
  !(laneQueue s c lane).isEmpty && (decide ((laneActive s c lane).length < 8) || (laneActive s c lane).any fun e => e.2.idle)

/-- ACTIVE_SET_ENTRY (R204): the head of a lane's queue enters, the idle strands being pooled. -/
def execActiveSetEntry (c lane : Nat) (s : State) : Out :=
  match laneQueue s c lane with
  | [] => .next s
  | sid :: rest => if entryDue s c lane then .next (enter (poolIdle (setQueue s c lane rest) c lane) sid) else .next s

/-- The ACTIVE strand that entered first. -/
def earliest (xs : List (Nat × Strand)) : Option (Nat × Strand) :=
  xs.foldl (fun m x => match m with | some y => if x.2.entered < y.2.entered then some x else m | none => some x) none

/-- A displacement is due (R204): 64 windows have passed with a full set and a waiting queue. -/
def displacementDue (s : State) (c lane : Nat) : Bool :=
  !(laneQueue s c lane).isEmpty && decide (8 ≤ (laneActive s c lane).length) && decide (64 ≤ (nmGet (s.core c).disp lane).getD 0)

/-- ACTIVE_SET_DISPLACEMENT (R204): the earliest entrant goes to the queue's tail, and the head enters. -/
def execActiveSetDisplacement (c lane : Nat) (s : State) : Out :=
  match laneQueue s c lane, earliest (laneActive s c lane) with
  | sid :: rest, some (old, _) =>
    if displacementDue s c lane then
      let s1 := (setQueue s c lane (rest ++ [old])).updCore c fun x => { x with disp := nmDel x.disp lane }
      .next (enter (s1.updStrand old (Strand.pool (s.core c).window)) sid)
    else .next s
  | _, _ => .next s

/-! ## Windows -/

/-- A fragment after a window: its gap shrinks, whatever it waits for (R43), and a sleep counts the window's four cycles
(R169). -/
def Frag.tick (fr : Frag) (win : Nat) : Frag :=
  match fr.wait with
  | .gap => if fr.gap ≤ 1 then { fr with gap := 0, st := .ready, wait := .none, since := win } else { fr with gap := fr.gap - 1 }
  | .sleep n => { fr with wait := .sleep (n - 4), evt := w64n (n - 4), gap := fr.gap - 1 }
  | _ => { fr with gap := fr.gap - 1 }

/-- A strand after a window. -/
def Strand.tickWin (st : Strand) (win : Nat) : Strand :=
  let st := st.landDue win
  { st with frags := st.frags.map fun (k, fr) => (k, fr.tick win) }

/-- Whether a member of a slot's team is saved (R215). -/
def slotSaved (s : State) (sl : BarSlot) : Bool :=
  s.teams.any fun e => e.2.job == sl.job && e.2.num == sl.team && e.2.bidx == sl.bidx &&
    e.2.members.any fun sid => ((nmGet s.strands sid).map fun st => st.st == .saved).getD false

/-- A watchdog counts cycles of its core, unless a member of its team is saved (R215). -/
def tickWatch (s : State) (n : Nat) (sl : BarSlot) : BarSlot :=
  match sl.watch with
  | some x => if slotSaved s sl then sl else { sl with watch := some (x + n) }
  | none => sl

/-- The fragment waits to take a cause (R80, R355). -/
def Frag.trapping (fr : Frag) : Bool := match fr.wait with | .trap _ _ => true | _ => false

/-- A window of a core passes: its count and cycles, the results that fall due, gaps, sleeps, watchdogs, displacement
counts and yields; a cause that waited for transaction entries is taken (R355), and strands whose barrier's waits are over
arrive (R246). -/
def tickWindow (s : State) (c : Nat) : State :=
  let co := s.core c
  let win := co.window + 1
  let s1 := { s with strands := s.strands.map fun (e : Nat × Strand) => if e.2.core == c && e.2.resident then (e.1, e.2.tickWin win) else e }
  let lanes := List.range 16
  let queues := lanes.map fun l => (l, laneQueue s1 c l)
  let disp := queues.foldl (fun (m : NMap Nat) q =>
    if q.2.isEmpty || decide ((laneActive s1 c q.1).length < 8) then nmDel m q.1 else nmSet m q.1 ((nmGet m q.1).getD 0 + 1)) co.disp
  let s2 := s1.setCore c { co with
    window := win, cycle := co.cycle + 4, laneTurn := 0, disp := disp,
    waitq := (queues.filter fun q => !q.2.isEmpty)
    yields := co.nextYields, nextYields := []
    slots := co.slots.map fun (k, sl) => (k, tickWatch s 4 sl) }
  let here := s2.strands.filter fun e => e.2.core == c && e.2.resident
  let s3 := (here.filter fun e => e.2.frags.any (·.2.trapping)).foldl (fun s e => trapsReady s e.1) s2
  (here.filter fun e => !e.2.tbarTeams.isEmpty).foldl (fun s e => tbarTry s e.1) s3

/-! ## Choosing a fragment -/

/-- A READY fragment that a lane may choose. -/
structure Cand where
  sid : Nat
  f : Nat
  since : Nat
  prio : Nat
  deriving DecidableEq, Repr

/-- Whether a fragment is chosen before another in a window (R206). -/
def Cand.before (win : Nat) (x y : Cand) : Bool :=
  let old := fun (z : Cand) => decide (z.since + 192 ≤ win)
  if old x && old y then (if x.since ≠ y.since then decide (x.since < y.since) else decide (x.f < y.f))
  else if old x then true
  else if old y then false
  else if x.prio ≠ y.prio then decide (y.prio < x.prio)
  else if x.since ≠ y.since then decide (x.since < y.since)
  else decide (x.f < y.f)

def prioOf (s : State) (st : Strand) : Nat := (((nmGet s.batches st.batch).bind fun b => nmGet s.launches b.launch).map (·.prio)).getD 0

/-- The fragment that a lane chooses (R45, R206): a yielding one only when no other is ready, and none of a strand whose
region aborts (R322). -/
def lanePick (s : State) (c lane : Nat) : Option Cand :=
  let co := s.core c
  let all := ((laneActive s c lane).filter fun e => e.2.abort.isNone).flatMap fun e =>
    (e.2.frags.filter fun f => f.2.st == .ready).map fun f => ({ sid := e.1, f := f.1, since := f.2.since, prio := prioOf s e.2 } : Cand)
  let free := match nmGet co.yields lane with
    | some (sid, f) => all.filter fun x => !(x.sid == sid && x.f == f)
    | none => all
  let xs := if free.isEmpty then all else free
  xs.foldl (fun m x => match m with | some y => if Cand.before co.window x y then some x else m | none => some x) none

/-- The core whose lane issues after this one, by number and then from the lowest again (log 1). -/
def nextCoreOf (s : State) (c : Nat) : Nat :=
  let cs := nmKeys s.cores
  match cs.find? fun x => decide (c < x) with
  | some x => x
  | none => cs.headD 0

/-- A watchdog of the core is at its limit (R216). -/
def watchDue (s : State) (c : Nat) : Bool :=
  (s.core c).slots.any fun e => e.2.watch.any (fun n => decide (e.2.limit ≤ n)) && !slotSaved s e.2

/-- What a core does at once, before another lane chooses: entries to the active set and displacements that are due (R204),
the GROW.wait that is served or fails (R202, R203), a watchdog at its limit (R216), a sleep that is over (R169). -/
def windowHeld (s : State) (c : Nat) : Bool :=
  (List.range 16).any (fun l => entryDue s c l || displacementDue s c l) || (growHead s c).isSome || (growFails s c).isSome
    || watchDue s c || s.strands.any fun e => e.2.core == c && e.2.resident && e.2.frags.any fun f => f.2.wait == .sleep 0

/-- TIMING_REPLAY (R328): the repeated cycle takes two core-clock periods, which %cycle, watchdogs and sleeps count. They count
before the next window's lanes choose, since an instruction reads %cycle as it was at its window's first cycle (R165). -/
def execTimingReplay (c : Nat) (s : State) : Out :=
  if coreCount ≤ c || watchDue s c || (s.core c).laneTurn != 0 then .next s
  else
    let sleep := fun (fr : Frag) => match fr.wait with | .sleep n => { fr with wait := .sleep (n - 2), evt := w64n (n - 2) } | _ => fr
    let s1 := s.updCore c fun x =>
      { x with cycle := x.cycle + 2, ev := countEv x.ev x.src evTimingReplay, slots := x.slots.map fun (k, sl) => (k, tickWatch s 2 sl) }
    .next { s1 with strands := s1.strands.map fun (e : Nat × Strand) =>
      if e.2.core == c && e.2.resident then (e.1, { e.2 with frags := e.2.frags.map fun (k, fr) => (k, sleep fr) }) else e }

/-- The core's next lane has had its choice; after lane 15 another core's lanes choose. -/
def passLane (s : State) (c : Nat) : State :=
  let lane := (s.core c).laneTurn
  let s1 := s.updCore c fun x => { x with laneTurn := lane + 1 }
  if lane = 15 then { s1 with turn := nextCoreOf s c } else s1

/-- ISSUE_SELECT (R206): the core's next lane chooses; when all 16 have, the window is over. What is due at once comes
first. -/
def execIssueSelect (c : Nat) (s : State) : Out :=
  let lane := (s.core c).laneTurn
  if coreCount ≤ c || windowHeld s c then .next s
  else if 16 ≤ lane then .next (tickWindow s c)
  else
    match lanePick s c lane with
    | some x => .next (passLane { s with cur := some (x.sid, x.f) } c)
    | none => .next (passLane s c)

/-! ## Traps, interrupts, sleeps, deaths -/

/-- TRAPWAIT_RETRY (R69, R80): the save area is free, and the fragment is ISSUED at the same instruction, as its lane's one
instruction of the window (R167); from any resident strand, in the active set or not (R70, log 71). -/
def execTrapwaitRetry (sid f : Nat) (s : State) : Out :=
  match nmGet s.strands sid with
  | none => .next s
  | some st =>
    match nmGet st.frags f with
    | none => .next s
    | some fr =>
      if fr.st == .trapwait && st.sp.hstate == 0#2 && s.cur.isNone && st.resident && (s.core st.core).laneTurn == st.lane then
        .next { passLane (s.updFrag sid f fun x => { x with st := .ready, wait := .none }) st.core with cur := some (sid, f) }
      else .next s

/-- USER_INTERRUPT (R81, R82, R222): the oldest held completion goes to its fragment, when no handler runs and the
fragment's state takes it; waits that have had no effect are abandoned, pending marks are waited for. -/
def execUserInterrupt (sid : Nat) (s : State) : Out :=
  match nmGet s.strands sid with
  | none => .next s
  | some st =>
    match st.held with
    | [] => .next s
    | i :: rest =>
      if st.sp.uvec = 0#57 then .next (s.updStrand sid fun x => { x with held := rest })
      else
        match (st.intFrag i.frag).bind fun f => (nmGet st.frags f).map fun fr => (f, fr) with
        | none => .next s
        | some (f, fr) =>
          let mine := fr.wait.pend?
          if st.sp.hstate ≠ 0#2 ∨ !fr.takesInt ∨ !st.resident ∨ s.cur == some (sid, f) ∨ st.abort.isSome ∨ areaWaits s st
              ∨ st.pend.any (fun p => p.tracked && some p.id != mine) then .next s
          else
            let s1 := if fr.st == .blocked then abandon s sid f fr else s
            let s2 := enterHandler s1 sid f st.sp.uvec fun x y =>
              { x with
                held := rest
                sp := { x.sp with uepc := y.pc, hstate := x.sp.hstate ||| 2#2, ufrag := some f }
                r := { x.r with k := spPut x.r.k 56 (w64n (i.status.toNat * 2 ^ 56 + i.tag.toNat)) } }
            .next (dropRlb s2 st.core .module)

/-- SLEEP_EXPIRE (R169). -/
def execSleepExpire (sid f : Nat) (s : State) : Out :=
  match (nmGet s.strands sid).bind fun st => (nmGet st.frags f).map fun (fr : Frag) => (st, fr) with
  | some (st, fr) => if fr.wait == .sleep 0 && st.resident then .next (unblock s sid f) else .next s
  | none => .next s

/-- THREAD_DEAD (R71). -/
def execThreadDead (sid t : Nat) (s : State) : Out :=
  match nmGet s.strands sid with
  | none => .next s
  | some st =>
    if 32 ≤ t ∨ !st.sp.live t ∨ !st.resident then .next s
    else
      let pc := ((st.frags.find? fun e => inMask e.2.mask t).map (·.2.pc)).getD 0#57
      .next (killThreads s sid (maskOf [t]) pc)

/-- FETCH_FAULT (R307): the fetch of a READY fragment fails its translation. -/
def execFetchFault (sid f : Nat) (s : State) : Out :=
  match (nmGet s.strands sid).bind fun st => (nmGet st.frags f).map fun (fr : Frag) => (st, fr) with
  | some (st, fr) =>
    if fr.st != .ready || !st.resident || s.cur.isSome then .next s
    else
      match fetchXlate s st.core (s.asid st) fr.pc.toNat with
      | (.pageFault, s1) => .next (stopFetch s1 sid f (fetchVa s1 st.core (s.asid st) fr.pc.toNat) st)
      | _ => .next s
  | none => .next s

end Sys2Proof.Machine
end

