-- ==== Sys2Proof/Machine/Launch.lean ====
section
/-!
DEFINITION. The host's queues (R440, R441), their entries, the launch descriptor and the kernel image (R444, R445), snapshots
(R453), billing reports (R451), completions, and the end of a job (R443, R368).
-/
namespace Sys2Proof.Machine

/-! ## Host memory and queues -/

/-- The key of a byte of host memory: the address space of a PASID (log 48). -/
def hostKey (pasid addr : Nat) : Nat := pasid * 2 ^ 64 + addr % 2 ^ 64

def rdHost (s : State) (pasid addr n : Nat) : List Byte := (List.range n).map fun i => spGet s.host.mem (hostKey pasid (addr + i))

def wrHost (s : State) (pasid addr : Nat) (bs : List Byte) : State :=
  { s with host := { s.host with mem := bs.zipIdx.foldl (fun m e => spPut m (hostKey pasid (addr + e.2)) e.1) s.host.mem } }

/-- The key of queue q of a function. -/
def qkey (fn q : Nat) : Nat := fn * 8 + q

def State.queue (s : State) (k : Nat) : HQueue := (nmGet s.host.queues k).getD HQueue.reset
def State.updQueue (s : State) (k : Nat) (g : HQueue → HQueue) : State :=
  { s with host := { s.host with queues := nmSet s.host.queues k (g (s.queue k)) } }

/-- A function and queue number that exist (R440). -/
def queueOk (fn q : Nat) : Bool := decide (fn ≤ 128) && decide (q < 8)

/-- The queue registers answer only when the configuration records verified (R452). -/
def barOk (s : State) (fn q : Nat) : Bool := queueOk fn q && s.host.launchOk

/-- SQTAIL (R441, R450): the host has written entries to its memory, then the doorbell. -/
def execSqtail (fn q : Nat) (v : BitVec 13) (host : List (Nat × Byte)) (s : State) : Out :=
  let k := qkey fn q
  let p := (s.queue k).pasid.toNat
  let s1 := { s with host := { s.host with mem := host.foldl (fun m e => spPut m (hostKey p e.1) e.2) s.host.mem } }
  if barOk s fn q then .next (s1.regWrite (barAt fn (0x1000 + 0x10 * q) 4) (·.updQueue k fun x => { x with sqtail := v })) else .next s1

/-- CQHEAD (R441, R450). -/
def execCqhead (fn q : Nat) (v : BitVec 13) (s : State) : Out :=
  if barOk s fn q then .next (s.regWrite (barAt fn (0x1000 + 0x10 * q + 8) 4) (·.updQueue (qkey fn q) fun x => { x with cqhead := v })) else .next s

/-- What ON takes from the registers (R441): sizes in range and bases aligned. -/
def HQueue.sound (x : HQueue) : Bool :=
  decide (2 ≤ x.sqsize.toNat) && decide (x.sqsize.toNat ≤ 4096) && decide (2 ≤ x.cqsize.toNat) && decide (x.cqsize.toNat ≤ 4096)
    && x.sqbase.toNat % 64 == 0 && x.cqbase.toNat % 16 == 0

/-- Whether a queue holds an outstanding command (R441). -/
def HQueue.busy (x : HQueue) : Bool := x.out != 0 || x.asked || x.entry.isSome || !x.done.isEmpty

/-- A queue register as the host reads it, by its offset in the queue's block (R441): reserved bits read as zero. -/
def HQueue.read (x : HQueue) (off : Nat) : Nat :=
  match off with
  | 0x00 => x.sqbase.toNat
  | 0x08 => x.cqbase.toNat
  | 0x10 => x.sqsize.toNat
  | 0x14 => x.cqsize.toNat
  | 0x18 => x.enable.toNat * 2 ^ 31 + x.pasid.toNat
  | 0x20 => x.dying.toNat * 2 + x.on.toNat
  | _ => 0

/-- Eight bytes of a function's first BAR as the host reads them (R6, R441): all ones where the table refuses it (R450); the doorbells are write-only and read as zero, as does everything
that holds no register; nothing answers where the configuration records did not verify (R452). -/
def barRead (s : State) (fn off : Nat) : Nat :=
  if barOk s fn (off / 0x40) && (s.regRefuses (barAt fn off 4) false).isSome then 2 ^ 64 - 1
  else if barOk s fn (off / 0x40) && decide (off < 0x200) then (s.queue (qkey fn (off / 0x40))).read (off % 0x40) else 0

/-- The partition word as a control-block read gives it (R196). -/
def Core.partWord (x : Core) : Nat := (96 - x.reg - x.acc) * 2 ^ 16 + x.acc * 2 ^ 8 + x.reg

/-- ENABLE (R441): it takes effect only while no command is outstanding; a queue that starts begins both rings at their
first entries (log 49). DYING says whether the PASID is being torn down (R449). The table of the block must admit it (R450). -/
def execEnable (fn q : Nat) (v : W32) (s : State) : Out :=
  let k := qkey fn q
  let x := s.queue k
  if !barOk s fn q || x.busy then .next s
  else
    let en := v.getLsbD 31
    .next (s.regWrite (barAt fn (0x40 * q + 0x18) 4) (·.updQueue k fun x =>
      { x with
        enable := en, pasid := v.setWidth 20, on := en && x.sound, dying := s.host.dying.contains (v.setWidth 20).toNat, fetch := 0, cqidx := 0, phase := true, sqtail := 0#13,
        cqhead := 0#13 }))

/-- Adds one to the translation requests of a PASID that have not returned (R449). -/
def askXlate (s : State) (pasid : Nat) : State :=
  { s with host := { s.host with tearOut := nmSet s.host.tearOut pasid ((nmGet s.host.tearOut pasid).getD 0 + 1) } }

/-- A completion for a queue's ring; a hart's own launch has none (R298). -/
def pushCompl (s : State) (k : Nat) (c : Compl) : State := if k = qkey hartFn 0 then s else s.updQueue k fun x => { x with done := x.done ++ [c] }

/-- The fields of an entry (R441). -/
def entOp (e : List Byte) : Nat := blkN e 0 1
def entIrq (e : List Byte) : Bool := bitAt (blkN e 0 8) 8
def entTag (e : List Byte) : W32 := BitVec.ofNat 32 (blkN e 4 4)
def entAddr (e : List Byte) : Nat := blkN e 8 8
def entArg (e : List Byte) : Nat := blkN e 16 8

/-- ENTRY_BAD's conditions (R441). -/
def entryBad (fn : Nat) (e : List Byte) : Bool :=
  let op := entOp e
  decide (4 < op) || bitsOf (blkN e 0 8) 31 9 != 0 || blkN e 24 40 != 0
    || (if op = 2 then false else if op = 4 then decide (2 ^ 32 ≤ entArg e) || fn != 0 else entArg e != 0)

/-- The submission entry at hand completes with a status. -/
def finishEntry (s : State) (k : Nat) (e : List Byte) (status : BitVec 8) (kind : ComplKind) : State :=
  pushCompl (s.updQueue k fun x => { x with entry := none }) k
    { value := 0#64, tag := entTag e, head := (s.queue k).fetch, status := status, irq := entIrq e, kind := kind }

/-- QUEUE_FETCH (R440, R441): H0 asks for the translation of the next entry in ring order, unless the PASID is dying (R449). -/
def execQueueFetch (fn q : Nat) (s : State) : Out :=
  let k := qkey fn q
  let x := s.queue k
  let p := x.pasid.toNat
  if !x.on || x.asked || x.entry.isSome || x.fetch == x.sqtail.toNat || s.host.dying.contains p then .next s
  else .next ((askXlate s p).updQueue k fun y => { y with asked := true })

/-- H0 has the translation of a queue's next entry and fetches it; a bad one completes with ENTRY_BAD (R441). -/
def fetchEntry (s : State) (k : Nat) : State :=
  let x := s.queue k
  let e := rdHost s x.pasid.toNat (x.sqbase.toNat + 64 * x.fetch) 64
  let s1 := s.updQueue k fun y => { y with asked := false, entry := some e, fetch := (y.fetch + 1) % y.sqsize.toNat, out := y.out + 1 }
  if entryBad (k / 8) e then finishEntry s1 k e 0x08#8 .plain else s1

/-- The queue whose request a response of a PASID answers: the lowest that has asked. -/
def askedQueue (s : State) (pasid : Nat) : Option Nat :=
  (s.host.queues.find? fun e => e.2.asked && e.2.pasid.toNat == pasid).map (·.1)

/-- TRANSLATION_RESPONSE (R449): the entry that was waited for is fetched; a response for a dying PASID is discarded, and with
it the fetch. -/
def execTranslationResponse (pasid : Nat) (s : State) : Out :=
  match nmGet s.host.tearOut pasid with
  | some (n + 1) =>
    let dying := s.host.dying.contains pasid
    let left := if n = 0 ∧ !dying then nmDel s.host.tearOut pasid else nmSet s.host.tearOut pasid n
    let s1 := { s with host := { s.host with tearOut := left } }
    match askedQueue s1 pasid with
    | none => .next s1
    | some k => if dying then .next (s1.updQueue k fun x => { x with asked := false }) else .next (fetchEntry s1 k)
  | _ => .next s

/-- The entry at hand of a queue, where it has an operation. -/
def entryOf (s : State) (fn q op : Nat) : Option (List Byte) := (s.queue (qkey fn q)).entry.filter fun e => entOp e == op

/-- NOP_ENTRY (R441). -/
def execNopEntry (fn q : Nat) (s : State) : Out :=
  match entryOf s fn q 0 with
  | none => .next s
  | some e => .next (finishEntry s (qkey fn q) e 0x00#8 .plain)

/-! ## The node window -/

/-- Memory without the bytes of a range. -/
def clearCells (m : List Host.Cell) (lo len : Nat) : List Host.Cell := m.filter fun e => !(decide (lo ≤ e.1) && decide (e.1 < lo + len))

/-- Zeroes the mapped bytes of a range of an address space. -/
def clearRange (s : State) (asid lo hi : Nat) : State :=
  if hi ≤ lo then s
  else
    { s with mem := (leavesIn s asid lo hi).foldl (fun m e =>
        let a := max lo e.base
        let b := min hi (e.base + e.size)
        clearCells m (pkey e.home (e.pa + (a - e.base))) (b - a)) s.mem }

/-- The clearing of R368: every Mould column of the local range, every node record and every edge that the window maps, in whole 2 MiB
pages (R363). -/
def clearWindow (s : State) (asid nw lo hi elo ehi w : Nat) : State :=
  if nw = 0 then s
  else
    let keep := fun (e : Nat × BitVec 256) =>
      let l := e.1 / 1024 / w * 1024 + e.1 % 1024
      !(decide (lo ≤ l) && decide (l < hi))
    let s1 := { s with vats := s.vats.map fun (e : Nat × Vat) => (e.1, { e.2 with mould := e.2.mould.filter keep }) }
    allVats.foldl (fun s v =>
      let a := nw + v * 0x8000000
      let page := fun (e : Nat) => a + 0x3C00000 + 2 ^ 21 * e
      let s2 := clearRange s asid (a + lo * 1280) (a + hi * 1280)
      if ehi ≤ elo then s2 else clearRange s2 asid (page (8 * elo / 2 ^ 21)) (page (ceilDiv (8 * ehi) (2 ^ 21)))) s1

/-- Nodes that a Vat holds (R368). -/
def nodeCapacity (w : Nat) : Nat := 1024 * (48 / w)

/-! ## The descriptor and the image -/

/-- Bytes of an address space as H0 reads them in M, or nothing where a page is not mapped or its access table refuses H0
(R450). -/
def readVa (s : State) (asid : Nat) : Nat → Nat → Nat → Option (List Byte)
  | 0, _, n => if n = 0 then some [] else none
  | k + 1, va, n =>
    if n = 0 then some []
    else
      match walk s asid va with
      | .ok e =>
        let m := min n (e.base + e.size - va)
        if e.home = 0 && !hartMay s 0 (e.pa + (va - e.base)) m false then none
        else (readVa s asid k (va + m) (n - m)).map fun r => rdMN s.mem (pkey e.home (e.pa + (va - e.base))) m ++ r
      | _ => none

def readImg (s : State) (asid va n : Nat) : Option (List Byte) := readVa s asid (n / 4096 + 2) va n

/-- The physical address of a read of H0 that an access table refuses (R450). -/
def refusedVa (s : State) (asid : Nat) : Nat → Nat → Nat → Option Nat
  | 0, _, _ => none
  | k + 1, va, n =>
    if n = 0 then none
    else
      match walk s asid va with
      | .ok e =>
        let m := min n (e.base + e.size - va)
        let pa := e.pa + (va - e.base)
        if e.home = 0 && !hartMay s 0 pa m false then some pa else refusedVa s asid k (va + m) (n - m)
      | _ => none

/-- A name as the image holds it (R445): 1 to 63 ASCII bytes, then a zero byte. -/
def nameOk (s : State) (asid va : Nat) : Bool :=
  (List.range 63).any fun i => match readImg s asid va (i + 2) with
    | some bs => (bs.take (i + 1)).all (fun b => b != 0#8 && decide (b.toNat < 128)) && (bs.getLast? == some 0#8)
    | none => false

/-- A kernel image as H0 reads it (R445). -/
structure Image where
  base : Nat
  text : List Byte
  res : List Byte
  pmap : List (List Byte)
  live : Option (List (List Byte))
  pages : List (List Byte)
  deriving DecidableEq, Repr

/-- A list cut into parts of a size. -/
def chunks (n : Nat) (k : Nat) (bs : List Byte) : List (List Byte) := (List.range k).map fun i => (bs.drop (n * i)).take n

/-- The reads that H0 makes of an image, as far as its header and its page table give them (R445). -/
def imageReads (s : State) (asid img : Nat) : List (Nat × Nat) :=
  (img, 64) :: match readImg s asid img 64 with
    | none => []
    | some h =>
      let w := fun i => blkN h (4 * i) 4
      let pages := (readImg s asid (img + w 9) (64 * w 10)).getD []
      [(img + w 7, 64 * w 8), (img + w 2, w 3), (img + w 4, 32), (img + w 5, 8 * w 6), (img + w 9, 64 * w 10), (img + w 11, 1)]
        ++ (chunks 64 (w 10) pages).flatMap fun e => [(img + blkN e 24 8, blkN e 32 8), (img + blkN e 40 4, 1)]

/-- The first byte of H0's reads for a launch that an access table refuses: of the image, then of the module set (R450). -/
def launchRefused (s : State) (asid : Nat) (d : List Byte) : Option Nat :=
  (imageReads s asid (blkN d 0 8) ++ [(blkN d 80 8, 2 * bitsOf (blkN d 72 8) 63 48)]).findSome? fun r => refusedVa s asid (r.2 / 4096 + 2) r.1 r.2

/-- The image at an address (R445), or nothing where it is not valid. -/
def readImage (s : State) (asid img : Nat) : Option Image :=
  if img = 0 ∨ img % 64 ≠ 0 then none
  else
    match readImg s asid img 64 with
    | none => none
    | some h =>
      let w := fun i => blkN h (4 * i) 4
      if w 0 ≠ 0x31465744 ∨ w 1 ≠ 1 ∨ blkN h 48 16 ≠ 0 ∨ w 3 % 12 ≠ 0 ∨ 64 < w 6 then none
      else
        let live := if w 7 = 0 then some none else (readImg s asid (img + w 7) (64 * w 8)).map fun b => some (chunks 64 (w 8) b)
        match readImg s asid (img + w 2) (w 3), readImg s asid (img + w 4) 32, readImg s asid (img + w 5) (8 * w 6), live,
            readImg s asid (img + w 9) (64 * w 10) with
        | some t, some r, some p, some l, some g =>
          let pages := chunks 64 (w 10) g
          let sound := fun (e : List Byte) => (readImg s asid (img + blkN e 24 8) (blkN e 32 8)).isSome && nameOk s asid (img + blkN e 40 4)
          if nameOk s asid (img + w 11) && pages.all sound then
            some { base := img + w 2, text := t, res := r, pmap := chunks 8 (w 6) p, live := l, pages := pages }
          else none
        | _, _, _, _, _ => none

/-- A resource record out of its ranges (R28, R445). -/
def resBad (r : List Byte) : Bool :=
  let n := fun o => blkN r o 2
  !(n 0 % 8 == 0 && decide (8 ≤ n 0) && decide (n 0 ≤ 256)) || !(n 2 % 16 == 0 && decide (16 ≤ n 2) && decide (n 2 ≤ 64))
    || !(n 4 % 4 == 0 && decide (n 4 ≤ 64)) || !decide (n 6 ≤ 64) || !(blkN r 8 4 % 1024 == 0 && decide (blkN r 8 4 ≤ 6080 * 1024))
    || !decide (blkN r 12 1 ≤ 32) || bitsOf (blkN r 13 1) 6 2 != 0 || (blkN r 13 1 < 128 && blkN r 13 1 != 0) || blkN r 14 2 != 0 || blkN r 20 12 != 0

/-- A parameter map entry that breaks R445: a zero field, its source or index, or a page without an address. -/
def pmapBad (im : Image) (e : List Byte) : Bool :=
  let x := leVal e
  let src := bitsOf x 11 8
  let ix := bitsOf x 31 16
  bitsOf x 63 32 != 0 || bitsOf x 15 12 != 0 || bitsOf x 7 6 != 0 || decide (5 < src)
    || (if src = 0 then decide (15 < ix) else if src = 5 then (match im.pages[ix]? with | some p => blkN p 0 8 == 0 | none => true) else ix != 0)

/-- Zero fields of the liveness ranges and of the page list (R445). -/
def liveBad (e : List Byte) : Bool := bitAt (blkN e 4 1) 7 || blkN e 5 3 != 0
def pageBad (e : List Byte) : Bool := bitsOf (blkN e 16 8) 63 9 != 0 || bitAt (blkN e 16 8) 3 || blkN e 44 20 != 0

def Image.bad (im : Image) : Bool :=
  resBad im.res || im.pmap.any (pmapBad im) || (im.live.getD []).any liveBad || im.pages.any pageBad

/-- A liveness range: its start and the p, k, m, a and v masks (R445). -/
def liveRange (e : List Byte) : Nat × List Nat := (blkN e 0 4, [blkN e 4 1, blkN e 8 8, blkN e 16 8, blkN e 24 8, blkN e 32 32])

/-- A partition word as a launch or H1 gives it (R196, R197): its REG and ACC. -/
def partReg (x : Nat) : Nat := bitsOf x 6 0
def partAcc (x : Nat) : Nat := bitsOf x 12 8
def partOk (x : Nat) : Bool := decide (partReg x ≤ 64) && decide (partAcc x ≤ 16)

/-- The fields of a descriptor out of their ranges (R444), for a module with w key chunks. -/
def descFieldsBad (w : Nat) (d : List Byte) : Bool :=
  let n := fun o => blkN d o 8
  let m := fun o => blkN d o 4
  let (nw, lo, hi, elo, ehi) := (n 48, m 56, m 60, m 64, m 68)
  let kw := bitsOf (n 72) 2 0
  let zero := bitsOf (n 24) 15 8 != 0 || bitsOf (n 24) 6 3 != 0 || bitsOf (n 72) 47 3 != 0 || blkN d 88 40 != 0
  let dims := m 8 == 0 || m 12 == 0 || m 16 == 0 || decide (32 < m 20)
  let win := if nw = 0 then lo != 0 || hi != 0 || elo != 0 || ehi != 0 || kw != 0
    else nw % 2 ^ 36 != 0 || decide (2 ^ 57 ≤ nw) || decide (hi < lo) || lo % 8192 != 0 || (hi % 8192 != 0 && hi != nodeCapacity w)
      || decide (nodeCapacity w < hi) || decide (ehi < elo) || decide (4194304 < ehi) || decide (4 < kw) || (kw != 0 && kw != w)
  let part := m 40
  zero || dims || win || decide (4096 < bitsOf (n 72) 63 48)
    || (part != 0 && (!partOk part || bitsOf part 31 23 != 0 || bitsOf part 15 13 != 0 || bitAt part 7))

/-- The module set of a launch (R444): its list, or this module alone. -/
def readMset (s : State) (asid : Nat) (d : List Byte) : Option (List Nat) :=
  let n := bitsOf (blkN d 72 8) 63 48
  if n = 0 then some [s.module.toNat]
  else (readImg s asid (blkN d 80 8) (2 * n)).bind fun b =>
    let ids := (List.range n).map fun i => blkN b (2 * i) 2
    if ids.any fun x => decide (4096 ≤ x) then none else some ids

/-- The value of a parameter map entry at strand birth (R444, R445). -/
def pmapVal (im : Image) (d : List Byte) (w : Nat) (e : List Byte) : Nat × W64 :=
  let x := leVal e
  let ix := bitsOf x 31 16
  (bitsOf x 5 0, w64n (match bitsOf x 11 8 with
    | 0 => blkN d (128 + 8 * ix) 8
    | 1 => blkN d 48 8
    | 2 => blkN d 56 4
    | 3 => blkN d 60 4
    | 4 => w
    | _ => match im.pages[ix]? with | some p => blkN p 0 8 | none => 0))

/-- The partition word after reset (R196). -/
def partReset : Nat := 2101296

/-- The launch of a descriptor and an image that passed (R444). -/
def mkLaunch (fn q job asid : Nat) (e : List Byte) (head w : Nat) (d : List Byte) (im : Image) : Launch :=
  let m := fun o => blkN d o 4
  let r := fun o => blkN im.res o 2
  let pick := fun (x y z : Nat) => if x ≠ 0 then x else if y ≠ 0 then y else z
  let rp := blkN im.res 13 1
  let prio := if bitAt (blkN d 24 8) 2 then bitsOf (blkN d 24 8) 1 0 else if 128 ≤ rp then rp % 4 else 0
  { fn := fn, q := q, job := job, asid := asid, tag := entTag e, irq := entIrq e, head := head, dims := (m 8, m 12, m 16),
    size := pick (m 20) (blkN im.res 12 1) 1, limit := pick (m 28) (blkN im.res 16 4) (2 ^ 28), acct := blkN d 26 2,
    debug := bitAt (blkN d 24 8) 7, prio := prio, seed := w64n (blkN d 32 8), lbound := m 44,
    part := pick (m 40) 0 partReset, next := 0, requeue := [], live := false, since := 0, done := 0, cycles := 0,
    kregs := im.pmap.map (pmapVal im d w), res := (r 0, r 2, r 4, r 6, blkN im.res 8 4) }

/-- The job of a launch (R443), which a host's launch makes a user job (R298). -/
def mkJob (user : Bool) (asid key w : Nat) (d : List Byte) (im : Image) (mset : List Nat) : Job :=
  let m := fun o => blkN d o 4
  { asid := asid, user := user, launch := key, base := im.base, text := im.text, live := (im.live.getD []).map liveRange,
    hasLive := im.live.isSome, nw := blkN d 48 8, lo := m 56, hi := m 60, elo := m 64, ehi := m 68, kw := w, mset := mset,
    hids := [], ended := false, cause := none, exitCode := 0#64, tsave := [], rel := none }

/-! ## Charges -/

/-- Batches that a launch has in all (R208), and whether it has some to place. -/
def Launch.total (l : Launch) : Nat := l.dims.1 * l.dims.2.1 * l.dims.2.2
def Launch.open (l : Launch) : Bool := !l.requeue.isEmpty || decide (l.next < l.total)

/-- A queue's charge with that of its resident batches so far (R446). -/
def queueCharge (s : State) (k : Nat) : Rat :=
  let x := s.queue k
  s.batches.foldl (fun n e =>
    match nmGet s.launches e.2.launch with
    | some l => if e.2.resident && qkey l.fn l.q == k then n + (((s.core e.2.core).cycle - e.2.born : Nat) : Rat) / (x.weight : Rat) else n
    | none => n) x.charge

/-- Queues with a launch that has not ended. -/
def activeQueues (s : State) : List Nat := (s.launches.map fun e => qkey e.2.fn e.2.q).eraseDups

/-- A queue that becomes active starts at the least charge among the active ones (R446). -/
def startCharge (s : State) (k : Nat) : State :=
  let act := activeQueues s
  if act.contains k then s
  else
    match act.map (queueCharge s) with
    | [] => s
    | x :: xs => s.updQueue k fun y => { y with charge := xs.foldl (fun m z => if z < m then z else m) x }

/-- H1's time in core cycles (R447, log 52): that of the core whose count is the greatest. -/
def hostTime (s : State) : Nat := s.cores.foldl (fun n e => max n e.2.cycle) 0

/-- A descriptor and an image that passed make a job and its launch, on an entry of a queue (R443, R444); acceptance is an acquire
for the host's writes. -/
def acceptLaunch (s : State) (user : Bool) (fn q job asid : Nat) (e : List Byte) (head : Nat) (d : List Byte) (im : Image) (mset : List Nat) : State :=
  let w := s.host.keyChunks
  let s1 := startCharge s (qkey fn q)
  let (key, s2) := s1.tick
  let j := mkJob user asid key w d im mset
  clearWindow { s2 with
    jobs := nmSet s2.jobs job j
    launches := nmSet s2.launches key { mkLaunch fn q job asid e head w d im with since := hostTime s2 }
    cores := s2.cores.map fun (y : Nat × Core) => (y.1, { y.2 with rlb := [] }) } asid j.nw j.lo j.hi j.elo j.ehi w

/-- Whether a job number may be given to a launch (R443, R452). -/
def jobFree (s : State) (job : Nat) : Bool := (nmGet s.jobs job).isNone && decide (job < 65536) && s.host.launchOk

/-- A hart launches a supervisor job under ASID 0 by a descriptor of its own, checked as a host's is (R298, R444; log 41). -/
def hartLaunch (s : State) (job : Nat) (d : List Byte) : State :=
  if !jobFree s job || d.length != 256 || descFieldsBad s.host.keyChunks d then s
  else
    match readImage s 0 (blkN d 0 8), readMset s 0 d with
    | some im, some mset => if im.bad then s else acceptLaunch s false hartFn 0 job 0 [] 0 d im mset
    | _, _ => s

/-- LAUNCH (R443, R444, R445): H0 reads the descriptor and the image of a host's launch; firmware has chosen the job number and,
for a PASID without one, the address space. Or a hart launches a job of its own (R298). -/
def execLaunch (who : LaunchBy) (q job asid : Nat) (s : State) : Out :=
  match who with
  | .hart d => .next (if asid = 0 then hartLaunch s job d else s)
  | .host fn =>
    let k := qkey fn q
    match entryOf s fn q 1 with
    | none => .next s
    | some e =>
      let x := s.queue k
      let p := x.pasid.toNat
      let own := match nmGet s.host.asids p with
        | some a => a == asid
        | none => asid != 0 && decide (asid < 65536) && !(s.host.asids.any fun y => y.2 == asid)
      if s.host.dying.contains p then .next (finishEntry s k e 0x02#8 .plain)
      else if !own || !jobFree s job then .next s
      else
        let d := rdHost s p (entAddr e) 256
        match readImage s asid (blkN d 0 8), readMset s asid d with
        | some im, some mset =>
          if entAddr e % 64 ≠ 0 ∨ descFieldsBad s.host.keyChunks d ∨ im.bad then .next (finishEntry s k e 0x01#8 .plain)
          else
            let s1 := s.updQueue k fun y => { y with entry := none }
            let s2 := { s1 with host := { s1.host with asids := nmSet s1.host.asids p asid } }
            .next (acceptLaunch s2 true fn q job asid e x.fetch d im mset)
        | _, _ =>
          let s1 := match launchRefused s asid d with | some pa => hartDenied s 0 pa false | none => s
          .next (finishEntry s1 k e 0x01#8 .plain)

/-! ## Snapshots and reports -/

/-- The addresses of the leaf entries that map an address: one, or the sixteen of a group (R299, R302). -/
def leafAddrs (s : State) (va : Nat) : Nat → Nat → List Nat
  | lvl, tab =>
    match lvl with
    | 0 =>
      let i := va / 4096 % 512
      if bitAt (s.rdM (tab + 8 * i) 8) 10 then (List.range 16).map fun q => tab + 8 * (i / 16 * 16 + q) else [tab + 8 * i]
    | l + 1 =>
      let a := tab + 8 * (va / lvlSize (l + 1) % 512)
      if bitAt (s.rdM a 8) 1 then [a] else leafAddrs s va l (bitsOf (s.rdM a 8) 51 12 * 4096)

/-- Marks one page copy-on-write (R453): its entries lose V, so that the next access goes through H2, and cached
translations are dropped (log 50); a page whose entries H2's access table refuses is reported and not marked (R450). -/
def markCow (s : State) (asid va : Nat) : State × List Tlb :=
  match walk s asid va with
  | .ok e =>
    let as := leafAddrs s va 4 (bitsOf (spGet s.roots asid).toNat 51 12 * 4096)
    match as.find? fun a => !hartMay s 2 a 8 true with
    | some a => (hartDenied s 2 a true, [])
    | none =>
      let m := as.foldl (fun m a => spPut m a (rdM1 m a &&& 0xFE#8)) s.mem
      (startTinv { s with mem := m } none asid false e.base e.size, [e])
  | _ => (s, [])

def markCows (s : State) (asid : Nat) : List Nat → State × List Tlb
  | [] => (s, [])
  | va :: vs =>
    let (s1, x) := markCow s asid va
    let (s2, y) := markCows s1 asid vs
    (s2, x ++ y)

/-- Where a PASID's root pointer stands in M, aligned to 8 bytes (R453, log 50). -/
def rootWord (p : Nat) : Nat := 8 * (Config.rootAt p).toNat

def setSnap (s : State) (p : Nat) (n : Snap) : State := { s with host := { s.host with snaps := nmSet s.host.snaps p n } }

/-- A command at hand of a PASID that is being torn down completes as torn, without its effect (R449, log 73). -/
def entryTorn (s : State) (k : Nat) : Bool := s.host.dying.contains (s.queue k).pasid.toNat

/-- SNAPSHOT (R441, R453). -/
def execSnapshot (fn q : Nat) (s : State) : Out :=
  let k := qkey fn q
  match entryOf s fn q 2 with
  | none => .next s
  | some e =>
    let p := (s.queue k).pasid.toNat
    let old := (nmGet s.host.snaps p).getD Snap.none
    if entryTorn s k then .next (finishEntry s k e 0x02#8 .plain)
    else if old.busy then .next (finishEntry s k e 0x03#8 .plain)
    else
      let asid := (nmGet s.host.asids p).getD 0
      let vas := (List.range (entArg e)).map fun i => leVal (rdHost s p (entAddr e + 8 * i) 8) / 4096 * 4096
      let (s1, pages) := markCows s asid vas
      .next (finishEntry (setSnap s1 p { old with pages := old.pages ++ pages }) k e 0x00#8 .plain)

/-- COMMIT (R453): H2 writes the PASID's root pointer, the other of the two roots, in one aligned 8-byte store to its word in M; the
commit completes with its entry. -/
def execCommit (fn q : Nat) (s : State) : Out :=
  let k := qkey fn q
  match entryOf s fn q 3 with
  | none => .next s
  | some e =>
    let p := (s.queue k).pasid.toNat
    let old := (nmGet s.host.snaps p).getD Snap.none
    if entryTorn s k then .next (finishEntry s k e 0x02#8 .plain)
    else
      let s1 := setSnap s p { old with alt := !old.alt, busy := true }
      .next (finishEntry (hartWrite s1 2 (rootWord p) (leBytes 8 (Config.snapRoot p (!old.alt)).toNat)) k e 0x00#8 (.commit p))

/-- The resident core cycles of an account's running batches so far (R451). -/
def runningCycles (s : State) (fn acct : Nat) : Nat :=
  s.batches.foldl (fun n e =>
    match nmGet s.launches e.2.launch with
    | some l => if e.2.resident && l.fn == fn && l.acct == acct then n + ((s.core e.2.core).cycle - e.2.born) else n
    | none => n) 0

/-- BILL (R451): the Vat and energy counters of an account that has used a Vat or a core gain what the manual leaves open, and the
report is written, the cycles of running batches in it. -/
def execBill (fn q : Nat) (s : State) : Out :=
  let k := qkey fn q
  match entryOf s fn q 4 with
  | none => .next s
  | some e =>
    if entryTorn s k then .next (finishEntry s k e 0x02#8 .plain)
    else
      let f := entArg e % 65536
      let a := bitsOf (entArg e) 31 16
      let old := (nmGet s.host.bills (f * 65536 + a)).getD Bill.none
      let c := s.freeCtr
      let cores := old.core + runningCycles s f a
      let b : Bill := { old with vat := old.vat + (if old.vats then Config.vatCycles c else 0),
                                 energy := old.energy + (if cores = 0 then 0 else Config.energy c), vats := false }
      let n := (nmGet s.host.reports f).getD 0 + 1
      let body := leBytes 8 (f * 2 ^ 48 + a * 2 ^ 32) ++ leBytes 8 n ++ leBytes 8 cores ++ leBytes 8 b.vat ++ leBytes 8 b.fab ++ leBytes 8 b.energy
        ++ leBytes 32 ((nmGet s.host.prev f).getD 0#256).toNat
      let rep := body ++ leBytes 64 (Config.sm2 s.module.toNat body).toNat
      let s1 := { s with
        freeCtr := c + 1
        host := { s.host with
          bills := nmSet s.host.bills (f * 65536 + a) b, reports := nmSet s.host.reports f n, prev := nmSet s.host.prev f (Config.sm3 rep) } }
      .next (finishEntry (wrHost s1 (s.queue k).pasid.toNat (entAddr e) rep) k e 0x00#8 .plain)

/-! ## Completions -/

/-- The free entries of a completion ring: one before CQHEAD is never reached (R441). -/
def HQueue.room (x : HQueue) : Nat :=
  let n := x.cqsize.toNat
  (n - 1) - (x.cqidx + n - x.cqhead.toNat % n) % n

/-- Whether a completion may be written now: two free entries stay for a LOG pair (R441). -/
def Compl.fits (x : HQueue) (c : Compl) : Bool :=
  match c.kind with
  | .log _ _ _ => decide (2 ≤ x.room)
  | _ => decide (min 3 (x.cqsize.toNat - 1) ≤ x.room) && decide (1 ≤ x.room)

/-- Writes one entry of a completion ring (R441). -/
def writeEntry (s : State) (k : Nat) (value : W64) (tag : W32) (head : Nat) (status : BitVec 8) : State :=
  let x := s.queue k
  let bs := leBytes 8 value.toNat ++ leBytes 8 (tag.toNat * 2 ^ 32 + head % 65536 * 2 ^ 16 + x.phase.toNat * 2 ^ 15 + status.toNat)
  let s1 := wrHost s x.pasid.toNat (x.cqbase.toNat + 16 * x.cqidx) bs
  s1.updQueue k fun y =>
    if y.cqidx + 1 = y.cqsize.toNat then { y with cqidx := 0, phase := !y.phase } else { y with cqidx := y.cqidx + 1 }

/-- COMPLETION_WRITE (R441): the first completion that the ring has room for. A log pair resumes its fragment (R454). -/
def execCompletionWrite (fn q : Nat) (s : State) : Out :=
  let k := qkey fn q
  let x := s.queue k
  match x.done.zipIdx.find? fun e => e.1.fits x with
  | none => .next s
  | some (c, i) =>
    let s1 := writeEntry s k c.value c.tag c.head c.status
    let s2 := s1.updQueue k fun y => { y with done := y.done.eraseIdx i, irqs := y.irqs + c.irq.toNat }
    match c.kind with
    | .plain => .next (s2.updQueue k fun y => { y with out := y.out - 1 })
    | .commit p =>
      let s3 := s2.updQueue k fun y => { y with out := y.out - 1 }
      .next { s3 with host := { s3.host with snaps := nmUpd s3.host.snaps p fun n => { n with busy := false, pages := [] } } }
    | .log sid f second =>
      let s3 := writeEntry s2 k second c.tag c.head 0x07#8
      let waits := ((nmGet s3.strands sid).bind fun st => nmGet st.frags f).map fun (fr : Frag) => fr.wait == .logPair
      if waits.getD false then .next (unblock s3 sid f) else .next s3

/-! ## The end of a job -/

/-- Commands that a job accepted and that have not completed (R443). -/
def jobCommands (s : State) (j : Nat) : Bool :=
  let mine := fun (sid : Nat) => ((nmGet s.strands sid).map fun st => st.job == j).getD false
  s.cores.any (fun e => e.2.copyQ.any (·.job == j) || e.2.gathQ.any (·.job == j) || e.2.markQ.any fun m => mine m.sid)
    || s.dies.any (fun e => e.2.mat.any (·.job == j) || e.2.coll.any (·.job == j))
    || s.marks.any fun m => m.job == j && !m.todo.isEmpty

/-- Writes of a job that are not in its die's L2 or applied at their home yet; entries that a TBAR holds drain too (R216, R343). -/
def jobWrites (s : State) (j : Nat) : Bool :=
  let mine := fun (sid : Nat) => ((nmGet s.strands sid).map fun st => st.job == j).getD false
  s.strands.any (fun e => e.2.job == j && e.2.rsb.any fun r => r.ready || r.hold.isSome)
    || s.cores.any (fun e => e.2.wcb.any fun l => l.sids.any mine)
    || s.fab.pkts.any fun k => k.jobs.contains j && k.src == s.module.toNat

/-- Every batch of a job has been placed and has ended, or a cause has ended the job. -/
def jobOver (s : State) (j : Nat) (jb : Job) : Bool :=
  jb.ended || (((nmGet s.launches jb.launch).map fun l => !l.open).getD true && s.batches.all fun e => e.2.job != j || e.2.ended)

/-- The completion of a launch whose job has ended (R441, R454). -/
def jobCompl (j : Nat) (jb : Job) (l : Launch) : Compl :=
  let (status, value) : BitVec 8 × W64 := match jb.cause with
    | none => (0x00#8, w64n j)
    | some c => if c = 0xF8#8 then (0x05#8, jb.exitCode) else (0x04#8, w64n (j * 2 ^ 48 + c.toNat * 2 ^ 40))
  { value := value, tag := l.tag, head := l.head, status := status, irq := l.irq, kind := .plain }

/-- What a job leaves: its strands, batches, launch, classes, messages, handlers and teams go, and its window is cleared
(R368, R395). -/
def jobGone (s : State) (j : Nat) (jb : Job) : State :=
  let s1 := clearWindow s jb.asid jb.nw jb.lo jb.hi jb.elo jb.ehi jb.kw
  let sids := (s1.strands.filter fun e => e.2.job == j).map (·.1)
  let s2 := s1.dropTeams fun _ t => t.job == j
  { s2 with
    cur := s2.cur.filter fun x => !sids.contains x.1
    strands := s2.strands.filter fun e => e.2.job != j
    batches := s2.batches.filter fun e => e.2.job != j
    jobs := nmDel s2.jobs j
    launches := nmDel s2.launches jb.launch
    cores := s2.cores.map fun (e : Nat × Core) =>
      (e.1, { e.2 with slots := e.2.slots.filter (fun x => x.2.job != j), pairs := e.2.pairs.filter fun p => p.1 / 16 != j })
    dies := s2.dies.map fun (e : Nat × Die) => (e.1, { e.2.dropJob j with nextCore := nmDel e.2.nextCore jb.launch })
    pkgComb := s2.pkgComb.filter fun x => x.2.job != j
    classes := s2.classes.filter (·.job != j)
    marks := s2.marks.filter (·.job != j)
    msgs := s2.msgs.filter (·.m.job != j)
    vats := s2.vats.map fun (e : Nat × Vat) => (e.1, e.2.dropJob j)
    fab := { s2.fab with pairs := s2.fab.pairs.filter fun p => p.1 / 256 != j, out := s2.fab.out.filter fun m => m.job != j } }

/-- JOB_END (R443, R216): the last strand has ended, every command has completed, and every write has reached M or its home;
a job that a cause ended waits for its committed entries too. The waits for the L2 start once nothing else is left. -/
def execJobEnd (job : Nat) (s : State) : Out :=
  match nmGet s.jobs job with
  | none => .next s
  | some jb =>
    if !jobOver s job jb || jobCommands s job || jobWrites s job then .next s
    else
      match jb.rel with
      | none =>
        let (q, s1) := s.tick
        .next (s1.updJob job fun x => { x with rel := some q })
      | some q =>
        if s.dies.any fun e => e.2.p.any fun w => decide (w.seq < q) then .next s
        else
          match nmGet s.launches jb.launch with
          | none => .next (jobGone s job jb)
          | some l => .next (pushCompl (jobGone s job jb) (qkey l.fn l.q) (jobCompl job jb l))

end Sys2Proof.Machine
end

