-- ==== Sys2Proof/Machine/Save.lean ====
section
/-!
DEFINITION. What a context save records of one strand (R84 to R86): the live set, the fragments as they are recorded, and
the layout of the record.
-/
namespace Sys2Proof.Machine

/-! ## The live set -/

/-- The live masks of a PC (R35, R445): p, k, m, a and v. -/
def Job.liveAt (j : Job) (pc : VAddr) : List Nat :=
  let off := pc.toNat - j.base
  match (j.live.filter fun e => decide (e.1 ≤ off)).getLast? with
  | some e => e.2
  | none => [0, 0, 0, 0, 0]

/-- The allocated registers of a strand as live masks (R74): p, k, m, a and v. -/
def Regs.allocated (r : Regs) : List Nat :=
  [127, (2 ^ r.kalloc - 1) ||| 255 * 2 ^ 56, 2 ^ r.malloc - 1, 2 ^ r.aalloc - 1, 2 ^ r.valloc - 1]

/-- The live set of a strand (R84): the union over its fragments, or every allocated register inside a handler; p0 to p6
always. -/
def liveSet (j : Job) (st : Strand) : List Nat :=
  if st.sp.hstate ≠ 0#2 then st.r.allocated
  else st.frags.foldl (fun m e => m.zipWith (· ||| ·) (j.liveAt e.2.pc)) [127, 0, 0, 0, 0]

/-- The registers that a save keeps (R84, R87): those that are not live read 0. -/
def Regs.keep (r : Regs) (m : List Nat) : Regs :=
  let on := fun (i n : Nat) => bitAt ((m[i]?).getD 0) n
  { r with v := r.v.filter (fun e => on 4 (e.1 / 32)), k := r.k.filter (fun e => on 1 e.1), m := r.m.filter (fun e => on 2 (e.1 / 32)),
           a := r.a.filter (fun e => on 3 (e.1 / 4096)) }

/-! ## Fragments -/

/-- A wait of which a save records no event (R147, R324, R352): EVT = 0, and the instruction issues again. -/
def Wait.again : Wait → Bool
  | .rdv _ | .swait _ _ _ _ | .rsb => true
  | _ => false

/-- A wait during which a save waits too: firmware's answer, the mark bus or a drain is at work on the fragment. -/
def Wait.pinned : Wait → Bool
  | .accept | .fault _ | .logPair | .drain => true
  | _ => false

/-- A fragment as a save records it (R86): a BLOCKED one keeps its event and a STALLED one its gap. -/
def Frag.save (fr : Frag) : Frag :=
  if fr.wait.again then { fr with wait := .anew, evt := 0#64, gap := 0, rel := none } else { fr with rel := none }

/-- A fragment on its new core (R87): where no event was recorded the instruction issues again. -/
def Frag.wakeAgain (fr : Frag) : Frag :=
  if fr.wait == .anew then { fr with st := .ready, wait := .none } else fr

/-- The ST field of a fragment's record (R86); `inside` says that the fragment is in a handler. -/
def FragSt.code (x : FragSt) (inside : Bool) : Nat :=
  match x with
  | .ready => if inside then 6 else 0
  | .stalled => 1
  | .blocked => 2
  | .joinwait => 3
  | .trapwait => 4
  | .stopped => 5

/-- A fragment's record (R86), as a number of 256 bits. -/
def Frag.record (fr : Frag) (inside : Bool) : Nat :=
  let evt := if fr.st == .blocked && !fr.wait.again then fr.evt.toNat else 0
  fr.gap % 8 * 2 ^ 176 + (fr.rix.getD 15) % 16 * 2 ^ 172 + fr.st.code inside * 2 ^ 168 + fr.mask.toNat * 2 ^ 128 + evt * 2 ^ 64 + fr.pc.toNat

/-- A reconvergence record's 16 bytes (R85). -/
def Rec.record (x : Rec) : List Byte :=
  leBytes 8 x.pc.toNat ++ leBytes 4 x.mask.toNat ++ leBytes 1 (x.parent.getD 0xFF) ++ leBytes 3 0

/-! ## The record -/

/-- A part of the record whose contents the manual lists without their places: n bytes, free in the values listed (log 54). -/
def savePart (part n : Nat) (xs : List Nat) : List Byte := (List.range n).map (Config.savePart part xs)

/-- What the header lists (R85). -/
def Strand.header (st : Strand) (b : Batch) : List Nat :=
  let sp := st.sp
  [st.frags.length, st.recs.length, st.r.valloc, st.r.kalloc, st.r.malloc, st.r.aalloc, sp.hstate.toNat, sp.hcause.toNat, st.held.length,
   sp.dmask.toNat, sp.fmask.toNat, sp.xmask.toNat, sp.ctl.toNat, sp.mflag.toNat, sp.fflag.toNat, sp.mrow.toNat, sp.evec.toNat,
   sp.uvec.toNat, sp.uepc.toNat, sp.ecause.toNat, sp.epc.toNat, sp.eopc.toNat, sp.emod.toNat, sp.efd.toNat, sp.efa.toNat, sp.efb.toNat,
   sp.egrd.toNat, st.sidx, b.pos.1, b.pos.2.1, b.pos.2.2]

/-- The registers of a class that a mask names, in ascending number. -/
def liveRegs (m cap : Nat) (g : Nat → List Byte) : List Byte := ((List.range cap).filter (bitAt m)).flatMap g

/-- The saved record of one strand, its parts in the order of R85. -/
def saveRecord (j : Job) (b : Batch) (st : Strand) : List Byte :=
  let m := liveSet j st
  let at_ := fun (i : Nat) => (m[i]?).getD 0
  savePart 0 96 (st.header b)
    ++ st.frags.flatMap (fun e => leBytes 32 (e.2.record (st.inHandler e.1)))
    ++ st.recs.flatMap (fun e => e.2.record)
    ++ leBytes 32 (at_ 4) ++ leBytes 8 (at_ 1) ++ leBytes 8 (at_ 2) ++ leBytes 8 (at_ 3) ++ leBytes 8 0
    ++ (List.range 7).flatMap (fun i => leBytes 4 (st.r.rdP i).toNat) ++ leBytes 4 0
    ++ liveRegs (at_ 4) 256 (fun n => threads.flatMap fun t => leBytes 4 (st.r.rdV n t).toNat)
    ++ liveRegs (at_ 1) 64 (fun n => leBytes 8 (st.r.rdK n).toNat)
    ++ liveRegs (at_ 2) 64 (fun n => threads.flatMap fun t => leBytes 8 (st.r.rdM n t).toNat)
    ++ liveRegs (at_ 3) 64 (fun n => (List.range 4096).flatMap fun e => leBytes 8 (st.r.rdA n (e / 64) (e % 64)).toNat)
    ++ (st.rsb.filter RsbEnt.open).flatMap (fun e => savePart 1 44 e.sig)
    ++ st.held.flatMap (fun i => savePart 2 16 [i.frag, i.status.toNat, i.tag.toNat])
    ++ st.teams.flatMap (fun t => savePart 3 16 [t.1, t.2])

end Sys2Proof.Machine
end

