-- ==== Sys2Proof/Machine/Place.lean ====
section
/-!
DEFINITION. Placement of batches (R196 to R199, R208, R209, R327, R357, R446), context save and resumption (R84 to R87,
R214, R325, R354, R448), and pre-emption (R447).
-/
namespace Sys2Proof.Machine

/-! ## What fits on a core -/

/-- The other core of a pair (R199). -/
def partner (c : Nat) : Nat := if c % 2 = 0 then c + 1 else c - 1

def residents (s : State) (c : Nat) : List Strand := (s.strands.filter fun e => e.2.core == c && e.2.resident).map (·.2)

/-- Tiles that the strands of a core's pair hold in each of the two cores (R199). -/
def tilesUsed (s : State) (c : Nat) : Nat :=
  (s.strands.filter fun e => e.2.core / 2 == c / 2 && holds s e.2).foldl (fun n e => n + e.2.r.aalloc) 0

/-- A core that is empty (R197). -/
def coreEmpty (s : State) (c : Nat) : Bool :=
  let x := s.core c
  (residents s c).isEmpty && !(x.queues.any fun q => q.2.batch.isSome) && x.slots.isEmpty && x.copyQ.isEmpty && x.gathQ.isEmpty

/-- The scratchpad ranges in use on a core (R200). -/
def scrUsed (s : State) (c : Nat) : List (Nat × Nat) :=
  (s.batches.filter fun e => e.2.core == c && e.2.resident && e.2.scrSize != 0).map fun e => (e.2.scrBase, e.2.scrSize)

/-- The lowest base at which a range of n bytes is free below a capacity (log 51). -/
def firstFit (used : List (Nat × Nat)) (cap n : Nat) : Option Nat :=
  if n = 0 then some 0
  else
    let ok := fun (b : Nat) => decide (b + n ≤ cap) && used.all fun r => decide (b + n ≤ r.1) || decide (r.1 + r.2 ≤ b)
    ((0 :: used.map fun r => r.1 + r.2).filter ok).foldl (fun (m : Option Nat) b => match m with | some x => some (min x b) | none => some b) none

/-- Bytes of a core's scratchpad partition (R196). -/
def scrCap (x : Core) : Nat := (96 - x.reg - x.acc) * 65536

/-- What a batch asks of a core: strands, register blocks, tiles, barrier slots, split-table entries, scratchpad bytes. -/
structure Demand where
  strands : Nat
  blocks : Nat
  tiles : Nat
  slots : Nat
  frags : Nat
  scr : Nat
  deriving DecidableEq, Repr

/-- Whether a core has all of it free at once, with a partition word in force (R208). Blocks that the head of the GROW queue
can have are not free (R202). -/
def roomFor (s : State) (c : Nat) (x : Core) (d : Demand) : Bool :=
  let acc := fun (y : Core) => decide (tilesUsed s c + d.tiles ≤ 4 * y.acc)
  decide (x.slots.length + d.slots ≤ 64) && decide ((residents s c).length + d.strands ≤ 1024) && decide (usedBlocks s c + d.blocks ≤ x.reg * 64) && (growHead s c).isNone
    && (d.tiles == 0 || (acc x && acc (s.core (partner c)))) && decide ((usedEntries s c).length + d.frags ≤ 4096)
    && (firstFit (scrUsed s c) (scrCap x) d.scr).isSome

def Launch.demand (l : Launch) : Demand :=
  { strands := l.size, blocks := l.size * regBlocks l.res.1 l.res.2.1 l.res.2.2.1, tiles := l.size * l.res.2.2.2.1, slots := 1,
    frags := l.size, scr := l.res.2.2.2.2 }

def partMatch (x : Core) (part : Nat) : Bool := x.reg == partReg part && x.acc == partAcc part
def Core.setPart (x : Core) (part : Nat) : Core := { x with reg := partReg part, acc := partAcc part }

/-- A partition word takes effect on an empty core, and its whole pool reads zero (R197): so do columns 32 to 63 of the tiles
that strands of the other core of the pair hold there (R266). -/
def writePart (s : State) (c part : Nat) : State :=
  let s1 := s.updCore c fun x => x.setPart part
  { s1 with strands := s1.strands.map fun (e : Nat × Strand) =>
      if e.2.core == partner c && holds s e.2 then (e.1, { e.2 with r := { e.2.r with a := e.2.r.a.filter fun y => decide (y.1 % 64 < 32) } }) else e }

/-- The cores of a die from a starting point on (R327). -/
def searchOrder (d start : Nat) : List Nat := (List.range 144).map fun i => 144 * d + (start + i) % 144

/-- Where the next batch of a launch goes on a die (R327): the first core that takes it; otherwise the first empty core,
whose partition word H1 writes where it is another. -/
def findCore (s : State) (key : Nat) (l : Launch) (d : Nat) : Option (Nat × Bool) :=
  let cs := searchOrder d ((nmGet (s.die d).nextCore key).getD 0)
  match cs.find? fun c => partMatch (s.core c) l.part && roomFor s c (s.core c) l.demand with
  | some c => some (c, false)
  | none =>
    match cs.find? (coreEmpty s) with
    | some c => if partMatch (s.core c) l.part then none else some (c, true)
    | none => none

/-- A launch that may place a batch now: its job runs, and the earlier launches of its queue have started (R440). -/
def startable (s : State) (key : Nat) (l : Launch) : Bool :=
  l.open && ((nmGet s.jobs l.job).map fun j => !j.ended).getD false
    && (l.live || s.launches.all fun e => e.1 == key || e.2.fn != l.fn || e.2.q != l.q || e.2.live || decide (key < e.1))

/-- The launch whose batch H1 places next on a die, with its core (R446): that of the least-charged queue, and within a
queue the earliest (log 52). -/
def fairPick (s : State) (d : Nat) : Option (Nat × Launch × Nat × Bool) :=
  let cands := s.launches.filterMap fun e =>
    if startable s e.1 e.2 then (findCore s e.1 e.2 d).map fun c => (queueCharge s (qkey e.2.fn e.2.q), e.1, e.2, c) else none
  (cands.foldl (fun (m : Option (Rat × Nat × Launch × Nat × Bool)) x => match m with
    | some y => if x.1 < y.1 then some x else m
    | none => some x) none).map (·.2)

/-! ## Lanes, slots and entries -/

/-- The lane with the fewest of the resident slots listed (R209), and the lowest free slot in it (R357). -/
def pickSlot (slots : List Nat) : Nat × Nat :=
  let count := fun (lane : Nat) => slots.countP fun x => x / 64 == lane
  let lane := (List.range 16).foldl (fun m l => if count l < count m then l else m) 0
  (lane, 64 * lane + (firstFree (slots.map fun x => if x / 64 == lane then x % 64 else 64) 65 0).getD 0)

/-- Slots for n more strands of a core, in order. -/
def pickSlots (slots : List Nat) : Nat → List (Nat × Nat)
  | 0 => []
  | n + 1 => let x := pickSlot slots; x :: pickSlots (x.2 :: slots) n

/-- H2's part of a strand's arrival on a core (R79): the base of the job's save areas there, and the table words that map
them (log 53). -/
def placeArea (s : State) (job c tsave : Nat) (ptes : List (Nat × W64)) : State :=
  let s1 := ptes.foldl (fun s e => hartWrite s 2 e.1 (leBytes 8 e.2.toNat)) s
  let here := s.strands.any fun e => e.2.job == job && e.2.core == c && e.2.resident
  if here && (((nmGet s.jobs job).bind fun j => nmGet j.tsave c).isSome) then s1
  else s1.updJob job fun j => { j with tsave := nmSet j.tsave c (tsave % 2 ^ 57) }

def tsaveOf (s : State) (job c : Nat) : VAddr := BitVec.ofNat 57 (((nmGet s.jobs job).bind fun j => nmGet j.tsave c).getD 0)

/-- A strand at birth (R64, R76); a parameter for a register that is not allocated goes nowhere (log 55). -/
def newStrand (s : State) (c lane slot entry team bid : Nat) (l : Launch) (j : Job) (i : Nat) : Strand :=
  let pc := BitVec.ofNat 57 j.base
  let r0 : Regs := { Regs.reset with valloc := l.res.1, kalloc := l.res.2.1, malloc := l.res.2.2.1, aalloc := l.res.2.2.2.1 }
  { core := c, lane := lane, slot := slot, job := l.job, batch := bid, sidx := i, st := .pooled, entered := 0,
    r := (l.kregs.filter fun e => !r0.beyond ⟨.k, e.1⟩).foldl (fun r e => r.wrAll [⟨.k, e.1, 0, e.2⟩]) r0,
    sp := { Spec.reset with tsave := tsaveOf s l.job c },
    frags := [(entry, { fid := 0, mask := 0xFFFFFFFF#32, pc := pc, st := .ready, gap := 0, rix := none, evt := 0#64, wait := .none, rgn := pc,
                        since := (s.core c).window, rel := none })],
    recs := [], pend := [], rdvs := [], rsb := [], tail := false, held := [], teams := [(team, i)], faults := [], endPc := 0#57,
    launch := (l.res.1, l.res.2.1, l.res.2.2.1), acted := false, log := [], kept := [], abort := none }

/-- The point of an index in the walk of R208, X fastest. -/
def walkPoint (dims : Nat × Nat × Nat) (i : Nat) : Nat × Nat × Nat :=
  (i % dims.1, i / dims.1 % dims.2.1, i / dims.1 / dims.2.1)

/-- Places the next batch of a launch on a core (R208, R209, R327, R357), H1 having written the partition word where asked:
a batch that does not fit then either waits. -/
def placeBatch (s : State) (key : Nat) (l : Launch) (c : Nat) (write : Bool) (tsave : Nat) (ptes : List (Nat × W64)) : State :=
  let s0 := if write then writePart s c l.part else s
  match (nmGet s.jobs l.job).filter fun _ => roomFor s0 c (s0.core c) l.demand with
  | none => s0
  | some j =>
    let s1 := placeArea s0 l.job c tsave ptes
    let idx := (l.requeue.head?).getD l.next
    let (bid, s2) := s1.tick
    let (team, s3) := s2.tick
    let base := s3.seq
    let sids := (List.range l.size).map fun i => base + i
    let places := pickSlots ((residents s3 c).map (·.slot)) l.size
    let entries := freeEntries (usedEntries s3 c) l.size
    let sts := (List.range l.size).map fun i =>
      let p := (places[i]?).getD (0, 0)
      (base + i, newStrand s3 c p.1 p.2 ((entries[i]?).getD 0) team bid l j i)
    let scr := (firstFit (scrUsed s3 c) (scrCap (s3.core c)) l.res.2.2.2.2).getD 0
    let b : Batch := { job := l.job, launch := key, core := c, idx := idx, pos := walkPoint l.dims idx, size := l.size, sids := sids, scrBase := scr,
                       scrSize := l.res.2.2.2.2, scr := [], born := (s3.core c).cycle, saved := false, ended := false, qs := [], locks := [], pre := none }
    let t : Team := { job := l.job, num := 0, bidx := some bid, size := l.size, ranks := (List.range l.size).map fun i => (i, .member (base + i)),
                      phase := 0, arrived := [], done := false, held := [], rels := [] }
    let l' := { l with live := true, since := hostTime s, next := if l.requeue.isEmpty then l.next + 1 else l.next, requeue := l.requeue.drop 1 }
    let s4 := { s3 with
      seq := base + l.size
      strands := sts.foldl (fun m e => nmSet m e.1 e.2) s3.strands
      batches := nmSet s3.batches bid b
      teams := nmSet s3.teams team t
      launches := nmSet s3.launches key l' }
    (addSlot s4 c l.job 0 (some bid)).updDie (dieOf c) fun d => { d with nextCore := nmSet d.nextCore key (c % 144 + 1) }

/-- FAIR_SHARE_PLACE (R446): H1's choice for a die's dispatcher. -/
def execFairSharePlace (die tsave : Nat) (ptes : List (Nat × BitVec 64)) (s : State) : Out :=
  match fairPick s die with
  | some (key, l, c, w) => if die < 8 then .next (placeBatch s key l c w tsave ptes) else .next s
  | none => .next s

/-- BATCH_PLACE (R327): the dispatcher of a core's die places a batch there, where H1's choice and the search fall on that
launch and that core. -/
def execBatchPlace (launch c tsave : Nat) (ptes : List (Nat × BitVec 64)) (s : State) : Out :=
  match fairPick s (dieOf c) with
  | some (key, l, c', w) => if key = launch ∧ c' = c ∧ c < coreCount then .next (placeBatch s key l c w tsave ptes) else .next s
  | none => .next s

/-- PARTITION_WORD_WRITE (R197): H1 writes it at offset 0 of the core's control block, where the table admits H1 (R196, R450). -/
def execPartitionWordWrite (c : Nat) (w : W32) (s : State) : Out :=
  if coreCount ≤ c then .next s
  else .next (s.regWrite (hartAt 1 [c] 0 4) fun s => if partOk w.toNat && coreEmpty s c then writePart s c w.toNat else s.event 0xE3#8 [c])

/-! ## Saving -/

/-- Whether a strand can be saved now (R84, R354, R447, R448): its marks have cleared but for waits that begin anew, its
stores have drained, no tile is faulted. -/
def saveReady (s : State) (sid : Nat) (st : Strand) : Bool :=
  let mine := st.frags.filterMap fun e => e.2.wait.pend?
  st.st == .ended ||
    (st.pend.all (fun p => !p.tracked || mine.contains p.id) && st.faults.isEmpty && (strandCmds s sid).isEmpty
      && !(st.frags.any fun e => e.2.wait.pinned) && s.cur.all (fun x => x.1 != sid) && (relWaits s st .fabric false none).2)

/-- A batch whose COLL, RPRT or engine commands are pending (R447, R448). -/
def batchCommands (s : State) (bid : Nat) (b : Batch) : Bool :=
  let x := s.core b.core
  x.copyQ.any (·.batch == bid) || x.gathQ.any (·.batch == bid) || s.dies.any (fun e => e.2.coll.any (·.batch == bid))
    || x.markQ.any fun m => b.sids.contains m.sid

/-- A member's arrival and place leave its core's slot and the entries above it (R214). -/
def detach (s : State) (tk sid : Nat) : State :=
  match nmGet s.teams tk, nmGet s.strands sid with
  | some t, some st =>
    if !(t.arrived.contains sid) then s
    else
      match slotOf s st.core t.job t with
      | none => s
      | some (n, sl) =>
        let s1 := if sl.phase ≠ t.phase then s else s.updCore st.core fun x => { x with slots := nmSet x.slots n { sl with arrived := sl.arrived - 1, sent := sl.sent.map (· - 1) } }
        let k := combKey t.job t
        let dec := fun (m : NMap Nat) (i : Nat) => nmUpd m i (· - 1)
        if sl.sent.isNone || sl.phase != t.phase then s1
        else
          let s2 := s1.updDie (dieOf st.core) fun d => { d with comb := nmUpd d.comb k fun (y : Comb) => { y with cnt := dec y.cnt st.core } }
          { s2 with pkgComb := nmUpd s2.pkgComb k fun (y : Comb) => { y with cnt := dec y.cnt (dieOf st.core) } }
  | _, _ => s

/-- The bytes of a strand's save area, which moves with it (R79): a broken mapping of it matters where a handler runs. -/
def keptArea (s : State) (st : Strand) : Option (List Byte) :=
  match areaPieces s st false with
  | some ps => some ((pieceKeys ps).map (ownByte s st))
  | none => if st.sp.hstate = 0#2 then some [] else none

/-- Saves one strand (R84, R85, R325); an ended one holds no blocks from then on. -/
def saveStrand (s : State) (sid : Nat) : State :=
  match nmGet s.strands sid with
  | none => s
  | some st =>
    if st.st == .ended then s.updStrand sid fun x => { x with r := { Regs.reset with valloc := 0, kalloc := 0 } }
    else
      match s.job? st, keptArea s st with
      | some j, some area =>
        let s1 := st.teams.foldl (fun s e => detach s e.1 sid) s
        let m := liveSet j st
        let mine := st.frags.filterMap fun e => if e.2.wait.again then none else e.2.wait.pend?
        s1.updStrand sid fun x =>
          let x := x.landFixed
          { x with
            st := .saved, kept := area, pend := x.pend.filter fun p => mine.contains p.id
            rdvs := [], r := x.r.keep m
            frags := x.frags.map fun (k, fr) => (k, fr.save)
            rsb := x.rsb.map fun (e : RsbEnt) => if e.open then { e with carried := true } else e }
      | _, _ => endJob s st.job 0x46#8 (faultRec st.job 0x46#8 0 0#32 st.core st.slot [])

/-- BATCH_SAVE (R448): the waits, the strands, then the scratchpad range, the bound queues and the lock records. -/
def execBatchSave (batch : Nat) (s : State) : Out :=
  match nmGet s.batches batch with
  | none => .next s
  | some b =>
    let live := ((nmGet s.jobs b.job).map fun j => j.hasLive && !j.ended).getD false
    let ready := b.sids.all fun sid => ((nmGet s.strands sid).map fun st => saveReady s sid st).getD true
    if !b.resident || !live || !ready || batchCommands s batch b then .next s
    else
      let s0 := chargeBatch s b
      let x := s0.core b.core
      let qs := x.queues.filter fun q => q.2.batch == some batch
      let s1 := b.sids.foldl saveStrand s0
      let s2 := s1.updBatch batch fun y => { y with saved := true, pre := none, qs := qs, locks := x.locks.filter (·.batch == batch) }
      let s3 := s2.updCore b.core fun y =>
        let locks := y.locks.filter (·.batch != batch)
        { y with queues := y.queues.filter (fun q => q.2.batch != some batch), locks := locks,
                 locked := y.locked.filter fun e => locks.any (·.covers e) }
      let tks := (b.sids.flatMap fun sid => ((nmGet s3.strands sid).map fun st => st.teams.map (·.1)).getD []).eraseDups
      .next (tks.foldl (fun s k => topCheck (teamPrune s k) k) s3)

/-! ## Resuming -/

/-- What a saved batch asks of a core. -/
def resumeDemand (s : State) (c : Nat) (b : Batch) : Demand :=
  let sts := (b.sids.filterMap (nmGet s.strands ·)).filter fun st => st.st == .saved
  let tks := (sts.flatMap fun st => st.teams.map (·.1)).eraseDups
  let need := tks.filter fun k => match nmGet s.teams k with | some t => (slotOf s c t.job t).isNone | none => false
  { strands := sts.length, blocks := sts.foldl (fun n st => n + st.r.blocks) 0, tiles := sts.foldl (fun n st => n + st.r.aalloc) 0,
    slots := need.length, frags := sts.foldl (fun n st => n + st.frags.length) 0, scr := b.scrSize }

/-- Whether the die and package tables have the entries that a saved batch's teams need with members on a core (R212). -/
def entriesFor (s : State) (c : Nat) (b : Batch) : Bool :=
  let tks := (b.sids.flatMap fun sid => ((nmGet s.strands sid).map fun st => if st.st == .saved then st.teams.map (·.1) else []).getD []).eraseDups
  let ts := tks.filterMap (nmGet s.teams ·)
  let more := fun (t : Team) => (teamCores s t, if (teamCores s t).contains c then teamCores s t else teamCores s t ++ [c])
  let needDie := ts.countP fun t => decide (coresOnDie (more t).1 (dieOf c) < 2) && decide (2 ≤ coresOnDie (more t).2 (dieOf c))
  let dies := fun (cs : List Nat) => ((cs.map dieOf).eraseDups).length
  let needPkg := ts.countP fun t => decide (dies (more t).1 < 2) && decide (2 ≤ dies (more t).2)
  decide (dieEntries s (dieOf c) + needDie ≤ 2048) && decide (pkgEntries s + needPkg ≤ 4096)

/-- The saved lock records are repeated as TLBP repeats them (R311, R448): the state, a failed translation, or nothing where the
core lacks records or entries. -/
def relock (s : State) (c : Nat) (bid : Nat) : List LockRec → State ⊕ Option (State × Nat × XRes)
  | [] => .inl s
  | r :: rs =>
    match pagesGo s c r.asid (r.base + r.len) (r.len / 4096 + 2) r.base with
    | .inr x => .inr (some x)
    | .inl (s1, es) =>
      let co := (s1.core c).unlock bid r.base
      let new := es.filter fun e => !co.locked.contains e
      if 16 ≤ co.locks.length ∨ 64 < co.locked.length + new.length then .inr none
      else relock (s1.setCore c { co with locks := co.locks ++ [{ r with batch := bid }], locked := co.locked ++ new }) c bid rs

/-- Translates a strand's carried entries again (R325): the state with their places, or the address and failure. -/
def recarry (s : State) (c asid : Nat) : List RsbEnt → (State × List RsbEnt) ⊕ (State × Nat × XRes)
  | [] => .inl (s, [])
  | e :: es =>
    if !e.carried then (match recarry s c asid es with | .inl (s1, xs) => .inl (s1, e :: xs) | .inr r => .inr r)
    else
      match dieXlate s c asid e.va with
      | (.ok t, s1) =>
        let p := t.piece e.va 32
        let e' := if t.w && e.fits t then e.again p else { e with stale := true }
        match recarry s1 c asid es with
        | .inl (s2, xs) => .inl (s2, e' :: xs)
        | .inr r => .inr r
      | (r, s1) => .inr (s1, e.va, r)

/-- Translates the carried entries of a batch's strands. -/
def recarryAll (s : State) (c asid : Nat) : List Nat → State ⊕ (State × Nat × XRes)
  | [] => .inl s
  | sid :: sids =>
    match nmGet s.strands sid with
    | none => recarryAll s c asid sids
    | some st =>
      match recarry s c asid st.rsb with
      | .inr r => .inr r
      | .inl (s1, rsb) => recarryAll (s1.updStrand sid fun x => { x with rsb := rsb }) c asid sids

/-- A saved strand on its new core (R87): its lane, slot and entries, its fragments in their order, region starts at their
PCs. -/
def seat (s : State) (c lane slot : Nat) (entries : List Nat) (st : Strand) : Strand :=
  let old := st.frags.map (·.1)
  let ren := fun (f : Nat) => ((old.zip entries).find? fun e => e.1 == f).map (·.2)
  { st with
    core := c, lane := lane, slot := slot, st := .pooled, kept := []
    sp := { st.sp with tsave := tsaveOf s st.job c, hfrag := st.sp.hfrag.bind ren, ufrag := st.sp.ufrag.bind ren }
    pend := st.pend.map fun (p : Pend) => { p with frag := (ren p.frag).getD p.frag }
    frags := st.frags.map fun e => ((ren e.1).getD e.1, { e.2.wakeAgain with rgn := e.2.pc, since := (s.core c).window }) }

/-- A strand rejoins its teams on its new core (R214): slots, arrivals, and phases that have completed meanwhile. -/
def rejoin (s : State) (c sid : Nat) : State :=
  match nmGet s.strands sid with
  | none => s
  | some st =>
    let s1 := st.teams.foldl (fun (s : State) e =>
      match nmGet s.teams e.1 with
      | none => s
      | some t =>
        let new := teamCores s t
        let old := new.filter fun x => x != c || decide (2 ≤ (membersOn s t c).length)
        let s2 := teamSpread (addSlot s c t.job t.num t.bidx) old new t
        if !(t.arrived.contains sid) then s2
        else
          match slotOf s2 c t.job t with
          | none => s2
          | some (n, sl) =>
            topCheck (s2.updCore c fun x => { x with slots := nmSet x.slots n (sl.arrive t) }) e.1) s
    st.frags.foldl (fun (s : State) e => match e.2.wait with
      | .tbar k p sc full =>
        if ((nmGet s.teams k).map fun t => decide (p < t.phase)).getD true then
          (let s' := unblockRgn s sid e.1; if full then dropRlb s' c sc else s')
        else s
      | .quiet sc _ => dropRlb (unblock s sid e.1) c sc
      | _ => s) s1

/-- Puts a strand's kept save area back at its new address (R79). -/
def putArea (s : State) (sid : Nat) (area : List Byte) : State :=
  match nmGet s.strands sid with
  | none => s
  | some st =>
    if area.isEmpty then s
    else
      match areaPieces s st true with
      | some ps => writeArea s sid st ps area
      | none => endJob s st.job 0x46#8 (faultRec st.job 0x46#8 0 0#32 st.core st.slot [])

/-- Seats the saved strands of a batch one after the other. -/
def seatAll (s : State) (c : Nat) : List Nat → State
  | [] => s
  | sid :: sids =>
    match nmGet s.strands sid with
    | none => seatAll s c sids
    | some st =>
      if st.st != .saved then seatAll s c sids
      else
        let (lane, slot) := pickSlot ((residents s c).map (·.slot))
        let entries := freeEntries (usedEntries s c) st.frags.length
        let s1 := s.updStrand sid (seat s c lane slot entries)
        seatAll (rejoin (putArea s1 sid st.kept) c sid) c sids

/-- BATCH_RESUME (R87, R325, R354, R448): on a core whose partition word is the launch's PART and that has room. -/
def execBatchResume (batch c tsave : Nat) (ptes : List (Nat × BitVec 64)) (s : State) : Out :=
  match nmGet s.batches batch with
  | none => .next s
  | some b =>
    match nmGet s.launches b.launch with
    | none => .next s
    | some l =>
      let x := s.core c
      let free := b.qs.all fun q => ((nmGet x.queues q.1).bind (·.batch)).isNone
      if !b.saved || b.ended || !partMatch x l.part || !free || !roomFor s c x (resumeDemand s c b) || !entriesFor s c b || decide (coreCount ≤ c) then .next s
      else
        let asid := ((nmGet s.jobs b.job).map (·.asid)).getD 0
        let fail := fun (s2 : State) (va : Nat) (r : XRes) =>
          if r == .pageFault then
            (if s.pfaults.any fun e => e.2.who == .resume batch then s
             else (({ s2 with cores := s.cores }.addFault asid va 0 0#32 (.resume batch)).2))
          else
            let cause := if r == .bad then 0x48#8 else 0x46#8
            endJob s2 b.job cause (faultRec b.job cause 0 0#32 c 0 [])
        match relock s c batch b.locks with
        | .inr none => .next s
        | .inr (some (s2, va, r)) => .next (fail s2 va r)
        | .inl s1 =>
          match recarryAll s1 c asid b.sids with
          | .inr (s2, va, r) => .next (fail s2 va r)
          | .inl s2 =>
            let s3 := placeArea s2 b.job c tsave ptes
            let scr := (firstFit (scrUsed s3 c) (scrCap (s3.core c)) b.scrSize).getD 0
            let s4 := s3.updBatch batch fun y => { y with core := c, scrBase := scr, saved := false, born := (s3.core c).cycle, qs := [], locks := [] }
            let s5 := s4.updCore c fun y => { y with queues := b.qs.foldl (fun m q => nmSet m q.1 q.2) y.queues }
            .next (dropRlb (seatAll s5 c b.sids) c .fabric)

/-! ## Flushing, draining, and the choice between them -/

/-- BATCH_FLUSH (R447): the flush that H1 chose, permitted while no strand has acted (H1 may choose again where one has); the
batch's state is discarded, and it is queued again at the head of its launch, where its wait for a place begins. -/
def execBatchFlush (batch : Nat) (s : State) : Out :=
  match nmGet s.batches batch with
  | none => .next s
  | some b =>
    let sts := b.sids.filterMap (nmGet s.strands ·)
    let gone := ((nmGet s.jobs b.job).map (·.ended)).getD true
    if !b.resident || gone || b.pre != some .flush then .next s
    else if sts.any (·.acted) then .next (s.updBatch batch fun b => { b with pre := none })
    else
      let s1 := chargeBatch s b
      let gone := fun (sid : Nat) => b.sids.contains sid
      let leave := fun (t : Team) =>
        { t with ranks := t.ranks.filter (fun r => match r.2 with | .member sid => !gone sid | .vacated => true), arrived := t.arrived.filter fun x => !gone x }
      let s2 := { s1 with
        cur := s1.cur.filter fun x => !gone x.1
        strands := s1.strands.filter fun e => !gone e.1
        batches := nmDel s1.batches batch
        cores := nmSet s1.cores b.core ((s1.core b.core).free batch b.job [])
        teams := s1.teams.map fun (e : Nat × Team) => if e.2.job == b.job && e.2.bidx.isNone then (e.1, leave e.2) else e
        launches := nmUpd s1.launches b.launch fun l => { l with requeue := b.idx :: l.requeue, since := hostTime s }
        pfaults := s1.pfaults.filter fun e => match e.2.who with
          | .region sid _ | .fetch sid _ | .plain sid _ | .tail sid _ => !gone sid
          | _ => true }
      let cs := s2.cores.map fun (e : Nat × Core) => (e.1, { e.2 with slots := e.2.slots.filter fun y => !(y.2.job == b.job && y.2.bidx == some batch) })
      let s3 := State.dropTeams { s2 with cores := cs } fun _ t => t.bidx == some batch
      .next ((nmKeys s3.teams).foldl teamPrune s3)

/-- BATCH_DRAIN (R447): H1 waits for a resident batch to finish. -/
def execBatchDrain (batch : Nat) (s : State) : Out :=
  .next (s.updBatch batch fun b => if b.resident then { b with pre := some .drain } else b)

/-- The size S of a batch's saved record (R447, R448). -/
def savedSize (s : State) (bid : Nat) (b : Batch) : Nat :=
  match nmGet s.jobs b.job with
  | none => 0
  | some j =>
    let x := s.core b.core
    let qs := (x.queues.filter fun q => q.2.batch == some bid).foldl (fun n q => n + 132 * q.2.ents.length) 0
    ((b.sids.filterMap (nmGet s.strands ·)).filter fun st => st.resident).foldl (fun n st => n + (saveRecord j b st).length) 0
      + b.scrSize + qs + 32 * (x.locks.filter (·.batch == bid)).length

/-- An action of R447 on a batch, with its delay and waste in core cycles. -/
structure PreAct where
  batch : Nat
  act : Preempt
  delay : Rat
  waste : Rat
  deriving DecidableEq, Repr

def Preempt.rank : Preempt → Nat
  | .drain => 0
  | .save => 1
  | .flush => 2

/-- The permitted actions on a batch (R447). -/
def preActs (s : State) (bid : Nat) (b : Batch) : List PreAct :=
  let a : Rat := ((s.core b.core).cycle - b.born : Nat)
  let e : Rat := match nmGet s.launches b.launch with
    | some l => if l.done = 0 then 2 * a else (l.cycles : Rat) / (l.done : Rat)
    | none => 2 * a
  let sz : Rat := savedSize s bid b
  let sts := b.sids.filterMap (nmGet s.strands ·)
  let live := ((nmGet s.jobs b.job).map (·.hasLive)).getD false
  let coll := s.dies.any fun d => d.2.coll.any (·.batch == bid)
  [⟨bid, .drain, if e < a then 0 else e - a, 0⟩]
    ++ (if live && sts.all (fun st => st.faults.isEmpty) && !coll then [⟨bid, .save, sz / 32, 2 * sz / 32⟩] else [])
    ++ (if sts.any (·.acted) then [] else [⟨bid, .flush, 1024, a⟩])

/-- The least by a key, the first on a tie. -/
def leastBy (key : PreAct → Rat × Nat) (xs : List PreAct) : Option PreAct :=
  xs.foldl (fun m x => match m with
    | some y => if (key x).1 < (key y).1 ∨ ((key x).1 = (key y).1 ∧ (key x).2 < (key y).2) then some x else m
    | none => some x) none

/-- LATENCY_BOUND_EXPIRE (R447): a batch with a bound has not been placed within it; H1 chooses among the resident batches
of lower priority on the cores that would suit it, one action for one expiry: the bound runs again from the choice (log 52). -/
def execLatencyBoundExpire (launch : Nat) (s : State) : Out :=
  match nmGet s.launches launch with
  | none => .next s
  | some l =>
    let bound := 700 * l.lbound
    if l.lbound = 0 ∨ !startable s launch l ∨ hostTime s < l.since + bound ∨ (List.range 8).any (fun d => (findCore s launch l d).isSome) then .next s
    else
      let victims := s.batches.filter fun e => e.2.resident && e.2.pre.isNone && partMatch (s.core e.2.core) l.part
        && ((nmGet s.launches e.2.launch).map fun y => decide (y.prio < l.prio)).getD false
      let acts := victims.flatMap fun e => preActs s e.1 e.2
      let pick := match leastBy (fun x => (x.waste, x.act.rank)) (acts.filter fun x => decide (x.delay ≤ (bound : Rat))) with
        | some x => some x
        | none => leastBy (fun x => (x.delay, x.act.rank)) acts
      match pick with
      | none => .next s
      | some x =>
        .next { s.updBatch x.batch fun b => { b with pre := some x.act } with
          launches := nmUpd s.launches launch fun l => { l with since := hostTime s } }

end Sys2Proof.Machine
end

