-- ==== Sys2Proof/Machine/Host.lean ====
section
/-!
DEFINITION. The host's accesses and firmware's services: page faults (R308, R322, R324), software traps (R163, R454), debugging
(R170), mailboxes (R442), teardown (R449), access tables (R450), module reset (R452), and register writes (R6).
-/
namespace Sys2Proof.Machine

/-! ## Page faults -/

/-- What H2's service of a fault comes to: the page is resident, the service waits, or an access table refuses it (R450). -/
inductive Served
  | done (s : State)
  | wait
  | refused (s : State)

/-- Copies a frame of M: the new frame holds what the old one held. -/
def copyFrame (m : List Host.Cell) (old new size : Nat) : List Host.Cell :=
  let src := m.filter fun e => decide (old ≤ e.1) && decide (e.1 < old + size)
  src.foldl (fun m e => spPut m (new + (e.1 - old)) e.2) (clearCells m new size)

/-- Writes on their way to a frame: buffered under its translation (a stale sector is translated again), performed past the
buffer, in a die's L2, or in a line for it. -/
def frameBusy (s : State) (lo len : Nat) : Bool :=
  let hit := fun (k : Nat) => decide (lo ≤ k) && decide (k < lo + len)
  let crosses := fun (k n : Nat) => decide (lo < k + n) && decide (k < lo + len)
  let fly := fun (p : Pend) => match p.op with | .store as => as.any (fun a => a.ps.any fun x => crosses (pkey x.home x.pa) x.len) | _ => false
  s.strands.any (fun e => e.2.rsb.any (fun r => !r.stale && hit (pkey r.home r.pa)) || e.2.pend.any fly)
    || s.dies.any (fun e => e.2.p.any fun w => hit w.pa)
    || s.cores.any (fun e => e.2.wcb.any fun l => l.bytes.any fun b => hit (pkey l.home (l.pa + b.1)))
    || s.fab.pkts.any fun k => match k.body with | .line _ bs _ => bs.any fun b => hit (pkey (k.dst + 1) b.1) | _ => false

/-- The page of a snapshot that a fault's translation gives, and that has not moved to its new frame (R453). -/
def cowPage (s : State) (asid : Nat) (e : Tlb) : Option Tlb :=
  (s.host.snaps.flatMap fun n => n.2.pages).find? fun t => t.asid == asid && t.base == e.base && t.size == e.size

/-- H2 makes the page of a fault resident (R308): the words it writes must map the address; a page of a snapshot gets a new
frame with the old one's bytes (R453). Nothing where they do not; a copy that H2's table refuses is reported and not made. -/
def makeResident (s : State) (pf : PFault) (ws : List (Nat × W64)) : Served :=
  let s1 := ws.foldl (fun s e => hartWrite s 2 e.1 (leBytes 8 e.2.toNat)) s
  match walk s1 pf.asid pf.va with
  | .ok e =>
    match cowPage s pf.asid e with
    | none => .done s1
    | some t =>
      let (lo, new) := (pkey t.home t.pa, pkey e.home e.pa)
      if lo = new ∨ frameBusy s1 lo t.size then .wait
      else if !hartMay s1 2 lo t.size false then .refused (hartDenied s 2 lo false)
      else if !hartMay s1 2 new t.size true then .refused (hartDenied s 2 new true)
      else
        .done { s1 with
          mem := copyFrame s1.mem lo new t.size
          host := { s1.host with snaps := s1.host.snaps.map fun n => (n.1, { n.2 with pages := n.2.pages.filter (· != t) }) } }
  | .bad => .done s1
  | _ => .wait

/-- A fragment that waited for the service of a fault is READY at its PC. -/
def wakeFault (s : State) (sid f n : Nat) : State :=
  let mine := ((nmGet s.strands sid).bind fun st => nmGet st.frags f).map fun (fr : Frag) => fr.wait == .fault n
  if mine.getD false then s.ready sid f else s

/-- What follows a resolved fault (R308): fragments at a region start wait for REGION_RESTART; a fault in an unsafe tail
raises REGION_UNSAFE (R324). -/
def resolved (s : State) (n : Nat) (pf : PFault) : State :=
  match pf.who with
  | .region _ _ => s
  | .fetch sid f | .plain sid f => wakeFault s sid f n
  | .tail sid f =>
    let mine := ((nmGet s.strands sid).bind fun st => nmGet st.frags f).map fun (fr : Frag) => fr.wait == .fault n
    if mine.getD false then raiseUser (s.ready sid f) sid f 0x45#8 none else s
  | .eng c g id => engUpd s c g id fun (x : EngCmd) => { x with wait := none }
  | .mat d id => s.updDie d fun x => { x with mat := x.mat.map fun (m : MatCmd) => if m.id == id then { m with susp := none } else m }
  | .mark _ _ | .coll _ _ | .resume _ | .held _ _ => s

/-- The end of a strand's job by UNMAPPED, with the PC and mask of the access (R308, R460). -/
def unmappedAt (s : State) (sid : Nat) (pf : PFault) : State :=
  match nmGet s.strands sid with
  | none => s
  | some st => endJob s st.job 0x46#8 (faultRec st.job 0x46#8 pf.pc pf.mask st.core st.slot [])

/-- The end of a blocked command's job by UNMAPPED at its instruction. -/
def unmappedCmd (s : State) (sid f : Nat) : State := endJobAt s sid f 0x46#8 []

/-- What follows an address that H2 declares unmapped (R308): the job ends, or an engine or collective command ends by
R255. -/
def unmapped (s : State) (pf : PFault) : State :=
  match pf.who with
  | .region sid _ | .fetch sid _ | .plain sid _ | .tail sid _ => unmappedAt s sid pf
  | .eng c g id => engUpd s c g id fun (x : EngCmd) => { x with wait := none, status := 0x46#8 }
  | .mat d id =>
    match (s.die d).mat.find? (·.id == id) with
    | some m => endJob s m.job 0x46#8 (originRec m.job 0x46#8 m.by_ [])
    | none => s
  | .mark c id =>
    match (s.core c).markQ.find? (·.id == id) with
    | some q => unmappedCmd (markDrop s c q.id) q.sid q.frag
    | none => s
  | .coll d id =>
    match (s.die d).coll.find? (·.id == id) with
    | some c => collFail s d c 0x46#8
    | none =>
      match (cmdQueue s ((List.range 144).map (144 * d + ·)) CmdReq.isColl).find? fun e => e.1 == id with
      | some (_, sid, f, _) => unmappedCmd s sid f
      | none => s
  | .held sid n =>
    match nmGet s.strands sid with
    | some st => heldEnd s sid st n 0x46#8
    | none => s
  | .resume b =>
    match nmGet s.batches b with
    | some x => endJob s x.job 0x46#8 (faultRec x.job 0x46#8 0 0#32 x.core 0 [])
    | none => s

/-- PAGE_FAULT_SERVICE (R308). -/
def execPageFaultService (n : Nat) (res : Option (List (Nat × W64))) (s : State) : Out :=
  match nmGet s.pfaults n with
  | none => .next s
  | some pf =>
    match res with
    | some ws =>
      match makeResident s pf ws with
      | .wait => .next s
      | .refused s1 => .next s1
      | .done s1 => .next (resolved { s1 with pfaults := nmDel s1.pfaults n } n pf)
    | none => .next (unmapped { s with pfaults := nmDel s.pfaults n } pf)

/-- REGION_RESTART (R322): every fragment of the strand becomes READY at its region start, once its faults are served and its
marks have cleared; one whose region starts where it joins others waits for them there (R67). -/
def execRegionRestart (sid : Nat) (s : State) : Out :=
  match nmGet s.strands sid with
  | none => .next s
  | some st =>
    let open_ := st.frags.any fun e => match e.2.wait with | .fault n => (nmGet s.pfaults n).isSome | _ => false
    if open_ || st.abort.isSome || st.anyTracked || !st.resident then .next s
    else
      .next (joinAll (st.frags.foldl (fun s e => match e.2.wait with
        | .fault _ => if e.2.st == .stopped then s.ready sid e.1 else s
        | _ => s) s) sid)

/-! ## Traps, breakpoints, mailboxes -/

/-- The fragment and its strand. -/
def fragOf (s : State) (sid f : Nat) : Option (Strand × Frag) :=
  (nmGet s.strands sid).bind fun st => (nmGet st.frags f).map fun fr => (st, fr)

/-- The end of a job by TRAP_END (R454): the exit code is the k56 that the record holds since the trap reached H3 (R459). -/
def trapEnd (s : State) (job : Nat) (k : W64) : State :=
  endJob (s.updJob job fun j => if j.ended then j else { j with exitCode := k }) job 0xF8#8 []

/-- FIRMWARE_TRAP_SERVICE (R163, R454). The log pair of a hart's own job goes to no queue (log 41). -/
def execFirmwareTrapService (sid f : Nat) (s : State) : Out :=
  match fragOf s sid f with
  | none => .next s
  | some (st, fr) =>
    match fr.wait with
    | .trapStop n k =>
      if n = 8 then .next (trapEnd s st.job k)
      else if n = 9 then (if st.resident then .next (unblock s sid f) else .next s)
      else if n = 10 then
        match (s.job? st).bind fun j => nmGet s.launches j.launch with
        | none => .next s
        | some l =>
          if l.fn = hartFn then (if st.resident then .next (unblock s sid f) else .next s)
          else
            let c : Compl := { value := st.r.rdK 56, tag := l.tag, head := l.head, status := 0x06#8, irq := false, kind := .log sid f (st.r.rdK 57) }
            .next (pushCompl (s.updFrag sid f fun x => { x with wait := .logPair }) (qkey l.fn l.q) c)
      else .next (endJob s st.job (0xF0#8 + BitVec.ofNat 8 n) [])
    | _ => .next s

/-- FIRMWARE_RESUME (R163, R454): a fragment stopped at TRAP_YIELD goes on at the next word. -/
def execFirmwareResume (sid f : Nat) (s : State) : Out :=
  match fragOf s sid f with
  | some (st, fr) => if (match fr.wait with | .trapStop 9 _ => true | _ => false) && st.resident then .next (unblock s sid f) else .next s
  | none => .next s

/-- DEBUG_RESUME (R170). -/
def execDebugResume (sid f : Nat) (endIt : Bool) (s : State) : Out :=
  match fragOf s sid f with
  | some (st, fr) =>
    if fr.wait != .debugStop then .next s
    else if endIt then .next (endJob s st.job 0x00#8 [])
    else if st.resident then .next (unblock s sid f) else .next s
  | none => .next s

/-- MAILBOX_MESSAGE (R442): a hart sends a message to another's mailbox, or takes its oldest; a hart with a message that waits
for a full mailbox does neither until that message has entered. -/
def execMailboxMessage (src dst : Nat) (msg : Option (BitVec 256)) (s : State) : Out :=
  let who := if msg.isSome then src else dst
  if 8 ≤ dst || 8 ≤ who || s.host.mailWait.any (fun e => e.1 == who) then .next s
  else
    match msg with
    | some m => .next (mailPut s src dst m)
    | none => if ((nmGet s.host.mail dst).getD []).isEmpty then .next s else .next (mailTake s dst)

/-! ## Teardown -/

/-- The queues of a PASID become dying (R441, R449). -/
def dyingQueues (s : State) (pasid : Nat) : State :=
  { s with host := { s.host with queues := s.host.queues.map fun (e : Nat × HQueue) =>
      (e.1, if e.2.pasid.toNat == pasid then { e.2 with dying := true } else e.2) } }

/-- A launch with no batch placed completes with TORN, and its job goes (R449). -/
def tearLaunch (s : State) (key : Nat) : State :=
  match nmGet s.launches key with
  | none => s
  | some l =>
    match nmGet s.jobs l.job with
    | none => s
    | some jb =>
      pushCompl (jobGone s l.job jb) (qkey l.fn l.q)
        { value := 0#64, tag := l.tag, head := l.head, status := 0x02#8, irq := l.irq, kind := .plain }

/-- PASID_TEARDOWN (R449): H0 stops fetching, H3 ends the jobs whose batches H1 has placed, the other launches are torn. -/
def execPasidTeardown (pasid : Nat) (s : State) : Out :=
  if s.host.dying.contains pasid then .next s
  else
    let s1 := dyingQueues s pasid
    let s2 := { s1 with host := { s1.host with
      dying := s1.host.dying ++ [pasid], tearOut := nmSet s1.host.tearOut pasid ((nmGet s1.host.tearOut pasid).getD 0) } }
    match nmGet s2.host.asids pasid with
    | none => .next s2
    | some asid =>
      let mine := s2.launches.filter fun e => e.2.asid == asid
      let s3 := mine.foldl (fun s e => if e.2.live then endJob s e.2.job 0x00#8 [] else tearLaunch s e.1) s2
      .next s3

/-- TEARDOWN_TIMEOUT (R449): the requests have returned, or 2^24 cycles of H0 have passed, and a response that is still to come is
discarded: the invalidation starts; once it has completed, the address space is freed. A PASID without an address space has nothing to invalidate. -/
def execTeardownTimeout (pasid : Nat) (s : State) : Out :=
  if !s.host.dying.contains pasid then .next s
  else
    let asid := nmGet s.host.asids pasid
    match nmGet s.host.tearOut pasid with
    | some _ =>
      let s1 := { s with host := { s.host with
        tearOut := nmDel s.host.tearOut pasid
        queues := s.host.queues.map fun (e : Nat × HQueue) =>
          (e.1, if e.2.pasid.toNat == pasid then { e.2 with asked := false } else e.2) } }
      .next (match asid with | some a => startTinv s1 none a true 0 0 | none => s1)
    | none =>
      if s.tinvs.any (fun t => some t.asid == asid && t.whole) || s.jobs.any (fun e => some e.2.asid == asid) then .next s
      else
        .next { s with
          roots := match asid with | some a => spPut s.roots a 0#64 | none => s.roots
          host := { s.host with
            dying := s.host.dying.erase pasid, asids := nmDel s.host.asids pasid, snaps := nmDel s.host.snaps pasid
            queues := s.host.queues.map fun (e : Nat × HQueue) =>
              (e.1, if e.2.pasid.toNat == pasid then { e.2 with dying := false, on := false } else e.2) } }

/-! ## Access tables and the host's accesses -/

/-- ACCESS_TABLE_WRITE (R450): H5 writes a window. -/
def execAccessTableWrite (unit master win : Nat) (w : AccWin) (s : State) : Out :=
  if 16 ≤ win then .next s
  else .next { s with host := { s.host with access := nmSet s.host.access (accKey unit master win) w } }

/-- HOST_ACCESS_DENIED (R450). -/
def execHostAccessDenied (fn unit pa : Nat) (wr : Bool) (s : State) : Out :=
  if admitted s unit fn pa 1 wr then .next s else .next (hostDenied s fn unit pa 1 wr)

/-- HOST_CXL_MEM_ACCESS (R440, R450): a write enters the module's memory, a read gives its bytes, where the table of the
address's region controller admits it; absent memory is as log 3 says. A module whose records did not verify has no memory to offer (R452). -/
def execHostCxlMemAccess (fn unit pa len : Nat) (wr : Option (List Byte)) (s : State) : Out :=
  if !s.host.launchOk || decide (128 < fn) || decide (2 ^ 52 < pa + len) || unit != Config.regionOf pa || wr.any (fun bs => bs.length != len) then .next s
  else if !admitted s unit fn pa len wr.isSome then .next (hostDenied s fn unit pa len wr.isSome)
  else
    match wr with
    | some bs => .next { s with mem := wrMN s.mem pa bs }
    | none => .next (s.hostReads (rdMN s.mem pa len))

/-- HART_DENIED (R450). -/
def execHartDenied (hart unit pa : Nat) (wr : Bool) (s : State) : Out :=
  if admitted s unit (masterHart hart) pa 1 wr then .next s else .next (s.event 0xE4#8 [hart, unit, pa, wr.toNat])

/-! ## Reset and register writes -/

/-- MODULE_RESET (R441, R451, R452): every register takes its reset value; the billing counters, with the cycles of the batches that
were resident, and the host's memory stay;
the configuration record names the module; launches run only if the records verified. -/
def execModuleReset (recordsOk : Bool) (id : BitVec 12) (s : State) : Out :=
  let s := (s.batches.filter (·.2.resident)).foldl (fun s e => chargeBatch s e.2) s
  .next { State.reset with
    module := id
    agenda := s.agenda
    freeCtr := s.freeCtr
    host := { Hostside.reset with
      mem := s.host.mem, images := s.host.images, record := s.host.record, bills := s.host.bills, reports := s.host.reports, prev := s.host.prev, launchOk := recordsOk } }

/-- An attestation quote (R452): the signature over the digest of the harts' firmware images, the configuration record and the
host's nonce of 32 bytes (log 12). -/
def attestQuote (s : State) (nonce : List Byte) : BitVec 512 :=
  Config.sm2 s.module.toNat (leBytes 32 (Config.sm3 (s.host.images.flatten ++ s.host.record ++ nonce)).toNat)

/-- Selects the source of an event counter (R455): cores, dies, Vats and fabric ports from 0, 0x1000, 0x2000 and 0x3000 on
(log 57). -/
def setEvtSource (s : State) (unit n x : Nat) : State :=
  if unit < 0x1000 then (if n < 16 && decide (unit < coreCount) then s.updCore unit fun c => { c with src := nmSet c.src n x } else s)
  else if unit < 0x2000 then (if n < 32 && decide (unit - 0x1000 < 8) then s.updDie (unit - 0x1000) fun d => { d with src := nmSet d.src n x } else s)
  else if unit < 0x3000 then (if n < 8 && decide (unit - 0x2000 < 512) then s.updVat (unit - 0x2000) fun v => { v with src := nmSet v.src n x } else s)
  else if n < 8 && decide (unit - 0x3000 < 16) then { s with fab := { s.fab with src := nmSet s.fab.src ((unit - 0x3000) * 8 + n) x } } else s

/-- Where a register stands and who writes it (R441, R446, R363, R329, R414, R455, R298, log 60). -/
def regAt : RegName → RegAt
  | .sqbase fn q => barAt fn (0x40 * q) 8
  | .cqbase fn q => barAt fn (0x40 * q + 0x08) 8
  | .sqsize fn q => barAt fn (0x40 * q + 0x10) 4
  | .cqsize fn q => barAt fn (0x40 * q + 0x14) 4
  | .weight fn q => barAt 0 (0x2000 + 8 * qkey fn q) 8
  | .keyChunks => hartAt 2 [0x5000] 0 8
  | .screenRate d => hartAt 3 [0x1000 + d] 0 8
  | .blockedLimit => hartAt 4 [0x3000] 0 8
  | .evtSource u _ => hartAt 7 [u] 0 8
  | .readOnly _ off => { master := 0, blocks := [], off := off, len := 8 }
  | .asidRoot a => hartAt 2 ((List.range 8).map (0x1000 + ·)) (8 * a) 8

/-- What a register takes from a write (R6): reserved bits are discarded; a value out of a field's range, and a write to a
read-only register, has no effect. -/
def regPut (r : RegName) (v : W64) (s : State) : State :=
  let n := v.toNat
  let bar := fun (fn q : Nat) (g : HQueue → HQueue) => if barOk s fn q then s.updQueue (qkey fn q) g else s
  match r with
  | .sqbase fn q => bar fn q fun x => { x with sqbase := v }
  | .cqbase fn q => bar fn q fun x => { x with cqbase := v }
  | .sqsize fn q => bar fn q fun x => { x with sqsize := v.setWidth 13 }
  | .cqsize fn q => bar fn q fun x => { x with cqsize := v.setWidth 13 }
  | .weight fn q => if 1 ≤ n ∧ n ≤ 65535 then bar fn q fun x => { x with weight := n } else s
  | .keyChunks =>
    if 1 ≤ n ∧ n ≤ 4 ∧ s.jobs.all (fun e => e.2.nw == 0) then { s with host := { s.host with keyChunks := n } } else s
  | .screenRate d => if n ≤ 2 ^ 20 ∧ d < 8 then s.updDie d fun x => { x with screen := n } else s
  | .blockedLimit => if 2 ^ 10 ≤ n ∧ n ≤ 2 ^ 24 then { s with fab := { s.fab with limit := n } } else s
  | .evtSource u i => setEvtSource s u i n
  | .readOnly _ _ => s
  | .asidRoot a => if a < 65536 then { s with roots := spPut s.roots a (w64n (bitsOf n 51 12 * 4096 + n % 2)) } else s

/-- REGISTER_WRITE (R6, R450): the register takes the write where the access table of its block admits it. -/
def execRegisterWrite (r : RegName) (v : W64) (s : State) : Out := .next (s.regWrite (regAt r) (regPut r v))

end Sys2Proof.Machine
end

