-- ==== Sys2Proof/Machine/System.lean ====
section
/-!
DEFINITION. The system instructions: traps and returns (R163, R164), special registers (R165 to R168), SLEEP and BRK
(R169, R170).
-/
namespace Sys2Proof.Machine

/-- The record of a trap that ends the job, as H3 logs it when the cause reaches it (R454, R459, R460); traps 9 and 10 end none. -/
def trapRec (st : Strand) (fr : Frag) (n : Nat) : List W64 :=
  if n = 8 then [w64n (st.job * 2 ^ 48 + 0xF8 * 2 ^ 40 + 2), w64n fr.pc.toNat, st.r.rdK 56]
  else if n = 9 ∨ n = 10 then []
  else faultRec st.job (0xF0#8 + BitVec.ofNat 8 n) fr.pc.toNat fr.mask st.core st.slot []

/-- TRAP (R163): a user cause for n below 8, otherwise the fragment stops for H3 (R454), which records the cause (R459). -/
def execTrap (h : Hdr) (n : BitVec 4) (s : State) : Out :=
  issue h (uses [] []) s fun c s =>
    if (c.acts h).isEmpty then .next (advance s c.sid c.f h)
    else
      let cause := 0xF0#8 + n.setWidth 8
      if n.toNat < 8 then trapOut s c cause
      else .next ((s.log c.st.job (trapRec c.st c.fr n.toNat)).updFrag c.sid c.f fun fr =>
        { fr with st := .stopped, wait := .trapStop n.toNat (c.st.r.rdK 56) })

/-- Whether ERET after a cause resumes at the next word (R62, R164, R458). -/
def eretSkips (cause : BitVec 8) : Bool :=
  !([0x04#8, 0x07#8, 0x20#8, 0x43#8, 0x45#8, 0x61#8, 0x62#8, 0x65#8, 0x84#8].contains cause)

/-- ERET (R83, R164). -/
def execEret (h : Hdr) (s : State) : Out :=
  issue h (uses [] []) s fun c s =>
    if c.st.sp.hstate.getLsbD 0 == false || c.st.sp.hfrag != some c.f then supOut s c 0x08#8
    else if c.st.anyTracked then .next (s.updFrag c.sid c.f fun fr => { fr with st := .stalled, wait := .marks })
    else
      let pc := if eretSkips c.st.sp.hcause then c.st.sp.epc + 12#57 else c.st.sp.epc
      .next (leaveHandler s c.sid c.f pc (fun sp => { sp with hstate := sp.hstate &&& 2#2, hfrag := none }) h)

/-- IRET (R83, R164). -/
def execIret (h : Hdr) (s : State) : Out :=
  issue h (uses [] []) s fun c s =>
    if c.st.sp.hstate.getLsbD 1 == false || c.st.sp.ufrag != some c.f then supOut s c 0x08#8
    else if c.st.anyTracked then .next (s.updFrag c.sid c.f fun fr => { fr with st := .stalled, wait := .marks })
    else
      .next (leaveHandler s c.sid c.f c.st.sp.uepc (fun sp => { sp with hstate := sp.hstate &&& 1#2, ufrag := none }) h)

/-- The value of a special register for thread t (R76, R165). -/
def sregVal (s : State) (c : Ctx) (r : SReg) (t : Nat) : Nat :=
  let st := c.st
  let b := nmGet s.batches st.batch
  match r with
  | .tid => t
  | .sidx => st.sidx
  | .bsize => (b.map (·.size)).getD 0
  | .bidx => (b.map (·.pos.1)).getD 0
  | .bidy => (b.map (·.pos.2.1)).getD 0
  | .bidz => (b.map (·.pos.2.2)).getD 0
  | .lane => st.lane
  | .core => st.core
  | .module => s.module.toNat
  | .slot => st.slot
  | .job => st.job
  | .mask => c.fr.mask.toNat
  | .dmask => st.sp.dmask.toNat
  | .fmask => st.sp.fmask.toNat
  | .xmask => st.sp.xmask.toNat
  | .valloc => st.r.valloc
  | .kalloc => st.r.kalloc
  | .malloc => st.r.malloc
  | .aalloc => st.r.aalloc
  | .cycle => (s.core st.core).cycle % 2 ^ 64
  | .ctl => st.sp.ctl.toNat
  | .mflag => st.sp.mflag.toNat
  | .fflag => st.sp.fflag.toNat
  | .mrow => st.sp.mrow.toNat
  | .evec => st.sp.evec.toNat
  | .uvec => st.sp.uvec.toNat
  | .uepc => st.sp.uepc.toNat
  | .tsave => st.sp.tsave.toNat
  | .hstate => st.sp.hstate.toNat
  | .ecause => st.sp.ecause.toNat
  | .epc => st.sp.epc.toNat
  | .eopc => st.sp.eopc.toNat
  | .emod => st.sp.emod.toNat
  | .efd => st.sp.efd.toNat
  | .efa => st.sp.efa.toNat
  | .efb => st.sp.efb.toNat
  | .egrd => st.sp.egrd.toNat

/-- SRD (R165). -/
def execSrd (h : Hdr) (b64 : Bool) (d a : Opnd) (s : State) : Out :=
  let ty : Ty := if b64 then .b64 else .b32
  laneOp h 2 (uses (refsOf d b64) []) s fun c =>
    match a with
    | .s r =>
      valRes0 c h d ty fun t =>
        let x := sregVal s c r (match d with | .k _ => c.leader.getD 0 | _ => t)
        if b64 then x else x % 2 ^ 32
    | _ => .ok [] flNone false

/-- Writes a special register (R76, R77, R166): bits above its width are discarded, a W1C register clears the bits
written as 1, a read-only one does not change. -/
def Spec.write (sp : Spec) (r : SReg) (x : Nat) : Spec :=
  match r with
  | .ctl => { sp with ctl := BitVec.ofNat 4 x }
  | .mflag => { sp with mflag := sp.mflag &&& ~~~(BitVec.ofNat 1 x) }
  | .fflag => { sp with fflag := sp.fflag &&& ~~~(BitVec.ofNat 5 x) }
  | .mrow => { sp with mrow := BitVec.ofNat 7 x }
  | .evec => { sp with evec := BitVec.ofNat 57 x }
  | .uvec => { sp with uvec := BitVec.ofNat 57 x }
  | .uepc => { sp with uepc := BitVec.ofNat 57 x }
  | .ecause => { sp with ecause := BitVec.ofNat 8 x }
  | .epc => { sp with epc := BitVec.ofNat 57 x }
  | .eopc => { sp with eopc := BitVec.ofNat 10 x }
  | .emod => { sp with emod := BitVec.ofNat 11 x }
  | .efd => { sp with efd := BitVec.ofNat 21 x }
  | .efa => { sp with efa := BitVec.ofNat 21 x }
  | .efb => { sp with efb := BitVec.ofNat 21 x }
  | .egrd => { sp with egrd := BitVec.ofNat 12 x }
  | _ => sp

/-- SWR's source value (R166). -/
def swrVal (c : Ctx) (b64 : Bool) (a : Opnd) : Nat :=
  c.st.r.src (if b64 then .b64 else .b32) (c.leader.getD 0) a

/-- SWR (R166, R167). -/
def execSwr (h : Hdr) (b64 : Bool) (d a : Opnd) (s : State) : Out :=
  issue h (uses [] (refsOf a b64)) s fun c s =>
    match d, c.acts h with
    | .s r, _ :: _ =>
      .next (advance (s.updStrand c.sid fun st => { st with sp := st.sp.write r (swrVal c b64 a) }) c.sid c.f h)
    | _, _ => .next (advance s c.sid c.f h)

/-- SLEEP (R169). -/
def execSleep (h : Hdr) (a : Opnd) (s : State) : Out :=
  issue h (uses [] (refsOf a false)) s fun c s =>
    let n := c.st.r.uni32 a
    if (c.acts h).isEmpty then .next (advance s c.sid c.f h)
    else if n = 0 then .next (advance { s with cores := yieldMark s.cores c } c.sid c.f h)
    else .next (s.updFrag c.sid c.f fun fr => { fr with st := .blocked, wait := .sleep n, evt := w64n n, gap := max h.stall.toNat 1 })

/-- BRK (R170): H7's report is a message of the event log's harts, kept in H7's mailbox. -/
def execBrk (h : Hdr) (n : BitVec 8) (s : State) : Out :=
  issue h (uses [] []) s fun c s =>
    let dbg := (((s.job? c.st).bind fun j => nmGet s.launches j.launch).map (·.debug)).getD false
    if !dbg || (c.acts h).isEmpty then .next (advance s c.sid c.f h)
    else
      let msg : BitVec 256 := BitVec.ofNat 256 (c.st.job + c.st.slot * 2 ^ 16 + c.fr.pc.toNat * 2 ^ 32 + n.toNat * 2 ^ 96)
      let s1 := s.updFrag c.sid c.f fun fr => { fr with st := .stopped, wait := .debugStop }
      .next (mailPut s1 8 7 msg)

end Sys2Proof.Machine
end

