-- ==== Sys2Proof/Machine/Dispatch.lean ====
section
/-!
DEFINITION. The dispatch of every constructor of Instr to its meaning.
-/
namespace Sys2Proof.Machine

def exec (i : Instr) (s : State) : Host.Outcome State Fault Refusal :=
  match i with
  | .iadd h ty md d src => Sys2Proof.Machine.execIadd h ty md d src s
  | .isub h ty md d src => Sys2Proof.Machine.execIsub h ty md d src s
  | .imul h ty sat d src => Sys2Proof.Machine.execImul h ty sat d src s
  | .imulh h ty d a b => Sys2Proof.Machine.execImulh h ty d a b s
  | .imad h ty sat d a b => Sys2Proof.Machine.execImad h ty sat d a b s
  | .imin h ty d src => Sys2Proof.Machine.execImin h ty d src s
  | .imax h ty d src => Sys2Proof.Machine.execImax h ty d src s
  | .iabs h ty sat d a => Sys2Proof.Machine.execIabs h ty sat d a s
  | .ineg h ty sat d a => Sys2Proof.Machine.execIneg h ty sat d a s
  | .and h ty d src => Sys2Proof.Machine.execAnd h ty d src s
  | .or h ty d src => Sys2Proof.Machine.execOr h ty d src s
  | .xor h ty d src => Sys2Proof.Machine.execXor h ty d src s
  | .andn h ty d src => Sys2Proof.Machine.execAndn h ty d src s
  | .not h ty d a => Sys2Proof.Machine.execNot h ty d a s
  | .shl h ty d a b => Sys2Proof.Machine.execShl h ty d a b s
  | .shr h ty d a b => Sys2Proof.Machine.execShr h ty d a b s
  | .sar h ty d a b => Sys2Proof.Machine.execSar h ty d a b s
  | .rol h ty d a b => Sys2Proof.Machine.execRol h ty d a b s
  | .popc h ty d a => Sys2Proof.Machine.execPopc h ty d a s
  | .clz h ty d a => Sys2Proof.Machine.execClz h ty d a s
  | .ctz h ty d a => Sys2Proof.Machine.execCtz h ty d a s
  | .brev h ty d a => Sys2Proof.Machine.execBrev h ty d a s
  | .bfx h ty d a b => Sys2Proof.Machine.execBfx h ty d a b s
  | .bfi h ty d a b => Sys2Proof.Machine.execBfi h ty d a b s
  | .lea h ty sh d a b => Sys2Proof.Machine.execLea h ty sh d a b s
  | .mov h ty d a => Sys2Proof.Machine.execMov h ty d a s
  | .movi h ty d src => Sys2Proof.Machine.execMovi h ty d src s
  | .sel h ty q neg d a b => Sys2Proof.Machine.execSel h ty q neg d a b s
  | .icmp h ty c d a b => Sys2Proof.Machine.execIcmp h ty c d a b s
  | .fadd h ty rnd sat x2 d src => Sys2Proof.Machine.execFadd h ty rnd sat x2 d src s
  | .fsub h ty rnd sat x2 d src => Sys2Proof.Machine.execFsub h ty rnd sat x2 d src s
  | .fmul h ty rnd sat x2 d src => Sys2Proof.Machine.execFmul h ty rnd sat x2 d src s
  | .ffma h ty rnd sat x2 d a b => Sys2Proof.Machine.execFfma h ty rnd sat x2 d a b s
  | .fmin h ty x2 d src => Sys2Proof.Machine.execFmin h ty x2 d src s
  | .fmax h ty x2 d src => Sys2Proof.Machine.execFmax h ty x2 d src s
  | .fabs h ty x2 d a => Sys2Proof.Machine.execFabs h ty x2 d a s
  | .fneg h ty x2 d a => Sys2Proof.Machine.execFneg h ty x2 d a s
  | .fcmp h ty c d a b => Sys2Proof.Machine.execFcmp h ty c d a b s
  | .fcls h ty d a b => Sys2Proof.Machine.execFcls h ty d a b s
  | .fscl h ty rnd sat d a b => Sys2Proof.Machine.execFscl h ty rnd sat d a b s
  | .frnd h ty rnd d a => Sys2Proof.Machine.execFrnd h ty rnd d a s
  | .frcp h ty d a => Sys2Proof.Machine.execFrcp h ty d a s
  | .frsq h ty d a => Sys2Proof.Machine.execFrsq h ty d a s
  | .fsqrt h ty rnd d a => Sys2Proof.Machine.execFsqrt h ty rnd d a s
  | .fdiv h ty rnd sat d a b => Sys2Proof.Machine.execFdiv h ty rnd sat d a b s
  | .fex2 h ty d a => Sys2Proof.Machine.execFex2 h ty d a s
  | .flg2 h ty d a => Sys2Proof.Machine.execFlg2 h ty d a s
  | .ftrg h ty cos d a => Sys2Proof.Machine.execFtrg h ty cos d a s
  | .ftnh h ty d a => Sys2Proof.Machine.execFtnh h ty d a s
  | .ferf h ty d a => Sys2Proof.Machine.execFerf h ty d a s
  | .fphi h ty d a => Sys2Proof.Machine.execFphi h ty d a s
  | .fdot h ty rnd sat d a b => Sys2Proof.Machine.execFdot h ty rnd sat d a b s
  | .cvt h rnd dt st sat d a => Sys2Proof.Machine.execCvt h rnd dt st sat d a s
  | .cvts h rnd dt st sat d a b => Sys2Proof.Machine.execCvts h rnd dt st sat d a b s
  | .pack h dt st sat d a b => Sys2Proof.Machine.execPack h dt st sat d a b s
  | .unpk h dt st sat d a b => Sys2Proof.Machine.execUnpk h dt st sat d a b s
  | .qenc h qf st d a b => Sys2Proof.Machine.execQenc h qf st d a b s
  | .qdec h ty hi qf sat d a b => Sys2Proof.Machine.execQdec h ty hi qf sat d a b s
  | .plop h tab d a b => Sys2Proof.Machine.execPlop h tab d a b s
  | .pmov h f d a b => Sys2Proof.Machine.execPmov h f d a b s
  | .ballot h d a b => Sys2Proof.Machine.execBallot h d a b s
  | .vany h d a => Sys2Proof.Machine.execVany h d a s
  | .vall h d a => Sys2Proof.Machine.execVall h d a s
  | .shfl h ty vp md d a b => Sys2Proof.Machine.execShfl h ty vp md d a b s
  | .bcst h ty vp d a b => Sys2Proof.Machine.execBcst h ty vp d a b s
  | .redx h ty op d a b => Sys2Proof.Machine.execRedx h ty op d a b s
  | .scan h ty op ex d a b => Sys2Proof.Machine.execScan h ty op ex d a b s
  | .matchx h ty vp all d a b => Sys2Proof.Machine.execMatchx h ty vp all d a b s
  | .elect h d => Sys2Proof.Machine.execElect h d s
  | .bra h off => Sys2Proof.Machine.execBra h off s
  | .brx h a => Sys2Proof.Machine.execBrx h a s
  | .call h d off => Sys2Proof.Machine.execCall h d off s
  | .ret h a => Sys2Proof.Machine.execRet h a s
  | .rcv h off => Sys2Proof.Machine.execRcv h off s
  | .exit h => Sys2Proof.Machine.execExit h s
  | .nop h => Sys2Proof.Machine.execNop h s
  | .yld h => Sys2Proof.Machine.execYld h s
  | .trap h n => Sys2Proof.Machine.execTrap h n s
  | .eret h => Sys2Proof.Machine.execEret h s
  | .iret h => Sys2Proof.Machine.execIret h s
  | .srd h b64 d a => Sys2Proof.Machine.execSrd h b64 d a s
  | .swr h b64 d a => Sys2Proof.Machine.execSwr h b64 d a s
  | .sleep h a => Sys2Proof.Machine.execSleep h a s
  | .brk h n => Sys2Proof.Machine.execBrk h n s
  | .mmov h d a => Sys2Proof.Machine.execMmov h d a s
  | .mput h d a b => Sys2Proof.Machine.execMput h d a b s
  | .mget h sel d a => Sys2Proof.Machine.execMget h sel d a s
  | .madd h cov rnd d a b => Sys2Proof.Machine.execMadd h cov rnd d a b s
  | .msub h cov rnd d a b => Sys2Proof.Machine.execMsub h cov rnd d a b s
  | .mmul h cov rnd d a b => Sys2Proof.Machine.execMmul h cov rnd d a b s
  | .mfma h cov rnd d a b => Sys2Proof.Machine.execMfma h cov rnd d a b s
  | .mscl h rnd d a b => Sys2Proof.Machine.execMscl h rnd d a b s
  | .mrlu h d a => Sys2Proof.Machine.execMrlu h d a s
  | .mexp h d a => Sys2Proof.Machine.execMexp h d a s
  | .msqr h rnd d a => Sys2Proof.Machine.execMsqr h rnd d a s
  | .mphi h d a => Sys2Proof.Machine.execMphi h d a s
  | .mclp h sel rnd d a b => Sys2Proof.Machine.execMclp h sel rnd d a b s
  | .mchk h sel d a => Sys2Proof.Machine.execMchk h sel d a s
  | .lds h ty sc kd d a b => Sys2Proof.Machine.execLds h ty sc kd d a b s
  | .sts h ty sc kd d a b => Sys2Proof.Machine.execSts h ty sc kd d a b s
  | .ld h ty sc kd d a b => Sys2Proof.Machine.execLd h ty sc kd d a b s
  | .st h ty sc kd d a b => Sys2Proof.Machine.execSt h ty sc kd d a b s
  | .ldb h ty d a b => Sys2Proof.Machine.execLdb h ty d a b s
  | .stb h ty d a b => Sys2Proof.Machine.execStb h ty d a b s
  | .pft h sc a b => Sys2Proof.Machine.execPft h sc a b s
  | .fence h sc kd => Sys2Proof.Machine.execFence h sc kd s
  | .rgn h => Sys2Proof.Machine.execRgn h s
  | .drel h d a b => Sys2Proof.Machine.execDrel h d a b s
  | .tlbp h a b => Sys2Proof.Machine.execTlbp h a b s
  | .tlbu h a => Sys2Proof.Machine.execTlbu h a s
  | .xprb h d a => Sys2Proof.Machine.execXprb h d a s
  | .tinv h d a b => Sys2Proof.Machine.execTinv h d a b s
  | .atsAdd h ty sc kd d a b => Sys2Proof.Machine.execAtsAdd h ty sc kd d a b s
  | .atsMin h ty sc kd d a b => Sys2Proof.Machine.execAtsMin h ty sc kd d a b s
  | .atsMax h ty sc kd d a b => Sys2Proof.Machine.execAtsMax h ty sc kd d a b s
  | .atsAnd h ty sc kd d a b => Sys2Proof.Machine.execAtsAnd h ty sc kd d a b s
  | .atsOr h ty sc kd d a b => Sys2Proof.Machine.execAtsOr h ty sc kd d a b s
  | .atsXor h ty sc kd d a b => Sys2Proof.Machine.execAtsXor h ty sc kd d a b s
  | .atsExch h ty sc kd d a b => Sys2Proof.Machine.execAtsExch h ty sc kd d a b s
  | .atsCas h ty sc kd d a b => Sys2Proof.Machine.execAtsCas h ty sc kd d a b s
  | .atgAdd h ty sc kd d a b => Sys2Proof.Machine.execAtgAdd h ty sc kd d a b s
  | .atgMin h ty sc kd d a b => Sys2Proof.Machine.execAtgMin h ty sc kd d a b s
  | .atgMax h ty sc kd d a b => Sys2Proof.Machine.execAtgMax h ty sc kd d a b s
  | .atgAnd h ty sc kd d a b => Sys2Proof.Machine.execAtgAnd h ty sc kd d a b s
  | .atgOr h ty sc kd d a b => Sys2Proof.Machine.execAtgOr h ty sc kd d a b s
  | .atgXor h ty sc kd d a b => Sys2Proof.Machine.execAtgXor h ty sc kd d a b s
  | .atgExch h ty sc kd d a b => Sys2Proof.Machine.execAtgExch h ty sc kd d a b s
  | .atgCas h ty sc kd d a b => Sys2Proof.Machine.execAtgCas h ty sc kd d a b s
  | .grow h wait cl d a => Sys2Proof.Machine.execGrow h wait cl d a s
  | .shrk h cl a => Sys2Proof.Machine.execShrk h cl a s
  | .tjoin h d a b => Sys2Proof.Machine.execTjoin h d a b s
  | .tleave h a => Sys2Proof.Machine.execTleave h a s
  | .tbar h sc kd a => Sys2Proof.Machine.execTbar h sc kd a s
  | .lsyn h sc kd b => Sys2Proof.Machine.execLsyn h sc kd b s
  | .xbi h a b => Sys2Proof.Machine.execXbi h a b s
  | .xba h a => Sys2Proof.Machine.execXba h a s
  | .xbe h a b => Sys2Proof.Machine.execXbe h a b s
  | .xbw h a b => Sys2Proof.Machine.execXbw h a b s
  | .xbt h d a b => Sys2Proof.Machine.execXbt h d a b s
  | .cpy h ui a b => Sys2Proof.Machine.execCpy h ui a b s
  | .gth h ui a b => Sys2Proof.Machine.execGth h ui a b s
  | .sct h ui a b => Sys2Proof.Machine.execSct h ui a b s
  | .qput h a b => Sys2Proof.Machine.execQput h a b s
  | .qget h d a => Sys2Proof.Machine.execQget h d a s
  | .mma h ty d a b => Sys2Proof.Machine.execMma h ty d a b s
  | .mmas h ty d a b => Sys2Proof.Machine.execMmas h ty d a b s
  | .mmam h cov d a b => Sys2Proof.Machine.execMmam h cov d a b s
  | .azro h pair d => Sys2Proof.Machine.execAzro h pair d s
  | .ald h ty d a => Sys2Proof.Machine.execAld h ty d a s
  | .ast h ty rnd sat d a => Sys2Proof.Machine.execAst h ty rnd sat d a s
  | .amov h ty rnd sat put d a b => Sys2Proof.Machine.execAmov h ty rnd sat put d a b s
  | .mwt h => Sys2Proof.Machine.execMwt h s
  | .mkm h op cls a => Sys2Proof.Machine.execMkm h op cls a s
  | .mks h cls a => Sys2Proof.Machine.execMks h cls a s
  | .mkc h cls a => Sys2Proof.Machine.execMkc h cls a s
  | .mkp h cls a => Sys2Proof.Machine.execMkp h cls a s
  | .mkl h cls a => Sys2Proof.Machine.execMkl h cls a s
  | .mkn h cls a => Sys2Proof.Machine.execMkn h cls a s
  | .mkr h cls a => Sys2Proof.Machine.execMkr h cls a s
  | .mkw h cls a => Sys2Proof.Machine.execMkw h cls a s
  | .mkt h cls a => Sys2Proof.Machine.execMkt h cls a s
  | .hins h cls a => Sys2Proof.Machine.execHins h cls a s
  | .wopn h sc cls d => Sys2Proof.Machine.execWopn h sc cls d s
  | .wqt h close sc cls d => Sys2Proof.Machine.execWqt h close sc cls d s
  | .vred h a => Sys2Proof.Machine.execVred h a s
  | .vcmd h cls a => Sys2Proof.Machine.execVcmd h cls a s
  | .omrk h => Sys2Proof.Machine.execOmrk h s
  | .coll h ui a b => Sys2Proof.Machine.execColl h ui a b s
  | .csig h op a b => Sys2Proof.Machine.execCsig h op a b s
  | .swait h c d a b => Sys2Proof.Machine.execSwait h c d a b s
  | .rprt h ui a b => Sys2Proof.Machine.execRprt h ui a b s
  | .issueSelect c => Sys2Proof.Machine.execIssueSelect c s
  | .activeSetEntry c lane => Sys2Proof.Machine.execActiveSetEntry c lane s
  | .activeSetDisplacement c lane => Sys2Proof.Machine.execActiveSetDisplacement c lane s
  | .trackedWriteLand sid n => Sys2Proof.Machine.execTrackedWriteLand sid n s
  | .trapwaitRetry sid f => Sys2Proof.Machine.execTrapwaitRetry sid f s
  | .userInterrupt sid => Sys2Proof.Machine.execUserInterrupt sid s
  | .threadDead sid t => Sys2Proof.Machine.execThreadDead sid t s
  | .sleepExpire sid f => Sys2Proof.Machine.execSleepExpire sid f s
  | .growGrant c => Sys2Proof.Machine.execGrowGrant c s
  | .growWaitFail c => Sys2Proof.Machine.execGrowWaitFail c s
  | .batchPlace launch c tsave ptes => Sys2Proof.Machine.execBatchPlace launch c tsave ptes s
  | .partitionWordWrite c w => Sys2Proof.Machine.execPartitionWordWrite c w s
  | .barrierArrivalMsg fromDie unit job team => Sys2Proof.Machine.execBarrierArrivalMsg fromDie unit job team s
  | .barrierRelease c slot => Sys2Proof.Machine.execBarrierRelease c slot s
  | .barTimeout c slot => Sys2Proof.Machine.execBarTimeout c slot s
  | .engineQueueAdmit c gather => Sys2Proof.Machine.execEngineQueueAdmit c gather s
  | .engineCommandStart c gather => Sys2Proof.Machine.execEngineCommandStart c gather s
  | .sectorLand c cmd n => Sys2Proof.Machine.execSectorLand c cmd n s
  | .engineCommandFault c cmd => Sys2Proof.Machine.execEngineCommandFault c cmd s
  | .queueWake c q => Sys2Proof.Machine.execQueueWake c q s
  | .reservationAdmit cl => Sys2Proof.Machine.execReservationAdmit cl s
  | .matrixPassStart pair => Sys2Proof.Machine.execMatrixPassStart pair s
  | .tileCommandStart pair => Sys2Proof.Machine.execTileCommandStart pair s
  | .matrixRowCommit pair => Sys2Proof.Machine.execMatrixRowCommit pair s
  | .matrixPassSuspend pair => Sys2Proof.Machine.execMatrixPassSuspend pair s
  | .matrixCommandComplete pair => Sys2Proof.Machine.execMatrixCommandComplete pair s
  | .matrixEngineError pair => Sys2Proof.Machine.execMatrixEngineError pair s
  | .fetchFault sid f => Sys2Proof.Machine.execFetchFault sid f s
  | .pageFaultService n res => Sys2Proof.Machine.execPageFaultService n res s
  | .regionRestart sid => Sys2Proof.Machine.execRegionRestart sid s
  | .rsbEntryWait sid f => Sys2Proof.Machine.execRsbEntryWait sid f s
  | .tinvAgentAck agent => Sys2Proof.Machine.execTinvAgentAck agent s
  | .tinvRegisterWrite asid whole base len => Sys2Proof.Machine.execTinvRegisterWrite asid whole base len s
  | .timingReplay c => Sys2Proof.Machine.execTimingReplay c s
  | .screenShadowEnd n sigs => Sys2Proof.Machine.execScreenShadowEnd n sigs s
  | .drain sid n => Sys2Proof.Machine.execDrain sid n s
  | .propagate die pa => Sys2Proof.Machine.execPropagate die pa s
  | .fill c sector => Sys2Proof.Machine.execFill c sector s
  | .drop c sector => Sys2Proof.Machine.execDrop c sector s
  | .send c n => Sys2Proof.Machine.execSend c n s
  | .wcbAgeSend c => Sys2Proof.Machine.execWcbAgeSend c s
  | .apply src dst => Sys2Proof.Machine.execApply src dst s
  | .transactionAck c => Sys2Proof.Machine.execTransactionAck c s
  | .markAccept c => Sys2Proof.Machine.execMarkAccept c s
  | .vatCommandProcess vat n => Sys2Proof.Machine.execVatCommandProcess vat n s
  | .waveMessageConsume vat n => Sys2Proof.Machine.execWaveMessageConsume vat n s
  | .stepClose vat job cls => Sys2Proof.Machine.execStepClose vat job cls s
  | .deckleSweep job cls => Sys2Proof.Machine.execDeckleSweep job cls s
  | .fabricSweep job cls plane others => Sys2Proof.Machine.execFabricSweep job cls plane others s
  | .vatSelfRefreshEntry vat forced => Sys2Proof.Machine.execVatSelfRefreshEntry vat forced s
  | .vatSelfRefreshExit vat => Sys2Proof.Machine.execVatSelfRefreshExit vat s
  | .vredReduce x => Sys2Proof.Machine.execVredReduce x s
  | .vcmdBank vat => Sys2Proof.Machine.execVcmdBank vat s
  | .flitRetry plane link bad => Sys2Proof.Machine.execFlitRetry plane link bad s
  | .linkFailed plane link lost => Sys2Proof.Machine.execLinkFailed plane link lost s
  | .moduleDown dst => Sys2Proof.Machine.execModuleDown dst s
  | .blockedPacket plane sw port => Sys2Proof.Machine.execBlockedPacket plane sw port s
  | .recoveryToken plane => Sys2Proof.Machine.execRecoveryToken plane s
  | .swaitReread sid f => Sys2Proof.Machine.execSwaitReread sid f s
  | .collAccept die => Sys2Proof.Machine.execCollAccept die s
  | .collDigestCompare job gid others => Sys2Proof.Machine.execCollDigestCompare job gid others s
  | .collCombine job gid others => Sys2Proof.Machine.execCollCombine job gid others s
  | .collComplete job gid done => Sys2Proof.Machine.execCollComplete job gid done s
  | .couchAssign job gid others => Sys2Proof.Machine.execCouchAssign job gid others s
  | .sqtail fn q v host => Sys2Proof.Machine.execSqtail fn q v host s
  | .cqhead fn q v => Sys2Proof.Machine.execCqhead fn q v s
  | .enable fn q v => Sys2Proof.Machine.execEnable fn q v s
  | .queueFetch fn q => Sys2Proof.Machine.execQueueFetch fn q s
  | .nopEntry fn q => Sys2Proof.Machine.execNopEntry fn q s
  | .launch who q job asid => Sys2Proof.Machine.execLaunch who q job asid s
  | .snapshot fn q => Sys2Proof.Machine.execSnapshot fn q s
  | .commit fn q => Sys2Proof.Machine.execCommit fn q s
  | .bill fn q => Sys2Proof.Machine.execBill fn q s
  | .completionWrite fn q => Sys2Proof.Machine.execCompletionWrite fn q s
  | .jobEnd job => Sys2Proof.Machine.execJobEnd job s
  | .pasidTeardown pasid => Sys2Proof.Machine.execPasidTeardown pasid s
  | .teardownTimeout pasid => Sys2Proof.Machine.execTeardownTimeout pasid s
  | .fairSharePlace die tsave ptes => Sys2Proof.Machine.execFairSharePlace die tsave ptes s
  | .latencyBoundExpire launch => Sys2Proof.Machine.execLatencyBoundExpire launch s
  | .batchSave batch => Sys2Proof.Machine.execBatchSave batch s
  | .batchResume batch c tsave ptes => Sys2Proof.Machine.execBatchResume batch c tsave ptes s
  | .batchFlush batch => Sys2Proof.Machine.execBatchFlush batch s
  | .batchDrain batch => Sys2Proof.Machine.execBatchDrain batch s
  | .firmwareTrapService sid f => Sys2Proof.Machine.execFirmwareTrapService sid f s
  | .firmwareResume sid f => Sys2Proof.Machine.execFirmwareResume sid f s
  | .debugResume sid f endJob => Sys2Proof.Machine.execDebugResume sid f endJob s
  | .mailboxMessage src dst msg => Sys2Proof.Machine.execMailboxMessage src dst msg s
  | .accessTableWrite unit master win w => Sys2Proof.Machine.execAccessTableWrite unit master win w s
  | .hostAccessDenied fn unit pa wr => Sys2Proof.Machine.execHostAccessDenied fn unit pa wr s
  | .moduleReset recordsOk id => Sys2Proof.Machine.execModuleReset recordsOk id s
  | .registerWrite r v => Sys2Proof.Machine.execRegisterWrite r v s
  | .wavePortForward port inbound n => Sys2Proof.Machine.execWavePortForward port inbound n s
  | .hostCxlMemAccess fn unit pa len wr => Sys2Proof.Machine.execHostCxlMemAccess fn unit pa len wr s
  | .translationResponse pasid => Sys2Proof.Machine.execTranslationResponse pasid s
  | .pkgUncorr jobs => Sys2Proof.Machine.execPkgUncorr jobs s
  | .hartDenied hart unit pa wr => Sys2Proof.Machine.execHartDenied hart unit pa wr s

end Sys2Proof.Machine
end

