-- ==== Sys2Proof/Machine/Sched.lean ====
section
/-!
DEFINITION. The default policy (log 1): which step happens when the environment has set none. A step that finishes work
under way alternates with the choice of a fragment by the next lane; both orders are among those the manual allows.
-/
namespace Sys2Proof.Machine

/-- Steps of the strands: results that land, stores that drain, waits that end. -/
def autoStrands (s : State) : List (State → Out) :=
  s.strands.flatMap fun e =>
    (e.2.pend.filter Pend.tracked).map (fun p => execTrackedWriteLand e.1 (.all p.id))
    ++ (e.2.rsb.filter fun r => r.ready || r.hold.isSome).map (fun r => execDrain e.1 r.id)
    ++ (if e.2.held.isEmpty then [] else [execUserInterrupt e.1])
    ++ e.2.frags.flatMap fun f => match f.2.wait with
      | .sleep _ => [execSleepExpire e.1 f.1]
      | .swait _ _ _ _ => [execSwaitReread e.1 f.1]
      | .rsb => [execRsbEntryWait e.1 f.1]
      | .trapStop _ _ => [execFirmwareTrapService e.1 f.1]
      | .fault _ => [execRegionRestart e.1]
      | _ => if f.2.st == .trapwait then [execTrapwaitRetry e.1 f.1] else []

/-- Steps of the cores and their engines. -/
def autoCores (s : State) : List (State → Out) :=
  s.cores.flatMap fun e =>
    let c := e.1
    let eng := fun (q : List EngCmd) => q.flatMap fun x => (x.lands.head?.map fun l => execSectorLand c x.id (.land l.n)).toList ++ [execSectorLand c x.id (.land 0), execEngineCommandFault c x.id]
    [execGrowGrant c, execGrowWaitFail c, execEngineQueueAdmit c false, execEngineQueueAdmit c true, execEngineCommandStart c false, execEngineCommandStart c true]
    ++ eng e.2.copyQ ++ eng e.2.gathQ ++ e.2.queues.map (fun q => execQueueWake c q.1) ++ e.2.wcb.map (fun l => execSend c l.id)
    ++ (if e.2.ott = 0 then [] else [execTransactionAck c]) ++ e.2.slots.flatMap (fun x => [execBarrierRelease c x.1, execBarrierArrivalMsg false c x.2.job x.2.team] ++
        (match x.2.watch with | some n => if x.2.limit ≤ n then [execBarTimeout c x.1] else [] | none => []))
    ++ [execMarkAccept c] ++ (List.range 16).flatMap fun l => if (laneQueue s c l).isEmpty then [] else [execActiveSetEntry c l, execActiveSetDisplacement c l]

/-- Steps of the dies: their L2, matrix engines and collective engines. -/
def autoDies (s : State) : List (State → Out) :=
  s.dies.flatMap fun e =>
    (e.2.p.head?.map fun w => execPropagate e.1 w.pa).toList
    ++ (e.2.mat.map fun m => m.core / 2).eraseDups.flatMap (fun p =>
      [execMatrixPassStart p, execTileCommandStart p, execMatrixRowCommit (.commit p), execMatrixCommandComplete p, execMatrixPassSuspend p, execMatrixEngineError p])
    ++ [execCollAccept e.1] ++ e.2.coll.flatMap (fun c => [execCollDigestCompare c.job (blkGid c.blk) [], execCollCombine c.job (blkGid c.blk) [],
      execCouchAssign c.job (blkGid c.blk) [], execCollComplete c.job (blkGid c.blk) []])
    ++ e.2.comb.map fun x => execBarrierArrivalMsg true e.1 x.2.job x.2.team

/-- Steps of the clusters, the Vats, the fabric and invalidations. -/
def autoPackage (s : State) : List (State → Out) :=
  (s.cores.map fun e => execReservationAdmit (e.1 / 4))
  ++ s.marks.flatMap (fun m => (m.todo.head?.map fun v => if m.mn = 0x3CC then execVredReduce (.reduce v m.id) else if m.mn = 0x3CD then execVcmdBank v else execVatCommandProcess v m.id).toList)
  ++ (s.msgs.map (·.vat)).eraseDups.map (fun v => execWaveMessageConsume v 0)
  ++ s.classes.flatMap (fun k => (k.close.head?.map fun v => execStepClose v k.job k.cls).toList ++
      (if classWaits s k.job k.cls && k.sc != .fabric then [execDeckleSweep k.job k.cls] else []))
  ++ s.fab.pkts.map (fun k => execApply k.src k.dst)
  ++ s.tinvs.flatMap fun t => t.left.map fun a => execTinvAgentAck a

/-- Steps of firmware and of the queues. -/
def autoHost (s : State) : List (State → Out) :=
  s.host.queues.flatMap (fun e =>
    let (f, q) := (e.1 / 8, e.1 % 8)
    [execCompletionWrite f q, execNopEntry f q, execCommit f q, execSnapshot f q, execBill f q, execQueueFetch f q])
  ++ s.jobs.map (fun e => execJobEnd e.1)
  ++ s.host.tearOut.map (fun e => execTranslationResponse e.1)
  ++ s.batches.filterMap fun e => match e.2.pre with
    | some .save => some (execBatchSave e.1)
    | some .flush => some (execBatchFlush e.1)
    | _ => none

/-- Whether a step finished work: it changed more than the model's own counters. -/
def State.moved (s t : State) : Bool := !(decide ({ t with seq := 0, freeCtr := 0 } = { s with seq := 0, freeCtr := 0 }))

/-- The steps that finish work, in the order in which the default policy tries them. -/
def autoWork (s : State) : List (State → Out) := autoStrands s ++ autoCores s ++ autoDies s ++ autoPackage s ++ autoHost s

/-- The first of the listed steps that finishes work, or the choice of a fragment by the next lane. -/
def firstWork (s : State) : List (State → Out) → Out
  | [] => execIssueSelect s.turn s
  | g :: gs =>
    match g s with
    | .next t => if s.moved t then .next t else firstWork s gs
    | _ => firstWork s gs

/-- The step of the default policy (log 1). -/
def autoStep (s : State) : Out :=
  let s' := { s with auto := !s.auto }
  if s.auto then firstWork s' (autoWork s) else execIssueSelect s.turn s'

end Sys2Proof.Machine
end

