-- ==== Sys2Proof/Machine/Step.lean ====
section
/-!
DEFINITION. One step of the module: the ISSUED fragment's instruction; otherwise the next step that the environment has
set; otherwise the step that the default policy chooses (R69, R336, log 1).
-/
namespace Sys2Proof.Machine

def step (s : State) : Host.Outcome State Fault Refusal :=
  match s.cur with
  | some (sid, f) =>
    match fetch s sid f with
    | .run i s' => exec i s'
    | .done s' => .next s'
  | none =>
    match s.agenda with
    | i :: rest => exec i { s with agenda := rest }
    | [] => autoStep s

/-- The state with an instruction placed where the next step fetches it; `nbits` is 96 for every row that has a word. -/
def State.withFetchWord (s : State) (_nbits w : Nat) : State := placeWord s w

end Sys2Proof.Machine
end

