-- ==== Sys2Proof/Laws/Encoding.lean ====
section
/-!
SUPPORT. Encoding and decoding: a word's fields are those it was put together from (R39), an operand's specifier reads
back as the operand (R49), each MOD code as what it encodes (R54, R55), and what skeleton gives for each OPC (R57).
-/
namespace Sys2Proof

theorem bitsOf_div (x hi lo : Nat) : bitsOf x hi lo = x / 2 ^ lo % 2 ^ (hi + 1 - lo) := by
  rw [bitsOf, Nat.shiftRight_eq_div_pow]
theorem bitAt_div (x i : Nat) : bitAt x i = decide (x / 2 ^ i % 2 = 1) := by
  rw [bitAt, Nat.testBit_eq_decide_div_mod_eq]

theorem ofNat_toNat_eq {n x : Nat} {b : BitVec n} (h : x = b.toNat) : BitVec.ofNat n x = b := by
  subst h; simp

theorem Opnd.bits_lt (o : Opnd) : o.bits < 2 ^ 21 := by
  cases o <;> simp only [Opnd.bits] <;> try omega
  · next r => cases r <;> decide

theorem opndOf_bits (o : Opnd) : opndOf o.bits = o := by
  cases o
  case s r => cases r <;> decide
  case v n =>  simp only [opndOf, Opnd.bits]; rw [show n.toNat / 2^17 = 0 by omega, show n.toNat % 2^17 = n.toNat by omega]; simp
  case k n =>  simp only [opndOf, Opnd.bits]; rw [show (1 * 2^17 + n.toNat) / 2^17 = 1 by omega, show (1 * 2^17 + n.toNat) % 2^17 = n.toNat by omega]; simp
  case p n =>  simp only [opndOf, Opnd.bits]; rw [show (2 * 2^17 + n.toNat) / 2^17 = 2 by omega, show (2 * 2^17 + n.toNat) % 2^17 = n.toNat by omega]; simp
  case m n =>  simp only [opndOf, Opnd.bits]; rw [show (3 * 2^17 + n.toNat) / 2^17 = 3 by omega, show (3 * 2^17 + n.toNat) % 2^17 = n.toNat by omega]; simp
  case a n =>  simp only [opndOf, Opnd.bits]; rw [show (4 * 2^17 + n.toNat) / 2^17 = 4 by omega, show (4 * 2^17 + n.toNat) % 2^17 = n.toNat by omega]; simp
  case imm n =>  simp only [opndOf, Opnd.bits]; rw [show (6 * 2^17 + n.toNat) / 2^17 = 6 by omega, show (6 * 2^17 + n.toNat) % 2^17 = n.toNat by omega]; simp
  case g n =>  simp only [opndOf, Opnd.bits]; rw [show (7 * 2^17 + 2 * n.toNat) / 2^17 = 7 by omega, show (7 * 2^17 + 2 * n.toNat) % 2^17 = 2 * n.toNat by omega]; simp
  case pair b c =>
    simp only [opndOf, Opnd.bits]; rw [show (9 * 2^17 + 256 * b.toNat + c.toNat) / 2^17 = 9 by omega, show (9 * 2^17 + 256 * b.toNat + c.toNat) % 2^17 = 256 * b.toNat + c.toNat by omega]
    simp only [Opnd.pair.injEq]; exact ⟨ofNat_toNat_eq (by omega), by apply BitVec.eq_of_toNat_eq; simp; omega⟩
  case none => rfl

theorem decide_toNat {n : Nat} {b : Bool} (h : n = b.toNat) : decide (n = 1) = b := by
  subst h; cases b <;> rfl

theorem rawOf_word (h : Hdr) {opc mod low : Nat} (ho : opc < 1024) (hm : mod < 512) (hl : low < 2 ^ 64) :
    rawOf (opc * 2 ^ 86 + h.bits * 2 ^ 73 + mod * 2 ^ 64 + low)
      = { opc := opc, hdr := h, mod := mod, d := bitsOf low 63 43, a := bitsOf low 42 22, b := bitsOf low 21 1, f := bitAt low 0 } := by
  obtain ⟨gn, gp, st, y, ks, kd, wb, hx, un⟩ := h
  have b1 := gn.toNat_lt; have b2 := y.toNat_lt; have b3 := ks.toNat_lt; have b4 := kd.toNat_lt
  have b5 := wb.toNat_lt; have b6 := hx.toNat_lt; have b7 := un.toNat_lt
  simp only [rawOf, Hdr.bits, bitsOf_div, bitAt_div, RawWord.mk.injEq, Hdr.mk.injEq]
  refine ⟨by omega, ⟨?_, ofNat_toNat_eq (by omega), ofNat_toNat_eq (by omega), ?_, ?_, ?_, ?_, ?_, ?_⟩, by omega, by omega, by omega, by omega, ?_⟩
  · exact decide_toNat (by omega)
  · exact decide_toNat (by omega)
  · exact decide_toNat (by omega)
  · exact decide_toNat (by omega)
  · exact decide_toNat (by omega)
  · exact decide_toNat (by omega)
  · exact decide_toNat (by omega)
  · congr 1; apply propext; omega

theorem lowBits_of (opc mod low : Nat) (h : Hdr) (hl : low < 2 ^ 64) :
    RawWord.lowBits { opc := opc, hdr := h, mod := mod, d := bitsOf low 63 43, a := bitsOf low 42 22, b := bitsOf low 21 1, f := bitAt low 0 } = low := by
  have e : (bitAt low 0).toNat = low % 2 := by rw [bitAt_div, Nat.pow_zero, Nat.div_one]; rcases Nat.mod_two_eq_zero_or_one low with h | h <;> simp [h]
  simp only [RawWord.lowBits, bitsOf_div, e]; omega
/-- The word fields of an instruction with operands in D, A and B. -/
def rawAb (opc : Nat) (h : Hdr) (mod : Nat) (d a b : Opnd) : RawWord :=
  { opc := opc, hdr := h, mod := mod, d := d.bits, a := a.bits, b := b.bits, f := false }
def rawWide (opc : Nat) (h : Hdr) (mod : Nat) (d : Opnd) (l : Nat) : RawWord :=
  { opc := opc, hdr := h, mod := mod, d := d.bits, a := l / 2 ^ 21, b := l % 2 ^ 21, f := true }

theorem abEnc_lt (d a b : Opnd) : abEnc d a b < 2 ^ 64 := by
  have := d.bits_lt; have := a.bits_lt; have := b.bits_lt
  simp only [abEnc]; omega

theorem wideEnc_lt (d : Opnd) {l : Nat} (hl : l < 2 ^ 42) : wideEnc d l < 2 ^ 64 := by
  have := d.bits_lt
  simp only [wideEnc]; omega

theorem decode_of_eq {w : Nat} {r : RawWord} {i : Instr} (hr : rawOf w = r) (hs : skeleton r = some (some i)) (hm : instrMod i = r.mod)
    (hl : instrLow i = r.lowBits) (h1 : modOk i = true) (h2 : fieldOk i = true) : decode w = .ok i := by
  unfold decode
  rw [hr]
  dsimp only
  rw [hs]
  simp only [hm, hl, h1, h2, bne_self_eq_false, Bool.not_true, Bool.or_self, Bool.false_eq_true, if_false]

theorem encode_some {i : Instr} {h : Hdr} (hh : instrHdr i = some h) :
    encode i = some (instrOpc i * 2 ^ 86 + h.bits * 2 ^ 73 + instrMod i * 2 ^ 64 + instrLow i) := by
  unfold encode; rw [hh]

theorem Hdr.bits_lt (h : Hdr) : h.bits < 8192 := by
  obtain ⟨gn, gp, st, y, ks, kd, wb, hx, un⟩ := h
  have b1 := gn.toNat_lt; have b2 := y.toNat_lt; have b3 := ks.toNat_lt; have b4 := kd.toNat_lt
  have b5 := wb.toNat_lt; have b6 := hx.toNat_lt; have b7 := un.toNat_lt
  simp only [Hdr.bits]; omega

theorem word_lt {o b m l : Nat} (ho : o < 1024) (hb : b < 8192) (hm : m < 512) (hl : l < 2 ^ 64) :
    o * 2 ^ 86 + b * 2 ^ 73 + m * 2 ^ 64 + l < 2 ^ 96 := by omega

/-- What is needed for an encoding to decode to its instruction. -/
theorem decode_of_raw {i : Instr} {h : Hdr} (hh : instrHdr i = some h) (ho : instrOpc i < 1024) (hm : instrMod i < 512)
    (hl : instrLow i < 2 ^ 64)
    (hs : skeleton { opc := instrOpc i, hdr := h, mod := instrMod i, d := bitsOf (instrLow i) 63 43, a := bitsOf (instrLow i) 42 22,
                     b := bitsOf (instrLow i) 21 1, f := bitAt (instrLow i) 0 } = some (some i)) (wf : WellFormed i = true) :
    ∃ w, encode i = some w ∧ w < 2 ^ 96 ∧ decode w = .ok i := by
  have wf' : (!i.isStep && modOk i && fieldOk i) = true := wf
  rw [Bool.and_eq_true, Bool.and_eq_true] at wf'
  exact ⟨_, encode_some hh, word_lt ho h.bits_lt hm hl,
    decode_of_eq (rawOf_word h ho hm hl) hs rfl (lowBits_of _ _ _ _ hl).symm wf'.1.2 wf'.2⟩

theorem decode_ab {i : Instr} {h : Hdr} {d a b : Opnd} (hh : instrHdr i = some h) (ho : instrOpc i < 1024) (hm : instrMod i < 512)
    (hl : instrLow i = abEnc d a b) (hs : skeleton (rawAb (instrOpc i) h (instrMod i) d a b) = some (some i)) (wf : WellFormed i = true) :
    ∃ w, encode i = some w ∧ w < 2 ^ 96 ∧ decode w = .ok i := by
  refine decode_of_raw hh ho hm (hl ▸ abEnc_lt d a b) ?_ wf
  have h1 := d.bits_lt; have h2 := a.bits_lt; have h3 := b.bits_lt
  rw [hl]; rw [rawAb] at hs; rw [← hs]
  congr 2
  · simp only [abEnc, bitsOf_div]; omega
  · simp only [abEnc, bitsOf_div]; omega
  · simp only [abEnc, bitsOf_div]; omega
  · simp only [abEnc, bitAt_div, decide_eq_false_iff_not]; omega

theorem decode_wide {i : Instr} {h : Hdr} {d : Opnd} {l : Nat} (hh : instrHdr i = some h) (ho : instrOpc i < 1024) (hm : instrMod i < 512)
    (hl : instrLow i = wideEnc d l) (hw : l < 2 ^ 42) (hs : skeleton (rawWide (instrOpc i) h (instrMod i) d l) = some (some i)) (wf : WellFormed i = true) :
    ∃ w, encode i = some w ∧ w < 2 ^ 96 ∧ decode w = .ok i := by
  refine decode_of_raw hh ho hm (hl ▸ wideEnc_lt d hw) ?_ wf
  have h1 := d.bits_lt
  rw [hl]; rw [rawWide] at hs; rw [← hs]
  congr 2
  · simp only [wideEnc, bitsOf_div]; omega
  · simp only [wideEnc, bitsOf_div]; omega
  · simp only [wideEnc, bitsOf_div]; omega
  · simp only [wideEnc, bitAt_div, decide_eq_true_eq]; omega

theorem Ty.code_lt (x : Ty) : x.code < 16 := by cases x <;> decide
theorem Rnd.code_lt (x : Rnd) : x.code < 6 := by cases x <;> decide
theorem Scope.code_lt (x : Scope) : x.code < 6 := by cases x <;> decide
theorem Kind.code_lt (x : Kind) : x.code < 4 := by cases x <;> decide
theorem Cov.code_lt (x : Cov) : x.code < 5 := by cases x <;> decide
theorem ICond.code_lt (x : ICond) : x.code < 6 := by cases x <;> decide
theorem FCond.code_lt (x : FCond) : x.code < 8 := by cases x <;> decide
theorem QFmt.code_lt (x : QFmt) : x.code < 3 := by cases x <;> decide
theorem PForm.code_lt (x : PForm) : x.code < 3 := by cases x <;> decide
theorem ShflMode.code_lt (x : ShflMode) : x.code < 4 := by cases x <;> decide
theorem RedOp.code_lt (x : RedOp) : x.code < 6 := by cases x <;> decide
theorem MgetSel.code_lt (x : MgetSel) : x.code < 3 := by cases x <;> decide
theorem MclpSel.code_lt (x : MclpSel) : x.code < 4 := by cases x <;> decide
theorem MchkSel.code_lt (x : MchkSel) : x.code < 4 := by cases x <;> decide
theorem GClass.code_lt (x : GClass) : x.code < 3 := by cases x <;> decide
theorem MkmOp.code_lt (x : MkmOp) : x.code < 3 := by cases x <;> decide
theorem SigOp.code_lt (x : SigOp) : x.code < 3 := by cases x <;> decide
theorem SigCond.code_lt (x : SigCond) : x.code < 3 := by cases x <;> decide

theorem tyOf_eq {r : RawWord} {x : Ty} (h : bitsOf r.mod 8 5 = x.code) : tyOf r = some x := by
  rw [tyOf, h]; cases x <;> rfl
theorem styOf_eq {r : RawWord} {x : Ty} (h : bitsOf r.mod 4 1 = x.code) : styOf r = some x := by
  rw [styOf, h]; cases x <;> rfl
theorem rndOf_eq {r : RawWord} {x : Rnd} (h : bitsOf r.mod 4 2 = x.code) : rndOf r = some x := by
  rw [rndOf, h]; cases x <;> rfl
theorem mrndOf_eq {r : RawWord} {x : Rnd} (h : bitsOf r.mod 2 0 = x.code) : mrndOf r = some x := by
  rw [mrndOf, h]; cases x <;> rfl
theorem scopeOf_eq {r : RawWord} {x : Scope} (h : bitsOf r.mod 4 2 = x.code) : scopeOf r = some x := by
  rw [scopeOf, h]; cases x <;> rfl
theorem icondOf_eq {r : RawWord} {x : ICond} (h : bitsOf r.mod 4 2 = x.code) : icondOf r = some x := by
  rw [icondOf, h]; cases x <;> rfl
theorem fcondOf_eq {r : RawWord} {x : FCond} (h : bitsOf r.mod 4 2 = x.code) : fcondOf r = some x := by
  rw [fcondOf, h]; cases x <;> rfl
theorem pformOf_eq {r : RawWord} {x : PForm} (h : bitsOf r.mod 1 0 = x.code) : pformOf r = some x := by
  rw [pformOf, h]; cases x <;> rfl
theorem redOf_eq {r : RawWord} {x : RedOp} (h : bitsOf r.mod 4 2 = x.code) : redOf r = some x := by
  rw [redOf, h]; cases x <;> rfl
theorem mgetOf_eq {r : RawWord} {x : MgetSel} (h : bitsOf r.mod 8 6 = x.code) : mgetOf r = some x := by
  rw [mgetOf, h]; cases x <;> rfl
theorem mclpOf_eq {r : RawWord} {x : MclpSel} (h : bitsOf r.mod 8 6 = x.code) : mclpOf r = some x := by
  rw [mclpOf, h]; cases x <;> rfl
theorem mchkOf_eq {r : RawWord} {x : MchkSel} (h : bitsOf r.mod 8 6 = x.code) : mchkOf r = some x := by
  rw [mchkOf, h]; cases x <;> rfl
theorem gclassOf_eq {r : RawWord} {x : GClass} (h : bitsOf r.mod 6 5 = x.code) : gclassOf r = some x := by
  rw [gclassOf, h]; cases x <;> rfl
theorem mkmOf_eq {r : RawWord} {x : MkmOp} (h : bitsOf r.mod 5 4 = x.code) : mkmOf r = some x := by
  rw [mkmOf, h]; cases x <;> rfl
theorem sigopOf_eq {r : RawWord} {x : SigOp} (h : bitsOf r.mod 6 5 = x.code) : sigopOf r = some x := by
  rw [sigopOf, h]; cases x <;> rfl
theorem sigcOf_eq {r : RawWord} {x : SigCond} (h : bitsOf r.mod 6 5 = x.code) : sigcOf r = some x := by
  rw [sigcOf, h]; cases x <;> rfl
theorem kindOf_eq {r : RawWord} {x : Kind} (h : bitsOf r.mod 1 0 = x.code) : kindOf r = x := by
  rw [kindOf, h]; cases x <;> rfl
theorem shflOf_eq {r : RawWord} {x : ShflMode} (h : bitsOf r.mod 1 0 = x.code) : shflOf r = x := by
  rw [shflOf, h]; cases x <;> rfl
theorem qfmtOf_eq {n : Nat} {x : QFmt} (h : n = x.code) : qfmtOf n = some x := by
  rw [h]; cases x <;> rfl
theorem covOf_eq {n : Nat} {x : Cov} (h : n = x.code) : covOf n = some x := by
  rw [h]; cases x <;> rfl
theorem scopeNo_eq {n : Nat} {x : Scope} (h : n = x.code) : scopeNo n = some x := by
  rw [h]; cases x <;> rfl
theorem bitAt_eq {n k : Nat} {x : Bool} (h : n / 2 ^ k % 2 = x.toNat) : bitAt n k = x := by
  rw [bitAt_div]; exact decide_toNat h
theorem satOf_eq {r : RawWord} {x : Bool} (h : r.mod / 2 ^ 1 % 2 = x.toNat) : satOf r = x := bitAt_eq h
theorem bit0Of_eq {r : RawWord} {x : Bool} (h : r.mod / 2 ^ 0 % 2 = x.toNat) : bit0Of r = x := bitAt_eq h
theorem sub3Of_eq {r : RawWord} {x : BitVec 3} (h : bitsOf r.mod 4 2 = x.toNat) : sub3Of r = x := ofNat_toNat_eq h
theorem clsOf_eq {r : RawWord} {x : BitVec 4} (h : r.mod % 2 ^ 4 = x.toNat) : clsOf r = x := by
  apply BitVec.eq_of_toNat_eq; rw [← h]; rfl
theorem addModeOf_wrap {r : RawWord} (h0 : r.mod / 2 ^ 0 % 2 = 0) (h1 : r.mod / 2 ^ 1 % 2 = 0) : addModeOf r = some .wrap := by
  rw [addModeOf, bit0Of_eq (x := false) h0, satOf_eq (x := false) h1]; rfl
theorem addModeOf_sat {r : RawWord} (h0 : r.mod / 2 ^ 0 % 2 = 0) (h1 : r.mod / 2 ^ 1 % 2 = 1) : addModeOf r = some .sat := by
  rw [addModeOf, bit0Of_eq (x := false) h0, satOf_eq (x := true) h1]; rfl
theorem addModeOf_carry {r : RawWord} {q : BitVec 3} (h0 : r.mod / 2 ^ 0 % 2 = 1) (h1 : r.mod / 2 ^ 1 % 2 = 0)
    (h2 : bitsOf r.mod 4 2 = q.toNat) : addModeOf r = some (.carry q) := by
  rw [addModeOf, bit0Of_eq (x := true) h0, satOf_eq (x := false) h1, sub3Of_eq h2]; rfl
theorem srcsOf_two {r : RawWord} {a b : Opnd} (hf : r.f = false) (ha : opndOf r.a = a) (hb : opndOf r.b = b) : srcsOf r = .two a b := by
  rw [srcsOf, hf, ha, hb]; rfl
theorem srcsOf_wide {r : RawWord} (l : BitVec 42) (hf : r.f = true) (hl : r.lit = l.toNat) : srcsOf r = .wide l := by
  rw [srcsOf, hf, hl]; simp
theorem offOf_eq {r : RawWord} (off : BitVec 24) (hl : r.lit = (off.signExtend 42).toNat) : offOf r = off := by
  apply BitVec.eq_of_getLsbD_eq
  intro i hi
  rw [offOf, hl, BitVec.ofNat_toNat, BitVec.getLsbD_setWidth, BitVec.getLsbD_signExtend]
  simp [hi, show i < 42 by omega]

theorem ab_ok {o mod : Nat} {h : Hdr} {d a b : Opnd} {x : Option (Option Instr)}
    (g : ∀ r : RawWord, r.opc = o → r.hdr = h → r.mod = mod → opndOf r.d = d → opndOf r.a = a → opndOf r.b = b → r.f = false → skeleton r = x) :
    skeleton (rawAb o h mod d a b) = x :=
  g _ rfl rfl rfl (opndOf_bits d) (opndOf_bits a) (opndOf_bits b) rfl

theorem wide_ok {o mod l : Nat} {h : Hdr} {d : Opnd} {x : Option (Option Instr)}
    (g : ∀ r : RawWord, r.opc = o → r.hdr = h → r.mod = mod → opndOf r.d = d → r.lit = l → r.f = true → skeleton r = x) :
    skeleton (rawWide o h mod d l) = x :=
  g _ rfl rfl rfl (opndOf_bits d) (by show l / 2 ^ 21 * 2 ^ 21 + l % 2 ^ 21 = l; omega) rfl

/-! ## One arm of skeleton at a time -/

theorem skeleton_at_0 (r : RawWord) (ho : r.opc = 0) : skeleton r = some (tyOf r >>= fun ty => (addModeOf r).map fun md => .iadd r.hdr ty md (opndOf r.d) (srcsOf r)) := by
  cases r; cases ho; rfl
theorem skeleton_at_1 (r : RawWord) (ho : r.opc = 1) : skeleton r = some (tyOf r >>= fun ty => (addModeOf r).map fun md => .isub r.hdr ty md (opndOf r.d) (srcsOf r)) := by
  cases r; cases ho; rfl
theorem skeleton_at_2 (r : RawWord) (ho : r.opc = 2) : skeleton r = some (tyOf r >>= fun ty => some (.imul r.hdr ty (satOf r) (opndOf r.d) (srcsOf r))) := by
  cases r; cases ho; rfl
theorem skeleton_at_3 (r : RawWord) (ho : r.opc = 3) : skeleton r = some (tyOf r >>= fun ty => some (.imulh r.hdr ty (opndOf r.d) (opndOf r.a) (opndOf r.b))) := by
  cases r; cases ho; rfl
theorem skeleton_at_4 (r : RawWord) (ho : r.opc = 4) : skeleton r = some (tyOf r >>= fun ty => some (.imad r.hdr ty (satOf r) (opndOf r.d) (opndOf r.a) (opndOf r.b))) := by
  cases r; cases ho; rfl
theorem skeleton_at_5 (r : RawWord) (ho : r.opc = 5) : skeleton r = some (tyOf r >>= fun ty => some (.imin r.hdr ty (opndOf r.d) (srcsOf r))) := by
  cases r; cases ho; rfl
theorem skeleton_at_6 (r : RawWord) (ho : r.opc = 6) : skeleton r = some (tyOf r >>= fun ty => some (.imax r.hdr ty (opndOf r.d) (srcsOf r))) := by
  cases r; cases ho; rfl
theorem skeleton_at_7 (r : RawWord) (ho : r.opc = 7) : skeleton r = some (tyOf r >>= fun ty => some (.iabs r.hdr ty (satOf r) (opndOf r.d) (opndOf r.a))) := by
  cases r; cases ho; rfl
theorem skeleton_at_8 (r : RawWord) (ho : r.opc = 8) : skeleton r = some (tyOf r >>= fun ty => some (.ineg r.hdr ty (satOf r) (opndOf r.d) (opndOf r.a))) := by
  cases r; cases ho; rfl
theorem skeleton_at_9 (r : RawWord) (ho : r.opc = 9) : skeleton r = some (tyOf r >>= fun ty => some (.and r.hdr ty (opndOf r.d) (srcsOf r))) := by
  cases r; cases ho; rfl
theorem skeleton_at_10 (r : RawWord) (ho : r.opc = 10) : skeleton r = some (tyOf r >>= fun ty => some (.or r.hdr ty (opndOf r.d) (srcsOf r))) := by
  cases r; cases ho; rfl
theorem skeleton_at_11 (r : RawWord) (ho : r.opc = 11) : skeleton r = some (tyOf r >>= fun ty => some (.xor r.hdr ty (opndOf r.d) (srcsOf r))) := by
  cases r; cases ho; rfl
theorem skeleton_at_12 (r : RawWord) (ho : r.opc = 12) : skeleton r = some (tyOf r >>= fun ty => some (.andn r.hdr ty (opndOf r.d) (srcsOf r))) := by
  cases r; cases ho; rfl
theorem skeleton_at_13 (r : RawWord) (ho : r.opc = 13) : skeleton r = some (tyOf r >>= fun ty => some (.not r.hdr ty (opndOf r.d) (opndOf r.a))) := by
  cases r; cases ho; rfl
theorem skeleton_at_14 (r : RawWord) (ho : r.opc = 14) : skeleton r = some (tyOf r >>= fun ty => some (.shl r.hdr ty (opndOf r.d) (opndOf r.a) (opndOf r.b))) := by
  cases r; cases ho; rfl
theorem skeleton_at_15 (r : RawWord) (ho : r.opc = 15) : skeleton r = some (tyOf r >>= fun ty => some (.shr r.hdr ty (opndOf r.d) (opndOf r.a) (opndOf r.b))) := by
  cases r; cases ho; rfl
theorem skeleton_at_16 (r : RawWord) (ho : r.opc = 16) : skeleton r = some (tyOf r >>= fun ty => some (.sar r.hdr ty (opndOf r.d) (opndOf r.a) (opndOf r.b))) := by
  cases r; cases ho; rfl
theorem skeleton_at_17 (r : RawWord) (ho : r.opc = 17) : skeleton r = some (tyOf r >>= fun ty => some (.rol r.hdr ty (opndOf r.d) (opndOf r.a) (opndOf r.b))) := by
  cases r; cases ho; rfl
theorem skeleton_at_18 (r : RawWord) (ho : r.opc = 18) : skeleton r = some (tyOf r >>= fun ty => some (.popc r.hdr ty (opndOf r.d) (opndOf r.a))) := by
  cases r; cases ho; rfl
theorem skeleton_at_19 (r : RawWord) (ho : r.opc = 19) : skeleton r = some (tyOf r >>= fun ty => some (.clz r.hdr ty (opndOf r.d) (opndOf r.a))) := by
  cases r; cases ho; rfl
theorem skeleton_at_20 (r : RawWord) (ho : r.opc = 20) : skeleton r = some (tyOf r >>= fun ty => some (.ctz r.hdr ty (opndOf r.d) (opndOf r.a))) := by
  cases r; cases ho; rfl
theorem skeleton_at_21 (r : RawWord) (ho : r.opc = 21) : skeleton r = some (tyOf r >>= fun ty => some (.brev r.hdr ty (opndOf r.d) (opndOf r.a))) := by
  cases r; cases ho; rfl
theorem skeleton_at_22 (r : RawWord) (ho : r.opc = 22) : skeleton r = some (tyOf r >>= fun ty => some (.bfx r.hdr ty (opndOf r.d) (opndOf r.a) (opndOf r.b))) := by
  cases r; cases ho; rfl
theorem skeleton_at_23 (r : RawWord) (ho : r.opc = 23) : skeleton r = some (tyOf r >>= fun ty => some (.bfi r.hdr ty (opndOf r.d) (opndOf r.a) (opndOf r.b))) := by
  cases r; cases ho; rfl
theorem skeleton_at_24 (r : RawWord) (ho : r.opc = 24) : skeleton r = some (tyOf r >>= fun ty => some (.lea r.hdr ty (sub3Of r) (opndOf r.d) (opndOf r.a) (opndOf r.b))) := by
  cases r; cases ho; rfl
theorem skeleton_at_25 (r : RawWord) (ho : r.opc = 25) : skeleton r = some (tyOf r >>= fun ty => some (.mov r.hdr ty (opndOf r.d) (opndOf r.a))) := by
  cases r; cases ho; rfl
theorem skeleton_at_26 (r : RawWord) (ho : r.opc = 26) : skeleton r = some (tyOf r >>= fun ty => some (.movi r.hdr ty (opndOf r.d) (srcsOf r))) := by
  cases r; cases ho; rfl
theorem skeleton_at_27 (r : RawWord) (ho : r.opc = 27) : skeleton r = some (tyOf r >>= fun ty => some (.sel r.hdr ty (sub3Of r) (bit0Of r) (opndOf r.d) (opndOf r.a) (opndOf r.b))) := by
  cases r; cases ho; rfl
theorem skeleton_at_28 (r : RawWord) (ho : r.opc = 28) : skeleton r = some (tyOf r >>= fun ty => (icondOf r).map fun c => .icmp r.hdr ty c (opndOf r.d) (opndOf r.a) (opndOf r.b)) := by
  cases r; cases ho; rfl
theorem skeleton_at_128 (r : RawWord) (ho : r.opc = 128) : skeleton r = some (tyOf r >>= fun ty => (rndOf r).map fun rnd => .fadd r.hdr ty rnd (satOf r) (bit0Of r) (opndOf r.d) (srcsOf r)) := by
  cases r; cases ho; rfl
theorem skeleton_at_129 (r : RawWord) (ho : r.opc = 129) : skeleton r = some (tyOf r >>= fun ty => (rndOf r).map fun rnd => .fsub r.hdr ty rnd (satOf r) (bit0Of r) (opndOf r.d) (srcsOf r)) := by
  cases r; cases ho; rfl
theorem skeleton_at_130 (r : RawWord) (ho : r.opc = 130) : skeleton r = some (tyOf r >>= fun ty => (rndOf r).map fun rnd => .fmul r.hdr ty rnd (satOf r) (bit0Of r) (opndOf r.d) (srcsOf r)) := by
  cases r; cases ho; rfl
theorem skeleton_at_131 (r : RawWord) (ho : r.opc = 131) : skeleton r = some (tyOf r >>= fun ty => (rndOf r).map fun rnd => .ffma r.hdr ty rnd (satOf r) (bit0Of r) (opndOf r.d) (opndOf r.a) (opndOf r.b)) := by
  cases r; cases ho; rfl
theorem skeleton_at_132 (r : RawWord) (ho : r.opc = 132) : skeleton r = some (tyOf r >>= fun ty => some (.fmin r.hdr ty (bit0Of r) (opndOf r.d) (srcsOf r))) := by
  cases r; cases ho; rfl
theorem skeleton_at_133 (r : RawWord) (ho : r.opc = 133) : skeleton r = some (tyOf r >>= fun ty => some (.fmax r.hdr ty (bit0Of r) (opndOf r.d) (srcsOf r))) := by
  cases r; cases ho; rfl
theorem skeleton_at_134 (r : RawWord) (ho : r.opc = 134) : skeleton r = some (tyOf r >>= fun ty => some (.fabs r.hdr ty (bit0Of r) (opndOf r.d) (opndOf r.a))) := by
  cases r; cases ho; rfl
theorem skeleton_at_135 (r : RawWord) (ho : r.opc = 135) : skeleton r = some (tyOf r >>= fun ty => some (.fneg r.hdr ty (bit0Of r) (opndOf r.d) (opndOf r.a))) := by
  cases r; cases ho; rfl
theorem skeleton_at_136 (r : RawWord) (ho : r.opc = 136) : skeleton r = some (tyOf r >>= fun ty => (fcondOf r).map fun c => .fcmp r.hdr ty c (opndOf r.d) (opndOf r.a) (opndOf r.b)) := by
  cases r; cases ho; rfl
theorem skeleton_at_137 (r : RawWord) (ho : r.opc = 137) : skeleton r = some (tyOf r >>= fun ty => some (.fcls r.hdr ty (opndOf r.d) (opndOf r.a) (opndOf r.b))) := by
  cases r; cases ho; rfl
theorem skeleton_at_138 (r : RawWord) (ho : r.opc = 138) : skeleton r = some (tyOf r >>= fun ty => (rndOf r).map fun rnd => .fscl r.hdr ty rnd (satOf r) (opndOf r.d) (opndOf r.a) (opndOf r.b)) := by
  cases r; cases ho; rfl
theorem skeleton_at_143 (r : RawWord) (ho : r.opc = 143) : skeleton r = some (tyOf r >>= fun ty => (rndOf r).map fun rnd => .fdiv r.hdr ty rnd (satOf r) (opndOf r.d) (opndOf r.a) (opndOf r.b)) := by
  cases r; cases ho; rfl
theorem skeleton_at_150 (r : RawWord) (ho : r.opc = 150) : skeleton r = some (tyOf r >>= fun ty => (rndOf r).map fun rnd => .fdot r.hdr ty rnd (satOf r) (opndOf r.d) (opndOf r.a) (opndOf r.b)) := by
  cases r; cases ho; rfl
theorem skeleton_at_139 (r : RawWord) (ho : r.opc = 139) : skeleton r = some (tyOf r >>= fun ty => (rndOf r).map fun rnd => .frnd r.hdr ty rnd (opndOf r.d) (opndOf r.a)) := by
  cases r; cases ho; rfl
theorem skeleton_at_142 (r : RawWord) (ho : r.opc = 142) : skeleton r = some (tyOf r >>= fun ty => (rndOf r).map fun rnd => .fsqrt r.hdr ty rnd (opndOf r.d) (opndOf r.a)) := by
  cases r; cases ho; rfl
theorem skeleton_at_140 (r : RawWord) (ho : r.opc = 140) : skeleton r = some (tyOf r >>= fun ty => some (.frcp r.hdr ty (opndOf r.d) (opndOf r.a))) := by
  cases r; cases ho; rfl
theorem skeleton_at_141 (r : RawWord) (ho : r.opc = 141) : skeleton r = some (tyOf r >>= fun ty => some (.frsq r.hdr ty (opndOf r.d) (opndOf r.a))) := by
  cases r; cases ho; rfl
theorem skeleton_at_144 (r : RawWord) (ho : r.opc = 144) : skeleton r = some (tyOf r >>= fun ty => some (.fex2 r.hdr ty (opndOf r.d) (opndOf r.a))) := by
  cases r; cases ho; rfl
theorem skeleton_at_145 (r : RawWord) (ho : r.opc = 145) : skeleton r = some (tyOf r >>= fun ty => some (.flg2 r.hdr ty (opndOf r.d) (opndOf r.a))) := by
  cases r; cases ho; rfl
theorem skeleton_at_147 (r : RawWord) (ho : r.opc = 147) : skeleton r = some (tyOf r >>= fun ty => some (.ftnh r.hdr ty (opndOf r.d) (opndOf r.a))) := by
  cases r; cases ho; rfl
theorem skeleton_at_148 (r : RawWord) (ho : r.opc = 148) : skeleton r = some (tyOf r >>= fun ty => some (.ferf r.hdr ty (opndOf r.d) (opndOf r.a))) := by
  cases r; cases ho; rfl
theorem skeleton_at_149 (r : RawWord) (ho : r.opc = 149) : skeleton r = some (tyOf r >>= fun ty => some (.fphi r.hdr ty (opndOf r.d) (opndOf r.a))) := by
  cases r; cases ho; rfl
theorem skeleton_at_146 (r : RawWord) (ho : r.opc = 146) : skeleton r = some (tyOf r >>= fun ty => some (.ftrg r.hdr ty (bit0Of r) (opndOf r.d) (opndOf r.a))) := by
  cases r; cases ho; rfl
theorem skeleton_at_256 (r : RawWord) (ho : r.opc = 256) : skeleton r = some (tyOf r >>= fun dt => (styOf r).map fun st => .cvt r.hdr .rne dt st (bit0Of r) (opndOf r.d) (opndOf r.a)) := by
  cases r; cases ho; rfl
theorem skeleton_at_257 (r : RawWord) (ho : r.opc = 257) : skeleton r = some (tyOf r >>= fun dt => (styOf r).map fun st => .cvt r.hdr .rtz dt st (bit0Of r) (opndOf r.d) (opndOf r.a)) := by
  cases r; cases ho; rfl
theorem skeleton_at_258 (r : RawWord) (ho : r.opc = 258) : skeleton r = some (tyOf r >>= fun dt => (styOf r).map fun st => .cvt r.hdr .rup dt st (bit0Of r) (opndOf r.d) (opndOf r.a)) := by
  cases r; cases ho; rfl
theorem skeleton_at_259 (r : RawWord) (ho : r.opc = 259) : skeleton r = some (tyOf r >>= fun dt => (styOf r).map fun st => .cvt r.hdr .rdn dt st (bit0Of r) (opndOf r.d) (opndOf r.a)) := by
  cases r; cases ho; rfl
theorem skeleton_at_260 (r : RawWord) (ho : r.opc = 260) : skeleton r = some (tyOf r >>= fun dt => (styOf r).map fun st => .cvt r.hdr .rna dt st (bit0Of r) (opndOf r.d) (opndOf r.a)) := by
  cases r; cases ho; rfl
theorem skeleton_at_261 (r : RawWord) (ho : r.opc = 261) : skeleton r = some (tyOf r >>= fun dt => (styOf r).map fun st => .cvt r.hdr .sr dt st (bit0Of r) (opndOf r.d) (opndOf r.a)) := by
  cases r; cases ho; rfl
theorem skeleton_at_264 (r : RawWord) (ho : r.opc = 264) : skeleton r = some (tyOf r >>= fun dt => (styOf r).map fun st => .cvts r.hdr .rne dt st (bit0Of r) (opndOf r.d) (opndOf r.a) (opndOf r.b)) := by
  cases r; cases ho; rfl
theorem skeleton_at_265 (r : RawWord) (ho : r.opc = 265) : skeleton r = some (tyOf r >>= fun dt => (styOf r).map fun st => .cvts r.hdr .rtz dt st (bit0Of r) (opndOf r.d) (opndOf r.a) (opndOf r.b)) := by
  cases r; cases ho; rfl
theorem skeleton_at_266 (r : RawWord) (ho : r.opc = 266) : skeleton r = some (tyOf r >>= fun dt => (styOf r).map fun st => .cvts r.hdr .rup dt st (bit0Of r) (opndOf r.d) (opndOf r.a) (opndOf r.b)) := by
  cases r; cases ho; rfl
theorem skeleton_at_267 (r : RawWord) (ho : r.opc = 267) : skeleton r = some (tyOf r >>= fun dt => (styOf r).map fun st => .cvts r.hdr .rdn dt st (bit0Of r) (opndOf r.d) (opndOf r.a) (opndOf r.b)) := by
  cases r; cases ho; rfl
theorem skeleton_at_268 (r : RawWord) (ho : r.opc = 268) : skeleton r = some (tyOf r >>= fun dt => (styOf r).map fun st => .cvts r.hdr .rna dt st (bit0Of r) (opndOf r.d) (opndOf r.a) (opndOf r.b)) := by
  cases r; cases ho; rfl
theorem skeleton_at_269 (r : RawWord) (ho : r.opc = 269) : skeleton r = some (tyOf r >>= fun dt => (styOf r).map fun st => .cvts r.hdr .sr dt st (bit0Of r) (opndOf r.d) (opndOf r.a) (opndOf r.b)) := by
  cases r; cases ho; rfl
theorem skeleton_at_272 (r : RawWord) (ho : r.opc = 272) : skeleton r = some (tyOf r >>= fun dt => (styOf r).map fun st => .pack r.hdr dt st (bit0Of r) (opndOf r.d) (opndOf r.a) (opndOf r.b)) := by
  cases r; cases ho; rfl
theorem skeleton_at_273 (r : RawWord) (ho : r.opc = 273) : skeleton r = some (tyOf r >>= fun dt => (styOf r).map fun st => .unpk r.hdr dt st (bit0Of r) (opndOf r.d) (opndOf r.a) (opndOf r.b)) := by
  cases r; cases ho; rfl
theorem skeleton_at_274 (r : RawWord) (ho : r.opc = 274) : skeleton r = some ((qfmtOf (bitsOf r.mod 8 5)) >>= fun qf => (styOf r).map fun st => .qenc r.hdr qf st (opndOf r.d) (opndOf r.a) (opndOf r.b)) := by
  cases r; cases ho; rfl
theorem skeleton_at_275 (r : RawWord) (ho : r.opc = 275) : skeleton r = some (tyOf r >>= fun ty => (qfmtOf (bitsOf r.mod 2 1)).map fun qf => .qdec r.hdr ty (bitAt r.mod 3) qf (bit0Of r) (opndOf r.d) (opndOf r.a) (opndOf r.b)) := by
  cases r; cases ho; rfl
theorem skeleton_at_320 (r : RawWord) (ho : r.opc = 320) : skeleton r = some (some (.plop r.hdr (BitVec.ofNat 4 r.mod) (opndOf r.d) (opndOf r.a) (opndOf r.b))) := by
  cases r; cases ho; rfl
theorem skeleton_at_321 (r : RawWord) (ho : r.opc = 321) : skeleton r = some ((pformOf r).map fun f => .pmov r.hdr f (opndOf r.d) (opndOf r.a) (opndOf r.b)) := by
  cases r; cases ho; rfl
theorem skeleton_at_322 (r : RawWord) (ho : r.opc = 322) : skeleton r = some (some (.ballot r.hdr (opndOf r.d) (opndOf r.a) (opndOf r.b))) := by
  cases r; cases ho; rfl
theorem skeleton_at_323 (r : RawWord) (ho : r.opc = 323) : skeleton r = some (some (.vany r.hdr (opndOf r.d) (opndOf r.a))) := by
  cases r; cases ho; rfl
theorem skeleton_at_324 (r : RawWord) (ho : r.opc = 324) : skeleton r = some (some (.vall r.hdr (opndOf r.d) (opndOf r.a))) := by
  cases r; cases ho; rfl
theorem skeleton_at_325 (r : RawWord) (ho : r.opc = 325) : skeleton r = some (tyOf r >>= fun ty => some (.shfl r.hdr ty (sub3Of r) (shflOf r) (opndOf r.d) (opndOf r.a) (opndOf r.b))) := by
  cases r; cases ho; rfl
theorem skeleton_at_326 (r : RawWord) (ho : r.opc = 326) : skeleton r = some (tyOf r >>= fun ty => some (.bcst r.hdr ty (sub3Of r) (opndOf r.d) (opndOf r.a) (opndOf r.b))) := by
  cases r; cases ho; rfl
theorem skeleton_at_327 (r : RawWord) (ho : r.opc = 327) : skeleton r = some (tyOf r >>= fun ty => (redOf r).map fun op => .redx r.hdr ty op (opndOf r.d) (opndOf r.a) (opndOf r.b)) := by
  cases r; cases ho; rfl
theorem skeleton_at_328 (r : RawWord) (ho : r.opc = 328) : skeleton r = some (tyOf r >>= fun ty => (redOf r).map fun op => .scan r.hdr ty op (bitAt r.mod 1) (opndOf r.d) (opndOf r.a) (opndOf r.b)) := by
  cases r; cases ho; rfl
theorem skeleton_at_329 (r : RawWord) (ho : r.opc = 329) : skeleton r = some (tyOf r >>= fun ty => some (.matchx r.hdr ty (sub3Of r) (bit0Of r) (opndOf r.d) (opndOf r.a) (opndOf r.b))) := by
  cases r; cases ho; rfl
theorem skeleton_at_330 (r : RawWord) (ho : r.opc = 330) : skeleton r = some (some (.elect r.hdr (opndOf r.d))) := by
  cases r; cases ho; rfl
theorem skeleton_at_384 (r : RawWord) (ho : r.opc = 384) : skeleton r = some (some (.bra r.hdr (offOf r))) := by
  cases r; cases ho; rfl
theorem skeleton_at_385 (r : RawWord) (ho : r.opc = 385) : skeleton r = some (some (.brx r.hdr (opndOf r.a))) := by
  cases r; cases ho; rfl
theorem skeleton_at_386 (r : RawWord) (ho : r.opc = 386) : skeleton r = some (some (.call r.hdr (opndOf r.d) (offOf r))) := by
  cases r; cases ho; rfl
theorem skeleton_at_387 (r : RawWord) (ho : r.opc = 387) : skeleton r = some (some (.ret r.hdr (opndOf r.a))) := by
  cases r; cases ho; rfl
theorem skeleton_at_388 (r : RawWord) (ho : r.opc = 388) : skeleton r = some (some (.rcv r.hdr (offOf r))) := by
  cases r; cases ho; rfl
theorem skeleton_at_389 (r : RawWord) (ho : r.opc = 389) : skeleton r = some (some (.exit r.hdr)) := by
  cases r; cases ho; rfl
theorem skeleton_at_390 (r : RawWord) (ho : r.opc = 390) : skeleton r = some (some (.nop r.hdr)) := by
  cases r; cases ho; rfl
theorem skeleton_at_391 (r : RawWord) (ho : r.opc = 391) : skeleton r = some (some (.yld r.hdr)) := by
  cases r; cases ho; rfl
theorem skeleton_at_449 (r : RawWord) (ho : r.opc = 449) : skeleton r = some (some (.eret r.hdr)) := by
  cases r; cases ho; rfl
theorem skeleton_at_450 (r : RawWord) (ho : r.opc = 450) : skeleton r = some (some (.iret r.hdr)) := by
  cases r; cases ho; rfl
theorem skeleton_at_448 (r : RawWord) (ho : r.opc = 448) : skeleton r = some (some (.trap r.hdr (BitVec.ofNat 4 r.mod))) := by
  cases r; cases ho; rfl
theorem skeleton_at_451 (r : RawWord) (ho : r.opc = 451) : skeleton r = some (some (.srd r.hdr (bit0Of r) (opndOf r.d) (opndOf r.a))) := by
  cases r; cases ho; rfl
theorem skeleton_at_452 (r : RawWord) (ho : r.opc = 452) : skeleton r = some (some (.swr r.hdr (bit0Of r) (opndOf r.d) (opndOf r.a))) := by
  cases r; cases ho; rfl
theorem skeleton_at_453 (r : RawWord) (ho : r.opc = 453) : skeleton r = some (some (.sleep r.hdr (opndOf r.a))) := by
  cases r; cases ho; rfl
theorem skeleton_at_454 (r : RawWord) (ho : r.opc = 454) : skeleton r = some (some (.brk r.hdr (BitVec.ofNat 8 r.mod))) := by
  cases r; cases ho; rfl
theorem skeleton_at_512 (r : RawWord) (ho : r.opc = 512) : skeleton r = some (some (.mmov r.hdr (opndOf r.d) (opndOf r.a))) := by
  cases r; cases ho; rfl
theorem skeleton_at_520 (r : RawWord) (ho : r.opc = 520) : skeleton r = some (some (.mrlu r.hdr (opndOf r.d) (opndOf r.a))) := by
  cases r; cases ho; rfl
theorem skeleton_at_521 (r : RawWord) (ho : r.opc = 521) : skeleton r = some (some (.mexp r.hdr (opndOf r.d) (opndOf r.a))) := by
  cases r; cases ho; rfl
theorem skeleton_at_523 (r : RawWord) (ho : r.opc = 523) : skeleton r = some (some (.mphi r.hdr (opndOf r.d) (opndOf r.a))) := by
  cases r; cases ho; rfl
theorem skeleton_at_513 (r : RawWord) (ho : r.opc = 513) : skeleton r = some (some (.mput r.hdr (opndOf r.d) (opndOf r.a) (opndOf r.b))) := by
  cases r; cases ho; rfl
theorem skeleton_at_514 (r : RawWord) (ho : r.opc = 514) : skeleton r = some ((mgetOf r).map fun sel => .mget r.hdr sel (opndOf r.d) (opndOf r.a)) := by
  cases r; cases ho; rfl
theorem skeleton_at_515 (r : RawWord) (ho : r.opc = 515) : skeleton r = some ((covOf (bitsOf r.mod 5 3)) >>= fun cov => (mrndOf r).map fun rnd => .madd r.hdr cov rnd (opndOf r.d) (opndOf r.a) (opndOf r.b)) := by
  cases r; cases ho; rfl
theorem skeleton_at_516 (r : RawWord) (ho : r.opc = 516) : skeleton r = some ((covOf (bitsOf r.mod 5 3)) >>= fun cov => (mrndOf r).map fun rnd => .msub r.hdr cov rnd (opndOf r.d) (opndOf r.a) (opndOf r.b)) := by
  cases r; cases ho; rfl
theorem skeleton_at_517 (r : RawWord) (ho : r.opc = 517) : skeleton r = some ((covOf (bitsOf r.mod 5 3)) >>= fun cov => (mrndOf r).map fun rnd => .mmul r.hdr cov rnd (opndOf r.d) (opndOf r.a) (opndOf r.b)) := by
  cases r; cases ho; rfl
theorem skeleton_at_518 (r : RawWord) (ho : r.opc = 518) : skeleton r = some ((covOf (bitsOf r.mod 5 3)) >>= fun cov => (mrndOf r).map fun rnd => .mfma r.hdr cov rnd (opndOf r.d) (opndOf r.a) (opndOf r.b)) := by
  cases r; cases ho; rfl
theorem skeleton_at_519 (r : RawWord) (ho : r.opc = 519) : skeleton r = some ((mrndOf r).map fun rnd => .mscl r.hdr rnd (opndOf r.d) (opndOf r.a) (opndOf r.b)) := by
  cases r; cases ho; rfl
theorem skeleton_at_522 (r : RawWord) (ho : r.opc = 522) : skeleton r = some ((mrndOf r).map fun rnd => .msqr r.hdr rnd (opndOf r.d) (opndOf r.a)) := by
  cases r; cases ho; rfl
theorem skeleton_at_524 (r : RawWord) (ho : r.opc = 524) : skeleton r = some ((mclpOf r) >>= fun sel => (mrndOf r).map fun rnd => .mclp r.hdr sel rnd (opndOf r.d) (opndOf r.a) (opndOf r.b)) := by
  cases r; cases ho; rfl
theorem skeleton_at_525 (r : RawWord) (ho : r.opc = 525) : skeleton r = some ((mchkOf r).map fun sel => .mchk r.hdr sel (opndOf r.d) (opndOf r.a)) := by
  cases r; cases ho; rfl
theorem skeleton_at_640 (r : RawWord) (ho : r.opc = 640) : skeleton r = some (tyOf r >>= fun ty => (scopeOf r).map fun sc => .lds r.hdr ty sc (kindOf r) (opndOf r.d) (opndOf r.a) (opndOf r.b)) := by
  cases r; cases ho; rfl
theorem skeleton_at_641 (r : RawWord) (ho : r.opc = 641) : skeleton r = some (tyOf r >>= fun ty => (scopeOf r).map fun sc => .sts r.hdr ty sc (kindOf r) (opndOf r.d) (opndOf r.a) (opndOf r.b)) := by
  cases r; cases ho; rfl
theorem skeleton_at_642 (r : RawWord) (ho : r.opc = 642) : skeleton r = some (tyOf r >>= fun ty => (scopeOf r).map fun sc => .ld r.hdr ty sc (kindOf r) (opndOf r.d) (opndOf r.a) (opndOf r.b)) := by
  cases r; cases ho; rfl
theorem skeleton_at_643 (r : RawWord) (ho : r.opc = 643) : skeleton r = some (tyOf r >>= fun ty => (scopeOf r).map fun sc => .st r.hdr ty sc (kindOf r) (opndOf r.d) (opndOf r.a) (opndOf r.b)) := by
  cases r; cases ho; rfl
theorem skeleton_at_644 (r : RawWord) (ho : r.opc = 644) : skeleton r = some (tyOf r >>= fun ty => some (.ldb r.hdr ty (opndOf r.d) (opndOf r.a) (opndOf r.b))) := by
  cases r; cases ho; rfl
theorem skeleton_at_645 (r : RawWord) (ho : r.opc = 645) : skeleton r = some (tyOf r >>= fun ty => some (.stb r.hdr ty (opndOf r.d) (opndOf r.a) (opndOf r.b))) := by
  cases r; cases ho; rfl
theorem skeleton_at_646 (r : RawWord) (ho : r.opc = 646) : skeleton r = some ((scopeOf r).map fun sc => .pft r.hdr sc (opndOf r.a) (opndOf r.b)) := by
  cases r; cases ho; rfl
theorem skeleton_at_647 (r : RawWord) (ho : r.opc = 647) : skeleton r = some ((scopeOf r).map fun sc => .fence r.hdr sc (kindOf r)) := by
  cases r; cases ho; rfl
theorem skeleton_at_648 (r : RawWord) (ho : r.opc = 648) : skeleton r = some (some (.rgn r.hdr)) := by
  cases r; cases ho; rfl
theorem skeleton_at_649 (r : RawWord) (ho : r.opc = 649) : skeleton r = some (some (.drel r.hdr (opndOf r.d) (opndOf r.a) (opndOf r.b))) := by
  cases r; cases ho; rfl
theorem skeleton_at_650 (r : RawWord) (ho : r.opc = 650) : skeleton r = some (some (.tlbp r.hdr (opndOf r.a) (opndOf r.b))) := by
  cases r; cases ho; rfl
theorem skeleton_at_651 (r : RawWord) (ho : r.opc = 651) : skeleton r = some (some (.tlbu r.hdr (opndOf r.a))) := by
  cases r; cases ho; rfl
theorem skeleton_at_652 (r : RawWord) (ho : r.opc = 652) : skeleton r = some (some (.xprb r.hdr (opndOf r.d) (opndOf r.a))) := by
  cases r; cases ho; rfl
theorem skeleton_at_653 (r : RawWord) (ho : r.opc = 653) : skeleton r = some (some (.tinv r.hdr (opndOf r.d) (opndOf r.a) (opndOf r.b))) := by
  cases r; cases ho; rfl
theorem skeleton_at_656 (r : RawWord) (ho : r.opc = 656) : skeleton r = some (tyOf r >>= fun ty => (scopeOf r).map fun sc => .atsAdd r.hdr ty sc (kindOf r) (opndOf r.d) (opndOf r.a) (opndOf r.b)) := by
  cases r; cases ho; rfl
theorem skeleton_at_657 (r : RawWord) (ho : r.opc = 657) : skeleton r = some (tyOf r >>= fun ty => (scopeOf r).map fun sc => .atsMin r.hdr ty sc (kindOf r) (opndOf r.d) (opndOf r.a) (opndOf r.b)) := by
  cases r; cases ho; rfl
theorem skeleton_at_658 (r : RawWord) (ho : r.opc = 658) : skeleton r = some (tyOf r >>= fun ty => (scopeOf r).map fun sc => .atsMax r.hdr ty sc (kindOf r) (opndOf r.d) (opndOf r.a) (opndOf r.b)) := by
  cases r; cases ho; rfl
theorem skeleton_at_659 (r : RawWord) (ho : r.opc = 659) : skeleton r = some (tyOf r >>= fun ty => (scopeOf r).map fun sc => .atsAnd r.hdr ty sc (kindOf r) (opndOf r.d) (opndOf r.a) (opndOf r.b)) := by
  cases r; cases ho; rfl
theorem skeleton_at_660 (r : RawWord) (ho : r.opc = 660) : skeleton r = some (tyOf r >>= fun ty => (scopeOf r).map fun sc => .atsOr r.hdr ty sc (kindOf r) (opndOf r.d) (opndOf r.a) (opndOf r.b)) := by
  cases r; cases ho; rfl
theorem skeleton_at_661 (r : RawWord) (ho : r.opc = 661) : skeleton r = some (tyOf r >>= fun ty => (scopeOf r).map fun sc => .atsXor r.hdr ty sc (kindOf r) (opndOf r.d) (opndOf r.a) (opndOf r.b)) := by
  cases r; cases ho; rfl
theorem skeleton_at_662 (r : RawWord) (ho : r.opc = 662) : skeleton r = some (tyOf r >>= fun ty => (scopeOf r).map fun sc => .atsExch r.hdr ty sc (kindOf r) (opndOf r.d) (opndOf r.a) (opndOf r.b)) := by
  cases r; cases ho; rfl
theorem skeleton_at_663 (r : RawWord) (ho : r.opc = 663) : skeleton r = some (tyOf r >>= fun ty => (scopeOf r).map fun sc => .atsCas r.hdr ty sc (kindOf r) (opndOf r.d) (opndOf r.a) (opndOf r.b)) := by
  cases r; cases ho; rfl
theorem skeleton_at_672 (r : RawWord) (ho : r.opc = 672) : skeleton r = some (tyOf r >>= fun ty => (scopeOf r).map fun sc => .atgAdd r.hdr ty sc (kindOf r) (opndOf r.d) (opndOf r.a) (opndOf r.b)) := by
  cases r; cases ho; rfl
theorem skeleton_at_673 (r : RawWord) (ho : r.opc = 673) : skeleton r = some (tyOf r >>= fun ty => (scopeOf r).map fun sc => .atgMin r.hdr ty sc (kindOf r) (opndOf r.d) (opndOf r.a) (opndOf r.b)) := by
  cases r; cases ho; rfl
theorem skeleton_at_674 (r : RawWord) (ho : r.opc = 674) : skeleton r = some (tyOf r >>= fun ty => (scopeOf r).map fun sc => .atgMax r.hdr ty sc (kindOf r) (opndOf r.d) (opndOf r.a) (opndOf r.b)) := by
  cases r; cases ho; rfl
theorem skeleton_at_675 (r : RawWord) (ho : r.opc = 675) : skeleton r = some (tyOf r >>= fun ty => (scopeOf r).map fun sc => .atgAnd r.hdr ty sc (kindOf r) (opndOf r.d) (opndOf r.a) (opndOf r.b)) := by
  cases r; cases ho; rfl
theorem skeleton_at_676 (r : RawWord) (ho : r.opc = 676) : skeleton r = some (tyOf r >>= fun ty => (scopeOf r).map fun sc => .atgOr r.hdr ty sc (kindOf r) (opndOf r.d) (opndOf r.a) (opndOf r.b)) := by
  cases r; cases ho; rfl
theorem skeleton_at_677 (r : RawWord) (ho : r.opc = 677) : skeleton r = some (tyOf r >>= fun ty => (scopeOf r).map fun sc => .atgXor r.hdr ty sc (kindOf r) (opndOf r.d) (opndOf r.a) (opndOf r.b)) := by
  cases r; cases ho; rfl
theorem skeleton_at_678 (r : RawWord) (ho : r.opc = 678) : skeleton r = some (tyOf r >>= fun ty => (scopeOf r).map fun sc => .atgExch r.hdr ty sc (kindOf r) (opndOf r.d) (opndOf r.a) (opndOf r.b)) := by
  cases r; cases ho; rfl
theorem skeleton_at_679 (r : RawWord) (ho : r.opc = 679) : skeleton r = some (tyOf r >>= fun ty => (scopeOf r).map fun sc => .atgCas r.hdr ty sc (kindOf r) (opndOf r.d) (opndOf r.a) (opndOf r.b)) := by
  cases r; cases ho; rfl
theorem skeleton_at_768 (r : RawWord) (ho : r.opc = 768) : skeleton r = some ((gclassOf r).map fun cl => .grow r.hdr (bitAt r.mod 7) cl (opndOf r.d) (opndOf r.a)) := by
  cases r; cases ho; rfl
theorem skeleton_at_769 (r : RawWord) (ho : r.opc = 769) : skeleton r = some ((gclassOf r).map fun cl => .shrk r.hdr cl (opndOf r.a)) := by
  cases r; cases ho; rfl
theorem skeleton_at_770 (r : RawWord) (ho : r.opc = 770) : skeleton r = some (some (.tjoin r.hdr (opndOf r.d) (opndOf r.a) (opndOf r.b))) := by
  cases r; cases ho; rfl
theorem skeleton_at_771 (r : RawWord) (ho : r.opc = 771) : skeleton r = some (some (.tleave r.hdr (opndOf r.a))) := by
  cases r; cases ho; rfl
theorem skeleton_at_772 (r : RawWord) (ho : r.opc = 772) : skeleton r = some ((scopeOf r).map fun sc => .tbar r.hdr sc (kindOf r) (opndOf r.a)) := by
  cases r; cases ho; rfl
theorem skeleton_at_773 (r : RawWord) (ho : r.opc = 773) : skeleton r = some ((scopeOf r).map fun sc => .lsyn r.hdr sc (kindOf r) (opndOf r.b)) := by
  cases r; cases ho; rfl
theorem skeleton_at_774 (r : RawWord) (ho : r.opc = 774) : skeleton r = some (some (.xbi r.hdr (opndOf r.a) (opndOf r.b))) := by
  cases r; cases ho; rfl
theorem skeleton_at_775 (r : RawWord) (ho : r.opc = 775) : skeleton r = some (some (.xba r.hdr (opndOf r.a))) := by
  cases r; cases ho; rfl
theorem skeleton_at_776 (r : RawWord) (ho : r.opc = 776) : skeleton r = some (some (.xbe r.hdr (opndOf r.a) (opndOf r.b))) := by
  cases r; cases ho; rfl
theorem skeleton_at_777 (r : RawWord) (ho : r.opc = 777) : skeleton r = some (some (.xbw r.hdr (opndOf r.a) (opndOf r.b))) := by
  cases r; cases ho; rfl
theorem skeleton_at_778 (r : RawWord) (ho : r.opc = 778) : skeleton r = some (some (.xbt r.hdr (opndOf r.d) (opndOf r.a) (opndOf r.b))) := by
  cases r; cases ho; rfl
theorem skeleton_at_832 (r : RawWord) (ho : r.opc = 832) : skeleton r = some (some (.cpy r.hdr (bitAt r.mod 5) (opndOf r.a) (opndOf r.b))) := by
  cases r; cases ho; rfl
theorem skeleton_at_833 (r : RawWord) (ho : r.opc = 833) : skeleton r = some (some (.gth r.hdr (bitAt r.mod 5) (opndOf r.a) (opndOf r.b))) := by
  cases r; cases ho; rfl
theorem skeleton_at_834 (r : RawWord) (ho : r.opc = 834) : skeleton r = some (some (.sct r.hdr (bitAt r.mod 5) (opndOf r.a) (opndOf r.b))) := by
  cases r; cases ho; rfl
theorem skeleton_at_992 (r : RawWord) (ho : r.opc = 992) : skeleton r = some (some (.coll r.hdr (bitAt r.mod 5) (opndOf r.a) (opndOf r.b))) := by
  cases r; cases ho; rfl
theorem skeleton_at_995 (r : RawWord) (ho : r.opc = 995) : skeleton r = some (some (.rprt r.hdr (bitAt r.mod 5) (opndOf r.a) (opndOf r.b))) := by
  cases r; cases ho; rfl
theorem skeleton_at_835 (r : RawWord) (ho : r.opc = 835) : skeleton r = some (some (.qput r.hdr (opndOf r.a) (opndOf r.b))) := by
  cases r; cases ho; rfl
theorem skeleton_at_836 (r : RawWord) (ho : r.opc = 836) : skeleton r = some (some (.qget r.hdr (opndOf r.d) (opndOf r.a))) := by
  cases r; cases ho; rfl
theorem skeleton_at_896 (r : RawWord) (ho : r.opc = 896) : skeleton r = some (tyOf r >>= fun ty => some (.mma r.hdr ty (opndOf r.d) (opndOf r.a) (opndOf r.b))) := by
  cases r; cases ho; rfl
theorem skeleton_at_897 (r : RawWord) (ho : r.opc = 897) : skeleton r = some (tyOf r >>= fun ty => some (.mmas r.hdr ty (opndOf r.d) (opndOf r.a) (opndOf r.b))) := by
  cases r; cases ho; rfl
theorem skeleton_at_898 (r : RawWord) (ho : r.opc = 898) : skeleton r = some ((covOf (bitsOf r.mod 4 2)).map fun cov => .mmam r.hdr cov (opndOf r.d) (opndOf r.a) (opndOf r.b)) := by
  cases r; cases ho; rfl
theorem skeleton_at_899 (r : RawWord) (ho : r.opc = 899) : skeleton r = some (some (.azro r.hdr (bit0Of r) (opndOf r.d))) := by
  cases r; cases ho; rfl
theorem skeleton_at_900 (r : RawWord) (ho : r.opc = 900) : skeleton r = some (tyOf r >>= fun ty => some (.ald r.hdr ty (opndOf r.d) (opndOf r.a))) := by
  cases r; cases ho; rfl
theorem skeleton_at_901 (r : RawWord) (ho : r.opc = 901) : skeleton r = some (tyOf r >>= fun ty => (rndOf r).map fun rnd => .ast r.hdr ty rnd (satOf r) (opndOf r.d) (opndOf r.a)) := by
  cases r; cases ho; rfl
theorem skeleton_at_902 (r : RawWord) (ho : r.opc = 902) : skeleton r = some (tyOf r >>= fun ty => (rndOf r).map fun rnd => .amov r.hdr ty rnd (satOf r) (bit0Of r) (opndOf r.d) (opndOf r.a) (opndOf r.b)) := by
  cases r; cases ho; rfl
theorem skeleton_at_903 (r : RawWord) (ho : r.opc = 903) : skeleton r = some (some (.mwt r.hdr)) := by
  cases r; cases ho; rfl
theorem skeleton_at_960 (r : RawWord) (ho : r.opc = 960) : skeleton r = some ((mkmOf r).map fun op => .mkm r.hdr op (clsOf r) (opndOf r.a)) := by
  cases r; cases ho; rfl
theorem skeleton_at_961 (r : RawWord) (ho : r.opc = 961) : skeleton r = some (some (.mks r.hdr (clsOf r) (opndOf r.a))) := by
  cases r; cases ho; rfl
theorem skeleton_at_962 (r : RawWord) (ho : r.opc = 962) : skeleton r = some (some (.mkc r.hdr (clsOf r) (opndOf r.a))) := by
  cases r; cases ho; rfl
theorem skeleton_at_963 (r : RawWord) (ho : r.opc = 963) : skeleton r = some (some (.mkp r.hdr (clsOf r) (opndOf r.a))) := by
  cases r; cases ho; rfl
theorem skeleton_at_964 (r : RawWord) (ho : r.opc = 964) : skeleton r = some (some (.mkl r.hdr (clsOf r) (opndOf r.a))) := by
  cases r; cases ho; rfl
theorem skeleton_at_965 (r : RawWord) (ho : r.opc = 965) : skeleton r = some (some (.mkn r.hdr (clsOf r) (opndOf r.a))) := by
  cases r; cases ho; rfl
theorem skeleton_at_966 (r : RawWord) (ho : r.opc = 966) : skeleton r = some (some (.mkr r.hdr (clsOf r) (opndOf r.a))) := by
  cases r; cases ho; rfl
theorem skeleton_at_967 (r : RawWord) (ho : r.opc = 967) : skeleton r = some (some (.mkw r.hdr (clsOf r) (opndOf r.a))) := by
  cases r; cases ho; rfl
theorem skeleton_at_968 (r : RawWord) (ho : r.opc = 968) : skeleton r = some (some (.mkt r.hdr (clsOf r) (opndOf r.a))) := by
  cases r; cases ho; rfl
theorem skeleton_at_969 (r : RawWord) (ho : r.opc = 969) : skeleton r = some (some (.hins r.hdr (clsOf r) (opndOf r.a))) := by
  cases r; cases ho; rfl
theorem skeleton_at_970 (r : RawWord) (ho : r.opc = 970) : skeleton r = some ((scopeNo (bitsOf r.mod 6 4)).map fun sc => .wopn r.hdr sc (clsOf r) (opndOf r.d)) := by
  cases r; cases ho; rfl
theorem skeleton_at_971 (r : RawWord) (ho : r.opc = 971) : skeleton r = some ((scopeNo (bitsOf r.mod 6 4)).map fun sc => .wqt r.hdr (bitAt r.mod 7) sc (clsOf r) (opndOf r.d)) := by
  cases r; cases ho; rfl
theorem skeleton_at_972 (r : RawWord) (ho : r.opc = 972) : skeleton r = some (some (.vred r.hdr (opndOf r.a))) := by
  cases r; cases ho; rfl
theorem skeleton_at_973 (r : RawWord) (ho : r.opc = 973) : skeleton r = some (some (.vcmd r.hdr (clsOf r) (opndOf r.a))) := by
  cases r; cases ho; rfl
theorem skeleton_at_974 (r : RawWord) (ho : r.opc = 974) : skeleton r = some (some (.omrk r.hdr)) := by
  cases r; cases ho; rfl
theorem skeleton_at_993 (r : RawWord) (ho : r.opc = 993) : skeleton r = some ((sigopOf r).map fun op => .csig r.hdr op (opndOf r.a) (opndOf r.b)) := by
  cases r; cases ho; rfl
theorem skeleton_at_994 (r : RawWord) (ho : r.opc = 994) : skeleton r = some ((sigcOf r).map fun c => .swait r.hdr c (opndOf r.d) (opndOf r.a) (opndOf r.b)) := by
  cases r; cases ho; rfl

set_option maxRecDepth 4000 in
/-- An instruction that skeleton names has the word's header and OPC, and is no step. -/
theorem skeleton_names {r : RawWord} {i : Instr} (h : skeleton r = some (some i)) :
    instrHdr i = some r.hdr ∧ instrOpc i = r.opc ∧ i.isStep = false := by
  unfold skeleton at h

  split at h
  all_goals
    rename_i ho
    simp only [Option.some.injEq, Option.bind_eq_bind, Option.bind_eq_some_iff, Option.map_eq_some_iff, reduceCtorEq] at h
  all_goals (obtain ⟨_, -, _, -, rfl⟩ := h; exact ⟨rfl, ho.symm, rfl⟩)

theorem toNat_bitAt (w i : Nat) : (bitAt w i).toNat = w / 2 ^ i % 2 := by
  rw [bitAt_div]; rcases Nat.mod_two_eq_zero_or_one (w / 2 ^ i) with h | h <;> simp [h]

theorem hdr_bits_rawOf (w : Nat) : (rawOf w).hdr.bits = w / 2 ^ 73 % 2 ^ 13 := by
  have e : ∀ k, w / 2 ^ (73 + k) = w / 2 ^ 73 / 2 ^ k := fun k => by rw [Nat.pow_add, Nat.div_div_eq_div_mul]
  have e1 := e 1; have e2 := e 2; have e3 := e 3; have e4 := e 4; have e5 := e 5; have e6 := e 6; have e9 := e 9; have e12 := e 12
  simp only [rawOf, Hdr.bits, toNat_bitAt, bitsOf_div, BitVec.toNat_ofNat]
  generalize w / 2 ^ 73 = y at e1 e2 e3 e4 e5 e6 e9 e12 ⊢
  rw [e1, e2, e3, e4, e5, e6, e9, e12]
  omega

theorem lowBits_rawOf (w : Nat) : (rawOf w).lowBits = w % 2 ^ 64 := by
  simp only [rawOf, RawWord.lowBits, toNat_bitAt, bitsOf_div]
  omega

/-- A word is its fields put together (R39). -/
theorem word_of_fields {w : Nat} (hw : w < 2 ^ 96) :
    (rawOf w).opc * 2 ^ 86 + (rawOf w).hdr.bits * 2 ^ 73 + (rawOf w).mod * 2 ^ 64 + (rawOf w).lowBits = w := by
  rw [hdr_bits_rawOf, lowBits_rawOf]
  simp only [rawOf, bitsOf_div]
  omega

/-- A word that decodes names its instruction, and the instruction's MOD and operand bits are the word's. -/
theorem decode_ok {w : Nat} {i : Instr} (h : decode w = .ok i) :
    skeleton (rawOf w) = some (some i) ∧ instrMod i = (rawOf w).mod ∧ instrLow i = (rawOf w).lowBits ∧ modOk i = true ∧ fieldOk i = true := by
  unfold decode at h
  dsimp only at h
  generalize rawOf w = r at h ⊢
  split at h
  · cases h
  · cases h
  · next j hj =>
    split at h
    · cases h
    · split at h
      · cases h
      · next h1 h2 =>
        cases h
        simp only [Bool.or_eq_true, bne_iff_ne, ne_eq, Bool.not_eq_true', not_or, Decidable.not_not, Bool.not_eq_false] at h1 h2
        exact ⟨hj, h1.1, h2.1, h1.2, h2.2⟩

end Sys2Proof
end

