-- ==== Sys2Proof/Laws/PerInstr.lean ====
section
/-!
SUPPORT. The family Encoding, instruction by instruction: a well-formed instruction has a 96-bit word that decodes to it.
-/
namespace Sys2Proof.Laws.Encoding
open Sys2Proof
set_option linter.unusedSimpArgs false
set_option linter.unusedVariables false

/-- What the family says of an instruction. -/
def Statement (i : Instr) : Prop := WellFormed i = true → ∃ w, encode i = some w ∧ w < 2 ^ 96 ∧ decode w = .ok i

theorem iadd (h : Hdr) (ty : Ty) (md : AddMode) (d : Opnd) (src : Srcs) : Statement (.iadd h ty md d src) := by
  intro wf
  have := ty.code_lt
  cases md with
  | wrap =>
    cases src with
    | two a b =>
      refine decode_ab (d := d) (a := a) (b := b) rfl (by show 0 < 1024; omega) (by show mInt ty 0 0 0 < 512; simp only [mInt]; omega) rfl (ab_ok fun r ho hh hm hd ha hb hf => ?_) wf
      change r.mod = mInt ty 0 0 0 at hm
      rw [skeleton_at_0 r ho, tyOf_eq (x := ty) (by rw [hm, bitsOf_div]; simp only [mInt]; omega), addModeOf_wrap (by rw [hm]; simp only [mInt]; omega) (by rw [hm]; simp only [mInt]; omega), srcsOf_two hf ha hb]
      simp only [hh, hd, ha, hb, Option.bind_eq_bind, Option.bind_some, Option.map_some]
    | wide l =>
      refine decode_wide (d := d) (l := l.toNat) rfl (by show 0 < 1024; omega) (by show mInt ty 0 0 0 < 512; simp only [mInt]; omega) rfl l.isLt (wide_ok fun r ho hh hm hd hl hf => ?_) wf
      change r.mod = mInt ty 0 0 0 at hm
      rw [skeleton_at_0 r ho, tyOf_eq (x := ty) (by rw [hm, bitsOf_div]; simp only [mInt]; omega), addModeOf_wrap (by rw [hm]; simp only [mInt]; omega) (by rw [hm]; simp only [mInt]; omega), srcsOf_wide l hf hl]
      simp only [hh, hd, Option.bind_eq_bind, Option.bind_some, Option.map_some]
  | sat =>
    cases src with
    | two a b =>
      refine decode_ab (d := d) (a := a) (b := b) rfl (by show 0 < 1024; omega) (by show mInt ty 0 1 0 < 512; simp only [mInt]; omega) rfl (ab_ok fun r ho hh hm hd ha hb hf => ?_) wf
      change r.mod = mInt ty 0 1 0 at hm
      rw [skeleton_at_0 r ho, tyOf_eq (x := ty) (by rw [hm, bitsOf_div]; simp only [mInt]; omega), addModeOf_sat (by rw [hm]; simp only [mInt]; omega) (by rw [hm]; simp only [mInt]; omega), srcsOf_two hf ha hb]
      simp only [hh, hd, ha, hb, Option.bind_eq_bind, Option.bind_some, Option.map_some]
    | wide l =>
      refine decode_wide (d := d) (l := l.toNat) rfl (by show 0 < 1024; omega) (by show mInt ty 0 1 0 < 512; simp only [mInt]; omega) rfl l.isLt (wide_ok fun r ho hh hm hd hl hf => ?_) wf
      change r.mod = mInt ty 0 1 0 at hm
      rw [skeleton_at_0 r ho, tyOf_eq (x := ty) (by rw [hm, bitsOf_div]; simp only [mInt]; omega), addModeOf_sat (by rw [hm]; simp only [mInt]; omega) (by rw [hm]; simp only [mInt]; omega), srcsOf_wide l hf hl]
      simp only [hh, hd, Option.bind_eq_bind, Option.bind_some, Option.map_some]
  | carry q =>
    have := q.isLt
    cases src with
    | two a b =>
      refine decode_ab (d := d) (a := a) (b := b) rfl (by show 0 < 1024; omega) (by show mInt ty q.toNat 0 1 < 512; simp only [mInt]; omega) rfl (ab_ok fun r ho hh hm hd ha hb hf => ?_) wf
      change r.mod = mInt ty q.toNat 0 1 at hm
      rw [skeleton_at_0 r ho, tyOf_eq (x := ty) (by rw [hm, bitsOf_div]; simp only [mInt]; omega), addModeOf_carry (q := q) (by rw [hm]; simp only [mInt]; omega) (by rw [hm]; simp only [mInt]; omega) (by rw [hm, bitsOf_div]; simp only [mInt]; omega), srcsOf_two hf ha hb]
      simp only [hh, hd, ha, hb, Option.bind_eq_bind, Option.bind_some, Option.map_some]
    | wide l =>
      refine decode_wide (d := d) (l := l.toNat) rfl (by show 0 < 1024; omega) (by show mInt ty q.toNat 0 1 < 512; simp only [mInt]; omega) rfl l.isLt (wide_ok fun r ho hh hm hd hl hf => ?_) wf
      change r.mod = mInt ty q.toNat 0 1 at hm
      rw [skeleton_at_0 r ho, tyOf_eq (x := ty) (by rw [hm, bitsOf_div]; simp only [mInt]; omega), addModeOf_carry (q := q) (by rw [hm]; simp only [mInt]; omega) (by rw [hm]; simp only [mInt]; omega) (by rw [hm, bitsOf_div]; simp only [mInt]; omega), srcsOf_wide l hf hl]
      simp only [hh, hd, Option.bind_eq_bind, Option.bind_some, Option.map_some]
theorem isub (h : Hdr) (ty : Ty) (md : AddMode) (d : Opnd) (src : Srcs) : Statement (.isub h ty md d src) := by
  intro wf
  have := ty.code_lt
  cases md with
  | wrap =>
    cases src with
    | two a b =>
      refine decode_ab (d := d) (a := a) (b := b) rfl (by show 1 < 1024; omega) (by show mInt ty 0 0 0 < 512; simp only [mInt]; omega) rfl (ab_ok fun r ho hh hm hd ha hb hf => ?_) wf
      change r.mod = mInt ty 0 0 0 at hm
      rw [skeleton_at_1 r ho, tyOf_eq (x := ty) (by rw [hm, bitsOf_div]; simp only [mInt]; omega), addModeOf_wrap (by rw [hm]; simp only [mInt]; omega) (by rw [hm]; simp only [mInt]; omega), srcsOf_two hf ha hb]
      simp only [hh, hd, ha, hb, Option.bind_eq_bind, Option.bind_some, Option.map_some]
    | wide l =>
      refine decode_wide (d := d) (l := l.toNat) rfl (by show 1 < 1024; omega) (by show mInt ty 0 0 0 < 512; simp only [mInt]; omega) rfl l.isLt (wide_ok fun r ho hh hm hd hl hf => ?_) wf
      change r.mod = mInt ty 0 0 0 at hm
      rw [skeleton_at_1 r ho, tyOf_eq (x := ty) (by rw [hm, bitsOf_div]; simp only [mInt]; omega), addModeOf_wrap (by rw [hm]; simp only [mInt]; omega) (by rw [hm]; simp only [mInt]; omega), srcsOf_wide l hf hl]
      simp only [hh, hd, Option.bind_eq_bind, Option.bind_some, Option.map_some]
  | sat =>
    cases src with
    | two a b =>
      refine decode_ab (d := d) (a := a) (b := b) rfl (by show 1 < 1024; omega) (by show mInt ty 0 1 0 < 512; simp only [mInt]; omega) rfl (ab_ok fun r ho hh hm hd ha hb hf => ?_) wf
      change r.mod = mInt ty 0 1 0 at hm
      rw [skeleton_at_1 r ho, tyOf_eq (x := ty) (by rw [hm, bitsOf_div]; simp only [mInt]; omega), addModeOf_sat (by rw [hm]; simp only [mInt]; omega) (by rw [hm]; simp only [mInt]; omega), srcsOf_two hf ha hb]
      simp only [hh, hd, ha, hb, Option.bind_eq_bind, Option.bind_some, Option.map_some]
    | wide l =>
      refine decode_wide (d := d) (l := l.toNat) rfl (by show 1 < 1024; omega) (by show mInt ty 0 1 0 < 512; simp only [mInt]; omega) rfl l.isLt (wide_ok fun r ho hh hm hd hl hf => ?_) wf
      change r.mod = mInt ty 0 1 0 at hm
      rw [skeleton_at_1 r ho, tyOf_eq (x := ty) (by rw [hm, bitsOf_div]; simp only [mInt]; omega), addModeOf_sat (by rw [hm]; simp only [mInt]; omega) (by rw [hm]; simp only [mInt]; omega), srcsOf_wide l hf hl]
      simp only [hh, hd, Option.bind_eq_bind, Option.bind_some, Option.map_some]
  | carry q =>
    have := q.isLt
    cases src with
    | two a b =>
      refine decode_ab (d := d) (a := a) (b := b) rfl (by show 1 < 1024; omega) (by show mInt ty q.toNat 0 1 < 512; simp only [mInt]; omega) rfl (ab_ok fun r ho hh hm hd ha hb hf => ?_) wf
      change r.mod = mInt ty q.toNat 0 1 at hm
      rw [skeleton_at_1 r ho, tyOf_eq (x := ty) (by rw [hm, bitsOf_div]; simp only [mInt]; omega), addModeOf_carry (q := q) (by rw [hm]; simp only [mInt]; omega) (by rw [hm]; simp only [mInt]; omega) (by rw [hm, bitsOf_div]; simp only [mInt]; omega), srcsOf_two hf ha hb]
      simp only [hh, hd, ha, hb, Option.bind_eq_bind, Option.bind_some, Option.map_some]
    | wide l =>
      refine decode_wide (d := d) (l := l.toNat) rfl (by show 1 < 1024; omega) (by show mInt ty q.toNat 0 1 < 512; simp only [mInt]; omega) rfl l.isLt (wide_ok fun r ho hh hm hd hl hf => ?_) wf
      change r.mod = mInt ty q.toNat 0 1 at hm
      rw [skeleton_at_1 r ho, tyOf_eq (x := ty) (by rw [hm, bitsOf_div]; simp only [mInt]; omega), addModeOf_carry (q := q) (by rw [hm]; simp only [mInt]; omega) (by rw [hm]; simp only [mInt]; omega) (by rw [hm, bitsOf_div]; simp only [mInt]; omega), srcsOf_wide l hf hl]
      simp only [hh, hd, Option.bind_eq_bind, Option.bind_some, Option.map_some]
theorem imul (h : Hdr) (ty : Ty) (sat : Bool) (d : Opnd) (src : Srcs) : Statement (.imul h ty sat d src) := by
  intro wf
  have := ty.code_lt
  have := sat.toNat_lt
  cases src with
  | two a b =>
    refine decode_ab (d := d) (a := a) (b := b) rfl (by show 2 < 1024; omega) (by show mInt ty 0 sat.toNat 0 < 512; simp only [mInt]; omega) rfl (ab_ok fun r ho hh hm hd ha hb hf => ?_) wf
    change r.mod = mInt ty 0 sat.toNat 0 at hm
    rw [skeleton_at_2 r ho, tyOf_eq (x := ty) (by rw [hm, bitsOf_div]; simp only [mInt]; omega), satOf_eq (x := sat) (by rw [hm]; simp only [mInt]; omega), srcsOf_two hf ha hb]
    simp only [hh, hd, ha, hb, Option.bind_eq_bind, Option.bind_some, Option.map_some]
  | wide l =>
    refine decode_wide (d := d) (l := l.toNat) rfl (by show 2 < 1024; omega) (by show mInt ty 0 sat.toNat 0 < 512; simp only [mInt]; omega) rfl l.isLt (wide_ok fun r ho hh hm hd hl hf => ?_) wf
    change r.mod = mInt ty 0 sat.toNat 0 at hm
    rw [skeleton_at_2 r ho, tyOf_eq (x := ty) (by rw [hm, bitsOf_div]; simp only [mInt]; omega), satOf_eq (x := sat) (by rw [hm]; simp only [mInt]; omega), srcsOf_wide l hf hl]
    simp only [hh, hd, Option.bind_eq_bind, Option.bind_some, Option.map_some]
theorem imulh (h : Hdr) (ty : Ty) (d a b : Opnd) : Statement (.imulh h ty d a b) := by
  intro wf
  have := ty.code_lt
  refine decode_ab (d := d) (a := a) (b := b) rfl (by show 3 < 1024; omega) (by show mInt ty 0 0 0 < 512; simp only [mInt]; omega) rfl (ab_ok fun r ho hh hm hd ha hb hf => ?_) wf
  change r.mod = mInt ty 0 0 0 at hm
  rw [skeleton_at_3 r ho, tyOf_eq (x := ty) (by rw [hm, bitsOf_div]; simp only [mInt]; omega)]
  simp only [hh, hd, ha, hb, Option.bind_eq_bind, Option.bind_some, Option.map_some]
theorem imad (h : Hdr) (ty : Ty) (sat : Bool) (d a b : Opnd) : Statement (.imad h ty sat d a b) := by
  intro wf
  have := ty.code_lt
  have := sat.toNat_lt
  refine decode_ab (d := d) (a := a) (b := b) rfl (by show 4 < 1024; omega) (by show mInt ty 0 sat.toNat 0 < 512; simp only [mInt]; omega) rfl (ab_ok fun r ho hh hm hd ha hb hf => ?_) wf
  change r.mod = mInt ty 0 sat.toNat 0 at hm
  rw [skeleton_at_4 r ho, tyOf_eq (x := ty) (by rw [hm, bitsOf_div]; simp only [mInt]; omega), satOf_eq (x := sat) (by rw [hm]; simp only [mInt]; omega)]
  simp only [hh, hd, ha, hb, Option.bind_eq_bind, Option.bind_some, Option.map_some]
theorem imin (h : Hdr) (ty : Ty) (d : Opnd) (src : Srcs) : Statement (.imin h ty d src) := by
  intro wf
  have := ty.code_lt
  cases src with
  | two a b =>
    refine decode_ab (d := d) (a := a) (b := b) rfl (by show 5 < 1024; omega) (by show mInt ty 0 0 0 < 512; simp only [mInt]; omega) rfl (ab_ok fun r ho hh hm hd ha hb hf => ?_) wf
    change r.mod = mInt ty 0 0 0 at hm
    rw [skeleton_at_5 r ho, tyOf_eq (x := ty) (by rw [hm, bitsOf_div]; simp only [mInt]; omega), srcsOf_two hf ha hb]
    simp only [hh, hd, ha, hb, Option.bind_eq_bind, Option.bind_some, Option.map_some]
  | wide l =>
    refine decode_wide (d := d) (l := l.toNat) rfl (by show 5 < 1024; omega) (by show mInt ty 0 0 0 < 512; simp only [mInt]; omega) rfl l.isLt (wide_ok fun r ho hh hm hd hl hf => ?_) wf
    change r.mod = mInt ty 0 0 0 at hm
    rw [skeleton_at_5 r ho, tyOf_eq (x := ty) (by rw [hm, bitsOf_div]; simp only [mInt]; omega), srcsOf_wide l hf hl]
    simp only [hh, hd, Option.bind_eq_bind, Option.bind_some, Option.map_some]
theorem imax (h : Hdr) (ty : Ty) (d : Opnd) (src : Srcs) : Statement (.imax h ty d src) := by
  intro wf
  have := ty.code_lt
  cases src with
  | two a b =>
    refine decode_ab (d := d) (a := a) (b := b) rfl (by show 6 < 1024; omega) (by show mInt ty 0 0 0 < 512; simp only [mInt]; omega) rfl (ab_ok fun r ho hh hm hd ha hb hf => ?_) wf
    change r.mod = mInt ty 0 0 0 at hm
    rw [skeleton_at_6 r ho, tyOf_eq (x := ty) (by rw [hm, bitsOf_div]; simp only [mInt]; omega), srcsOf_two hf ha hb]
    simp only [hh, hd, ha, hb, Option.bind_eq_bind, Option.bind_some, Option.map_some]
  | wide l =>
    refine decode_wide (d := d) (l := l.toNat) rfl (by show 6 < 1024; omega) (by show mInt ty 0 0 0 < 512; simp only [mInt]; omega) rfl l.isLt (wide_ok fun r ho hh hm hd hl hf => ?_) wf
    change r.mod = mInt ty 0 0 0 at hm
    rw [skeleton_at_6 r ho, tyOf_eq (x := ty) (by rw [hm, bitsOf_div]; simp only [mInt]; omega), srcsOf_wide l hf hl]
    simp only [hh, hd, Option.bind_eq_bind, Option.bind_some, Option.map_some]
theorem iabs (h : Hdr) (ty : Ty) (sat : Bool) (d a : Opnd) : Statement (.iabs h ty sat d a) := by
  intro wf
  have := ty.code_lt
  have := sat.toNat_lt
  refine decode_ab (d := d) (a := a) (b := .none) rfl (by show 7 < 1024; omega) (by show mInt ty 0 sat.toNat 0 < 512; simp only [mInt]; omega) rfl (ab_ok fun r ho hh hm hd ha hb hf => ?_) wf
  change r.mod = mInt ty 0 sat.toNat 0 at hm
  rw [skeleton_at_7 r ho, tyOf_eq (x := ty) (by rw [hm, bitsOf_div]; simp only [mInt]; omega), satOf_eq (x := sat) (by rw [hm]; simp only [mInt]; omega)]
  simp only [hh, hd, ha, hb, Option.bind_eq_bind, Option.bind_some, Option.map_some]
theorem ineg (h : Hdr) (ty : Ty) (sat : Bool) (d a : Opnd) : Statement (.ineg h ty sat d a) := by
  intro wf
  have := ty.code_lt
  have := sat.toNat_lt
  refine decode_ab (d := d) (a := a) (b := .none) rfl (by show 8 < 1024; omega) (by show mInt ty 0 sat.toNat 0 < 512; simp only [mInt]; omega) rfl (ab_ok fun r ho hh hm hd ha hb hf => ?_) wf
  change r.mod = mInt ty 0 sat.toNat 0 at hm
  rw [skeleton_at_8 r ho, tyOf_eq (x := ty) (by rw [hm, bitsOf_div]; simp only [mInt]; omega), satOf_eq (x := sat) (by rw [hm]; simp only [mInt]; omega)]
  simp only [hh, hd, ha, hb, Option.bind_eq_bind, Option.bind_some, Option.map_some]
theorem and (h : Hdr) (ty : Ty) (d : Opnd) (src : Srcs) : Statement (.and h ty d src) := by
  intro wf
  have := ty.code_lt
  cases src with
  | two a b =>
    refine decode_ab (d := d) (a := a) (b := b) rfl (by show 9 < 1024; omega) (by show mInt ty 0 0 0 < 512; simp only [mInt]; omega) rfl (ab_ok fun r ho hh hm hd ha hb hf => ?_) wf
    change r.mod = mInt ty 0 0 0 at hm
    rw [skeleton_at_9 r ho, tyOf_eq (x := ty) (by rw [hm, bitsOf_div]; simp only [mInt]; omega), srcsOf_two hf ha hb]
    simp only [hh, hd, ha, hb, Option.bind_eq_bind, Option.bind_some, Option.map_some]
  | wide l =>
    refine decode_wide (d := d) (l := l.toNat) rfl (by show 9 < 1024; omega) (by show mInt ty 0 0 0 < 512; simp only [mInt]; omega) rfl l.isLt (wide_ok fun r ho hh hm hd hl hf => ?_) wf
    change r.mod = mInt ty 0 0 0 at hm
    rw [skeleton_at_9 r ho, tyOf_eq (x := ty) (by rw [hm, bitsOf_div]; simp only [mInt]; omega), srcsOf_wide l hf hl]
    simp only [hh, hd, Option.bind_eq_bind, Option.bind_some, Option.map_some]
theorem or (h : Hdr) (ty : Ty) (d : Opnd) (src : Srcs) : Statement (.or h ty d src) := by
  intro wf
  have := ty.code_lt
  cases src with
  | two a b =>
    refine decode_ab (d := d) (a := a) (b := b) rfl (by show 10 < 1024; omega) (by show mInt ty 0 0 0 < 512; simp only [mInt]; omega) rfl (ab_ok fun r ho hh hm hd ha hb hf => ?_) wf
    change r.mod = mInt ty 0 0 0 at hm
    rw [skeleton_at_10 r ho, tyOf_eq (x := ty) (by rw [hm, bitsOf_div]; simp only [mInt]; omega), srcsOf_two hf ha hb]
    simp only [hh, hd, ha, hb, Option.bind_eq_bind, Option.bind_some, Option.map_some]
  | wide l =>
    refine decode_wide (d := d) (l := l.toNat) rfl (by show 10 < 1024; omega) (by show mInt ty 0 0 0 < 512; simp only [mInt]; omega) rfl l.isLt (wide_ok fun r ho hh hm hd hl hf => ?_) wf
    change r.mod = mInt ty 0 0 0 at hm
    rw [skeleton_at_10 r ho, tyOf_eq (x := ty) (by rw [hm, bitsOf_div]; simp only [mInt]; omega), srcsOf_wide l hf hl]
    simp only [hh, hd, Option.bind_eq_bind, Option.bind_some, Option.map_some]
theorem xor (h : Hdr) (ty : Ty) (d : Opnd) (src : Srcs) : Statement (.xor h ty d src) := by
  intro wf
  have := ty.code_lt
  cases src with
  | two a b =>
    refine decode_ab (d := d) (a := a) (b := b) rfl (by show 11 < 1024; omega) (by show mInt ty 0 0 0 < 512; simp only [mInt]; omega) rfl (ab_ok fun r ho hh hm hd ha hb hf => ?_) wf
    change r.mod = mInt ty 0 0 0 at hm
    rw [skeleton_at_11 r ho, tyOf_eq (x := ty) (by rw [hm, bitsOf_div]; simp only [mInt]; omega), srcsOf_two hf ha hb]
    simp only [hh, hd, ha, hb, Option.bind_eq_bind, Option.bind_some, Option.map_some]
  | wide l =>
    refine decode_wide (d := d) (l := l.toNat) rfl (by show 11 < 1024; omega) (by show mInt ty 0 0 0 < 512; simp only [mInt]; omega) rfl l.isLt (wide_ok fun r ho hh hm hd hl hf => ?_) wf
    change r.mod = mInt ty 0 0 0 at hm
    rw [skeleton_at_11 r ho, tyOf_eq (x := ty) (by rw [hm, bitsOf_div]; simp only [mInt]; omega), srcsOf_wide l hf hl]
    simp only [hh, hd, Option.bind_eq_bind, Option.bind_some, Option.map_some]
theorem andn (h : Hdr) (ty : Ty) (d : Opnd) (src : Srcs) : Statement (.andn h ty d src) := by
  intro wf
  have := ty.code_lt
  cases src with
  | two a b =>
    refine decode_ab (d := d) (a := a) (b := b) rfl (by show 12 < 1024; omega) (by show mInt ty 0 0 0 < 512; simp only [mInt]; omega) rfl (ab_ok fun r ho hh hm hd ha hb hf => ?_) wf
    change r.mod = mInt ty 0 0 0 at hm
    rw [skeleton_at_12 r ho, tyOf_eq (x := ty) (by rw [hm, bitsOf_div]; simp only [mInt]; omega), srcsOf_two hf ha hb]
    simp only [hh, hd, ha, hb, Option.bind_eq_bind, Option.bind_some, Option.map_some]
  | wide l =>
    refine decode_wide (d := d) (l := l.toNat) rfl (by show 12 < 1024; omega) (by show mInt ty 0 0 0 < 512; simp only [mInt]; omega) rfl l.isLt (wide_ok fun r ho hh hm hd hl hf => ?_) wf
    change r.mod = mInt ty 0 0 0 at hm
    rw [skeleton_at_12 r ho, tyOf_eq (x := ty) (by rw [hm, bitsOf_div]; simp only [mInt]; omega), srcsOf_wide l hf hl]
    simp only [hh, hd, Option.bind_eq_bind, Option.bind_some, Option.map_some]
theorem not (h : Hdr) (ty : Ty) (d a : Opnd) : Statement (.not h ty d a) := by
  intro wf
  have := ty.code_lt
  refine decode_ab (d := d) (a := a) (b := .none) rfl (by show 13 < 1024; omega) (by show mInt ty 0 0 0 < 512; simp only [mInt]; omega) rfl (ab_ok fun r ho hh hm hd ha hb hf => ?_) wf
  change r.mod = mInt ty 0 0 0 at hm
  rw [skeleton_at_13 r ho, tyOf_eq (x := ty) (by rw [hm, bitsOf_div]; simp only [mInt]; omega)]
  simp only [hh, hd, ha, hb, Option.bind_eq_bind, Option.bind_some, Option.map_some]
theorem shl (h : Hdr) (ty : Ty) (d a b : Opnd) : Statement (.shl h ty d a b) := by
  intro wf
  have := ty.code_lt
  refine decode_ab (d := d) (a := a) (b := b) rfl (by show 14 < 1024; omega) (by show mInt ty 0 0 0 < 512; simp only [mInt]; omega) rfl (ab_ok fun r ho hh hm hd ha hb hf => ?_) wf
  change r.mod = mInt ty 0 0 0 at hm
  rw [skeleton_at_14 r ho, tyOf_eq (x := ty) (by rw [hm, bitsOf_div]; simp only [mInt]; omega)]
  simp only [hh, hd, ha, hb, Option.bind_eq_bind, Option.bind_some, Option.map_some]
theorem shr (h : Hdr) (ty : Ty) (d a b : Opnd) : Statement (.shr h ty d a b) := by
  intro wf
  have := ty.code_lt
  refine decode_ab (d := d) (a := a) (b := b) rfl (by show 15 < 1024; omega) (by show mInt ty 0 0 0 < 512; simp only [mInt]; omega) rfl (ab_ok fun r ho hh hm hd ha hb hf => ?_) wf
  change r.mod = mInt ty 0 0 0 at hm
  rw [skeleton_at_15 r ho, tyOf_eq (x := ty) (by rw [hm, bitsOf_div]; simp only [mInt]; omega)]
  simp only [hh, hd, ha, hb, Option.bind_eq_bind, Option.bind_some, Option.map_some]
theorem sar (h : Hdr) (ty : Ty) (d a b : Opnd) : Statement (.sar h ty d a b) := by
  intro wf
  have := ty.code_lt
  refine decode_ab (d := d) (a := a) (b := b) rfl (by show 16 < 1024; omega) (by show mInt ty 0 0 0 < 512; simp only [mInt]; omega) rfl (ab_ok fun r ho hh hm hd ha hb hf => ?_) wf
  change r.mod = mInt ty 0 0 0 at hm
  rw [skeleton_at_16 r ho, tyOf_eq (x := ty) (by rw [hm, bitsOf_div]; simp only [mInt]; omega)]
  simp only [hh, hd, ha, hb, Option.bind_eq_bind, Option.bind_some, Option.map_some]
theorem rol (h : Hdr) (ty : Ty) (d a b : Opnd) : Statement (.rol h ty d a b) := by
  intro wf
  have := ty.code_lt
  refine decode_ab (d := d) (a := a) (b := b) rfl (by show 17 < 1024; omega) (by show mInt ty 0 0 0 < 512; simp only [mInt]; omega) rfl (ab_ok fun r ho hh hm hd ha hb hf => ?_) wf
  change r.mod = mInt ty 0 0 0 at hm
  rw [skeleton_at_17 r ho, tyOf_eq (x := ty) (by rw [hm, bitsOf_div]; simp only [mInt]; omega)]
  simp only [hh, hd, ha, hb, Option.bind_eq_bind, Option.bind_some, Option.map_some]
theorem popc (h : Hdr) (ty : Ty) (d a : Opnd) : Statement (.popc h ty d a) := by
  intro wf
  have := ty.code_lt
  refine decode_ab (d := d) (a := a) (b := .none) rfl (by show 18 < 1024; omega) (by show mInt ty 0 0 0 < 512; simp only [mInt]; omega) rfl (ab_ok fun r ho hh hm hd ha hb hf => ?_) wf
  change r.mod = mInt ty 0 0 0 at hm
  rw [skeleton_at_18 r ho, tyOf_eq (x := ty) (by rw [hm, bitsOf_div]; simp only [mInt]; omega)]
  simp only [hh, hd, ha, hb, Option.bind_eq_bind, Option.bind_some, Option.map_some]
theorem clz (h : Hdr) (ty : Ty) (d a : Opnd) : Statement (.clz h ty d a) := by
  intro wf
  have := ty.code_lt
  refine decode_ab (d := d) (a := a) (b := .none) rfl (by show 19 < 1024; omega) (by show mInt ty 0 0 0 < 512; simp only [mInt]; omega) rfl (ab_ok fun r ho hh hm hd ha hb hf => ?_) wf
  change r.mod = mInt ty 0 0 0 at hm
  rw [skeleton_at_19 r ho, tyOf_eq (x := ty) (by rw [hm, bitsOf_div]; simp only [mInt]; omega)]
  simp only [hh, hd, ha, hb, Option.bind_eq_bind, Option.bind_some, Option.map_some]
theorem ctz (h : Hdr) (ty : Ty) (d a : Opnd) : Statement (.ctz h ty d a) := by
  intro wf
  have := ty.code_lt
  refine decode_ab (d := d) (a := a) (b := .none) rfl (by show 20 < 1024; omega) (by show mInt ty 0 0 0 < 512; simp only [mInt]; omega) rfl (ab_ok fun r ho hh hm hd ha hb hf => ?_) wf
  change r.mod = mInt ty 0 0 0 at hm
  rw [skeleton_at_20 r ho, tyOf_eq (x := ty) (by rw [hm, bitsOf_div]; simp only [mInt]; omega)]
  simp only [hh, hd, ha, hb, Option.bind_eq_bind, Option.bind_some, Option.map_some]
theorem brev (h : Hdr) (ty : Ty) (d a : Opnd) : Statement (.brev h ty d a) := by
  intro wf
  have := ty.code_lt
  refine decode_ab (d := d) (a := a) (b := .none) rfl (by show 21 < 1024; omega) (by show mInt ty 0 0 0 < 512; simp only [mInt]; omega) rfl (ab_ok fun r ho hh hm hd ha hb hf => ?_) wf
  change r.mod = mInt ty 0 0 0 at hm
  rw [skeleton_at_21 r ho, tyOf_eq (x := ty) (by rw [hm, bitsOf_div]; simp only [mInt]; omega)]
  simp only [hh, hd, ha, hb, Option.bind_eq_bind, Option.bind_some, Option.map_some]
theorem bfx (h : Hdr) (ty : Ty) (d a b : Opnd) : Statement (.bfx h ty d a b) := by
  intro wf
  have := ty.code_lt
  refine decode_ab (d := d) (a := a) (b := b) rfl (by show 22 < 1024; omega) (by show mInt ty 0 0 0 < 512; simp only [mInt]; omega) rfl (ab_ok fun r ho hh hm hd ha hb hf => ?_) wf
  change r.mod = mInt ty 0 0 0 at hm
  rw [skeleton_at_22 r ho, tyOf_eq (x := ty) (by rw [hm, bitsOf_div]; simp only [mInt]; omega)]
  simp only [hh, hd, ha, hb, Option.bind_eq_bind, Option.bind_some, Option.map_some]
theorem bfi (h : Hdr) (ty : Ty) (d a b : Opnd) : Statement (.bfi h ty d a b) := by
  intro wf
  have := ty.code_lt
  refine decode_ab (d := d) (a := a) (b := b) rfl (by show 23 < 1024; omega) (by show mInt ty 0 0 0 < 512; simp only [mInt]; omega) rfl (ab_ok fun r ho hh hm hd ha hb hf => ?_) wf
  change r.mod = mInt ty 0 0 0 at hm
  rw [skeleton_at_23 r ho, tyOf_eq (x := ty) (by rw [hm, bitsOf_div]; simp only [mInt]; omega)]
  simp only [hh, hd, ha, hb, Option.bind_eq_bind, Option.bind_some, Option.map_some]
theorem lea (h : Hdr) (ty : Ty) (s : BitVec 3) (d a b : Opnd) : Statement (.lea h ty s d a b) := by
  intro wf
  have := ty.code_lt
  have := s.isLt
  refine decode_ab (d := d) (a := a) (b := b) rfl (by show 24 < 1024; omega) (by show mInt ty s.toNat 0 0 < 512; simp only [mInt]; omega) rfl (ab_ok fun r ho hh hm hd ha hb hf => ?_) wf
  change r.mod = mInt ty s.toNat 0 0 at hm
  rw [skeleton_at_24 r ho, tyOf_eq (x := ty) (by rw [hm, bitsOf_div]; simp only [mInt]; omega), sub3Of_eq (x := s) (by rw [hm, bitsOf_div]; simp only [mInt]; omega)]
  simp only [hh, hd, ha, hb, Option.bind_eq_bind, Option.bind_some, Option.map_some]
theorem mov (h : Hdr) (ty : Ty) (d a : Opnd) : Statement (.mov h ty d a) := by
  intro wf
  have := ty.code_lt
  refine decode_ab (d := d) (a := a) (b := .none) rfl (by show 25 < 1024; omega) (by show mInt ty 0 0 0 < 512; simp only [mInt]; omega) rfl (ab_ok fun r ho hh hm hd ha hb hf => ?_) wf
  change r.mod = mInt ty 0 0 0 at hm
  rw [skeleton_at_25 r ho, tyOf_eq (x := ty) (by rw [hm, bitsOf_div]; simp only [mInt]; omega)]
  simp only [hh, hd, ha, hb, Option.bind_eq_bind, Option.bind_some, Option.map_some]
theorem movi (h : Hdr) (ty : Ty) (d : Opnd) (src : Srcs) : Statement (.movi h ty d src) := by
  intro wf
  have := ty.code_lt
  cases src with
  | two a b =>
    refine decode_ab (d := d) (a := a) (b := b) rfl (by show 26 < 1024; omega) (by show mInt ty 0 0 0 < 512; simp only [mInt]; omega) rfl (ab_ok fun r ho hh hm hd ha hb hf => ?_) wf
    change r.mod = mInt ty 0 0 0 at hm
    rw [skeleton_at_26 r ho, tyOf_eq (x := ty) (by rw [hm, bitsOf_div]; simp only [mInt]; omega), srcsOf_two hf ha hb]
    simp only [hh, hd, ha, hb, Option.bind_eq_bind, Option.bind_some, Option.map_some]
  | wide l =>
    refine decode_wide (d := d) (l := l.toNat) rfl (by show 26 < 1024; omega) (by show mInt ty 0 0 0 < 512; simp only [mInt]; omega) rfl l.isLt (wide_ok fun r ho hh hm hd hl hf => ?_) wf
    change r.mod = mInt ty 0 0 0 at hm
    rw [skeleton_at_26 r ho, tyOf_eq (x := ty) (by rw [hm, bitsOf_div]; simp only [mInt]; omega), srcsOf_wide l hf hl]
    simp only [hh, hd, Option.bind_eq_bind, Option.bind_some, Option.map_some]
theorem sel (h : Hdr) (ty : Ty) (q : BitVec 3) (neg : Bool) (d a b : Opnd) : Statement (.sel h ty q neg d a b) := by
  intro wf
  have := ty.code_lt
  have := q.isLt
  have := neg.toNat_lt
  refine decode_ab (d := d) (a := a) (b := b) rfl (by show 27 < 1024; omega) (by show mInt ty q.toNat 0 neg.toNat < 512; simp only [mInt]; omega) rfl (ab_ok fun r ho hh hm hd ha hb hf => ?_) wf
  change r.mod = mInt ty q.toNat 0 neg.toNat at hm
  rw [skeleton_at_27 r ho, tyOf_eq (x := ty) (by rw [hm, bitsOf_div]; simp only [mInt]; omega), sub3Of_eq (x := q) (by rw [hm, bitsOf_div]; simp only [mInt]; omega), bit0Of_eq (x := neg) (by rw [hm]; simp only [mInt]; omega)]
  simp only [hh, hd, ha, hb, Option.bind_eq_bind, Option.bind_some, Option.map_some]
theorem icmp (h : Hdr) (ty : Ty) (c : ICond) (d a b : Opnd) : Statement (.icmp h ty c d a b) := by
  intro wf
  have := ty.code_lt
  have := c.code_lt
  refine decode_ab (d := d) (a := a) (b := b) rfl (by show 28 < 1024; omega) (by show mInt ty c.code 0 0 < 512; simp only [mInt]; omega) rfl (ab_ok fun r ho hh hm hd ha hb hf => ?_) wf
  change r.mod = mInt ty c.code 0 0 at hm
  rw [skeleton_at_28 r ho, tyOf_eq (x := ty) (by rw [hm, bitsOf_div]; simp only [mInt]; omega), icondOf_eq (x := c) (by rw [hm, bitsOf_div]; simp only [mInt]; omega)]
  simp only [hh, hd, ha, hb, Option.bind_eq_bind, Option.bind_some, Option.map_some]
theorem fadd (h : Hdr) (ty : Ty) (rnd : Rnd) (sat x2 : Bool) (d : Opnd) (src : Srcs) : Statement (.fadd h ty rnd sat x2 d src) := by
  intro wf
  have := ty.code_lt
  have := rnd.code_lt
  have := sat.toNat_lt
  have := x2.toNat_lt
  cases src with
  | two a b =>
    refine decode_ab (d := d) (a := a) (b := b) rfl (by show 128 < 1024; omega) (by show mInt ty rnd.code sat.toNat x2.toNat < 512; simp only [mInt]; omega) rfl (ab_ok fun r ho hh hm hd ha hb hf => ?_) wf
    change r.mod = mInt ty rnd.code sat.toNat x2.toNat at hm
    rw [skeleton_at_128 r ho, tyOf_eq (x := ty) (by rw [hm, bitsOf_div]; simp only [mInt]; omega), rndOf_eq (x := rnd) (by rw [hm, bitsOf_div]; simp only [mInt]; omega), satOf_eq (x := sat) (by rw [hm]; simp only [mInt]; omega), bit0Of_eq (x := x2) (by rw [hm]; simp only [mInt]; omega), srcsOf_two hf ha hb]
    simp only [hh, hd, ha, hb, Option.bind_eq_bind, Option.bind_some, Option.map_some]
  | wide l =>
    refine decode_wide (d := d) (l := l.toNat) rfl (by show 128 < 1024; omega) (by show mInt ty rnd.code sat.toNat x2.toNat < 512; simp only [mInt]; omega) rfl l.isLt (wide_ok fun r ho hh hm hd hl hf => ?_) wf
    change r.mod = mInt ty rnd.code sat.toNat x2.toNat at hm
    rw [skeleton_at_128 r ho, tyOf_eq (x := ty) (by rw [hm, bitsOf_div]; simp only [mInt]; omega), rndOf_eq (x := rnd) (by rw [hm, bitsOf_div]; simp only [mInt]; omega), satOf_eq (x := sat) (by rw [hm]; simp only [mInt]; omega), bit0Of_eq (x := x2) (by rw [hm]; simp only [mInt]; omega), srcsOf_wide l hf hl]
    simp only [hh, hd, Option.bind_eq_bind, Option.bind_some, Option.map_some]
theorem fsub (h : Hdr) (ty : Ty) (rnd : Rnd) (sat x2 : Bool) (d : Opnd) (src : Srcs) : Statement (.fsub h ty rnd sat x2 d src) := by
  intro wf
  have := ty.code_lt
  have := rnd.code_lt
  have := sat.toNat_lt
  have := x2.toNat_lt
  cases src with
  | two a b =>
    refine decode_ab (d := d) (a := a) (b := b) rfl (by show 129 < 1024; omega) (by show mInt ty rnd.code sat.toNat x2.toNat < 512; simp only [mInt]; omega) rfl (ab_ok fun r ho hh hm hd ha hb hf => ?_) wf
    change r.mod = mInt ty rnd.code sat.toNat x2.toNat at hm
    rw [skeleton_at_129 r ho, tyOf_eq (x := ty) (by rw [hm, bitsOf_div]; simp only [mInt]; omega), rndOf_eq (x := rnd) (by rw [hm, bitsOf_div]; simp only [mInt]; omega), satOf_eq (x := sat) (by rw [hm]; simp only [mInt]; omega), bit0Of_eq (x := x2) (by rw [hm]; simp only [mInt]; omega), srcsOf_two hf ha hb]
    simp only [hh, hd, ha, hb, Option.bind_eq_bind, Option.bind_some, Option.map_some]
  | wide l =>
    refine decode_wide (d := d) (l := l.toNat) rfl (by show 129 < 1024; omega) (by show mInt ty rnd.code sat.toNat x2.toNat < 512; simp only [mInt]; omega) rfl l.isLt (wide_ok fun r ho hh hm hd hl hf => ?_) wf
    change r.mod = mInt ty rnd.code sat.toNat x2.toNat at hm
    rw [skeleton_at_129 r ho, tyOf_eq (x := ty) (by rw [hm, bitsOf_div]; simp only [mInt]; omega), rndOf_eq (x := rnd) (by rw [hm, bitsOf_div]; simp only [mInt]; omega), satOf_eq (x := sat) (by rw [hm]; simp only [mInt]; omega), bit0Of_eq (x := x2) (by rw [hm]; simp only [mInt]; omega), srcsOf_wide l hf hl]
    simp only [hh, hd, Option.bind_eq_bind, Option.bind_some, Option.map_some]
theorem fmul (h : Hdr) (ty : Ty) (rnd : Rnd) (sat x2 : Bool) (d : Opnd) (src : Srcs) : Statement (.fmul h ty rnd sat x2 d src) := by
  intro wf
  have := ty.code_lt
  have := rnd.code_lt
  have := sat.toNat_lt
  have := x2.toNat_lt
  cases src with
  | two a b =>
    refine decode_ab (d := d) (a := a) (b := b) rfl (by show 130 < 1024; omega) (by show mInt ty rnd.code sat.toNat x2.toNat < 512; simp only [mInt]; omega) rfl (ab_ok fun r ho hh hm hd ha hb hf => ?_) wf
    change r.mod = mInt ty rnd.code sat.toNat x2.toNat at hm
    rw [skeleton_at_130 r ho, tyOf_eq (x := ty) (by rw [hm, bitsOf_div]; simp only [mInt]; omega), rndOf_eq (x := rnd) (by rw [hm, bitsOf_div]; simp only [mInt]; omega), satOf_eq (x := sat) (by rw [hm]; simp only [mInt]; omega), bit0Of_eq (x := x2) (by rw [hm]; simp only [mInt]; omega), srcsOf_two hf ha hb]
    simp only [hh, hd, ha, hb, Option.bind_eq_bind, Option.bind_some, Option.map_some]
  | wide l =>
    refine decode_wide (d := d) (l := l.toNat) rfl (by show 130 < 1024; omega) (by show mInt ty rnd.code sat.toNat x2.toNat < 512; simp only [mInt]; omega) rfl l.isLt (wide_ok fun r ho hh hm hd hl hf => ?_) wf
    change r.mod = mInt ty rnd.code sat.toNat x2.toNat at hm
    rw [skeleton_at_130 r ho, tyOf_eq (x := ty) (by rw [hm, bitsOf_div]; simp only [mInt]; omega), rndOf_eq (x := rnd) (by rw [hm, bitsOf_div]; simp only [mInt]; omega), satOf_eq (x := sat) (by rw [hm]; simp only [mInt]; omega), bit0Of_eq (x := x2) (by rw [hm]; simp only [mInt]; omega), srcsOf_wide l hf hl]
    simp only [hh, hd, Option.bind_eq_bind, Option.bind_some, Option.map_some]
theorem ffma (h : Hdr) (ty : Ty) (rnd : Rnd) (sat x2 : Bool) (d a b : Opnd) : Statement (.ffma h ty rnd sat x2 d a b) := by
  intro wf
  have := ty.code_lt
  have := rnd.code_lt
  have := sat.toNat_lt
  have := x2.toNat_lt
  refine decode_ab (d := d) (a := a) (b := b) rfl (by show 131 < 1024; omega) (by show mInt ty rnd.code sat.toNat x2.toNat < 512; simp only [mInt]; omega) rfl (ab_ok fun r ho hh hm hd ha hb hf => ?_) wf
  change r.mod = mInt ty rnd.code sat.toNat x2.toNat at hm
  rw [skeleton_at_131 r ho, tyOf_eq (x := ty) (by rw [hm, bitsOf_div]; simp only [mInt]; omega), rndOf_eq (x := rnd) (by rw [hm, bitsOf_div]; simp only [mInt]; omega), satOf_eq (x := sat) (by rw [hm]; simp only [mInt]; omega), bit0Of_eq (x := x2) (by rw [hm]; simp only [mInt]; omega)]
  simp only [hh, hd, ha, hb, Option.bind_eq_bind, Option.bind_some, Option.map_some]
theorem fmin (h : Hdr) (ty : Ty) (x2 : Bool) (d : Opnd) (src : Srcs) : Statement (.fmin h ty x2 d src) := by
  intro wf
  have := ty.code_lt
  have := x2.toNat_lt
  cases src with
  | two a b =>
    refine decode_ab (d := d) (a := a) (b := b) rfl (by show 132 < 1024; omega) (by show mInt ty 0 0 x2.toNat < 512; simp only [mInt]; omega) rfl (ab_ok fun r ho hh hm hd ha hb hf => ?_) wf
    change r.mod = mInt ty 0 0 x2.toNat at hm
    rw [skeleton_at_132 r ho, tyOf_eq (x := ty) (by rw [hm, bitsOf_div]; simp only [mInt]; omega), bit0Of_eq (x := x2) (by rw [hm]; simp only [mInt]; omega), srcsOf_two hf ha hb]
    simp only [hh, hd, ha, hb, Option.bind_eq_bind, Option.bind_some, Option.map_some]
  | wide l =>
    refine decode_wide (d := d) (l := l.toNat) rfl (by show 132 < 1024; omega) (by show mInt ty 0 0 x2.toNat < 512; simp only [mInt]; omega) rfl l.isLt (wide_ok fun r ho hh hm hd hl hf => ?_) wf
    change r.mod = mInt ty 0 0 x2.toNat at hm
    rw [skeleton_at_132 r ho, tyOf_eq (x := ty) (by rw [hm, bitsOf_div]; simp only [mInt]; omega), bit0Of_eq (x := x2) (by rw [hm]; simp only [mInt]; omega), srcsOf_wide l hf hl]
    simp only [hh, hd, Option.bind_eq_bind, Option.bind_some, Option.map_some]
theorem fmax (h : Hdr) (ty : Ty) (x2 : Bool) (d : Opnd) (src : Srcs) : Statement (.fmax h ty x2 d src) := by
  intro wf
  have := ty.code_lt
  have := x2.toNat_lt
  cases src with
  | two a b =>
    refine decode_ab (d := d) (a := a) (b := b) rfl (by show 133 < 1024; omega) (by show mInt ty 0 0 x2.toNat < 512; simp only [mInt]; omega) rfl (ab_ok fun r ho hh hm hd ha hb hf => ?_) wf
    change r.mod = mInt ty 0 0 x2.toNat at hm
    rw [skeleton_at_133 r ho, tyOf_eq (x := ty) (by rw [hm, bitsOf_div]; simp only [mInt]; omega), bit0Of_eq (x := x2) (by rw [hm]; simp only [mInt]; omega), srcsOf_two hf ha hb]
    simp only [hh, hd, ha, hb, Option.bind_eq_bind, Option.bind_some, Option.map_some]
  | wide l =>
    refine decode_wide (d := d) (l := l.toNat) rfl (by show 133 < 1024; omega) (by show mInt ty 0 0 x2.toNat < 512; simp only [mInt]; omega) rfl l.isLt (wide_ok fun r ho hh hm hd hl hf => ?_) wf
    change r.mod = mInt ty 0 0 x2.toNat at hm
    rw [skeleton_at_133 r ho, tyOf_eq (x := ty) (by rw [hm, bitsOf_div]; simp only [mInt]; omega), bit0Of_eq (x := x2) (by rw [hm]; simp only [mInt]; omega), srcsOf_wide l hf hl]
    simp only [hh, hd, Option.bind_eq_bind, Option.bind_some, Option.map_some]
theorem fabs (h : Hdr) (ty : Ty) (x2 : Bool) (d a : Opnd) : Statement (.fabs h ty x2 d a) := by
  intro wf
  have := ty.code_lt
  have := x2.toNat_lt
  refine decode_ab (d := d) (a := a) (b := .none) rfl (by show 134 < 1024; omega) (by show mInt ty 0 0 x2.toNat < 512; simp only [mInt]; omega) rfl (ab_ok fun r ho hh hm hd ha hb hf => ?_) wf
  change r.mod = mInt ty 0 0 x2.toNat at hm
  rw [skeleton_at_134 r ho, tyOf_eq (x := ty) (by rw [hm, bitsOf_div]; simp only [mInt]; omega), bit0Of_eq (x := x2) (by rw [hm]; simp only [mInt]; omega)]
  simp only [hh, hd, ha, hb, Option.bind_eq_bind, Option.bind_some, Option.map_some]
theorem fneg (h : Hdr) (ty : Ty) (x2 : Bool) (d a : Opnd) : Statement (.fneg h ty x2 d a) := by
  intro wf
  have := ty.code_lt
  have := x2.toNat_lt
  refine decode_ab (d := d) (a := a) (b := .none) rfl (by show 135 < 1024; omega) (by show mInt ty 0 0 x2.toNat < 512; simp only [mInt]; omega) rfl (ab_ok fun r ho hh hm hd ha hb hf => ?_) wf
  change r.mod = mInt ty 0 0 x2.toNat at hm
  rw [skeleton_at_135 r ho, tyOf_eq (x := ty) (by rw [hm, bitsOf_div]; simp only [mInt]; omega), bit0Of_eq (x := x2) (by rw [hm]; simp only [mInt]; omega)]
  simp only [hh, hd, ha, hb, Option.bind_eq_bind, Option.bind_some, Option.map_some]
theorem fcmp (h : Hdr) (ty : Ty) (c : FCond) (d a b : Opnd) : Statement (.fcmp h ty c d a b) := by
  intro wf
  have := ty.code_lt
  have := c.code_lt
  refine decode_ab (d := d) (a := a) (b := b) rfl (by show 136 < 1024; omega) (by show mInt ty c.code 0 0 < 512; simp only [mInt]; omega) rfl (ab_ok fun r ho hh hm hd ha hb hf => ?_) wf
  change r.mod = mInt ty c.code 0 0 at hm
  rw [skeleton_at_136 r ho, tyOf_eq (x := ty) (by rw [hm, bitsOf_div]; simp only [mInt]; omega), fcondOf_eq (x := c) (by rw [hm, bitsOf_div]; simp only [mInt]; omega)]
  simp only [hh, hd, ha, hb, Option.bind_eq_bind, Option.bind_some, Option.map_some]
theorem fcls (h : Hdr) (ty : Ty) (d a b : Opnd) : Statement (.fcls h ty d a b) := by
  intro wf
  have := ty.code_lt
  refine decode_ab (d := d) (a := a) (b := b) rfl (by show 137 < 1024; omega) (by show mInt ty 0 0 0 < 512; simp only [mInt]; omega) rfl (ab_ok fun r ho hh hm hd ha hb hf => ?_) wf
  change r.mod = mInt ty 0 0 0 at hm
  rw [skeleton_at_137 r ho, tyOf_eq (x := ty) (by rw [hm, bitsOf_div]; simp only [mInt]; omega)]
  simp only [hh, hd, ha, hb, Option.bind_eq_bind, Option.bind_some, Option.map_some]
theorem fscl (h : Hdr) (ty : Ty) (rnd : Rnd) (sat : Bool) (d a b : Opnd) : Statement (.fscl h ty rnd sat d a b) := by
  intro wf
  have := ty.code_lt
  have := rnd.code_lt
  have := sat.toNat_lt
  refine decode_ab (d := d) (a := a) (b := b) rfl (by show 138 < 1024; omega) (by show mInt ty rnd.code sat.toNat 0 < 512; simp only [mInt]; omega) rfl (ab_ok fun r ho hh hm hd ha hb hf => ?_) wf
  change r.mod = mInt ty rnd.code sat.toNat 0 at hm
  rw [skeleton_at_138 r ho, tyOf_eq (x := ty) (by rw [hm, bitsOf_div]; simp only [mInt]; omega), rndOf_eq (x := rnd) (by rw [hm, bitsOf_div]; simp only [mInt]; omega), satOf_eq (x := sat) (by rw [hm]; simp only [mInt]; omega)]
  simp only [hh, hd, ha, hb, Option.bind_eq_bind, Option.bind_some, Option.map_some]
theorem frnd (h : Hdr) (ty : Ty) (rnd : Rnd) (d a : Opnd) : Statement (.frnd h ty rnd d a) := by
  intro wf
  have := ty.code_lt
  have := rnd.code_lt
  refine decode_ab (d := d) (a := a) (b := .none) rfl (by show 139 < 1024; omega) (by show mInt ty rnd.code 0 0 < 512; simp only [mInt]; omega) rfl (ab_ok fun r ho hh hm hd ha hb hf => ?_) wf
  change r.mod = mInt ty rnd.code 0 0 at hm
  rw [skeleton_at_139 r ho, tyOf_eq (x := ty) (by rw [hm, bitsOf_div]; simp only [mInt]; omega), rndOf_eq (x := rnd) (by rw [hm, bitsOf_div]; simp only [mInt]; omega)]
  simp only [hh, hd, ha, hb, Option.bind_eq_bind, Option.bind_some, Option.map_some]
theorem frcp (h : Hdr) (ty : Ty) (d a : Opnd) : Statement (.frcp h ty d a) := by
  intro wf
  have := ty.code_lt
  refine decode_ab (d := d) (a := a) (b := .none) rfl (by show 140 < 1024; omega) (by show mInt ty 0 0 0 < 512; simp only [mInt]; omega) rfl (ab_ok fun r ho hh hm hd ha hb hf => ?_) wf
  change r.mod = mInt ty 0 0 0 at hm
  rw [skeleton_at_140 r ho, tyOf_eq (x := ty) (by rw [hm, bitsOf_div]; simp only [mInt]; omega)]
  simp only [hh, hd, ha, hb, Option.bind_eq_bind, Option.bind_some, Option.map_some]
theorem frsq (h : Hdr) (ty : Ty) (d a : Opnd) : Statement (.frsq h ty d a) := by
  intro wf
  have := ty.code_lt
  refine decode_ab (d := d) (a := a) (b := .none) rfl (by show 141 < 1024; omega) (by show mInt ty 0 0 0 < 512; simp only [mInt]; omega) rfl (ab_ok fun r ho hh hm hd ha hb hf => ?_) wf
  change r.mod = mInt ty 0 0 0 at hm
  rw [skeleton_at_141 r ho, tyOf_eq (x := ty) (by rw [hm, bitsOf_div]; simp only [mInt]; omega)]
  simp only [hh, hd, ha, hb, Option.bind_eq_bind, Option.bind_some, Option.map_some]
theorem fsqrt (h : Hdr) (ty : Ty) (rnd : Rnd) (d a : Opnd) : Statement (.fsqrt h ty rnd d a) := by
  intro wf
  have := ty.code_lt
  have := rnd.code_lt
  refine decode_ab (d := d) (a := a) (b := .none) rfl (by show 142 < 1024; omega) (by show mInt ty rnd.code 0 0 < 512; simp only [mInt]; omega) rfl (ab_ok fun r ho hh hm hd ha hb hf => ?_) wf
  change r.mod = mInt ty rnd.code 0 0 at hm
  rw [skeleton_at_142 r ho, tyOf_eq (x := ty) (by rw [hm, bitsOf_div]; simp only [mInt]; omega), rndOf_eq (x := rnd) (by rw [hm, bitsOf_div]; simp only [mInt]; omega)]
  simp only [hh, hd, ha, hb, Option.bind_eq_bind, Option.bind_some, Option.map_some]
theorem fdiv (h : Hdr) (ty : Ty) (rnd : Rnd) (sat : Bool) (d a b : Opnd) : Statement (.fdiv h ty rnd sat d a b) := by
  intro wf
  have := ty.code_lt
  have := rnd.code_lt
  have := sat.toNat_lt
  refine decode_ab (d := d) (a := a) (b := b) rfl (by show 143 < 1024; omega) (by show mInt ty rnd.code sat.toNat 0 < 512; simp only [mInt]; omega) rfl (ab_ok fun r ho hh hm hd ha hb hf => ?_) wf
  change r.mod = mInt ty rnd.code sat.toNat 0 at hm
  rw [skeleton_at_143 r ho, tyOf_eq (x := ty) (by rw [hm, bitsOf_div]; simp only [mInt]; omega), rndOf_eq (x := rnd) (by rw [hm, bitsOf_div]; simp only [mInt]; omega), satOf_eq (x := sat) (by rw [hm]; simp only [mInt]; omega)]
  simp only [hh, hd, ha, hb, Option.bind_eq_bind, Option.bind_some, Option.map_some]
theorem fex2 (h : Hdr) (ty : Ty) (d a : Opnd) : Statement (.fex2 h ty d a) := by
  intro wf
  have := ty.code_lt
  refine decode_ab (d := d) (a := a) (b := .none) rfl (by show 144 < 1024; omega) (by show mInt ty 0 0 0 < 512; simp only [mInt]; omega) rfl (ab_ok fun r ho hh hm hd ha hb hf => ?_) wf
  change r.mod = mInt ty 0 0 0 at hm
  rw [skeleton_at_144 r ho, tyOf_eq (x := ty) (by rw [hm, bitsOf_div]; simp only [mInt]; omega)]
  simp only [hh, hd, ha, hb, Option.bind_eq_bind, Option.bind_some, Option.map_some]
theorem flg2 (h : Hdr) (ty : Ty) (d a : Opnd) : Statement (.flg2 h ty d a) := by
  intro wf
  have := ty.code_lt
  refine decode_ab (d := d) (a := a) (b := .none) rfl (by show 145 < 1024; omega) (by show mInt ty 0 0 0 < 512; simp only [mInt]; omega) rfl (ab_ok fun r ho hh hm hd ha hb hf => ?_) wf
  change r.mod = mInt ty 0 0 0 at hm
  rw [skeleton_at_145 r ho, tyOf_eq (x := ty) (by rw [hm, bitsOf_div]; simp only [mInt]; omega)]
  simp only [hh, hd, ha, hb, Option.bind_eq_bind, Option.bind_some, Option.map_some]
theorem ftrg (h : Hdr) (ty : Ty) (cos : Bool) (d a : Opnd) : Statement (.ftrg h ty cos d a) := by
  intro wf
  have := ty.code_lt
  have := cos.toNat_lt
  refine decode_ab (d := d) (a := a) (b := .none) rfl (by show 146 < 1024; omega) (by show mInt ty 0 0 cos.toNat < 512; simp only [mInt]; omega) rfl (ab_ok fun r ho hh hm hd ha hb hf => ?_) wf
  change r.mod = mInt ty 0 0 cos.toNat at hm
  rw [skeleton_at_146 r ho, tyOf_eq (x := ty) (by rw [hm, bitsOf_div]; simp only [mInt]; omega), bit0Of_eq (x := cos) (by rw [hm]; simp only [mInt]; omega)]
  simp only [hh, hd, ha, hb, Option.bind_eq_bind, Option.bind_some, Option.map_some]
theorem ftnh (h : Hdr) (ty : Ty) (d a : Opnd) : Statement (.ftnh h ty d a) := by
  intro wf
  have := ty.code_lt
  refine decode_ab (d := d) (a := a) (b := .none) rfl (by show 147 < 1024; omega) (by show mInt ty 0 0 0 < 512; simp only [mInt]; omega) rfl (ab_ok fun r ho hh hm hd ha hb hf => ?_) wf
  change r.mod = mInt ty 0 0 0 at hm
  rw [skeleton_at_147 r ho, tyOf_eq (x := ty) (by rw [hm, bitsOf_div]; simp only [mInt]; omega)]
  simp only [hh, hd, ha, hb, Option.bind_eq_bind, Option.bind_some, Option.map_some]
theorem ferf (h : Hdr) (ty : Ty) (d a : Opnd) : Statement (.ferf h ty d a) := by
  intro wf
  have := ty.code_lt
  refine decode_ab (d := d) (a := a) (b := .none) rfl (by show 148 < 1024; omega) (by show mInt ty 0 0 0 < 512; simp only [mInt]; omega) rfl (ab_ok fun r ho hh hm hd ha hb hf => ?_) wf
  change r.mod = mInt ty 0 0 0 at hm
  rw [skeleton_at_148 r ho, tyOf_eq (x := ty) (by rw [hm, bitsOf_div]; simp only [mInt]; omega)]
  simp only [hh, hd, ha, hb, Option.bind_eq_bind, Option.bind_some, Option.map_some]
theorem fphi (h : Hdr) (ty : Ty) (d a : Opnd) : Statement (.fphi h ty d a) := by
  intro wf
  have := ty.code_lt
  refine decode_ab (d := d) (a := a) (b := .none) rfl (by show 149 < 1024; omega) (by show mInt ty 0 0 0 < 512; simp only [mInt]; omega) rfl (ab_ok fun r ho hh hm hd ha hb hf => ?_) wf
  change r.mod = mInt ty 0 0 0 at hm
  rw [skeleton_at_149 r ho, tyOf_eq (x := ty) (by rw [hm, bitsOf_div]; simp only [mInt]; omega)]
  simp only [hh, hd, ha, hb, Option.bind_eq_bind, Option.bind_some, Option.map_some]
theorem fdot (h : Hdr) (ty : Ty) (rnd : Rnd) (sat : Bool) (d a b : Opnd) : Statement (.fdot h ty rnd sat d a b) := by
  intro wf
  have := ty.code_lt
  have := rnd.code_lt
  have := sat.toNat_lt
  refine decode_ab (d := d) (a := a) (b := b) rfl (by show 150 < 1024; omega) (by show mInt ty rnd.code sat.toNat 0 < 512; simp only [mInt]; omega) rfl (ab_ok fun r ho hh hm hd ha hb hf => ?_) wf
  change r.mod = mInt ty rnd.code sat.toNat 0 at hm
  rw [skeleton_at_150 r ho, tyOf_eq (x := ty) (by rw [hm, bitsOf_div]; simp only [mInt]; omega), rndOf_eq (x := rnd) (by rw [hm, bitsOf_div]; simp only [mInt]; omega), satOf_eq (x := sat) (by rw [hm]; simp only [mInt]; omega)]
  simp only [hh, hd, ha, hb, Option.bind_eq_bind, Option.bind_some, Option.map_some]
theorem cvt (h : Hdr) (rnd : Rnd) (dt st : Ty) (sat : Bool) (d a : Opnd) : Statement (.cvt h rnd dt st sat d a) := by
  intro wf
  have := rnd.code_lt
  have := dt.code_lt
  have := st.code_lt
  have := sat.toNat_lt
  cases rnd with
  | rne =>
    refine decode_ab (d := d) (a := a) (b := .none) rfl (by show 256 < 1024; omega) (by show mConv dt.code st.code sat.toNat < 512; simp only [mConv]; omega) rfl (ab_ok fun r ho hh hm hd ha hb hf => ?_) wf
    change r.mod = mConv dt.code st.code sat.toNat at hm
    rw [skeleton_at_256 r ho, tyOf_eq (x := dt) (by rw [hm, bitsOf_div]; simp only [mConv]; omega), styOf_eq (x := st) (by rw [hm, bitsOf_div]; simp only [mConv]; omega), bit0Of_eq (x := sat) (by rw [hm]; simp only [mConv]; omega)]
    simp only [hh, hd, ha, hb, Option.bind_eq_bind, Option.bind_some, Option.map_some]
  | rtz =>
    refine decode_ab (d := d) (a := a) (b := .none) rfl (by show 257 < 1024; omega) (by show mConv dt.code st.code sat.toNat < 512; simp only [mConv]; omega) rfl (ab_ok fun r ho hh hm hd ha hb hf => ?_) wf
    change r.mod = mConv dt.code st.code sat.toNat at hm
    rw [skeleton_at_257 r ho, tyOf_eq (x := dt) (by rw [hm, bitsOf_div]; simp only [mConv]; omega), styOf_eq (x := st) (by rw [hm, bitsOf_div]; simp only [mConv]; omega), bit0Of_eq (x := sat) (by rw [hm]; simp only [mConv]; omega)]
    simp only [hh, hd, ha, hb, Option.bind_eq_bind, Option.bind_some, Option.map_some]
  | rup =>
    refine decode_ab (d := d) (a := a) (b := .none) rfl (by show 258 < 1024; omega) (by show mConv dt.code st.code sat.toNat < 512; simp only [mConv]; omega) rfl (ab_ok fun r ho hh hm hd ha hb hf => ?_) wf
    change r.mod = mConv dt.code st.code sat.toNat at hm
    rw [skeleton_at_258 r ho, tyOf_eq (x := dt) (by rw [hm, bitsOf_div]; simp only [mConv]; omega), styOf_eq (x := st) (by rw [hm, bitsOf_div]; simp only [mConv]; omega), bit0Of_eq (x := sat) (by rw [hm]; simp only [mConv]; omega)]
    simp only [hh, hd, ha, hb, Option.bind_eq_bind, Option.bind_some, Option.map_some]
  | rdn =>
    refine decode_ab (d := d) (a := a) (b := .none) rfl (by show 259 < 1024; omega) (by show mConv dt.code st.code sat.toNat < 512; simp only [mConv]; omega) rfl (ab_ok fun r ho hh hm hd ha hb hf => ?_) wf
    change r.mod = mConv dt.code st.code sat.toNat at hm
    rw [skeleton_at_259 r ho, tyOf_eq (x := dt) (by rw [hm, bitsOf_div]; simp only [mConv]; omega), styOf_eq (x := st) (by rw [hm, bitsOf_div]; simp only [mConv]; omega), bit0Of_eq (x := sat) (by rw [hm]; simp only [mConv]; omega)]
    simp only [hh, hd, ha, hb, Option.bind_eq_bind, Option.bind_some, Option.map_some]
  | rna =>
    refine decode_ab (d := d) (a := a) (b := .none) rfl (by show 260 < 1024; omega) (by show mConv dt.code st.code sat.toNat < 512; simp only [mConv]; omega) rfl (ab_ok fun r ho hh hm hd ha hb hf => ?_) wf
    change r.mod = mConv dt.code st.code sat.toNat at hm
    rw [skeleton_at_260 r ho, tyOf_eq (x := dt) (by rw [hm, bitsOf_div]; simp only [mConv]; omega), styOf_eq (x := st) (by rw [hm, bitsOf_div]; simp only [mConv]; omega), bit0Of_eq (x := sat) (by rw [hm]; simp only [mConv]; omega)]
    simp only [hh, hd, ha, hb, Option.bind_eq_bind, Option.bind_some, Option.map_some]
  | sr =>
    refine decode_ab (d := d) (a := a) (b := .none) rfl (by show 261 < 1024; omega) (by show mConv dt.code st.code sat.toNat < 512; simp only [mConv]; omega) rfl (ab_ok fun r ho hh hm hd ha hb hf => ?_) wf
    change r.mod = mConv dt.code st.code sat.toNat at hm
    rw [skeleton_at_261 r ho, tyOf_eq (x := dt) (by rw [hm, bitsOf_div]; simp only [mConv]; omega), styOf_eq (x := st) (by rw [hm, bitsOf_div]; simp only [mConv]; omega), bit0Of_eq (x := sat) (by rw [hm]; simp only [mConv]; omega)]
    simp only [hh, hd, ha, hb, Option.bind_eq_bind, Option.bind_some, Option.map_some]
theorem cvts (h : Hdr) (rnd : Rnd) (dt st : Ty) (sat : Bool) (d a b : Opnd) : Statement (.cvts h rnd dt st sat d a b) := by
  intro wf
  have := rnd.code_lt
  have := dt.code_lt
  have := st.code_lt
  have := sat.toNat_lt
  cases rnd with
  | rne =>
    refine decode_ab (d := d) (a := a) (b := b) rfl (by show 264 < 1024; omega) (by show mConv dt.code st.code sat.toNat < 512; simp only [mConv]; omega) rfl (ab_ok fun r ho hh hm hd ha hb hf => ?_) wf
    change r.mod = mConv dt.code st.code sat.toNat at hm
    rw [skeleton_at_264 r ho, tyOf_eq (x := dt) (by rw [hm, bitsOf_div]; simp only [mConv]; omega), styOf_eq (x := st) (by rw [hm, bitsOf_div]; simp only [mConv]; omega), bit0Of_eq (x := sat) (by rw [hm]; simp only [mConv]; omega)]
    simp only [hh, hd, ha, hb, Option.bind_eq_bind, Option.bind_some, Option.map_some]
  | rtz =>
    refine decode_ab (d := d) (a := a) (b := b) rfl (by show 265 < 1024; omega) (by show mConv dt.code st.code sat.toNat < 512; simp only [mConv]; omega) rfl (ab_ok fun r ho hh hm hd ha hb hf => ?_) wf
    change r.mod = mConv dt.code st.code sat.toNat at hm
    rw [skeleton_at_265 r ho, tyOf_eq (x := dt) (by rw [hm, bitsOf_div]; simp only [mConv]; omega), styOf_eq (x := st) (by rw [hm, bitsOf_div]; simp only [mConv]; omega), bit0Of_eq (x := sat) (by rw [hm]; simp only [mConv]; omega)]
    simp only [hh, hd, ha, hb, Option.bind_eq_bind, Option.bind_some, Option.map_some]
  | rup =>
    refine decode_ab (d := d) (a := a) (b := b) rfl (by show 266 < 1024; omega) (by show mConv dt.code st.code sat.toNat < 512; simp only [mConv]; omega) rfl (ab_ok fun r ho hh hm hd ha hb hf => ?_) wf
    change r.mod = mConv dt.code st.code sat.toNat at hm
    rw [skeleton_at_266 r ho, tyOf_eq (x := dt) (by rw [hm, bitsOf_div]; simp only [mConv]; omega), styOf_eq (x := st) (by rw [hm, bitsOf_div]; simp only [mConv]; omega), bit0Of_eq (x := sat) (by rw [hm]; simp only [mConv]; omega)]
    simp only [hh, hd, ha, hb, Option.bind_eq_bind, Option.bind_some, Option.map_some]
  | rdn =>
    refine decode_ab (d := d) (a := a) (b := b) rfl (by show 267 < 1024; omega) (by show mConv dt.code st.code sat.toNat < 512; simp only [mConv]; omega) rfl (ab_ok fun r ho hh hm hd ha hb hf => ?_) wf
    change r.mod = mConv dt.code st.code sat.toNat at hm
    rw [skeleton_at_267 r ho, tyOf_eq (x := dt) (by rw [hm, bitsOf_div]; simp only [mConv]; omega), styOf_eq (x := st) (by rw [hm, bitsOf_div]; simp only [mConv]; omega), bit0Of_eq (x := sat) (by rw [hm]; simp only [mConv]; omega)]
    simp only [hh, hd, ha, hb, Option.bind_eq_bind, Option.bind_some, Option.map_some]
  | rna =>
    refine decode_ab (d := d) (a := a) (b := b) rfl (by show 268 < 1024; omega) (by show mConv dt.code st.code sat.toNat < 512; simp only [mConv]; omega) rfl (ab_ok fun r ho hh hm hd ha hb hf => ?_) wf
    change r.mod = mConv dt.code st.code sat.toNat at hm
    rw [skeleton_at_268 r ho, tyOf_eq (x := dt) (by rw [hm, bitsOf_div]; simp only [mConv]; omega), styOf_eq (x := st) (by rw [hm, bitsOf_div]; simp only [mConv]; omega), bit0Of_eq (x := sat) (by rw [hm]; simp only [mConv]; omega)]
    simp only [hh, hd, ha, hb, Option.bind_eq_bind, Option.bind_some, Option.map_some]
  | sr =>
    refine decode_ab (d := d) (a := a) (b := b) rfl (by show 269 < 1024; omega) (by show mConv dt.code st.code sat.toNat < 512; simp only [mConv]; omega) rfl (ab_ok fun r ho hh hm hd ha hb hf => ?_) wf
    change r.mod = mConv dt.code st.code sat.toNat at hm
    rw [skeleton_at_269 r ho, tyOf_eq (x := dt) (by rw [hm, bitsOf_div]; simp only [mConv]; omega), styOf_eq (x := st) (by rw [hm, bitsOf_div]; simp only [mConv]; omega), bit0Of_eq (x := sat) (by rw [hm]; simp only [mConv]; omega)]
    simp only [hh, hd, ha, hb, Option.bind_eq_bind, Option.bind_some, Option.map_some]
theorem pack (h : Hdr) (dt st : Ty) (sat : Bool) (d a b : Opnd) : Statement (.pack h dt st sat d a b) := by
  intro wf
  have := dt.code_lt
  have := st.code_lt
  have := sat.toNat_lt
  refine decode_ab (d := d) (a := a) (b := b) rfl (by show 272 < 1024; omega) (by show mConv dt.code st.code sat.toNat < 512; simp only [mConv]; omega) rfl (ab_ok fun r ho hh hm hd ha hb hf => ?_) wf
  change r.mod = mConv dt.code st.code sat.toNat at hm
  rw [skeleton_at_272 r ho, tyOf_eq (x := dt) (by rw [hm, bitsOf_div]; simp only [mConv]; omega), styOf_eq (x := st) (by rw [hm, bitsOf_div]; simp only [mConv]; omega), bit0Of_eq (x := sat) (by rw [hm]; simp only [mConv]; omega)]
  simp only [hh, hd, ha, hb, Option.bind_eq_bind, Option.bind_some, Option.map_some]
theorem unpk (h : Hdr) (dt st : Ty) (sat : Bool) (d a b : Opnd) : Statement (.unpk h dt st sat d a b) := by
  intro wf
  have := dt.code_lt
  have := st.code_lt
  have := sat.toNat_lt
  refine decode_ab (d := d) (a := a) (b := b) rfl (by show 273 < 1024; omega) (by show mConv dt.code st.code sat.toNat < 512; simp only [mConv]; omega) rfl (ab_ok fun r ho hh hm hd ha hb hf => ?_) wf
  change r.mod = mConv dt.code st.code sat.toNat at hm
  rw [skeleton_at_273 r ho, tyOf_eq (x := dt) (by rw [hm, bitsOf_div]; simp only [mConv]; omega), styOf_eq (x := st) (by rw [hm, bitsOf_div]; simp only [mConv]; omega), bit0Of_eq (x := sat) (by rw [hm]; simp only [mConv]; omega)]
  simp only [hh, hd, ha, hb, Option.bind_eq_bind, Option.bind_some, Option.map_some]
theorem qenc (h : Hdr) (qf : QFmt) (st : Ty) (d a b : Opnd) : Statement (.qenc h qf st d a b) := by
  intro wf
  have := qf.code_lt
  have := st.code_lt
  refine decode_ab (d := d) (a := a) (b := b) rfl (by show 274 < 1024; omega) (by show mConv qf.code st.code 0 < 512; simp only [mConv]; omega) rfl (ab_ok fun r ho hh hm hd ha hb hf => ?_) wf
  change r.mod = mConv qf.code st.code 0 at hm
  rw [skeleton_at_274 r ho, qfmtOf_eq (x := qf) (n := bitsOf r.mod 8 5) (by rw [hm, bitsOf_div]; simp only [mConv]; omega), styOf_eq (x := st) (by rw [hm, bitsOf_div]; simp only [mConv]; omega)]
  simp only [hh, hd, ha, hb, Option.bind_eq_bind, Option.bind_some, Option.map_some]
theorem qdec (h : Hdr) (ty : Ty) (hi : Bool) (qf : QFmt) (sat : Bool) (d a b : Opnd) : Statement (.qdec h ty hi qf sat d a b) := by
  intro wf
  have := ty.code_lt
  have := hi.toNat_lt
  have := qf.code_lt
  have := sat.toNat_lt
  refine decode_ab (d := d) (a := a) (b := b) rfl (by show 275 < 1024; omega) (by show mConv ty.code (4 * hi.toNat + qf.code) sat.toNat < 512; simp only [mConv]; omega) rfl (ab_ok fun r ho hh hm hd ha hb hf => ?_) wf
  change r.mod = mConv ty.code (4 * hi.toNat + qf.code) sat.toNat at hm
  rw [skeleton_at_275 r ho, tyOf_eq (x := ty) (by rw [hm, bitsOf_div]; simp only [mConv]; omega), bitAt_eq (x := hi) (n := r.mod) (k := 3) (by rw [hm]; simp only [mConv]; omega), qfmtOf_eq (x := qf) (n := bitsOf r.mod 2 1) (by rw [hm, bitsOf_div]; simp only [mConv]; omega), bit0Of_eq (x := sat) (by rw [hm]; simp only [mConv]; omega)]
  simp only [hh, hd, ha, hb, Option.bind_eq_bind, Option.bind_some, Option.map_some]
theorem plop (h : Hdr) (tab : BitVec 4) (d a b : Opnd) : Statement (.plop h tab d a b) := by
  intro wf
  have := tab.isLt
  refine decode_ab (d := d) (a := a) (b := b) rfl (by show 320 < 1024; omega) (by show tab.toNat < 512; omega) rfl (ab_ok fun r ho hh hm hd ha hb hf => ?_) wf
  change r.mod = tab.toNat at hm
  rw [skeleton_at_320 r ho, ofNat_toNat_eq (b := tab) (by rw [hm])]
  simp only [hh, hd, ha, hb, Option.bind_eq_bind, Option.bind_some, Option.map_some]
theorem pmov (h : Hdr) (f : PForm) (d a b : Opnd) : Statement (.pmov h f d a b) := by
  intro wf
  have := f.code_lt
  refine decode_ab (d := d) (a := a) (b := b) rfl (by show 321 < 1024; omega) (by show f.code < 512; omega) rfl (ab_ok fun r ho hh hm hd ha hb hf => ?_) wf
  change r.mod = f.code at hm
  rw [skeleton_at_321 r ho, pformOf_eq (x := f) (by rw [hm, bitsOf_div]; omega)]
  simp only [hh, hd, ha, hb, Option.bind_eq_bind, Option.bind_some, Option.map_some]
theorem ballot (h : Hdr) (d a b : Opnd) : Statement (.ballot h d a b) := by
  intro wf
  refine decode_ab (d := d) (a := a) (b := b) rfl (by show 322 < 1024; omega) (by show 0 < 512; omega) rfl (ab_ok fun r ho hh hm hd ha hb hf => ?_) wf
  change r.mod = 0 at hm
  rw [skeleton_at_322 r ho]
  simp only [hh, hd, ha, hb, Option.bind_eq_bind, Option.bind_some, Option.map_some]
theorem vany (h : Hdr) (d a : Opnd) : Statement (.vany h d a) := by
  intro wf
  refine decode_ab (d := d) (a := a) (b := .none) rfl (by show 323 < 1024; omega) (by show 0 < 512; omega) rfl (ab_ok fun r ho hh hm hd ha hb hf => ?_) wf
  change r.mod = 0 at hm
  rw [skeleton_at_323 r ho]
  simp only [hh, hd, ha, hb, Option.bind_eq_bind, Option.bind_some, Option.map_some]
theorem vall (h : Hdr) (d a : Opnd) : Statement (.vall h d a) := by
  intro wf
  refine decode_ab (d := d) (a := a) (b := .none) rfl (by show 324 < 1024; omega) (by show 0 < 512; omega) rfl (ab_ok fun r ho hh hm hd ha hb hf => ?_) wf
  change r.mod = 0 at hm
  rw [skeleton_at_324 r ho]
  simp only [hh, hd, ha, hb, Option.bind_eq_bind, Option.bind_some, Option.map_some]
theorem shfl (h : Hdr) (ty : Ty) (vp : BitVec 3) (md : ShflMode) (d a b : Opnd) : Statement (.shfl h ty vp md d a b) := by
  intro wf
  have := ty.code_lt
  have := vp.isLt
  have := md.code_lt
  refine decode_ab (d := d) (a := a) (b := b) rfl (by show 325 < 1024; omega) (by show mSub5 ty (4 * vp.toNat + md.code) < 512; simp only [mSub5]; omega) rfl (ab_ok fun r ho hh hm hd ha hb hf => ?_) wf
  change r.mod = mSub5 ty (4 * vp.toNat + md.code) at hm
  rw [skeleton_at_325 r ho, tyOf_eq (x := ty) (by rw [hm, bitsOf_div]; simp only [mSub5]; omega), sub3Of_eq (x := vp) (by rw [hm, bitsOf_div]; simp only [mSub5]; omega), shflOf_eq (x := md) (by rw [hm, bitsOf_div]; simp only [mSub5]; omega)]
  simp only [hh, hd, ha, hb, Option.bind_eq_bind, Option.bind_some, Option.map_some]
theorem bcst (h : Hdr) (ty : Ty) (vp : BitVec 3) (d a b : Opnd) : Statement (.bcst h ty vp d a b) := by
  intro wf
  have := ty.code_lt
  have := vp.isLt
  refine decode_ab (d := d) (a := a) (b := b) rfl (by show 326 < 1024; omega) (by show mSub5 ty (4 * vp.toNat) < 512; simp only [mSub5]; omega) rfl (ab_ok fun r ho hh hm hd ha hb hf => ?_) wf
  change r.mod = mSub5 ty (4 * vp.toNat) at hm
  rw [skeleton_at_326 r ho, tyOf_eq (x := ty) (by rw [hm, bitsOf_div]; simp only [mSub5]; omega), sub3Of_eq (x := vp) (by rw [hm, bitsOf_div]; simp only [mSub5]; omega)]
  simp only [hh, hd, ha, hb, Option.bind_eq_bind, Option.bind_some, Option.map_some]
theorem redx (h : Hdr) (ty : Ty) (op : RedOp) (d a b : Opnd) : Statement (.redx h ty op d a b) := by
  intro wf
  have := ty.code_lt
  have := op.code_lt
  refine decode_ab (d := d) (a := a) (b := b) rfl (by show 327 < 1024; omega) (by show mSub5 ty (4 * op.code) < 512; simp only [mSub5]; omega) rfl (ab_ok fun r ho hh hm hd ha hb hf => ?_) wf
  change r.mod = mSub5 ty (4 * op.code) at hm
  rw [skeleton_at_327 r ho, tyOf_eq (x := ty) (by rw [hm, bitsOf_div]; simp only [mSub5]; omega), redOf_eq (x := op) (by rw [hm, bitsOf_div]; simp only [mSub5]; omega)]
  simp only [hh, hd, ha, hb, Option.bind_eq_bind, Option.bind_some, Option.map_some]
theorem scan (h : Hdr) (ty : Ty) (op : RedOp) (ex : Bool) (d a b : Opnd) : Statement (.scan h ty op ex d a b) := by
  intro wf
  have := ty.code_lt
  have := op.code_lt
  have := ex.toNat_lt
  refine decode_ab (d := d) (a := a) (b := b) rfl (by show 328 < 1024; omega) (by show mSub5 ty (4 * op.code + 2 * ex.toNat) < 512; simp only [mSub5]; omega) rfl (ab_ok fun r ho hh hm hd ha hb hf => ?_) wf
  change r.mod = mSub5 ty (4 * op.code + 2 * ex.toNat) at hm
  rw [skeleton_at_328 r ho, tyOf_eq (x := ty) (by rw [hm, bitsOf_div]; simp only [mSub5]; omega), redOf_eq (x := op) (by rw [hm, bitsOf_div]; simp only [mSub5]; omega), bitAt_eq (x := ex) (n := r.mod) (k := 1) (by rw [hm]; simp only [mSub5]; omega)]
  simp only [hh, hd, ha, hb, Option.bind_eq_bind, Option.bind_some, Option.map_some]
theorem matchx (h : Hdr) (ty : Ty) (vp : BitVec 3) (all : Bool) (d a b : Opnd) : Statement (.matchx h ty vp all d a b) := by
  intro wf
  have := ty.code_lt
  have := vp.isLt
  have := all.toNat_lt
  refine decode_ab (d := d) (a := a) (b := b) rfl (by show 329 < 1024; omega) (by show mSub5 ty (4 * vp.toNat + all.toNat) < 512; simp only [mSub5]; omega) rfl (ab_ok fun r ho hh hm hd ha hb hf => ?_) wf
  change r.mod = mSub5 ty (4 * vp.toNat + all.toNat) at hm
  rw [skeleton_at_329 r ho, tyOf_eq (x := ty) (by rw [hm, bitsOf_div]; simp only [mSub5]; omega), sub3Of_eq (x := vp) (by rw [hm, bitsOf_div]; simp only [mSub5]; omega), bit0Of_eq (x := all) (by rw [hm]; simp only [mSub5]; omega)]
  simp only [hh, hd, ha, hb, Option.bind_eq_bind, Option.bind_some, Option.map_some]
theorem elect (h : Hdr) (d : Opnd) : Statement (.elect h d) := by
  intro wf
  refine decode_ab (d := d) (a := .none) (b := .none) rfl (by show 330 < 1024; omega) (by show 0 < 512; omega) rfl (ab_ok fun r ho hh hm hd ha hb hf => ?_) wf
  change r.mod = 0 at hm
  rw [skeleton_at_330 r ho]
  simp only [hh, hd, ha, hb, Option.bind_eq_bind, Option.bind_some, Option.map_some]
theorem bra (h : Hdr) (off : BitVec 24) : Statement (.bra h off) := by
  intro wf
  have := off.isLt
  refine decode_wide (d := .none) (l := ((off.signExtend 42).toNat)) rfl (by show 384 < 1024; omega) (by show 0 < 512; omega) rfl (off.signExtend 42).isLt (wide_ok fun r ho hh hm hd hl hf => ?_) wf
  change r.mod = 0 at hm
  rw [skeleton_at_384 r ho, offOf_eq off hl]
  simp only [hh, hd, Option.bind_eq_bind, Option.bind_some, Option.map_some]
theorem brx (h : Hdr) (a : Opnd) : Statement (.brx h a) := by
  intro wf
  refine decode_ab (d := .none) (a := a) (b := .none) rfl (by show 385 < 1024; omega) (by show 0 < 512; omega) rfl (ab_ok fun r ho hh hm hd ha hb hf => ?_) wf
  change r.mod = 0 at hm
  rw [skeleton_at_385 r ho]
  simp only [hh, hd, ha, hb, Option.bind_eq_bind, Option.bind_some, Option.map_some]
theorem call (h : Hdr) (d : Opnd) (off : BitVec 24) : Statement (.call h d off) := by
  intro wf
  have := off.isLt
  refine decode_wide (d := d) (l := ((off.signExtend 42).toNat)) rfl (by show 386 < 1024; omega) (by show 0 < 512; omega) rfl (off.signExtend 42).isLt (wide_ok fun r ho hh hm hd hl hf => ?_) wf
  change r.mod = 0 at hm
  rw [skeleton_at_386 r ho, offOf_eq off hl]
  simp only [hh, hd, Option.bind_eq_bind, Option.bind_some, Option.map_some]
theorem ret (h : Hdr) (a : Opnd) : Statement (.ret h a) := by
  intro wf
  refine decode_ab (d := .none) (a := a) (b := .none) rfl (by show 387 < 1024; omega) (by show 0 < 512; omega) rfl (ab_ok fun r ho hh hm hd ha hb hf => ?_) wf
  change r.mod = 0 at hm
  rw [skeleton_at_387 r ho]
  simp only [hh, hd, ha, hb, Option.bind_eq_bind, Option.bind_some, Option.map_some]
theorem rcv (h : Hdr) (off : BitVec 24) : Statement (.rcv h off) := by
  intro wf
  have := off.isLt
  refine decode_wide (d := .none) (l := ((off.signExtend 42).toNat)) rfl (by show 388 < 1024; omega) (by show 0 < 512; omega) rfl (off.signExtend 42).isLt (wide_ok fun r ho hh hm hd hl hf => ?_) wf
  change r.mod = 0 at hm
  rw [skeleton_at_388 r ho, offOf_eq off hl]
  simp only [hh, hd, Option.bind_eq_bind, Option.bind_some, Option.map_some]
theorem exit (h : Hdr) : Statement (.exit h) := by
  intro wf
  refine decode_ab (d := .none) (a := .none) (b := .none) rfl (by show 389 < 1024; omega) (by show 0 < 512; omega) rfl (ab_ok fun r ho hh hm hd ha hb hf => ?_) wf
  change r.mod = 0 at hm
  rw [skeleton_at_389 r ho]
  simp only [hh, hd, ha, hb, Option.bind_eq_bind, Option.bind_some, Option.map_some]
theorem nop (h : Hdr) : Statement (.nop h) := by
  intro wf
  refine decode_ab (d := .none) (a := .none) (b := .none) rfl (by show 390 < 1024; omega) (by show 0 < 512; omega) rfl (ab_ok fun r ho hh hm hd ha hb hf => ?_) wf
  change r.mod = 0 at hm
  rw [skeleton_at_390 r ho]
  simp only [hh, hd, ha, hb, Option.bind_eq_bind, Option.bind_some, Option.map_some]
theorem yld (h : Hdr) : Statement (.yld h) := by
  intro wf
  refine decode_ab (d := .none) (a := .none) (b := .none) rfl (by show 391 < 1024; omega) (by show 0 < 512; omega) rfl (ab_ok fun r ho hh hm hd ha hb hf => ?_) wf
  change r.mod = 0 at hm
  rw [skeleton_at_391 r ho]
  simp only [hh, hd, ha, hb, Option.bind_eq_bind, Option.bind_some, Option.map_some]
theorem trap (h : Hdr) (n : BitVec 4) : Statement (.trap h n) := by
  intro wf
  have := n.isLt
  refine decode_ab (d := .none) (a := .none) (b := .none) rfl (by show 448 < 1024; omega) (by show n.toNat < 512; omega) rfl (ab_ok fun r ho hh hm hd ha hb hf => ?_) wf
  change r.mod = n.toNat at hm
  rw [skeleton_at_448 r ho, ofNat_toNat_eq (b := n) (by rw [hm])]
  simp only [hh, hd, ha, hb, Option.bind_eq_bind, Option.bind_some, Option.map_some]
theorem eret (h : Hdr) : Statement (.eret h) := by
  intro wf
  refine decode_ab (d := .none) (a := .none) (b := .none) rfl (by show 449 < 1024; omega) (by show 0 < 512; omega) rfl (ab_ok fun r ho hh hm hd ha hb hf => ?_) wf
  change r.mod = 0 at hm
  rw [skeleton_at_449 r ho]
  simp only [hh, hd, ha, hb, Option.bind_eq_bind, Option.bind_some, Option.map_some]
theorem iret (h : Hdr) : Statement (.iret h) := by
  intro wf
  refine decode_ab (d := .none) (a := .none) (b := .none) rfl (by show 450 < 1024; omega) (by show 0 < 512; omega) rfl (ab_ok fun r ho hh hm hd ha hb hf => ?_) wf
  change r.mod = 0 at hm
  rw [skeleton_at_450 r ho]
  simp only [hh, hd, ha, hb, Option.bind_eq_bind, Option.bind_some, Option.map_some]
theorem srd (h : Hdr) (b64 : Bool) (d a : Opnd) : Statement (.srd h b64 d a) := by
  intro wf
  have := b64.toNat_lt
  refine decode_ab (d := d) (a := a) (b := .none) rfl (by show 451 < 1024; omega) (by show b64.toNat < 512; omega) rfl (ab_ok fun r ho hh hm hd ha hb hf => ?_) wf
  change r.mod = b64.toNat at hm
  rw [skeleton_at_451 r ho, bit0Of_eq (x := b64) (by rw [hm]; omega)]
  simp only [hh, hd, ha, hb, Option.bind_eq_bind, Option.bind_some, Option.map_some]
theorem swr (h : Hdr) (b64 : Bool) (d a : Opnd) : Statement (.swr h b64 d a) := by
  intro wf
  have := b64.toNat_lt
  refine decode_ab (d := d) (a := a) (b := .none) rfl (by show 452 < 1024; omega) (by show b64.toNat < 512; omega) rfl (ab_ok fun r ho hh hm hd ha hb hf => ?_) wf
  change r.mod = b64.toNat at hm
  rw [skeleton_at_452 r ho, bit0Of_eq (x := b64) (by rw [hm]; omega)]
  simp only [hh, hd, ha, hb, Option.bind_eq_bind, Option.bind_some, Option.map_some]
theorem sleep (h : Hdr) (a : Opnd) : Statement (.sleep h a) := by
  intro wf
  refine decode_ab (d := .none) (a := a) (b := .none) rfl (by show 453 < 1024; omega) (by show 0 < 512; omega) rfl (ab_ok fun r ho hh hm hd ha hb hf => ?_) wf
  change r.mod = 0 at hm
  rw [skeleton_at_453 r ho]
  simp only [hh, hd, ha, hb, Option.bind_eq_bind, Option.bind_some, Option.map_some]
theorem brk (h : Hdr) (n : BitVec 8) : Statement (.brk h n) := by
  intro wf
  have := n.isLt
  refine decode_ab (d := .none) (a := .none) (b := .none) rfl (by show 454 < 1024; omega) (by show n.toNat < 512; omega) rfl (ab_ok fun r ho hh hm hd ha hb hf => ?_) wf
  change r.mod = n.toNat at hm
  rw [skeleton_at_454 r ho, ofNat_toNat_eq (b := n) (by rw [hm])]
  simp only [hh, hd, ha, hb, Option.bind_eq_bind, Option.bind_some, Option.map_some]
theorem mmov (h : Hdr) (d a : Opnd) : Statement (.mmov h d a) := by
  intro wf
  refine decode_ab (d := d) (a := a) (b := .none) rfl (by show 512 < 1024; omega) (by show 0 < 512; omega) rfl (ab_ok fun r ho hh hm hd ha hb hf => ?_) wf
  change r.mod = 0 at hm
  rw [skeleton_at_512 r ho]
  simp only [hh, hd, ha, hb, Option.bind_eq_bind, Option.bind_some, Option.map_some]
theorem mput (h : Hdr) (d a b : Opnd) : Statement (.mput h d a b) := by
  intro wf
  refine decode_ab (d := d) (a := a) (b := b) rfl (by show 513 < 1024; omega) (by show 0 < 512; omega) rfl (ab_ok fun r ho hh hm hd ha hb hf => ?_) wf
  change r.mod = 0 at hm
  rw [skeleton_at_513 r ho]
  simp only [hh, hd, ha, hb, Option.bind_eq_bind, Option.bind_some, Option.map_some]
theorem mget (h : Hdr) (sel : MgetSel) (d a : Opnd) : Statement (.mget h sel d a) := by
  intro wf
  have := sel.code_lt
  refine decode_ab (d := d) (a := a) (b := .none) rfl (by show 514 < 1024; omega) (by show mMom sel.code 0 0 < 512; simp only [mMom]; omega) rfl (ab_ok fun r ho hh hm hd ha hb hf => ?_) wf
  change r.mod = mMom sel.code 0 0 at hm
  rw [skeleton_at_514 r ho, mgetOf_eq (x := sel) (by rw [hm, bitsOf_div]; simp only [mMom]; omega)]
  simp only [hh, hd, ha, hb, Option.bind_eq_bind, Option.bind_some, Option.map_some]
theorem madd (h : Hdr) (cov : Cov) (rnd : Rnd) (d a b : Opnd) : Statement (.madd h cov rnd d a b) := by
  intro wf
  have := cov.code_lt
  have := rnd.code_lt
  refine decode_ab (d := d) (a := a) (b := b) rfl (by show 515 < 1024; omega) (by show mMom 0 cov.code rnd.code < 512; simp only [mMom]; omega) rfl (ab_ok fun r ho hh hm hd ha hb hf => ?_) wf
  change r.mod = mMom 0 cov.code rnd.code at hm
  rw [skeleton_at_515 r ho, covOf_eq (x := cov) (n := bitsOf r.mod 5 3) (by rw [hm, bitsOf_div]; simp only [mMom]; omega), mrndOf_eq (x := rnd) (by rw [hm, bitsOf_div]; simp only [mMom]; omega)]
  simp only [hh, hd, ha, hb, Option.bind_eq_bind, Option.bind_some, Option.map_some]
theorem msub (h : Hdr) (cov : Cov) (rnd : Rnd) (d a b : Opnd) : Statement (.msub h cov rnd d a b) := by
  intro wf
  have := cov.code_lt
  have := rnd.code_lt
  refine decode_ab (d := d) (a := a) (b := b) rfl (by show 516 < 1024; omega) (by show mMom 0 cov.code rnd.code < 512; simp only [mMom]; omega) rfl (ab_ok fun r ho hh hm hd ha hb hf => ?_) wf
  change r.mod = mMom 0 cov.code rnd.code at hm
  rw [skeleton_at_516 r ho, covOf_eq (x := cov) (n := bitsOf r.mod 5 3) (by rw [hm, bitsOf_div]; simp only [mMom]; omega), mrndOf_eq (x := rnd) (by rw [hm, bitsOf_div]; simp only [mMom]; omega)]
  simp only [hh, hd, ha, hb, Option.bind_eq_bind, Option.bind_some, Option.map_some]
theorem mmul (h : Hdr) (cov : Cov) (rnd : Rnd) (d a b : Opnd) : Statement (.mmul h cov rnd d a b) := by
  intro wf
  have := cov.code_lt
  have := rnd.code_lt
  refine decode_ab (d := d) (a := a) (b := b) rfl (by show 517 < 1024; omega) (by show mMom 0 cov.code rnd.code < 512; simp only [mMom]; omega) rfl (ab_ok fun r ho hh hm hd ha hb hf => ?_) wf
  change r.mod = mMom 0 cov.code rnd.code at hm
  rw [skeleton_at_517 r ho, covOf_eq (x := cov) (n := bitsOf r.mod 5 3) (by rw [hm, bitsOf_div]; simp only [mMom]; omega), mrndOf_eq (x := rnd) (by rw [hm, bitsOf_div]; simp only [mMom]; omega)]
  simp only [hh, hd, ha, hb, Option.bind_eq_bind, Option.bind_some, Option.map_some]
theorem mfma (h : Hdr) (cov : Cov) (rnd : Rnd) (d a b : Opnd) : Statement (.mfma h cov rnd d a b) := by
  intro wf
  have := cov.code_lt
  have := rnd.code_lt
  refine decode_ab (d := d) (a := a) (b := b) rfl (by show 518 < 1024; omega) (by show mMom 0 cov.code rnd.code < 512; simp only [mMom]; omega) rfl (ab_ok fun r ho hh hm hd ha hb hf => ?_) wf
  change r.mod = mMom 0 cov.code rnd.code at hm
  rw [skeleton_at_518 r ho, covOf_eq (x := cov) (n := bitsOf r.mod 5 3) (by rw [hm, bitsOf_div]; simp only [mMom]; omega), mrndOf_eq (x := rnd) (by rw [hm, bitsOf_div]; simp only [mMom]; omega)]
  simp only [hh, hd, ha, hb, Option.bind_eq_bind, Option.bind_some, Option.map_some]
theorem mscl (h : Hdr) (rnd : Rnd) (d a b : Opnd) : Statement (.mscl h rnd d a b) := by
  intro wf
  have := rnd.code_lt
  refine decode_ab (d := d) (a := a) (b := b) rfl (by show 519 < 1024; omega) (by show mMom 0 0 rnd.code < 512; simp only [mMom]; omega) rfl (ab_ok fun r ho hh hm hd ha hb hf => ?_) wf
  change r.mod = mMom 0 0 rnd.code at hm
  rw [skeleton_at_519 r ho, mrndOf_eq (x := rnd) (by rw [hm, bitsOf_div]; simp only [mMom]; omega)]
  simp only [hh, hd, ha, hb, Option.bind_eq_bind, Option.bind_some, Option.map_some]
theorem mrlu (h : Hdr) (d a : Opnd) : Statement (.mrlu h d a) := by
  intro wf
  refine decode_ab (d := d) (a := a) (b := .none) rfl (by show 520 < 1024; omega) (by show 0 < 512; omega) rfl (ab_ok fun r ho hh hm hd ha hb hf => ?_) wf
  change r.mod = 0 at hm
  rw [skeleton_at_520 r ho]
  simp only [hh, hd, ha, hb, Option.bind_eq_bind, Option.bind_some, Option.map_some]
theorem mexp (h : Hdr) (d a : Opnd) : Statement (.mexp h d a) := by
  intro wf
  refine decode_ab (d := d) (a := a) (b := .none) rfl (by show 521 < 1024; omega) (by show 0 < 512; omega) rfl (ab_ok fun r ho hh hm hd ha hb hf => ?_) wf
  change r.mod = 0 at hm
  rw [skeleton_at_521 r ho]
  simp only [hh, hd, ha, hb, Option.bind_eq_bind, Option.bind_some, Option.map_some]
theorem msqr (h : Hdr) (rnd : Rnd) (d a : Opnd) : Statement (.msqr h rnd d a) := by
  intro wf
  have := rnd.code_lt
  refine decode_ab (d := d) (a := a) (b := .none) rfl (by show 522 < 1024; omega) (by show mMom 0 0 rnd.code < 512; simp only [mMom]; omega) rfl (ab_ok fun r ho hh hm hd ha hb hf => ?_) wf
  change r.mod = mMom 0 0 rnd.code at hm
  rw [skeleton_at_522 r ho, mrndOf_eq (x := rnd) (by rw [hm, bitsOf_div]; simp only [mMom]; omega)]
  simp only [hh, hd, ha, hb, Option.bind_eq_bind, Option.bind_some, Option.map_some]
theorem mphi (h : Hdr) (d a : Opnd) : Statement (.mphi h d a) := by
  intro wf
  refine decode_ab (d := d) (a := a) (b := .none) rfl (by show 523 < 1024; omega) (by show 0 < 512; omega) rfl (ab_ok fun r ho hh hm hd ha hb hf => ?_) wf
  change r.mod = 0 at hm
  rw [skeleton_at_523 r ho]
  simp only [hh, hd, ha, hb, Option.bind_eq_bind, Option.bind_some, Option.map_some]
theorem mclp (h : Hdr) (sel : MclpSel) (rnd : Rnd) (d a b : Opnd) : Statement (.mclp h sel rnd d a b) := by
  intro wf
  have := sel.code_lt
  have := rnd.code_lt
  refine decode_ab (d := d) (a := a) (b := b) rfl (by show 524 < 1024; omega) (by show mMom sel.code 0 rnd.code < 512; simp only [mMom]; omega) rfl (ab_ok fun r ho hh hm hd ha hb hf => ?_) wf
  change r.mod = mMom sel.code 0 rnd.code at hm
  rw [skeleton_at_524 r ho, mclpOf_eq (x := sel) (by rw [hm, bitsOf_div]; simp only [mMom]; omega), mrndOf_eq (x := rnd) (by rw [hm, bitsOf_div]; simp only [mMom]; omega)]
  simp only [hh, hd, ha, hb, Option.bind_eq_bind, Option.bind_some, Option.map_some]
theorem mchk (h : Hdr) (sel : MchkSel) (d a : Opnd) : Statement (.mchk h sel d a) := by
  intro wf
  have := sel.code_lt
  refine decode_ab (d := d) (a := a) (b := .none) rfl (by show 525 < 1024; omega) (by show mMom sel.code 0 0 < 512; simp only [mMom]; omega) rfl (ab_ok fun r ho hh hm hd ha hb hf => ?_) wf
  change r.mod = mMom sel.code 0 0 at hm
  rw [skeleton_at_525 r ho, mchkOf_eq (x := sel) (by rw [hm, bitsOf_div]; simp only [mMom]; omega)]
  simp only [hh, hd, ha, hb, Option.bind_eq_bind, Option.bind_some, Option.map_some]
theorem lds (h : Hdr) (ty : Ty) (sc : Scope) (kd : Kind) (d a b : Opnd) : Statement (.lds h ty sc kd d a b) := by
  intro wf
  have := ty.code_lt
  have := sc.code_lt
  have := kd.code_lt
  refine decode_ab (d := d) (a := a) (b := b) rfl (by show 640 < 1024; omega) (by show mMem ty.code sc kd < 512; simp only [mMem]; omega) rfl (ab_ok fun r ho hh hm hd ha hb hf => ?_) wf
  change r.mod = mMem ty.code sc kd at hm
  rw [skeleton_at_640 r ho, tyOf_eq (x := ty) (by rw [hm, bitsOf_div]; simp only [mMem]; omega), scopeOf_eq (x := sc) (by rw [hm, bitsOf_div]; simp only [mMem]; omega), kindOf_eq (x := kd) (by rw [hm, bitsOf_div]; simp only [mMem]; omega)]
  simp only [hh, hd, ha, hb, Option.bind_eq_bind, Option.bind_some, Option.map_some]
theorem sts (h : Hdr) (ty : Ty) (sc : Scope) (kd : Kind) (d a b : Opnd) : Statement (.sts h ty sc kd d a b) := by
  intro wf
  have := ty.code_lt
  have := sc.code_lt
  have := kd.code_lt
  refine decode_ab (d := d) (a := a) (b := b) rfl (by show 641 < 1024; omega) (by show mMem ty.code sc kd < 512; simp only [mMem]; omega) rfl (ab_ok fun r ho hh hm hd ha hb hf => ?_) wf
  change r.mod = mMem ty.code sc kd at hm
  rw [skeleton_at_641 r ho, tyOf_eq (x := ty) (by rw [hm, bitsOf_div]; simp only [mMem]; omega), scopeOf_eq (x := sc) (by rw [hm, bitsOf_div]; simp only [mMem]; omega), kindOf_eq (x := kd) (by rw [hm, bitsOf_div]; simp only [mMem]; omega)]
  simp only [hh, hd, ha, hb, Option.bind_eq_bind, Option.bind_some, Option.map_some]
theorem ld (h : Hdr) (ty : Ty) (sc : Scope) (kd : Kind) (d a b : Opnd) : Statement (.ld h ty sc kd d a b) := by
  intro wf
  have := ty.code_lt
  have := sc.code_lt
  have := kd.code_lt
  refine decode_ab (d := d) (a := a) (b := b) rfl (by show 642 < 1024; omega) (by show mMem ty.code sc kd < 512; simp only [mMem]; omega) rfl (ab_ok fun r ho hh hm hd ha hb hf => ?_) wf
  change r.mod = mMem ty.code sc kd at hm
  rw [skeleton_at_642 r ho, tyOf_eq (x := ty) (by rw [hm, bitsOf_div]; simp only [mMem]; omega), scopeOf_eq (x := sc) (by rw [hm, bitsOf_div]; simp only [mMem]; omega), kindOf_eq (x := kd) (by rw [hm, bitsOf_div]; simp only [mMem]; omega)]
  simp only [hh, hd, ha, hb, Option.bind_eq_bind, Option.bind_some, Option.map_some]
theorem st (h : Hdr) (ty : Ty) (sc : Scope) (kd : Kind) (d a b : Opnd) : Statement (.st h ty sc kd d a b) := by
  intro wf
  have := ty.code_lt
  have := sc.code_lt
  have := kd.code_lt
  refine decode_ab (d := d) (a := a) (b := b) rfl (by show 643 < 1024; omega) (by show mMem ty.code sc kd < 512; simp only [mMem]; omega) rfl (ab_ok fun r ho hh hm hd ha hb hf => ?_) wf
  change r.mod = mMem ty.code sc kd at hm
  rw [skeleton_at_643 r ho, tyOf_eq (x := ty) (by rw [hm, bitsOf_div]; simp only [mMem]; omega), scopeOf_eq (x := sc) (by rw [hm, bitsOf_div]; simp only [mMem]; omega), kindOf_eq (x := kd) (by rw [hm, bitsOf_div]; simp only [mMem]; omega)]
  simp only [hh, hd, ha, hb, Option.bind_eq_bind, Option.bind_some, Option.map_some]
theorem ldb (h : Hdr) (ty : Ty) (d a b : Opnd) : Statement (.ldb h ty d a b) := by
  intro wf
  have := ty.code_lt
  refine decode_ab (d := d) (a := a) (b := b) rfl (by show 644 < 1024; omega) (by show mMem ty.code .strand .plain < 512; simp only [mMem, Kind.code, Scope.code]; omega) rfl (ab_ok fun r ho hh hm hd ha hb hf => ?_) wf
  change r.mod = mMem ty.code .strand .plain at hm
  rw [skeleton_at_644 r ho, tyOf_eq (x := ty) (by rw [hm, bitsOf_div]; simp only [mMem, Kind.code, Scope.code]; omega)]
  simp only [hh, hd, ha, hb, Option.bind_eq_bind, Option.bind_some, Option.map_some]
theorem stb (h : Hdr) (ty : Ty) (d a b : Opnd) : Statement (.stb h ty d a b) := by
  intro wf
  have := ty.code_lt
  refine decode_ab (d := d) (a := a) (b := b) rfl (by show 645 < 1024; omega) (by show mMem ty.code .strand .plain < 512; simp only [mMem, Kind.code, Scope.code]; omega) rfl (ab_ok fun r ho hh hm hd ha hb hf => ?_) wf
  change r.mod = mMem ty.code .strand .plain at hm
  rw [skeleton_at_645 r ho, tyOf_eq (x := ty) (by rw [hm, bitsOf_div]; simp only [mMem, Kind.code, Scope.code]; omega)]
  simp only [hh, hd, ha, hb, Option.bind_eq_bind, Option.bind_some, Option.map_some]
theorem pft (h : Hdr) (sc : Scope) (a b : Opnd) : Statement (.pft h sc a b) := by
  intro wf
  have := sc.code_lt
  refine decode_ab (d := .none) (a := a) (b := b) rfl (by show 646 < 1024; omega) (by show mMem 0 sc .plain < 512; simp only [mMem, Kind.code]; omega) rfl (ab_ok fun r ho hh hm hd ha hb hf => ?_) wf
  change r.mod = mMem 0 sc .plain at hm
  rw [skeleton_at_646 r ho, scopeOf_eq (x := sc) (by rw [hm, bitsOf_div]; simp only [mMem, Kind.code]; omega)]
  simp only [hh, hd, ha, hb, Option.bind_eq_bind, Option.bind_some, Option.map_some]
theorem fence (h : Hdr) (sc : Scope) (kd : Kind) : Statement (.fence h sc kd) := by
  intro wf
  have := sc.code_lt
  have := kd.code_lt
  refine decode_ab (d := .none) (a := .none) (b := .none) rfl (by show 647 < 1024; omega) (by show mMem 0 sc kd < 512; simp only [mMem]; omega) rfl (ab_ok fun r ho hh hm hd ha hb hf => ?_) wf
  change r.mod = mMem 0 sc kd at hm
  rw [skeleton_at_647 r ho, scopeOf_eq (x := sc) (by rw [hm, bitsOf_div]; simp only [mMem]; omega), kindOf_eq (x := kd) (by rw [hm, bitsOf_div]; simp only [mMem]; omega)]
  simp only [hh, hd, ha, hb, Option.bind_eq_bind, Option.bind_some, Option.map_some]
theorem rgn (h : Hdr) : Statement (.rgn h) := by
  intro wf
  refine decode_ab (d := .none) (a := .none) (b := .none) rfl (by show 648 < 1024; omega) (by show 0 < 512; omega) rfl (ab_ok fun r ho hh hm hd ha hb hf => ?_) wf
  change r.mod = 0 at hm
  rw [skeleton_at_648 r ho]
  simp only [hh, hd, ha, hb, Option.bind_eq_bind, Option.bind_some, Option.map_some]
theorem drel (h : Hdr) (d a b : Opnd) : Statement (.drel h d a b) := by
  intro wf
  refine decode_ab (d := d) (a := a) (b := b) rfl (by show 649 < 1024; omega) (by show 0 < 512; omega) rfl (ab_ok fun r ho hh hm hd ha hb hf => ?_) wf
  change r.mod = 0 at hm
  rw [skeleton_at_649 r ho]
  simp only [hh, hd, ha, hb, Option.bind_eq_bind, Option.bind_some, Option.map_some]
theorem tlbp (h : Hdr) (a b : Opnd) : Statement (.tlbp h a b) := by
  intro wf
  refine decode_ab (d := .none) (a := a) (b := b) rfl (by show 650 < 1024; omega) (by show 0 < 512; omega) rfl (ab_ok fun r ho hh hm hd ha hb hf => ?_) wf
  change r.mod = 0 at hm
  rw [skeleton_at_650 r ho]
  simp only [hh, hd, ha, hb, Option.bind_eq_bind, Option.bind_some, Option.map_some]
theorem tlbu (h : Hdr) (a : Opnd) : Statement (.tlbu h a) := by
  intro wf
  refine decode_ab (d := .none) (a := a) (b := .none) rfl (by show 651 < 1024; omega) (by show 0 < 512; omega) rfl (ab_ok fun r ho hh hm hd ha hb hf => ?_) wf
  change r.mod = 0 at hm
  rw [skeleton_at_651 r ho]
  simp only [hh, hd, ha, hb, Option.bind_eq_bind, Option.bind_some, Option.map_some]
theorem xprb (h : Hdr) (d a : Opnd) : Statement (.xprb h d a) := by
  intro wf
  refine decode_ab (d := d) (a := a) (b := .none) rfl (by show 652 < 1024; omega) (by show 0 < 512; omega) rfl (ab_ok fun r ho hh hm hd ha hb hf => ?_) wf
  change r.mod = 0 at hm
  rw [skeleton_at_652 r ho]
  simp only [hh, hd, ha, hb, Option.bind_eq_bind, Option.bind_some, Option.map_some]
theorem tinv (h : Hdr) (d a b : Opnd) : Statement (.tinv h d a b) := by
  intro wf
  refine decode_ab (d := d) (a := a) (b := b) rfl (by show 653 < 1024; omega) (by show 0 < 512; omega) rfl (ab_ok fun r ho hh hm hd ha hb hf => ?_) wf
  change r.mod = 0 at hm
  rw [skeleton_at_653 r ho]
  simp only [hh, hd, ha, hb, Option.bind_eq_bind, Option.bind_some, Option.map_some]
theorem atsAdd (h : Hdr) (ty : Ty) (sc : Scope) (kd : Kind) (d a b : Opnd) : Statement (.atsAdd h ty sc kd d a b) := by
  intro wf
  have := ty.code_lt
  have := sc.code_lt
  have := kd.code_lt
  refine decode_ab (d := d) (a := a) (b := b) rfl (by show 656 < 1024; omega) (by show mMem ty.code sc kd < 512; simp only [mMem]; omega) rfl (ab_ok fun r ho hh hm hd ha hb hf => ?_) wf
  change r.mod = mMem ty.code sc kd at hm
  rw [skeleton_at_656 r ho, tyOf_eq (x := ty) (by rw [hm, bitsOf_div]; simp only [mMem]; omega), scopeOf_eq (x := sc) (by rw [hm, bitsOf_div]; simp only [mMem]; omega), kindOf_eq (x := kd) (by rw [hm, bitsOf_div]; simp only [mMem]; omega)]
  simp only [hh, hd, ha, hb, Option.bind_eq_bind, Option.bind_some, Option.map_some]
theorem atsMin (h : Hdr) (ty : Ty) (sc : Scope) (kd : Kind) (d a b : Opnd) : Statement (.atsMin h ty sc kd d a b) := by
  intro wf
  have := ty.code_lt
  have := sc.code_lt
  have := kd.code_lt
  refine decode_ab (d := d) (a := a) (b := b) rfl (by show 657 < 1024; omega) (by show mMem ty.code sc kd < 512; simp only [mMem]; omega) rfl (ab_ok fun r ho hh hm hd ha hb hf => ?_) wf
  change r.mod = mMem ty.code sc kd at hm
  rw [skeleton_at_657 r ho, tyOf_eq (x := ty) (by rw [hm, bitsOf_div]; simp only [mMem]; omega), scopeOf_eq (x := sc) (by rw [hm, bitsOf_div]; simp only [mMem]; omega), kindOf_eq (x := kd) (by rw [hm, bitsOf_div]; simp only [mMem]; omega)]
  simp only [hh, hd, ha, hb, Option.bind_eq_bind, Option.bind_some, Option.map_some]
theorem atsMax (h : Hdr) (ty : Ty) (sc : Scope) (kd : Kind) (d a b : Opnd) : Statement (.atsMax h ty sc kd d a b) := by
  intro wf
  have := ty.code_lt
  have := sc.code_lt
  have := kd.code_lt
  refine decode_ab (d := d) (a := a) (b := b) rfl (by show 658 < 1024; omega) (by show mMem ty.code sc kd < 512; simp only [mMem]; omega) rfl (ab_ok fun r ho hh hm hd ha hb hf => ?_) wf
  change r.mod = mMem ty.code sc kd at hm
  rw [skeleton_at_658 r ho, tyOf_eq (x := ty) (by rw [hm, bitsOf_div]; simp only [mMem]; omega), scopeOf_eq (x := sc) (by rw [hm, bitsOf_div]; simp only [mMem]; omega), kindOf_eq (x := kd) (by rw [hm, bitsOf_div]; simp only [mMem]; omega)]
  simp only [hh, hd, ha, hb, Option.bind_eq_bind, Option.bind_some, Option.map_some]
theorem atsAnd (h : Hdr) (ty : Ty) (sc : Scope) (kd : Kind) (d a b : Opnd) : Statement (.atsAnd h ty sc kd d a b) := by
  intro wf
  have := ty.code_lt
  have := sc.code_lt
  have := kd.code_lt
  refine decode_ab (d := d) (a := a) (b := b) rfl (by show 659 < 1024; omega) (by show mMem ty.code sc kd < 512; simp only [mMem]; omega) rfl (ab_ok fun r ho hh hm hd ha hb hf => ?_) wf
  change r.mod = mMem ty.code sc kd at hm
  rw [skeleton_at_659 r ho, tyOf_eq (x := ty) (by rw [hm, bitsOf_div]; simp only [mMem]; omega), scopeOf_eq (x := sc) (by rw [hm, bitsOf_div]; simp only [mMem]; omega), kindOf_eq (x := kd) (by rw [hm, bitsOf_div]; simp only [mMem]; omega)]
  simp only [hh, hd, ha, hb, Option.bind_eq_bind, Option.bind_some, Option.map_some]
theorem atsOr (h : Hdr) (ty : Ty) (sc : Scope) (kd : Kind) (d a b : Opnd) : Statement (.atsOr h ty sc kd d a b) := by
  intro wf
  have := ty.code_lt
  have := sc.code_lt
  have := kd.code_lt
  refine decode_ab (d := d) (a := a) (b := b) rfl (by show 660 < 1024; omega) (by show mMem ty.code sc kd < 512; simp only [mMem]; omega) rfl (ab_ok fun r ho hh hm hd ha hb hf => ?_) wf
  change r.mod = mMem ty.code sc kd at hm
  rw [skeleton_at_660 r ho, tyOf_eq (x := ty) (by rw [hm, bitsOf_div]; simp only [mMem]; omega), scopeOf_eq (x := sc) (by rw [hm, bitsOf_div]; simp only [mMem]; omega), kindOf_eq (x := kd) (by rw [hm, bitsOf_div]; simp only [mMem]; omega)]
  simp only [hh, hd, ha, hb, Option.bind_eq_bind, Option.bind_some, Option.map_some]
theorem atsXor (h : Hdr) (ty : Ty) (sc : Scope) (kd : Kind) (d a b : Opnd) : Statement (.atsXor h ty sc kd d a b) := by
  intro wf
  have := ty.code_lt
  have := sc.code_lt
  have := kd.code_lt
  refine decode_ab (d := d) (a := a) (b := b) rfl (by show 661 < 1024; omega) (by show mMem ty.code sc kd < 512; simp only [mMem]; omega) rfl (ab_ok fun r ho hh hm hd ha hb hf => ?_) wf
  change r.mod = mMem ty.code sc kd at hm
  rw [skeleton_at_661 r ho, tyOf_eq (x := ty) (by rw [hm, bitsOf_div]; simp only [mMem]; omega), scopeOf_eq (x := sc) (by rw [hm, bitsOf_div]; simp only [mMem]; omega), kindOf_eq (x := kd) (by rw [hm, bitsOf_div]; simp only [mMem]; omega)]
  simp only [hh, hd, ha, hb, Option.bind_eq_bind, Option.bind_some, Option.map_some]
theorem atsExch (h : Hdr) (ty : Ty) (sc : Scope) (kd : Kind) (d a b : Opnd) : Statement (.atsExch h ty sc kd d a b) := by
  intro wf
  have := ty.code_lt
  have := sc.code_lt
  have := kd.code_lt
  refine decode_ab (d := d) (a := a) (b := b) rfl (by show 662 < 1024; omega) (by show mMem ty.code sc kd < 512; simp only [mMem]; omega) rfl (ab_ok fun r ho hh hm hd ha hb hf => ?_) wf
  change r.mod = mMem ty.code sc kd at hm
  rw [skeleton_at_662 r ho, tyOf_eq (x := ty) (by rw [hm, bitsOf_div]; simp only [mMem]; omega), scopeOf_eq (x := sc) (by rw [hm, bitsOf_div]; simp only [mMem]; omega), kindOf_eq (x := kd) (by rw [hm, bitsOf_div]; simp only [mMem]; omega)]
  simp only [hh, hd, ha, hb, Option.bind_eq_bind, Option.bind_some, Option.map_some]
theorem atsCas (h : Hdr) (ty : Ty) (sc : Scope) (kd : Kind) (d a b : Opnd) : Statement (.atsCas h ty sc kd d a b) := by
  intro wf
  have := ty.code_lt
  have := sc.code_lt
  have := kd.code_lt
  refine decode_ab (d := d) (a := a) (b := b) rfl (by show 663 < 1024; omega) (by show mMem ty.code sc kd < 512; simp only [mMem]; omega) rfl (ab_ok fun r ho hh hm hd ha hb hf => ?_) wf
  change r.mod = mMem ty.code sc kd at hm
  rw [skeleton_at_663 r ho, tyOf_eq (x := ty) (by rw [hm, bitsOf_div]; simp only [mMem]; omega), scopeOf_eq (x := sc) (by rw [hm, bitsOf_div]; simp only [mMem]; omega), kindOf_eq (x := kd) (by rw [hm, bitsOf_div]; simp only [mMem]; omega)]
  simp only [hh, hd, ha, hb, Option.bind_eq_bind, Option.bind_some, Option.map_some]
theorem atgAdd (h : Hdr) (ty : Ty) (sc : Scope) (kd : Kind) (d a b : Opnd) : Statement (.atgAdd h ty sc kd d a b) := by
  intro wf
  have := ty.code_lt
  have := sc.code_lt
  have := kd.code_lt
  refine decode_ab (d := d) (a := a) (b := b) rfl (by show 672 < 1024; omega) (by show mMem ty.code sc kd < 512; simp only [mMem]; omega) rfl (ab_ok fun r ho hh hm hd ha hb hf => ?_) wf
  change r.mod = mMem ty.code sc kd at hm
  rw [skeleton_at_672 r ho, tyOf_eq (x := ty) (by rw [hm, bitsOf_div]; simp only [mMem]; omega), scopeOf_eq (x := sc) (by rw [hm, bitsOf_div]; simp only [mMem]; omega), kindOf_eq (x := kd) (by rw [hm, bitsOf_div]; simp only [mMem]; omega)]
  simp only [hh, hd, ha, hb, Option.bind_eq_bind, Option.bind_some, Option.map_some]
theorem atgMin (h : Hdr) (ty : Ty) (sc : Scope) (kd : Kind) (d a b : Opnd) : Statement (.atgMin h ty sc kd d a b) := by
  intro wf
  have := ty.code_lt
  have := sc.code_lt
  have := kd.code_lt
  refine decode_ab (d := d) (a := a) (b := b) rfl (by show 673 < 1024; omega) (by show mMem ty.code sc kd < 512; simp only [mMem]; omega) rfl (ab_ok fun r ho hh hm hd ha hb hf => ?_) wf
  change r.mod = mMem ty.code sc kd at hm
  rw [skeleton_at_673 r ho, tyOf_eq (x := ty) (by rw [hm, bitsOf_div]; simp only [mMem]; omega), scopeOf_eq (x := sc) (by rw [hm, bitsOf_div]; simp only [mMem]; omega), kindOf_eq (x := kd) (by rw [hm, bitsOf_div]; simp only [mMem]; omega)]
  simp only [hh, hd, ha, hb, Option.bind_eq_bind, Option.bind_some, Option.map_some]
theorem atgMax (h : Hdr) (ty : Ty) (sc : Scope) (kd : Kind) (d a b : Opnd) : Statement (.atgMax h ty sc kd d a b) := by
  intro wf
  have := ty.code_lt
  have := sc.code_lt
  have := kd.code_lt
  refine decode_ab (d := d) (a := a) (b := b) rfl (by show 674 < 1024; omega) (by show mMem ty.code sc kd < 512; simp only [mMem]; omega) rfl (ab_ok fun r ho hh hm hd ha hb hf => ?_) wf
  change r.mod = mMem ty.code sc kd at hm
  rw [skeleton_at_674 r ho, tyOf_eq (x := ty) (by rw [hm, bitsOf_div]; simp only [mMem]; omega), scopeOf_eq (x := sc) (by rw [hm, bitsOf_div]; simp only [mMem]; omega), kindOf_eq (x := kd) (by rw [hm, bitsOf_div]; simp only [mMem]; omega)]
  simp only [hh, hd, ha, hb, Option.bind_eq_bind, Option.bind_some, Option.map_some]
theorem atgAnd (h : Hdr) (ty : Ty) (sc : Scope) (kd : Kind) (d a b : Opnd) : Statement (.atgAnd h ty sc kd d a b) := by
  intro wf
  have := ty.code_lt
  have := sc.code_lt
  have := kd.code_lt
  refine decode_ab (d := d) (a := a) (b := b) rfl (by show 675 < 1024; omega) (by show mMem ty.code sc kd < 512; simp only [mMem]; omega) rfl (ab_ok fun r ho hh hm hd ha hb hf => ?_) wf
  change r.mod = mMem ty.code sc kd at hm
  rw [skeleton_at_675 r ho, tyOf_eq (x := ty) (by rw [hm, bitsOf_div]; simp only [mMem]; omega), scopeOf_eq (x := sc) (by rw [hm, bitsOf_div]; simp only [mMem]; omega), kindOf_eq (x := kd) (by rw [hm, bitsOf_div]; simp only [mMem]; omega)]
  simp only [hh, hd, ha, hb, Option.bind_eq_bind, Option.bind_some, Option.map_some]
theorem atgOr (h : Hdr) (ty : Ty) (sc : Scope) (kd : Kind) (d a b : Opnd) : Statement (.atgOr h ty sc kd d a b) := by
  intro wf
  have := ty.code_lt
  have := sc.code_lt
  have := kd.code_lt
  refine decode_ab (d := d) (a := a) (b := b) rfl (by show 676 < 1024; omega) (by show mMem ty.code sc kd < 512; simp only [mMem]; omega) rfl (ab_ok fun r ho hh hm hd ha hb hf => ?_) wf
  change r.mod = mMem ty.code sc kd at hm
  rw [skeleton_at_676 r ho, tyOf_eq (x := ty) (by rw [hm, bitsOf_div]; simp only [mMem]; omega), scopeOf_eq (x := sc) (by rw [hm, bitsOf_div]; simp only [mMem]; omega), kindOf_eq (x := kd) (by rw [hm, bitsOf_div]; simp only [mMem]; omega)]
  simp only [hh, hd, ha, hb, Option.bind_eq_bind, Option.bind_some, Option.map_some]
theorem atgXor (h : Hdr) (ty : Ty) (sc : Scope) (kd : Kind) (d a b : Opnd) : Statement (.atgXor h ty sc kd d a b) := by
  intro wf
  have := ty.code_lt
  have := sc.code_lt
  have := kd.code_lt
  refine decode_ab (d := d) (a := a) (b := b) rfl (by show 677 < 1024; omega) (by show mMem ty.code sc kd < 512; simp only [mMem]; omega) rfl (ab_ok fun r ho hh hm hd ha hb hf => ?_) wf
  change r.mod = mMem ty.code sc kd at hm
  rw [skeleton_at_677 r ho, tyOf_eq (x := ty) (by rw [hm, bitsOf_div]; simp only [mMem]; omega), scopeOf_eq (x := sc) (by rw [hm, bitsOf_div]; simp only [mMem]; omega), kindOf_eq (x := kd) (by rw [hm, bitsOf_div]; simp only [mMem]; omega)]
  simp only [hh, hd, ha, hb, Option.bind_eq_bind, Option.bind_some, Option.map_some]
theorem atgExch (h : Hdr) (ty : Ty) (sc : Scope) (kd : Kind) (d a b : Opnd) : Statement (.atgExch h ty sc kd d a b) := by
  intro wf
  have := ty.code_lt
  have := sc.code_lt
  have := kd.code_lt
  refine decode_ab (d := d) (a := a) (b := b) rfl (by show 678 < 1024; omega) (by show mMem ty.code sc kd < 512; simp only [mMem]; omega) rfl (ab_ok fun r ho hh hm hd ha hb hf => ?_) wf
  change r.mod = mMem ty.code sc kd at hm
  rw [skeleton_at_678 r ho, tyOf_eq (x := ty) (by rw [hm, bitsOf_div]; simp only [mMem]; omega), scopeOf_eq (x := sc) (by rw [hm, bitsOf_div]; simp only [mMem]; omega), kindOf_eq (x := kd) (by rw [hm, bitsOf_div]; simp only [mMem]; omega)]
  simp only [hh, hd, ha, hb, Option.bind_eq_bind, Option.bind_some, Option.map_some]
theorem atgCas (h : Hdr) (ty : Ty) (sc : Scope) (kd : Kind) (d a b : Opnd) : Statement (.atgCas h ty sc kd d a b) := by
  intro wf
  have := ty.code_lt
  have := sc.code_lt
  have := kd.code_lt
  refine decode_ab (d := d) (a := a) (b := b) rfl (by show 679 < 1024; omega) (by show mMem ty.code sc kd < 512; simp only [mMem]; omega) rfl (ab_ok fun r ho hh hm hd ha hb hf => ?_) wf
  change r.mod = mMem ty.code sc kd at hm
  rw [skeleton_at_679 r ho, tyOf_eq (x := ty) (by rw [hm, bitsOf_div]; simp only [mMem]; omega), scopeOf_eq (x := sc) (by rw [hm, bitsOf_div]; simp only [mMem]; omega), kindOf_eq (x := kd) (by rw [hm, bitsOf_div]; simp only [mMem]; omega)]
  simp only [hh, hd, ha, hb, Option.bind_eq_bind, Option.bind_some, Option.map_some]
theorem grow (h : Hdr) (wait : Bool) (cl : GClass) (d a : Opnd) : Statement (.grow h wait cl d a) := by
  intro wf
  have := wait.toNat_lt
  have := cl.code_lt
  refine decode_ab (d := d) (a := a) (b := .none) rfl (by show 768 < 1024; omega) (by show 128 * wait.toNat + 32 * cl.code < 512; omega) rfl (ab_ok fun r ho hh hm hd ha hb hf => ?_) wf
  change r.mod = 128 * wait.toNat + 32 * cl.code at hm
  rw [skeleton_at_768 r ho, bitAt_eq (x := wait) (n := r.mod) (k := 7) (by rw [hm]; omega), gclassOf_eq (x := cl) (by rw [hm, bitsOf_div]; omega)]
  simp only [hh, hd, ha, hb, Option.bind_eq_bind, Option.bind_some, Option.map_some]
theorem shrk (h : Hdr) (cl : GClass) (a : Opnd) : Statement (.shrk h cl a) := by
  intro wf
  have := cl.code_lt
  refine decode_ab (d := .none) (a := a) (b := .none) rfl (by show 769 < 1024; omega) (by show 32 * cl.code < 512; omega) rfl (ab_ok fun r ho hh hm hd ha hb hf => ?_) wf
  change r.mod = 32 * cl.code at hm
  rw [skeleton_at_769 r ho, gclassOf_eq (x := cl) (by rw [hm, bitsOf_div]; omega)]
  simp only [hh, hd, ha, hb, Option.bind_eq_bind, Option.bind_some, Option.map_some]
theorem tjoin (h : Hdr) (d a b : Opnd) : Statement (.tjoin h d a b) := by
  intro wf
  refine decode_ab (d := d) (a := a) (b := b) rfl (by show 770 < 1024; omega) (by show 0 < 512; omega) rfl (ab_ok fun r ho hh hm hd ha hb hf => ?_) wf
  change r.mod = 0 at hm
  rw [skeleton_at_770 r ho]
  simp only [hh, hd, ha, hb, Option.bind_eq_bind, Option.bind_some, Option.map_some]
theorem tleave (h : Hdr) (a : Opnd) : Statement (.tleave h a) := by
  intro wf
  refine decode_ab (d := .none) (a := a) (b := .none) rfl (by show 771 < 1024; omega) (by show 0 < 512; omega) rfl (ab_ok fun r ho hh hm hd ha hb hf => ?_) wf
  change r.mod = 0 at hm
  rw [skeleton_at_771 r ho]
  simp only [hh, hd, ha, hb, Option.bind_eq_bind, Option.bind_some, Option.map_some]
theorem tbar (h : Hdr) (sc : Scope) (kd : Kind) (a : Opnd) : Statement (.tbar h sc kd a) := by
  intro wf
  have := sc.code_lt
  have := kd.code_lt
  refine decode_ab (d := .none) (a := a) (b := .none) rfl (by show 772 < 1024; omega) (by show mMem 0 sc kd < 512; simp only [mMem]; omega) rfl (ab_ok fun r ho hh hm hd ha hb hf => ?_) wf
  change r.mod = mMem 0 sc kd at hm
  rw [skeleton_at_772 r ho, scopeOf_eq (x := sc) (by rw [hm, bitsOf_div]; simp only [mMem]; omega), kindOf_eq (x := kd) (by rw [hm, bitsOf_div]; simp only [mMem]; omega)]
  simp only [hh, hd, ha, hb, Option.bind_eq_bind, Option.bind_some, Option.map_some]
theorem lsyn (h : Hdr) (sc : Scope) (kd : Kind) (b : Opnd) : Statement (.lsyn h sc kd b) := by
  intro wf
  have := sc.code_lt
  have := kd.code_lt
  refine decode_ab (d := .none) (a := .none) (b := b) rfl (by show 773 < 1024; omega) (by show mMem 0 sc kd < 512; simp only [mMem]; omega) rfl (ab_ok fun r ho hh hm hd ha hb hf => ?_) wf
  change r.mod = mMem 0 sc kd at hm
  rw [skeleton_at_773 r ho, scopeOf_eq (x := sc) (by rw [hm, bitsOf_div]; simp only [mMem]; omega), kindOf_eq (x := kd) (by rw [hm, bitsOf_div]; simp only [mMem]; omega)]
  simp only [hh, hd, ha, hb, Option.bind_eq_bind, Option.bind_some, Option.map_some]
theorem xbi (h : Hdr) (a b : Opnd) : Statement (.xbi h a b) := by
  intro wf
  refine decode_ab (d := .none) (a := a) (b := b) rfl (by show 774 < 1024; omega) (by show 0 < 512; omega) rfl (ab_ok fun r ho hh hm hd ha hb hf => ?_) wf
  change r.mod = 0 at hm
  rw [skeleton_at_774 r ho]
  simp only [hh, hd, ha, hb, Option.bind_eq_bind, Option.bind_some, Option.map_some]
theorem xba (h : Hdr) (a : Opnd) : Statement (.xba h a) := by
  intro wf
  refine decode_ab (d := .none) (a := a) (b := .none) rfl (by show 775 < 1024; omega) (by show 0 < 512; omega) rfl (ab_ok fun r ho hh hm hd ha hb hf => ?_) wf
  change r.mod = 0 at hm
  rw [skeleton_at_775 r ho]
  simp only [hh, hd, ha, hb, Option.bind_eq_bind, Option.bind_some, Option.map_some]
theorem xbe (h : Hdr) (a b : Opnd) : Statement (.xbe h a b) := by
  intro wf
  refine decode_ab (d := .none) (a := a) (b := b) rfl (by show 776 < 1024; omega) (by show 0 < 512; omega) rfl (ab_ok fun r ho hh hm hd ha hb hf => ?_) wf
  change r.mod = 0 at hm
  rw [skeleton_at_776 r ho]
  simp only [hh, hd, ha, hb, Option.bind_eq_bind, Option.bind_some, Option.map_some]
theorem xbw (h : Hdr) (a b : Opnd) : Statement (.xbw h a b) := by
  intro wf
  refine decode_ab (d := .none) (a := a) (b := b) rfl (by show 777 < 1024; omega) (by show 0 < 512; omega) rfl (ab_ok fun r ho hh hm hd ha hb hf => ?_) wf
  change r.mod = 0 at hm
  rw [skeleton_at_777 r ho]
  simp only [hh, hd, ha, hb, Option.bind_eq_bind, Option.bind_some, Option.map_some]
theorem xbt (h : Hdr) (d a b : Opnd) : Statement (.xbt h d a b) := by
  intro wf
  refine decode_ab (d := d) (a := a) (b := b) rfl (by show 778 < 1024; omega) (by show 0 < 512; omega) rfl (ab_ok fun r ho hh hm hd ha hb hf => ?_) wf
  change r.mod = 0 at hm
  rw [skeleton_at_778 r ho]
  simp only [hh, hd, ha, hb, Option.bind_eq_bind, Option.bind_some, Option.map_some]
theorem cpy (h : Hdr) (ui : Bool) (a b : Opnd) : Statement (.cpy h ui a b) := by
  intro wf
  have := ui.toNat_lt
  refine decode_ab (d := .none) (a := a) (b := b) rfl (by show 832 < 1024; omega) (by show 32 * ui.toNat < 512; omega) rfl (ab_ok fun r ho hh hm hd ha hb hf => ?_) wf
  change r.mod = 32 * ui.toNat at hm
  rw [skeleton_at_832 r ho, bitAt_eq (x := ui) (n := r.mod) (k := 5) (by rw [hm]; omega)]
  simp only [hh, hd, ha, hb, Option.bind_eq_bind, Option.bind_some, Option.map_some]
theorem gth (h : Hdr) (ui : Bool) (a b : Opnd) : Statement (.gth h ui a b) := by
  intro wf
  have := ui.toNat_lt
  refine decode_ab (d := .none) (a := a) (b := b) rfl (by show 833 < 1024; omega) (by show 32 * ui.toNat < 512; omega) rfl (ab_ok fun r ho hh hm hd ha hb hf => ?_) wf
  change r.mod = 32 * ui.toNat at hm
  rw [skeleton_at_833 r ho, bitAt_eq (x := ui) (n := r.mod) (k := 5) (by rw [hm]; omega)]
  simp only [hh, hd, ha, hb, Option.bind_eq_bind, Option.bind_some, Option.map_some]
theorem sct (h : Hdr) (ui : Bool) (a b : Opnd) : Statement (.sct h ui a b) := by
  intro wf
  have := ui.toNat_lt
  refine decode_ab (d := .none) (a := a) (b := b) rfl (by show 834 < 1024; omega) (by show 32 * ui.toNat < 512; omega) rfl (ab_ok fun r ho hh hm hd ha hb hf => ?_) wf
  change r.mod = 32 * ui.toNat at hm
  rw [skeleton_at_834 r ho, bitAt_eq (x := ui) (n := r.mod) (k := 5) (by rw [hm]; omega)]
  simp only [hh, hd, ha, hb, Option.bind_eq_bind, Option.bind_some, Option.map_some]
theorem qput (h : Hdr) (a b : Opnd) : Statement (.qput h a b) := by
  intro wf
  refine decode_ab (d := .none) (a := a) (b := b) rfl (by show 835 < 1024; omega) (by show 0 < 512; omega) rfl (ab_ok fun r ho hh hm hd ha hb hf => ?_) wf
  change r.mod = 0 at hm
  rw [skeleton_at_835 r ho]
  simp only [hh, hd, ha, hb, Option.bind_eq_bind, Option.bind_some, Option.map_some]
theorem qget (h : Hdr) (d a : Opnd) : Statement (.qget h d a) := by
  intro wf
  refine decode_ab (d := d) (a := a) (b := .none) rfl (by show 836 < 1024; omega) (by show 0 < 512; omega) rfl (ab_ok fun r ho hh hm hd ha hb hf => ?_) wf
  change r.mod = 0 at hm
  rw [skeleton_at_836 r ho]
  simp only [hh, hd, ha, hb, Option.bind_eq_bind, Option.bind_some, Option.map_some]
theorem mma (h : Hdr) (ty : Ty) (d a b : Opnd) : Statement (.mma h ty d a b) := by
  intro wf
  have := ty.code_lt
  refine decode_ab (d := d) (a := a) (b := b) rfl (by show 896 < 1024; omega) (by show mSub5 ty 0 < 512; simp only [mSub5]; omega) rfl (ab_ok fun r ho hh hm hd ha hb hf => ?_) wf
  change r.mod = mSub5 ty 0 at hm
  rw [skeleton_at_896 r ho, tyOf_eq (x := ty) (by rw [hm, bitsOf_div]; simp only [mSub5]; omega)]
  simp only [hh, hd, ha, hb, Option.bind_eq_bind, Option.bind_some, Option.map_some]
theorem mmas (h : Hdr) (ty : Ty) (d a b : Opnd) : Statement (.mmas h ty d a b) := by
  intro wf
  have := ty.code_lt
  refine decode_ab (d := d) (a := a) (b := b) rfl (by show 897 < 1024; omega) (by show mSub5 ty 0 < 512; simp only [mSub5]; omega) rfl (ab_ok fun r ho hh hm hd ha hb hf => ?_) wf
  change r.mod = mSub5 ty 0 at hm
  rw [skeleton_at_897 r ho, tyOf_eq (x := ty) (by rw [hm, bitsOf_div]; simp only [mSub5]; omega)]
  simp only [hh, hd, ha, hb, Option.bind_eq_bind, Option.bind_some, Option.map_some]
theorem mmam (h : Hdr) (cov : Cov) (d a b : Opnd) : Statement (.mmam h cov d a b) := by
  intro wf
  have := cov.code_lt
  refine decode_ab (d := d) (a := a) (b := b) rfl (by show 898 < 1024; omega) (by show mSub5 .m64 (4 * cov.code) < 512; simp only [mSub5, Ty.code]; omega) rfl (ab_ok fun r ho hh hm hd ha hb hf => ?_) wf
  change r.mod = mSub5 .m64 (4 * cov.code) at hm
  rw [skeleton_at_898 r ho, covOf_eq (x := cov) (n := bitsOf r.mod 4 2) (by rw [hm, bitsOf_div]; simp only [mSub5, Ty.code]; omega)]
  simp only [hh, hd, ha, hb, Option.bind_eq_bind, Option.bind_some, Option.map_some]
theorem azro (h : Hdr) (pair : Bool) (d : Opnd) : Statement (.azro h pair d) := by
  intro wf
  have := pair.toNat_lt
  refine decode_ab (d := d) (a := .none) (b := .none) rfl (by show 899 < 1024; omega) (by show pair.toNat < 512; omega) rfl (ab_ok fun r ho hh hm hd ha hb hf => ?_) wf
  change r.mod = pair.toNat at hm
  rw [skeleton_at_899 r ho, bit0Of_eq (x := pair) (by rw [hm]; omega)]
  simp only [hh, hd, ha, hb, Option.bind_eq_bind, Option.bind_some, Option.map_some]
theorem ald (h : Hdr) (ty : Ty) (d a : Opnd) : Statement (.ald h ty d a) := by
  intro wf
  have := ty.code_lt
  refine decode_ab (d := d) (a := a) (b := .none) rfl (by show 900 < 1024; omega) (by show mSub5 ty 0 < 512; simp only [mSub5]; omega) rfl (ab_ok fun r ho hh hm hd ha hb hf => ?_) wf
  change r.mod = mSub5 ty 0 at hm
  rw [skeleton_at_900 r ho, tyOf_eq (x := ty) (by rw [hm, bitsOf_div]; simp only [mSub5]; omega)]
  simp only [hh, hd, ha, hb, Option.bind_eq_bind, Option.bind_some, Option.map_some]
theorem ast (h : Hdr) (ty : Ty) (rnd : Rnd) (sat : Bool) (d a : Opnd) : Statement (.ast h ty rnd sat d a) := by
  intro wf
  have := ty.code_lt
  have := rnd.code_lt
  have := sat.toNat_lt
  refine decode_ab (d := d) (a := a) (b := .none) rfl (by show 901 < 1024; omega) (by show mSub5 ty (4 * rnd.code + 2 * sat.toNat) < 512; simp only [mSub5]; omega) rfl (ab_ok fun r ho hh hm hd ha hb hf => ?_) wf
  change r.mod = mSub5 ty (4 * rnd.code + 2 * sat.toNat) at hm
  rw [skeleton_at_901 r ho, tyOf_eq (x := ty) (by rw [hm, bitsOf_div]; simp only [mSub5]; omega), rndOf_eq (x := rnd) (by rw [hm, bitsOf_div]; simp only [mSub5]; omega), satOf_eq (x := sat) (by rw [hm]; simp only [mSub5]; omega)]
  simp only [hh, hd, ha, hb, Option.bind_eq_bind, Option.bind_some, Option.map_some]
theorem amov (h : Hdr) (ty : Ty) (rnd : Rnd) (sat put : Bool) (d a b : Opnd) : Statement (.amov h ty rnd sat put d a b) := by
  intro wf
  have := ty.code_lt
  have := rnd.code_lt
  have := sat.toNat_lt
  have := put.toNat_lt
  refine decode_ab (d := d) (a := a) (b := b) rfl (by show 902 < 1024; omega) (by show mSub5 ty (4 * rnd.code + 2 * sat.toNat + put.toNat) < 512; simp only [mSub5]; omega) rfl (ab_ok fun r ho hh hm hd ha hb hf => ?_) wf
  change r.mod = mSub5 ty (4 * rnd.code + 2 * sat.toNat + put.toNat) at hm
  rw [skeleton_at_902 r ho, tyOf_eq (x := ty) (by rw [hm, bitsOf_div]; simp only [mSub5]; omega), rndOf_eq (x := rnd) (by rw [hm, bitsOf_div]; simp only [mSub5]; omega), satOf_eq (x := sat) (by rw [hm]; simp only [mSub5]; omega), bit0Of_eq (x := put) (by rw [hm]; simp only [mSub5]; omega)]
  simp only [hh, hd, ha, hb, Option.bind_eq_bind, Option.bind_some, Option.map_some]
theorem mwt (h : Hdr) : Statement (.mwt h) := by
  intro wf
  refine decode_ab (d := .none) (a := .none) (b := .none) rfl (by show 903 < 1024; omega) (by show 0 < 512; omega) rfl (ab_ok fun r ho hh hm hd ha hb hf => ?_) wf
  change r.mod = 0 at hm
  rw [skeleton_at_903 r ho]
  simp only [hh, hd, ha, hb, Option.bind_eq_bind, Option.bind_some, Option.map_some]
theorem mkm (h : Hdr) (op : MkmOp) (cls : BitVec 4) (a : Opnd) : Statement (.mkm h op cls a) := by
  intro wf
  have := op.code_lt
  have := cls.isLt
  refine decode_ab (d := .none) (a := a) (b := .none) rfl (by show 960 < 1024; omega) (by show 16 * op.code + cls.toNat < 512; omega) rfl (ab_ok fun r ho hh hm hd ha hb hf => ?_) wf
  change r.mod = 16 * op.code + cls.toNat at hm
  rw [skeleton_at_960 r ho, mkmOf_eq (x := op) (by rw [hm, bitsOf_div]; omega), clsOf_eq (x := cls) (by rw [hm]; omega)]
  simp only [hh, hd, ha, hb, Option.bind_eq_bind, Option.bind_some, Option.map_some]
theorem mks (h : Hdr) (cls : BitVec 4) (a : Opnd) : Statement (.mks h cls a) := by
  intro wf
  have := cls.isLt
  refine decode_ab (d := .none) (a := a) (b := .none) rfl (by show 961 < 1024; omega) (by show cls.toNat < 512; omega) rfl (ab_ok fun r ho hh hm hd ha hb hf => ?_) wf
  change r.mod = cls.toNat at hm
  rw [skeleton_at_961 r ho, clsOf_eq (x := cls) (by rw [hm]; omega)]
  simp only [hh, hd, ha, hb, Option.bind_eq_bind, Option.bind_some, Option.map_some]
theorem mkc (h : Hdr) (cls : BitVec 4) (a : Opnd) : Statement (.mkc h cls a) := by
  intro wf
  have := cls.isLt
  refine decode_ab (d := .none) (a := a) (b := .none) rfl (by show 962 < 1024; omega) (by show cls.toNat < 512; omega) rfl (ab_ok fun r ho hh hm hd ha hb hf => ?_) wf
  change r.mod = cls.toNat at hm
  rw [skeleton_at_962 r ho, clsOf_eq (x := cls) (by rw [hm]; omega)]
  simp only [hh, hd, ha, hb, Option.bind_eq_bind, Option.bind_some, Option.map_some]
theorem mkp (h : Hdr) (cls : BitVec 4) (a : Opnd) : Statement (.mkp h cls a) := by
  intro wf
  have := cls.isLt
  refine decode_ab (d := .none) (a := a) (b := .none) rfl (by show 963 < 1024; omega) (by show cls.toNat < 512; omega) rfl (ab_ok fun r ho hh hm hd ha hb hf => ?_) wf
  change r.mod = cls.toNat at hm
  rw [skeleton_at_963 r ho, clsOf_eq (x := cls) (by rw [hm]; omega)]
  simp only [hh, hd, ha, hb, Option.bind_eq_bind, Option.bind_some, Option.map_some]
theorem mkl (h : Hdr) (cls : BitVec 4) (a : Opnd) : Statement (.mkl h cls a) := by
  intro wf
  have := cls.isLt
  refine decode_ab (d := .none) (a := a) (b := .none) rfl (by show 964 < 1024; omega) (by show cls.toNat < 512; omega) rfl (ab_ok fun r ho hh hm hd ha hb hf => ?_) wf
  change r.mod = cls.toNat at hm
  rw [skeleton_at_964 r ho, clsOf_eq (x := cls) (by rw [hm]; omega)]
  simp only [hh, hd, ha, hb, Option.bind_eq_bind, Option.bind_some, Option.map_some]
theorem mkn (h : Hdr) (cls : BitVec 4) (a : Opnd) : Statement (.mkn h cls a) := by
  intro wf
  have := cls.isLt
  refine decode_ab (d := .none) (a := a) (b := .none) rfl (by show 965 < 1024; omega) (by show cls.toNat < 512; omega) rfl (ab_ok fun r ho hh hm hd ha hb hf => ?_) wf
  change r.mod = cls.toNat at hm
  rw [skeleton_at_965 r ho, clsOf_eq (x := cls) (by rw [hm]; omega)]
  simp only [hh, hd, ha, hb, Option.bind_eq_bind, Option.bind_some, Option.map_some]
theorem mkr (h : Hdr) (cls : BitVec 4) (a : Opnd) : Statement (.mkr h cls a) := by
  intro wf
  have := cls.isLt
  refine decode_ab (d := .none) (a := a) (b := .none) rfl (by show 966 < 1024; omega) (by show cls.toNat < 512; omega) rfl (ab_ok fun r ho hh hm hd ha hb hf => ?_) wf
  change r.mod = cls.toNat at hm
  rw [skeleton_at_966 r ho, clsOf_eq (x := cls) (by rw [hm]; omega)]
  simp only [hh, hd, ha, hb, Option.bind_eq_bind, Option.bind_some, Option.map_some]
theorem mkw (h : Hdr) (cls : BitVec 4) (a : Opnd) : Statement (.mkw h cls a) := by
  intro wf
  have := cls.isLt
  refine decode_ab (d := .none) (a := a) (b := .none) rfl (by show 967 < 1024; omega) (by show cls.toNat < 512; omega) rfl (ab_ok fun r ho hh hm hd ha hb hf => ?_) wf
  change r.mod = cls.toNat at hm
  rw [skeleton_at_967 r ho, clsOf_eq (x := cls) (by rw [hm]; omega)]
  simp only [hh, hd, ha, hb, Option.bind_eq_bind, Option.bind_some, Option.map_some]
theorem mkt (h : Hdr) (cls : BitVec 4) (a : Opnd) : Statement (.mkt h cls a) := by
  intro wf
  have := cls.isLt
  refine decode_ab (d := .none) (a := a) (b := .none) rfl (by show 968 < 1024; omega) (by show cls.toNat < 512; omega) rfl (ab_ok fun r ho hh hm hd ha hb hf => ?_) wf
  change r.mod = cls.toNat at hm
  rw [skeleton_at_968 r ho, clsOf_eq (x := cls) (by rw [hm]; omega)]
  simp only [hh, hd, ha, hb, Option.bind_eq_bind, Option.bind_some, Option.map_some]
theorem hins (h : Hdr) (cls : BitVec 4) (a : Opnd) : Statement (.hins h cls a) := by
  intro wf
  have := cls.isLt
  refine decode_ab (d := .none) (a := a) (b := .none) rfl (by show 969 < 1024; omega) (by show cls.toNat < 512; omega) rfl (ab_ok fun r ho hh hm hd ha hb hf => ?_) wf
  change r.mod = cls.toNat at hm
  rw [skeleton_at_969 r ho, clsOf_eq (x := cls) (by rw [hm]; omega)]
  simp only [hh, hd, ha, hb, Option.bind_eq_bind, Option.bind_some, Option.map_some]
theorem wopn (h : Hdr) (sc : Scope) (cls : BitVec 4) (d : Opnd) : Statement (.wopn h sc cls d) := by
  intro wf
  have := sc.code_lt
  have := cls.isLt
  refine decode_ab (d := d) (a := .none) (b := .none) rfl (by show 970 < 1024; omega) (by show 16 * sc.code + cls.toNat < 512; omega) rfl (ab_ok fun r ho hh hm hd ha hb hf => ?_) wf
  change r.mod = 16 * sc.code + cls.toNat at hm
  rw [skeleton_at_970 r ho, scopeNo_eq (x := sc) (n := bitsOf r.mod 6 4) (by rw [hm, bitsOf_div]; omega), clsOf_eq (x := cls) (by rw [hm]; omega)]
  simp only [hh, hd, ha, hb, Option.bind_eq_bind, Option.bind_some, Option.map_some]
theorem wqt (h : Hdr) (close : Bool) (sc : Scope) (cls : BitVec 4) (d : Opnd) : Statement (.wqt h close sc cls d) := by
  intro wf
  have := close.toNat_lt
  have := sc.code_lt
  have := cls.isLt
  refine decode_ab (d := d) (a := .none) (b := .none) rfl (by show 971 < 1024; omega) (by show 128 * close.toNat + 16 * sc.code + cls.toNat < 512; omega) rfl (ab_ok fun r ho hh hm hd ha hb hf => ?_) wf
  change r.mod = 128 * close.toNat + 16 * sc.code + cls.toNat at hm
  rw [skeleton_at_971 r ho, bitAt_eq (x := close) (n := r.mod) (k := 7) (by rw [hm]; omega), scopeNo_eq (x := sc) (n := bitsOf r.mod 6 4) (by rw [hm, bitsOf_div]; omega), clsOf_eq (x := cls) (by rw [hm]; omega)]
  simp only [hh, hd, ha, hb, Option.bind_eq_bind, Option.bind_some, Option.map_some]
theorem vred (h : Hdr) (a : Opnd) : Statement (.vred h a) := by
  intro wf
  refine decode_ab (d := .none) (a := a) (b := .none) rfl (by show 972 < 1024; omega) (by show 0 < 512; omega) rfl (ab_ok fun r ho hh hm hd ha hb hf => ?_) wf
  change r.mod = 0 at hm
  rw [skeleton_at_972 r ho]
  simp only [hh, hd, ha, hb, Option.bind_eq_bind, Option.bind_some, Option.map_some]
theorem vcmd (h : Hdr) (cls : BitVec 4) (a : Opnd) : Statement (.vcmd h cls a) := by
  intro wf
  have := cls.isLt
  refine decode_ab (d := .none) (a := a) (b := .none) rfl (by show 973 < 1024; omega) (by show cls.toNat < 512; omega) rfl (ab_ok fun r ho hh hm hd ha hb hf => ?_) wf
  change r.mod = cls.toNat at hm
  rw [skeleton_at_973 r ho, clsOf_eq (x := cls) (by rw [hm]; omega)]
  simp only [hh, hd, ha, hb, Option.bind_eq_bind, Option.bind_some, Option.map_some]
theorem omrk (h : Hdr) : Statement (.omrk h) := by
  intro wf
  refine decode_ab (d := .none) (a := .none) (b := .none) rfl (by show 974 < 1024; omega) (by show 0 < 512; omega) rfl (ab_ok fun r ho hh hm hd ha hb hf => ?_) wf
  change r.mod = 0 at hm
  rw [skeleton_at_974 r ho]
  simp only [hh, hd, ha, hb, Option.bind_eq_bind, Option.bind_some, Option.map_some]
theorem coll (h : Hdr) (ui : Bool) (a b : Opnd) : Statement (.coll h ui a b) := by
  intro wf
  have := ui.toNat_lt
  refine decode_ab (d := .none) (a := a) (b := b) rfl (by show 992 < 1024; omega) (by show 32 * ui.toNat < 512; omega) rfl (ab_ok fun r ho hh hm hd ha hb hf => ?_) wf
  change r.mod = 32 * ui.toNat at hm
  rw [skeleton_at_992 r ho, bitAt_eq (x := ui) (n := r.mod) (k := 5) (by rw [hm]; omega)]
  simp only [hh, hd, ha, hb, Option.bind_eq_bind, Option.bind_some, Option.map_some]
theorem csig (h : Hdr) (op : SigOp) (a b : Opnd) : Statement (.csig h op a b) := by
  intro wf
  have := op.code_lt
  refine decode_ab (d := .none) (a := a) (b := b) rfl (by show 993 < 1024; omega) (by show 32 * op.code < 512; omega) rfl (ab_ok fun r ho hh hm hd ha hb hf => ?_) wf
  change r.mod = 32 * op.code at hm
  rw [skeleton_at_993 r ho, sigopOf_eq (x := op) (by rw [hm, bitsOf_div]; omega)]
  simp only [hh, hd, ha, hb, Option.bind_eq_bind, Option.bind_some, Option.map_some]
theorem swait (h : Hdr) (c : SigCond) (d a b : Opnd) : Statement (.swait h c d a b) := by
  intro wf
  have := c.code_lt
  refine decode_ab (d := d) (a := a) (b := b) rfl (by show 994 < 1024; omega) (by show 32 * c.code < 512; omega) rfl (ab_ok fun r ho hh hm hd ha hb hf => ?_) wf
  change r.mod = 32 * c.code at hm
  rw [skeleton_at_994 r ho, sigcOf_eq (x := c) (by rw [hm, bitsOf_div]; omega)]
  simp only [hh, hd, ha, hb, Option.bind_eq_bind, Option.bind_some, Option.map_some]
theorem rprt (h : Hdr) (ui : Bool) (a b : Opnd) : Statement (.rprt h ui a b) := by
  intro wf
  have := ui.toNat_lt
  refine decode_ab (d := .none) (a := a) (b := b) rfl (by show 995 < 1024; omega) (by show 32 * ui.toNat < 512; omega) rfl (ab_ok fun r ho hh hm hd ha hb hf => ?_) wf
  change r.mod = 32 * ui.toNat at hm
  rw [skeleton_at_995 r ho, bitAt_eq (x := ui) (n := r.mod) (k := 5) (by rw [hm]; omega)]
  simp only [hh, hd, ha, hb, Option.bind_eq_bind, Option.bind_some, Option.map_some]
theorem issueSelect (c : Nat) : Statement (.issueSelect c) := fun wf => nomatch wf
theorem activeSetEntry (c lane : Nat) : Statement (.activeSetEntry c lane) := fun wf => nomatch wf
theorem activeSetDisplacement (c lane : Nat) : Statement (.activeSetDisplacement c lane) := fun wf => nomatch wf
theorem trackedWriteLand (sid : Nat) (n : LandOf) : Statement (.trackedWriteLand sid n) := fun wf => nomatch wf
theorem trapwaitRetry (sid f : Nat) : Statement (.trapwaitRetry sid f) := fun wf => nomatch wf
theorem userInterrupt (sid : Nat) : Statement (.userInterrupt sid) := fun wf => nomatch wf
theorem threadDead (sid t : Nat) : Statement (.threadDead sid t) := fun wf => nomatch wf
theorem sleepExpire (sid f : Nat) : Statement (.sleepExpire sid f) := fun wf => nomatch wf
theorem growGrant (c : Nat) : Statement (.growGrant c) := fun wf => nomatch wf
theorem growWaitFail (c : Nat) : Statement (.growWaitFail c) := fun wf => nomatch wf
theorem partitionWordWrite (c : Nat) (w : W32) : Statement (.partitionWordWrite c w) := fun wf => nomatch wf
theorem barrierArrivalMsg (fromDie : Bool) (unit job team : Nat) : Statement (.barrierArrivalMsg fromDie unit job team) := fun wf => nomatch wf
theorem barrierRelease (c slot : Nat) : Statement (.barrierRelease c slot) := fun wf => nomatch wf
theorem barTimeout (c slot : Nat) : Statement (.barTimeout c slot) := fun wf => nomatch wf
theorem engineQueueAdmit (c : Nat) (gather : Bool) : Statement (.engineQueueAdmit c gather) := fun wf => nomatch wf
theorem engineCommandStart (c : Nat) (gather : Bool) : Statement (.engineCommandStart c gather) := fun wf => nomatch wf
theorem sectorLand (c cmd : Nat) (n : EngMove) : Statement (.sectorLand c cmd n) := fun wf => nomatch wf
theorem engineCommandFault (c cmd : Nat) : Statement (.engineCommandFault c cmd) := fun wf => nomatch wf
theorem queueWake (c q : Nat) : Statement (.queueWake c q) := fun wf => nomatch wf
theorem reservationAdmit (cl : Nat) : Statement (.reservationAdmit cl) := fun wf => nomatch wf
theorem matrixPassStart (pair : Nat) : Statement (.matrixPassStart pair) := fun wf => nomatch wf
theorem tileCommandStart (pair : Nat) : Statement (.tileCommandStart pair) := fun wf => nomatch wf
theorem matrixRowCommit (pair : RowMove) : Statement (.matrixRowCommit pair) := fun wf => nomatch wf
theorem matrixPassSuspend (pair : Nat) : Statement (.matrixPassSuspend pair) := fun wf => nomatch wf
theorem matrixCommandComplete (pair : Nat) : Statement (.matrixCommandComplete pair) := fun wf => nomatch wf
theorem matrixEngineError (pair : Nat) : Statement (.matrixEngineError pair) := fun wf => nomatch wf
theorem fetchFault (sid f : Nat) : Statement (.fetchFault sid f) := fun wf => nomatch wf
theorem regionRestart (sid : Nat) : Statement (.regionRestart sid) := fun wf => nomatch wf
theorem rsbEntryWait (sid f : Nat) : Statement (.rsbEntryWait sid f) := fun wf => nomatch wf
theorem tinvAgentAck (agent : Nat) : Statement (.tinvAgentAck agent) := fun wf => nomatch wf
theorem tinvRegisterWrite (asid : Nat) (whole : Bool) (base len : Nat) : Statement (.tinvRegisterWrite asid whole base len) := fun wf => nomatch wf
theorem timingReplay (c : Nat) : Statement (.timingReplay c) := fun wf => nomatch wf
theorem drain (sid n : Nat) : Statement (.drain sid n) := fun wf => nomatch wf
theorem propagate (die pa : Nat) : Statement (.propagate die pa) := fun wf => nomatch wf
theorem fill (c sector : Nat) : Statement (.fill c sector) := fun wf => nomatch wf
theorem drop (c sector : Nat) : Statement (.drop c sector) := fun wf => nomatch wf
theorem send (c n : Nat) : Statement (.send c n) := fun wf => nomatch wf
theorem wcbAgeSend (c : Nat) : Statement (.wcbAgeSend c) := fun wf => nomatch wf
theorem apply (src dst : Nat) : Statement (.apply src dst) := fun wf => nomatch wf
theorem transactionAck (c : Nat) : Statement (.transactionAck c) := fun wf => nomatch wf
theorem markAccept (c : Nat) : Statement (.markAccept c) := fun wf => nomatch wf
theorem vatCommandProcess (vat n : Nat) : Statement (.vatCommandProcess vat n) := fun wf => nomatch wf
theorem waveMessageConsume (vat n : Nat) : Statement (.waveMessageConsume vat n) := fun wf => nomatch wf
theorem stepClose (vat job cls : Nat) : Statement (.stepClose vat job cls) := fun wf => nomatch wf
theorem deckleSweep (job cls : Nat) : Statement (.deckleSweep job cls) := fun wf => nomatch wf
theorem fabricSweep (job cls : Nat) (plane : Nat) (others : SweepSum) : Statement (.fabricSweep job cls plane others) := fun wf => nomatch wf
theorem vatSelfRefreshEntry (vat : Nat) (forced : Bool) : Statement (.vatSelfRefreshEntry vat forced) := fun wf => nomatch wf
theorem vatSelfRefreshExit (vat : Nat) : Statement (.vatSelfRefreshExit vat) := fun wf => nomatch wf
theorem vredReduce (x : VredMove) : Statement (.vredReduce x) := fun wf => nomatch wf
theorem vcmdBank (vat : Nat) : Statement (.vcmdBank vat) := fun wf => nomatch wf
theorem flitRetry (plane link : Nat) (bad : Bool) : Statement (.flitRetry plane link bad) := fun wf => nomatch wf
theorem moduleDown (dst : Nat) : Statement (.moduleDown dst) := fun wf => nomatch wf
theorem blockedPacket (plane sw port : Nat) : Statement (.blockedPacket plane sw port) := fun wf => nomatch wf
theorem recoveryToken (plane : Nat) : Statement (.recoveryToken plane) := fun wf => nomatch wf
theorem swaitReread (sid f : Nat) : Statement (.swaitReread sid f) := fun wf => nomatch wf
theorem collAccept (die : Nat) : Statement (.collAccept die) := fun wf => nomatch wf
theorem collComplete (job gid : Nat) (done : List Nat) : Statement (.collComplete job gid done) := fun wf => nomatch wf
theorem cqhead (fn q : Nat) (v : BitVec 13) : Statement (.cqhead fn q v) := fun wf => nomatch wf
theorem enable (fn q : Nat) (v : W32) : Statement (.enable fn q v) := fun wf => nomatch wf
theorem queueFetch (fn q : Nat) : Statement (.queueFetch fn q) := fun wf => nomatch wf
theorem nopEntry (fn q : Nat) : Statement (.nopEntry fn q) := fun wf => nomatch wf
theorem launch (who : LaunchBy) (q job asid : Nat) : Statement (.launch who q job asid) := fun wf => nomatch wf
theorem snapshot (fn q : Nat) : Statement (.snapshot fn q) := fun wf => nomatch wf
theorem commit (fn q : Nat) : Statement (.commit fn q) := fun wf => nomatch wf
theorem bill (fn q : Nat) : Statement (.bill fn q) := fun wf => nomatch wf
theorem completionWrite (fn q : Nat) : Statement (.completionWrite fn q) := fun wf => nomatch wf
theorem jobEnd (job : Nat) : Statement (.jobEnd job) := fun wf => nomatch wf
theorem pasidTeardown (pasid : Nat) : Statement (.pasidTeardown pasid) := fun wf => nomatch wf
theorem teardownTimeout (pasid : Nat) : Statement (.teardownTimeout pasid) := fun wf => nomatch wf
theorem latencyBoundExpire (launch : Nat) : Statement (.latencyBoundExpire launch) := fun wf => nomatch wf
theorem batchSave (batch : Nat) : Statement (.batchSave batch) := fun wf => nomatch wf
theorem batchFlush (batch : Nat) : Statement (.batchFlush batch) := fun wf => nomatch wf
theorem batchDrain (batch : Nat) : Statement (.batchDrain batch) := fun wf => nomatch wf
theorem firmwareTrapService (sid f : Nat) : Statement (.firmwareTrapService sid f) := fun wf => nomatch wf
theorem firmwareResume (sid f : Nat) : Statement (.firmwareResume sid f) := fun wf => nomatch wf
theorem debugResume (sid f : Nat) (endJob : Bool) : Statement (.debugResume sid f endJob) := fun wf => nomatch wf
theorem accessTableWrite (unit master win : Nat) (w : AccWin) : Statement (.accessTableWrite unit master win w) := fun wf => nomatch wf
theorem hostAccessDenied (fn unit pa : Nat) (wr : Bool) : Statement (.hostAccessDenied fn unit pa wr) := fun wf => nomatch wf
theorem moduleReset (recordsOk : Bool) (id : BitVec 12) : Statement (.moduleReset recordsOk id) := fun wf => nomatch wf
theorem registerWrite (r : RegName) (v : W64) : Statement (.registerWrite r v) := fun wf => nomatch wf
theorem wavePortForward (port : Nat) (inbound : Option WaveMsg) (n : Nat) : Statement (.wavePortForward port inbound n) := fun wf => nomatch wf
theorem translationResponse (pasid : Nat) : Statement (.translationResponse pasid) := fun wf => nomatch wf
theorem pkgUncorr (jobs : List Nat) : Statement (.pkgUncorr jobs) := fun wf => nomatch wf

end Sys2Proof.Laws.Encoding
end

