-- ==== Sys2Proof/Safety.lean ====
section
/-!
DEFINITION. The terms that claims use: a job that no cause has ended; what it is for an instruction to execute normally
(R59: it is ISSUED and no check of its issue turns it away), and the state in which its own effect is then applied; and the
shared parts of the claims about each family.
-/
namespace Sys2Proof
open Sys2Proof.Machine

/-- No cause has ended a job (R456). -/
def JobUnharmed (j : Nat) (s : State) : Prop := ∀ x, nmGet s.jobs j = some x → x.cause = none

/-- The guard's predicate register as a register that an instruction reads (R41). -/
def guardRefs (h : Hdr) : List RegRef := refsOf (.p h.gp) false

/-- An instruction with header `h` that uses the registers `u` executes normally: fragment `c.f` of strand `c.sid` is
ISSUED; nothing it must wait for is pending; it may run in its mode; its registers are allocated; the checking scoreboard
finds nothing; no tile it names is faulted (R47, R59, R75, R280, R459). `st` is the strand as it stands, `c.st` the strand
with the uncovered reads of R48 decided. -/
structure Issues (h : Hdr) (u : Uses) (s : State) (st : Strand) (c : Ctx) : Prop where
  cur : s.cur = some (c.sid, c.f)
  strand : nmGet s.strands c.sid = some st
  frag : nmGet st.frags c.f = some c.fr
  settled : c.st = (st.settle s.freeCtr (u.reads ++ guardRefs h)).1
  win : c.win = s.now st
  key : c.kb = s.keyBase st
  waits : (h.wsb && st.marked (u.reads ++ u.writes ++ guardRefs h)) = false
  room : (u.tracked && decide (16 ≤ st.trackedCount)) = false
  mode : (u.priv && ((s.job? st).map (·.user)).getD true) = false
  allocated : (u.reads ++ u.writes).any st.r.beyond = false
  covered : (st.sp.sbchk && st.short (s.now st) h (u.reads ++ u.writes ++ guardRefs h)) = false
  tiles : st.faulted u = none

/-- The state in which the effect of an instruction that executes normally is applied; with YLD = 1 the fragment yields (R45). -/
def issued (h : Hdr) (u : Uses) (s : State) (st : Strand) (c : Ctx) : State :=
  { s with cur := none, strands := nmSet s.strands c.sid c.st, freeCtr := (st.settle s.freeCtr (u.reads ++ guardRefs h)).2,
           cores := if h.yld then yieldMark s.cores c else s.cores }

/-- What an instruction computes for its threads: register writes, sticky float flags, the moment flag. -/
structure Results where
  ws : List Write
  fl : Flags
  mfl : Bool

/-- One value per acting thread, written to D in a type (R51, R116). -/
def each (c : Ctx) (h : Hdr) (d : Opnd) (ty : Ty) (g : Nat → Nat) : Results :=
  { ws := c.dst h d ty ((c.acts h).map fun t => (t, g t)), fl := flNone, mfl := false }

/-- The same with the flags that each thread's operation sets (R117). -/
def eachF (c : Ctx) (h : Hdr) (d : Opnd) (ty : Ty) (g : Nat → Nat × Flags) : Results :=
  { ws := c.dst h d ty ((c.acts h).map fun t => (t, (g t).1)), fl := unionFlags ((c.acts h).map fun t => (g t).2), mfl := false }

/-- The state after a fixed-latency instruction (R43, R44): its results on the strand, then its fragment at the next word. -/
def laneState (h : Hdr) (u : Uses) (lat : Nat) (s : State) (st : Strand) (c : Ctx) (r : Results) : State :=
  advance ((issued h u s st c).updStrand c.sid fun x => x.result c.f c.win lat u.writes r.ws r.fl r.mfl) c.sid c.f h

/-- The state after a tracked instruction whose results are known (R44): they are pending until TRACKED_WRITE_LAND. -/
def trackState (h : Hdr) (u : Uses) (s : State) (st : Strand) (c : Ctx) (r : Results) : State :=
  advance ((issued h u s st c).updStrand c.sid fun x => x.track c.f true u.writes r.ws r.fl r.mfl .none) c.sid c.f h

/-- Whenever it executes normally and its operands meet `ok`, the instruction writes exactly these results with this
latency, and nothing else happens but the move to the next word. -/
def DoesIf (i : Instr) (h : Hdr) (u : State → Uses) (lat : Nat) (ok : Ctx → Prop) (r : Ctx → Results) : Prop :=
  ∀ s st c, Issues h (u s) s st c → ok c → exec i s = .next (laneState h (u s) lat s st c (r c))

def Does (i : Instr) (h : Hdr) (u : Uses) (lat : Nat) (r : Ctx → Results) : Prop :=
  ∀ s st c, Issues h u s st c → exec i s = .next (laneState h u lat s st c (r c))

/-- The same for a tracked instruction. -/
def DoesTIf (i : Instr) (h : Hdr) (u : Uses) (ok : Ctx → Prop) (r : Ctx → Results) : Prop :=
  ∀ s st c, Issues h u s st c → ok c → exec i s = .next (trackState h u s st c (r c))

def DoesT (i : Instr) (h : Hdr) (u : Uses) (r : Ctx → Results) : Prop :=
  ∀ s st c, Issues h u s st c → exec i s = .next (trackState h u s st c (r c))

/-! ## Shared parts of the claims -/

/-- The result of an instruction that may find a negative variance (R178 to R180): every thread's value and flags. -/
def moments (c : Ctx) (h : Hdr) (d : Opnd) (ty : Ty) (g : Nat → MomRes) : Results :=
  { ws := c.dst h d ty ((c.acts h).map fun t => (t, (g t).x)), fl := unionFlags ((c.acts h).map fun t => (g t).fl),
    mfl := (c.acts h).any fun t => (g t).bad }

/-- No acting thread finds a negative variance, or %ctl.vclamp replaces it (R180). -/
def noNegvar (h : Hdr) (g : Ctx → Nat → MomRes) (c : Ctx) : Prop :=
  c.st.sp.vclamp = true ∨ ∀ t ∈ c.acts h, (g c t).bad = false

/-- Where an acting thread finds a negative variance and %ctl.vclamp is 0, the instruction raises NEGVAR and writes nothing (R178,
R180). -/
def NegvarTraps (i : Instr) (h : Hdr) (u : State → Uses) (bad : Ctx → Nat → Bool) : Prop :=
  ∀ s st c, Issues h (u s) s st c → c.st.sp.vclamp = false → (∃ t ∈ c.acts h, bad c t = true) →
    exec i s = .next (raiseUser (issued h (u s) s st c) c.sid c.f 0x20#8 none)

/-- Every buffered entry that a region end commits passes its validation as it stands (R321): its translation has not been
dropped and its page is not DETERM. -/
def Sound (st : Strand) : Prop := ∀ e ∈ st.rsb, e.open = true → e.stale = false ∧ e.ord ≠ 3

/-- The state after a region end of a sound strand (R321, R323): its buffered entries are ready to drain; the region of the
fragment starts at `next`, that of every other one at its own PC. -/
def committed (s : State) (sid f : Nat) (next : VAddr) : State :=
  s.tick.2.updStrand sid fun x =>
    { x with
      rsb := (x.rsb.filter fun e => !e.open) ++ (x.rsb.filter RsbEnt.open).map fun e => { e with ready := true, carried := false, stamp := s.tick.1 }
      tail := false
      log := x.log ++ (x.rsb.filter RsbEnt.open).flatMap RsbEnt.sig
      frags := x.frags.map fun (k, fr) => (k, { fr with rgn := if k == f then next else fr.pc }) }

/-- Nothing of the strand or of its core is on its way (R337 to R339): no buffered store, no pending write, no write of its die
before memory, no line, no packet, no invalidation. -/
structure Still (s : State) (st : Strand) : Prop where
  buffer : st.rsb = []
  pend : st.pend = []
  die : (s.die (dieOf st.core)).p = []
  lines : (s.core st.core).wcb = []
  packets : s.fab.pkts = []
  tinvs : s.tinvs = []

/-- The state in which a fragment waits alone at the rendezvous it has just opened (R146), with no other open. -/
def gathered (h : Hdr) (u : Uses) (s : State) (st : Strand) (c : Ctx) : State :=
  let b := (issued h u s st c).tick
  b.2.updStrand c.sid fun x => x.updFrag c.f fun fr => { fr with st := .blocked, wait := .rdv b.1, evt := 0#64, gap := max h.stall.toNat 1 }

/-- A fragment that executes a rendezvous instruction alone: the text holds the instruction at its PC, no rendezvous is open,
its guarded threads lie in the mask operand, and its threads are all the live threads of the mask (R145, R146). -/
structure Alone (i : Instr) (h : Hdr) (u : Uses) (s : State) (st : Strand) (c : Ctx) (j : Job) (mask : W32) : Prop where
  issues : Issues h u s st c
  job : s.job? st = some j
  word : decode (j.word c.fr.pc) = .ok i
  first : c.st.rdvs = []
  inside : maskOf (c.acts h) &&& ~~~mask = 0#32
  meets : c.fr.mask &&& liveMask c.st.sp mask ≠ 0#32
  covers : liveMask c.st.sp mask &&& c.fr.mask = liveMask c.st.sp mask

/-- The one fragment's part: its instruction, its acting threads, and what each of them reads in this window (R117, R146). -/
def alonePart (i : Instr) (h : Hdr) (c : Ctx) : RdvPart :=
  { f := c.f, i := i, ts := c.acts h, vals := (c.acts h).map fun t => (t, rdvRead c.st.r i t),
    sels := (c.acts h).map fun t => (t, rdvSelect c.st.r i t) }

/-- A rendezvous instruction executed by a fragment alone writes its results with its latency and is released (R146 to R153). -/
def AloneDoes (i : Instr) (h : Hdr) (u : Uses) (b : Opnd) (lat : Nat) : Prop :=
  ∀ s st c j, Alone i h u s st c j (BitVec.ofNat 32 (c.st.r.uni64 b)) →
    let r := rdvWrites [alonePart i h c] (liveMask c.st.sp (BitVec.ofNat 32 (c.st.r.uni64 b))) (alonePart i h c)
    exec i s = .next (rdvRelease ((gathered h u s st c).updStrand c.sid fun x => x.result c.f c.win lat u.writes r.1 r.2 false) c.sid lat c.f)

/-- Where a rendezvous instruction raises MASK_DIS (R146), and nothing is written: its mask does not name the guarded threads; or an open
rendezvous with a live thread of its mask has another live mask, or another OPC or MOD. `some'` asks for an acting thread. -/
def maskFails (h : Hdr) (u : Uses) (b : Opnd) (i : Instr) (some' : Bool) : Prop :=
  ∀ s st c, Issues h u s st c →
    let mask := BitVec.ofNat 32 (c.st.r.uni64 b)
    let live := fun (m : W32) => liveMask c.st.sp m
    let traps := exec i s = .next (raiseUser (issued h u s st c) c.sid c.f 0x60#8 none)
    (maskOf (c.acts h) &&& ~~~mask ≠ 0#32 → traps) ∧
    (∀ j r, s.job? st = some j → (some' = true → c.acts h ≠ []) → maskOf (c.acts h) &&& ~~~mask = 0#32 → c.fr.mask &&& live mask ≠ 0#32 →
      c.st.rdvs.find? (fun x => live x.mask &&& live mask != 0#32) = some r →
      (live r.mask ≠ live mask ∨ bitsOf (j.word c.fr.pc) 95 86 ≠ bitsOf r.word 95 86 ∨ bitsOf (j.word c.fr.pc) 72 64 ≠ bitsOf r.word 72 64) → traps)

/-- A fragment as a branch leaves it: its threads, its PC, and the stall of its hint (R43, R157). -/
def moved (h : Hdr) (c : Ctx) (pc : Nat) (m : W32) : Frag :=
  { c.fr with mask := m, pc := BitVec.ofNat 57 pc, st := .stalled, wait := .gap, gap := max h.stall.toNat 1, evt := 0#64, rel := none }

/-- The parts of a fragment after a branch (R157): the live threads that do not branch fall through, and form the first part;
then one part per target, in order of its lowest thread. -/
def branchParts (c : Ctx) (taken : List (Nat × Nat)) : List (Nat × W32) :=
  let fall := c.lives.filter fun t => !(taken.any (·.1 == t))
  (if fall.isEmpty then [] else [(c.fr.pc.toNat + 12, maskOf fall)]) ++ (groupBy taken).map fun g => (g.1, maskOf g.2)

/-- The state after a branch whose parts are `p0 :: rest` (R157, R158): the first keeps the fragment's entry, the others take
the lowest free entries, each with an identity of its own; `ws` is what CALL writes; the parts that have reached their record join (R67). -/
def branched (h : Hdr) (u : Uses) (s : State) (st : Strand) (c : Ctx) (ws : List Write) (p0 : Nat × W32) (rest : List (Nat × W32)) : State :=
  let s1 := (issued h u s st c).updStrand c.sid fun x => x.result c.f c.win 1 u.writes ws flNone false
  let s2 := s1.updStrand c.sid fun x =>
    { x with frags := (rest.zip (freeEntries (usedEntries (issued h u s st c) c.st.core) rest.length)).foldl
                 (fun m x => nmSet m x.2 { moved h c x.1.1 x.1.2 with fid := s.seq + 1 + x.2 }) (nmSet x.frags c.f (moved h c p0.1 p0.2)) }
  joinAll { s2 with seq := s2.seq + (if rest.isEmpty then 0 else 4096) } c.sid

/-- A branch that takes effect: every target and the fall-through are words of the text, and the split needs no more than the
eight fragments of a strand and the core's free entries (R40, R157, R158). -/
structure Branches (h : Hdr) (u : Uses) (s : State) (st : Strand) (c : Ctx) (j : Job) (taken : List (Nat × Nat))
    (p0 : Nat × W32) (rest : List (Nat × W32)) : Prop where
  issues : Issues h u s st c
  all : h.uni = false
  job : s.job? st = some j
  parts : branchParts c taken = p0 :: rest
  targets : ∀ p ∈ p0 :: rest, j.pcOk p.1 = true
  room : c.st.frags.length + rest.length ≤ 8
  entries : (freeEntries (usedEntries (issued h u s st c) c.st.core) rest.length).length = rest.length

/-- The state after the return from a handler (R79, R83): the region ended, the saved registers back, the fragment at `pc`. -/
def returned (h : Hdr) (s1 : State) (st1 : Strand) (c : Ctx) (ps : List Piece) (pc : VAddr) (set : Spec → Spec) : State :=
  moveTo (s1.updStrand c.sid fun x =>
    { x.landFixed with r := restoreArea x.landFixed.r x.landFixed.sp.halloc.1 ((pieceKeys ps).map (ownByte s1 st1)), sp := set x.landFixed.sp }) c.sid c.f h pc

/-- Every scratchpad access lies in the batch's range and is aligned (R210, R227). -/
def scrGood (s : State) (c : Ctx) (w : Nat) (xs : List (Nat × Nat)) : Prop :=
  ∀ x ∈ xs, x.2 + w ≤ scrSize s c.st.batch ∧ x.2 % w = 0

/-- A read-modify-write of every thread in ascending order at the scratchpad: the memory after it, the writes of the old values,
the flags (R235 to R237, R349). -/
def scrAtomics (op : Nat) (ty : Ty) (c : Ctx) (d b : Opnd) (s : State) (ts : List (Nat × Nat)) : State × List Write × Flags :=
  ts.foldl (fun acc x =>
    let r := atomBytes op ty (readScr acc.1 c.st.batch x.2 (tyBytes ty)) (c.st.r.srcB ty x.1 b) (c.st.r.srcC ty x.1 b)
    (writeScr acc.1 c.st.batch (atOff x.2 r.1), acc.2.1 ++ dstW d ty x.1 (ldVal ty r.2.1), acc.2.2 ||| r.2.2)) (s, [], flNone)

/-- One scratchpad atomic: the region ends, every thread's update happens in this step, and the old values land later. -/
def AtsDoes (op : Nat) (i : Instr) (h : Hdr) (ty : Ty) (d a b : Opnd) : Prop :=
  let u := usesT (refsOf d (ty.width = 64)) (refsOf a false ++ refsOf b (ty.width = 64))
  ∀ s st c s2, Issues h u s st c → c.st.acquiring = false →
    let ts := (c.memActs h [d, a, b]).map fun t => (t, c.scrAddr a .none t)
    ts ≠ [] → scrGood s c (tyBytes ty) ts → endRegion (issued h u s st c) c.sid c.f (c.fr.pc + 12#57) none = (s2, true) →
    let r := scrAtomics op ty c d b s2 ts
    exec i s = .next (advance ((xbWake (r.1.acts c.sid) c.st.batch).updStrand c.sid fun x => x.track c.f true u.writes r.2.1 r.2.2 false .none) c.sid c.f h)

/-- The elements of an access: its threads' addresses and one length. -/
def elems (c : Ctx) (h : Hdr) (ops : List Opnd) (w : Nat) (g : Nat → Nat) : List Elem :=
  (c.memActs h ops).map fun t => ({ t := t, va := g t, len := w } : Elem)

/-- A global access whose elements are aligned and translate, with write permission where it stores, to pages whose format LD, ST
and the atomics may touch (R107, R227, R306). -/
structure Reaches (s : State) (c : Ctx) (write : Bool) (w : Nat) (xs : List Elem) (s1 : State) (ps : List Place) : Prop where
  nonempty : xs ≠ []
  aligned : ∀ x ∈ xs, x.va % w = 0
  places : xlateElems s c write xs = .inl (s1, ps)
  formats : ∀ p ∈ ps, qFmt p.e.fmt = false

/-- Some page of an access is of one kind: 0 STRONG, 1 RELEASE, 2 UNORDERED, 3 DETERM (R300). -/
def onOrd (o : Nat) (ps : List Place) : Bool := ps.any fun p => p.p.ord == o

/-- What a load or atomic in flight holds of its threads. -/
def flights (ty : Ty) (ps : List Place) (g : Nat → W64 × W64) : List Acc :=
  ps.map fun p => ({ t := p.t, ps := [p.p], dec := .raw ty, b := (g p.t).1, c := (g p.t).2 } : Acc)

/-- One global atomic at issue (R235, R337, R342, R348): its region ends, the waits of a release of its kind are over, and its update
is in flight with the threads' operands, which the strand's signature takes with the word (R329). -/
def AtgStarts (op : Nat) (i : Instr) (h : Hdr) (ty : Ty) (sc : Scope) (kd : Kind) (d a b : Opnd) : Prop :=
  let u := usesT (refsOf d (ty.width = 64)) (refsOf a true ++ refsOf b (ty.width = 64))
  ∀ s st c s1 ps s2 s3, Issues h u s st c →
    Reaches (issued h u s st c) c true (tyBytes ty) (elems c h [d, a, b] (tyBytes ty) (c.gblAddr a .none)) s1 ps →
    c.st.acquiring = false → (∀ p ∈ ps, c.st.overlaps p.t p.p.keys = false) → (onOrd 0 ps = true → c.st.strongBusy = false) →
    sigPending s1 c.sid (ps.flatMap fun p => p.p.keys) = false → ottUsed s1 c.st.core < 256 →
    endRegion s1 c.sid c.f c.fr.pc none = (s2, true) →
    let un := ps.all fun p => p.p.ord == 2
    (if (kd = .rel ∨ kd = .full) ∧ un = false then release s2 c.sid c.f sc true else (s2, true)) = (s3, true) →
    let accs := flights ty ps fun t => (w64n (c.st.r.srcB ty t b), w64n (c.st.r.srcC ty t b))
    let kd' : Kind := if un then .plain else kd
    exec i s = .next (advance (setRgn ((s3.updStrand c.sid fun x =>
        Strand.track { x with log := x.log ++ s3.wordAt x c.f :: accs.flatMap Acc.sig } c.f true u.writes [] flNone false
          (.atom op ty d h.uni sc kd' accs)).acts c.sid) c.sid c.f (c.fr.pc + 12#57)) c.sid c.f h)

/-- A load at issue (R229, R333, R338, R340, R342, R355): where its waits are over, and after the region end where a page is STRONG, its
accesses are in flight, and the fragment moves on; a load of sparse lines holds it until they have been read (R234). -/
def LoadStarts (out : Out) (h : Hdr) (c : Ctx) (s1 : State) (d : Opnd) (marks : List RegRef) (accs : List Acc) : Prop :=
  ∀ s2, let ps := accs.flatMap (·.ps)
    let sparse := accs.any (·.dec.sparse)
    (c.st.acquiring = true → ∀ p ∈ ps, p.ord = 2) → (anyOrd 0 ps = true → c.st.strongBusy = false) →
    sigPending s1 c.sid (accs.flatMap Acc.keys) = false → ottUsed s1 c.st.core < 256 → c.st.misplaced ps = false →
    (if anyOrd 0 ps then ∃ x, endRegion s1 c.sid c.f (if sparse then c.fr.pc else c.fr.pc + 12#57) none = (x, true) ∧ s2 = x.acts c.sid else s2 = s1) →
    let s3 := s2.updStrand c.sid fun x => x.track c.f true marks [] flNone false (.load d h.uni none (ps.all fun p => p.ord == 2) accs)
    out = .next (if sparse then s3.updFrag c.sid c.f fun fr => { fr with st := .stalled, wait := .line c.st.nextPend (anyOrd 0 ps), gap := max h.stall.toNat 1 }
      else advance s3 c.sid c.f h)

/-- A store at issue (R230, R320, R324, R333, R342): where its waits are over its bytes enter the region store buffer, which has room
for them, or, where every page is STRONG, pass it after the region end; its flags are set with it. -/
def StoreStarts (out : Out) (h : Hdr) (c : Ctx) (s1 : State) (fl : Flags) (mfl : Bool) (reqs : List StoreReq) : Prop :=
  ∀ st s2, nmGet s1.strands c.sid = some st → reqs ≠ [] → st.acquiring = false → (∀ r ∈ reqs, st.overlaps r.t r.p.keys = false) →
    sigPending s1 c.sid (reqs.flatMap fun r => r.p.keys) = false → st.misplaced (reqs.map (·.p)) = false →
    let fin := fun (x : State) => advance (x.updStrand c.sid fun y => { y with sp := y.sp.addFlags fl mfl }) c.sid c.f h
    ((∀ r ∈ reqs, r.p.ord ≠ 0) → st.rsb.length + st.needs reqs ≤ 64 → rsbUsed s1 st.core + st.needs reqs ≤ 16384 →
      out = .next (fin (bufferAll s1 c.sid reqs))) ∧
    ((∀ r ∈ reqs, r.p.ord = 0) → st.strongBusy = false → ottUsed s1 c.st.core < 256 → endRegion s1 c.sid c.f c.fr.pc none = (s2, true) →
      out = .next (fin (setRgn (flyStores s2 c reqs) c.sid c.f (c.fr.pc + 12#57))))

/-- The page of P is found for the leader (R231). -/
def PageOf (b : State) (c : Ctx) (wr : Bool) (a : Opnd) (s0 : State) (p : Place) : Prop :=
  xlateElems b c wr [{ t := c.leader.getD 0, va := c.offset a 0, len := 1 }] = .inl (s0, [p])

/-- A run of bytes of the page at P that a place has found. -/
def Place.run (p : Place) (va off n : Nat) : Piece := { p.p with va := va + off, pa := p.p.pa + off, len := n }

/-- What LDB's threads read, by the format of the page (R108, R110, R111, R114, R232): their places, and how their bytes are decoded. -/
def LdbReads (h : Hdr) (ty : Ty) (d a b : Opnd) (b0 : State) (c : Ctx) (s1 : State) (accs : List Acc) : Prop :=
  let w := tyBytes ty
  let va := c.offset a 0
  let e := fun t => c.offset b t % 2 ^ 32
  let ts := c.memActs h [d]
  let acc := fun (t : Nat) (ps : List Piece) (dec : Dec) => ({ t := t, ps := ps, dec := dec, b := 0#64, c := 0#64 } : Acc)
  ts ≠ [] ∧ ∃ s0 p0, PageOf b0 c false a s0 p0 ∧
    let fmt := p0.e.fmt
    let each := fun (n : Nat) (g : Nat → Nat) (dec : Nat → Dec) =>
      ∃ ps, xlateElems s0 c false (ts.map fun t => { t := t, va := g t % 2 ^ 64, len := n }) = .inl (s1, ps) ∧ (∀ p ∈ ps, p.e.fmt = fmt) ∧
        accs = ps.map fun p => acc p.t [p.p] (dec p.t)
    let q := qOf fmt
    let n := qLen q
    ((fmt = 0 ∧ (∀ t ∈ ts, (va + e t * w) % 2 ^ 64 % w = 0) ∧ each w (fun t => va + e t * w) fun _ => .raw ty) ∨
     (qFmt fmt = true ∧ va % 2 ^ 21 = 0 ∧ ∃ p1, PageOf s0 c false a s1 p1 ∧
       ((ty = .b32 ∧ e (c.leader.getD 0) < qRecords q ∧
         accs = ts.map fun t => acc t [Place.run p1 va (4096 + e (c.leader.getD 0) * n + min (4 * t) n) (min 4 (n - 4 * t))] (.raw .b32)) ∨
        ((ty = .f32 ∨ ty = .f16 ∨ ty = .g16) ∧ (∀ t ∈ ts, e t / 64 < qRecords q) ∧
         accs = ts.map fun t => acc t [Place.run p1 va (4 * (e t / 64 / 256)) 4, Place.run p1 va (4096 + e t / 64 * n) n] (.qel q (e t % 64) ty)))) ∨
     (fmt = 6 ∧ ty = .m64 ∧ va % 4 = 0 ∧ each 4 (fun t => va + 4 * e t) fun _ => .m32) ∨
     (fmt = 4 ∧ (ty = .g8 ∨ ty = .i8 ∨ ty = .n8) ∧ va % 128 = 0 ∧ each 128 (fun t => va + 128 * (e t / 192)) fun t => .sp 1 (e t % 192) ty) ∨
     (fmt = 5 ∧ (ty = .f16 ∨ ty = .g16 ∨ ty = .i16 ∨ ty = .n16) ∧ va % 128 = 0 ∧ each 128 (fun t => va + 128 * (e t / 96)) fun t => .sp 2 (e t % 96) ty))

/-- What STB stores, by the format of the page (R109, R114, R178, R233): the bytes with their places, the flags, and whether a failing
variance was replaced. A record is one store of the leader. -/
def StbWrites (h : Hdr) (ty : Ty) (d a b : Opnd) (b0 : State) (c : Ctx) (s1 : State) (fl : Flags) (mfl : Bool) (reqs : List StoreReq) : Prop :=
  let w := tyBytes ty
  let va := c.offset a 0
  let e := fun t => c.offset b t % 2 ^ 32
  let ts := c.memActs h [d]
  let lead := c.leader.getD 0
  ts ≠ [] ∧ ∃ s0 p0, PageOf b0 c true a s0 p0 ∧
    let fmt := p0.e.fmt
    let places := fun (n : Nat) (g : Nat → Nat) (ps : List Place) =>
      xlateElems s0 c true (ts.map fun t => { t := t, va := g t % 2 ^ 64, len := n }) = .inl (s1, ps) ∧ ∀ p ∈ ps, p.e.fmt = fmt
    let q := qOf fmt
    let n := qLen q
    let i := e lead
    ((fmt = 0 ∧ fl = flNone ∧ mfl = false ∧ (∀ t ∈ ts, (va + e t * w) % 2 ^ 64 % w = 0) ∧
       ∃ ps, places w (fun t => va + e t * w) ps ∧ reqs = ps.map fun p => { t := p.t, p := p.p, bs := leBytes w (c.st.r.src ty p.t d) }) ∨
     (fmt = 6 ∧ ty = .m64 ∧ va % 4 = 0 ∧ ∃ ps, places 4 (fun t => va + 4 * e t) ps ∧
       let r := fun (p : Place) => narrowM32 (c.st.r.src .m64 p.t d)
       fl = unionFlags (ps.map fun p => (r p).2.1) ∧ mfl = ps.any (fun p => (r p).2.2) ∧ (mfl = true → c.st.sp.vclamp = true) ∧
       reqs = ps.map fun p => { t := p.t, p := p.p, bs := (r p).1 }) ∨
     (qFmt fmt = true ∧ va % 2 ^ 21 = 0 ∧ i < qRecords q ∧ ∃ s2 p1 v, PageOf s0 c true a s2 p1 ∧ d = .v v ∧
       let at_ := Place.run p1 va
       let read := fun (hi : List RegRef) => c.st.settle s2.freeCtr hi
       let after := fun (hi : List RegRef) => { s2 with strands := nmSet s2.strands c.sid (read hi).1, freeCtr := (read hi).2 }
       mfl = false ∧
       ((ty = .b32 ∧ s1 = after [] ∧ fl = flNone ∧
         reqs = [{ t := lead, p := at_ (4096 + i * n) n, bs := (List.range n).map fun j =>
           if j / 4 ∈ ts then BitVec.ofNat 8 (((read []).1.r.rdV v.toNat (j / 4)).toNat / 2 ^ (8 * (j % 4))) else 0#8 }]) ∨
        ((ty = .f32 ∨ ty = .f16 ∨ ty = .g16 ∨ ty = .g8) ∧ v.toNat % 2 = 0 ∧
         let hi : List RegRef := [⟨.v, v.toNat + 1⟩]
         (h.wsb && c.st.marked hi) = false ∧ (c.st.sp.sbchk && c.st.short c.win h hi) = false ∧ s1 = after hi ∧
         let scale := leVal (loadPiece s1 (read hi).1 lead (at_ (4 * (i / 256)) 4))
         let x := fun (j : Nat) => if j % 32 ∈ ts then (fmtOf ty).dec (((read hi).1.r.rdV (v.toNat + j / 32) (j % 32)).toNat % 2 ^ ty.width) else .fin false 0 0
         let r := qEncode q scale ((List.range 64).map x)
         fl = r.2 ∧ reqs = [{ t := lead, p := at_ (4096 + i * n) n, bs := r.1 }]))))

/-- What an acting fragment executes when it executes nothing else: it only moves on. -/
def idle (h : Hdr) (u : Uses) (i : Instr) : Prop :=
  ∀ s st c, Issues h u s st c → c.acts h = [] → exec i s = .next (advance (issued h u s st c) c.sid c.f h)

/-- The end of a GROW.wait (R202, R203, R242): its predicate, in the live threads of its fragment, may land, and the fragment
goes on at the next word. -/
def growTold (x : State) (st : Strand) (fr : Frag) (d : Opnd) (sid f p : Nat) (ok : Bool) : State :=
  unblock (x.updStrand sid fun y => { y with pend := y.pend.map fun (q : Pend) => if q.id == p then
    { q with ok := true, writes := ((maskThreads fr.mask).filter st.sp.live).flatMap fun t => dstW d .b32 t ok.toNat } else q }) sid f

/-- One command instruction of an engine of the core (R220, R250, R338, R350): with the region ended, no acquire in flight, the
strand's stores out and a free entry that nothing waits for, the block is read and the command enters the queue. -/
def EngAccepts (i : Instr) (h : Hdr) (a b : Opnd) (gather : Bool) (mk : Nat → W32 → CmdReq) : Prop :=
  ∀ s st c s1 s2, let u := uses [] (refsOf a false ++ refsOf b false)
    let r := mk (c.st.r.uni32 a) (BitVec.ofNat 32 (c.st.r.uni32 b))
    Issues h u s st c → c.acts h ≠ [] → endRegion (issued h u s st c) c.sid c.f c.fr.pc none = (s1, true) →
    let b1 := s1.sends c.sid c.f r
    c.st.acquiring = false → storesOut s1 c.sid = true → (engQueue b1 c.st.core gather).length < 32 →
    cmdQueue b1 [c.st.core] (fun x => ((cmdParts x).map (·.1)) == some gather) = [] →
    acceptEng b1.tick.2 c.sid c.f r b1.tick.1 = .inl s2 →
    exec i s = .next (advance (setRgn s2 c.sid c.f (c.fr.pc + 12#57)) c.sid c.f h)

/-- A matrix instruction with good descriptors, its region ended, no acquire in flight, its
strand's stores out, and a free reservation entry that nothing
waits for: the command takes an entry, and marks fall on the tiles that it writes (R263, R268, R284). -/
def MatAccepts (i : Instr) (h : Hdr) (u : State → Uses) (bad : Ctx → Bool) (mk : Ctx → CmdReq) : Prop :=
  ∀ s st c s1, Issues h (u s) s st c → c.acts h ≠ [] → bad c = false →
    endRegion (issued h (u s) s st c) c.sid c.f c.fr.pc none = (s1, true) → c.st.acquiring = false → storesOut s1 c.sid = true →
    let b1 := s1.sends c.sid c.f (mk c)
    let cl := c.st.core / 4
    (clusterCmds b1 cl).length < 32 → cmdQueue b1 [4 * cl, 4 * cl + 1, 4 * cl + 2, 4 * cl + 3] CmdReq.isMat = [] →
    exec i s = .next (advance (setRgn (takeMat b1.tick.2 c.sid c.f (mk c) b1.tick.1) c.sid c.f (c.fr.pc + 12#57)) c.sid c.f h)

/-- A descriptor that R267 and R268 refuse traps as MATRIX_DESC before anything else. -/
def MatRefuses (i : Instr) (h : Hdr) (u : State → Uses) (bad : Ctx → Bool) : Prop :=
  ∀ s st c, Issues h (u s) s st c → c.acts h ≠ [] → bad c = true →
    exec i s = .next (raiseUser (issued h (u s) s st c) c.sid c.f 0x82#8 none)

/-- A marker, handler or Vat command enters its core's mark queue (R338, R370, R371): its region ended, no acquire in flight, and the
queue with room that nothing waits for; the fragment is then blocked until the command is accepted. -/
def MarkQueued (i : Instr) (h : Hdr) (a : Opnd) (mn sub cls : Nat) : Prop :=
  ∀ s st c s1, let u := uses [] (refsOf a false)
    Issues h u s st c → c.acts h ≠ [] → endRegion (issued h u s st c) c.sid c.f c.fr.pc none = (s1, true) →
    let b1 := s1.sends c.sid c.f (.mark mn sub cls (c.st.r.uni32 a))
    c.st.acquiring = false → (s1.core c.st.core).markQ.length < 32 →
    cmdQueue s1 [c.st.core] (fun r => match r with | .mark _ _ _ _ | .omrk => true | _ => false) = [] →
    exec i s = .next ((b1.tick.2.updCore c.st.core fun x =>
      { x with markQ := x.markQ ++ [{ id := b1.tick.1, sid := c.sid, frag := c.f, req := .mark mn sub cls (c.st.r.uni32 a), blk := [], cmd := none, rel := none }] }).updFrag
        c.sid c.f fun fr => { fr with st := .blocked, wait := .accept, evt := 0#64, gap := max h.stall.toNat 1 })

/-- Element i of a VRED (R397): the sum of its buffers' elements, rounded once, and the conditions of R98. -/
def vredRound (s : State) (m : MarkCmd) (i : Nat) : Rounded :=
  let n := blkN m.blk 0 8 % 8 + 1
  let xs := (List.range n).map fun k => fmtF32.dec (leVal ((List.range 4).map fun j => vredByte s m (blkN m.blk (32 + 8 * k) 8 + 4 * i + j)))
  let sum := treeSum (xs.map Num.ext)
  let r := roundExt fmtF32 .rne false 0#64 (fmtW64.dec sum.1).ext
  { bits := r.bits, fl := sum.2 ||| r.fl ||| flIf (xs.any Num.isSig) flNv }

/-- The sums of a VRED (R397): its elements in ascending order, each written before the next is read, and the union of their
conditions. -/
def vredAll (s : State) (m : MarkCmd) : State × Flags :=
  (List.range (blkN m.blk 0 8 / 2 ^ 32 % 2 ^ 32)).foldl (fun (a : State × Flags) i =>
    (markWrite a.1 m (blkN m.blk 8 8 + 4 * i) (leBytes 4 (vredRound a.1 m i).bits), a.2 ||| (vredRound a.1 m i).fl)) (s, flNone)

/-- A VCMD (R398): each row of each of its banks takes the block's 64 bytes over and over, or the bytes of the bank's row SRCROW. -/
def vcmdAll (s : State) (m : MarkCmd) : State :=
  let x := blkN m.blk 8 8
  let row := fun (q b : Nat) => blkN m.blk 0 8 + 65536 * q + 2048 * b
  ((List.range 32).filter (bitAt x)).foldl (fun y b =>
    let src := if bitAt x 48 then trRead y m.tr (row (x / 2 ^ 49 % 32) b) 2048 else (List.range 32).flatMap fun _ => (m.blk.drop 16).take 64
    ((List.range (x / 2 ^ 40 % 32 + 1)).map (· + x / 2 ^ 32 % 32)).foldl (fun z q => markWrite z m (row q b) src) y) s

/-- One read of the word p by a fragment in SWAIT in the state s (R342, R348, R411, R423): a line that holds its bytes goes first; a
remote word is asked for, with a transaction entry, where its pair has a number free; a value that satisfies the condition ends the
wait and acquires at .fabric. -/
def SwaitReads (out : Out) (s : State) (st : Strand) (sid f : Nat) (fr : Frag) (cd : SigCond) (b : W64) (n : Nat) (p : Piece) : Prop :=
  (∀ l, sigRead s st p = .send l → out = .next (trySend s st.core l)) ∧
  (sigRead s st p = .wait → out = .next s) ∧
  (sigRead s st p = .ask → pairFull s p.home = false → (fr.num = true ∨ ottUsed s st.core < 256) →
    out = .next ((sendPkt (s.updFrag sid f fun x => { x with num := true })
      { src := s.module.toNat, dst := p.home - 1, num := 0, seq := 0, core := st.core, jobs := [st.job], sid := sid, pc := fr.pc, mask := fr.mask,
        slot := st.slot, body := .read p.pa sid f }).carry st.job .word)) ∧
  (sigRead s st p = .ask → pairFull s p.home = true → ottUsed s st.core < 256 →
    out = .next (s.updFrag sid f fun x => { x with num := true })) ∧
  (∀ x, sigRead s st p = .val x → sigHolds cd x b = false → out = .next s) ∧
  (∀ x, sigRead s st p = .val x → sigHolds cd x b = true →
    let landed := s.updStrand sid fun y => { y with pend := y.pend.map fun q =>
      if q.id == n then { q with ok := true, writes := q.writes.map fun w => { w with x := x } } else q }
    out = .next (dropRlb (if p.ord = 0 then unblockRgn landed sid f else unblock landed sid f) st.core .fabric))

/-- A word decodes to an instruction. -/
def decodesTo (w : Nat) (i : Instr) : Bool := match decode w with | .ok j => decide (j = i) | .error _ => false

/-- A word fails a decoding check. -/
def refusedAs (w : Nat) (e : DecodeErr) : Bool := match decode w with | .ok _ => false | .error x => decide (x = e)

/-- A register cell as a write names it: a thread's copy of a register, a tile's element, a predicate's bit. -/
def cellOf (w : Write) : RC × Nat × Nat := (w.c, w.n, w.t)

/-- What a register cell holds. -/
def cellVal (r : Regs) (x : RC × Nat × Nat) : Nat :=
  match x.1 with
  | .v => (r.rdV x.2.1 x.2.2).toNat
  | .k => (r.rdK x.2.1).toNat
  | .p => (r.bitP x.2.1 x.2.2).toNat
  | .m => (r.rdM x.2.1 x.2.2).toNat
  | .a => (spGet r.a (4096 * x.2.1 + x.2.2)).toNat

/-- A cell of a class: threads below 32, tile elements below 4096, one cell for a uniform register. -/
def cellIn (x : RC × Nat × Nat) : Prop :=
  match x.1 with
  | .v | .m | .p => x.2.2 < 32
  | .k => x.2.2 = 0
  | .a => x.2.2 < 4096

end Sys2Proof
end

