-- ==== Sys2Proof/Certificates/Slice0/Obligations.lean ====
section
/-!
DEFINITION. The statements for the provers. A statement about an instruction that executes normally speaks of every
state that meets Issues (Sys2Proof/Safety.lean); the ways in which one is turned away are statements of their own.
-/
section
open Sys2Proof Sys2Proof.Machine

/-- O1. The integer arithmetic of R121: each thread's result is the exact result fitted to the type, wrapped or clamped; the
carry forms read the carry or borrow and write the new one (R121); the high half of the exact product (R121); and the
minimum, maximum, magnitude and negation of R122. -/
def Obligations.IntegerArithmeticResults : Prop :=
  ∀ (h : Hdr) (ty : Ty) (d a b : Opnd) (src : Srcs) (q : BitVec 3) (sat : Bool),
    let w : Bool := ty.width = 64
    let two : Uses := uses (refsOf d w) (srcRefs src d w)
    let ops : Uses := uses (refsOf d w) (refsOf a w ++ refsOf b w)
    let one : Uses := uses (refsOf d w) (refsOf a w)
    let cu : Uses := uses (refsOf d w ++ refsOf (.p q) false) (srcRefs src d w ++ refsOf (.p q) false)
    let mul : Nat := if ty.width = 64 then 7 else 2
    let x := fun (c : Ctx) (t : Nat) => intRead ty (c.st.r.srcs ty t d src).1
    let y := fun (c : Ctx) (t : Nat) => intRead ty (c.st.r.srcs ty t d src).2
    let p := fun (c : Ctx) (t : Nat) => intRead ty (c.st.r.src ty t a)
    let ci := fun (c : Ctx) (t : Nat) => (((c.st.r.bitP q.toNat t).toNat : Nat) : Int)
    let exactly := fun (v : Int) => if ty.width = 64 then toWrap 64 v else if ty.signed then toWrap 32 (sgn ty.width (toWrap ty.width v)) else toWrap ty.width v
    let clamped := fun (v : Int) => exactly (if v < Ty.minInt ty then Ty.minInt ty else if Ty.maxInt ty < v then Ty.maxInt ty else v)
    Does (.iadd h ty .wrap d src) h two 1 (fun c => each c h d ty fun t => exactly (x c t + y c t)) ∧
    Does (.iadd h ty .sat d src) h two 1 (fun c => each c h d ty fun t => clamped (x c t + y c t)) ∧
    Does (.isub h ty .wrap d src) h two 1 (fun c => each c h d ty fun t => exactly (x c t - y c t)) ∧
    Does (.isub h ty .sat d src) h two 1 (fun c => each c h d ty fun t => clamped (x c t - y c t)) ∧
    Does (.iadd h ty (.carry q) d src) h cu 1 (fun c =>
      { ws := (each c h d ty fun t => toWrap ty.width (x c t + y c t + ci c t)).ws
              ++ (each c h (.p q) .b32 fun t => (decide ((2 ^ ty.width : Int) ≤ x c t + y c t + ci c t)).toNat).ws,
        fl := flNone, mfl := false }) ∧
    Does (.isub h ty (.carry q) d src) h cu 1 (fun c =>
      { ws := (each c h d ty fun t => toWrap ty.width (x c t - y c t - ci c t)).ws
              ++ (each c h (.p q) .b32 fun t => (decide (x c t - y c t - ci c t < 0)).toNat).ws,
        fl := flNone, mfl := false }) ∧
    Does (.imul h ty false d src) h two mul (fun c => each c h d ty fun t => exactly (x c t * y c t)) ∧
    Does (.imul h ty true d src) h two mul (fun c => each c h d ty fun t => clamped (x c t * y c t)) ∧
    Does (.imulh h ty d a b) h ops mul (fun c => each c h d ty fun t =>
      exactly (p c t * intRead ty (c.st.r.src ty t b) / (2 ^ ty.width : Int))) ∧
    Does (.imad h ty sat d a b) h ops mul (fun c => each c h d ty fun t =>
      (if sat then clamped else exactly) (p c t * intRead ty (c.st.r.srcB ty t b) + intRead ty (c.st.r.srcC ty t b))) ∧
    Does (.imin h ty d src) h two 1 (fun c => each c h d ty fun t => exactly (min (x c t) (y c t))) ∧
    Does (.imax h ty d src) h two 1 (fun c => each c h d ty fun t => exactly (max (x c t) (y c t))) ∧
    Does (.iabs h ty sat d a) h one 1 (fun c => each c h d ty fun t =>
      (if sat then clamped else exactly) (if p c t < 0 then -p c t else p c t)) ∧
    Does (.ineg h ty sat d a) h one 1 (fun c => each c h d ty fun t => (if sat then clamped else exactly) (-p c t))

/-- O2. The bit instructions of R122 to R124: bitwise results; shifts whose counts of the width or more give 0, or the sign;
rotation by the count modulo the width; counts of ones and zeros; reversal; bit-field extraction and insertion, clipped at
the width. -/
def Obligations.BitInstructionResults : Prop :=
  ∀ (h : Hdr) (ty : Ty) (d a b : Opnd) (src : Srcs),
    let w : Bool := ty.width = 64
    let n := ty.width
    let two : Uses := uses (refsOf d w) (srcRefs src d w)
    let one : Uses := uses (refsOf d w) (refsOf a w)
    let sh : Uses := uses (refsOf d w) (refsOf a w ++ refsOf b false)
    let ops : Uses := uses (refsOf d w) (refsOf a w ++ refsOf b w)
    let cnt : Uses := uses (refsOf d false) (refsOf a w)
    let x := fun (c : Ctx) (t : Nat) => (c.st.r.srcs ty t d src).1
    let y := fun (c : Ctx) (t : Nat) => (c.st.r.srcs ty t d src).2
    let p := fun (c : Ctx) (t : Nat) => c.st.r.src ty t a
    let k := fun (c : Ctx) (t : Nat) => c.st.r.src .n32 t b
    let field := fun (v pos len : Nat) => v / 2 ^ pos % 2 ^ min len (n - pos)
    Does (.and h ty d src) h two 1 (fun c => each c h d ty fun t => x c t &&& y c t) ∧
    Does (.or h ty d src) h two 1 (fun c => each c h d ty fun t => x c t ||| y c t) ∧
    Does (.xor h ty d src) h two 1 (fun c => each c h d ty fun t => x c t ^^^ y c t) ∧
    Does (.andn h ty d src) h two 1 (fun c => each c h d ty fun t => x c t &&& (2 ^ n - 1 - y c t % 2 ^ n)) ∧
    Does (.not h ty d a) h one 1 (fun c => each c h d ty fun t => 2 ^ n - 1 - p c t % 2 ^ n) ∧
    Does (.shl h ty d a b) h sh 1 (fun c => each c h d ty fun t => if n ≤ k c t then 0 else (p c t <<< k c t) % 2 ^ n) ∧
    Does (.shr h ty d a b) h sh 1 (fun c => each c h d ty fun t => if n ≤ k c t then 0 else p c t >>> k c t) ∧
    Does (.sar h ty d a b) h sh 1 (fun c => each c h d ty fun t =>
      intWrite ty (if n ≤ k c t then (if intRead ty (p c t) < 0 then -1 else 0) else intRead ty (p c t) / (2 ^ k c t : Int))) ∧
    Does (.rol h ty d a b) h sh 1 (fun c => each c h d ty fun t =>
      (p c t * 2 ^ (k c t % n) + p c t / 2 ^ (n - k c t % n)) % 2 ^ n) ∧
    Does (.popc h ty d a) h cnt 2 (fun c => each c h d .b32 fun t => ((List.range n).filter (bitAt (p c t))).length) ∧
    Does (.clz h ty d a) h cnt 2 (fun c => each c h d .b32 fun t => n - bitLen (p c t)) ∧
    Does (.ctz h ty d a) h cnt 2 (fun c => each c h d .b32 fun t => ((List.range n).find? (bitAt (p c t))).getD n) ∧
    Does (.brev h ty d a) h one 1 (fun c => each c h d ty fun t =>
      (List.range n).foldl (fun r i => if bitAt (p c t) i then r + 2 ^ (n - 1 - i) else r) 0) ∧
    Does (.bfx h ty d a b) h sh 1 (fun c => each c h d ty fun t =>
      let pos := k c t % 256
      let len := k c t / 256 % 256
      if len = 0 ∨ n ≤ pos then 0
      else intWrite ty (if ty.signed then sgn (min len (n - pos)) (field (p c t) pos len) else field (p c t) pos len)) ∧
    Does (.bfi h ty d a b) h ops 1 (fun c => each c h d ty fun t =>
      let into := c.st.r.srcB ty t b
      let pos := c.st.r.srcC ty t b % 256
      let len := c.st.r.srcC ty t b / 256 % 256
      if len = 0 ∨ n ≤ pos then into
      else into - field into pos len * 2 ^ pos + p c t % 2 ^ min len (n - pos) * 2 ^ pos)

/-- O3. Moves, selection, addresses, comparison and the predicate instructions (R125, R126, R141 to R143, R154, R150): each
thread's value; VANY and VALL give every acting thread the same vote; ELECT gives 1 to the first acting thread only; BCST
gives the value of thread n, or 0 and a cleared predicate where that thread does not act. Which predicates PMOV.unpack
counts as written is the model's reading (log 67). -/
def Obligations.MoveSelectCompareVoteResults : Prop :=
  ∀ (h : Hdr) (ty : Ty) (d a b : Opnd) (q : BitVec 3) (neg : Bool) (sh : BitVec 3) (cnd : ICond) (tab : BitVec 4)
    (x y : BitVec 3),
    let w : Bool := ty.width = 64
    let p := fun (c : Ctx) (t : Nat) => c.st.r.src ty t a
    let mv := fun (c : Ctx) (o : Opnd) (t : Nat) => c.st.r.src ty t o
    let bit := fun (c : Ctx) (o : BitVec 3) (t : Nat) => c.st.r.bitP o.toNat t
    let all := preds.flatMap fun o => refsOf o false
    let n := fun (c : Ctx) => sgn 64 (c.st.r.uni64 b)
    let known := fun (c : Ctx) => decide (0 ≤ n c) && decide (n c ≤ 31) && (c.acts h).contains (n c).toNat
    Does (.lea h ty sh d a b) h (uses (refsOf d w) (refsOf a w ++ refsOf b w)) 1
      (fun c => each c h d ty fun t => (p c t + c.st.r.src ty t b * 2 ^ sh.toNat) % 2 ^ ty.width) ∧
    Does (.mov h ty d a) h (uses (refsOf d w) (refsOf a w)) 1 (fun c => each c h d ty (mv c a)) ∧
    Does (.movi h ty d (.two a b)) h (uses (refsOf d w) []) 1 (fun c => each c h d ty (mv c a)) ∧
    (∀ l, Does (.movi h ty d (.wide l)) h (uses (refsOf d w) []) 1 (fun c => each c h d ty fun _ => litVal ty l)) ∧
    Does (.sel h ty q neg d a b) h (uses (refsOf d w) (refsOf a w ++ refsOf b w ++ refsOf (.p q) false)) 1
      (fun c => each c h d ty fun t => if bit c q t = neg then mv c b t else mv c a t) ∧
    Does (.icmp h ty cnd d a b) h (uses (refsOf d false) (refsOf a w ++ refsOf b w)) 1
      (fun c => each c h d .b32 fun t =>
        let u := intRead ty (p c t)
        let v := intRead ty (c.st.r.src ty t b)
        (match cnd with
         | .eq => decide (u = v) | .ne => decide (u ≠ v) | .lt => decide (u < v)
         | .le => decide (u ≤ v) | .gt => decide (v < u) | .ge => decide (v ≤ u)).toNat) ∧
    Does (.plop h tab d (.p x) (.p y)) h (uses (refsOf d false) (refsOf (.p x) false ++ refsOf (.p y) false)) 1
      (fun c => each c h d .b32 fun t => (tab.getLsbD (2 * (bit c x t).toNat + (bit c y t).toNat)).toNat) ∧
    Does (.pmov h .test d a b) h (uses (refsOf d false) (refsOf a false)) 1
      (fun c => each c h d .b32 fun t => (decide (c.st.r.src .b32 t a ≠ 0)).toNat) ∧
    Does (.pmov h .pack d a b) h (uses (refsOf d false) all) 1 (fun c => each c h d .b32 fun t =>
      (List.range 7).foldl (fun r i => if c.st.r.bitP i t then r + 2 ^ i else r) 128) ∧
    Does (.pmov h .unpack d a b) h (uses all (refsOf a false ++ refsOf b false)) 1 (fun c =>
      { ws := (List.range 7).flatMap fun i => c.dst h (.p (BitVec.ofNat 3 i)) .b32
          (((c.acts h).filter fun t => bitAt (c.st.r.src .b32 t b) i).map fun t => (t, (bitAt (c.st.r.src .b32 t a) i).toNat)),
        fl := flNone, mfl := false }) ∧
    Does (.vany h d (.p x)) h (uses (refsOf d false) (refsOf (.p x) false)) 2
      (fun c => each c h d .b32 fun _ => ((c.acts h).any (bit c x)).toNat) ∧
    Does (.vall h d (.p x)) h (uses (refsOf d false) (refsOf (.p x) false)) 2
      (fun c => each c h d .b32 fun _ => ((c.acts h).all (bit c x)).toNat) ∧
    Does (.elect h d) h (uses (refsOf d false) []) 2
      (fun c => each c h d .b32 fun t => if (c.acts h).head? = some t then 1 else 0) ∧
    Does (.bcst h ty q d a b) h (uses (refsOf d w ++ refsOf (.p q) false) (refsOf a w ++ refsOf b false)) 4
      (fun c => { ws := (each c h d ty fun _ => if known c then c.st.r.src ty (n c).toNat a else 0).ws
                        ++ (each c h (.p q) .b32 fun _ => (known c).toNat).ws,
                  fl := flNone, mfl := false })

/-- O4. The floating-point instructions (R127 to R134): each thread's operation on the operand's encodings, in both halves
of an .x2 form, with its latency of R56 and the flags of R98; FSQRT, FDIV, FTRG, FTNH, FERF and FPHI are tracked. The bits
of the functions that the manual only bounds are free values within the bound (log 6), and their exactness the model's
reading (log 22). -/
def Obligations.FloatInstructionResults : Prop :=
  ∀ (h : Hdr) (ty : Ty) (rnd : Rnd) (sat x2 cos : Bool) (cnd : FCond) (d a b : Opnd) (src : Srcs),
    let w : Bool := ty.width = 64
    let f := fmtOf ty
    let add : Nat := if ty = .f64 then 5 else 3
    let two : Uses := uses (refsOf d w) (srcRefs src d w)
    let ops : Uses := uses (refsOf d w) (refsOf a w ++ refsOf b w)
    let one : Uses := uses (refsOf d w) (refsOf a w)
    let oneT : Uses := usesT (refsOf d w) (refsOf a w)
    let x := fun (c : Ctx) (t : Nat) => match src with | .two u _ => dupHalf ty x2 u (c.st.r.srcs ty t d src).1 | .wide _ => (c.st.r.srcs ty t d src).1
    let y := fun (c : Ctx) (t : Nat) => match src with | .two _ u => dupHalf ty x2 u (c.st.r.srcs ty t d src).2 | .wide _ => dupHalf ty x2 (.g 0#16) (c.st.r.srcs ty t d src).2
    let p := fun (c : Ctx) (t : Nat) => c.st.r.src ty t a
    let bin := fun (c : Ctx) (g : W64 → Nat → Nat → Rounded) => eachF c h d ty fun t => flApply ty x2 (fun j u v _ => g (c.key t j) u v) (x c t) (y c t) 0
    let un := fun (c : Ctx) (x2 : Bool) (g : W64 → Nat → Rounded) => eachF c h d ty fun t => flApply ty x2 (fun j u _ _ => g (c.key t j) u) (p c t) 0 0
    Does (.fadd h ty rnd sat x2 d src) h two add (fun c => bin c fun k u v => fAdd f rnd sat k false u v) ∧
    Does (.fsub h ty rnd sat x2 d src) h two add (fun c => bin c fun k u v => fAdd f rnd sat k true u v) ∧
    Does (.fmul h ty rnd sat x2 d src) h two add (fun c => bin c fun k u v => fMul f rnd sat k u v) ∧
    Does (.ffma h ty rnd sat x2 d a b) h ops add (fun c => eachF c h d ty fun t =>
      flApply ty x2 (fun j u v z => fFma f rnd sat (c.key t j) u v z) (p c t) (c.st.r.srcB ty t b) (c.st.r.srcC ty t b)) ∧
    Does (.fmin h ty x2 d src) h two 1 (fun c => bin c fun _ u v => fMinMax f false u v) ∧
    Does (.fmax h ty x2 d src) h two 1 (fun c => bin c fun _ u v => fMinMax f true u v) ∧
    Does (.fabs h ty x2 d a) h one 1 (fun c => un c x2 fun _ u => { bits := u % 2 ^ (ty.width - 1), fl := flNone }) ∧
    Does (.fneg h ty x2 d a) h one 1 (fun c => un c x2 fun _ u =>
      { bits := if u < 2 ^ (ty.width - 1) then u + 2 ^ (ty.width - 1) else u - 2 ^ (ty.width - 1), fl := flNone }) ∧
    Does (.fcmp h ty cnd d a b) h (uses (refsOf d false) (refsOf a w ++ refsOf b w)) 1 (fun c => eachF c h d .b32 fun t =>
      let r := fCmp f cnd (p c t % 2 ^ ty.width) (c.st.r.src ty t b % 2 ^ ty.width)
      (r.1.toNat, r.2)) ∧
    Does (.fcls h ty d a b) h (uses (refsOf d false) (refsOf a w ++ refsOf b false)) 1 (fun c => each c h d .b32 fun t =>
      (bitAt (c.st.r.src .n32 t b) (fClass f (p c t % 2 ^ ty.width))).toNat) ∧
    Does (.fscl h ty rnd sat d a b) h (uses (refsOf d w) (refsOf a w ++ refsOf b false)) 3 (fun c => eachF c h d ty fun t =>
      flApply ty false (fun j u _ _ => fScl f rnd sat (c.key t j) u (clampInt (-4096) 4096 (sgn 32 (c.st.r.src .i32 t b)))) (p c t) 0 0) ∧
    Does (.frnd h ty rnd d a) h one 3 (fun c => un c false fun k u => fRnd f rnd k u) ∧
    Does (.frcp h ty d a) h one 6 (fun c => un c false fun _ u => fRcp f u) ∧
    Does (.frsq h ty d a) h one 6 (fun c => un c false fun _ u => fRsq f u) ∧
    Does (.fex2 h ty d a) h one 6 (fun c => un c false fun _ u => fEx2 ty u) ∧
    Does (.flg2 h ty d a) h one 6 (fun c => un c false fun _ u => fLg2 ty u) ∧
    Does (.fdot h ty rnd sat d a b) h (uses (refsOf d false) (refsOf a false ++ refsOf b false)) 4 (fun c => eachF c h d .f32 fun t =>
      let r := fDot ty rnd sat (c.key t 0) (c.st.r.src .b32 t a) (c.st.r.srcB .b32 t b) (c.st.r.srcC .b32 t b)
      (r.bits, r.fl)) ∧
    DoesT (.fsqrt h ty rnd d a) h oneT (fun c => un c false fun k u => fSqrt f rnd k u) ∧
    DoesT (.fdiv h ty rnd sat d a b) h (usesT (refsOf d w) (refsOf a w ++ refsOf b w)) (fun c => eachF c h d ty fun t =>
      flApply ty false (fun j u v _ => fDiv f rnd sat (c.key t j) u v) (p c t) (c.st.r.src ty t b) 0) ∧
    DoesT (.ftrg h ty cos d a) h oneT (fun c => un c false fun _ u => fTrg ty cos u) ∧
    DoesT (.ftnh h ty d a) h oneT (fun c => un c false fun _ u => fTnh ty u) ∧
    DoesT (.ferf h ty d a) h oneT (fun c => un c false fun _ u => fErf ty u) ∧
    DoesT (.fphi h ty d a) h oneT (fun c => un c false fun _ u => fPhi ty u)

/-- O5. The conversion and format instructions (R135 to R140): one exact conversion per thread; PACK of the converted parts
in order; UNPK of the part that B numbers; QENC's record spread four bytes a thread, and QDEC's gathered from the acting
threads. That CVTS of an integer source saturates is the model's reading (log 21). -/
def Obligations.ConversionResults : Prop :=
  ∀ (h : Hdr) (ty dt st : Ty) (rnd : Rnd) (sat hi : Bool) (qf : QFmt) (d a b : Opnd),
    let two : Uses := uses (refsOf d false) (refsOf a false ++ refsOf b false)
    Does (.cvt h rnd dt st sat d a) h (uses (refsOf d (dt.width = 64)) (refsOf a (st.width = 64))) 3
      (fun c => eachF c h d dt fun t => cvt dt st rnd sat (c.key t 0) (c.st.r.src st t a)) ∧
    Does (.cvts h rnd dt st sat d a b) h (uses (refsOf d (dt.width = 64)) (refsOf a (st.width = 64) ++ refsOf b false)) 4
      (fun c => eachF c h d dt fun t => cvts dt st rnd sat (c.key t 0) (c.st.r.src st t a) (c.st.r.src .f32 t b)) ∧
    Does (.pack h dt st sat d a b) h two 2 (fun c => eachF c h d .b32 fun t => packVal dt st sat (c.st.r.src .b32 t a) (c.st.r.src .b32 t b)) ∧
    Does (.unpk h dt st sat d a b) h (uses (refsOf d false) (refsOf a false)) 2 (fun c => eachF c h d dt fun t =>
      cvt dt st .rne sat 0#64 (c.st.r.src .b32 t a / 2 ^ (st.width * c.st.r.src .n32 t b) % 2 ^ st.width)) ∧
    Does (.qenc h qf st d a b) h two 6 (fun c =>
      let on := c.acts h
      let q := qEncode qf (c.st.r.src .f32 0 a) (qVals c st on (pairFst b) (pairSnd b))
      { ws := (each c h d .b32 fun t => leVal ((q.1.drop (4 * t)).take 4)).ws, fl := if on.isEmpty then flNone else q.2, mfl := false }) ∧
    Does (.qdec h ty hi qf sat d a b) h two 6 (fun c => eachF c h d ty fun t =>
      qRound ty sat (qElem qf (c.st.r.src .f32 0 b) (gatherRec c (c.acts h) a (qLen qf)) (t + if hi then 32 else 0)))

/-- O6. The moment instructions (R175 to R194): where no variance is negative, or %ctl.vclamp replaces it, each thread's
value and flags, with %mflag set where one was replaced. The values of MRLU, MEXP and MPHI are free within their bounds (log
6), and NaN halves are the model's reading (log 30). -/
def Obligations.MomentInstructionResults : Prop :=
  ∀ (h : Hdr) (cov : Cov) (rnd : Rnd) (d a b : Opnd) (clp : MclpSel) (chk : MchkSel),
    let one : Uses := uses (refsOf d false) (refsOf a false)
    let oneT : Uses := usesT (refsOf d false) (refsOf a false)
    let two : Uses := uses (refsOf d false) (refsOf a false ++ refsOf b false)
    let covU := fun s => uses (refsOf d false) (refsOf a false ++ refsOf b false ++ covRefs s cov)
    let x := fun (c : Ctx) (t : Nat) => c.st.r.src .m64 t a
    let y := fun (c : Ctx) (t : Nat) => c.st.r.src .m64 t b
    let z := fun (c : Ctx) (t : Nat) => c.st.r.src .m64 t d
    let m := fun v => meanNum v
    let v := fun v => varNum (momVar v)
    let neg := fun v => varFails (momVar v)
    let form := fun (c : Ctx) (t : Nat) (ins : List Machine.Num) (mt vt : List (Ext × Flags)) (bad : Bool) =>
      let r := momForm rnd (c.key t 0) (c.key t 1) ins mt vt
      ({ x := r.1, fl := r.2, bad := bad } : MomRes)
    let pair := fun (g : Machine.Num → Machine.Num → Machine.Num → Machine.Num → Machine.Num → List (Ext × Flags) × List (Ext × Flags)) (c : Ctx) (t : Nat) =>
      let r := covRho c.st cov
      let q := g r (m (x c t)) (v (x c t)) (m (y c t)) (v (y c t))
      form c t [r, m (x c t), v (x c t), m (y c t), v (y c t)] q.1 q.2 (neg (x c t) || neg (y c t))
    let fma := fun (c : Ctx) (t : Nat) =>
      let r := covRho c.st cov
      let q := mmulTerms r (m (x c t)) (v (x c t)) (m (y c t)) (v (y c t))
      form c t [r, m (x c t), v (x c t), m (y c t), v (y c t), m (z c t), v (z c t)] (q.1 ++ [momTerm [m (z c t)] []])
        (q.2 ++ [momTerm [v (z c t)] []]) (neg (x c t) || neg (y c t) || neg (z c t))
    let scl := fun (c : Ctx) (t : Nat) =>
      let k := msclConsts c t b
      let al := fmtF32.dec k.1
      let be := fmtF32.dec k.2
      form c t [m (x c t), v (x c t), al, be] [momTerm [al, m (x c t)] [], momTerm [be] []] [momTerm [al, al, v (x c t)] []] (neg (x c t))
    let sqr := fun (c : Ctx) (t : Nat) =>
      let r := msqrVal rnd (c.key t 0) (c.key t 1) (m (x c t)) (v (x c t))
      ({ x := r.1, fl := r.2, bad := neg (x c t) } : MomRes)
    let put := fun (c : Ctx) (t : Nat) =>
      let r := mputVar (c.st.r.src .f32 t b)
      ({ x := momPack (c.st.r.src .f32 t a) r.1, fl := r.2, bad := varFails (c.st.r.src .f32 t b) } : MomRes)
    let clip := fun (c : Ctx) (t : Nat) =>
      let r := mclpVal clp rnd (c.key t 0) (m (x c t)) (v (x c t)) (fmtF32.dec (c.st.r.src .f32 t b))
      ({ x := r.1, fl := r.2, bad := neg (x c t) } : MomRes)
    Does (.mmov h d a) h one 1 (fun c => each c h d .m64 (x c)) ∧
    DoesIf (.mput h d a b) h (fun _ => two) 1 (noNegvar h put) (fun c => moments c h d .m64 (put c)) ∧
    Does (.mget h .mu d a) h one 1 (fun c => each c h d .b32 fun t => x c t % 2 ^ 32) ∧
    Does (.mget h .var d a) h one 1 (fun c => each c h d .b32 fun t => x c t / 2 ^ 32 % 2 ^ 32) ∧
    Does (.mget h .both d a) h (uses (refsOf d true) (refsOf a false)) 1 (fun c => each c h d .b64 (x c)) ∧
    DoesIf (.madd h cov rnd d a b) h covU 3 (noNegvar h (pair (maddTerms false))) (fun c => moments c h d .m64 (pair (maddTerms false) c)) ∧
    DoesIf (.msub h cov rnd d a b) h covU 3 (noNegvar h (pair (maddTerms true))) (fun c => moments c h d .m64 (pair (maddTerms true) c)) ∧
    DoesIf (.mmul h cov rnd d a b) h covU 4 (noNegvar h (pair mmulTerms)) (fun c => moments c h d .m64 (pair mmulTerms c)) ∧
    DoesIf (.mfma h cov rnd d a b) h (fun s => uses (refsOf d false) (refsOf d false ++ refsOf a false ++ refsOf b false ++ covRefs s cov)) 4
      (noNegvar h fma) (fun c => moments c h d .m64 (fma c)) ∧
    DoesIf (.mscl h rnd d a b) h (fun _ => two) 3 (noNegvar h scl) (fun c => moments c h d .m64 (scl c)) ∧
    DoesIf (.msqr h rnd d a) h (fun _ => one) 4 (noNegvar h sqr) (fun c => moments c h d .m64 (sqr c)) ∧
    DoesTIf (.mrlu h d a) h oneT (noNegvar h fun c t => mrluVal (x c t)) (fun c => moments c h d .m64 fun t => mrluVal (x c t)) ∧
    DoesTIf (.mexp h d a) h oneT (noNegvar h fun c t => mexpVal (x c t)) (fun c => moments c h d .m64 fun t => mexpVal (x c t)) ∧
    DoesTIf (.mphi h d a) h oneT (noNegvar h fun c t => mphiVal (x c t)) (fun c => moments c h d .m64 fun t => mphiVal (x c t)) ∧
    DoesIf (.mclp h clp rnd d a b) h (fun _ => two) 5 (noNegvar h clip) (fun c => moments c h d .f32 (clip c)) ∧
    Does (.mchk h chk d a) h one 4 (fun c => each c h d .b32 fun t => (mchkVal chk (x c t)).toNat)

/-- O7. A negative variance that an acting thread reads, without %ctl.vclamp, raises NEGVAR at the instruction and writes
nothing, in each instruction that checks the variance of an operand, MPUT of the moment it forms (R178, R180): MPUT, MADD,
MSUB, MMUL, MFMA, MSCL, MSQR, MRLU, MEXP, MPHI and MCLP. -/
def Obligations.NegativeVarianceRaisesNegvar : Prop :=
  ∀ (h : Hdr) (cov : Cov) (rnd : Rnd) (clp : MclpSel) (d a b : Opnd),
    let one : Uses := uses (refsOf d false) (refsOf a false)
    let oneT : Uses := usesT (refsOf d false) (refsOf a false)
    let two : Uses := uses (refsOf d false) (refsOf a false ++ refsOf b false)
    let covU := fun s => uses (refsOf d false) (refsOf a false ++ refsOf b false ++ covRefs s cov)
    let neg := fun (c : Ctx) (o : Opnd) (t : Nat) => varFails (momVar (c.st.r.src .m64 t o))
    let ofA := fun (c : Ctx) (t : Nat) => neg c a t
    let ofAB := fun (c : Ctx) (t : Nat) => neg c a t || neg c b t
    NegvarTraps (.mput h d a b) h (fun _ => two) (fun c t => varFails (c.st.r.src .f32 t b)) ∧
    NegvarTraps (.madd h cov rnd d a b) h covU ofAB ∧ NegvarTraps (.msub h cov rnd d a b) h covU ofAB ∧
    NegvarTraps (.mmul h cov rnd d a b) h covU ofAB ∧
    NegvarTraps (.mfma h cov rnd d a b) h (fun s => uses (refsOf d false) (refsOf d false ++ refsOf a false ++ refsOf b false ++ covRefs s cov))
      (fun c t => ofAB c t || neg c d t) ∧
    NegvarTraps (.mscl h rnd d a b) h (fun _ => two) ofA ∧ NegvarTraps (.msqr h rnd d a) h (fun _ => one) ofA ∧
    NegvarTraps (.mrlu h d a) h (fun _ => oneT) ofA ∧ NegvarTraps (.mexp h d a) h (fun _ => oneT) ofA ∧ NegvarTraps (.mphi h d a) h (fun _ => oneT) ofA ∧
    NegvarTraps (.mclp h clp rnd d a b) h (fun _ => two) ofA

/-- O8. BALLOT, SHFL, REDX, SCAN and MATCH execute for a fragment whose threads cover the live threads of the mask (R146).
-/
def Obligations.RendezvousInstructionsComplete : Prop :=
  ∀ (h : Hdr) (ty : Ty) (vp : BitVec 3) (md : ShflMode) (op : RedOp) (ex al : Bool) (d a b : Opnd),
    let w : Bool := ty.width = 64
    AloneDoes (.ballot h d a b) h (uses (refsOf d false) (refsOf a false ++ refsOf b false)) b 3 ∧
    AloneDoes (.shfl h ty vp md d a b) h (uses (refsOf d w ++ refsOf (.p vp) false) (refsOf a w ++ refsOf b false)) b 4 ∧
    AloneDoes (.redx h ty op d a b) h (uses (refsOf d w) (refsOf a w ++ refsOf b false)) b 6 ∧
    AloneDoes (.scan h ty op ex d a b) h (uses (refsOf d w) (refsOf a w ++ refsOf b false)) b 6 ∧
    AloneDoes (.matchx h ty vp al d a b) h (uses (refsOf d false ++ refsOf (.p vp) false) (refsOf a w ++ refsOf b false)) b 4

/-- O9. What each participant of a rendezvous is given (R148 to R153), for one fragment's part `p` among any: BALLOT the
mask of the participants whose predicate is 1, once for a uniform D; SHFL the source thread's value, or 0 and a cleared
predicate; REDX the reduction over all participants, once for a uniform D; SCAN the reduction of those up to, or before, the
thread; MATCH the mask of those with its value, or of all of them where they are alike. That each thread uses the operands
of its own fragment's word is the model's reading (log 19). -/
def Obligations.RendezvousResults : Prop :=
  ∀ (ps : List RdvPart) (ml : W32) (f : Nat) (ts : List Nat) (vs ss : List (Nat × Nat)) (h : Hdr) (ty : Ty) (vp : BitVec 3)
    (md : ShflMode) (op : RedOp) (ex : Bool) (a b : Opnd) (dv : BitVec 8),
    let all := threads.filter fun t => ps.any fun q => q.ts.contains t
    let v := rdvVal ps
    let put := fun (ty : Ty) (g : Nat → Nat) => ts.flatMap fun t => dstW (.v dv) ty t (g t)
    let pred := fun (g : Nat → Bool) => ts.flatMap fun t => dstW (.p vp) .b32 t (g t).toNat
    let src := fun (t : Nat) => shflFrom md (byThread ss t) t
    let key := fun (t : Nat) => v t % 2 ^ ty.width
    let alike := ∀ t ∈ all, ∀ u ∈ all, key t = key u
    rdvWrites ps ml ⟨f, .ballot h (.v dv) a b, ts, vs, ss⟩ = (put .b32 fun _ => (maskOf (all.filter fun t => v t = 1)).toNat, flNone) ∧
    (∀ (dk : BitVec 6) (t : Nat), rdvWrites ps ml ⟨f, .ballot h (.k dk) a b, t :: ts, vs, ss⟩
      = (dstW (.k dk) .b32 t (maskOf (all.filter fun t => v t = 1)).toNat, flNone)) ∧
    rdvWrites ps ml ⟨f, .shfl h ty vp md (.v dv) a b, ts, vs, ss⟩ =
      ((put ty fun t => if src t ∈ all then v (src t) else 0) ++ pred fun t => decide (src t ∈ all), flNone) ∧
    rdvWrites ps ml ⟨f, .redx h ty op (.v dv) a b, ts, vs, ss⟩ = (put ty fun _ => (reduce op ty (all.map v)).1, (reduce op ty (all.map v)).2) ∧
    (∀ (dk : BitVec 6) (t : Nat), rdvWrites ps ml ⟨f, .redx h ty op (.k dk) a b, t :: ts, vs, ss⟩
      = (dstW (.k dk) ty t (reduce op ty (all.map v)).1, (reduce op ty (all.map v)).2)) ∧
    (rdvWrites ps ml ⟨f, .scan h ty op ex (.v dv) a b, ts, vs, ss⟩).1 =
      (put ty fun t => (reduce op ty ((all.filter fun u => if ex then u < t else u ≤ t).map v)).1) ∧
    rdvWrites ps ml ⟨f, .matchx h ty vp false (.v dv) a b, ts, vs, ss⟩ =
      ((put .b32 fun t => (maskOf (all.filter fun u => key u = key t)).toNat) ++ pred fun _ => decide (maskOf all = ml), flNone) ∧
    (alike → rdvWrites ps ml ⟨f, .matchx h ty vp true (.v dv) a b, ts, vs, ss⟩ =
      ((put .b32 fun _ => (maskOf all).toNat) ++ pred fun _ => decide (maskOf all = ml), flNone)) ∧
    (¬alike → rdvWrites ps ml ⟨f, .matchx h ty vp true (.v dv) a b, ts, vs, ss⟩ =
      ((put .b32 fun _ => 0) ++ pred fun _ => false, flNone))

/-- O10. Where BALLOT, SHFL, REDX, SCAN, MATCH and LSYN raise MASK_DIS (R146, R247): a guarded thread outside the mask, or
an open rendezvous that shares a live thread of the mask and has another live mask, OPC or MOD. -/
def Obligations.RendezvousMaskMismatchTraps : Prop :=
  ∀ (h : Hdr) (ty : Ty) (vp : BitVec 3) (md : ShflMode) (op : RedOp) (ex al : Bool) (d a b : Opnd),
    let w : Bool := ty.width = 64
    maskFails h (uses (refsOf d false) (refsOf a false ++ refsOf b false)) b (.ballot h d a b) false ∧
    maskFails h (uses (refsOf d w ++ refsOf (.p vp) false) (refsOf a w ++ refsOf b false)) b (.shfl h ty vp md d a b) false ∧
    maskFails h (uses (refsOf d w) (refsOf a w ++ refsOf b false)) b (.redx h ty op d a b) false ∧
    maskFails h (uses (refsOf d w) (refsOf a w ++ refsOf b false)) b (.scan h ty op ex d a b) false ∧
    maskFails h (uses (refsOf d false ++ refsOf (.p vp) false) (refsOf a w ++ refsOf b false)) b (.matchx h ty vp al d a b) false ∧
    (∀ sc kd, maskFails h (uses [] (refsOf b false)) b (.lsyn h sc kd b) true)

/-- O11. BRA, BRX, CALL and RET (R156, R157, R159): the acting threads go to their targets and the other live threads to the
next word, each part in an entry of its own; CALL writes the next word's place in the text to D of the acting threads. -/
def Obligations.BranchesMoveThreads : Prop :=
  ∀ (h : Hdr) (off : BitVec 24) (d a : Opnd) (s : State) (st : Strand) (c : Ctx) (j : Job) (p0 : Nat × W32) (rest : List (Nat × W32)),
    let lit : List (Nat × Nat) := (c.acts h).map fun t => (t, litTarget c.fr.pc off)
    let reg : List (Nat × Nat) := (c.acts h).map fun t => (t, j.base + c.st.r.src .n32 t a)
    let link := c.dst h d .n32 ((c.acts h).map fun t => (t, c.fr.pc.toNat + 12 - j.base))
    (Branches h (uses [] []) s st c j lit p0 rest → j.pcOk (litTarget c.fr.pc off) = true →
      exec (.bra h off) s = .next (branched h (uses [] []) s st c [] p0 rest)) ∧
    (Branches h (uses (refsOf d false) []) s st c j lit p0 rest → j.pcOk (litTarget c.fr.pc off) = true →
      exec (.call h d off) s = .next (branched h (uses (refsOf d false) []) s st c link p0 rest)) ∧
    (Branches h (uses [] (refsOf a false)) s st c j reg p0 rest →
      exec (.brx h a) s = .next (branched h (uses [] (refsOf a false)) s st c [] p0 rest) ∧
      exec (.ret h a) s = .next (branched h (uses [] (refsOf a false)) s st c [] p0 rest))

/-- O12. BRA, CALL, BRX and RET under UNI move the whole fragment when its leader's guard is 1 (R42, R157, R159): the
fragment goes to the target and keeps its threads, and CALL writes the next word's place in the text to D; with a guard of 0
it only goes to the next word, whatever the target, which for a bad literal target is the model's reading (log 67). -/
def Obligations.UniformBranchesMoveTheFragment : Prop :=
  ∀ (h : Hdr) (off : BitVec 24) (d a : Opnd) (s : State) (st : Strand) (c : Ctx) (j : Job),
    h.uni = true → s.job? st = some j →
    let none' : Uses := uses [] []
    let callU : Uses := uses (refsOf d false) []
    let regU : Uses := uses [] (refsOf a false)
    let stay := fun (u : Uses) => advance (issued h u s st c) c.sid c.f h
    let move := fun (u : Uses) (ws : List Write) (pc : Nat) =>
      moveTo ((issued h u s st c).updStrand c.sid fun x => x.result c.f c.win 1 u.writes ws flNone false) c.sid c.f h (BitVec.ofNat 57 pc)
    let lit := litTarget c.fr.pc off
    let reg := j.base + c.st.r.src .n32 ((c.leader).getD 0) a
    let link := c.dst h d .n32 ((c.acts h).map fun t => (t, c.fr.pc.toNat + 12 - j.base))
    (Issues h none' s st c →
      (c.acts h = [] → exec (.bra h off) s = .next (stay none')) ∧
      (c.acts h ≠ [] → j.pcOk lit = true → exec (.bra h off) s = .next (move none' [] lit))) ∧
    (Issues h callU s st c →
      (c.acts h = [] → exec (.call h d off) s = .next (stay callU)) ∧
      (c.acts h ≠ [] → j.pcOk lit = true → exec (.call h d off) s = .next (move callU link lit))) ∧
    (Issues h regU s st c →
      (c.acts h = [] → exec (.brx h a) s = .next (stay regU) ∧ exec (.ret h a) s = .next (stay regU)) ∧
      (c.acts h ≠ [] → j.pcOk reg = true → exec (.brx h a) s = .next (move regU [] reg) ∧ exec (.ret h a) s = .next (move regU [] reg)))

/-- O13. A branch or RCV whose target is no word of the text raises PC_BAD at the instruction and moves nothing (R40, R156,
R160): RCV in every form, BRX and RET where an acting thread's target is bad, under UNI the leader's, and BRA and CALL with
a bad literal target. That BRA and CALL without UNI raise it whatever threads take them, and under UNI only for a leader
whose guard is 1, is the model's reading (log 67). -/
def Obligations.BadBranchTargetsRaisePcBad : Prop :=
  ∀ (h : Hdr) (off : BitVec 24) (d a : Opnd) (s : State) (st : Strand) (c : Ctx) (j : Job),
    s.job? st = some j →
    let bad := fun (u : Uses) => endJobAt (issued h u s st c) c.sid c.f 0x06#8 []
    let reg := fun (t : Nat) => j.base + c.st.r.src .n32 t a
    (j.pcOk (litTarget c.fr.pc off) = false →
      (Issues h (uses [] []) s st c →
        exec (.rcv h off) s = .next (bad (uses [] [])) ∧
        (h.uni = false ∨ c.acts h ≠ [] → exec (.bra h off) s = .next (bad (uses [] [])))) ∧
      (Issues h (uses (refsOf d false) []) s st c →
        (h.uni = false ∨ c.acts h ≠ [] → exec (.call h d off) s = .next (bad (uses (refsOf d false) []))))) ∧
    (Issues h (uses [] (refsOf a false)) s st c →
      (h.uni = false → (∃ t ∈ c.acts h, j.pcOk (reg t) = false) →
        exec (.brx h a) s = .next (bad (uses [] (refsOf a false))) ∧ exec (.ret h a) s = .next (bad (uses [] (refsOf a false)))) ∧
      (h.uni = true → c.acts h ≠ [] → j.pcOk (reg ((c.leader).getD 0)) = false →
        exec (.brx h a) s = .next (bad (uses [] (refsOf a false))) ∧ exec (.ret h a) s = .next (bad (uses [] (refsOf a false)))))

/-- O14. RCV, EXIT, NOP and YLD (R160, R161, R162): RCV names the record of its target for the live threads; EXIT, with no
mark pending, ends the region and takes the acting threads, under UNI all of the fragment's, out of the live ones; a thread
that stays goes on at the next word. -/
def Obligations.RecordsExitsAndNops : Prop :=
  ∀ (h : Hdr) (off : BitVec 24) (s : State) (st : Strand) (c : Ctx) (j : Job) (s1 : State),
    Issues h (uses [] []) s st c → s.job? st = some j →
    let b := issued h (uses [] []) s st c
    let r := (firstFree (nmKeys c.st.recs) 9 0).getD 0
    (j.pcOk (litTarget c.fr.pc off) = true → c.st.recs.length < 8 →
      exec (.rcv h off) s = .next (advance (b.updStrand c.sid fun x => Strand.updFrag
        { x with recs := nmSet x.recs r { pc := BitVec.ofNat 57 (litTarget c.fr.pc off), mask := maskOf c.lives, parent := c.fr.rix } } c.f
        (fun fr => { fr with rix := some r })) c.sid c.f h)) ∧
    (c.st.anyTracked = false → c.acts h = [] → exec (.exit h) s = .next (advance b c.sid c.f h)) ∧
    (c.st.anyTracked = false → c.acts h ≠ [] → h.uni = false →
      endRegion (b.updStrand c.sid Strand.landFixed) c.sid c.f (c.fr.pc + 12#57) none = (s1, true) →
      let s2 := exitThreads s1 c.sid (maskOf (c.acts h)) c.fr.pc
      exec (.exit h) s = .next (if ∀ t ∈ c.lives, t ∈ c.acts h then s2 else advance s2 c.sid c.f h)) ∧
    (c.st.anyTracked = false → c.acts h ≠ [] → h.uni = true → Sound c.st →
      exec (.exit h) s = .next (exitThreads (committed (b.updStrand c.sid Strand.landFixed) c.sid c.f (c.fr.pc + 12#57)) c.sid (maskOf c.lives) c.fr.pc)) ∧
    exec (.nop h) s = .next (advance b c.sid c.f h) ∧
    exec (.yld h) s = .next (advance (issued { h with yld := true } (uses [] []) s st c) c.sid c.f h)

/-- O15. TRAP, SLEEP and BRK (R163, R169, R170, R454): TRAP n below 8 takes the user cause F0 + n and the others stop the
fragment for firmware; SLEEP by n blocks it for n cycles, by 0 only yields; BRK, in a job that is being debugged, stops the
fragment and sends H7 a message. With no acting thread each only moves on. The message of BRK has the model's form (log 23).
-/
def Obligations.TrapSleepBreak : Prop :=
  ∀ (h : Hdr) (n : BitVec 4) (k : BitVec 8) (a : Opnd) (s : State) (st : Strand) (c : Ctx),
    let b := issued h (uses [] []) s st c
    let b1 := issued h (uses [] (refsOf a false)) s st c
    let m := c.st.r.uni32 a
    let dbg := (((s.job? st).bind fun j => nmGet s.launches j.launch).map (·.debug)).getD false
    (Issues h (uses [] []) s st c →
      (c.acts h = [] → exec (.trap h n) s = .next (advance b c.sid c.f h)) ∧
      (c.acts h ≠ [] → n.toNat < 8 → exec (.trap h n) s = .next (raiseUser b c.sid c.f (0xF0#8 + n.setWidth 8) none)) ∧
      (c.acts h ≠ [] → 8 ≤ n.toNat →
        exec (.trap h n) s = .next ((b.log c.st.job (trapRec c.st c.fr n.toNat)).updFrag c.sid c.f fun fr =>
          { fr with st := .stopped, wait := .trapStop n.toNat (c.st.r.rdK 56) })) ∧
      (dbg = false ∨ c.acts h = [] → exec (.brk h k) s = .next (advance b c.sid c.f h)) ∧
      (dbg = true → c.acts h ≠ [] →
        ∃ msg, exec (.brk h k) s =
          .next (mailPut (b.updFrag c.sid c.f fun fr => { fr with st := .stopped, wait := .debugStop }) 8 7 msg))) ∧
    (Issues h (uses [] (refsOf a false)) s st c →
      (c.acts h = [] → exec (.sleep h a) s = .next (advance b1 c.sid c.f h)) ∧
      (c.acts h ≠ [] → m = 0 → exec (.sleep h a) s = .next (advance { b1 with cores := yieldMark b1.cores c } c.sid c.f h)) ∧
      (c.acts h ≠ [] → m ≠ 0 →
        exec (.sleep h a) s = .next (b1.updFrag c.sid c.f fun fr =>
          { fr with st := .blocked, wait := .sleep m, evt := w64n m, gap := max h.stall.toNat 1 })))

/-- O16. ERET and IRET in their handler, with no mark pending (R83, R164): they end the region, restore the save area's
registers, clear their bit of %hstate, and resume: ERET at %epc, or at the word after it for the causes that skip their
instruction; IRET at %uepc. Outside a handler of their kind they raise RETURN_STATE, a supervisor cause (R164). -/
def Obligations.HandlerReturns : Prop :=
  (∀ (h : Hdr) (s : State) (st : Strand) (c : Ctx) (j : Job) (pc : VAddr) (s1 : State) (st1 : Strand) (ps : List Piece),
    Issues h (uses [] []) s st c → s.job? st = some j → c.st.anyTracked = false → j.pcOk pc.toNat = true →
    endRegion (issued h (uses [] []) s st c) c.sid c.f pc none = (s1, true) → nmGet s1.strands c.sid = some st1 →
    areaPieces s1 c.st false = some ps →
    (c.st.sp.hstate.getLsbD 0 = true → c.st.sp.hfrag = some c.f →
      pc = (if c.st.sp.hcause ∈ [0x04#8, 0x07#8, 0x20#8, 0x43#8, 0x45#8, 0x61#8, 0x62#8, 0x65#8, 0x84#8] then c.st.sp.epc else c.st.sp.epc + 12#57) →
      exec (.eret h) s = .next (returned h s1 st1 c ps pc fun sp => { sp with hstate := sp.hstate &&& 2#2, hfrag := none })) ∧
    (c.st.sp.hstate.getLsbD 1 = true → c.st.sp.ufrag = some c.f → pc = c.st.sp.uepc →
      exec (.iret h) s = .next (returned h s1 st1 c ps pc fun sp => { sp with hstate := sp.hstate &&& 1#2, ufrag := none }))) ∧
  (∀ (h : Hdr) (s : State) (st : Strand) (c : Ctx), Issues h (uses [] []) s st c →
    (c.st.sp.hstate.getLsbD 0 = false ∨ c.st.sp.hfrag ≠ some c.f →
      exec (.eret h) s = .next (endJobAt (issued h (uses [] []) s st c) c.sid c.f 0x08#8 [])) ∧
    (c.st.sp.hstate.getLsbD 1 = false ∨ c.st.sp.ufrag ≠ some c.f →
      exec (.iret h) s = .next (endJobAt (issued h (uses [] []) s st c) c.sid c.f 0x08#8 [])))

/-- O17. Special registers (R76, R77, R165, R166): SRD gives each acting thread its value; SWR writes the leader's value and
moves on. A write keeps the register's width, clears the bits written as 1 of %mflag and %fflag, and leaves a read-only
register and every other special register as it was. -/
def Obligations.SpecialRegisters : Prop :=
  (∀ (h : Hdr) (r : SReg) (b64 : Bool) (d a : Opnd) (s : State) (st : Strand) (c : Ctx),
    (Issues h (uses (refsOf d b64) []) s st c →
      exec (.srd h b64 d (.s r)) s = .next (laneState h (uses (refsOf d b64) []) 2 s st c
        (each c h d (if b64 then .b64 else .b32) fun t =>
          let x := sregVal (issued h (uses (refsOf d b64) []) s st c) c r (match d with | .k _ => c.leader.getD 0 | _ => t)
          if b64 then x else x % 2 ^ 32))) ∧
    (Issues h (uses [] (refsOf a b64)) s st c → c.acts h ≠ [] →
      exec (.swr h b64 (.s r) a) s = .next (advance ((issued h (uses [] (refsOf a b64)) s st c).updStrand c.sid fun x =>
        { x with sp := x.sp.write r (c.st.r.src (if b64 then .b64 else .b32) (c.leader.getD 0) a) }) c.sid c.f h))) ∧
  (∀ (sp : Spec) (x : Nat),
    sp.write .fflag x = { sp with fflag := sp.fflag &&& ~~~(BitVec.ofNat 5 x) } ∧
    sp.write .mflag x = { sp with mflag := sp.mflag &&& ~~~(BitVec.ofNat 1 x) } ∧
    sp.write .ctl x = { sp with ctl := BitVec.ofNat 4 x } ∧ sp.write .mrow x = { sp with mrow := BitVec.ofNat 7 x } ∧
    sp.write .evec x = { sp with evec := BitVec.ofNat 57 x } ∧ sp.write .uvec x = { sp with uvec := BitVec.ofNat 57 x } ∧
    sp.write .uepc x = { sp with uepc := BitVec.ofNat 57 x } ∧ sp.write .epc x = { sp with epc := BitVec.ofNat 57 x } ∧
    sp.write .ecause x = { sp with ecause := BitVec.ofNat 8 x } ∧ sp.write .eopc x = { sp with eopc := BitVec.ofNat 10 x } ∧
    sp.write .emod x = { sp with emod := BitVec.ofNat 11 x } ∧ sp.write .efd x = { sp with efd := BitVec.ofNat 21 x } ∧
    sp.write .efa x = { sp with efa := BitVec.ofNat 21 x } ∧ sp.write .efb x = { sp with efb := BitVec.ofNat 21 x } ∧
    sp.write .egrd x = { sp with egrd := BitVec.ofNat 12 x } ∧
    (∀ r ∈ [SReg.tid, .sidx, .bsize, .bidx, .bidy, .bidz, .lane, .core, .module, .slot, .job, .mask, .dmask, .fmask, .xmask, .valloc,
            .kalloc, .malloc, .aalloc, .cycle, .tsave, .hstate], sp.write r x = sp))

/-- O18. Scratchpad loads, stores and atomics (R229, R230, R235 to R237, R349): LDS reads each thread's bytes in its issue
step and lands them later; STS writes the threads' bytes in ascending order; each ATS updates thread by thread. -/
def Obligations.ScratchpadAccesses : Prop :=
  ∀ (h : Hdr) (ty : Ty) (sc : Scope) (kd : Kind) (d a b : Opnd),
    let w := tyBytes ty
    (∀ s st c, let u := usesT (refsOf d (ty.width = 64)) (refsOf a false ++ refsOf b false)
      let ts := (c.memActs h [d, a, b]).map fun t => (t, c.scrAddr a b t)
      Issues h u s st c → c.st.acquiring = false → ts ≠ [] → scrGood s c w ts →
      exec (.lds h ty sc kd d a b) s = .next (trackState h u s st c
        { ws := ts.flatMap fun x => dstW d ty x.1 (ldVal ty (leVal (readScr s c.st.batch x.2 w))), fl := flNone, mfl := false })) ∧
    (∀ s st c, let u := uses [] (refsOf d (ty.width = 64) ++ refsOf a false ++ refsOf b false)
      let ts := (c.memActs h [d, a, b]).map fun t => (t, c.scrAddr a b t)
      Issues h u s st c → c.st.acquiring = false → kd ≠ .rel → ts ≠ [] → scrGood s c w ts →
      exec (.sts h ty sc kd d a b) s =
        .next (advance (xbWake (writeScr (issued h u s st c) c.st.batch (ts.flatMap fun x => atOff x.2 (leBytes w (c.st.r.src ty x.1 d)))) c.st.batch) c.sid c.f h)) ∧
    (∀ s st c s2, let u := uses [] (refsOf d (ty.width = 64) ++ refsOf a false ++ refsOf b false)
      let ts := (c.memActs h [d, a, b]).map fun t => (t, c.scrAddr a b t)
      Issues h u s st c → c.st.acquiring = false → kd = .rel → ts ≠ [] → scrGood s c w ts →
      endRegion (issued h u s st c) c.sid c.f (c.fr.pc + 12#57) none = (s2, true) →
      exec (.sts h ty sc kd d a b) s =
        .next (advance (xbWake (writeScr (s2.acts c.sid) c.st.batch (ts.flatMap fun x => atOff x.2 (leBytes w (c.st.r.src ty x.1 d)))) c.st.batch) c.sid c.f h)) ∧
    AtsDoes 0 (.atsAdd h ty sc kd d a b) h ty d a b ∧ AtsDoes 1 (.atsMin h ty sc kd d a b) h ty d a b ∧
    AtsDoes 2 (.atsMax h ty sc kd d a b) h ty d a b ∧ AtsDoes 3 (.atsAnd h ty sc kd d a b) h ty d a b ∧
    AtsDoes 4 (.atsOr h ty sc kd d a b) h ty d a b ∧ AtsDoes 5 (.atsXor h ty sc kd d a b) h ty d a b ∧
    AtsDoes 6 (.atsExch h ty sc kd d a b) h ty d a b ∧ AtsDoes 7 (.atsCas h ty sc kd d a b) h ty d a b

/-- O19. The arithmetic of an atomic (R58, R236): the new value of each operation; a compare-and-swap leaves the old value
where it does not compare; equal operands keep the old encoding. -/
def Obligations.AtomicNewValues : Prop :=
  ∀ (ty : Ty) (old b c : Nat), ty.isInt = true → 0 < ty.width → old < 2 ^ ty.width →
    let m := 2 ^ ty.width
    atomNew 0 ty old b c = ((old + b) % m, flNone) ∧
    (atomNew 1 ty old b c).1 = (if intRead ty b < intRead ty old then b % m else old) ∧
    (atomNew 2 ty old b c).1 = (if intRead ty old < intRead ty b then b % m else old) ∧
    atomNew 3 ty old b c = (old &&& b % m, flNone) ∧ atomNew 4 ty old b c = (old ||| b % m, flNone) ∧
    atomNew 5 ty old b c = (old ^^^ b % m, flNone) ∧ atomNew 6 ty old b c = (b % m, flNone) ∧
    atomNew 7 ty old b c = (if old = b % m then c % m else old, flNone) ∧
    (atomNew 1 ty old b c).1 < m ∧ (atomNew 2 ty old b c).1 < m

/-- O20. Global loads and atomics at issue (R229, R235, R333, R340, R342, R355): LD, after the region end where a page is
STRONG, puts the access in flight with its pages' addresses, and waits for no acquire in flight where its pages are
UNORDERED; ATG ends the region and puts its update in flight. That each element is performed later, and checked there on a
DETERM page, is the model's reading (log 11, log 17). -/
def Obligations.GlobalLoadsAndAtomicsStart : Prop :=
  ∀ (h : Hdr) (ty : Ty) (sc : Scope) (kd : Kind) (d a b : Opnd),
    let w := tyBytes ty
    (∀ s st c s1 ps s2, let u := usesT (refsOf d (ty.width = 64)) (refsOf a true ++ refsOf b false)
      Issues h u s st c → Reaches (issued h u s st c) c false w (elems c h [d, a, b] w (c.gblAddr a b)) s1 ps →
      (c.st.acquiring = true → ∀ p ∈ ps, p.p.ord = 2) → sigPending s1 c.sid (ps.flatMap fun p => p.p.keys) = false →
      ottUsed s1 c.st.core < 256 → c.st.misplaced (ps.map (·.p)) = false →
      (if onOrd 0 ps then c.st.strongBusy = false ∧ ∃ x, endRegion s1 c.sid c.f (c.fr.pc + 12#57) none = (x, true) ∧ s2 = x.acts c.sid else s2 = s1) →
      let accs := flights ty ps fun _ => (0#64, 0#64)
      let acq : Option Scope := if kd = .acq then some sc else none
      exec (.ld h ty sc kd d a b) s = .next (advance (s2.updStrand c.sid fun x => x.track c.f true u.writes [] flNone false
          (.load d h.uni acq ((accs.flatMap (·.ps)).all fun p => p.ord == 2) accs)) c.sid c.f h)) ∧
    AtgStarts 0 (.atgAdd h ty sc kd d a b) h ty sc kd d a b ∧ AtgStarts 1 (.atgMin h ty sc kd d a b) h ty sc kd d a b ∧
    AtgStarts 2 (.atgMax h ty sc kd d a b) h ty sc kd d a b ∧ AtgStarts 3 (.atgAnd h ty sc kd d a b) h ty sc kd d a b ∧
    AtgStarts 4 (.atgOr h ty sc kd d a b) h ty sc kd d a b ∧ AtgStarts 5 (.atgXor h ty sc kd d a b) h ty sc kd d a b ∧
    AtgStarts 6 (.atgExch h ty sc kd d a b) h ty sc kd d a b ∧ AtgStarts 7 (.atgCas h ty sc kd d a b) h ty sc kd d a b

/-- O21. Global stores at issue (R229, R230, R320, R333, R337, R342): the bytes of a plain ST enter, thread by thread, the
region store buffer, where memory is not written; on STRONG pages the region ends, and a release store, its region ended,
makes the waits of a release: either is then on its way past the buffer, to be performed element by element (log 11, log
17). -/
def Obligations.GlobalStoresStart : Prop :=
  ∀ (h : Hdr) (ty : Ty) (sc : Scope) (kd : Kind) (d a b : Opnd) (s : State) (st : Strand) (c : Ctx) (s1 : State) (ps : List Place) (s2 s3 : State),
    let w := tyBytes ty
    let u := uses [] (refsOf d (ty.width = 64) ++ refsOf a true ++ refsOf b false)
    let reqs := ps.map fun p => ({ t := p.t, p := p.p, bs := leBytes w (c.st.r.src ty p.t d) } : StoreReq)
    let fin := fun (x : State) => advance (x.updStrand c.sid fun y => { y with sp := y.sp.addFlags flNone false }) c.sid c.f h
    Issues h u s st c → Reaches (issued h u s st c) c true w (elems c h [d, a, b] w (c.gblAddr a b)) s1 ps →
    c.st.acquiring = false → (∀ p ∈ ps, c.st.overlaps p.t p.p.keys = false) → sigPending s1 c.sid (ps.flatMap fun p => p.p.keys) = false →
    (onOrd 0 ps = true → c.st.strongBusy = false ∧ ottUsed s1 c.st.core < 256) → c.st.misplaced (ps.map (·.p)) = false →
    (kd ≠ .rel → onOrd 0 ps = false → c.st.rsb.length + c.st.needs reqs ≤ 64 → rsbUsed s1 c.st.core + c.st.needs reqs ≤ 16384 →
      exec (.st h ty sc kd d a b) s = .next (fin (bufferAll s1 c.sid reqs))) ∧
    (kd ≠ .rel → (∀ p ∈ ps, p.p.ord = 0) → endRegion s1 c.sid c.f c.fr.pc none = (s2, true) →
      exec (.st h ty sc kd d a b) s = .next (fin (setRgn (flyStores s2 c reqs) c.sid c.f (c.fr.pc + 12#57)))) ∧
    (kd = .rel → endRegion s1 c.sid c.f c.fr.pc none = (s2, true) →
      (if ps.all fun p => p.p.ord == 2 then (s2, true) else release s2 c.sid c.f sc true) = (s3, true) →
      exec (.st h ty sc kd d a b) s = .next (fin (setRgn (flyStores s3 c reqs) c.sid c.f (c.fr.pc + 12#57))))

/-- O22. Accesses that trap before anything is loaded or stored. A misaligned address of LD, ST and ATG raises MISALIGN
before its translation (R227, R237, R306, R459). LDB and STB, once the page of P is found, raise FORMAT_MISMATCH for a type
that the page's format does not take, for a record that the page does not have and for an odd D of an encoding STB, and then
MISALIGN for a P or a PLAIN element that is not aligned (R232 to R234). A queue belongs to the batch that used it first
(R223): another batch's QPUT or QGET raises QUEUE_OWNER. -/
def Obligations.MisalignedAndForeignAccessesTrap : Prop :=
  ∀ (h : Hdr) (ty : Ty) (sc : Scope) (kd : Kind) (d a b : Opnd) (s : State) (st : Strand) (c : Ctx),
    let w := tyBytes ty
    let wide : Bool := ty.width = 64
    let traps := fun (i : Instr) (u : Uses) (cause : BitVec 8) => exec i s = .next (raiseUser (issued h u s st c) c.sid c.f cause none)
    ((∃ t ∈ c.memActs h [d, a, b], c.gblAddr a b t % w ≠ 0) →
      (let u := usesT (refsOf d wide) (refsOf a true ++ refsOf b false)
       Issues h u s st c → traps (.ld h ty sc kd d a b) u 0x41#8) ∧
      (let u := uses [] (refsOf d wide ++ refsOf a true ++ refsOf b false)
       Issues h u s st c → traps (.st h ty sc kd d a b) u 0x41#8)) ∧
    (let u := usesT (refsOf d wide) (refsOf a true ++ refsOf b wide)
     Issues h u s st c → (∃ t ∈ c.memActs h [d, a, b], c.gblAddr a .none t % w ≠ 0) →
     ∀ i ∈ [Instr.atgAdd h ty sc kd d a b, .atgMin h ty sc kd d a b, .atgMax h ty sc kd d a b, .atgAnd h ty sc kd d a b, .atgOr h ty sc kd d a b,
       .atgXor h ty sc kd d a b, .atgExch h ty sc kd d a b, .atgCas h ty sc kd d a b], traps i u 0x41#8) ∧
    (∀ s0 p0, let va := c.offset a 0
     let e := fun t => c.offset b t % 2 ^ 32
     let fmt := p0.e.fmt
     let off := ∃ t ∈ c.memActs h [d], (va + e t * w) % 2 ^ 64 % w ≠ 0
     let here := fun (i : Instr) (cause : BitVec 8) => exec i s = .next (raiseUser s0 c.sid c.f cause none)
     c.memActs h [d] ≠ [] →
     (let u := usesT (refsOf d wide) (refsOf a false ++ refsOf b false)
      let record := fun t => if ty = .b32 then e (c.leader.getD 0) else e t / 64
      let none' := qFmt fmt = true ∧ ∃ t ∈ c.memActs h [d], qRecords (qOf fmt) ≤ record t
      Issues h u s st c → PageOf (issued h u s st c) c false a s0 p0 →
      (ldbPair fmt ty = false ∨ none' → here (.ldb h ty d a b) 0x42#8) ∧
      (ldbPair fmt ty = true → ¬none' → va % fmtAlign fmt ≠ 0 → here (.ldb h ty d a b) 0x41#8) ∧
      (fmt = 0 → off → here (.ldb h ty d a b) 0x41#8)) ∧
     (let u := uses [] (refsOf d wide ++ refsOf a false ++ refsOf b false)
      let odd := match d with | .v n => n.toNat % 2 = 1 | _ => True
      let coded := ty = .f32 ∨ ty = .f16 ∨ ty = .g16 ∨ ty = .g8
      Issues h u s st c → PageOf (issued h u s st c) c true a s0 p0 →
      (fmt = 0 → off → here (.stb h ty d a b) 0x41#8) ∧
      (fmt = 6 → ty = .m64 → va % 4 ≠ 0 → here (.stb h ty d a b) 0x41#8) ∧
      (fmt ≠ 0 → ¬(fmt = 6 ∧ ty = .m64) → ¬(qFmt fmt = true ∧ (ty = .b32 ∨ coded)) → here (.stb h ty d a b) 0x42#8) ∧
      (qFmt fmt = true → coded → odd → here (.stb h ty d a b) 0x42#8) ∧
      (qFmt fmt = true → ty = .b32 → qRecords (qOf fmt) ≤ e (c.leader.getD 0) → here (.stb h ty d a b) 0x42#8) ∧
      (qFmt fmt = true → ty = .b32 → e (c.leader.getD 0) < qRecords (qOf fmt) → va % 2 ^ 21 ≠ 0 → here (.stb h ty d a b) 0x41#8))) ∧
    (∀ x, c.acts h ≠ [] → (s.hwq c.st.core (c.st.r.uni64 a % 64)).batch = some x → x ≠ c.st.batch →
      (let u := uses [] (refsOf a false ++ refsOf b false)
       Issues h u s st c → traps (.qput h a b) u 0x64#8) ∧
      (let u := usesT (refsOf d false) (refsOf a false)
       Issues h u s st c → traps (.qget h d a) u 0x64#8))

/-- O23. LDB and STB by the format of the page (R107 to R111, R114, R230 to R233), on pages of every order: LDB puts in
flight a load of each thread's element of a PLAIN, Q, M32 or sparse page, or of its bytes of a Q record; STB stores each
thread's element on a PLAIN or M32 page and the leader's record, given or encoded, on a Q page. -/
def Obligations.FormattedAccessesByPageFormat : Prop :=
  ∀ (h : Hdr) (ty : Ty) (d a b : Opnd) (s : State) (st : Strand) (c : Ctx) (s1 : State),
    let u := usesT (refsOf d (ty.width = 64)) (refsOf a false ++ refsOf b false)
    let us := uses [] (refsOf d (ty.width = 64) ++ refsOf a false ++ refsOf b false)
    (∀ accs, Issues h u s st c → LdbReads h ty d a b (issued h u s st c) c s1 accs → LoadStarts (exec (.ldb h ty d a b) s) h c s1 d u.writes accs) ∧
    (∀ fl mfl reqs, Issues h us s st c → StbWrites h ty d a b (issued h us s st c) c s1 fl mfl reqs →
      StoreStarts (exec (.stb h ty d a b) s) h c s1 fl mfl reqs)

/-- O24. RGN, FENCE and DREL where nothing holds them back (R239, R240, R321, R323, R337 to R339). RGN of a strand whose
buffered entries are sound commits them, and its region starts at the next word. FENCE of every scope and kind, with nothing
of the strand or its core on its way, ends the region and is over; .acq and .full then empty the read line buffer at the
scopes wider than the core. DREL, of a member of the team, does the same as FENCE.module.rel and gives up the team's
ownership of the DETERM pages of its range; of an empty range it gives up none. Where the strand has more to do, RGN and
FENCE follow what the region end has validated: a fence whose waits are not over issues again. Without an acting thread each
only moves on. -/
def Obligations.FencesAndRegions : Prop :=
  ∀ (h : Hdr) (sc : Scope) (kd : Kind) (d a b : Opnd) (s : State) (st : Strand) (c : Ctx),
    let u := uses [] (refsOf d false ++ refsOf a false ++ refsOf b false)
    let done := fun (x : State) => advance (setRgn x c.sid c.f (c.fr.pc + 12#57)) c.sid c.f h
    (Issues h (uses [] []) s st c → c.acts h = [] →
      exec (.rgn h) s = .next (advance (issued h (uses [] []) s st c) c.sid c.f h) ∧
      exec (.fence h sc kd) s = .next (advance (issued h (uses [] []) s st c) c.sid c.f h)) ∧
    (Issues h u s st c → c.acts h = [] → exec (.drel h d a b) s = .next (advance (issued h u s st c) c.sid c.f h)) ∧
    (Issues h (uses [] []) s st c → c.acts h ≠ [] → Sound c.st →
      exec (.rgn h) s = .next (advance (committed (issued h (uses [] []) s st c) c.sid c.f (c.fr.pc + 12#57)) c.sid c.f h)) ∧
    (Issues h (uses [] []) s st c → c.acts h ≠ [] → Sound c.st → kd = .plain →
      exec (.fence h sc kd) s = .next (done (committed (issued h (uses [] []) s st c) c.sid c.f c.fr.pc))) ∧
    (Issues h (uses [] []) s st c → c.acts h ≠ [] → Still s c.st →
      let x := committed (issued h (uses [] []) s st c) c.sid c.f c.fr.pc
      let y := if kd = .rel ∨ kd = .full then x.acts c.sid else x
      exec (.fence h sc kd) s = .next (done (if kd = .acq ∨ kd = .full then dropRlb y c.st.core sc else y))) ∧
    (∀ k, Issues h u s st c → c.acts h ≠ [] → Still s c.st →
      teamKey (issued h u s st c) c.st.job c.st.batch (c.st.r.uni64 d % 65536) = some k → c.st.teams.any (·.1 == k) = true →
      let x := (committed (issued h u s st c) c.sid c.f c.fr.pc).acts c.sid
      exec (.drel h d a b) s = .next (done (if c.st.r.uni64 b = 0 then x
        else dropOwner x (x.asid c.st) k (c.st.r.uni64 a) (c.st.r.uni64 a + c.st.r.uni64 b)))) ∧
    (∀ s1 s2 ok, let b := issued h (uses [] []) s st c
      Issues h (uses [] []) s st c → c.acts h ≠ [] →
      (endRegion b c.sid c.f (c.fr.pc + 12#57) none = (s1, ok) → exec (.rgn h) s = .next (if ok then advance s1 c.sid c.f h else s1)) ∧
      (endRegion b c.sid c.f c.fr.pc none = (s1, false) → exec (.fence h sc kd) s = .next s1) ∧
      (endRegion b c.sid c.f c.fr.pc none = (s1, true) →
        (kd = .plain → exec (.fence h sc kd) s = .next (done s1)) ∧
        (kd = .rel → release s1 c.sid c.f sc false = (s2, ok) → exec (.fence h sc kd) s = .next (if ok then done s2 else s2)) ∧
        (kd = .acq → exec (.fence h sc kd) s = .next (if ((nmGet s1.strands c.sid).map Strand.loading).getD false then stay s1 c.sid c.f
          else done (dropRlb s1 c.st.core sc)))))

/-- O25. Prefetches and the translation instructions (R238, R311, R312, R314, R315): PFT changes no byte of memory or
scratchpad, no register, no buffered store and no write on its way before it moves on; TLBP commits the region, translates
the pages of its range, and locks them beside what the core holds already, while 16 records and 64 entries suffice; of an
empty range it locks nothing; TLBU drops the batch's record of its base; XPRB's result comes from the core's entries, the
die's, or a walk; TINV, of a supervisor job, starts an invalidation. -/
def Obligations.TranslationInstructions : Prop :=
  ∀ (h : Hdr) (sc : Scope) (d a b : Opnd) (s : State) (st : Strand) (c : Ctx) (s2 : State) (es : List Tlb),
    (let u := uses [] (refsOf a true ++ refsOf b false)
     let x := (c.memActs h [a, b]).foldl (fun s t => prefetch s c (sc == .core) t (c.gblAddr a b t)) (issued h u s st c)
     Issues h u s st c → exec (.pft h sc a b) s = .next (advance x c.sid c.f h) ∧
       x.mem = s.mem ∧ x.strands = (issued h u s st c).strands ∧ x.batches = s.batches ∧
       (∀ n, (x.die n).p = (s.die n).p) ∧ ∀ n, (x.core n).wcb = (s.core n).wcb) ∧
    (let u := uses [] (refsOf a false ++ refsOf b false)
     let x := committed (issued h u s st c) c.sid c.f c.fr.pc
     let base := c.st.r.uni64 a
     let len := c.st.r.uni64 b
     let old := (s2.core c.st.core).unlock c.st.batch base
     let new := es.filter fun e => !old.locked.contains e
     let done := fun (x : State) => advance (setRgn x c.sid c.f (c.fr.pc + 12#57)) c.sid c.f h
     Issues h u s st c →
     (c.acts h = [] → exec (.tlbp h a b) s = .next (advance (issued h u s st c) c.sid c.f h)) ∧
     (c.acts h ≠ [] → Sound c.st → len = 0 → exec (.tlbp h a b) s = .next (done x)) ∧
     (c.acts h ≠ [] → Sound c.st → len ≠ 0 → pagesGo x c.st.core (x.asid c.st) (base + len) (len / 4096 + 2) base = .inl (s2, es) →
       old.locks.length < 16 → old.locked.length + new.length ≤ 64 →
       exec (.tlbp h a b) s = .next (done (s2.setCore c.st.core
         { old with locks := old.locks ++ [{ base := base, len := len, asid := x.asid c.st, batch := c.st.batch }],
                    locked := old.locked ++ new })))) ∧
    (let u := uses [] (refsOf a false)
     Issues h u s st c → c.acts h ≠ [] →
     exec (.tlbu h a) s = .next (advance ((issued h u s st c).updCore c.st.core fun x =>
       let rest := x.locks.filter fun r => !(r.batch == c.st.batch && r.base == c.st.r.uni64 a)
       { x with locks := rest, locked := x.locked.filter fun e => rest.any (·.covers e) }) c.sid c.f h)) ∧
    (let u := usesT (refsOf d false) (refsOf a false)
     Issues h u s st c → c.acts h ≠ [] →
     exec (.xprb h d a) s = .next (trackState h u s st c
       { ws := dstW d .b64 0 (xprb s c.st.core (s.asid c.st) (c.st.r.uni64 a)), fl := flNone, mfl := false })) ∧
    (let u := { uses [] (refsOf d false ++ refsOf a false ++ refsOf b false) with priv := true }
     Issues h u s st c → c.acts h ≠ [] →
     exec (.tinv h d a b) s = .next (advance (startTinv (issued h u s st c) (some c.sid) (c.st.r.uni64 d % 65536)
       (bitAt (c.st.r.uni64 d) 16) (c.st.r.uni64 a) (c.st.r.uni64 b)) c.sid c.f h))

/-- O26. TINV in a user job raises PRIV_OPC and ends the job: no invalidation starts (R59, R315, R456). -/
def Obligations.TinvIsPrivileged : Prop :=
  ∀ (h : Hdr) (d a b : Opnd) (s : State) (sid f : Nat) (st : Strand) (fr : Frag) (j : Job),
    s.cur = some (sid, f) → nmGet s.strands sid = some st → nmGet st.frags f = some fr → s.job? st = some j → j.user = true →
    (h.wsb && st.marked (refsOf d false ++ refsOf a false ++ refsOf b false ++ guardRefs h)) = false →
    exec (.tinv h d a b) s = .next (endJobAt { s with cur := none } sid f 0x05#8 [])

/-- O27. Register allocation (R201, R242, R243): GROW to a count that the class has already succeeds, and a new count takes
effect at once where no request waits and the blocks are free; SHRK with no mark on the freed registers lowers the count,
never below the launch's; each moves on without an acting thread. -/
def Obligations.GrowAndShrink : Prop :=
  ∀ (h : Hdr) (wt : Bool) (cl : GClass) (d a : Opnd),
    let u := usesT (refsOf d false) (refsOf a false)
    let us := uses [] (refsOf a false)
    idle h u (.grow h wt cl d a) ∧ idle h us (.shrk h cl a) ∧
    (∀ s st c, Issues h u s st c → c.acts h ≠ [] →
      let n := roundUp (c.st.r.uni32 a) (granule cl)
      let told := fun (b : State) (x : Bool) => advance (b.updStrand c.sid fun y =>
        y.track c.f true u.writes (((maskThreads c.fr.mask).filter y.sp.live).flatMap fun t => dstW d .b32 t x.toNat) flNone false .none) c.sid c.f h
      (n ≤ c.st.r.alloc cl → exec (.grow h wt cl d a) s = .next (told (issued h u s st c) true)) ∧
      (c.st.r.alloc cl < n → classMax cl < n → exec (.grow h wt cl d a) s = .next (told (issued h u s st c) false)) ∧
      (c.st.r.alloc cl < n → n ≤ classMax cl → wt = false → growQueue (issued h u s st c) c.st.core = [] →
        growFits (issued h u s st c) c.st cl n = true →
        exec (.grow h wt cl d a) s = .next (told ((issued h u s st c).updStrand c.sid fun y => { y with r := y.r.setAlloc cl n }) true))) ∧
    (∀ s st c, Issues h us s st c → c.acts h ≠ [] → c.st.pend = [] →
      let n := max (roundUp (c.st.r.uni32 a) (granule cl)) (c.st.floor c.f cl)
      n < c.st.r.alloc cl →
      exec (.shrk h cl a) s = .next (advance ((issued h us s st c).updStrand c.sid fun y =>
        let z := y.landIf fun p => !p.tracked && p.marks.any fun r => r.c == classOf cl && decide (n ≤ r.n) && !(cl == .k && decide (56 ≤ r.n))
        { z with r := z.r.setAlloc cl n }) c.sid c.f h))

/-- O28. Teams and barriers (R228, R244 to R247): TJOIN, not refused, makes the strand the member of its rank and gives D
the number of members; TLEAVE of a member vacates its rank; TBAR ends the region, holds its DETERM entries, and blocks the
fragment for the team's current phase, which counts the strand once its fragments cover its live threads; an LSYN alone at
its rendezvous is released at once, with KIND .full after the region end and once its buffer has drained; each only moves on
without an acting thread. -/
def Obligations.TeamsAndBarriers : Prop :=
  ∀ (h : Hdr) (sc : Scope) (kd : Kind) (d a b : Opnd),
    let uj := usesT (refsOf d false) (refsOf a false ++ refsOf b false)
    let ua := uses [] (refsOf a false)
    idle h uj (.tjoin h d a b) ∧ idle h ua (.tleave h a) ∧ idle h ua (.tbar h sc kd a) ∧
    (∀ s st c, Issues h uj s st c → c.acts h ≠ [] →
      let num := c.st.r.uni64 a % 65536
      let rank := c.st.r.uni64 a / 2 ^ 32 % 65536
      let size := c.st.r.uni64 b % 65536
      let r := tjoin (issued h uj s st c) c.sid c.st num rank size
      tjoinCause (issued h uj s st c) c.st num rank size = none →
      exec (.tjoin h d a b) s = .next (advance (r.1.updStrand c.sid fun y =>
        y.track c.f true uj.writes (dstW d .b64 0 (r.2 % 65536)) flNone false .none) c.sid c.f h)) ∧
    (∀ s st c k rank, Issues h ua s st c → c.acts h ≠ [] → c.member (issued h ua s st c) a = some (k, rank) →
      exec (.tleave h a) s = .next (advance (tleave (issued h ua s st c) c.sid k rank) c.sid c.f h) ∧
      (∀ s1 t, nmGet s.teams k = some t →
        endRegion (issued h ua s st c) c.sid c.f c.fr.pc (some (k, t.phase, rank)) = (s1, true) →
        exec (.tbar h sc kd a) s = .next (tbarTry (s1.updFrag c.sid c.f fun fr =>
          { fr with st := .blocked, wait := .tbar k t.phase sc (kd == .full), gap := max h.stall.toNat 1, rel := none,
                    evt := w64n (c.st.r.uni64 a % 65536 + t.phase % 65536 * 65536) }) c.sid))) ∧
    idle h (uses [] (refsOf b false)) (.lsyn h sc kd b) ∧
    (kd ≠ .full → ∀ s st c j, c.acts h ≠ [] → Alone (.lsyn h sc kd b) h (uses [] (refsOf b false)) s st c j (BitVec.ofNat 32 (c.st.r.uni64 b)) →
      exec (.lsyn h sc kd b) s = .next (rdvRelease ((gathered h (uses [] (refsOf b false)) s st c).updStrand c.sid fun x =>
        x.result c.f c.win 1 [] [] flNone false) c.sid 1 c.f)) ∧
    (kd = .full → ∀ s st c j s2, c.acts h ≠ [] → Alone (.lsyn h sc kd b) h (uses [] (refsOf b false)) s st c j (BitVec.ofNat 32 (c.st.r.uni64 b)) →
      endRegion ((gathered h (uses [] (refsOf b false)) s st c).updStrand c.sid fun x => x.result c.f c.win 1 [] [] flNone false)
        c.sid c.f (c.fr.pc + 12#57) none = (s2, true) →
      let s3 := (s2.acts c.sid).updFrag c.sid c.f fun fr => { fr with rgn := fr.pc + 12#57 }
      exec (.lsyn h sc kd b) s = .next (if ((nmGet s3.strands c.sid).map Strand.drained).getD true then rdvRelease s3 c.sid 1 c.f
        else s3.updFrag c.sid c.f fun fr => { fr with wait := .drain }))

/-- O29. Transaction barriers (R218, R219, R248, R249), at a record of the batch: XBI sets count and reload and clears the
rest; XBA takes one arrival off and XBE adds to the expected 32-byte sectors, each followed by the advance; XBW goes on
where the phase differs and blocks where it does not; XBT tells whether it differs. -/
def Obligations.TransactionBarriers : Prop :=
  ∀ (h : Hdr) (d a b : Opnd) (s : State) (st : Strand) (c : Ctx),
    let ua := uses [] (refsOf a false)
    let uab := uses [] (refsOf a false ++ refsOf b false)
    let ut := usesT (refsOf d false) (refsOf a false ++ refsOf b false)
    let r := c.st.r.uni32 a
    let p := c.st.r.uni32 b % 16
    let n := c.st.r.uni32 b % 2 ^ 20
    c.acts h ≠ [] → xbOk s c.st.batch r = true →
    (Issues h uab s st c →
      exec (.xbi h a b) s = .next (advance (storeScr (issued h uab s st c) c.st.batch (atOff r (leBytes 16 (n * 2 ^ 4 + n * 2 ^ 64)))) c.sid c.f h) ∧
      exec (.xbe h a b) s = .next (advance (xbUpdate (issued h uab s st c) c.st.batch r fun x =>
        { x with exp := (x.exp + c.st.r.uni64 b) % 2 ^ 40 }) c.sid c.f h) ∧
      ((readXb s c.st.batch r).phase ≠ p →
        exec (.xbw h a b) s = .next (dropRlb (advance (issued h uab s st c) c.sid c.f h) c.st.core .module)) ∧
      ((readXb s c.st.batch r).phase = p →
        exec (.xbw h a b) s = .next ((issued h uab s st c).updFrag c.sid c.f fun fr =>
          { fr with st := .blocked, wait := .xbw r p, evt := w64n (r + p * 2 ^ 32), gap := max h.stall.toNat 1 }))) ∧
    (Issues h ua s st c →
      exec (.xba h a) s = .next (advance (xbUpdate (issued h ua s st c) c.st.batch r fun x =>
        { x with arr := (x.arr + (2 ^ 20 - 1)) % 2 ^ 20 }) c.sid c.f h)) ∧
    (Issues h ut s st c →
      let differs := decide ((readXb s c.st.batch r).phase ≠ p)
      let b0 := if differs then dropRlb (issued h ut s st c) c.st.core .module else issued h ut s st c
      exec (.xbt h d a b) s = .next (advance (b0.updStrand c.sid fun y => y.track c.f true ut.writes
        (((maskThreads c.fr.mask).filter y.sp.live).flatMap fun t => dstW d .b32 t differs.toNat) flNone false .none) c.sid c.f h))

/-- O30. The lanes of a core (R43, R45, R204, R206, R69, R80, R167, R169). ISSUE_SELECT issues the fragment that the lane of
the turn picks, and that lane has had its choice; after lane 15 the next core's lanes choose, and a core whose 16 lanes have
chosen ends its window; what is due at once comes first. The head of a lane's queue enters a free slot of the active set, or
that of an idle strand, the idle ones being pooled; after 64 windows with a full set the earliest entrant goes to the
queue's tail; a TRAPWAIT fragment is issued again when the save area is free, as its lane's choice; a sleep that has run
down ends. The order of the lanes of one window is the model's choice (log 1, log 46). -/
def Obligations.LaneStepsTakeEffect : Prop :=
  ∀ (s : State) (c lane sid f : Nat) (x : Cand) (rest : List Nat) (st : Strand) (fr : Frag),
    let turn := (s.core c).laneTurn
    let passed := fun (y : State) => y.updCore c fun z => { z with laneTurn := turn + 1 }
    (windowHeld s c = true → exec (.issueSelect c) s = .next s) ∧
    (c < coreCount → windowHeld s c = false → 16 ≤ turn → exec (.issueSelect c) s = .next (tickWindow s c)) ∧
    (c < coreCount → windowHeld s c = false → turn < 15 →
      (lanePick s c turn = some x → exec (.issueSelect c) s = .next (passed { s with cur := some (x.sid, x.f) })) ∧
      (lanePick s c turn = none → exec (.issueSelect c) s = .next (passed s))) ∧
    (c < coreCount → windowHeld s c = false → turn = 15 → lanePick s c 15 = some x →
      exec (.issueSelect c) s = .next { passed { s with cur := some (x.sid, x.f) } with turn := nextCoreOf s c }) ∧
    (laneQueue s c lane = sid :: rest → entryDue s c lane = true →
      exec (.activeSetEntry c lane) s = .next (enter (poolIdle (setQueue s c lane rest) c lane) sid)) ∧
    (∀ old, laneQueue s c lane = sid :: rest → earliest (laneActive s c lane) = some old → displacementDue s c lane = true →
      exec (.activeSetDisplacement c lane) s = .next (enter (((setQueue s c lane (rest ++ [old.1])).updCore c fun y =>
        { y with disp := nmDel y.disp lane }).updStrand old.1 (Strand.pool (s.core c).window)) sid)) ∧
    (nmGet s.strands sid = some st → nmGet st.frags f = some fr → st.resident = true →
      (fr.st = .trapwait → st.sp.hstate = 0#2 → s.cur = none → (s.core st.core).laneTurn = st.lane → st.lane < 15 →
        exec (.trapwaitRetry sid f) s =
          .next { (s.updFrag sid f fun y => { y with st := .ready, wait := .none }).updCore st.core fun z => { z with laneTurn := st.lane + 1 }
            with cur := some (sid, f) }) ∧
      (fr.wait = .sleep 0 → exec (.sleepExpire sid f) s = .next (unblock s sid f)))

/-- O31. Tracked results land, and accesses in flight are performed, thread by thread (R44, R234, R335, R347, R348). A
result without an access is written with its flags, its mark is gone, and the fragments that wait for marks go on. Of an
access, each thread's element is performed for itself, on a DETERM page behind the directory's check (R344): a load whose
bytes are at hand is read, a remote one's request is sent, a sparse line that breaks R112 raises SPARSE_MASK; an atomic at
this module is performed at memory; a store reaches memory, or the die's L2, in a node record with its other elements of the
sector (R367). The access lands with its last element. That a load is performed when its result lands is the model's reading
(log 11). -/
def Obligations.TrackedResultsLand : Prop :=
  ∀ (s : State) (sid n t : Nat) (st : Strand) (p : Pend) (a : Acc),
    nmGet s.strands sid = some st → st.st ≠ .saved → st.pend.find? (fun p => p.id == n && p.tracked && p.ok) = some p →
    (p.op.accs = [] → p.op.isAcq = false → exec (.trackedWriteLand sid (.all n)) s = .next (afterLand (s.updStrand sid fun y =>
      { y with r := y.r.wrAll p.writes, sp := y.sp.addFlags p.fl p.mfl, pend := y.pend.filter fun q => q.id != n }) sid)) ∧
    (p.op.accs ≠ [] → exec (.trackedWriteLand sid (.all n)) s = .next (p.op.accs.foldl (fun x a => goElem x sid n a.t) s)) ∧
    (st.pend.find? (fun q => q.id == n) = some p → p.op.accs.find? (fun x => x.t == t) = some a → st.earlierClash n [a] = false →
      vatAsleep s [a] = false → reqOut s sid n t = false →
      (∀ d u acq un accs, p.op = .load d u acq un accs → loadSends s st [a] = none →
        (∀ x, a.ps.find? (asksHome s st t) = some x → exec (.trackedWriteLand sid (.one n t)) s = .next (sendReq s sid st p t .loadRequest x)) ∧
        (a.ps.find? (asksHome s st t) = none → a.badLine s st = true → exec (.trackedWriteLand sid (.one n t)) s = .next (lineBad s sid p)) ∧
        (a.ps.find? (asksHome s st t) = none → a.badLine s st = false →
          let q := detPerform s sid .load [a]
          let r := readAccs q.1 st [a]
          exec (.trackedWriteLand sid (.one n t)) s = .next (if q.2 then elemDone r.1 sid n t (readWrites d r.2) (readFlags r.2) else q.1))) ∧
      (∀ op ty d u sc kd accs, p.op = .atom op ty d u sc kd accs → atomSends s st.core [a] = none → (p.op.accs.head?.map (·.t)) = some t →
        atomClear s st [a] = true → (∀ x ∈ a.ps, x.home = 0) →
        let q := detPerform s sid .phase [a]
        let r := atomElem q.1 st op ty a
        exec (.trackedWriteLand sid (.one n t)) s = .next (if q.2 then elemDone r.1 sid n t (dstW d ty t (ldVal ty r.2.1)) r.2.2 else q.1)) ∧
      (∀ accs x, let mates := storeMates p a x
        let done := fun (y : State) => mates.foldl (fun z b => elemDone z sid n b.t [] flNone) y
        p.op = .store accs → a.ps = [x] → (∀ b ∈ accs, b.t < t → b ∉ mates → ∀ k ∈ b.keys, k ∉ a.keys) → st.earlierClash n mates = false →
        st.pendingSectors (x.sectors.map (·.2)) = false → x.home = 0 →
        (x.ord = 0 → exec (.trackedWriteLand sid (.one n t)) s = .next (done { s with mem := wrMs s.mem (storeCells mates) })) ∧
        (x.ord ≠ 0 → ottUsed s st.core + x.sectors.length ≤ 256 →
          let q := detPerform s sid .phase mates
          exec (.trackedWriteLand sid (.one n t)) s =
            .next (if q.2 then done (drainCells q.1 st.core sid 0 (x.ord == 2) (storeCells mates)) else q.1)))) ∧
    (st.pend.find? (fun q => q.id == n) = some p → (∀ x ∈ p.op.accs, x.t = t) → ∀ ws fl, elemDone s sid n t ws fl =
      landPend s sid st { p with op := p.op.withAccs [], writes := p.writes ++ ws, fl := p.fl ||| fl })

/-- O32. User interrupts, deaths and failed fetches (R71, R81, R82, R307): a held completion is taken by its fragment at an
instruction boundary with the PC saved in %uepc and the status and tag in k56; without %uvec it is discarded; a dead thread
leaves the live ones and is reported; a fetch that page-faults stops its fragment, and the fault is of the page that is
missing. That delivery waits for the strand's tracked marks is the model's reading (log 47). -/
def Obligations.InterruptsDeathsAndFetchFaults : Prop :=
  ∀ (s : State) (sid t f : Nat) (st : Strand) (fr : Frag) (i : UInt) (rest : List UInt) (s1 : State),
    nmGet s.strands sid = some st → st.resident = true →
    (st.held = i :: rest → st.sp.uvec = 0#57 → exec (.userInterrupt sid) s = .next (s.updStrand sid fun x => { x with held := rest })) ∧
    (st.held = i :: rest → st.sp.uvec ≠ 0#57 → st.intFrag i.frag = some f → nmGet st.frags f = some fr → st.sp.hstate = 0#2 →
      fr.st = .ready → s.cur = none → st.anyTracked = false → st.abort = none → areaWaits s st = false →
      exec (.userInterrupt sid) s = .next (dropRlb (enterHandler s sid f st.sp.uvec fun x y =>
        { x with held := rest, sp := { x.sp with uepc := y.pc, hstate := x.sp.hstate ||| 2#2, ufrag := some f },
                 r := { x.r with k := spPut x.r.k 56 (w64n (i.status.toNat * 2 ^ 56 + i.tag.toNat)) } }) st.core .module)) ∧
    (t < 32 → st.sp.live t = true →
      exec (.threadDead sid t) s = .next (killThreads s sid (maskOf [t]) (((st.frags.find? fun e => inMask e.2.mask t).map (·.2.pc)).getD 0#57))) ∧
    (nmGet st.frags f = some fr → fr.st = .ready → s.cur = none → fetchXlate s st.core (s.asid st) fr.pc.toNat = (.pageFault, s1) →
      exec (.fetchFault sid f) s = .next (stopFetch s1 sid f (fetchVa s1 st.core (s.asid st) fr.pc.toNat) st))

/-- O33. The ordering machine's own steps (R336, R355, R411): DRAIN takes a ready entry, no earlier one of its sector before
it, out of the buffer into the die's L2, the write-combining buffer or, for a STRONG page, memory; PROPAGATE writes the
oldest write of a byte to memory with the rest of its access in the sector; FILL and DROP change a cached copy only; SEND
and WCB_AGE_SEND send a line, or let it wait for a number of its pair; an acknowledgement frees an entry; a store that waits
for a buffer entry issues again when there is one. The grain of PROPAGATE is the model's reading (log 27). -/
def Obligations.OrderingStepsTakeEffect : Prop :=
  ∀ (s : State) (sid n c d pa f : Nat) (st : Strand) (e : RsbEnt) (w : PWrite) (l : WcbLine) (fr : Frag),
    let waits := fun (y : State) => y.updCore c fun x => { x with wcb := x.wcb.map fun (z : WcbLine) => if z.id == l.id then { z with wait := true } else z }
    (nmGet s.strands sid = some st → st.rsb.find? (fun e => e.id == n && (e.ready || e.hold.isSome)) = some e → e.hold = none →
      (∀ x ∈ st.rsb.takeWhile fun x => x.id != n, x.ready = true → x.hold = none → sectorKey x.home x.pa ≠ sectorKey e.home e.pa) →
      let bs := e.final.map fun b => (pkey e.home (e.pa + b.off), b.b)
      let out := s.updStrand sid fun x => { x with rsb := x.rsb.filter fun y => y.id != n }
      (e.ord = 0 → exec (.drain sid n) s = .next (drainWake { out with mem := wrMs out.mem bs } sid)) ∧
      (e.ord ≠ 0 → e.home ≠ 0 → (s.core st.core).wcb.length < 64 →
        exec (.drain sid n) s = .next (drainWake (wcbPut out st.core sid e.home (e.ord == 2) bs) sid)) ∧
      (e.ord ≠ 0 → e.home = 0 → ottUsed s st.core < 256 → exec (.drain sid n) s =
        .next (drainWake (putLocal out st.core sid (e.ord == 2) bs e.access) sid))) ∧
    ((s.die d).p.find? (fun w => w.pa == pa) = some w →
      let sector := (s.die d).p.filter fun x => x.pa / 32 == pa / 32
      let go := fun (x : PWrite) => x.pa / 32 == pa / 32 && (propSet sector w.access).contains x.access
      exec (.propagate d pa) s = .next (settleTeams ({ s with mem := wrMs s.mem (((s.die d).p.filter go).map fun (x : PWrite) => (x.pa, x.b)) }.updDie d fun x =>
        { x with p := x.p.filter fun y => !go y }))) ∧
    (c < coreCount → n / 32 * 32 < 2 ^ 52 → exec (.fill c n) s = .next (s.updCore c fun x => x.fillRlb (n / 32 * 32) (sectorNow s c (n / 32 * 32)))) ∧
    (c < coreCount → exec (.drop c n) s = .next (s.updCore c fun x => { x with rlb := nmDel x.rlb (n / 32 * 32) })) ∧
    ((s.core c).wcb.find? (fun l => l.id == n) = some l → ottUsed s c < 256 →
      exec (.send c n) s = .next (if pairFull s l.home then waits s else sendLine s c l)) ∧
    ((s.core c).wcb.find? (fun l => decide (l.born + 2048 ≤ (s.core c).cycle)) = some l → ottUsed s c < 256 →
      exec (.wcbAgeSend c) s = .next (if pairFull s l.home then waits s else sendLine s c l)) ∧
    ((s.fab.pkts.filter fun k => k.core == c && k.src == s.module.toNat && (match k.body with | .line _ _ _ => true | _ => false)).length < (s.core c).ott →
      exec (.transactionAck c) s = .next (s.updCore c fun x => { x with ott := x.ott - 1 })) ∧
    (nmGet s.strands sid = some st → nmGet st.frags f = some fr → fr.wait = .rsb → st.rsb.length < 64 → rsbUsed s st.core < 16384 →
      exec (.rsbEntryWait sid f) s = .next (s.updFrag sid f fun x =>
        { x with st := .ready, wait := .none, gap := 0, evt := 0#64, since := s.now st }))

/-- O34. Allocation and barriers as steps (R202, R203, R213, R215, R216): a GROW that waits is granted when it heads the
queue and fits, and the youngest fails when none can be granted and no resident strand can go on; a full slot's count goes
up the tree, and a die's, once all its slots have sent theirs; a release reaches a core; a watchdog at its limit ends the
job, and stops where its phase has completed. -/
def Obligations.AllocationAndBarrierStepsTakeEffect : Prop :=
  ∀ (s : State) (c sid f n p q slot job team unit k : Nat) (cl : GClass) (sl : BarSlot) (t : Team) (st : Strand) (fr : Frag) (j : Job)
    (h : Hdr) (wt : Bool) (cl' : GClass) (d a : Opnd),
    (nmGet s.strands sid = some st → nmGet st.frags f = some fr → s.job? st = some j → decode (j.word fr.pc) = .ok (.grow h wt cl' d a) →
      (growHead s c = some (q, sid, f, cl, n, p) → exec (.growGrant c) s = .next (growTold (s.updStrand sid fun x =>
        if n ≤ x.r.alloc cl then x else { x with r := x.r.setAlloc cl n }) st fr d sid f p true)) ∧
      (growHead s c = none → (∀ e ∈ s.strands, e.2.core = c → e.2.resident = true → ∀ x ∈ e.2.frags, x.2.moves = false) →
        (growQueue s c).getLast? = some (q, sid, f, cl, n, p) → exec (.growWaitFail c) s = .next (growTold s st fr d sid f p false))) ∧
    (s.teams.filter (fun e => e.2.job == job && e.2.num == team) = [(k, t)] →
      (slotOf s unit job t = some (n, sl) → 2 ≤ (teamCores s t).length → sl.phase = t.phase → sl.arrived = (membersOn s t unit).length →
        sl.sent ≠ some sl.arrived →
        exec (.barrierArrivalMsg false unit job team) s = .next (topCheck ((dieCount s t unit sl.arrived).updCore unit fun x =>
          { x with slots := nmSet x.slots n { sl with sent := some sl.arrived } }) k)) ∧
      (2 ≤ (((teamCores s t).map dieOf).eraseDups).length → (∃ c ∈ teamCores s t, dieOf c = unit) →
        (∀ c ∈ teamCores s t, dieOf c = unit → ∃ i x, slotOf s c job t = some (i, x) ∧ x.phase = t.phase ∧ x.sent ≠ none) →
        dieSum s t unit ≠ ((nmGet s.pkgComb (combKey job t)).bind fun x => nmGet x.cnt unit).getD 0 →
        exec (.barrierArrivalMsg true unit job team) s = .next (topCheck (pkgCount s t unit (dieSum s t unit)) k))) ∧
    (nmGet (s.core c).slots slot = some sl →
      (s.teams.find? (fun e => e.2.job == sl.job && e.2.num == sl.team && e.2.bidx == sl.bidx && e.2.rels.contains c) = some (k, t) →
        exec (.barrierRelease c slot) s = .next (releaseSlot s c k)) ∧
      (sl.watch = some n → sl.limit ≤ n → s.teams.find? (fun e => e.2.job == sl.job && e.2.num == sl.team && e.2.bidx == sl.bidx) = some (k, t) →
        (∀ m ∈ t.members, ∀ x, nmGet s.strands m = some x → x.st ≠ .saved) →
        (sl.phase = t.phase → exec (.barTimeout c slot) s = .next (endJob s sl.job 0x63#8 (barrierRec s c slot k))) ∧
        (sl.phase ≠ t.phase → exec (.barTimeout c slot) s = .next (s.updCore c fun x =>
          { x with slots := nmSet x.slots slot { sl with watch := none } }))))

/-- O35. Invalidations, replays and shadows as steps (R315, R316, R328, R330): an agent drops the translations of the range,
and acknowledges where nothing issued under them is on its way there; the last acknowledgement ends the invalidation; H2's
register starts one as TINV does; a replayed cycle takes two, which watchdogs and sleeps count; a shadow's end reports the
strand whose signature differs, and an aborted one is counted. That the second run's signatures are a parameter, and the
codes of counted events, are the model's choices (log 14, log 26). -/
def Obligations.InvalidationAndScreeningStepsTakeEffect : Prop :=
  ∀ (s : State) (c unit n : Nat) (sc : Screen) (tv : Tinv),
    let acked := fun (x : State) (t : Tinv) (ag : Nat) =>
      { x with tinvs := (x.tinvs.map fun (y : Tinv) => if y.id == tv.id then { t with left := t.left.filter (· != ag) } else y).filter fun y => !y.left.isEmpty }
    let swept := fun (ag : Nat) => ({ tv with after := (tv.after ++ tinvDropped s ag tv).eraseDups, swept := (tv.swept ++ [ag]).eraseDups } : Tinv)
    (s.tinvs.find? (fun t => t.left.contains (4096 + unit)) = some tv → (∀ m ∈ s.marks, m.tr = []) → (∀ e ∈ s.cores, e.2.markQ = []) →
      exec (.tinvAgentAck (4096 + unit)) s = .next (acked (s.updDie unit fun d =>
        { d with tlb := d.tlb.filter fun e => !(swept (4096 + unit)).drops e }) (swept (4096 + unit)) (4096 + unit))) ∧
    (s.tinvs.find? (fun t => t.left.contains c) = some tv → c < 4096 →
      let x := { s.updCore c (·.sweep (swept c)) with
        strands := s.strands.map fun (e : Nat × Strand) => if e.2.core == c && s.asid e.2 == tv.asid then (e.1, e.2.markStale (swept c)) else e }
      tinvBusy x c (swept c) = false → exec (.tinvAgentAck c) s = .next (acked x (swept c) c)) ∧
    (∀ asid whole base len, whole = true ∨ len ≠ 0 → tinvAgents s ≠ [] → s.regRefuses (hartAt 2 [0x1000] 0 8) true = none →
      exec (.tinvRegisterWrite asid whole base len) s = .next { s.tick.2 with tinvs := s.tinvs ++
        [{ id := s.tick.1, sid := none, asid := asid % 65536, whole := whole, lo := base / 4096 * 4096, hi := ceilDiv (base + len) 4096 * 4096,
           left := tinvAgents s, swept := [], after := [] }] }) ∧
    (c < coreCount → watchDue s c = false → (s.core c).laneTurn = 0 →
      let s1 := s.updCore c fun x => { x with cycle := x.cycle + 2, ev := countEv x.ev x.src evTimingReplay, slots := x.slots.map fun (k, sl) => (k, tickWatch s 2 sl) }
      exec (.timingReplay c) s = .next { s1 with strands := s1.strands.map fun (e : Nat × Strand) =>
        if e.2.core == c && e.2.resident then (e.1, { e.2 with frags := e.2.frags.map fun (k, fr) => (k, match fr.wait with
          | .sleep m => { fr with wait := .sleep (m - 2), evt := w64n (m - 2) }
          | _ => fr) }) else e }) ∧
    (nmGet s.screens n = some sc →
      exec (.screenShadowEnd n none) s = .next ({ s with screens := nmDel s.screens n }.updDie sc.die fun d => { d with ev := countEv d.ev d.src evScreenAbort }) ∧
      (∀ xs, (∀ g ∈ sc.sigs, ∀ x ∈ xs, x.1 = g.1 → x.2 = g.2) → exec (.screenShadowEnd n (some xs)) s = .next { s with screens := nmDel s.screens n }) ∧
      (∀ g x, sc.sigs = [g] → x ≠ g.2 → exec (.screenShadowEnd n (some [(g.1, x)])) s =
        .next (State.event { s with screens := nmDel s.screens n } 0xE1#8 [sc.job, sc.pos.1, sc.pos.2.1, sc.pos.2.2, g.1])))

/-- O36. CPY, GTH and SCT enter their engine's queue (R220, R250); QPUT adds its threads' values to a queue of the batch
that has room, QGET takes the oldest entry (R224, R257). Without an acting thread each only moves on. -/
def Obligations.EngineCommandsAndQueues : Prop :=
  ∀ (h : Hdr) (ui : Bool) (d a b : Opnd),
    let uab := uses [] (refsOf a false ++ refsOf b false)
    let ug := usesT (refsOf d false) (refsOf a false)
    idle h uab (.cpy h ui a b) ∧ idle h uab (.gth h ui a b) ∧ idle h uab (.sct h ui a b) ∧ idle h uab (.qput h a b) ∧ idle h ug (.qget h d a) ∧
    EngAccepts (.cpy h ui a b) h a b false (fun o t => .cpy o t ui) ∧
    EngAccepts (.gth h ui a b) h a b true (fun o t => .gth o t ui) ∧
    EngAccepts (.sct h ui a b) h a b true (fun o t => .sct o t ui) ∧
    (∀ s st c, Issues h uab s st c → c.acts h ≠ [] →
      let n := c.st.r.uni64 a % 64
      let q := s.hwq c.st.core n
      let e := (maskOf (c.acts h), threads.map fun t => if inMask (maskOf (c.acts h)) t then BitVec.ofNat 32 (c.st.r.src .b32 t b) else 0#32)
      q.batch = some c.st.batch → q.ents.length < 16 → queueWaiters (issued h uab s st c) c.st.core n false = [] →
      exec (.qput h a b) s = .next (advance ((issued h uab s st c).setHwq c.st.core n { q with ents := q.ents ++ [e] }) c.sid c.f h)) ∧
    (∀ s st c e rest, Issues h ug s st c → c.acts h ≠ [] →
      let n := c.st.r.uni64 a % 64
      let q := s.hwq c.st.core n
      q.batch = some c.st.batch → q.ents = e :: rest → queueWaiters (issued h ug s st c) c.st.core n true = [] →
      exec (.qget h d a) s = .next (advance (((issued h ug s st c).setHwq c.st.core n { q with ents := rest }).updStrand c.sid fun y =>
        y.track c.f true ug.writes (takeEntry (c.dst h d .b32 ((c.acts h).map fun t => (t, 0))) e) flNone false .none) c.sid c.f h))

/-- O37. The engines' steps (R219 to R221, R224, R253, R255, R350): the oldest waiting command, its strand's stores out,
enters a freed entry; commands start in order; a landing in the scratchpad whose bytes are read takes them to their place
when no earlier one to the same bytes is to come, and the transaction record counts it; a source sector may be read ahead; a
command whose landings are all in memory completes; a command that failed ends; a waiting QGET takes an entry, and a waiting
QPUT adds one. When a source is read is the model's reading (log 28). -/
def Obligations.EngineStepsTakeEffect : Prop :=
  ∀ (s : State) (c n cmd q sid f k : Nat) (g : Bool) (r : CmdReq) (rest : List (Nat × Nat × Nat × CmdReq)) (x : EngCmd) (l : Landing)
    (s1 : State) (bs : List (Nat × Byte)),
    ((engQueue s c g).length < 32 → cmdQueue s [c] (fun x => ((cmdParts x).map (·.1)) == some g) = (q, sid, f, r) :: rest →
      storesOut s sid = true → acceptEng s sid f r q = .inl s1 → exec (.engineQueueAdmit c g) s = .next (unblockRgn s1 sid f)) ∧
    ((engQueue s c g).find? (fun x => !x.started) = some x → exec (.engineCommandStart c g) s = .next (setEngQueue s c g
      ((engQueue s c g).map fun y => if y.id == x.id then { y with started := true } else y))) ∧
    (engFind s c cmd = some (g, x) → x.started = true → x.status = 0#8 → omrkHolds s x.batch x.id = false → x.wait = none →
      x.lands.find? (·.n == n) = some l → l.scr = true → 1 < x.lands.length → x.lands.filter (·.n != n) ≠ [] →
      (x.lands.any fun y => y.n < n && y.scr == l.scr && y.bytes.any fun b => l.bytes.any fun d => d.1 == b.1) = false →
      engBytes s (if g then .gather else .copy) c x none l.bytes = .ok (s1, bs) →
      let s3 := engUpd (billSent s (storeScr s1 x.batch bs) x.job) c g x.id fun y => { y with lands := x.lands.filter (·.n != n), stop := max y.stop 1 }
      exec (.sectorLand c cmd (.land n)) s = .next (match x.xbr with
        | some o => xbUpdate s3 x.batch o fun b => { b with done := (b.done + 1) % 2 ^ 40 }
        | none => s3)) ∧
    (engFind s c cmd = some (g, x) → x.status = 0#8 → omrkHolds s x.batch x.id = false →
      (∀ va, exec (.sectorLand c cmd (.ahead va)) s = .next (engFetch s c g x va)) ∧
      (x.started = true → x.lands = [] → allInM s x.out = true → (x.ui = true → heldFull s x.sid = false) →
        exec (.sectorLand c cmd (.land n)) s = .next (engComplete s c g x (x.out.isEmpty && x.stop == 0)))) ∧
    (engFind s c cmd = some (g, x) → x.status ≠ 0#8 → exec (.engineCommandFault c cmd) s = .next (engFail s c g x)) ∧
    (∀ e es st fr ws, (s.hwq c q).ents = e :: es → queueWaiters s c q true = (k, sid, f) :: ws → nmGet s.strands sid = some st →
      nmGet st.frags f = some fr → fr.wait = .qget q n k →
      exec (.queueWake c q) s = .next (unblock ((s.setHwq c q { (s.hwq c q) with ents := es }).updStrand sid fun y =>
        { y with pend := y.pend.map fun p => if p.id == n then { p with ok := true, writes := takeEntry p.writes e } else p }) sid f)) ∧
    (∀ m vals st fr ws, queueWaiters s c q true = [] → (s.hwq c q).ents.length < 16 → queueWaiters s c q false = (k, sid, f) :: ws →
      nmGet s.strands sid = some st → nmGet st.frags f = some fr → fr.wait = .qput q m vals k →
      exec (.queueWake c q) s = .next (unblock (s.setHwq c q { (s.hwq c q) with ents := (s.hwq c q).ents ++ [(m, vals)] }) sid f))

/-- O38. The matrix engine's instructions (R263, R267, R268, R284 to R289): each takes a reservation entry with the operands
of its issue; a bad descriptor traps; MWT goes on when no command of its strand is left and no tile is faulted; AMOV moves
elements between registers and tile rows, each thread its own column. -/
def Obligations.MatrixInstructions : Prop :=
  ∀ (h : Hdr) (ty : Ty) (cov : Cov) (rnd : Rnd) (sat pair : Bool) (d a b : Opnd),
    let mm := fun (p : Bool) (_ : State) => { uses (tilesOf p d) (descRefs a ++ descRefs b) with tracked := true }
    let mc := fun (s : State) => { uses (tilesOf true d) (descRefs a ++ descRefs b ++ covRefs s cov) with tracked := true }
    let uz := fun (_ : State) => { uses (tilesOf pair d) [] with tracked := true }
    let ul := fun (_ : State) => { uses (tilesOf (ty == .m64) d) (descRefs a) with tracked := true }
    let us := fun (_ : State) => uses [] (descRefs a ++ tilesOf (ty == .m64) d)
    let two := fun (c : Ctx) => descBad ty (c.desc a) || descBad ty (c.desc b)
    let spr := fun (c : Ctx) => sparseBad (c.desc a) || descBad ty (c.desc b)
    let mom := fun (c : Ctx) => descBad .m64 (c.desc a) || descBad .m64 (c.desc b)
    let one := fun (c : Ctx) => descBad ty (c.desc a)
    MatAccepts (.mma h ty d a b) h (mm false) two (fun c => .mma false ty (opndIx d) (c.desc a) (c.desc b)) ∧
    MatAccepts (.mmas h ty d a b) h (mm false) spr (fun c => .mma true ty (opndIx d) (c.desc a) (c.desc b)) ∧
    MatAccepts (.mmam h cov d a b) h mc mom (fun c => .mmam (rhoBits (covRho c.st cov)) c.st.sp.vclamp (opndIx d) (c.desc a) (c.desc b)) ∧
    MatAccepts (.azro h pair d) h uz (fun _ => false) (fun _ => .azro pair (opndIx d)) ∧
    MatAccepts (.ald h ty d a) h ul one (fun c => .ald ty c.st.sp.vclamp (opndIx d) (c.desc a)) ∧
    MatAccepts (.ast h ty rnd sat d a) h us one (fun c => .ast ty rnd sat c.st.sp.vclamp (opndIx d) (c.desc a) c.cmdKey) ∧
    MatRefuses (.mma h ty d a b) h (mm false) two ∧ MatRefuses (.mmas h ty d a b) h (mm false) spr ∧ MatRefuses (.mmam h cov d a b) h mc mom ∧
    MatRefuses (.ald h ty d a) h ul one ∧ MatRefuses (.ast h ty rnd sat d a) h us one ∧
    idle h (uses [] []) (.mwt h) ∧
    (∀ s st c, Issues h (uses [] []) s st c → strandCmds (issued h (uses [] []) s st c) c.sid = [] → c.st.faults = [] →
      exec (.mwt h) s = .next (advance (issued h (uses [] []) s st c) c.sid c.f h)) ∧
    (let put := fun (c : Ctx) (t : Nat) => amovPut c ty a (opndIx d) (c.amovBase b + t) t
     DoesTIf (.amov h ty rnd sat true d a b) h (usesT (tilesOf (ty == .m64) d) (refsOf a false ++ refsOf b false))
       (fun c => c.st.sp.vclamp = true ∨ ∀ t ∈ c.acts h, (put c t).2.2 = false)
       (fun c => { ws := (c.acts h).flatMap fun t => (put c t).1, fl := unionFlags ((c.acts h).map fun t => (put c t).2.1),
                   mfl := (c.acts h).any fun t => (put c t).2.2 })) ∧
    (let get := fun (c : Ctx) (t : Nat) => amovGet c ty rnd sat (opndIx a) (c.amovBase b + t) t
     DoesTIf (.amov h ty rnd sat false d a b) h (usesT (refsOf d false) (tilesOf (ty == .m64) a ++ refsOf b false)) (noNegvar h get)
       (fun c => moments c h d (if ty == .m64 then .m64 else ty) (get c)))

/-- O39. The matrix engine's steps (R263, R264, R270, R276, R280, R290): a waiting command that may enter takes a freed
entry; the arbiter's choice starts; the running pass commits its next row to its tile, and operand sectors may be fetched
ahead; a command whose rows are done completes, and a tile command goes on sector by sector; a fault suspends it; an engine
error ends it and a cause of its job ends the job. When operands are fetched and tile commands act is the model's reading
(log 36). -/
def Obligations.MatrixStepsTakeEffect : Prop :=
  ∀ (s : State) (cl pair q sid f va : Nat) (r : CmdReq) (rest : List (Nat × Nat × Nat × CmdReq)) (m m1 : MatCmd) (st : Strand) (s1 : State)
    (ws : List Write) (cause : BitVec 8),
    ((clusterCmds s cl).length < 32 → cmdQueue s [4 * cl, 4 * cl + 1, 4 * cl + 2, 4 * cl + 3] CmdReq.isMat = (q, sid, f, r) :: rest →
      mayTake s sid r = true → exec (.reservationAdmit cl) s = .next (unblockRgn (takeMat s sid f r q) sid f)) ∧
    (matPick s pair true = some m → exec (.matrixPassStart pair) s = .next (updMat s { m with run := true })) ∧
    (matPick s pair false = some m → exec (.tileCommandStart pair) s = .next (updMat s { m with run := true })) ∧
    (matRunning s pair true = some (m, st) →
      (matNext s st m = .row s1 m1 ws → exec (.matrixRowCommit (.commit pair)) s =
        .next (billSent s (updMat (s1.updStrand m.sid fun x => { x with r := x.r.wrAll ws }) m1) m.job)) ∧
      (∀ va, exec (.matrixRowCommit (.ahead pair true va)) s = .next (matAhead s m va)) ∧
      (matNext s st m = .done s1 m1 ws → exec (.matrixCommandComplete pair) s =
        .next (billSent s (completeMat (s1.updStrand m.sid fun x => { x with r := x.r.wrAll ws }) m1) m.job)) ∧
      (matNext s st m = .page va → exec (.matrixPassSuspend pair) s = .next (suspendMat s m va)) ∧
      (matNext s st m = .err cause → exec (.matrixEngineError pair) s = .next (failMat s m cause)) ∧
      (∀ more, matNext s st m = .dead cause more → exec (.matrixEngineError pair) s = .next (endJob s m.job cause (originRec m.job cause m.by_ more)))) ∧
    (matRunning s pair true = none → matRunning s pair false = some (m, st) →
      (matNext s st m = .done s1 m1 ws → exec (.matrixCommandComplete pair) s =
        .next (billSent s (completeMat (s1.updStrand m.sid fun x => { x with r := x.r.wrAll ws }) m1) m.job)) ∧
      (matNext s st m = .row s1 m1 ws → exec (.matrixCommandComplete pair) s = .next (billSent s (updMat s1 m1) m.job)) ∧
      (matNext s st m = .page va → exec (.matrixPassSuspend pair) s = .next (suspendMat s m va)) ∧
      (matNext s st m = .err cause → exec (.matrixEngineError pair) s = .next (failMat s m cause)))

/-- O40. One row of a pass (R270): the command keeps its entry with the next row, and after row 63 nothing is left to
commit. When operands are fetched is the model's reading (log 36). -/
def Obligations.PassesCommitSixtyFourRows : Prop :=
  ∀ (s : State) (st : Strand) (m : MatCmd), m.req.isPass = true →
    (64 ≤ m.row → matNext s st m = .done s m []) ∧
    (∀ s1 m1 ws, matNext s st m = .row s1 m1 ws → m.row < 64 ∧ m1.row = m.row + 1 ∧ m1.id = m.id ∧ m1.req = m.req)

/-- O41. The marker, handler, VRED and VCMD instructions (R370, R371, R374 to R380, R386, R397, R398) and OMRK (R399), which
does not block its fragment. -/
def Obligations.MarkerInstructions : Prop :=
  ∀ (h : Hdr) (op : MkmOp) (cls : BitVec 4) (a : Opnd),
    let n := cls.toNat
    MarkQueued (.mkm h op cls a) h a 0x3C0 (match op with | .set => 0 | .or => 1 | .andn => 2) n ∧
    MarkQueued (.mks h cls a) h a 0x3C1 0 n ∧ MarkQueued (.mkc h cls a) h a 0x3C2 0 n ∧ MarkQueued (.mkp h cls a) h a 0x3C3 0 n ∧
    MarkQueued (.mkl h cls a) h a 0x3C4 0 n ∧ MarkQueued (.mkn h cls a) h a 0x3C5 0 n ∧ MarkQueued (.mkr h cls a) h a 0x3C6 0 n ∧
    MarkQueued (.mkw h cls a) h a 0x3C7 0 n ∧ MarkQueued (.mkt h cls a) h a 0x3C8 0 n ∧ MarkQueued (.hins h cls a) h a 0x3C9 0 n ∧
    MarkQueued (.vred h a) h a 0x3CC 0 0 ∧ MarkQueued (.vcmd h cls a) h a 0x3CD 0 n ∧ idle h (uses [] []) (.omrk h) ∧
    (∀ s st c s1, Issues h (uses [] []) s st c → c.acts h ≠ [] →
      endRegion (issued h (uses [] []) s st c) c.sid c.f c.fr.pc none = (s1, true) →
      let b1 := s1.sends c.sid c.f .omrk
      c.st.acquiring = false → (s1.core c.st.core).markQ.length < 32 →
      cmdQueue s1 [c.st.core] (fun r => match r with | .mark _ _ _ _ | .omrk => true | _ => false) = [] →
      exec (.omrk h) s = .next (advance (setRgn (b1.tick.2.updCore c.st.core fun x =>
        { x with markQ := x.markQ ++ [{ id := b1.tick.1, sid := c.sid, frag := c.f, req := .omrk, blk := [], cmd := none, rel := none }] })
        c.sid c.f (c.fr.pc + 12#57)) c.sid c.f h))

/-- O42. Wave classes (R394, R395, R432): WOPN of a class that is open gives 2, of a new one within the module's 64 gives 0
and opens it with no registration, and otherwise 1; for a class over other modules whether their endpoints have room is a
free bit (log 14); WQT of an open class blocks the fragment, of another gives 2. Without an acting thread each only moves
on. -/
def Obligations.WaveClassInstructions : Prop :=
  ∀ (h : Hdr) (close : Bool) (sc : Scope) (cls : BitVec 4) (d : Opnd) (s : State) (st : Strand) (c : Ctx),
    let u := usesT (refsOf d false) []
    let b := issued h u s st c
    let isOpen := s.classes.any fun x => x.job == c.st.job && x.cls == cls.toNat
    let asks : Bool := sc == .fabric && (((s.job? c.st).map (·.mset)).getD []).any (· != s.module.toNat)
    let full := 64 ≤ s.classes.length ∨ (asks = true ∧ Config.freeBit b.freeCtr = true)
    let b1 := if asks then { b with freeCtr := b.freeCtr + 1 } else b
    let told := fun (x : State) (n : Nat) => advance ((x.acts c.sid).updStrand c.sid fun y =>
      y.track c.f true u.writes (dstW d .b64 0 n) flNone false .none) c.sid c.f h
    idle h u (.wopn h sc cls d) ∧ idle h u (.wqt h close sc cls d) ∧
    (Issues h u s st c → c.acts h ≠ [] →
    (isOpen = true → exec (.wopn h sc cls d) s = .next (told b 2)) ∧
    (isOpen = false → ¬full → exec (.wopn h sc cls d) s = .next (told
      { dropPairs b1 (pairKeyOf c.st.job cls.toNat) with
        classes := b1.classes ++ [{ job := c.st.job, cls := cls.toNat, sc := sc, regs := [], close := [], again := false }] } 0)) ∧
    (isOpen = false → full → exec (.wopn h sc cls d) s = .next (told b1 1)) ∧
    (isOpen = false → exec (.wqt h close sc cls d) s = .next (advance (b.updStrand c.sid fun y =>
      y.track c.f true u.writes (dstW d .b64 0 2) flNone false .none) c.sid c.f h)) ∧
    (isOpen = true → exec (.wqt h close sc cls d) s = .next ((b.acts c.sid).updStrand c.sid fun y =>
      (y.track c.f false u.writes (dstW d .b64 0 0) flNone false .none).updFrag c.f fun fr =>
        { fr with st := .blocked, wait := .wqt cls.toNat close sc c.st.nextPend, evt := w64n cls.toNat, gap := max h.stall.toNat 1 })))

/-- O43. Signals and collectives at issue (R333, R338, R422, R423, R428, R431, R438), with no acquire in flight and no
access of the strand to the word: CSIG, its region ended, the strand's stores out and the lines before it sent, sends its
operation to the word's home; SWAIT blocks the fragment with a mark on D; COLL and RPRT end the region and wait for the
die's queue. Without an acting thread each only moves on. What a CSIG sends first is the model's reading (log 39). -/
def Obligations.FabricInstructions : Prop :=
  ∀ (h : Hdr) (ui : Bool) (op : SigOp) (cd : SigCond) (d a b : Opnd) (s : State) (st : Strand) (c : Ctx) (s1 s2 : State) (p : Piece),
    let u := uses [] (refsOf a false ++ refsOf b false)
    let ut := usesT (refsOf d false) (refsOf a false ++ refsOf b false)
    let off := c.st.r.uni32 a
    let tag := BitVec.ofNat 32 (c.st.r.uni32 b)
    idle h u (.csig h op a b) ∧ idle h ut (.swait h cd d a b) ∧ idle h u (.coll h ui a b) ∧ idle h u (.rprt h ui a b) ∧
    (c.acts h ≠ [] →
    (Issues h u s st c → sigPage (issued h u s st c) c (c.st.r.uni64 a) true = .inl (s1, p) →
      endRegion s1 c.sid c.f c.fr.pc none = (s2, true) →
      c.st.misplaced [p] = false → (∃ y, nmGet s2.strands c.sid = some y ∧ y.sigHeld (c.leader.getD 0) p = false) →
      sigLines s2 c.st.core p = [] → (p.home ≠ 0 → pairFull s2 p.home = false) →
      exec (.csig h op a b) s = .next (advance (setRgn (sendSig ((s2.acts c.sid).signs c.sid c.f) c p op (w64n (c.st.r.uni64 b))) c.sid c.f (c.fr.pc + 12#57)) c.sid c.f h)) ∧
    (Issues h ut s st c → sigPage (issued h ut s st c) c (c.st.r.uni64 a) false = .inl (s1, p) →
      c.st.acquiring = false → sigPending s1 c.sid p.keys = false → c.st.overlaps (c.leader.getD 0) p.keys = false →
      exec (.swait h cd d a b) s = .next ((s1.acts c.sid).updStrand c.sid fun y =>
        (y.track c.f false ut.writes (dstW d .b64 0 0) flNone false .none).updFrag c.f fun fr =>
          { fr with st := .blocked, wait := .swait cd (c.st.r.uni64 a) (w64n (c.st.r.uni64 b)) c.st.nextPend, evt := w64n (c.st.r.uni64 a),
                    gap := max h.stall.toNat 1 })) ∧
    (Issues h u s st c → endRegion (issued h u s st c) c.sid c.f c.fr.pc none = (s2, true) → c.st.acquiring = false →
      exec (.coll h ui a b) s = .next (waitCmd (s2.sends c.sid c.f (.coll off tag ui)) c.sid c.f h (.coll off tag ui)) ∧
      exec (.rprt h ui a b) s = .next (waitCmd (s2.sends c.sid c.f (.rprt off tag ui)) c.sid c.f h (.rprt off tag ui))))

/-- O44. The mark queue's and the Vats' steps (R340, R351, R371, R372, R382 to R384, R387 to R390, R392, R393, R397, R398).
The head of a core's mark queue passes its checks, and is sent once the waits of R351 are over; the state that a Vat's step
leaves counts the command; a message is consumed, into a step's arrivals or at its node; an announced step close combines
its arrivals node by node; VRED sums and VCMD fills their channel; self-refresh begins and ends; an uncorrectable error in
mark-bus or router traffic is reported and ends the jobs concerned. When blocks are read and Vats act, and that VRED's flags
judge the last rounding, are the model's readings (log 18, log 37). -/
def Obligations.MarkerAndVatStepsTakeEffect : Prop :=
  ∀ (s : State) (c vat n job cls : Nat) (q : MarkReq) (rest : List MarkReq) (st : Strand) (m : MarkCmd) (j : Job) (x : VMsg)
    (k : WClass) (js : List Nat),
    (let s0 := pruneMarkers (markFill s c)
     (s0.core c).markQ = q :: rest → nmGet s0.strands q.sid = some st → (s0.pfaults.any fun e => e.2.who == .mark c q.id) = false →
     (∀ mn sub cls off s1 b, q.cmd = none → q.req = .mark mn sub cls off → markCheck s0 c st q mn sub cls off = (s1, b, .inl m) →
       exec (.markAccept c) s = .next (markPut s1 c { q with blk := b, cmd := some m })) ∧
     (q.cmd = none → q.req = .omrk → exec (.markAccept c) s = .next (markPut s0 c { q with cmd := some (omrkCmd s0 c st q) })) ∧
     (q.cmd = some m → (markWaits s0 q.sid st (m.mn == 0x3CC) q.rel).2 = false → exec (.markAccept c) s =
       .next (markPut s0.tick.2 c { q with rel := (markWaits s0 q.sid st (m.mn == 0x3CC) q.rel).1 })) ∧
     (q.cmd = some m → (markWaits s0 q.sid st (m.mn == 0x3CC) q.rel).2 = true →
       (q.req ≠ .omrk → exec (.markAccept c) s = .next (unblockRgn (markDrop (markSend s0 c m) c q.id) q.sid q.frag)) ∧
       (q.req = .omrk → exec (.markAccept c) s = .next (markDrop (markSend s0 c m) c q.id)))) ∧
    (s.marks.find? (fun m => m.id == n) = some m → nmGet s.jobs m.job = some j → vatMay s m vat = true → m.mn ≠ 0x3CC → m.mn ≠ 0x3CD →
      (vatAct s j m vat).1.gone m.job = false →
      exec (.vatCommandProcess vat n) s = .next (vatDone (vatAct s j m vat).1 m vat (vatAct s j m vat).2.1 (vatAct s j m vat).2.2)) ∧
    ((s.msgs.filter (·.vat == vat))[n]? = some x → s.marks.find? (fun c => c.id == x.m.wave && c.job == x.m.job) = some m →
      nmGet s.jobs x.m.job = some j → m.todo.contains vat = false → (s.vat vat).sleep = false →
      let s0 := ({ s with msgs := s.msgs.erase x } : State).bill x.m.job fun b => { b with vats := true }
      ((mkpOf m.blk).stepped = true → (s.classes.any fun k => k.job == x.m.job && k.cls == x.m.cls && k.close.contains vat) = false →
        exec (.waveMessageConsume vat n) s = .next (s0.updVat vat fun y =>
          { y with arr := y.arr ++ [x.m], pairs := pairUpd y.pairs (pairKeyOf x.m.job x.m.cls) fun q => { q.count 0 1 with p := true } })) ∧
      ((mkpOf m.blk).stepped = false →
        let r := freeArrive s0 j (classScope s x.m.job x.m.cls) m (mkpOf m.blk) vat x.m
        exec (.waveMessageConsume vat n) s = .next ((emit r.1 r.2).updVat vat fun y =>
          { y with pairs := pairUpd y.pairs (pairKeyOf x.m.job x.m.cls) (·.count r.2.length 1) }))) ∧
    (s.classes.find? (fun k => k.job == job && k.cls == cls && k.close.contains vat) = some k → nmGet s.jobs job = some j →
      (s.vat vat).sleep = false →
      let mine := (s.vat vat).arr.filter fun m => m.job == job && m.cls == cls
      let r := ((mine.map fun m => (m.wave, bitsOf m.target 15 0)).eraseDups).foldl (fun (acc : State × List WaveMsg) k =>
        match s.marks.find? (fun c => c.id == k.1 && c.job == job) with
        | some c =>
          let y := closeNode acc.1 j (classScope s job cls) c (mkpOf c.blk) vat k.2 (mine.filter fun m => m.wave == k.1 && bitsOf m.target 15 0 == k.2)
          (y.1, acc.2 ++ y.2)
        | none => acc) (s, [])
      let s2 := (emit r.1 r.2).updVat vat fun x => { x with arr := x.arr.filter fun m => !(m.job == job && m.cls == cls),
                                                            pairs := pairUpd x.pairs (pairKeyOf job cls) fun q => { q.count r.2.length 0 with p := false } }
      exec (.stepClose vat job cls) s = .next { s2 with classes := s2.classes.map fun k =>
        if k.job == job && k.cls == cls then { k with close := k.close.filter (· != vat) } else k }) ∧
    (s.marks.find? (fun m => m.id == n && m.mn == 0x3CC && vatMay s m vat) = some m →
      let put := fun (y : State) (z : MarkCmd) => { y with marks := y.marks.map fun (w : MarkCmd) => if w.id == n then z else w }
      let sums := vredAll s m
      (m.rel = none → sums.1.gone m.job = false →
        exec (.vredReduce (.reduce vat n)) s = .next (put sums.1.tick.2 { m with rel := some (sums.1.tick.1, sums.2) })) ∧
      (∀ q fl, m.rel = some (q, fl) →
        let t := markWrite s m (blkN m.blk 16 8) (leBytes 8 (blkN m.blk 24 8 ||| fl.toNat))
        (vredFree s m q = false → exec (.vredReduce (.reduce vat n)) s = .next s) ∧
        (vredFree s m q = true → t.gone m.job = false → exec (.vredReduce (.reduce vat n)) s = .next (vatDone t m vat [] []))) ∧
      (∀ va, exec (.vredReduce (.read vat n va)) s = .next (put s (vredAhead s m va)))) ∧
    (s.marks.find? (fun m => m.mn == 0x3CD && vatMay s m vat) = some m → (vcmdAll s m).gone m.job = false →
      exec (.vcmdBank vat) s = .next (vatDone (vcmdAll s m) m vat [] [])) ∧
    (vat < 512 → vatBusy s vat = false → exec (.vatSelfRefreshEntry vat false) s = .next (s.updVat vat fun x => { x with sleep := true })) ∧
    (vat < 512 → exec (.vatSelfRefreshEntry vat true) s = .next (s.updVat vat fun x => { x with sleep := true })) ∧
    (vat < 512 → exec (.vatSelfRefreshExit vat) s = .next (s.updVat vat fun x => { x with sleep := false })) ∧
    exec (.pkgUncorr js) s = .next (js.foldl (fun s j => endJob s j 0xE2#8 []) (s.event 0xE2#8 js))

/-- O45. The fabric's steps (R336, R391, R392, R409, R411 to R416, R418, R433): the oldest packet of a pair with a working
path is applied and the pair's count moves on; a retried flit is counted; a link of 64 retries fails and is reported if an
end of it is this module's, and the wave messages it lost are counted; a blocked packet is recorded and the token sends it;
a module that no plane reaches ends the jobs with traffic to it; a sweep that is due, of a class of the module or, on the
plane chosen for its set, of the fabric, clears the activity bits and is judged by its sums; a port forwards a message and
counts it both ways. What a refused packet ends, and the numbers of switches and links, are the model's (log 39, log 59);
other modules' sums, openings and closings of classes, and inbound messages are parameters (log 10). -/
def Obligations.FabricStepsTakeEffect : Prop :=
  ∀ (s : State) (src dst plane link sw port n job cls : Nat) (k : Pkt) (lost : List (Nat × Nat)) (w : WaveMsg) (o : SweepSum),
    let key := link * 16 + plane % 16
    let counted := fun (x : State) => ({ x with fab := { x.fab with
      pairs := pairUpd x.fab.pairs (portPair (pairKeyOf w.job w.cls) port) (·.count 1 1) } } : State).carry w.job (waveTraffic s w)
    (s.fab.pkts.find? (fun k => k.src == src && k.dst == dst) = some k → sigReady s k = true → s.reaches src dst = true →
      let s1 := { s with fab := { s.fab with
        pkts := s.fab.pkts.filter fun x => !(x.src == src && x.dst == dst && x.num == k.num),
        applied := nmSet s.fab.applied (pairKey src dst) ((k.num + 1) % 2 ^ 32) } }
      exec (.apply src dst) s = .next (settleTeams (if k.admitted s then applyPkt s1 k else denyPkt s1 k))) ∧
    (link < 8192 →
      exec (.flitRetry plane link true) s = .next { s with fab := { s.fab with retries := nmSet s.fab.retries key ((nmGet s.fab.retries key).getD 0 + 1) } } ∧
      exec (.flitRetry plane link false) s = .next { s with fab := { s.fab with retries := nmDel s.fab.retries key } }) ∧
    (64 ≤ (nmGet s.fab.retries key).getD 0 → s.fab.failed.contains (plane % 16, link) = false →
      ∃ t, exec (.linkFailed plane link lost) s = .next t ∧ t.fab.failed = s.fab.failed ++ [(plane % 16, link)] ∧
        t.host.events = s.host.events ++ (if link = downLink s.module.toNat then [(0xC6#8, [plane % 16, link])] else []) ∧ t.fab.retries = nmDel s.fab.retries key ∧
        t.fab.pairs = loseMsgs (spoilSweeps s (plane % 16)) plane lost ∧ t.classes = (spoilSweeps s (plane % 16)).classes ∧
        t.strands = s.strands ∧ t.mem = s.mem) ∧
    (s.reaches s.module.toNat dst = true → exec (.moduleDown dst) s = .next s) ∧
    (s.reaches s.module.toNat dst = false →
      ∃ t, exec (.moduleDown dst) s = .next t ∧ (∀ j ∈ jobsTo s dst, ∀ x, nmGet t.jobs j = some x → x.ended = true) ∧
        (∀ p ∈ t.fab.pkts, p.dst = dst → p.src = dst) ∧ (∀ e ∈ t.cores, ∀ l ∈ e.2.wcb, l.home ≠ dst + 1)) ∧
    (plane < 16 → sw < 96 → port < 128 → s.fab.blocked.contains (plane, sw, port) = false →
      exec (.blockedPacket plane sw port) s
        = .next { s with fab := portEvent { s.fab with blocked := s.fab.blocked ++ [(plane, sw, port)] } plane evBlockedPacket }) ∧
    (plane < 16 →
     let at_ := (nmGet s.fab.token plane).getD 0
     let f := { s.fab with token := nmSet s.fab.token plane ((at_ + 1) % 96) }
     (s.fab.blocked.find? (fun b => b.1 == plane && b.2.1 == at_) = none → exec (.recoveryToken plane) s = .next { s with fab := f }) ∧
     (∀ b, s.fab.blocked.find? (fun b => b.1 == plane && b.2.1 == at_) = some b →
       exec (.recoveryToken plane) s = .next { s with fab := portEvent { f with blocked := f.blocked.erase b } plane evRecoverySend })) ∧
    (sweepDue s job cls false (moduleSum s (pairKeyOf job cls) false) = true →
      exec (.deckleSweep job cls) s = .next (sweepEnd (clearActive s (pairKeyOf job cls) false) job cls (moduleSum s (pairKeyOf job cls) false))) ∧
    (let t0 := moduleSum s (pairKeyOf job cls) true
     let t : SweepSum := { o with
                           s := (t0.s + o.s) % 2 ^ 64, c := (t0.c + o.c) % 2 ^ 64, l := t0.l + o.l,
                           a := t0.a || o.a || s.classes.any (fun x => x.job == job && x.cls == cls && x.again), p := t0.p || o.p }
     let s1 := clearActive s (pairKeyOf job cls) true
     let peer := o.opens && peerOpens s job cls
     (peer = true → exec (.fabricSweep job cls plane o) s = .next (openClass s job cls .fabric)) ∧
     (peer = false → sweepDue s job cls true t = true → jobPlane s job = some plane → exec (.fabricSweep job cls plane o) s = .next (sweepEnd { s1 with classes := s1.classes.map fun x =>
        if x.job == job && x.cls == cls then { x with again := false } else x } job cls t))) ∧
    (s.fab.out[n]? = some w → s.pathOk (port % 16) s.module.toNat (bitsOf w.target 36 25) = true →
      exec (.wavePortForward port none n) s = .next { counted s with fab := { (counted s).fab with out := (counted s).fab.out.eraseIdx n } }) ∧
    ((∃ x ∈ s.classes, x.job = w.job ∧ x.cls = w.cls ∧ x.sc = .fabric) → bitsOf w.target 36 25 = s.module.toNat →
      s.linkOk (port % 16) (downLink s.module.toNat) = true →
      exec (.wavePortForward port (some w) n) s = .next { counted s with msgs := s.msgs ++ [{ vat := bitsOf w.target 24 16, m := w }] })

/-- O46. Signals that are read again and the collectives' steps (R423, R425 to R438): a SWAIT whose word satisfies its
condition ends, one whose word lies at another module asks its home, and on a STRONG page each read ends the region first; a
waiting collective command enters its die's queue; digests that agree let it go on, and one that differs ends it as
COLL_MISMATCH; its result is combined and written; its end is told by its status word and its transaction record; the Couch
reads its items when every part is given. What the other modules contribute is a parameter (log 10), and the digest's form
is the model's (log 38). -/
def Obligations.CollectiveStepsTakeEffect : Prop :=
  ∀ (s : State) (sid f die job gid q : Nat) (r : CmdReq) (rest : List (Nat × Nat × Nat × CmdReq)) (st : Strand) (st2 : Strand) (fr : Frag) (cd : SigCond)
    (va n : Nat) (b : W64) (p : Piece) (d : Nat) (c : CollCmd) (s1 s2 : State) (dg : List (Nat × Digest)) (parts : List (Nat × List Byte))
    (cps : List (Nat × Nat × List Byte)) (done : List Nat) (mine : List Byte),
    (nmGet s.strands sid = some st → nmGet st.frags f = some fr → fr.wait = .swait cd va b n →
      readOut s sid f = false → sigWord s st va = some p →
      (st.misplaced [p] = true → exec (.swaitReread sid f) s = .next (s.updStrand sid fun st => st.rekey [p])) ∧
      (st.misplaced [p] = false →
        (p.ord ≠ 0 → SwaitReads (exec (.swaitReread sid f) s) s st sid f fr cd b n p) ∧
        (p.ord = 0 → endRegion s sid f fr.pc none = (s1, true) → nmGet s1.strands sid = some st2 →
          SwaitReads (exec (.swaitReread sid f) s) s1 st2 sid f fr cd b n p))) ∧
    ((s.die die).coll.length < 32 → cmdQueue s ((List.range 144).map (· + 144 * die)) CmdReq.isColl = (q, sid, f, r) :: rest →
      nmGet s.strands sid = some st → (s.pfaults.any fun e => e.2.who == .coll die q) = false →
      acceptColl s die sid f st r q = (s1, none) → exec (.collAccept die) s = .next (unblockRgn s1 sid f)) ∧
    (collNow s job gid = some (d, c) →
      (c.phase = 0 → c.covered (dg.map (·.1)) = true → c.arrived s d = true → omrkHolds s c.batch c.id = false →
        ((∀ o ∈ dg, o.1 < blkPart c.blk → o.1 ≠ blkRank c.blk → o.2 = c.digest) →
          exec (.collDigestCompare job gid dg) s = .next (updColl s d { c with phase := 1 })) ∧
        ((∃ o ∈ dg, o.1 < blkPart c.blk ∧ o.1 ≠ blkRank c.blk ∧ o.2 ≠ c.digest) →
          exec (.collDigestCompare job gid dg) s = .next (collFail s d c 0xC3#8))) ∧
      (let me := blkRank c.blk
       let src := fun (r : Nat) => ((parts.find? fun o => o.1 == r).map (·.2)).getD []
       c.phase = 1 → c.rprt = false → (∀ r < blkPart c.blk, r = me ∨ collReads c.blk r = false ∨ (src r).length = collSrcLen c.blk) →
        (s.pfaults.any fun e => e.2.who == .coll d c.id) = false →
        (if collReads c.blk me then collRead s d c (blkN c.blk 16 8) (collSrcLen c.blk) else (s, .inl [])) = (s1, .inl mine) →
        let out := collResult c.blk ((List.range (blkPart c.blk)).map fun r => if r = me then mine else src r)
        collWrites s1 d c [(blkN c.blk 24 8, out.1)] = (s2, none) →
        let s3 := collCarry (updColl s2 d { c with phase := 2, fl := out.2 }) c [.block mine.length, .block out.1.length]
        exec (.collCombine job gid parts) s = .next (match c.xbr with
          | some o => if collSectors false c.blk = 0 then s3 else xbUpdate s3 c.batch o (·.land (collSectors false c.blk))
          | none => s3)) ∧
      (c.phase = 1 → c.rprt = true → c.covered (cps.map (·.1)) = true → (s.pfaults.any fun e => e.2.who == .coll d c.id) = false →
        let stride := rprtStride c.blk
        collRead s d c (blkN c.blk 16 8) (rprtItems c.blk * stride) = (s1, .inl mine) →
        let me := blkRank c.blk
        let part := fun (r : Nat) => if r = me then (rprtCap c.blk, mine) else ((cps.find? fun o => o.1 == r).map (·.2)).getD (0, [])
        let ps := (List.range (blkPart c.blk)).map part
        let items := (ps.zipIdx.map fun x => couchItems (rprtBox c.blk) stride x.2 x.1.2).flatten
        let asg := couchAssign (ps.map (·.1)) items
        let run := (asg.1[me]?).getD []
        let own := ((asg.2.filter fun x => x.rank == me).map (·.ix)).mergeSort fun x y => decide (x ≤ y)
        let opt := fun (o : Nat) (bs : List Byte) => if blkN c.blk o 8 = 0 then [] else [(blkN c.blk o 8, bs)]
        collWrites s1 d c ([(blkN c.blk 24 8, run.flatMap (·.bs))] ++ opt 32 (run.flatMap fun x => leBytes 8 x.key) ++ opt 40 (own.flatMap (leBytes 4))) = (s2, none) →
        let gone := (asg.1.zipIdx.filter fun r => r.2 != me).flatMap fun r => r.1.filter (·.rank == me)
        let s4 := collCarry (updColl (writeScr s2 c.batch (atOff (c.off + 104) (leBytes 4 own.length ++ leBytes 4 run.length ++ leBytes 8 items.length))) d
          { c with phase := 2, fl := flIf (run.any (·.nv)) flNv, short := !asg.2.isEmpty }) c
          ((run.filter (·.rank != me) ++ gone).map fun _ => Traffic.item (stride + 8))
        exec (.couchAssign job gid cps) s = .next (match c.xbr with
          | some o => xbUpdate s4 c.batch o (·.land (collSectors true c.blk))
          | none => s4)) ∧
      (c.phase = 2 → c.covered done = true → c.ui = false →
        exec (.collComplete job gid done) s = .next (match c.xbr with
          | some o => xbUpdate (writeStat (dropNamed (dropColl s d c.id) d c) c 0) c.batch o fun y => (y.land 1).arrive
          | none => xbWake (writeStat (dropNamed (dropColl s d c.id) d c) c 0) c.batch)))

/-- O47. Faults, traps and the harts (R163, R170, R308, R322, R442, R454): a fault served or an address declared unmapped
leaves the list of faults, with what follows it; a region restarts when its faults are served and its marks have cleared;
TRAP 8 and a reserved trap end the job, TRAP 9 and a breakpoint go on, TRAP 10 queues its pair of completions; a message
enters a hart's mailbox of 64 or waits, its sender with it, and the oldest is taken. What firmware answers is a parameter
(log 14). -/
def Obligations.FaultAndHartStepsTakeEffect : Prop :=
  ∀ (s : State) (sid f n : Nat) (st : Strand) (fr : Frag) (j : Job) (l : Launch) (pf : PFault) (ws : List (Nat × W64)) (s1 : State)
    (src dst : Nat) (msg : BitVec 256) (k : W64),
    let box := (nmGet s.host.mail dst).getD []
    (nmGet s.pfaults n = some pf →
      (makeResident s pf ws = .done s1 →
        exec (.pageFaultService n (some ws)) s = .next (resolved { s1 with pfaults := nmDel s1.pfaults n } n pf)) ∧
      exec (.pageFaultService n none) s = .next (unmapped { s with pfaults := nmDel s.pfaults n } pf)) ∧
    (nmGet s.strands sid = some st → st.anyTracked = false → st.abort = none → st.resident = true →
      (∀ e ∈ st.frags, ∀ k, e.2.wait = .fault k → nmGet s.pfaults k = none) →
      exec (.regionRestart sid) s = .next (joinAll (st.frags.foldl (fun s e => match e.2.wait with
        | .fault _ => if e.2.st == .stopped then s.ready sid e.1 else s
        | _ => s) s) sid)) ∧
    (nmGet s.strands sid = some st → nmGet st.frags f = some fr →
      (fr.wait = .trapStop 8 k → exec (.firmwareTrapService sid f) s = .next (trapEnd s st.job k)) ∧
      (n = 11 ∨ n = 15 → fr.wait = .trapStop n k → exec (.firmwareTrapService sid f) s = .next (endJob s st.job (0xF0#8 + BitVec.ofNat 8 n) [])) ∧
      (fr.wait = .trapStop 9 k → st.resident = true →
        exec (.firmwareTrapService sid f) s = .next (unblock s sid f) ∧ exec (.firmwareResume sid f) s = .next (unblock s sid f)) ∧
      (fr.wait = .trapStop 10 k → s.job? st = some j → nmGet s.launches j.launch = some l → l.fn ≠ hartFn →
        exec (.firmwareTrapService sid f) s = .next (pushCompl (s.updFrag sid f fun x => { x with wait := .logPair }) (qkey l.fn l.q)
          { value := st.r.rdK 56, tag := l.tag, head := l.head, status := 0x06#8, irq := false, kind := .log sid f (st.r.rdK 57) })) ∧
      (fr.wait = .debugStop → exec (.debugResume sid f true) s = .next (endJob s st.job 0x00#8 [])) ∧
      (fr.wait = .debugStop → st.resident = true → exec (.debugResume sid f false) s = .next (unblock s sid f))) ∧
    (src < 8 → dst < 8 → (∀ e ∈ s.host.mailWait, e.1 ≠ src ∧ 64 ≤ ((nmGet s.host.mail e.2.1).getD []).length) →
      (box.length < 64 → exec (.mailboxMessage src dst (some msg)) s
        = .next { s with host := { s.host with mail := nmSet s.host.mail dst (box ++ [(src, msg)]) } }) ∧
      (64 ≤ box.length → exec (.mailboxMessage src dst (some msg)) s
        = .next { s with host := { s.host with mailWait := s.host.mailWait ++ [(src, dst, msg)] } })) ∧
    ((∃ e ∈ s.host.mailWait, e.1 = src) → exec (.mailboxMessage src dst (some msg)) s = .next s) ∧
    (dst < 8 → box ≠ [] → s.host.mailWait = [] →
      exec (.mailboxMessage src dst none) s = .next { s with host := { s.host with mail := nmSet s.host.mail dst (box.drop 1) } }) ∧
    (dst < 8 → ∀ w rest, s.host.mailWait = w :: rest → w.2.1 = dst → box.length = 64 →
      (∀ e ∈ s.host.mailWait, e.1 ≠ dst ∧ 64 ≤ ((nmGet s.host.mail e.2.1).getD []).length) →
      exec (.mailboxMessage src dst none) s
        = .next { s with host := { s.host with mail := nmSet (nmSet s.host.mail dst (box.drop 1)) dst (box.drop 1 ++ [(w.1, w.2.2)]), mailWait := rest } })

/-- O48. The host's queues (R441 to R444, R449, R451, R453): the doorbells move the tail and head; ENABLE starts a queue
with no command outstanding at its first entries; an entry is asked for, and fetched from the ring once its translation
returns; a NOP completes with 0; a SNAPSHOT adds to the PASID's marked pages and a COMMIT writes the other root to its word;
BILL writes a report; a completion is written to the ring; a job that is over completes its launch; the registers read as
R441 lists them, the doorbells as zero. The host's memory by PASID, the start of a queue's indices and a snapshot's marks
and roots are the model's choices (log 48, log 49, log 50). -/
def Obligations.HostQueueStepsTakeEffect : Prop :=
  ∀ (s : State) (fn q job asid : Nat) (v : BitVec 13) (w : W32) (hb : List (Nat × Byte)) (e : List Byte) (jb : Job) (l : Launch) (c : Compl) (i n : Nat),
    let k := qkey fn q
    let x := s.queue k
    let p := x.pasid.toNat
    let old := (nmGet s.host.snaps p).getD Snap.none
    (barOk s fn q = true → (∀ off len wr, off + len ≤ 0x1080 → s.regRefuses (barAt fn off len) wr = none) →
      exec (.sqtail fn q v hb) s = .next (({ s with host := { s.host with
        mem := hb.foldl (fun (m : Sparse 8) (z : Nat × Byte) => spPut m (hostKey p z.1) z.2) s.host.mem } }).updQueue k fun y => { y with sqtail := v }) ∧
      exec (.cqhead fn q v) s = .next (s.updQueue k fun y => { y with cqhead := v }) ∧
      (x.busy = false → exec (.enable fn q w) s = .next (s.updQueue k fun y =>
        { y with enable := w.getLsbD 31, pasid := w.setWidth 20, on := w.getLsbD 31 && y.sound,
                 dying := s.host.dying.contains (w.setWidth 20 : BitVec 20).toNat, fetch := 0, cqidx := 0, phase := true, sqtail := 0#13, cqhead := 0#13 })) ∧
      barRead s fn (0x40 * q) = x.sqbase.toNat ∧ barRead s fn (0x40 * q + 0x20) = x.dying.toNat * 2 + x.on.toNat ∧
      barRead s fn (0x40 * q + 0x28) = 0 ∧ barRead s fn (0x40 * q + 0x30) = 0) ∧
    (x.on = true → x.asked = false → x.entry = none → x.fetch ≠ x.sqtail.toNat → s.host.dying.contains p = false →
      exec (.queueFetch fn q) s = .next (({ s with host := { s.host with
        tearOut := nmSet s.host.tearOut p ((nmGet s.host.tearOut p).getD 0 + 1) } }).updQueue k fun y => { y with asked := true })) ∧
    (q < 8 → nmGet s.host.tearOut p = some (n + 2) → s.host.dying.contains p = false → askedQueue s p = some k → x.entry = none →
      let s1 := { s with host := { s.host with tearOut := nmSet s.host.tearOut p (n + 1) } }
      exec (.translationResponse p) s = .next (fetchEntry s1 k) ∧
      (let r := rdHost s p (x.sqbase.toNat + 64 * x.fetch) 64
       entryBad fn r = false → fetchEntry s1 k = s1.updQueue k fun y =>
        { y with asked := false, entry := some r, fetch := (y.fetch + 1) % y.sqsize.toNat, out := y.out + 1 })) ∧
    (nmGet s.host.tearOut p = some (n + 1) → s.host.dying.contains p = true → askedQueue s p = some k →
      exec (.translationResponse p) s = .next (({ s with host := { s.host with tearOut := nmSet s.host.tearOut p n } }).updQueue k
        fun y => { y with asked := false })) ∧
    (entryOf s fn q 0 = some e → exec (.nopEntry fn q) s = .next (finishEntry s k e 0x00#8 .plain)) ∧
    (entryOf s fn q 1 = some e → s.host.dying.contains p = true →
      exec (.launch (.host fn) q job asid) s = .next (finishEntry s k e 0x02#8 .plain)) ∧
    (∀ im mset, entryOf s fn q 1 = some e → s.host.dying.contains p = false → nmGet s.host.asids p = some asid →
      nmGet s.jobs job = none → job < 65536 → s.host.launchOk = true →
      let d := rdHost s p (entAddr e) 256
      readImage s asid (blkN d 0 8) = some im → readMset s asid d = some mset → entAddr e % 64 = 0 →
      descFieldsBad s.host.keyChunks d = false → im.bad = false →
      ∃ t, exec (.launch (.host fn) q job asid) s = .next t ∧
        nmGet t.jobs job = some (mkJob true asid s.seq s.host.keyChunks d im mset) ∧
        nmGet t.launches s.seq = some { mkLaunch fn q job asid e x.fetch s.host.keyChunks d im with since := hostTime s } ∧
        ∀ y ∈ t.cores, y.2.rlb = []) ∧
    (∀ d im mset, nmGet s.jobs job = none → job < 65536 → s.host.launchOk = true → d.length = 256 →
      descFieldsBad s.host.keyChunks d = false → readImage s 0 (blkN d 0 8) = some im → readMset s 0 d = some mset → im.bad = false →
      ∃ t, exec (.launch (.hart d) q job 0) s = .next t ∧ nmGet t.jobs job = some (mkJob false 0 s.seq s.host.keyChunks d im mset)) ∧
    (entryOf s fn q 2 = some e → s.host.dying.contains p = false → old.busy = true → exec (.snapshot fn q) s = .next (finishEntry s k e 0x03#8 .plain)) ∧
    (entryOf s fn q 2 = some e → s.host.dying.contains p = false → old.busy = false →
      ∃ (s1 : State) (pages : List Tlb), exec (.snapshot fn q) s = .next (finishEntry (setSnap s1 p { old with pages := old.pages ++ pages }) k e 0x00#8 .plain) ∧
        s1.strands = s.strands) ∧
    (entryOf s fn q 3 = some e → s.host.dying.contains p = false → hartMay s 2 (rootWord p) 8 true = true →
      let s1 := setSnap s p { old with alt := !old.alt, busy := true }
      exec (.commit fn q) s = .next (finishEntry { s1 with mem := wrMN s.mem (rootWord p) (leBytes 8 (Config.snapRoot p (!old.alt)).toNat) } k e 0x00#8 (.commit p))) ∧
    (entryOf s fn q 4 = some e → s.host.dying.contains p = false → ∃ (s1 : State) (rep : List Byte), exec (.bill fn q) s = .next (finishEntry (wrHost s1 p (entAddr e) rep) k e 0x00#8 .plain) ∧
        rep.length = 144 ∧ s1.strands = s.strands ∧ s1.mem = s.mem ∧
        nmGet s1.host.reports (entArg e % 65536) = some ((nmGet s.host.reports (entArg e % 65536)).getD 0 + 1)) ∧
    (x.done.zipIdx.find? (fun d => d.1.fits x) = some (c, i) → c.kind = .plain →
      exec (.completionWrite fn q) s = .next (((writeEntry s k c.value c.tag c.head c.status).updQueue k fun y =>
        { y with done := y.done.eraseIdx i, irqs := y.irqs + c.irq.toNat }).updQueue k fun y => { y with out := y.out - 1 })) ∧
    (nmGet s.jobs job = some jb → jobOver s job jb = true → jobCommands s job = false → jobWrites s job = false →
      (jb.rel = none → exec (.jobEnd job) s = .next (s.tick.2.updJob job fun y => { y with rel := some s.seq })) ∧
      (jb.rel = some n → (s.dies.any fun d => d.2.p.any fun w => decide (w.seq < n)) = false → nmGet s.launches jb.launch = some l →
        exec (.jobEnd job) s = .next (pushCompl (jobGone s job jb) (qkey l.fn l.q) (jobCompl job jb l))))

/-- O49. Placing, saving and ending batches (R197, R327, R446 to R448): H1's pick is placed on its core; a partition word
that is legal takes an empty core, another is reported; a drain mark, the flush that H1 chose of a batch that has done
nothing lasting, and a latency bound that has passed act on batches. The ranges of batches, the scratchpad base, ties, H1's
time and the save area's address are the model's choices (log 44, log 51, log 52, log 53). -/
def Obligations.BatchStepsTakeEffect : Prop :=
  ∀ (s : State) (c die key tsave batch : Nat) (l : Launch) (ptes : List (Nat × W64)) (w : W32) (b : Batch),
    (∀ z, fairPick s die = some (key, l, c, z) → die < 8 → exec (.fairSharePlace die tsave ptes) s = .next (placeBatch s key l c z tsave ptes)) ∧
    (∀ z, fairPick s (dieOf c) = some (key, l, c, z) → c < coreCount → exec (.batchPlace key c tsave ptes) s = .next (placeBatch s key l c z tsave ptes)) ∧
    (c < coreCount → s.regRefuses (hartAt 1 [c] 0 4) true = none →
      (partOk w.toNat = true → coreEmpty s c = true → exec (.partitionWordWrite c w) s = .next (writePart s c w.toNat) ∧
        ((writePart s c w.toNat).core c).reg = partReg w.toNat ∧ ((writePart s c w.toNat).core c).acc = partAcc w.toNat) ∧
      (partOk w.toNat = false ∨ coreEmpty s c = false → exec (.partitionWordWrite c w) s = .next (s.event 0xE3#8 [c]))) ∧
    exec (.batchDrain batch) s = .next (s.updBatch batch fun b => if b.resident then { b with pre := some .drain } else b) ∧
    (nmGet s.batches batch = some b → b.resident = true → (∃ j, nmGet s.jobs b.job = some j ∧ j.ended = false) →
      b.pre = some .flush → (∀ sid ∈ b.sids, ∀ st, nmGet s.strands sid = some st → st.acted = false) →
      ∃ t, exec (.batchFlush batch) s = .next t ∧ nmGet t.batches batch = none ∧ (∀ sid ∈ b.sids, nmGet t.strands sid = none) ∧ t.mem = s.mem) ∧
    (nmGet s.batches batch = some b → b.resident = true → (∃ j, nmGet s.jobs b.job = some j ∧ j.hasLive = true ∧ j.ended = false) →
      (∀ sid ∈ b.sids, ∃ st, nmGet s.strands sid = some st ∧ saveReady s sid st = true) → batchCommands s batch b = false →
      let s1 := b.sids.foldl saveStrand (chargeBatch s b)
      let x := (chargeBatch s b).core b.core
      let s2 := s1.updBatch batch fun y => { y with saved := true, pre := none, qs := x.queues.filter fun q => q.2.batch == some batch, locks := x.locks.filter (·.batch == batch) }
      let s3 := s2.updCore b.core fun y =>
        { y with queues := y.queues.filter fun q => q.2.batch != some batch, locks := y.locks.filter (·.batch != batch),
                 locked := y.locked.filter fun e => (y.locks.filter (·.batch != batch)).any (·.covers e) }
      let tks := (b.sids.flatMap fun sid => ((nmGet s3.strands sid).map fun st => st.teams.map (·.1)).getD []).eraseDups
      exec (.batchSave batch) s = .next (tks.foldl (fun s k => topCheck (teamPrune s k) k) s3)) ∧
    (∀ x, nmGet s.launches key = some l → l.lbound ≠ 0 → startable s key l = true → l.since + 700 * l.lbound ≤ hostTime s →
      (∀ d < 8, findCore s key l d = none) →
      let acts := (s.batches.filter fun e => e.2.resident && e.2.pre.isNone && partMatch (s.core e.2.core) l.part
          && ((nmGet s.launches e.2.launch).map fun y => decide (y.prio < l.prio)).getD false).flatMap fun e => preActs s e.1 e.2
      leastBy (fun y => (y.waste, y.act.rank)) (acts.filter fun y => decide (y.delay ≤ ((700 * l.lbound : Nat) : Rat))) = some x →
      exec (.latencyBoundExpire key) s
        = .next { s.updBatch x.batch fun y => { y with pre := some x.act } with launches := nmUpd s.launches key fun l => { l with since := hostTime s } })

/-- O50. A saved batch that fits a core of its partition, whose locks and carried sectors translate again, becomes resident
there (R325, R448); where a lock's page is not resident, its fault goes to H2 (R308, R311). The scratchpad base, the save
area's address and what a save keeps are the model's choices (log 51, log 53, log 56). -/
def Obligations.SavedBatchesResume : Prop :=
  ∀ (s : State) (batch c tsave : Nat) (ptes : List (Nat × W64)) (b : Batch) (l : Launch) (s1 s2 : State) (va : Nat),
    nmGet s.batches batch = some b → nmGet s.launches b.launch = some l → b.saved = true → b.ended = false →
    partMatch (s.core c) l.part = true → (∀ q ∈ b.qs, ((nmGet (s.core c).queues q.1).bind (·.batch)) = none) →
    roomFor s c (s.core c) (resumeDemand s c b) = true → entriesFor s c b = true → c < coreCount →
    let asid := ((nmGet s.jobs b.job).map (·.asid)).getD 0
    (relock s c batch b.locks = .inl s1 → recarryAll s1 c asid b.sids = .inl s2 →
      let s3 := placeArea s2 b.job c tsave ptes
      let scr := (firstFit (scrUsed s3 c) (scrCap (s3.core c)) b.scrSize).getD 0
      let s4 := s3.updBatch batch fun y => { y with core := c, scrBase := scr, saved := false, born := (s3.core c).cycle, qs := [], locks := [] }
      let s5 := s4.updCore c fun y => { y with queues := b.qs.foldl (fun m q => nmSet m q.1 q.2) y.queues }
      exec (.batchResume batch c tsave ptes) s = .next (dropRlb (seatAll s5 c b.sids) c .fabric)) ∧
    (relock s c batch b.locks = .inr (some (s2, va, .pageFault)) → (∀ e ∈ s.pfaults, e.2.who ≠ .resume batch) →
      exec (.batchResume batch c tsave ptes) s
        = .next (({ s2 with cores := s.cores } : State).addFault asid va 0 0#32 (.resume batch)).2)

/-- O51. Teardown, access tables, reset and registers (R6, R440, R441, R449, R450, R452): a PASID that is torn down is dying
and its queues fetch no more; a response takes one request off; the timeout discards those still to come and starts the
invalidation, where there is an address space, and firmware frees it once that has completed; a window is written; a refused
access is reported, and a refused read gives all ones; an admitted host access reads or writes memory; a reset clears
memory, strands, cores, jobs, roots and queues; a register write that its table refuses is logged or reported, and another
keeps its ranges (R414) and drops reserved bits, an ASID root's among them (R298). The numbers of masters and units, what a
reset keeps and which unit holds an address are the model's choices (log 57, log 58, log 60). -/
def Obligations.SystemStepsTakeEffect : Prop :=
  ∀ (s : State) (pasid fn unit pa len master win hart a n : Nat) (wr ok : Bool) (id : BitVec 12) (w : AccWin) (bs : List Byte) (v : W64),
    (s.host.dying.contains pasid = false → (∀ x, nmGet s.host.asids pasid = some x → ∀ e ∈ s.launches, e.2.asid ≠ x) →
      ∃ t, exec (.pasidTeardown pasid) s = .next t ∧ t.mem = s.mem ∧ t.jobs = s.jobs ∧ t.host.dying = s.host.dying ++ [pasid] ∧
        ∀ e ∈ t.host.queues, e.2.pasid.toNat = pasid → e.2.dying = true) ∧
    (nmGet s.host.tearOut pasid = some (n + 2) → askedQueue s pasid = none → exec (.translationResponse pasid) s
      = .next { s with host := { s.host with tearOut := nmSet s.host.tearOut pasid (n + 1) } }) ∧
    (s.host.dying.contains pasid = true → nmGet s.host.tearOut pasid = some n →
      let s1 := { s with host := { s.host with
        tearOut := nmDel s.host.tearOut pasid
        queues := s.host.queues.map fun (e : Nat × HQueue) => (e.1, if e.2.pasid.toNat == pasid then { e.2 with asked := false } else e.2) } }
      (nmGet s.host.asids pasid = some a → exec (.teardownTimeout pasid) s = .next (startTinv s1 none a true 0 0)) ∧
      (nmGet s.host.asids pasid = none → exec (.teardownTimeout pasid) s = .next s1)) ∧
    (s.host.dying.contains pasid = true → nmGet s.host.tearOut pasid = none → nmGet s.host.asids pasid = some a →
      (∀ t ∈ s.tinvs, ¬(t.asid = a ∧ t.whole = true)) → (∀ e ∈ s.jobs, e.2.asid ≠ a) →
      ∃ t, exec (.teardownTimeout pasid) s = .next t ∧ t.roots = spPut s.roots a 0#64 ∧ t.host.asids = nmDel s.host.asids pasid ∧
        t.host.dying = s.host.dying.erase pasid) ∧
    (win < 16 → exec (.accessTableWrite unit master win w) s
      = .next { s with host := { s.host with access := nmSet s.host.access (accKey unit master win) w } }) ∧
    (admitted s unit fn pa 1 wr = false → exec (.hostAccessDenied fn unit pa wr) s
      = .next (if wr then s.event 0x00#8 [fn, unit, pa, 1] else (s.event 0x00#8 [fn, unit, pa, 0]).hostReads [0xFF#8])) ∧
    (admitted s unit (masterHart hart) pa 1 wr = false → exec (.hartDenied hart unit pa wr) s = .next (s.event 0xE4#8 [hart, unit, pa, wr.toNat])) ∧
    (s.host.launchOk = true → fn ≤ 128 → pa + len ≤ 2 ^ 52 → unit = Config.regionOf pa →
      (bs.length = len →
        (admitted s unit fn pa len true = true → exec (.hostCxlMemAccess fn unit pa len (some bs)) s = .next { s with mem := wrMN s.mem pa bs }) ∧
        (admitted s unit fn pa len true = false → exec (.hostCxlMemAccess fn unit pa len (some bs)) s = .next (s.event 0x00#8 [fn, unit, pa, 1]))) ∧
      (admitted s unit fn pa len false = true → exec (.hostCxlMemAccess fn unit pa len none) s = .next (s.hostReads (rdMN s.mem pa len))) ∧
      (admitted s unit fn pa len false = false → exec (.hostCxlMemAccess fn unit pa len none) s
        = .next ((s.event 0x00#8 [fn, unit, pa, 0]).hostReads (List.replicate len 0xFF#8)))) ∧
    (∃ t, exec (.moduleReset ok id) s = .next t ∧ t.module = id ∧ t.mem = [] ∧ t.strands = [] ∧ t.cores = [] ∧ t.jobs = [] ∧
      t.roots = [] ∧ t.host.queues = [] ∧ t.host.launchOk = ok ∧ t.host.bills = ((s.batches.filter (·.2.resident)).foldl (fun x e => chargeBatch x e.2) s).host.bills ∧ t.host.mem = s.host.mem) ∧
    (∀ r b, s.regRefuses (regAt r) true = some b → exec (.registerWrite r v) s = .next
      (if (regAt r).master < 0x100 then hostDenied s (regAt r).master (unitRegs b) (regAt r).off (regAt r).len true
       else hartRefused s ((regAt r).master - 0x100) (unitRegs b) (regAt r).off true)) ∧
    (a < 65536 → s.regRefuses (regAt (.asidRoot a)) true = none → exec (.registerWrite (.asidRoot a) v) s = .next { s with roots := spPut s.roots a (v &&& 0xFFFFFFFFFF001#64) }) ∧
    (2 ^ 10 ≤ v.toNat → v.toNat ≤ 2 ^ 24 → s.regRefuses (regAt .blockedLimit) true = none → exec (.registerWrite .blockedLimit v) s = .next { s with fab := { s.fab with limit := v.toNat } }) ∧
    (v.toNat < 2 ^ 10 ∨ 2 ^ 24 < v.toNat → s.regRefuses (regAt .blockedLimit) true = none → exec (.registerWrite .blockedLimit v) s = .next s) ∧
    (∀ r, exec (.registerWrite (.readOnly r n) v) s = .next s)

/-- O52. Words that the chapters write out decode to the instructions they stand for (R39, R49 to R58), and three that R59
refuses are refused by its first three checks in their order: an unassigned OPC, a reserved COV, a reserved operand class.
-/
def Obligations.WordsDecodeAsTheChaptersSay : Prop :=
  let h : Hdr := { gn := false, gp := 7#3, stall := 1#3, yld := false, ks := false, kd := false, wsb := false, hx := false, uni := false }
  decodesTo 0x20E9A1A40000280000640406 (.ffma { h with gn := true, gp := 2#3, stall := 3#3, ks := true } .f32 .rtz false false (.v 5#8) (.v 1#8) (.pair 2#8 3#8)) ∧
  decodesTo 0x001C80400000200000030D41 (.iadd h .i32 .wrap (.v 4#8) (.wide 100000#42)) ∧
  decodesTo 0x515E01050000300000840004 (.shfl { h with stall := 4#3 } .b32 1#3 .rot (.v 6#8) (.v 2#8) (.k 2#6)) ∧
  decodesTo 0x60048000F00007FFFFFFFFF7 (.bra { h with gp := 1#3 } 0xFFFFFB#24) ∧
  decodesTo 0x815E001130002180004C0004 (.mmul { h with stall := 4#3 } .pos .rtz (.m 4#6) (.m 1#6) (.m 2#6)) ∧
  decodesTo 0xA09C810D0000208001800004 (.ld h .b32 .die .acq (.v 4#8) (.k 6#6) (.v 2#8)) ∧
  decodesTo 0xE00489404000208002040014 (.mma { h with gp := 1#3, wsb := true } .g8 (.a 4#6) (.k 8#6) (.k 10#6)) ∧
  decodesTo 0xA29C8000F000008002040014 (.tlbp h (.k 8#6) (.k 10#6)) ∧
  decodesTo 0xC11C8013F0000080007C0000 (.tbar h .module .full (.k 1#6)) ∧
  decodesTo 0xF2DC804110003780003C0000 (.wqt h false .module 1#4 (.k 6#6)) ∧
  decodesTo 0xF0DC8001F0000301003C0000 (.mkp h 1#4 (.imm 0x400#17)) ∧
  decodesTo 0xF85C8000F000008001040012 (.csig h .add (.k 4#6) (.k 9#6)) ∧
  refusedAs 0x075C80400000200000030D41 .illegalOpc ∧
  refusedAs 0x815E002930002180004C0004 .illegalMod ∧
  refusedAs 0x20E9A1A40000280000600406 .illegalField

/-- O53. Decoding and encoding agree (R39, R49, R53 to R58): every well-formed instruction has a 96-bit word, which decodes
to it, with every operand at every value; and a word that decodes to an instruction is the word of that well-formed
instruction, so no bit of a word is dropped. -/
def Obligations.DecodeAndEncodeAgree : Prop :=
  (∀ i, WellFormed i = true → ∃ w, encode i = some w ∧ w < 2 ^ 96 ∧ decode w = .ok i) ∧
  (∀ w i, w < 2 ^ 96 → decode w = .ok i → WellFormed i = true ∧ encode i = some w)

/-- O54. A step runs the decoded instruction (R39, R40, R59, R69): the ISSUED fragment's word is fetched through its
translations, and the step is exec of the instruction it decodes to, with only the die's cached translations changed; a word
that fails a decoding check raises that check's cause; when no fragment is ISSUED, the step is exec of the next step that is
set (log 1). -/
def Obligations.AStepRunsTheDecodedInstruction : Prop :=
  ∀ (s : State) (sid f : Nat) (st : Strand) (fr : Frag) (j : Job) (e : Tlb) (s1 : State) (i : Instr) (rest : List Instr),
    (s.cur = some (sid, f) → nmGet s.strands sid = some st → nmGet st.frags f = some fr → s.job? st = some j →
      j.pcOk fr.pc.toNat = true → fetchXlate s st.core j.asid fr.pc.toNat = (.ok e, s1) → e.x = true →
      (∃ ds, s1 = { s with dies := ds }) ∧
      (decode (j.word fr.pc) = .ok i → step s = exec i s1) ∧
      (decode (j.word fr.pc) = .error .illegalOpc → step s = .next (raiseUser { s1 with cur := none } sid f 0x01#8 none)) ∧
      (decode (j.word fr.pc) = .error .illegalMod → step s = .next (raiseUser { s1 with cur := none } sid f 0x02#8 none)) ∧
      (decode (j.word fr.pc) = .error .illegalField → step s = .next (raiseUser { s1 with cur := none } sid f 0x03#8 none))) ∧
    (s.cur = none → s.agenda = i :: rest → step s = exec i { s with agenda := rest })

/-- O55. Reset and strand birth (R64, R76, R168, R196, R414, R441): every core's partition word and counter, every host
queue's registers, the blocked-packet limit; no strand, job or batch; no address space valid. A strand is born with its
registers 0 but those of its launch, one fragment of all 32 threads at the kernel's entry, and the special registers at
their reset values. That no address space is valid, memory reads 0 and a queue's weight is 1 are the model's choices (log 3,
log 4). -/
def Obligations.ResetAndStrandBirth : Prop :=
  (∀ c, (State.reset.core c).reg = 48 ∧ (State.reset.core c).acc = 16 ∧ (State.reset.core c).cycle = 0) ∧
  (∀ q, let x := State.reset.queue q
    x.sqbase = 0#64 ∧ x.cqbase = 0#64 ∧ x.sqsize = 0#13 ∧ x.cqsize = 0#13 ∧ x.enable = false ∧ x.pasid = 0#20 ∧ x.dying = false ∧
    x.on = false ∧ x.sqtail = 0#13 ∧ x.cqhead = 0#13) ∧
  State.reset.fab.limit = 2 ^ 16 ∧ State.reset.strands = [] ∧ State.reset.jobs = [] ∧ State.reset.batches = [] ∧
  (∀ a, rdM1 State.reset.mem a = 0#8) ∧ Memory.wf State.reset.mem = true ∧ (∀ asid va, va < 2 ^ 57 → walk State.reset asid va = .unmapped) ∧
  (∀ (s : State) (c lane slot entry team bid n : Nat) (l : Launch) (j : Job),
    let x := newStrand s c lane slot entry team bid l j n
    (∀ r t, x.r.rdV r t = 0#32) ∧ (∀ r t, x.r.rdM r t = 0#64) ∧ (∀ r i k, x.r.rdA r i k = 0#64) ∧ (∀ r, r ≠ 7 → x.r.rdP r = 0#32) ∧
    (∀ r, (∀ e ∈ l.kregs, e.1 ≠ r) → x.r.rdK r = 0#64) ∧
    x.r.valloc = l.res.1 ∧ x.r.kalloc = l.res.2.1 ∧ x.r.malloc = l.res.2.2.1 ∧ x.r.aalloc = l.res.2.2.2.1 ∧
    (∃ fr, x.frags = [(entry, fr)] ∧ fr.mask = 0xFFFFFFFF#32 ∧ fr.pc.toNat = j.base % 2 ^ 57 ∧ fr.rix = none) ∧
    x.recs = [] ∧ x.pend = [] ∧ x.sp.dmask = 0#32 ∧ x.sp.fmask = 0#32 ∧ x.sp.xmask = 0#32 ∧ x.sp.ctl = 0#4 ∧ x.sp.mflag = 0#1 ∧
    x.sp.fflag = 0#5 ∧ x.sp.mrow = 0#7 ∧ x.sp.evec = 0#57 ∧ x.sp.uvec = 0#57 ∧ x.sp.hstate = 0#2)

/-- O56. Module memory keeps its canonical form (ascending addresses, no entry equal to what an unlisted address reads as)
through every step, from every state, so that equal memories are equal data (the model's form of memory, log 3). -/
def Obligations.MemoryStaysCanonical : Prop :=
  ∀ (s t : State), Memory.wf s.mem = true → step s = .next t → Memory.wf t.mem = true

/-- O57. The frame of every instruction whose effect is results in registers, and of a rendezvous instruction that a
fragment executes alone (R42, R43, R44, R50, R74, R77, R116): in the next state each register cell that neither the
instruction nor an earlier pending write of the strand writes is unchanged, and so are the allocation, every special
register but the sticky flags, which only gain bits, every other strand's registers and special registers, and every byte of
module memory. What the instruction writes are cells of D's registers, none for p7. -/
def Obligations.LaneInstructionsKeepTheRest : Prop :=
  (∀ (h : Hdr) (u : Uses) (lat : Nat) (s : State) (st : Strand) (c : Ctx) (r : Results) (t : State),
    Issues h u s st c → (t = laneState h u lat s st c r ∨ t = trackState h u s st c r ∨
      t = rdvRelease ((gathered h u s st c).updStrand c.sid fun x => x.result c.f c.win lat u.writes r.ws r.fl r.mfl) c.sid lat c.f) →
    (∀ w ∈ r.ws ++ st.pend.flatMap (·.writes), cellIn (cellOf w)) →
    (∀ a, rdM1 t.mem a = rdM1 s.mem a) ∧
    (∀ x, x ≠ c.sid → (nmGet t.strands x).map (fun y => (y.r, y.sp)) = (nmGet s.strands x).map (fun y => (y.r, y.sp))) ∧
    (∃ y, nmGet t.strands c.sid = some y ∧
      (∀ x, cellIn x → (∀ w ∈ r.ws ++ st.pend.flatMap (·.writes), cellOf w ≠ x) → cellVal y.r x = cellVal st.r x) ∧
      y.r.valloc = st.r.valloc ∧ y.r.kalloc = st.r.kalloc ∧ y.r.malloc = st.r.malloc ∧ y.r.aalloc = st.r.aalloc ∧
      { y.sp with fflag := st.sp.fflag, mflag := st.sp.mflag } = st.sp ∧
      st.sp.fflag &&& y.sp.fflag = st.sp.fflag ∧ st.sp.mflag &&& y.sp.mflag = st.sp.mflag)) ∧
  (∀ (c : Ctx) (h : Hdr) (d : Opnd) (ty : Ty) (vals : List (Nat × Nat)), ∀ w ∈ c.dst h d ty vals,
    ⟨w.c, w.n⟩ ∈ refsOf d (ty.width = 64) ∨ d = .p 7#3) ∧
  (∀ (r : Regs) (t : Nat) (x : W64), r.wr ⟨.p, 7, t, x⟩ = r)

/-- O58. The frames of the instructions that store (R210, R227, R229, R230, R233, R235, R320, R342, R348): STS, its release
form after the region end, and ATS change only the bytes at the scratchpad addresses that their operands give, and no byte
of module memory; a plain ST, STB and ATG no byte of module memory in their issue step, whether their bytes are buffered or
on their way; and each element of a store to STRONG pages of this module, and of an ATG there, that leaves another element
to come, when it is performed, only the bytes of the place that its address translated to (log 11). -/
def Obligations.StoresChangeTheirBytesOnly : Prop :=
  ∀ (h : Hdr) (ty : Ty) (sc : Scope) (kd : Kind) (d a b : Opnd) (s : State) (st : Strand) (c : Ctx),
    let w := tyBytes ty
    let wide : Bool := ty.width = 64
    let quiet := fun (i : Instr) => ∃ t, exec i s = .next t ∧ ∀ x, rdM1 t.mem x = rdM1 s.mem x
    let scratchOnly := fun (i : Instr) (ts : List (Nat × Nat)) => ∃ t, exec i s = .next t ∧ (∀ x, rdM1 t.mem x = rdM1 s.mem x) ∧
      (∀ o, (∀ x ∈ ts, o < x.2 ∨ x.2 + w ≤ o) →
        ((nmGet t.batches c.st.batch).map fun y => spGet y.scr o) = (nmGet s.batches c.st.batch).map fun y => spGet y.scr o)
    (∀ s2, let u := uses [] (refsOf d wide ++ refsOf a false ++ refsOf b false)
     let ts := (c.memActs h [d, a, b]).map fun t => (t, c.scrAddr a b t)
     Issues h u s st c → c.st.acquiring = false → ts ≠ [] → scrGood s c w ts →
     (kd = .rel → endRegion (issued h u s st c) c.sid c.f (c.fr.pc + 12#57) none = (s2, true)) → scratchOnly (.sts h ty sc kd d a b) ts) ∧
    (∀ s2, let u := usesT (refsOf d wide) (refsOf a false ++ refsOf b wide)
     let ts := (c.memActs h [d, a, b]).map fun t => (t, c.scrAddr a .none t)
     Issues h u s st c → c.st.acquiring = false → ts ≠ [] → scrGood s c w ts →
     endRegion (issued h u s st c) c.sid c.f (c.fr.pc + 12#57) none = (s2, true) →
     ∀ i ∈ [Instr.atsAdd h ty sc kd d a b, .atsMin h ty sc kd d a b, .atsMax h ty sc kd d a b, .atsAnd h ty sc kd d a b, .atsOr h ty sc kd d a b,
       .atsXor h ty sc kd d a b, .atsExch h ty sc kd d a b, .atsCas h ty sc kd d a b], scratchOnly i ts) ∧
    (∀ s1 ps s2, let u := uses [] (refsOf d wide ++ refsOf a true ++ refsOf b false)
     let reqs := ps.map fun p => ({ t := p.t, p := p.p, bs := leBytes w (c.st.r.src ty p.t d) } : StoreReq)
     Issues h u s st c → Reaches (issued h u s st c) c true w (elems c h [d, a, b] w (c.gblAddr a b)) s1 ps →
     c.st.acquiring = false → kd ≠ .rel → (∀ p ∈ ps, c.st.overlaps p.t p.p.keys = false) →
     (onOrd 0 ps = false → c.st.rsb.length + c.st.needs reqs ≤ 64 → rsbUsed s1 c.st.core + c.st.needs reqs ≤ 16384 → quiet (.st h ty sc kd d a b)) ∧
     ((∀ p ∈ ps, p.p.ord = 0) → c.st.strongBusy = false → endRegion s1 c.sid c.f c.fr.pc none = (s2, true) → quiet (.st h ty sc kd d a b))) ∧
    (∀ s1 fl mfl reqs, let u := uses [] (refsOf d wide ++ refsOf a false ++ refsOf b false)
     Issues h u s st c → StbWrites h ty d a b (issued h u s st c) c s1 fl mfl reqs → reqs ≠ [] → c.st.acquiring = false →
     (∀ x, nmGet s1.strands c.sid = some x → x.acquiring = false ∧ (∀ r ∈ reqs, x.overlaps r.t r.p.keys = false) ∧ x.misplaced (reqs.map (·.p)) = false ∧
       x.rsb.length + x.needs reqs ≤ 64 ∧ rsbUsed s1 x.core + x.needs reqs ≤ 16384) →
     sigPending s1 c.sid (reqs.flatMap fun r => r.p.keys) = false → (∀ r ∈ reqs, r.p.ord ≠ 0) → quiet (.stb h ty d a b)) ∧
    (∀ s1 ps s2 s3, let u := usesT (refsOf d wide) (refsOf a true ++ refsOf b wide)
     Issues h u s st c → Reaches (issued h u s st c) c true w (elems c h [d, a, b] w (c.gblAddr a .none)) s1 ps →
     c.st.acquiring = false → (∀ p ∈ ps, c.st.overlaps p.t p.p.keys = false) → (onOrd 0 ps = true → c.st.strongBusy = false) →
     sigPending s1 c.sid (ps.flatMap fun p => p.p.keys) = false → ottUsed s1 c.st.core < 256 →
     endRegion s1 c.sid c.f c.fr.pc none = (s2, true) →
     (if (kd = .rel ∨ kd = .full) ∧ (ps.all fun p => p.p.ord == 2) = false then release s2 c.sid c.f sc true else (s2, true)) = (s3, true) →
     ∀ i ∈ [Instr.atgAdd h ty sc kd d a b, .atgMin h ty sc kd d a b, .atgMax h ty sc kd d a b, .atgAnd h ty sc kd d a b, .atgOr h ty sc kd d a b,
       .atgXor h ty sc kd d a b, .atgExch h ty sc kd d a b, .atgCas h ty sc kd d a b], quiet i) ∧
    (∀ (sid n t : Nat) (p : Pend) (q : Acc) (x : Piece) (accs : List Acc) (y : Strand),
     nmGet s.strands sid = some y → y.st ≠ .saved → y.pend.find? (fun p => p.id == n && p.tracked && p.ok) = some p →
     y.pend.find? (fun p => p.id == n) = some p → accs.find? (fun z => z.t == t) = some q → q.ps = [x] →
     x.home = 0 → x.ord = 0 → y.earlierClash n [q] = false → vatAsleep s [q] = false → reqOut s sid n t = false →
     (∃ b ∈ accs, b.t ≠ t) → y.pendingSectors (x.sectors.map (·.2)) = false →
     (p.op = .store accs ∧ (∀ b ∈ accs, b.t < t → ∀ k ∈ b.keys, k ∉ q.keys)) ∨
       (∃ op ty d uni sc kd, p.op = .atom op ty d uni sc kd accs ∧ accs.head? = some q ∧ atomSends s y.core [q] = none ∧ atomClear s y [q] = true) →
     ∃ z, exec (.trackedWriteLand sid (.one n t)) s = .next z ∧ ∀ k, k ∉ x.keys → rdM1 z.mem k = rdM1 s.mem k)

/-- O59. Entry to the %evec handler (R61, R78, R80): with the fragment's cause to be delivered, the strand's trap registers
hold the cause, the PC and the fields of the word at that PC, %hstate bit 0 is set, the fragment goes to %evec with its mask
kept, and the strand's other fragments keep their PC, mask and state; the save area is written with the layout of R78. -/
def Obligations.TrapEntrySavesAndRedirects : Prop :=
  (∀ (s : State) (sid f : Nat) (cause : BitVec 8) (st : Strand) (fr : Frag) (j : Job) (s1 : State) (ps : List Piece),
    nmGet s.strands sid = some st → nmGet st.frags f = some fr → s.job? st = some j →
    st.sp.evec ≠ 0#57 → st.inHandler f = false → st.anyTracked = false → st.sp.hstate = 0#2 → j.pcOk st.sp.evec.toNat = true →
    endRegion (s.updStrand sid Strand.landFixed) sid f st.sp.evec none = (s1, true) → areaPieces s1 st.landFixed true = some ps →
    let w := j.word fr.pc
    let s2 := writeArea s1 sid st.landFixed ps (saveArea st.landFixed fr.mask)
    ∃ (t : State) (y : Strand) (g : Frag), raiseUser s sid f cause none = t ∧ nmGet t.strands sid = some y ∧ nmGet y.frags f = some g ∧
      y.sp.ecause = cause ∧ y.sp.epc = fr.pc ∧ y.sp.eopc = BitVec.ofNat 10 (bitsOf w 95 86) ∧
      y.sp.emod = BitVec.ofNat 11 (bitsOf w 0 0 * 1024 + bitsOf w 73 73 * 512 + bitsOf w 72 64) ∧
      y.sp.efd = BitVec.ofNat 21 (bitsOf w 63 43) ∧ y.sp.efa = BitVec.ofNat 21 (bitsOf w 42 22) ∧
      y.sp.efb = BitVec.ofNat 21 (bitsOf w 21 1) ∧ y.sp.efa.toNat * 2 ^ 21 + y.sp.efb.toNat = bitsOf w 42 1 ∧ y.sp.egrd = BitVec.ofNat 12 (bitsOf w 81 74 * 16 + bitsOf w 85 82) ∧
      y.sp.hstate = 1#2 ∧ y.sp.hfrag = some f ∧ y.sp.hcause = cause ∧ g.pc = st.sp.evec ∧ g.mask = fr.mask ∧
      (∀ k, k ≠ f → (nmGet y.frags k).map (fun x => (x.pc, x.mask, x.st)) = (nmGet st.frags k).map (fun x => (x.pc, x.mask, x.st))) ∧
      y.r = st.landFixed.r ∧ t.mem = s2.mem ∧ t.dies = s2.dies) ∧
  (∀ (st : Strand) (m : W32), (saveArea st m).length = 1152 ∧
    (∀ i t, i < 8 → t < 32 → leVal (((saveArea st m).drop (128 * i + 4 * t)).take 4) = (st.r.rdV (st.r.valloc - 8 + i) t).toNat) ∧
    (∀ i, i < 8 → leVal (((saveArea st m).drop (1024 + 8 * i)).take 8) = (st.r.rdK (56 + i)).toNat) ∧
    (∀ i, i < 7 → leVal (((saveArea st m).drop (1088 + 4 * i)).take 4) = (st.r.rdP i).toNat) ∧
    leVal (((saveArea st m).drop 1116).take 4) = m.toNat)

/-- O60. Reads return what was written (R5, R50, R74): a register write changes its own cell only, p7 reads 1 in every
thread whatever is written to it, and bytes written to memory read back at their places, the least significant first, with
every other byte unchanged. -/
def Obligations.ReadsReturnWhatWasWritten : Prop :=
  (∀ (r : Regs) (w : Write), cellIn (cellOf w) →
    (w.c = .v → ((r.wr w).rdV w.n w.t).toNat = w.x.toNat % 2 ^ 32) ∧ (w.c = .k → (r.wr w).rdK w.n = w.x) ∧
    (w.c = .m → (r.wr w).rdM w.n w.t = w.x) ∧ (w.c = .a → spGet (r.wr w).a (4096 * w.n + w.t) = w.x) ∧
    (w.c = .p → w.n ≠ 7 → (r.wr w).bitP w.n w.t = decide (w.x ≠ 0#64)) ∧
    (∀ x, cellIn x → x ≠ cellOf w → cellVal (r.wr w) x = cellVal r x)) ∧
  (∀ (r : Regs) (t : Nat), t < 32 → r.bitP 7 t = true) ∧
  (∀ (m : List Host.Cell) (a n x : Nat) (bs : List Byte),
    rdMN (wrMN m a bs) a bs.length = bs ∧ (∀ k, k < a ∨ a + bs.length ≤ k → rdM1 (wrMN m a bs) k = rdM1 m k) ∧
    (∀ i, i < n → rdM1 (wrMN m a (leBytes n x)) (a + i) = BitVec.ofNat 8 (x / 256 ^ i)) ∧
    leVal (rdMN (wrMN m a (leBytes n x)) a n) = x % 256 ^ n)

end
end

