-- ==== Sys2Proof/Laws/Dispatch.lean ====
section
/-!
SUPPORT. What exec is on each instruction and step: its meaning, by definition, so that no proof unfolds the dispatch.
-/
namespace Sys2Proof.Machine

@[simp] theorem exec_iadd {s : State} {h ty md d src} : exec (.iadd h ty md d src) s = execIadd h ty md d src s := rfl
@[simp] theorem exec_isub {s : State} {h ty md d src} : exec (.isub h ty md d src) s = execIsub h ty md d src s := rfl
@[simp] theorem exec_imul {s : State} {h ty sat d src} : exec (.imul h ty sat d src) s = execImul h ty sat d src s := rfl
@[simp] theorem exec_imulh {s : State} {h ty d a b} : exec (.imulh h ty d a b) s = execImulh h ty d a b s := rfl
@[simp] theorem exec_imad {s : State} {h ty sat d a b} : exec (.imad h ty sat d a b) s = execImad h ty sat d a b s := rfl
@[simp] theorem exec_imin {s : State} {h ty d src} : exec (.imin h ty d src) s = execImin h ty d src s := rfl
@[simp] theorem exec_imax {s : State} {h ty d src} : exec (.imax h ty d src) s = execImax h ty d src s := rfl
@[simp] theorem exec_iabs {s : State} {h ty sat d a} : exec (.iabs h ty sat d a) s = execIabs h ty sat d a s := rfl
@[simp] theorem exec_ineg {s : State} {h ty sat d a} : exec (.ineg h ty sat d a) s = execIneg h ty sat d a s := rfl
@[simp] theorem exec_and {s : State} {h ty d src} : exec (.and h ty d src) s = execAnd h ty d src s := rfl
@[simp] theorem exec_or {s : State} {h ty d src} : exec (.or h ty d src) s = execOr h ty d src s := rfl
@[simp] theorem exec_xor {s : State} {h ty d src} : exec (.xor h ty d src) s = execXor h ty d src s := rfl
@[simp] theorem exec_andn {s : State} {h ty d src} : exec (.andn h ty d src) s = execAndn h ty d src s := rfl
@[simp] theorem exec_not {s : State} {h ty d a} : exec (.not h ty d a) s = execNot h ty d a s := rfl
@[simp] theorem exec_shl {s : State} {h ty d a b} : exec (.shl h ty d a b) s = execShl h ty d a b s := rfl
@[simp] theorem exec_shr {s : State} {h ty d a b} : exec (.shr h ty d a b) s = execShr h ty d a b s := rfl
@[simp] theorem exec_sar {s : State} {h ty d a b} : exec (.sar h ty d a b) s = execSar h ty d a b s := rfl
@[simp] theorem exec_rol {s : State} {h ty d a b} : exec (.rol h ty d a b) s = execRol h ty d a b s := rfl
@[simp] theorem exec_popc {s : State} {h ty d a} : exec (.popc h ty d a) s = execPopc h ty d a s := rfl
@[simp] theorem exec_clz {s : State} {h ty d a} : exec (.clz h ty d a) s = execClz h ty d a s := rfl
@[simp] theorem exec_ctz {s : State} {h ty d a} : exec (.ctz h ty d a) s = execCtz h ty d a s := rfl
@[simp] theorem exec_brev {s : State} {h ty d a} : exec (.brev h ty d a) s = execBrev h ty d a s := rfl
@[simp] theorem exec_bfx {s : State} {h ty d a b} : exec (.bfx h ty d a b) s = execBfx h ty d a b s := rfl
@[simp] theorem exec_bfi {s : State} {h ty d a b} : exec (.bfi h ty d a b) s = execBfi h ty d a b s := rfl
@[simp] theorem exec_lea {s : State} {h ty sh d a b} : exec (.lea h ty sh d a b) s = execLea h ty sh d a b s := rfl
@[simp] theorem exec_mov {s : State} {h ty d a} : exec (.mov h ty d a) s = execMov h ty d a s := rfl
@[simp] theorem exec_movi {s : State} {h ty d src} : exec (.movi h ty d src) s = execMovi h ty d src s := rfl
@[simp] theorem exec_sel {s : State} {h ty q neg d a b} : exec (.sel h ty q neg d a b) s = execSel h ty q neg d a b s := rfl
@[simp] theorem exec_icmp {s : State} {h ty c d a b} : exec (.icmp h ty c d a b) s = execIcmp h ty c d a b s := rfl
@[simp] theorem exec_fadd {s : State} {h ty rnd sat x2 d src} : exec (.fadd h ty rnd sat x2 d src) s = execFadd h ty rnd sat x2 d src s := rfl
@[simp] theorem exec_fsub {s : State} {h ty rnd sat x2 d src} : exec (.fsub h ty rnd sat x2 d src) s = execFsub h ty rnd sat x2 d src s := rfl
@[simp] theorem exec_fmul {s : State} {h ty rnd sat x2 d src} : exec (.fmul h ty rnd sat x2 d src) s = execFmul h ty rnd sat x2 d src s := rfl
@[simp] theorem exec_ffma {s : State} {h ty rnd sat x2 d a b} : exec (.ffma h ty rnd sat x2 d a b) s = execFfma h ty rnd sat x2 d a b s := rfl
@[simp] theorem exec_fmin {s : State} {h ty x2 d src} : exec (.fmin h ty x2 d src) s = execFmin h ty x2 d src s := rfl
@[simp] theorem exec_fmax {s : State} {h ty x2 d src} : exec (.fmax h ty x2 d src) s = execFmax h ty x2 d src s := rfl
@[simp] theorem exec_fabs {s : State} {h ty x2 d a} : exec (.fabs h ty x2 d a) s = execFabs h ty x2 d a s := rfl
@[simp] theorem exec_fneg {s : State} {h ty x2 d a} : exec (.fneg h ty x2 d a) s = execFneg h ty x2 d a s := rfl
@[simp] theorem exec_fcmp {s : State} {h ty c d a b} : exec (.fcmp h ty c d a b) s = execFcmp h ty c d a b s := rfl
@[simp] theorem exec_fcls {s : State} {h ty d a b} : exec (.fcls h ty d a b) s = execFcls h ty d a b s := rfl
@[simp] theorem exec_fscl {s : State} {h ty rnd sat d a b} : exec (.fscl h ty rnd sat d a b) s = execFscl h ty rnd sat d a b s := rfl
@[simp] theorem exec_frnd {s : State} {h ty rnd d a} : exec (.frnd h ty rnd d a) s = execFrnd h ty rnd d a s := rfl
@[simp] theorem exec_frcp {s : State} {h ty d a} : exec (.frcp h ty d a) s = execFrcp h ty d a s := rfl
@[simp] theorem exec_frsq {s : State} {h ty d a} : exec (.frsq h ty d a) s = execFrsq h ty d a s := rfl
@[simp] theorem exec_fsqrt {s : State} {h ty rnd d a} : exec (.fsqrt h ty rnd d a) s = execFsqrt h ty rnd d a s := rfl
@[simp] theorem exec_fdiv {s : State} {h ty rnd sat d a b} : exec (.fdiv h ty rnd sat d a b) s = execFdiv h ty rnd sat d a b s := rfl
@[simp] theorem exec_fex2 {s : State} {h ty d a} : exec (.fex2 h ty d a) s = execFex2 h ty d a s := rfl
@[simp] theorem exec_flg2 {s : State} {h ty d a} : exec (.flg2 h ty d a) s = execFlg2 h ty d a s := rfl
@[simp] theorem exec_ftrg {s : State} {h ty cos d a} : exec (.ftrg h ty cos d a) s = execFtrg h ty cos d a s := rfl
@[simp] theorem exec_ftnh {s : State} {h ty d a} : exec (.ftnh h ty d a) s = execFtnh h ty d a s := rfl
@[simp] theorem exec_ferf {s : State} {h ty d a} : exec (.ferf h ty d a) s = execFerf h ty d a s := rfl
@[simp] theorem exec_fphi {s : State} {h ty d a} : exec (.fphi h ty d a) s = execFphi h ty d a s := rfl
@[simp] theorem exec_fdot {s : State} {h ty rnd sat d a b} : exec (.fdot h ty rnd sat d a b) s = execFdot h ty rnd sat d a b s := rfl
@[simp] theorem exec_cvt {s : State} {h rnd dt st sat d a} : exec (.cvt h rnd dt st sat d a) s = execCvt h rnd dt st sat d a s := rfl
@[simp] theorem exec_cvts {s : State} {h rnd dt st sat d a b} : exec (.cvts h rnd dt st sat d a b) s = execCvts h rnd dt st sat d a b s := rfl
@[simp] theorem exec_pack {s : State} {h dt st sat d a b} : exec (.pack h dt st sat d a b) s = execPack h dt st sat d a b s := rfl
@[simp] theorem exec_unpk {s : State} {h dt st sat d a b} : exec (.unpk h dt st sat d a b) s = execUnpk h dt st sat d a b s := rfl
@[simp] theorem exec_qenc {s : State} {h qf st d a b} : exec (.qenc h qf st d a b) s = execQenc h qf st d a b s := rfl
@[simp] theorem exec_qdec {s : State} {h ty hi qf sat d a b} : exec (.qdec h ty hi qf sat d a b) s = execQdec h ty hi qf sat d a b s := rfl
@[simp] theorem exec_plop {s : State} {h tab d a b} : exec (.plop h tab d a b) s = execPlop h tab d a b s := rfl
@[simp] theorem exec_pmov {s : State} {h f d a b} : exec (.pmov h f d a b) s = execPmov h f d a b s := rfl
@[simp] theorem exec_ballot {s : State} {h d a b} : exec (.ballot h d a b) s = execBallot h d a b s := rfl
@[simp] theorem exec_vany {s : State} {h d a} : exec (.vany h d a) s = execVany h d a s := rfl
@[simp] theorem exec_vall {s : State} {h d a} : exec (.vall h d a) s = execVall h d a s := rfl
@[simp] theorem exec_shfl {s : State} {h ty vp md d a b} : exec (.shfl h ty vp md d a b) s = execShfl h ty vp md d a b s := rfl
@[simp] theorem exec_bcst {s : State} {h ty vp d a b} : exec (.bcst h ty vp d a b) s = execBcst h ty vp d a b s := rfl
@[simp] theorem exec_redx {s : State} {h ty op d a b} : exec (.redx h ty op d a b) s = execRedx h ty op d a b s := rfl
@[simp] theorem exec_scan {s : State} {h ty op ex d a b} : exec (.scan h ty op ex d a b) s = execScan h ty op ex d a b s := rfl
@[simp] theorem exec_matchx {s : State} {h ty vp all d a b} : exec (.matchx h ty vp all d a b) s = execMatchx h ty vp all d a b s := rfl
@[simp] theorem exec_elect {s : State} {h d} : exec (.elect h d) s = execElect h d s := rfl
@[simp] theorem exec_bra {s : State} {h off} : exec (.bra h off) s = execBra h off s := rfl
@[simp] theorem exec_brx {s : State} {h a} : exec (.brx h a) s = execBrx h a s := rfl
@[simp] theorem exec_call {s : State} {h d off} : exec (.call h d off) s = execCall h d off s := rfl
@[simp] theorem exec_ret {s : State} {h a} : exec (.ret h a) s = execRet h a s := rfl
@[simp] theorem exec_rcv {s : State} {h off} : exec (.rcv h off) s = execRcv h off s := rfl
@[simp] theorem exec_exit {s : State} {h} : exec (.exit h) s = execExit h s := rfl
@[simp] theorem exec_nop {s : State} {h} : exec (.nop h) s = execNop h s := rfl
@[simp] theorem exec_yld {s : State} {h} : exec (.yld h) s = execYld h s := rfl
@[simp] theorem exec_trap {s : State} {h n} : exec (.trap h n) s = execTrap h n s := rfl
@[simp] theorem exec_eret {s : State} {h} : exec (.eret h) s = execEret h s := rfl
@[simp] theorem exec_iret {s : State} {h} : exec (.iret h) s = execIret h s := rfl
@[simp] theorem exec_srd {s : State} {h b64 d a} : exec (.srd h b64 d a) s = execSrd h b64 d a s := rfl
@[simp] theorem exec_swr {s : State} {h b64 d a} : exec (.swr h b64 d a) s = execSwr h b64 d a s := rfl
@[simp] theorem exec_sleep {s : State} {h a} : exec (.sleep h a) s = execSleep h a s := rfl
@[simp] theorem exec_brk {s : State} {h n} : exec (.brk h n) s = execBrk h n s := rfl
@[simp] theorem exec_mmov {s : State} {h d a} : exec (.mmov h d a) s = execMmov h d a s := rfl
@[simp] theorem exec_mput {s : State} {h d a b} : exec (.mput h d a b) s = execMput h d a b s := rfl
@[simp] theorem exec_mget {s : State} {h sel d a} : exec (.mget h sel d a) s = execMget h sel d a s := rfl
@[simp] theorem exec_madd {s : State} {h cov rnd d a b} : exec (.madd h cov rnd d a b) s = execMadd h cov rnd d a b s := rfl
@[simp] theorem exec_msub {s : State} {h cov rnd d a b} : exec (.msub h cov rnd d a b) s = execMsub h cov rnd d a b s := rfl
@[simp] theorem exec_mmul {s : State} {h cov rnd d a b} : exec (.mmul h cov rnd d a b) s = execMmul h cov rnd d a b s := rfl
@[simp] theorem exec_mfma {s : State} {h cov rnd d a b} : exec (.mfma h cov rnd d a b) s = execMfma h cov rnd d a b s := rfl
@[simp] theorem exec_mscl {s : State} {h rnd d a b} : exec (.mscl h rnd d a b) s = execMscl h rnd d a b s := rfl
@[simp] theorem exec_mrlu {s : State} {h d a} : exec (.mrlu h d a) s = execMrlu h d a s := rfl
@[simp] theorem exec_mexp {s : State} {h d a} : exec (.mexp h d a) s = execMexp h d a s := rfl
@[simp] theorem exec_msqr {s : State} {h rnd d a} : exec (.msqr h rnd d a) s = execMsqr h rnd d a s := rfl
@[simp] theorem exec_mphi {s : State} {h d a} : exec (.mphi h d a) s = execMphi h d a s := rfl
@[simp] theorem exec_mclp {s : State} {h sel rnd d a b} : exec (.mclp h sel rnd d a b) s = execMclp h sel rnd d a b s := rfl
@[simp] theorem exec_mchk {s : State} {h sel d a} : exec (.mchk h sel d a) s = execMchk h sel d a s := rfl
@[simp] theorem exec_lds {s : State} {h ty sc kd d a b} : exec (.lds h ty sc kd d a b) s = execLds h ty sc kd d a b s := rfl
@[simp] theorem exec_sts {s : State} {h ty sc kd d a b} : exec (.sts h ty sc kd d a b) s = execSts h ty sc kd d a b s := rfl
@[simp] theorem exec_ld {s : State} {h ty sc kd d a b} : exec (.ld h ty sc kd d a b) s = execLd h ty sc kd d a b s := rfl
@[simp] theorem exec_st {s : State} {h ty sc kd d a b} : exec (.st h ty sc kd d a b) s = execSt h ty sc kd d a b s := rfl
@[simp] theorem exec_ldb {s : State} {h ty d a b} : exec (.ldb h ty d a b) s = execLdb h ty d a b s := rfl
@[simp] theorem exec_stb {s : State} {h ty d a b} : exec (.stb h ty d a b) s = execStb h ty d a b s := rfl
@[simp] theorem exec_pft {s : State} {h sc a b} : exec (.pft h sc a b) s = execPft h sc a b s := rfl
@[simp] theorem exec_fence {s : State} {h sc kd} : exec (.fence h sc kd) s = execFence h sc kd s := rfl
@[simp] theorem exec_rgn {s : State} {h} : exec (.rgn h) s = execRgn h s := rfl
@[simp] theorem exec_drel {s : State} {h d a b} : exec (.drel h d a b) s = execDrel h d a b s := rfl
@[simp] theorem exec_tlbp {s : State} {h a b} : exec (.tlbp h a b) s = execTlbp h a b s := rfl
@[simp] theorem exec_tlbu {s : State} {h a} : exec (.tlbu h a) s = execTlbu h a s := rfl
@[simp] theorem exec_xprb {s : State} {h d a} : exec (.xprb h d a) s = execXprb h d a s := rfl
@[simp] theorem exec_tinv {s : State} {h d a b} : exec (.tinv h d a b) s = execTinv h d a b s := rfl
@[simp] theorem exec_atsAdd {s : State} {h ty sc kd d a b} : exec (.atsAdd h ty sc kd d a b) s = execAtsAdd h ty sc kd d a b s := rfl
@[simp] theorem exec_atsMin {s : State} {h ty sc kd d a b} : exec (.atsMin h ty sc kd d a b) s = execAtsMin h ty sc kd d a b s := rfl
@[simp] theorem exec_atsMax {s : State} {h ty sc kd d a b} : exec (.atsMax h ty sc kd d a b) s = execAtsMax h ty sc kd d a b s := rfl
@[simp] theorem exec_atsAnd {s : State} {h ty sc kd d a b} : exec (.atsAnd h ty sc kd d a b) s = execAtsAnd h ty sc kd d a b s := rfl
@[simp] theorem exec_atsOr {s : State} {h ty sc kd d a b} : exec (.atsOr h ty sc kd d a b) s = execAtsOr h ty sc kd d a b s := rfl
@[simp] theorem exec_atsXor {s : State} {h ty sc kd d a b} : exec (.atsXor h ty sc kd d a b) s = execAtsXor h ty sc kd d a b s := rfl
@[simp] theorem exec_atsExch {s : State} {h ty sc kd d a b} : exec (.atsExch h ty sc kd d a b) s = execAtsExch h ty sc kd d a b s := rfl
@[simp] theorem exec_atsCas {s : State} {h ty sc kd d a b} : exec (.atsCas h ty sc kd d a b) s = execAtsCas h ty sc kd d a b s := rfl
@[simp] theorem exec_atgAdd {s : State} {h ty sc kd d a b} : exec (.atgAdd h ty sc kd d a b) s = execAtgAdd h ty sc kd d a b s := rfl
@[simp] theorem exec_atgMin {s : State} {h ty sc kd d a b} : exec (.atgMin h ty sc kd d a b) s = execAtgMin h ty sc kd d a b s := rfl
@[simp] theorem exec_atgMax {s : State} {h ty sc kd d a b} : exec (.atgMax h ty sc kd d a b) s = execAtgMax h ty sc kd d a b s := rfl
@[simp] theorem exec_atgAnd {s : State} {h ty sc kd d a b} : exec (.atgAnd h ty sc kd d a b) s = execAtgAnd h ty sc kd d a b s := rfl
@[simp] theorem exec_atgOr {s : State} {h ty sc kd d a b} : exec (.atgOr h ty sc kd d a b) s = execAtgOr h ty sc kd d a b s := rfl
@[simp] theorem exec_atgXor {s : State} {h ty sc kd d a b} : exec (.atgXor h ty sc kd d a b) s = execAtgXor h ty sc kd d a b s := rfl
@[simp] theorem exec_atgExch {s : State} {h ty sc kd d a b} : exec (.atgExch h ty sc kd d a b) s = execAtgExch h ty sc kd d a b s := rfl
@[simp] theorem exec_atgCas {s : State} {h ty sc kd d a b} : exec (.atgCas h ty sc kd d a b) s = execAtgCas h ty sc kd d a b s := rfl
@[simp] theorem exec_grow {s : State} {h wait cl d a} : exec (.grow h wait cl d a) s = execGrow h wait cl d a s := rfl
@[simp] theorem exec_shrk {s : State} {h cl a} : exec (.shrk h cl a) s = execShrk h cl a s := rfl
@[simp] theorem exec_tjoin {s : State} {h d a b} : exec (.tjoin h d a b) s = execTjoin h d a b s := rfl
@[simp] theorem exec_tleave {s : State} {h a} : exec (.tleave h a) s = execTleave h a s := rfl
@[simp] theorem exec_tbar {s : State} {h sc kd a} : exec (.tbar h sc kd a) s = execTbar h sc kd a s := rfl
@[simp] theorem exec_lsyn {s : State} {h sc kd b} : exec (.lsyn h sc kd b) s = execLsyn h sc kd b s := rfl
@[simp] theorem exec_xbi {s : State} {h a b} : exec (.xbi h a b) s = execXbi h a b s := rfl
@[simp] theorem exec_xba {s : State} {h a} : exec (.xba h a) s = execXba h a s := rfl
@[simp] theorem exec_xbe {s : State} {h a b} : exec (.xbe h a b) s = execXbe h a b s := rfl
@[simp] theorem exec_xbw {s : State} {h a b} : exec (.xbw h a b) s = execXbw h a b s := rfl
@[simp] theorem exec_xbt {s : State} {h d a b} : exec (.xbt h d a b) s = execXbt h d a b s := rfl
@[simp] theorem exec_cpy {s : State} {h ui a b} : exec (.cpy h ui a b) s = execCpy h ui a b s := rfl
@[simp] theorem exec_gth {s : State} {h ui a b} : exec (.gth h ui a b) s = execGth h ui a b s := rfl
@[simp] theorem exec_sct {s : State} {h ui a b} : exec (.sct h ui a b) s = execSct h ui a b s := rfl
@[simp] theorem exec_qput {s : State} {h a b} : exec (.qput h a b) s = execQput h a b s := rfl
@[simp] theorem exec_qget {s : State} {h d a} : exec (.qget h d a) s = execQget h d a s := rfl
@[simp] theorem exec_mma {s : State} {h ty d a b} : exec (.mma h ty d a b) s = execMma h ty d a b s := rfl
@[simp] theorem exec_mmas {s : State} {h ty d a b} : exec (.mmas h ty d a b) s = execMmas h ty d a b s := rfl
@[simp] theorem exec_mmam {s : State} {h cov d a b} : exec (.mmam h cov d a b) s = execMmam h cov d a b s := rfl
@[simp] theorem exec_azro {s : State} {h pair d} : exec (.azro h pair d) s = execAzro h pair d s := rfl
@[simp] theorem exec_ald {s : State} {h ty d a} : exec (.ald h ty d a) s = execAld h ty d a s := rfl
@[simp] theorem exec_ast {s : State} {h ty rnd sat d a} : exec (.ast h ty rnd sat d a) s = execAst h ty rnd sat d a s := rfl
@[simp] theorem exec_amov {s : State} {h ty rnd sat put d a b} : exec (.amov h ty rnd sat put d a b) s = execAmov h ty rnd sat put d a b s := rfl
@[simp] theorem exec_mwt {s : State} {h} : exec (.mwt h) s = execMwt h s := rfl
@[simp] theorem exec_mkm {s : State} {h op cls a} : exec (.mkm h op cls a) s = execMkm h op cls a s := rfl
@[simp] theorem exec_mks {s : State} {h cls a} : exec (.mks h cls a) s = execMks h cls a s := rfl
@[simp] theorem exec_mkc {s : State} {h cls a} : exec (.mkc h cls a) s = execMkc h cls a s := rfl
@[simp] theorem exec_mkp {s : State} {h cls a} : exec (.mkp h cls a) s = execMkp h cls a s := rfl
@[simp] theorem exec_mkl {s : State} {h cls a} : exec (.mkl h cls a) s = execMkl h cls a s := rfl
@[simp] theorem exec_mkn {s : State} {h cls a} : exec (.mkn h cls a) s = execMkn h cls a s := rfl
@[simp] theorem exec_mkr {s : State} {h cls a} : exec (.mkr h cls a) s = execMkr h cls a s := rfl
@[simp] theorem exec_mkw {s : State} {h cls a} : exec (.mkw h cls a) s = execMkw h cls a s := rfl
@[simp] theorem exec_mkt {s : State} {h cls a} : exec (.mkt h cls a) s = execMkt h cls a s := rfl
@[simp] theorem exec_hins {s : State} {h cls a} : exec (.hins h cls a) s = execHins h cls a s := rfl
@[simp] theorem exec_wopn {s : State} {h sc cls d} : exec (.wopn h sc cls d) s = execWopn h sc cls d s := rfl
@[simp] theorem exec_wqt {s : State} {h close sc cls d} : exec (.wqt h close sc cls d) s = execWqt h close sc cls d s := rfl
@[simp] theorem exec_vred {s : State} {h a} : exec (.vred h a) s = execVred h a s := rfl
@[simp] theorem exec_vcmd {s : State} {h cls a} : exec (.vcmd h cls a) s = execVcmd h cls a s := rfl
@[simp] theorem exec_omrk {s : State} {h} : exec (.omrk h) s = execOmrk h s := rfl
@[simp] theorem exec_coll {s : State} {h ui a b} : exec (.coll h ui a b) s = execColl h ui a b s := rfl
@[simp] theorem exec_csig {s : State} {h op a b} : exec (.csig h op a b) s = execCsig h op a b s := rfl
@[simp] theorem exec_swait {s : State} {h c d a b} : exec (.swait h c d a b) s = execSwait h c d a b s := rfl
@[simp] theorem exec_rprt {s : State} {h ui a b} : exec (.rprt h ui a b) s = execRprt h ui a b s := rfl
@[simp] theorem exec_issueSelect {s : State} {c} : exec (.issueSelect c) s = execIssueSelect c s := rfl
@[simp] theorem exec_activeSetEntry {s : State} {c lane} : exec (.activeSetEntry c lane) s = execActiveSetEntry c lane s := rfl
@[simp] theorem exec_activeSetDisplacement {s : State} {c lane} : exec (.activeSetDisplacement c lane) s = execActiveSetDisplacement c lane s := rfl
@[simp] theorem exec_trackedWriteLand {s : State} {sid n} : exec (.trackedWriteLand sid n) s = execTrackedWriteLand sid n s := rfl
@[simp] theorem exec_trapwaitRetry {s : State} {sid f} : exec (.trapwaitRetry sid f) s = execTrapwaitRetry sid f s := rfl
@[simp] theorem exec_userInterrupt {s : State} {sid} : exec (.userInterrupt sid) s = execUserInterrupt sid s := rfl
@[simp] theorem exec_threadDead {s : State} {sid t} : exec (.threadDead sid t) s = execThreadDead sid t s := rfl
@[simp] theorem exec_sleepExpire {s : State} {sid f} : exec (.sleepExpire sid f) s = execSleepExpire sid f s := rfl
@[simp] theorem exec_growGrant {s : State} {c} : exec (.growGrant c) s = execGrowGrant c s := rfl
@[simp] theorem exec_growWaitFail {s : State} {c} : exec (.growWaitFail c) s = execGrowWaitFail c s := rfl
@[simp] theorem exec_batchPlace {s : State} {launch c tsave ptes} : exec (.batchPlace launch c tsave ptes) s = execBatchPlace launch c tsave ptes s := rfl
@[simp] theorem exec_partitionWordWrite {s : State} {c w} : exec (.partitionWordWrite c w) s = execPartitionWordWrite c w s := rfl
@[simp] theorem exec_barrierArrivalMsg {s : State} {fromDie unit job team} : exec (.barrierArrivalMsg fromDie unit job team) s = execBarrierArrivalMsg fromDie unit job team s := rfl
@[simp] theorem exec_barrierRelease {s : State} {c slot} : exec (.barrierRelease c slot) s = execBarrierRelease c slot s := rfl
@[simp] theorem exec_barTimeout {s : State} {c slot} : exec (.barTimeout c slot) s = execBarTimeout c slot s := rfl
@[simp] theorem exec_engineQueueAdmit {s : State} {c gather} : exec (.engineQueueAdmit c gather) s = execEngineQueueAdmit c gather s := rfl
@[simp] theorem exec_engineCommandStart {s : State} {c gather} : exec (.engineCommandStart c gather) s = execEngineCommandStart c gather s := rfl
@[simp] theorem exec_sectorLand {s : State} {c cmd n} : exec (.sectorLand c cmd n) s = execSectorLand c cmd n s := rfl
@[simp] theorem exec_engineCommandFault {s : State} {c cmd} : exec (.engineCommandFault c cmd) s = execEngineCommandFault c cmd s := rfl
@[simp] theorem exec_queueWake {s : State} {c q} : exec (.queueWake c q) s = execQueueWake c q s := rfl
@[simp] theorem exec_reservationAdmit {s : State} {cl} : exec (.reservationAdmit cl) s = execReservationAdmit cl s := rfl
@[simp] theorem exec_matrixPassStart {s : State} {pair} : exec (.matrixPassStart pair) s = execMatrixPassStart pair s := rfl
@[simp] theorem exec_tileCommandStart {s : State} {pair} : exec (.tileCommandStart pair) s = execTileCommandStart pair s := rfl
@[simp] theorem exec_matrixRowCommit {s : State} {pair} : exec (.matrixRowCommit pair) s = execMatrixRowCommit pair s := rfl
@[simp] theorem exec_matrixPassSuspend {s : State} {pair} : exec (.matrixPassSuspend pair) s = execMatrixPassSuspend pair s := rfl
@[simp] theorem exec_matrixCommandComplete {s : State} {pair} : exec (.matrixCommandComplete pair) s = execMatrixCommandComplete pair s := rfl
@[simp] theorem exec_matrixEngineError {s : State} {pair} : exec (.matrixEngineError pair) s = execMatrixEngineError pair s := rfl
@[simp] theorem exec_fetchFault {s : State} {sid f} : exec (.fetchFault sid f) s = execFetchFault sid f s := rfl
@[simp] theorem exec_pageFaultService {s : State} {n res} : exec (.pageFaultService n res) s = execPageFaultService n res s := rfl
@[simp] theorem exec_regionRestart {s : State} {sid} : exec (.regionRestart sid) s = execRegionRestart sid s := rfl
@[simp] theorem exec_rsbEntryWait {s : State} {sid f} : exec (.rsbEntryWait sid f) s = execRsbEntryWait sid f s := rfl
@[simp] theorem exec_tinvAgentAck {s : State} {agent} : exec (.tinvAgentAck agent) s = execTinvAgentAck agent s := rfl
@[simp] theorem exec_tinvRegisterWrite {s : State} {asid whole base len} : exec (.tinvRegisterWrite asid whole base len) s = execTinvRegisterWrite asid whole base len s := rfl
@[simp] theorem exec_timingReplay {s : State} {c} : exec (.timingReplay c) s = execTimingReplay c s := rfl
@[simp] theorem exec_screenShadowEnd {s : State} {n sigs} : exec (.screenShadowEnd n sigs) s = execScreenShadowEnd n sigs s := rfl
@[simp] theorem exec_drain {s : State} {sid n} : exec (.drain sid n) s = execDrain sid n s := rfl
@[simp] theorem exec_propagate {s : State} {die pa} : exec (.propagate die pa) s = execPropagate die pa s := rfl
@[simp] theorem exec_fill {s : State} {c sector} : exec (.fill c sector) s = execFill c sector s := rfl
@[simp] theorem exec_drop {s : State} {c sector} : exec (.drop c sector) s = execDrop c sector s := rfl
@[simp] theorem exec_send {s : State} {c n} : exec (.send c n) s = execSend c n s := rfl
@[simp] theorem exec_wcbAgeSend {s : State} {c} : exec (.wcbAgeSend c) s = execWcbAgeSend c s := rfl
@[simp] theorem exec_apply {s : State} {src dst} : exec (.apply src dst) s = execApply src dst s := rfl
@[simp] theorem exec_transactionAck {s : State} {c} : exec (.transactionAck c) s = execTransactionAck c s := rfl
@[simp] theorem exec_markAccept {s : State} {c} : exec (.markAccept c) s = execMarkAccept c s := rfl
@[simp] theorem exec_vatCommandProcess {s : State} {vat n} : exec (.vatCommandProcess vat n) s = execVatCommandProcess vat n s := rfl
@[simp] theorem exec_waveMessageConsume {s : State} {vat n} : exec (.waveMessageConsume vat n) s = execWaveMessageConsume vat n s := rfl
@[simp] theorem exec_stepClose {s : State} {vat job cls} : exec (.stepClose vat job cls) s = execStepClose vat job cls s := rfl
@[simp] theorem exec_deckleSweep {s : State} {job cls} : exec (.deckleSweep job cls) s = execDeckleSweep job cls s := rfl
@[simp] theorem exec_fabricSweep {s : State} {job cls plane others} : exec (.fabricSweep job cls plane others) s = execFabricSweep job cls plane others s := rfl
@[simp] theorem exec_vatSelfRefreshEntry {s : State} {vat forced} : exec (.vatSelfRefreshEntry vat forced) s = execVatSelfRefreshEntry vat forced s := rfl
@[simp] theorem exec_vatSelfRefreshExit {s : State} {vat} : exec (.vatSelfRefreshExit vat) s = execVatSelfRefreshExit vat s := rfl
@[simp] theorem exec_vredReduce {s : State} {x} : exec (.vredReduce x) s = execVredReduce x s := rfl
@[simp] theorem exec_vcmdBank {s : State} {vat} : exec (.vcmdBank vat) s = execVcmdBank vat s := rfl
@[simp] theorem exec_flitRetry {s : State} {plane link bad} : exec (.flitRetry plane link bad) s = execFlitRetry plane link bad s := rfl
@[simp] theorem exec_linkFailed {s : State} {plane link lost} : exec (.linkFailed plane link lost) s = execLinkFailed plane link lost s := rfl
@[simp] theorem exec_moduleDown {s : State} {dst} : exec (.moduleDown dst) s = execModuleDown dst s := rfl
@[simp] theorem exec_blockedPacket {s : State} {plane sw port} : exec (.blockedPacket plane sw port) s = execBlockedPacket plane sw port s := rfl
@[simp] theorem exec_recoveryToken {s : State} {plane} : exec (.recoveryToken plane) s = execRecoveryToken plane s := rfl
@[simp] theorem exec_swaitReread {s : State} {sid f} : exec (.swaitReread sid f) s = execSwaitReread sid f s := rfl
@[simp] theorem exec_collAccept {s : State} {die} : exec (.collAccept die) s = execCollAccept die s := rfl
@[simp] theorem exec_collDigestCompare {s : State} {job gid others} : exec (.collDigestCompare job gid others) s = execCollDigestCompare job gid others s := rfl
@[simp] theorem exec_collCombine {s : State} {job gid others} : exec (.collCombine job gid others) s = execCollCombine job gid others s := rfl
@[simp] theorem exec_collComplete {s : State} {job gid done} : exec (.collComplete job gid done) s = execCollComplete job gid done s := rfl
@[simp] theorem exec_couchAssign {s : State} {job gid others} : exec (.couchAssign job gid others) s = execCouchAssign job gid others s := rfl
@[simp] theorem exec_sqtail {s : State} {fn q v host} : exec (.sqtail fn q v host) s = execSqtail fn q v host s := rfl
@[simp] theorem exec_cqhead {s : State} {fn q v} : exec (.cqhead fn q v) s = execCqhead fn q v s := rfl
@[simp] theorem exec_enable {s : State} {fn q v} : exec (.enable fn q v) s = execEnable fn q v s := rfl
@[simp] theorem exec_queueFetch {s : State} {fn q} : exec (.queueFetch fn q) s = execQueueFetch fn q s := rfl
@[simp] theorem exec_nopEntry {s : State} {fn q} : exec (.nopEntry fn q) s = execNopEntry fn q s := rfl
@[simp] theorem exec_launch {s : State} {who q job asid} : exec (.launch who q job asid) s = execLaunch who q job asid s := rfl
@[simp] theorem exec_snapshot {s : State} {fn q} : exec (.snapshot fn q) s = execSnapshot fn q s := rfl
@[simp] theorem exec_commit {s : State} {fn q} : exec (.commit fn q) s = execCommit fn q s := rfl
@[simp] theorem exec_bill {s : State} {fn q} : exec (.bill fn q) s = execBill fn q s := rfl
@[simp] theorem exec_completionWrite {s : State} {fn q} : exec (.completionWrite fn q) s = execCompletionWrite fn q s := rfl
@[simp] theorem exec_jobEnd {s : State} {job} : exec (.jobEnd job) s = execJobEnd job s := rfl
@[simp] theorem exec_pasidTeardown {s : State} {pasid} : exec (.pasidTeardown pasid) s = execPasidTeardown pasid s := rfl
@[simp] theorem exec_teardownTimeout {s : State} {pasid} : exec (.teardownTimeout pasid) s = execTeardownTimeout pasid s := rfl
@[simp] theorem exec_fairSharePlace {s : State} {die tsave ptes} : exec (.fairSharePlace die tsave ptes) s = execFairSharePlace die tsave ptes s := rfl
@[simp] theorem exec_latencyBoundExpire {s : State} {launch} : exec (.latencyBoundExpire launch) s = execLatencyBoundExpire launch s := rfl
@[simp] theorem exec_batchSave {s : State} {batch} : exec (.batchSave batch) s = execBatchSave batch s := rfl
@[simp] theorem exec_batchResume {s : State} {batch c tsave ptes} : exec (.batchResume batch c tsave ptes) s = execBatchResume batch c tsave ptes s := rfl
@[simp] theorem exec_batchFlush {s : State} {batch} : exec (.batchFlush batch) s = execBatchFlush batch s := rfl
@[simp] theorem exec_batchDrain {s : State} {batch} : exec (.batchDrain batch) s = execBatchDrain batch s := rfl
@[simp] theorem exec_firmwareTrapService {s : State} {sid f} : exec (.firmwareTrapService sid f) s = execFirmwareTrapService sid f s := rfl
@[simp] theorem exec_firmwareResume {s : State} {sid f} : exec (.firmwareResume sid f) s = execFirmwareResume sid f s := rfl
@[simp] theorem exec_debugResume {s : State} {sid f endJob} : exec (.debugResume sid f endJob) s = execDebugResume sid f endJob s := rfl
@[simp] theorem exec_mailboxMessage {s : State} {src dst msg} : exec (.mailboxMessage src dst msg) s = execMailboxMessage src dst msg s := rfl
@[simp] theorem exec_accessTableWrite {s : State} {unit master win w} : exec (.accessTableWrite unit master win w) s = execAccessTableWrite unit master win w s := rfl
@[simp] theorem exec_hostAccessDenied {s : State} {fn unit pa wr} : exec (.hostAccessDenied fn unit pa wr) s = execHostAccessDenied fn unit pa wr s := rfl
@[simp] theorem exec_moduleReset {s : State} {recordsOk id} : exec (.moduleReset recordsOk id) s = execModuleReset recordsOk id s := rfl
@[simp] theorem exec_registerWrite {s : State} {r v} : exec (.registerWrite r v) s = execRegisterWrite r v s := rfl
@[simp] theorem exec_wavePortForward {s : State} {port inbound n} : exec (.wavePortForward port inbound n) s = execWavePortForward port inbound n s := rfl
@[simp] theorem exec_hostCxlMemAccess {s : State} {fn unit pa len wr} : exec (.hostCxlMemAccess fn unit pa len wr) s = execHostCxlMemAccess fn unit pa len wr s := rfl
@[simp] theorem exec_translationResponse {s : State} {pasid} : exec (.translationResponse pasid) s = execTranslationResponse pasid s := rfl
@[simp] theorem exec_pkgUncorr {s : State} {jobs} : exec (.pkgUncorr jobs) s = execPkgUncorr jobs s := rfl
@[simp] theorem exec_hartDenied {s : State} {hart unit pa wr} : exec (.hartDenied hart unit pa wr) s = execHartDenied hart unit pa wr s := rfl

end Sys2Proof.Machine
end

