-- ==== Sys2Proof/Laws/Sparse.lean ====
section
/-!
SUPPORT. Laws of the two table shapes: what a read gives after a write, at the key and elsewhere, and that every
operation on a sparse table keeps its canonical form. They need no assumption on the table they start from.
-/
namespace Sys2Proof.Machine

variable {α β : Type} {w : Nat}

theorem nmGet_dropKey (m : NMap α) (a b : Nat) : nmGet (dropKey m a) b = if b = a then none else nmGet m b := by
  induction m with
  | nil => simp [dropKey, nmGet]
  | cons e r ih =>
    obtain ⟨k, v⟩ := e
    simp only [dropKey]
    split
    · next h => subst h; rw [ih]; split <;> simp_all [nmGet]
    · next h =>
      simp only [nmGet, ih]
      split
      · next h2 => subst h2; simp [Ne.symm h]
      · rfl

theorem nmGet_insKey (m : NMap α) (a b : Nat) (x : α) (h : nmGet m a = none) :
    nmGet (insKey m a x) b = if b = a then some x else nmGet m b := by
  induction m with
  | nil => simp [insKey, nmGet]
  | cons e r ih =>
    obtain ⟨k, v⟩ := e
    simp only [nmGet] at h
    split at h
    · cases h
    · next hk =>
      simp only [insKey]
      split
      · simp [nmGet]
      · simp only [nmGet, ih h]
        split
        · next h2 => subst h2; simp [Ne.symm hk]
        · rfl

/-- Read after write of a record table. -/
theorem nmGet_nmSet (m : NMap α) (a b : Nat) (x : α) : nmGet (nmSet m a x) b = if b = a then some x else nmGet m b := by
  have h : nmGet (dropKey m a) a = none := by simp [nmGet_dropKey]
  rw [nmSet, nmGet_insKey _ _ _ _ h, nmGet_dropKey]
  split <;> simp_all

@[simp] theorem nmGet_nmSet_self (m : NMap α) (a : Nat) (x : α) : nmGet (nmSet m a x) a = some x := by simp [nmGet_nmSet]

theorem nmGet_nmSet_ne (m : NMap α) {a b : Nat} (x : α) (h : b ≠ a) : nmGet (nmSet m a x) b = nmGet m b := by
  simp [nmGet_nmSet, h]

theorem nmGet_nmDel (m : NMap α) (a b : Nat) : nmGet (nmDel m a) b = if b = a then none else nmGet m b := nmGet_dropKey m a b

/-- Reading a record table after one record has been changed. -/
theorem nmGet_nmUpd (m : NMap α) (a b : Nat) (f : α → α) : nmGet (nmUpd m a f) b = if b = a then (nmGet m b).map f else nmGet m b := by
  unfold nmUpd
  split
  · next x hx => rw [nmGet_nmSet]; split <;> simp_all
  · next hx => split <;> simp_all

@[simp] theorem nmGet_nmUpd_self (m : NMap α) (a : Nat) (f : α → α) : nmGet (nmUpd m a f) a = (nmGet m a).map f := by
  simp [nmGet_nmUpd]

theorem nmGet_nmUpd_ne (m : NMap α) {a b : Nat} (f : α → α) (h : b ≠ a) : nmGet (nmUpd m a f) b = nmGet m b := by
  simp [nmGet_nmUpd, h]

/-- Reading a table whose every record has been changed in place. -/
theorem nmGet_map (m : NMap α) (g : Nat × α → β) (b : Nat) :
    nmGet (m.map fun e => (e.1, g e)) b = (nmGet m b).map fun x => g (b, x) := by
  induction m with
  | nil => rfl
  | cons e r ih =>
    obtain ⟨k, v⟩ := e
    simp only [List.map_cons, nmGet, ih]
    split
    · next h => subst h; rfl
    · rfl

theorem spGet_dropKey (m : Sparse w) (a b : Nat) : spGet (dropKey m a) b = if b = a then 0#w else spGet m b := by
  induction m with
  | nil => simp [dropKey, spGet]
  | cons e r ih =>
    obtain ⟨k, v⟩ := e
    simp only [dropKey]
    split
    · next h => subst h; rw [ih]; split <;> simp_all [spGet]
    · next h =>
      simp only [spGet, ih]
      split
      · next h2 => subst h2; simp [Ne.symm h]
      · rfl

theorem spGet_insKey (m : Sparse w) (a b : Nat) (x : BitVec w) (h : ∀ v, (a, v) ∉ m) :
    spGet (insKey m a x) b = if b = a then x else spGet m b := by
  induction m with
  | nil => simp [insKey, spGet]
  | cons e r ih =>
    obtain ⟨k, v⟩ := e
    have hk : a ≠ k := fun e => h v (by simp [e])
    have hr : ∀ v, (a, v) ∉ r := fun v' hv => h v' (by simp [hv])
    simp only [insKey]
    split
    · simp [spGet]
    · simp only [spGet, ih hr]
      split
      · next h2 => subst h2; simp [Ne.symm hk]
      · rfl

theorem not_mem_dropKey (m : List (Nat × α)) (a : Nat) (v : α) : (a, v) ∉ dropKey m a := by
  induction m with
  | nil => simp [dropKey]
  | cons e r ih =>
    obtain ⟨k, x⟩ := e
    simp only [dropKey]
    split
    · exact ih
    · next h => simp [ih, h]

/-- Read after write of a sparse table. -/
theorem spGet_spPut (m : Sparse w) (a b : Nat) (x : BitVec w) : spGet (spPut m a x) b = if b = a then x else spGet m b := by
  unfold spPut
  split
  · next h => rw [spGet_dropKey]; split <;> simp_all
  · rw [spGet_insKey _ _ _ _ (not_mem_dropKey m a), spGet_dropKey]; split <;> simp_all

@[simp] theorem spGet_spPut_self (m : Sparse w) (a : Nat) (x : BitVec w) : spGet (spPut m a x) a = x := by simp [spGet_spPut]

theorem spGet_spPut_ne (m : Sparse w) {a b : Nat} (x : BitVec w) (h : b ≠ a) : spGet (spPut m a x) b = spGet m b := by
  simp [spGet_spPut, h]

/-! ## The canonical form -/

/-- A bound on which every key of a table lies above. -/
def boundBelow (b : Option Nat) (k : Nat) : Bool := match b with | none => true | some x => decide (x < k)

theorem keysAbove_cons (k : Nat) (v : α) (r : List (Nat × α)) (b : Option Nat) :
    keysAbove ((k, v) :: r) b = (boundBelow b k && keysAbove r (some k)) := by cases b <;> rfl

theorem keysAbove_weaken {r : List (Nat × α)} {k : Nat} {b : Option Nat} (hb : boundBelow b k = true) (h : keysAbove r (some k) = true) :
    keysAbove r b = true := by
  cases r with
  | nil => rfl
  | cons e r =>
    obtain ⟨j, v⟩ := e
    rw [keysAbove_cons] at h ⊢
    cases b with
    | none => simp_all [boundBelow]
    | some x => simp [boundBelow] at *; exact ⟨by omega, h.2⟩

theorem keysAbove_dropKey {m : List (Nat × α)} {b : Option Nat} (a : Nat) (h : keysAbove m b = true) : keysAbove (dropKey m a) b = true := by
  induction m generalizing b with
  | nil => rfl
  | cons e r ih =>
    obtain ⟨k, v⟩ := e
    rw [keysAbove_cons, Bool.and_eq_true] at h
    simp only [dropKey]
    split
    · exact ih (keysAbove_weaken h.1 h.2)
    · rw [keysAbove_cons, h.1, ih h.2]; rfl

theorem keysAbove_insKey {m : List (Nat × α)} {b : Option Nat} {a : Nat} (x : α) (ha : ∀ v, (a, v) ∉ m) (hb : boundBelow b a = true)
    (h : keysAbove m b = true) : keysAbove (insKey m a x) b = true := by
  induction m generalizing b with
  | nil => simp [insKey, keysAbove_cons, hb]; rfl
  | cons e r ih =>
    obtain ⟨k, v⟩ := e
    rw [keysAbove_cons, Bool.and_eq_true] at h
    have hk : a ≠ k := fun e => ha v (by simp [e])
    simp only [insKey]
    split
    · next hl => rw [keysAbove_cons, keysAbove_cons, hb, h.2]; simp [boundBelow, hl]
    · rw [keysAbove_cons, h.1, ih (fun v' hv => ha v' (by simp [hv])) (by simp [boundBelow]; omega) h.2]; rfl

theorem mem_dropKey {m : List (Nat × α)} {a : Nat} {e : Nat × α} (h : e ∈ dropKey m a) : e ∈ m := by
  induction m with
  | nil => simp [dropKey] at h
  | cons x r ih =>
    obtain ⟨k, v⟩ := x
    simp only [dropKey] at h
    split at h
    · simp [ih h]
    · simp only [List.mem_cons] at h ⊢; rcases h with h | h
      · exact .inl h
      · exact .inr (ih h)

theorem mem_insKey {m : List (Nat × α)} {a : Nat} {x : α} {e : Nat × α} (h : e ∈ insKey m a x) : e = (a, x) ∨ e ∈ m := by
  induction m with
  | nil => simpa [insKey] using h
  | cons y r ih =>
    obtain ⟨k, v⟩ := y
    simp only [insKey] at h
    split at h
    · simpa using h
    · simp only [List.mem_cons] at h ⊢
      rcases h with h | h
      · exact .inr (.inl h)
      · rcases ih h with h | h
        · exact .inl h
        · exact .inr (.inr h)

/-- A write keeps the canonical form: the sparse table stays ascending and lists no zero. -/
theorem spWf_spPut {m : Sparse w} (a : Nat) (x : BitVec w) (h : spWf m = true) : spWf (spPut m a x) = true := by
  simp only [spWf, Bool.and_eq_true, List.all_eq_true] at h ⊢
  obtain ⟨hk, hz⟩ := h
  unfold spPut
  split
  · exact ⟨keysAbove_dropKey a hk, fun e he => hz e (mem_dropKey he)⟩
  · next hx =>
    refine ⟨keysAbove_insKey x (not_mem_dropKey m a) rfl (keysAbove_dropKey a hk), fun e he => ?_⟩
    rcases mem_insKey he with rfl | he
    · simpa using hx
    · exact hz e (mem_dropKey he)

theorem dropKey_dropKey (m : NMap α) (a : Nat) : dropKey (dropKey m a) a = dropKey m a := by
  induction m with
  | nil => rfl
  | cons e r ih =>
    obtain ⟨k, v⟩ := e
    by_cases h : a = k
    · subst h; simp [dropKey, ih]
    · simp [dropKey, h, ih]

theorem dropKey_insKey (m : NMap α) (a : Nat) (x : α) : dropKey (insKey m a x) a = dropKey m a := by
  induction m with
  | nil => simp [insKey, dropKey]
  | cons e r ih =>
    obtain ⟨k, v⟩ := e
    simp only [insKey]
    split
    · next h => simp [dropKey, Nat.ne_of_lt h]
    · by_cases h : a = k
      · subst h; simp [dropKey, ih]
      · simp [dropKey, h, ih]

/-- A second write at a key replaces the first. -/
@[simp] theorem nmSet_nmSet (m : NMap α) (a : Nat) (x y : α) : nmSet (nmSet m a x) a y = nmSet m a y := by
  simp only [nmSet, dropKey_insKey, dropKey_dropKey]

@[simp] theorem nmUpd_nmSet (m : NMap α) (a : Nat) (x : α) (f : α → α) : nmUpd (nmSet m a x) a f = nmSet m a (f x) := by
  simp [nmUpd]

theorem nmUpd_of_some {m : NMap α} {a : Nat} {x : α} (h : nmGet m a = some x) (f : α → α) : nmUpd m a f = nmSet m a (f x) := by
  simp [nmUpd, h]

@[simp] theorem nmUpd_nmUpd (m : NMap α) (a : Nat) (f g : α → α) : nmUpd (nmUpd m a f) a g = nmUpd m a (fun x => g (f x)) := by
  cases h : nmGet m a <;> simp [nmUpd, h]

end Sys2Proof.Machine
end

