-- ==== Sys2Proof/Laws/Threads.lean ====
section
/-!
SUPPORT. Thread masks and the acting threads: a mask holds exactly the threads it was made of, and an instruction's
acting threads are some of the live threads of its fragment, in ascending order.
-/
namespace Sys2Proof.Machine

theorem getLsbD_maskFold (l : List Nat) (m : W32) (t : Nat) :
    (l.foldl (fun m t => m ||| (1#32 <<< t)) m).getLsbD t = (m.getLsbD t || (decide (t < 32) && l.contains t)) := by
  induction l generalizing m with
  | nil => simp
  | cons a l ih =>
    rw [List.foldl_cons, ih, BitVec.getLsbD_or]
    by_cases ht : t < 32
    · by_cases h : t = a
      · subst h; simp [ht]
      · have : (1#32 <<< a).getLsbD t = false := by
          simp only [BitVec.getLsbD_shiftLeft, BitVec.getLsbD_one]
          by_cases hl : t < a
          · simp [hl]
          · simp; omega
        simp [this, h]
    · simp [ht, BitVec.getLsbD_of_ge m t (by omega), BitVec.getLsbD_of_ge (1#32 <<< a) t (by omega)]

/-- A thread is in the mask of a list exactly when it is a thread of the list. -/
theorem inMask_maskOf (l : List Nat) (t : Nat) : inMask (maskOf l) t = (decide (t < 32) && l.contains t) := by
  simpa [inMask, maskOf] using getLsbD_maskFold l 0#32 t

/-- A mask's threads are the list that made it, where that is a choice among the threads in order. -/
theorem maskThreads_maskOf (P : Nat → Bool) : maskThreads (maskOf (threads.filter P)) = threads.filter P := by
  refine List.filter_congr fun t ht => ?_
  have h32 : t < 32 := List.mem_range.1 ht
  rw [inMask_maskOf]
  simp [h32, ht]

theorem Ctx.lives_eq (c : Ctx) : c.lives = threads.filter fun t => inMask c.fr.mask t && c.st.sp.live t := by
  simp only [Ctx.lives, maskThreads, List.filter_filter, Bool.and_comm]

theorem nodup_threads : threads.Nodup := List.nodup_range

theorem filter_one {l : List Nat} (h : l.Nodup) {t : Nat} (ht : t ∈ l) : l.filter (fun x => x == t) = [t] := by
  induction l with
  | nil => simp at ht
  | cons a l ih =>
    rw [List.nodup_cons] at h
    by_cases e : a = t
    · subst e; simp only [List.filter_cons, beq_self_eq_true, if_true]
      rw [List.filter_eq_nil_iff.2]
      intro x hx; simp; rintro rfl; exact h.1 hx
    · simp only [List.filter_cons]; simp [e, ih h.2 (by simpa [Ne.symm e] using ht)]

/-- The acting threads are a choice among the live threads of the fragment, in order (R8, R42). -/
theorem Ctx.acts_eq (c : Ctx) (h : Hdr) : ∃ P, c.acts h = threads.filter P ∧ ∀ t, P t = true → c.st.sp.live t = true ∧ inMask c.fr.mask t = true := by
  unfold Ctx.acts
  split
  · have hl : c.leader = (threads.filter fun t => inMask c.fr.mask t && c.st.sp.live t).head? := by rw [Ctx.leader, c.lives_eq]
    cases e : c.leader with
    | none => exact ⟨fun _ => false, by simp, by simp⟩
    | some t =>
      have hm : t ∈ threads.filter fun t => inMask c.fr.mask t && c.st.sp.live t := List.mem_of_head? (hl ▸ e)
      rw [List.mem_filter] at hm
      dsimp only
      split
      · refine ⟨(· == t), (filter_one nodup_threads hm.1).symm, fun x hx => ?_⟩
        obtain rfl : x = t := by simpa using hx
        simpa [and_comm] using hm.2
      · exact ⟨fun _ => false, by simp, by simp⟩
  · refine ⟨fun t => inMask c.fr.mask t && c.st.sp.live t && c.guard h t, ?_, fun t ht => ?_⟩
    · rw [c.lives_eq, List.filter_filter]; exact List.filter_congr fun t _ => by simp [Bool.and_comm, Bool.and_left_comm]
    · simp only [Bool.and_eq_true] at ht; exact ⟨ht.1.2, ht.1.1⟩

theorem Ctx.acts_live {c : Ctx} {h : Hdr} {t : Nat} (ht : t ∈ c.acts h) : c.st.sp.live t = true := by
  obtain ⟨P, e, k⟩ := c.acts_eq h
  rw [e, List.mem_filter] at ht; exact (k t ht.2).1

theorem Ctx.maskThreads_acts (c : Ctx) (h : Hdr) : (maskThreads (maskOf (c.acts h))).filter c.st.sp.live = c.acts h := by
  obtain ⟨P, e, k⟩ := c.acts_eq h
  rw [e, maskThreads_maskOf, List.filter_filter]
  exact List.filter_congr fun t _ => by cases hp : P t <;> simp [hp, (k t · |>.1)]

/-! ## Settling -/

theorem Strand.apply_fold (ps : List Pend) (st : Strand) : ∃ r sp, ps.foldl Strand.apply st = { st with r := r, sp := sp } := by
  induction ps generalizing st with
  | nil => exact ⟨st.r, st.sp, rfl⟩
  | cons p ps ih => obtain ⟨r, sp, e⟩ := ih (st.apply p); exact ⟨r, sp, e.trans rfl⟩

/-- Landing pending writes changes the registers, the sticky flags and the scoreboard only. -/
theorem Strand.landIf_shape (st : Strand) (g : Pend → Bool) : ∃ r sp ps, st.landIf g = { st with r := r, sp := sp, pend := ps } := by
  obtain ⟨r, sp, e⟩ := Strand.apply_fold (st.pend.filter g) st
  exact ⟨r, sp, _, by rw [Strand.landIf, e]⟩

/-- So does deciding the uncovered reads of R48. -/
theorem Strand.settle_shape (rs : List RegRef) (st : Strand) (ctr : Nat) :
    ∃ r sp ps, (st.settle ctr rs).1 = { st with r := r, sp := sp, pend := ps } := by
  induction rs generalizing st ctr with
  | nil => exact ⟨st.r, st.sp, st.pend, rfl⟩
  | cons q rs ih =>
    unfold Strand.settle
    split
    · exact ih st ctr
    · next id _ =>
      split
      · obtain ⟨r, sp, ps, e⟩ := ih (st.landUpTo id) (ctr + 1)
        obtain ⟨r', sp', ps', e'⟩ := st.landIf_shape fun p => !p.tracked && p.id ≤ id
        exact ⟨r, sp, ps, by rw [e]; unfold Strand.landUpTo; rw [e']⟩
      · exact ih st (ctr + 1)

end Sys2Proof.Machine
end

