-- ==== Sys2Proof/Laws/Frame.lean ====
section
/-!
SUPPORT. Register cells under writes: what one write changes, and what the landings of R43, R44 and R48 keep of a strand.
-/
namespace Sys2Proof
open Sys2Proof.Machine

theorem lkey_inj {n t n' t' : Nat} (h : t < 32) (h' : t' < 32) (e : lkey n t = lkey n' t') : n = n' ∧ t = t' := by
  unfold lkey at e; omega

theorem inMask_set (m : W32) {i t : Nat} (b : Bool) (ht : t < 32) :
    inMask (if b then m ||| (1#32 <<< i) else m &&& ~~~(1#32 <<< i)) t = if t = i then b else inMask m t := by
  unfold inMask
  cases b <;> simp [ht] <;> by_cases h : t = i <;> simp [h] <;> omega

/-- A write changes its own cell only (R50, R74). -/
theorem regs_wr_other (r : Regs) {w : Write} {x : RC × Nat × Nat} (hw : cellIn (cellOf w)) (hx : cellIn x) (h : cellOf w ≠ x) :
    cellVal (r.wr w) x = cellVal r x := by
  obtain ⟨c, n, t, v⟩ := w
  obtain ⟨c', n', t'⟩ := x
  cases c <;> cases c' <;> simp only [cellIn, cellOf, ne_eq, Prod.mk.injEq, true_and] at hw hx h <;>
    simp only [Regs.wr, cellVal, Regs.rdV, Regs.rdK, Regs.rdM, Regs.bitP, Regs.rdP]
  case v.v => rw [spGet_spPut_ne]; exact fun e => h ⟨(lkey_inj hx hw e).1.symm, (lkey_inj hx hw e).2.symm⟩
  case m.m => rw [spGet_spPut_ne]; exact fun e => h ⟨(lkey_inj hx hw e).1.symm, (lkey_inj hx hw e).2.symm⟩
  case k.k => rw [spGet_spPut_ne]; exact fun e => h ⟨e.symm, by omega⟩
  case a.a => rw [spGet_spPut_ne]; omega
  case p.p =>
    by_cases h7 : n' = 7
    · simp [h7]
    · by_cases h7' : n = 7
      · simp [h7, h7']
      · simp only [h7, h7', if_false]
        by_cases e : n' = n
        · subst e
          rw [spGet_spPut_self]
          have : t' ≠ t := fun e => h ⟨rfl, e.symm⟩
          have k := inMask_set (spGet r.p n') (i := t) (t := t') (decide (v ≠ 0#64)) hx
          rw [if_neg this] at k
          rw [← k]
          by_cases hv : v = 0#64 <;> simp [hv]
        · rw [spGet_spPut_ne _ _ e]
  all_goals (by_cases h7 : n = 7 <;> simp [h7])

/-- What a write puts into its own cell (R50, R74). -/
theorem regs_wr_self (r : Regs) (w : Write) (hw : cellIn (cellOf w)) :
    (w.c = .v → ((r.wr w).rdV w.n w.t).toNat = w.x.toNat % 2 ^ 32) ∧ (w.c = .k → (r.wr w).rdK w.n = w.x) ∧
    (w.c = .m → (r.wr w).rdM w.n w.t = w.x) ∧ (w.c = .a → spGet (r.wr w).a (4096 * w.n + w.t) = w.x) ∧
    (w.c = .p → w.n ≠ 7 → (r.wr w).bitP w.n w.t = decide (w.x ≠ 0#64)) := by
  obtain ⟨c, n, t, v⟩ := w
  refine ⟨fun e => ?_, fun e => ?_, fun e => ?_, fun e => ?_, fun e h7 => ?_⟩ <;> simp only at e <;> subst e
  · simp [Regs.wr, Regs.rdV]
  · simp [Regs.wr, Regs.rdK]
  · simp [Regs.wr, Regs.rdM]
  · simp [Regs.wr]
  · simp only [cellIn, cellOf] at hw
    simp only at h7
    have k := inMask_set (spGet r.p n) (i := t) (t := t) (decide (v ≠ 0#64)) hw
    rw [if_pos rfl] at k
    simp only [Regs.wr, Regs.bitP, Regs.rdP, h7, if_false, spGet_spPut_self]
    rw [← k]
    by_cases hv : v = 0#64 <;> simp [hv]

/-- The strand keeps, of a strand before, everything but cells that the listed writes write and sticky flags that were 0. -/
structure Kept (W : List Write) (a b : Strand) : Prop where
  cells : ∀ x, cellIn x → (∀ w ∈ W, cellOf w ≠ x) → cellVal b.r x = cellVal a.r x
  valloc : b.r.valloc = a.r.valloc
  kalloc : b.r.kalloc = a.r.kalloc
  malloc : b.r.malloc = a.r.malloc
  aalloc : b.r.aalloc = a.r.aalloc
  special : { b.sp with fflag := a.sp.fflag, mflag := a.sp.mflag } = a.sp
  fflag : a.sp.fflag &&& b.sp.fflag = a.sp.fflag
  mflag : a.sp.mflag &&& b.sp.mflag = a.sp.mflag

theorem Kept.refl (W : List Write) (a : Strand) : Kept W a a :=
  ⟨fun _ _ _ => rfl, rfl, rfl, rfl, rfl, rfl, BitVec.and_self, BitVec.and_self⟩

theorem Kept.trans {W : List Write} {a b c : Strand} (h : Kept W a b) (k : Kept W b c) : Kept W a c where
  cells x hx hw := (k.cells x hx hw).trans (h.cells x hx hw)
  valloc := k.valloc.trans h.valloc
  kalloc := k.kalloc.trans h.kalloc
  malloc := k.malloc.trans h.malloc
  aalloc := k.aalloc.trans h.aalloc
  special := by
    have h1 := h.special
    have k1 := k.special
    rw [← h1, ← k1]
  fflag := by rw [← h.fflag, BitVec.and_assoc, k.fflag]
  mflag := by rw [← h.mflag, BitVec.and_assoc, k.mflag]

/-- Two strands with the same registers and special registers are kept alike. -/
theorem Kept.of_regs {W : List Write} {a b : Strand} (h1 : b.r = a.r) (h2 : b.sp = a.sp) : Kept W a b := by
  have := Kept.refl W a
  constructor <;> (try rw [h1]) <;> (try rw [h2]) <;> first | rfl | exact BitVec.and_self | exact fun _ _ _ => rfl

theorem regs_wrAll_cells {W : List Write} (ws : List Write) : ∀ r : Regs, (∀ w ∈ ws, w ∈ W) → (∀ w ∈ W, cellIn (cellOf w)) →
    (∀ x, cellIn x → (∀ w ∈ W, cellOf w ≠ x) → cellVal (r.wrAll ws) x = cellVal r x) ∧ (r.wrAll ws).valloc = r.valloc ∧
    (r.wrAll ws).kalloc = r.kalloc ∧ (r.wrAll ws).malloc = r.malloc ∧ (r.wrAll ws).aalloc = r.aalloc := by
  induction ws with
  | nil => intro r _ _; exact ⟨fun _ _ _ => rfl, rfl, rfl, rfl, rfl⟩
  | cons w ws ih =>
    intro r hs hW
    obtain ⟨h1, h2, h3, h4, h5⟩ := ih (r.wr w) (fun y hy => hs y (List.mem_cons_of_mem _ hy)) hW
    have hm := hs w List.mem_cons_self
    have a : (r.wr w).valloc = r.valloc ∧ (r.wr w).kalloc = r.kalloc ∧ (r.wr w).malloc = r.malloc ∧ (r.wr w).aalloc = r.aalloc := by
      unfold Regs.wr; split <;> (try split) <;> exact ⟨rfl, rfl, rfl, rfl⟩
    exact ⟨fun x hx hw => (h1 x hx hw).trans (regs_wr_other r (hW w hm) hx (hw w hm)), h2.trans a.1, h3.trans a.2.1, h4.trans a.2.2.1, h5.trans a.2.2.2⟩

theorem flags_kept (sp : Spec) (fl : Flags) (mfl : Bool) :
    { sp.addFlags fl mfl with fflag := sp.fflag, mflag := sp.mflag } = sp ∧ sp.fflag &&& (sp.addFlags fl mfl).fflag = sp.fflag ∧
    sp.mflag &&& (sp.addFlags fl mfl).mflag = sp.mflag := by
  refine ⟨rfl, ?_, ?_⟩
  · show sp.fflag &&& (sp.fflag ||| fl) = sp.fflag
    ext i hi; simp; exact Or.inl
  · show sp.mflag &&& (if mfl then 1#1 else sp.mflag) = sp.mflag
    cases mfl
    · exact BitVec.and_self
    · have : ∀ x : BitVec 1, x &&& 1#1 = x := by decide
      exact this _

/-- Results written at once (R43): the listed writes and flags. -/
theorem kept_writes {W ws : List Write} (st : Strand) (fl : Flags) (mfl : Bool) (hs : ∀ w ∈ ws, w ∈ W) (hW : ∀ w ∈ W, cellIn (cellOf w)) :
    Kept W st { st with r := st.r.wrAll ws, sp := st.sp.addFlags fl mfl } := by
  obtain ⟨h1, h2, h3, h4, h5⟩ := regs_wrAll_cells ws st.r hs hW
  obtain ⟨f1, f2, f3⟩ := flags_kept st.sp fl mfl
  exact ⟨h1, h2, h3, h4, h5, f1, f2, f3⟩

theorem kept_applies {W : List Write} (hW : ∀ w ∈ W, cellIn (cellOf w)) (ps : List Pend) :
    ∀ st : Strand, (∀ p ∈ ps, ∀ w ∈ p.writes, w ∈ W) → Kept W st (ps.foldl Strand.apply st) := by
  induction ps with
  | nil => intro st _; exact .refl _ _
  | cons p ps ih =>
    intro st hs
    exact (kept_writes st p.fl p.mfl (hs p List.mem_cons_self) hW).trans (ih _ fun q hq => hs q (List.mem_cons_of_mem _ hq))

/-- Landings write only what pending writes of the strand write (R43, R44). -/
theorem kept_landIf {W : List Write} (hW : ∀ w ∈ W, cellIn (cellOf w)) (st : Strand) (g : Pend → Bool)
    (hs : ∀ p ∈ st.pend, ∀ w ∈ p.writes, w ∈ W) : Kept W st (st.landIf g) ∧ ∀ p ∈ (st.landIf g).pend, p ∈ st.pend :=
  ⟨(kept_applies hW (st.pend.filter g) st fun p hp => hs p (List.mem_filter.1 hp).1).trans (.of_regs rfl rfl), fun _ hp => (List.mem_filter.1 hp).1⟩

/-- Deciding the uncovered reads of R48 lands pending writes only. -/
theorem kept_settle {W : List Write} (hW : ∀ w ∈ W, cellIn (cellOf w)) (rs : List RegRef) : ∀ (st : Strand) (ctr : Nat),
    (∀ p ∈ st.pend, ∀ w ∈ p.writes, w ∈ W) → Kept W st (st.settle ctr rs).1 ∧ ∀ p ∈ (st.settle ctr rs).1.pend, p ∈ st.pend := by
  induction rs with
  | nil => intro st ctr _; exact ⟨.refl _ _, fun _ h => h⟩
  | cons q rs ih =>
    intro st ctr hs
    unfold Strand.settle
    split
    · exact ih st ctr hs
    · next id _ =>
      split
      · obtain ⟨k1, k2⟩ := kept_landIf hW st (fun p => !p.tracked && p.id ≤ id) hs
        obtain ⟨k3, k4⟩ := ih (st.landUpTo id) (ctr + 1) fun p hp => hs p (k2 p hp)
        exact ⟨k1.trans k3, fun p hp => k2 p (k4 p hp)⟩
      · exact ih st (ctr + 1) hs

/-- A fixed-latency result keeps the rest of the strand (R43). -/
theorem kept_result {W ws : List Write} (hW : ∀ w ∈ W, cellIn (cellOf w)) (st : Strand) (f win lat : Nat) (marks : List RegRef) (fl : Flags)
    (mfl : Bool) (hw : ∀ w ∈ ws, w ∈ W) (hs : ∀ p ∈ st.pend, ∀ w ∈ p.writes, w ∈ W) : Kept W st (st.result f win lat marks ws fl mfl) := by
  unfold Strand.result; split
  · obtain ⟨k1, _⟩ := kept_landIf hW st (fun p => !p.tracked && p.names marks) hs
    exact k1.trans (kept_writes _ fl mfl hw hW)
  · exact .of_regs rfl rfl

end Sys2Proof
end

