-- ==== Sys2Proof/Laws/Issue.lean ====
section
/-!
SUPPORT. What the checks of issue give when an instruction executes normally, once for every instruction: the body runs
on the state that `issued` describes, an instruction whose effect is results ends in laneState or trackState, and the region
end of a sound strand goes through.
-/
namespace Sys2Proof
open Sys2Proof.Machine

variable {h : Hdr} {u : Uses} {s : State} {st : Strand} {c : Ctx}

/-- An instruction that executes normally runs its body on the issued state (R59). -/
theorem issue_of_issues (I : Issues h u s st c) (body : Ctx → State → Out) : issue h u s body = body c (issued h u s st c) := by
  obtain ⟨h1, h2, h3, h4, h5, h6, h7, h8, h9, h10, h11, h12⟩ := I
  obtain ⟨sid, f, cst, fr, win, kb⟩ := c
  simp only at h1 h2 h3 h4 h5 h6
  subst h5 h6 h4
  simp only [issue, h1, h2, h3, issueChecks]
  simp only [guardRefs, issued] at *
  have e1 : (State.now { s with cur := none } st) = s.now st := rfl
  have e2 : (State.job? { s with cur := none } st) = s.job? st := rfl
  have e3 : (State.keyBase { s with cur := none } st) = s.keyBase st := rfl
  simp only [e1, e2, e3, h7, h8, h9, h10, h11, h12, Bool.false_eq_true, if_false]

/-- The issued state's cores are those of before, but for the yield of a word with YLD = 1 (R45). -/
theorem issued_core (h : Hdr) (u : Uses) (s : State) (st : Strand) (c : Ctx) (n : Nat) :
    ∃ y, (issued h u s st c).core n = { s.core n with nextYields := y } := by
  by_cases hy : h.yld = true
  · by_cases hn : n = c.st.core
    · subst hn; exact ⟨nmSet (s.core c.st.core).nextYields c.st.lane (c.sid, c.f), by simp only [issued, hy, State.core, yieldMark, if_true, nmGet_nmSet_self, Option.getD_some]⟩
    · exact ⟨(s.core n).nextYields, by simp only [issued, hy, State.core, yieldMark, if_true, nmGet_nmSet_ne _ _ hn]⟩
  · exact ⟨(s.core n).nextYields, by simp only [issued, hy, State.core]; rfl⟩

@[simp] theorem issued_core_reg (n : Nat) : ((issued h u s st c).core n).reg = (s.core n).reg := by
  obtain ⟨y, e⟩ := issued_core h u s st c n; rw [e]
@[simp] theorem issued_core_acc (n : Nat) : ((issued h u s st c).core n).acc = (s.core n).acc := by
  obtain ⟨y, e⟩ := issued_core h u s st c n; rw [e]
@[simp] theorem issued_core_window (n : Nat) : ((issued h u s st c).core n).window = (s.core n).window := by
  obtain ⟨y, e⟩ := issued_core h u s st c n; rw [e]
@[simp] theorem issued_core_cycle (n : Nat) : ((issued h u s st c).core n).cycle = (s.core n).cycle := by
  obtain ⟨y, e⟩ := issued_core h u s st c n; rw [e]
@[simp] theorem issued_core_laneTurn (n : Nat) : ((issued h u s st c).core n).laneTurn = (s.core n).laneTurn := by
  obtain ⟨y, e⟩ := issued_core h u s st c n; rw [e]
@[simp] theorem issued_core_waitq (n : Nat) : ((issued h u s st c).core n).waitq = (s.core n).waitq := by
  obtain ⟨y, e⟩ := issued_core h u s st c n; rw [e]
@[simp] theorem issued_core_disp (n : Nat) : ((issued h u s st c).core n).disp = (s.core n).disp := by
  obtain ⟨y, e⟩ := issued_core h u s st c n; rw [e]
@[simp] theorem issued_core_yields (n : Nat) : ((issued h u s st c).core n).yields = (s.core n).yields := by
  obtain ⟨y, e⟩ := issued_core h u s st c n; rw [e]
@[simp] theorem issued_core_slots (n : Nat) : ((issued h u s st c).core n).slots = (s.core n).slots := by
  obtain ⟨y, e⟩ := issued_core h u s st c n; rw [e]
@[simp] theorem issued_core_copyQ (n : Nat) : ((issued h u s st c).core n).copyQ = (s.core n).copyQ := by
  obtain ⟨y, e⟩ := issued_core h u s st c n; rw [e]
@[simp] theorem issued_core_gathQ (n : Nat) : ((issued h u s st c).core n).gathQ = (s.core n).gathQ := by
  obtain ⟨y, e⟩ := issued_core h u s st c n; rw [e]
@[simp] theorem issued_core_queues (n : Nat) : ((issued h u s st c).core n).queues = (s.core n).queues := by
  obtain ⟨y, e⟩ := issued_core h u s st c n; rw [e]
@[simp] theorem issued_core_wcb (n : Nat) : ((issued h u s st c).core n).wcb = (s.core n).wcb := by
  obtain ⟨y, e⟩ := issued_core h u s st c n; rw [e]
@[simp] theorem issued_core_rlb (n : Nat) : ((issued h u s st c).core n).rlb = (s.core n).rlb := by
  obtain ⟨y, e⟩ := issued_core h u s st c n; rw [e]
@[simp] theorem issued_core_ott (n : Nat) : ((issued h u s st c).core n).ott = (s.core n).ott := by
  obtain ⟨y, e⟩ := issued_core h u s st c n; rw [e]
@[simp] theorem issued_core_last (n : Nat) : ((issued h u s st c).core n).last = (s.core n).last := by
  obtain ⟨y, e⟩ := issued_core h u s st c n; rw [e]
@[simp] theorem issued_core_tlb (n : Nat) : ((issued h u s st c).core n).tlb = (s.core n).tlb := by
  obtain ⟨y, e⟩ := issued_core h u s st c n; rw [e]
@[simp] theorem issued_core_locked (n : Nat) : ((issued h u s st c).core n).locked = (s.core n).locked := by
  obtain ⟨y, e⟩ := issued_core h u s st c n; rw [e]
@[simp] theorem issued_core_locks (n : Nat) : ((issued h u s st c).core n).locks = (s.core n).locks := by
  obtain ⟨y, e⟩ := issued_core h u s st c n; rw [e]
@[simp] theorem issued_core_pipeC (n : Nat) : ((issued h u s st c).core n).pipeC = (s.core n).pipeC := by
  obtain ⟨y, e⟩ := issued_core h u s st c n; rw [e]
@[simp] theorem issued_core_pipeG (n : Nat) : ((issued h u s st c).core n).pipeG = (s.core n).pipeG := by
  obtain ⟨y, e⟩ := issued_core h u s st c n; rw [e]
@[simp] theorem issued_core_pipeM (n : Nat) : ((issued h u s st c).core n).pipeM = (s.core n).pipeM := by
  obtain ⟨y, e⟩ := issued_core h u s st c n; rw [e]
@[simp] theorem issued_core_markQ (n : Nat) : ((issued h u s st c).core n).markQ = (s.core n).markQ := by
  obtain ⟨y, e⟩ := issued_core h u s st c n; rw [e]
@[simp] theorem issued_core_pairs (n : Nat) : ((issued h u s st c).core n).pairs = (s.core n).pairs := by
  obtain ⟨y, e⟩ := issued_core h u s st c n; rw [e]
@[simp] theorem issued_core_ev (n : Nat) : ((issued h u s st c).core n).ev = (s.core n).ev := by
  obtain ⟨y, e⟩ := issued_core h u s st c n; rw [e]
@[simp] theorem issued_core_src (n : Nat) : ((issued h u s st c).core n).src = (s.core n).src := by
  obtain ⟨y, e⟩ := issued_core h u s st c n; rw [e]

/-- A fixed-latency instruction whose body gives results ends in laneState (R43). -/
theorem laneOp_does (I : Issues h u s st c) (lat : Nat) (body : Ctx → Res) {ws : List Write} {fl : Flags} {mfl : Bool}
    (e : body c = .ok ws fl mfl) : laneOp h lat u s body = .next (laneState h u lat s st c ⟨ws, fl, mfl⟩) := by
  unfold laneOp; rw [issue_of_issues I]; simp only [e]; rfl

/-- A tracked instruction whose body gives results ends in trackState (R44). -/
theorem laneOpT_does (I : Issues h { u with tracked := true } s st c) (body : Ctx → Res) {ws : List Write} {fl : Flags} {mfl : Bool}
    (e : body c = .ok ws fl mfl) : laneOpT h u s body = .next (trackState h { u with tracked := true } s st c ⟨ws, fl, mfl⟩) := by
  unfold laneOpT; rw [issue_of_issues I]; simp only [e]; rfl

theorem does_of {lat : Nat} {body : Ctx → Res} {out : Out} (I : Issues h u s st c) (e0 : out = laneOp h lat u s body) {r : Results}
    (e : body c = .ok r.ws r.fl r.mfl) : out = .next (laneState h u lat s st c r) := e0.trans (laneOp_does I lat body e)

theorem doesT_of {body : Ctx → Res} {out : Out} (I : Issues h u s st c) (e0 : out = laneOpT h u s body)
    (eu : u.tracked = true) {r : Results} (e : body c = .ok r.ws r.fl r.mfl) : out = .next (trackState h u s st c r) := by
  obtain ⟨reads, writes, tracked, priv⟩ := u
  obtain rfl : tracked = true := eu
  exact e0.trans (laneOpT_does I body e)

/-- A body that ends in a user cause takes it (R59, R80). -/
theorem laneOp_cause (I : Issues h u s st c) (lat : Nat) (body : Ctx → Res) {e : BitVec 8} (he : body c = .cause e) :
    laneOp h lat u s body = .next (raiseUser (issued h u s st c) c.sid c.f e none) := by
  unfold laneOp; rw [issue_of_issues I]; simp only [he]; rfl

/-! ## The region end of a sound strand -/

/-- Entries on other than DETERM pages stay apart (R325). -/
theorem mergeDet_plain {es : List RsbEnt} (h : ∀ e ∈ es, e.ord ≠ 3) : mergeDet es = es := by
  suffices ∀ (acc : List RsbEnt), es.foldl (fun acc e =>
      if acc.any (fun x => e.ord == 3 && x.ord == 3 && pkey x.home x.pa / 32 == pkey e.home e.pa / 32) then
        acc.map fun x => if e.ord == 3 && x.ord == 3 && pkey x.home x.pa / 32 == pkey e.home e.pa / 32 then x.absorb e else x
      else acc ++ [e]) acc = acc ++ es by simpa [mergeDet] using this []
  induction es with
  | nil => simp
  | cons e es ih =>
    intro acc
    have he : (e.ord == 3) = false := by simpa using h e (by simp)
    rw [List.foldl_cons, ih fun x hx => h x (by simp [hx])]
    simp [he]

theorem validateAll_sound {sid f team : Nat} {k : DetKind} {st : Strand} {es : List RsbEnt}
    (h : ∀ e ∈ es, e.stale = false ∧ e.ord ≠ 3) (s : State) : validateAll s sid f team k st es = .inl (s, es) := by
  induction es with
  | nil => rfl
  | cons e es ih =>
    obtain ⟨a, b⟩ := h e (by simp)
    simp [validateAll, validate, a, b, ih fun x hx => h x (by simp [hx])]

/-- The region end of a sound strand goes through (R321, R323). -/
theorem endRegion_sound {sid f : Nat} {next : VAddr} {st : Strand} (hs : nmGet s.strands sid = some st) (h : Sound st) :
    endRegion s sid f next none = (committed s sid f next, true) := by
  have ok : ∀ e ∈ st.rsb.filter RsbEnt.open, e.stale = false ∧ e.ord ≠ 3 := fun e he => by
    rw [List.mem_filter] at he; exact h e he.1 he.2
  simp only [endRegion, hs, validateAll_sound ok, mergeDet_plain fun e he => (ok e he).2, committed, State.updStrand, State.tick,
    nmUpd_of_some hs]

end Sys2Proof
end

