-- ==== Sys2Proof/Laws/Memory.lean ====
section
/-!
SUPPORT. Every operation over module memory keeps its canonical form, and memory reset has it; what a read finds after a
write; values and their little-endian bytes.
-/
namespace Sys2Proof.Machine

/-! ## The canonical form -/

theorem memory_wf_reset : Memory.wf State.reset.mem = true := rfl

theorem memory_wf_wrMs (bs : List (Nat × Byte)) : ∀ m : List Host.Cell, Memory.wf m = true → Memory.wf (wrMs m bs) = true := by
  induction bs with
  | nil => exact fun _ h => h
  | cons e bs ih => exact fun m h => ih _ (spWf_spPut e.1 e.2 h)

theorem memory_wf_wrMN (bs : List Byte) : ∀ (m : List Host.Cell) (a : Nat), Memory.wf m = true → Memory.wf (wrMN m a bs) = true := by
  induction bs with
  | nil => exact fun _ _ h => h
  | cons b bs ih => exact fun m a h => ih _ _ (spWf_spPut a b h)

/-- Any fold of operations that keep the form keeps it. -/
theorem memory_wf_foldl {α : Type} {f : List Host.Cell → α → List Host.Cell} (hf : ∀ m x, Memory.wf m = true → Memory.wf (f m x) = true)
    (xs : List α) : ∀ m : List Host.Cell, Memory.wf m = true → Memory.wf (xs.foldl f m) = true := by
  induction xs with
  | nil => exact fun _ h => h
  | cons x xs ih => exact fun m h => ih _ (hf m x h)

theorem memory_wf_spPut {m : List Host.Cell} (a : Nat) (b : Byte) (h : Memory.wf m = true) : Memory.wf (spPut m a b) = true :=
  spWf_spPut a b h

theorem keysAbove_filter {α : Type} (p : Nat × α → Bool) : ∀ (m : List (Nat × α)) (b : Option Nat), keysAbove m b = true → keysAbove (m.filter p) b = true := by
  intro m
  induction m with
  | nil => exact fun _ h => h
  | cons e m ih =>
    obtain ⟨k, v⟩ := e
    intro b h
    rw [keysAbove_cons, Bool.and_eq_true] at h
    rw [List.filter_cons]
    split
    · rw [keysAbove_cons, Bool.and_eq_true]; exact ⟨h.1, ih _ h.2⟩
    · exact ih _ (keysAbove_weaken h.1 h.2)

theorem memory_wf_filter {m : List Host.Cell} (p : Host.Cell → Bool) (h : Memory.wf m = true) : Memory.wf (m.filter p) = true := by
  simp only [Memory.wf, spWf, Bool.and_eq_true, List.all_eq_true] at h ⊢
  exact ⟨keysAbove_filter p m none h.1, fun e he => h.2 e (List.mem_filter.1 he).1⟩

theorem memory_wf_clearCells {m : List Host.Cell} (lo len : Nat) (h : Memory.wf m = true) : Memory.wf (clearCells m lo len) = true :=
  memory_wf_filter _ h

/-! ## Reads after writes -/

theorem rdM1_wrMs_out (bs : List (Nat × Byte)) : ∀ (m : List Host.Cell) (k : Nat), (∀ e ∈ bs, e.1 ≠ k) → rdM1 (wrMs m bs) k = rdM1 m k := by
  induction bs with
  | nil => exact fun _ _ _ => rfl
  | cons e bs ih =>
    intro m k h
    refine (ih (spPut m e.1 e.2) k fun x hx => h x (List.mem_cons_of_mem _ hx)).trans ?_
    exact spGet_spPut_ne m e.2 fun x => h e List.mem_cons_self x.symm

theorem rdM1_wrMN_out (bs : List Byte) : ∀ (m : List Host.Cell) (a k : Nat), k < a ∨ a + bs.length ≤ k → rdM1 (wrMN m a bs) k = rdM1 m k := by
  induction bs with
  | nil => exact fun _ _ _ _ => rfl
  | cons b bs ih =>
    intro m a k h
    simp only [List.length_cons] at h
    exact (ih (spPut m a b) (a + 1) k (by omega)).trans (spGet_spPut_ne m b (by omega))

theorem rdM1_wrMN_in (bs : List Byte) : ∀ (m : List Host.Cell) (a i : Nat) (h : i < bs.length), rdM1 (wrMN m a bs) (a + i) = bs[i] := by
  induction bs with
  | nil => intro m a i h; cases h
  | cons b bs ih =>
    intro m a i h
    cases i with
    | zero => exact (rdM1_wrMN_out bs (spPut m a b) (a + 1) a (by omega)).trans (spGet_spPut_self m a b)
    | succ i =>
      have := ih (spPut m a b) (a + 1) i (by simpa using h)
      rw [show a + 1 + i = a + (i + 1) by omega] at this
      exact this

/-- Bytes written read back. -/
theorem rdMN_wrMN (m : List Host.Cell) (a : Nat) (bs : List Byte) : rdMN (wrMN m a bs) a bs.length = bs := by
  refine List.ext_getElem (by simp [rdMN]) fun i h1 h2 => ?_
  simp only [rdMN, List.getElem_map, List.getElem_range]
  exact rdM1_wrMN_in bs m a i h2

/-! ## Values and bytes -/

@[simp] theorem length_leBytes (n x : Nat) : (leBytes n x).length = n := by
  induction n generalizing x with
  | zero => rfl
  | succ n ih => simp [leBytes, ih]

theorem getElem_leBytes (n : Nat) : ∀ (x i : Nat) (h : i < (leBytes n x).length), (leBytes n x)[i] = BitVec.ofNat 8 (x / 256 ^ i) := by
  induction n with
  | zero => intro x i h; simp [leBytes] at h
  | succ n ih =>
    intro x i h
    cases i with
    | zero => simp [leBytes]
    | succ i =>
      have := ih (x / 256) i (by simpa [leBytes] using h)
      simpa [leBytes, Nat.div_div_eq_div_mul, Nat.pow_succ, Nat.mul_comm] using this

/-- The value of the bytes of a value (R5). -/
theorem leVal_leBytes (n : Nat) : ∀ x, leVal (leBytes n x) = x % 256 ^ n := by
  induction n with
  | zero => intro x; simp [leBytes, leVal, Nat.mod_one]
  | succ n ih =>
    intro x
    rw [leBytes, leVal, ih, Nat.pow_succ, Nat.mul_comm (256 ^ n) 256, Nat.mod_mul]
    simp

end Sys2Proof.Machine
end

