-- ==== Sys2Proof/Laws/State.lean ====
section
/-!
SUPPORT. One lemma per field for each update of State that the operations are written with: what the update puts into
its own field, and that it leaves every other field as it was. Beside them, reads of the record tables after an update.
-/
namespace Sys2Proof.Machine

variable (s : State)


@[simp] theorem State.updStrand_agenda (sid : Nat) (f : Strand → Strand) : (s.updStrand sid f).agenda = s.agenda := rfl
@[simp] theorem State.updStrand_cur (sid : Nat) (f : Strand → Strand) : (s.updStrand sid f).cur = s.cur := rfl
@[simp] theorem State.updStrand_freeCtr (sid : Nat) (f : Strand → Strand) : (s.updStrand sid f).freeCtr = s.freeCtr := rfl
@[simp] theorem State.updStrand_seq (sid : Nat) (f : Strand → Strand) : (s.updStrand sid f).seq = s.seq := rfl
@[simp] theorem State.updStrand_turn (sid : Nat) (f : Strand → Strand) : (s.updStrand sid f).turn = s.turn := rfl
@[simp] theorem State.updStrand_auto (sid : Nat) (f : Strand → Strand) : (s.updStrand sid f).auto = s.auto := rfl
@[simp] theorem State.updStrand_mem (sid : Nat) (f : Strand → Strand) : (s.updStrand sid f).mem = s.mem := rfl
@[simp] theorem State.updStrand_roots (sid : Nat) (f : Strand → Strand) : (s.updStrand sid f).roots = s.roots := rfl
@[simp] theorem State.updStrand_strands (sid : Nat) (f : Strand → Strand) : (s.updStrand sid f).strands = nmUpd s.strands sid f := rfl
@[simp] theorem State.updStrand_batches (sid : Nat) (f : Strand → Strand) : (s.updStrand sid f).batches = s.batches := rfl
@[simp] theorem State.updStrand_jobs (sid : Nat) (f : Strand → Strand) : (s.updStrand sid f).jobs = s.jobs := rfl
@[simp] theorem State.updStrand_launches (sid : Nat) (f : Strand → Strand) : (s.updStrand sid f).launches = s.launches := rfl
@[simp] theorem State.updStrand_cores (sid : Nat) (f : Strand → Strand) : (s.updStrand sid f).cores = s.cores := rfl
@[simp] theorem State.updStrand_dies (sid : Nat) (f : Strand → Strand) : (s.updStrand sid f).dies = s.dies := rfl
@[simp] theorem State.updStrand_teams (sid : Nat) (f : Strand → Strand) : (s.updStrand sid f).teams = s.teams := rfl
@[simp] theorem State.updStrand_pkgComb (sid : Nat) (f : Strand → Strand) : (s.updStrand sid f).pkgComb = s.pkgComb := rfl
@[simp] theorem State.updStrand_det (sid : Nat) (f : Strand → Strand) : (s.updStrand sid f).det = s.det := rfl
@[simp] theorem State.updStrand_tinvs (sid : Nat) (f : Strand → Strand) : (s.updStrand sid f).tinvs = s.tinvs := rfl
@[simp] theorem State.updStrand_pfaults (sid : Nat) (f : Strand → Strand) : (s.updStrand sid f).pfaults = s.pfaults := rfl
@[simp] theorem State.updStrand_classes (sid : Nat) (f : Strand → Strand) : (s.updStrand sid f).classes = s.classes := rfl
@[simp] theorem State.updStrand_marks (sid : Nat) (f : Strand → Strand) : (s.updStrand sid f).marks = s.marks := rfl
@[simp] theorem State.updStrand_msgs (sid : Nat) (f : Strand → Strand) : (s.updStrand sid f).msgs = s.msgs := rfl
@[simp] theorem State.updStrand_vats (sid : Nat) (f : Strand → Strand) : (s.updStrand sid f).vats = s.vats := rfl
@[simp] theorem State.updStrand_module (sid : Nat) (f : Strand → Strand) : (s.updStrand sid f).module = s.module := rfl
@[simp] theorem State.updStrand_fab (sid : Nat) (f : Strand → Strand) : (s.updStrand sid f).fab = s.fab := rfl
@[simp] theorem State.updStrand_host (sid : Nat) (f : Strand → Strand) : (s.updStrand sid f).host = s.host := rfl
@[simp] theorem State.updStrand_screens (sid : Nat) (f : Strand → Strand) : (s.updStrand sid f).screens = s.screens := rfl

@[simp] theorem State.updFrag_agenda (sid f : Nat) (g : Frag → Frag) : (s.updFrag sid f g).agenda = s.agenda := rfl
@[simp] theorem State.updFrag_cur (sid f : Nat) (g : Frag → Frag) : (s.updFrag sid f g).cur = s.cur := rfl
@[simp] theorem State.updFrag_freeCtr (sid f : Nat) (g : Frag → Frag) : (s.updFrag sid f g).freeCtr = s.freeCtr := rfl
@[simp] theorem State.updFrag_seq (sid f : Nat) (g : Frag → Frag) : (s.updFrag sid f g).seq = s.seq := rfl
@[simp] theorem State.updFrag_turn (sid f : Nat) (g : Frag → Frag) : (s.updFrag sid f g).turn = s.turn := rfl
@[simp] theorem State.updFrag_auto (sid f : Nat) (g : Frag → Frag) : (s.updFrag sid f g).auto = s.auto := rfl
@[simp] theorem State.updFrag_mem (sid f : Nat) (g : Frag → Frag) : (s.updFrag sid f g).mem = s.mem := rfl
@[simp] theorem State.updFrag_roots (sid f : Nat) (g : Frag → Frag) : (s.updFrag sid f g).roots = s.roots := rfl
@[simp] theorem State.updFrag_strands (sid f : Nat) (g : Frag → Frag) : (s.updFrag sid f g).strands = nmUpd s.strands sid fun st => st.updFrag f g := rfl
@[simp] theorem State.updFrag_batches (sid f : Nat) (g : Frag → Frag) : (s.updFrag sid f g).batches = s.batches := rfl
@[simp] theorem State.updFrag_jobs (sid f : Nat) (g : Frag → Frag) : (s.updFrag sid f g).jobs = s.jobs := rfl
@[simp] theorem State.updFrag_launches (sid f : Nat) (g : Frag → Frag) : (s.updFrag sid f g).launches = s.launches := rfl
@[simp] theorem State.updFrag_cores (sid f : Nat) (g : Frag → Frag) : (s.updFrag sid f g).cores = s.cores := rfl
@[simp] theorem State.updFrag_dies (sid f : Nat) (g : Frag → Frag) : (s.updFrag sid f g).dies = s.dies := rfl
@[simp] theorem State.updFrag_teams (sid f : Nat) (g : Frag → Frag) : (s.updFrag sid f g).teams = s.teams := rfl
@[simp] theorem State.updFrag_pkgComb (sid f : Nat) (g : Frag → Frag) : (s.updFrag sid f g).pkgComb = s.pkgComb := rfl
@[simp] theorem State.updFrag_det (sid f : Nat) (g : Frag → Frag) : (s.updFrag sid f g).det = s.det := rfl
@[simp] theorem State.updFrag_tinvs (sid f : Nat) (g : Frag → Frag) : (s.updFrag sid f g).tinvs = s.tinvs := rfl
@[simp] theorem State.updFrag_pfaults (sid f : Nat) (g : Frag → Frag) : (s.updFrag sid f g).pfaults = s.pfaults := rfl
@[simp] theorem State.updFrag_classes (sid f : Nat) (g : Frag → Frag) : (s.updFrag sid f g).classes = s.classes := rfl
@[simp] theorem State.updFrag_marks (sid f : Nat) (g : Frag → Frag) : (s.updFrag sid f g).marks = s.marks := rfl
@[simp] theorem State.updFrag_msgs (sid f : Nat) (g : Frag → Frag) : (s.updFrag sid f g).msgs = s.msgs := rfl
@[simp] theorem State.updFrag_vats (sid f : Nat) (g : Frag → Frag) : (s.updFrag sid f g).vats = s.vats := rfl
@[simp] theorem State.updFrag_module (sid f : Nat) (g : Frag → Frag) : (s.updFrag sid f g).module = s.module := rfl
@[simp] theorem State.updFrag_fab (sid f : Nat) (g : Frag → Frag) : (s.updFrag sid f g).fab = s.fab := rfl
@[simp] theorem State.updFrag_host (sid f : Nat) (g : Frag → Frag) : (s.updFrag sid f g).host = s.host := rfl
@[simp] theorem State.updFrag_screens (sid f : Nat) (g : Frag → Frag) : (s.updFrag sid f g).screens = s.screens := rfl

@[simp] theorem State.setCore_agenda (c : Nat) (x : Core) : (s.setCore c x).agenda = s.agenda := rfl
@[simp] theorem State.setCore_cur (c : Nat) (x : Core) : (s.setCore c x).cur = s.cur := rfl
@[simp] theorem State.setCore_freeCtr (c : Nat) (x : Core) : (s.setCore c x).freeCtr = s.freeCtr := rfl
@[simp] theorem State.setCore_seq (c : Nat) (x : Core) : (s.setCore c x).seq = s.seq := rfl
@[simp] theorem State.setCore_turn (c : Nat) (x : Core) : (s.setCore c x).turn = s.turn := rfl
@[simp] theorem State.setCore_auto (c : Nat) (x : Core) : (s.setCore c x).auto = s.auto := rfl
@[simp] theorem State.setCore_mem (c : Nat) (x : Core) : (s.setCore c x).mem = s.mem := rfl
@[simp] theorem State.setCore_roots (c : Nat) (x : Core) : (s.setCore c x).roots = s.roots := rfl
@[simp] theorem State.setCore_strands (c : Nat) (x : Core) : (s.setCore c x).strands = s.strands := rfl
@[simp] theorem State.setCore_batches (c : Nat) (x : Core) : (s.setCore c x).batches = s.batches := rfl
@[simp] theorem State.setCore_jobs (c : Nat) (x : Core) : (s.setCore c x).jobs = s.jobs := rfl
@[simp] theorem State.setCore_launches (c : Nat) (x : Core) : (s.setCore c x).launches = s.launches := rfl
@[simp] theorem State.setCore_cores (c : Nat) (x : Core) : (s.setCore c x).cores = nmSet s.cores c x := rfl
@[simp] theorem State.setCore_dies (c : Nat) (x : Core) : (s.setCore c x).dies = s.dies := rfl
@[simp] theorem State.setCore_teams (c : Nat) (x : Core) : (s.setCore c x).teams = s.teams := rfl
@[simp] theorem State.setCore_pkgComb (c : Nat) (x : Core) : (s.setCore c x).pkgComb = s.pkgComb := rfl
@[simp] theorem State.setCore_det (c : Nat) (x : Core) : (s.setCore c x).det = s.det := rfl
@[simp] theorem State.setCore_tinvs (c : Nat) (x : Core) : (s.setCore c x).tinvs = s.tinvs := rfl
@[simp] theorem State.setCore_pfaults (c : Nat) (x : Core) : (s.setCore c x).pfaults = s.pfaults := rfl
@[simp] theorem State.setCore_classes (c : Nat) (x : Core) : (s.setCore c x).classes = s.classes := rfl
@[simp] theorem State.setCore_marks (c : Nat) (x : Core) : (s.setCore c x).marks = s.marks := rfl
@[simp] theorem State.setCore_msgs (c : Nat) (x : Core) : (s.setCore c x).msgs = s.msgs := rfl
@[simp] theorem State.setCore_vats (c : Nat) (x : Core) : (s.setCore c x).vats = s.vats := rfl
@[simp] theorem State.setCore_module (c : Nat) (x : Core) : (s.setCore c x).module = s.module := rfl
@[simp] theorem State.setCore_fab (c : Nat) (x : Core) : (s.setCore c x).fab = s.fab := rfl
@[simp] theorem State.setCore_host (c : Nat) (x : Core) : (s.setCore c x).host = s.host := rfl
@[simp] theorem State.setCore_screens (c : Nat) (x : Core) : (s.setCore c x).screens = s.screens := rfl

@[simp] theorem State.updCore_agenda (c : Nat) (f : Core → Core) : (s.updCore c f).agenda = s.agenda := rfl
@[simp] theorem State.updCore_cur (c : Nat) (f : Core → Core) : (s.updCore c f).cur = s.cur := rfl
@[simp] theorem State.updCore_freeCtr (c : Nat) (f : Core → Core) : (s.updCore c f).freeCtr = s.freeCtr := rfl
@[simp] theorem State.updCore_seq (c : Nat) (f : Core → Core) : (s.updCore c f).seq = s.seq := rfl
@[simp] theorem State.updCore_turn (c : Nat) (f : Core → Core) : (s.updCore c f).turn = s.turn := rfl
@[simp] theorem State.updCore_auto (c : Nat) (f : Core → Core) : (s.updCore c f).auto = s.auto := rfl
@[simp] theorem State.updCore_mem (c : Nat) (f : Core → Core) : (s.updCore c f).mem = s.mem := rfl
@[simp] theorem State.updCore_roots (c : Nat) (f : Core → Core) : (s.updCore c f).roots = s.roots := rfl
@[simp] theorem State.updCore_strands (c : Nat) (f : Core → Core) : (s.updCore c f).strands = s.strands := rfl
@[simp] theorem State.updCore_batches (c : Nat) (f : Core → Core) : (s.updCore c f).batches = s.batches := rfl
@[simp] theorem State.updCore_jobs (c : Nat) (f : Core → Core) : (s.updCore c f).jobs = s.jobs := rfl
@[simp] theorem State.updCore_launches (c : Nat) (f : Core → Core) : (s.updCore c f).launches = s.launches := rfl
@[simp] theorem State.updCore_cores (c : Nat) (f : Core → Core) : (s.updCore c f).cores = nmSet s.cores c (f (s.core c)) := rfl
@[simp] theorem State.updCore_dies (c : Nat) (f : Core → Core) : (s.updCore c f).dies = s.dies := rfl
@[simp] theorem State.updCore_teams (c : Nat) (f : Core → Core) : (s.updCore c f).teams = s.teams := rfl
@[simp] theorem State.updCore_pkgComb (c : Nat) (f : Core → Core) : (s.updCore c f).pkgComb = s.pkgComb := rfl
@[simp] theorem State.updCore_det (c : Nat) (f : Core → Core) : (s.updCore c f).det = s.det := rfl
@[simp] theorem State.updCore_tinvs (c : Nat) (f : Core → Core) : (s.updCore c f).tinvs = s.tinvs := rfl
@[simp] theorem State.updCore_pfaults (c : Nat) (f : Core → Core) : (s.updCore c f).pfaults = s.pfaults := rfl
@[simp] theorem State.updCore_classes (c : Nat) (f : Core → Core) : (s.updCore c f).classes = s.classes := rfl
@[simp] theorem State.updCore_marks (c : Nat) (f : Core → Core) : (s.updCore c f).marks = s.marks := rfl
@[simp] theorem State.updCore_msgs (c : Nat) (f : Core → Core) : (s.updCore c f).msgs = s.msgs := rfl
@[simp] theorem State.updCore_vats (c : Nat) (f : Core → Core) : (s.updCore c f).vats = s.vats := rfl
@[simp] theorem State.updCore_module (c : Nat) (f : Core → Core) : (s.updCore c f).module = s.module := rfl
@[simp] theorem State.updCore_fab (c : Nat) (f : Core → Core) : (s.updCore c f).fab = s.fab := rfl
@[simp] theorem State.updCore_host (c : Nat) (f : Core → Core) : (s.updCore c f).host = s.host := rfl
@[simp] theorem State.updCore_screens (c : Nat) (f : Core → Core) : (s.updCore c f).screens = s.screens := rfl

@[simp] theorem State.setDie_agenda (d : Nat) (x : Die) : (s.setDie d x).agenda = s.agenda := rfl
@[simp] theorem State.setDie_cur (d : Nat) (x : Die) : (s.setDie d x).cur = s.cur := rfl
@[simp] theorem State.setDie_freeCtr (d : Nat) (x : Die) : (s.setDie d x).freeCtr = s.freeCtr := rfl
@[simp] theorem State.setDie_seq (d : Nat) (x : Die) : (s.setDie d x).seq = s.seq := rfl
@[simp] theorem State.setDie_turn (d : Nat) (x : Die) : (s.setDie d x).turn = s.turn := rfl
@[simp] theorem State.setDie_auto (d : Nat) (x : Die) : (s.setDie d x).auto = s.auto := rfl
@[simp] theorem State.setDie_mem (d : Nat) (x : Die) : (s.setDie d x).mem = s.mem := rfl
@[simp] theorem State.setDie_roots (d : Nat) (x : Die) : (s.setDie d x).roots = s.roots := rfl
@[simp] theorem State.setDie_strands (d : Nat) (x : Die) : (s.setDie d x).strands = s.strands := rfl
@[simp] theorem State.setDie_batches (d : Nat) (x : Die) : (s.setDie d x).batches = s.batches := rfl
@[simp] theorem State.setDie_jobs (d : Nat) (x : Die) : (s.setDie d x).jobs = s.jobs := rfl
@[simp] theorem State.setDie_launches (d : Nat) (x : Die) : (s.setDie d x).launches = s.launches := rfl
@[simp] theorem State.setDie_cores (d : Nat) (x : Die) : (s.setDie d x).cores = s.cores := rfl
@[simp] theorem State.setDie_dies (d : Nat) (x : Die) : (s.setDie d x).dies = nmSet s.dies d x := rfl
@[simp] theorem State.setDie_teams (d : Nat) (x : Die) : (s.setDie d x).teams = s.teams := rfl
@[simp] theorem State.setDie_pkgComb (d : Nat) (x : Die) : (s.setDie d x).pkgComb = s.pkgComb := rfl
@[simp] theorem State.setDie_det (d : Nat) (x : Die) : (s.setDie d x).det = s.det := rfl
@[simp] theorem State.setDie_tinvs (d : Nat) (x : Die) : (s.setDie d x).tinvs = s.tinvs := rfl
@[simp] theorem State.setDie_pfaults (d : Nat) (x : Die) : (s.setDie d x).pfaults = s.pfaults := rfl
@[simp] theorem State.setDie_classes (d : Nat) (x : Die) : (s.setDie d x).classes = s.classes := rfl
@[simp] theorem State.setDie_marks (d : Nat) (x : Die) : (s.setDie d x).marks = s.marks := rfl
@[simp] theorem State.setDie_msgs (d : Nat) (x : Die) : (s.setDie d x).msgs = s.msgs := rfl
@[simp] theorem State.setDie_vats (d : Nat) (x : Die) : (s.setDie d x).vats = s.vats := rfl
@[simp] theorem State.setDie_module (d : Nat) (x : Die) : (s.setDie d x).module = s.module := rfl
@[simp] theorem State.setDie_fab (d : Nat) (x : Die) : (s.setDie d x).fab = s.fab := rfl
@[simp] theorem State.setDie_host (d : Nat) (x : Die) : (s.setDie d x).host = s.host := rfl
@[simp] theorem State.setDie_screens (d : Nat) (x : Die) : (s.setDie d x).screens = s.screens := rfl

@[simp] theorem State.updDie_agenda (d : Nat) (f : Die → Die) : (s.updDie d f).agenda = s.agenda := rfl
@[simp] theorem State.updDie_cur (d : Nat) (f : Die → Die) : (s.updDie d f).cur = s.cur := rfl
@[simp] theorem State.updDie_freeCtr (d : Nat) (f : Die → Die) : (s.updDie d f).freeCtr = s.freeCtr := rfl
@[simp] theorem State.updDie_seq (d : Nat) (f : Die → Die) : (s.updDie d f).seq = s.seq := rfl
@[simp] theorem State.updDie_turn (d : Nat) (f : Die → Die) : (s.updDie d f).turn = s.turn := rfl
@[simp] theorem State.updDie_auto (d : Nat) (f : Die → Die) : (s.updDie d f).auto = s.auto := rfl
@[simp] theorem State.updDie_mem (d : Nat) (f : Die → Die) : (s.updDie d f).mem = s.mem := rfl
@[simp] theorem State.updDie_roots (d : Nat) (f : Die → Die) : (s.updDie d f).roots = s.roots := rfl
@[simp] theorem State.updDie_strands (d : Nat) (f : Die → Die) : (s.updDie d f).strands = s.strands := rfl
@[simp] theorem State.updDie_batches (d : Nat) (f : Die → Die) : (s.updDie d f).batches = s.batches := rfl
@[simp] theorem State.updDie_jobs (d : Nat) (f : Die → Die) : (s.updDie d f).jobs = s.jobs := rfl
@[simp] theorem State.updDie_launches (d : Nat) (f : Die → Die) : (s.updDie d f).launches = s.launches := rfl
@[simp] theorem State.updDie_cores (d : Nat) (f : Die → Die) : (s.updDie d f).cores = s.cores := rfl
@[simp] theorem State.updDie_dies (d : Nat) (f : Die → Die) : (s.updDie d f).dies = nmSet s.dies d (f (s.die d)) := rfl
@[simp] theorem State.updDie_teams (d : Nat) (f : Die → Die) : (s.updDie d f).teams = s.teams := rfl
@[simp] theorem State.updDie_pkgComb (d : Nat) (f : Die → Die) : (s.updDie d f).pkgComb = s.pkgComb := rfl
@[simp] theorem State.updDie_det (d : Nat) (f : Die → Die) : (s.updDie d f).det = s.det := rfl
@[simp] theorem State.updDie_tinvs (d : Nat) (f : Die → Die) : (s.updDie d f).tinvs = s.tinvs := rfl
@[simp] theorem State.updDie_pfaults (d : Nat) (f : Die → Die) : (s.updDie d f).pfaults = s.pfaults := rfl
@[simp] theorem State.updDie_classes (d : Nat) (f : Die → Die) : (s.updDie d f).classes = s.classes := rfl
@[simp] theorem State.updDie_marks (d : Nat) (f : Die → Die) : (s.updDie d f).marks = s.marks := rfl
@[simp] theorem State.updDie_msgs (d : Nat) (f : Die → Die) : (s.updDie d f).msgs = s.msgs := rfl
@[simp] theorem State.updDie_vats (d : Nat) (f : Die → Die) : (s.updDie d f).vats = s.vats := rfl
@[simp] theorem State.updDie_module (d : Nat) (f : Die → Die) : (s.updDie d f).module = s.module := rfl
@[simp] theorem State.updDie_fab (d : Nat) (f : Die → Die) : (s.updDie d f).fab = s.fab := rfl
@[simp] theorem State.updDie_host (d : Nat) (f : Die → Die) : (s.updDie d f).host = s.host := rfl
@[simp] theorem State.updDie_screens (d : Nat) (f : Die → Die) : (s.updDie d f).screens = s.screens := rfl

@[simp] theorem State.updVat_agenda (v : Nat) (f : Vat → Vat) : (s.updVat v f).agenda = s.agenda := rfl
@[simp] theorem State.updVat_cur (v : Nat) (f : Vat → Vat) : (s.updVat v f).cur = s.cur := rfl
@[simp] theorem State.updVat_freeCtr (v : Nat) (f : Vat → Vat) : (s.updVat v f).freeCtr = s.freeCtr := rfl
@[simp] theorem State.updVat_seq (v : Nat) (f : Vat → Vat) : (s.updVat v f).seq = s.seq := rfl
@[simp] theorem State.updVat_turn (v : Nat) (f : Vat → Vat) : (s.updVat v f).turn = s.turn := rfl
@[simp] theorem State.updVat_auto (v : Nat) (f : Vat → Vat) : (s.updVat v f).auto = s.auto := rfl
@[simp] theorem State.updVat_mem (v : Nat) (f : Vat → Vat) : (s.updVat v f).mem = s.mem := rfl
@[simp] theorem State.updVat_roots (v : Nat) (f : Vat → Vat) : (s.updVat v f).roots = s.roots := rfl
@[simp] theorem State.updVat_strands (v : Nat) (f : Vat → Vat) : (s.updVat v f).strands = s.strands := rfl
@[simp] theorem State.updVat_batches (v : Nat) (f : Vat → Vat) : (s.updVat v f).batches = s.batches := rfl
@[simp] theorem State.updVat_jobs (v : Nat) (f : Vat → Vat) : (s.updVat v f).jobs = s.jobs := rfl
@[simp] theorem State.updVat_launches (v : Nat) (f : Vat → Vat) : (s.updVat v f).launches = s.launches := rfl
@[simp] theorem State.updVat_cores (v : Nat) (f : Vat → Vat) : (s.updVat v f).cores = s.cores := rfl
@[simp] theorem State.updVat_dies (v : Nat) (f : Vat → Vat) : (s.updVat v f).dies = s.dies := rfl
@[simp] theorem State.updVat_teams (v : Nat) (f : Vat → Vat) : (s.updVat v f).teams = s.teams := rfl
@[simp] theorem State.updVat_pkgComb (v : Nat) (f : Vat → Vat) : (s.updVat v f).pkgComb = s.pkgComb := rfl
@[simp] theorem State.updVat_det (v : Nat) (f : Vat → Vat) : (s.updVat v f).det = s.det := rfl
@[simp] theorem State.updVat_tinvs (v : Nat) (f : Vat → Vat) : (s.updVat v f).tinvs = s.tinvs := rfl
@[simp] theorem State.updVat_pfaults (v : Nat) (f : Vat → Vat) : (s.updVat v f).pfaults = s.pfaults := rfl
@[simp] theorem State.updVat_classes (v : Nat) (f : Vat → Vat) : (s.updVat v f).classes = s.classes := rfl
@[simp] theorem State.updVat_marks (v : Nat) (f : Vat → Vat) : (s.updVat v f).marks = s.marks := rfl
@[simp] theorem State.updVat_msgs (v : Nat) (f : Vat → Vat) : (s.updVat v f).msgs = s.msgs := rfl
@[simp] theorem State.updVat_vats (v : Nat) (f : Vat → Vat) : (s.updVat v f).vats = nmSet s.vats v (f (s.vat v)) := rfl
@[simp] theorem State.updVat_module (v : Nat) (f : Vat → Vat) : (s.updVat v f).module = s.module := rfl
@[simp] theorem State.updVat_fab (v : Nat) (f : Vat → Vat) : (s.updVat v f).fab = s.fab := rfl
@[simp] theorem State.updVat_host (v : Nat) (f : Vat → Vat) : (s.updVat v f).host = s.host := rfl
@[simp] theorem State.updVat_screens (v : Nat) (f : Vat → Vat) : (s.updVat v f).screens = s.screens := rfl

@[simp] theorem State.updJob_agenda (j : Nat) (f : Job → Job) : (s.updJob j f).agenda = s.agenda := rfl
@[simp] theorem State.updJob_cur (j : Nat) (f : Job → Job) : (s.updJob j f).cur = s.cur := rfl
@[simp] theorem State.updJob_freeCtr (j : Nat) (f : Job → Job) : (s.updJob j f).freeCtr = s.freeCtr := rfl
@[simp] theorem State.updJob_seq (j : Nat) (f : Job → Job) : (s.updJob j f).seq = s.seq := rfl
@[simp] theorem State.updJob_turn (j : Nat) (f : Job → Job) : (s.updJob j f).turn = s.turn := rfl
@[simp] theorem State.updJob_auto (j : Nat) (f : Job → Job) : (s.updJob j f).auto = s.auto := rfl
@[simp] theorem State.updJob_mem (j : Nat) (f : Job → Job) : (s.updJob j f).mem = s.mem := rfl
@[simp] theorem State.updJob_roots (j : Nat) (f : Job → Job) : (s.updJob j f).roots = s.roots := rfl
@[simp] theorem State.updJob_strands (j : Nat) (f : Job → Job) : (s.updJob j f).strands = s.strands := rfl
@[simp] theorem State.updJob_batches (j : Nat) (f : Job → Job) : (s.updJob j f).batches = s.batches := rfl
@[simp] theorem State.updJob_jobs (j : Nat) (f : Job → Job) : (s.updJob j f).jobs = nmUpd s.jobs j f := rfl
@[simp] theorem State.updJob_launches (j : Nat) (f : Job → Job) : (s.updJob j f).launches = s.launches := rfl
@[simp] theorem State.updJob_cores (j : Nat) (f : Job → Job) : (s.updJob j f).cores = s.cores := rfl
@[simp] theorem State.updJob_dies (j : Nat) (f : Job → Job) : (s.updJob j f).dies = s.dies := rfl
@[simp] theorem State.updJob_teams (j : Nat) (f : Job → Job) : (s.updJob j f).teams = s.teams := rfl
@[simp] theorem State.updJob_pkgComb (j : Nat) (f : Job → Job) : (s.updJob j f).pkgComb = s.pkgComb := rfl
@[simp] theorem State.updJob_det (j : Nat) (f : Job → Job) : (s.updJob j f).det = s.det := rfl
@[simp] theorem State.updJob_tinvs (j : Nat) (f : Job → Job) : (s.updJob j f).tinvs = s.tinvs := rfl
@[simp] theorem State.updJob_pfaults (j : Nat) (f : Job → Job) : (s.updJob j f).pfaults = s.pfaults := rfl
@[simp] theorem State.updJob_classes (j : Nat) (f : Job → Job) : (s.updJob j f).classes = s.classes := rfl
@[simp] theorem State.updJob_marks (j : Nat) (f : Job → Job) : (s.updJob j f).marks = s.marks := rfl
@[simp] theorem State.updJob_msgs (j : Nat) (f : Job → Job) : (s.updJob j f).msgs = s.msgs := rfl
@[simp] theorem State.updJob_vats (j : Nat) (f : Job → Job) : (s.updJob j f).vats = s.vats := rfl
@[simp] theorem State.updJob_module (j : Nat) (f : Job → Job) : (s.updJob j f).module = s.module := rfl
@[simp] theorem State.updJob_fab (j : Nat) (f : Job → Job) : (s.updJob j f).fab = s.fab := rfl
@[simp] theorem State.updJob_host (j : Nat) (f : Job → Job) : (s.updJob j f).host = s.host := rfl
@[simp] theorem State.updJob_screens (j : Nat) (f : Job → Job) : (s.updJob j f).screens = s.screens := rfl

@[simp] theorem State.updBatch_agenda (b : Nat) (f : Batch → Batch) : (s.updBatch b f).agenda = s.agenda := rfl
@[simp] theorem State.updBatch_cur (b : Nat) (f : Batch → Batch) : (s.updBatch b f).cur = s.cur := rfl
@[simp] theorem State.updBatch_freeCtr (b : Nat) (f : Batch → Batch) : (s.updBatch b f).freeCtr = s.freeCtr := rfl
@[simp] theorem State.updBatch_seq (b : Nat) (f : Batch → Batch) : (s.updBatch b f).seq = s.seq := rfl
@[simp] theorem State.updBatch_turn (b : Nat) (f : Batch → Batch) : (s.updBatch b f).turn = s.turn := rfl
@[simp] theorem State.updBatch_auto (b : Nat) (f : Batch → Batch) : (s.updBatch b f).auto = s.auto := rfl
@[simp] theorem State.updBatch_mem (b : Nat) (f : Batch → Batch) : (s.updBatch b f).mem = s.mem := rfl
@[simp] theorem State.updBatch_roots (b : Nat) (f : Batch → Batch) : (s.updBatch b f).roots = s.roots := rfl
@[simp] theorem State.updBatch_strands (b : Nat) (f : Batch → Batch) : (s.updBatch b f).strands = s.strands := rfl
@[simp] theorem State.updBatch_batches (b : Nat) (f : Batch → Batch) : (s.updBatch b f).batches = nmUpd s.batches b f := rfl
@[simp] theorem State.updBatch_jobs (b : Nat) (f : Batch → Batch) : (s.updBatch b f).jobs = s.jobs := rfl
@[simp] theorem State.updBatch_launches (b : Nat) (f : Batch → Batch) : (s.updBatch b f).launches = s.launches := rfl
@[simp] theorem State.updBatch_cores (b : Nat) (f : Batch → Batch) : (s.updBatch b f).cores = s.cores := rfl
@[simp] theorem State.updBatch_dies (b : Nat) (f : Batch → Batch) : (s.updBatch b f).dies = s.dies := rfl
@[simp] theorem State.updBatch_teams (b : Nat) (f : Batch → Batch) : (s.updBatch b f).teams = s.teams := rfl
@[simp] theorem State.updBatch_pkgComb (b : Nat) (f : Batch → Batch) : (s.updBatch b f).pkgComb = s.pkgComb := rfl
@[simp] theorem State.updBatch_det (b : Nat) (f : Batch → Batch) : (s.updBatch b f).det = s.det := rfl
@[simp] theorem State.updBatch_tinvs (b : Nat) (f : Batch → Batch) : (s.updBatch b f).tinvs = s.tinvs := rfl
@[simp] theorem State.updBatch_pfaults (b : Nat) (f : Batch → Batch) : (s.updBatch b f).pfaults = s.pfaults := rfl
@[simp] theorem State.updBatch_classes (b : Nat) (f : Batch → Batch) : (s.updBatch b f).classes = s.classes := rfl
@[simp] theorem State.updBatch_marks (b : Nat) (f : Batch → Batch) : (s.updBatch b f).marks = s.marks := rfl
@[simp] theorem State.updBatch_msgs (b : Nat) (f : Batch → Batch) : (s.updBatch b f).msgs = s.msgs := rfl
@[simp] theorem State.updBatch_vats (b : Nat) (f : Batch → Batch) : (s.updBatch b f).vats = s.vats := rfl
@[simp] theorem State.updBatch_module (b : Nat) (f : Batch → Batch) : (s.updBatch b f).module = s.module := rfl
@[simp] theorem State.updBatch_fab (b : Nat) (f : Batch → Batch) : (s.updBatch b f).fab = s.fab := rfl
@[simp] theorem State.updBatch_host (b : Nat) (f : Batch → Batch) : (s.updBatch b f).host = s.host := rfl
@[simp] theorem State.updBatch_screens (b : Nat) (f : Batch → Batch) : (s.updBatch b f).screens = s.screens := rfl

@[simp] theorem State.acts_agenda (sid : Nat) : (s.acts sid).agenda = s.agenda := rfl
@[simp] theorem State.acts_cur (sid : Nat) : (s.acts sid).cur = s.cur := rfl
@[simp] theorem State.acts_freeCtr (sid : Nat) : (s.acts sid).freeCtr = s.freeCtr := rfl
@[simp] theorem State.acts_seq (sid : Nat) : (s.acts sid).seq = s.seq := rfl
@[simp] theorem State.acts_turn (sid : Nat) : (s.acts sid).turn = s.turn := rfl
@[simp] theorem State.acts_auto (sid : Nat) : (s.acts sid).auto = s.auto := rfl
@[simp] theorem State.acts_mem (sid : Nat) : (s.acts sid).mem = s.mem := rfl
@[simp] theorem State.acts_roots (sid : Nat) : (s.acts sid).roots = s.roots := rfl
@[simp] theorem State.acts_strands (sid : Nat) : (s.acts sid).strands = nmUpd s.strands sid fun st => { st with acted := true } := rfl
@[simp] theorem State.acts_batches (sid : Nat) : (s.acts sid).batches = s.batches := rfl
@[simp] theorem State.acts_jobs (sid : Nat) : (s.acts sid).jobs = s.jobs := rfl
@[simp] theorem State.acts_launches (sid : Nat) : (s.acts sid).launches = s.launches := rfl
@[simp] theorem State.acts_cores (sid : Nat) : (s.acts sid).cores = s.cores := rfl
@[simp] theorem State.acts_dies (sid : Nat) : (s.acts sid).dies = s.dies := rfl
@[simp] theorem State.acts_teams (sid : Nat) : (s.acts sid).teams = s.teams := rfl
@[simp] theorem State.acts_pkgComb (sid : Nat) : (s.acts sid).pkgComb = s.pkgComb := rfl
@[simp] theorem State.acts_det (sid : Nat) : (s.acts sid).det = s.det := rfl
@[simp] theorem State.acts_tinvs (sid : Nat) : (s.acts sid).tinvs = s.tinvs := rfl
@[simp] theorem State.acts_pfaults (sid : Nat) : (s.acts sid).pfaults = s.pfaults := rfl
@[simp] theorem State.acts_classes (sid : Nat) : (s.acts sid).classes = s.classes := rfl
@[simp] theorem State.acts_marks (sid : Nat) : (s.acts sid).marks = s.marks := rfl
@[simp] theorem State.acts_msgs (sid : Nat) : (s.acts sid).msgs = s.msgs := rfl
@[simp] theorem State.acts_vats (sid : Nat) : (s.acts sid).vats = s.vats := rfl
@[simp] theorem State.acts_module (sid : Nat) : (s.acts sid).module = s.module := rfl
@[simp] theorem State.acts_fab (sid : Nat) : (s.acts sid).fab = s.fab := rfl
@[simp] theorem State.acts_host (sid : Nat) : (s.acts sid).host = s.host := rfl
@[simp] theorem State.acts_screens (sid : Nat) : (s.acts sid).screens = s.screens := rfl

@[simp] theorem State.tick_agenda : (s.tick.2).agenda = s.agenda := rfl
@[simp] theorem State.tick_cur : (s.tick.2).cur = s.cur := rfl
@[simp] theorem State.tick_freeCtr : (s.tick.2).freeCtr = s.freeCtr := rfl
@[simp] theorem State.tick_seq : (s.tick.2).seq = s.seq + 1 := rfl
@[simp] theorem State.tick_turn : (s.tick.2).turn = s.turn := rfl
@[simp] theorem State.tick_auto : (s.tick.2).auto = s.auto := rfl
@[simp] theorem State.tick_mem : (s.tick.2).mem = s.mem := rfl
@[simp] theorem State.tick_roots : (s.tick.2).roots = s.roots := rfl
@[simp] theorem State.tick_strands : (s.tick.2).strands = s.strands := rfl
@[simp] theorem State.tick_batches : (s.tick.2).batches = s.batches := rfl
@[simp] theorem State.tick_jobs : (s.tick.2).jobs = s.jobs := rfl
@[simp] theorem State.tick_launches : (s.tick.2).launches = s.launches := rfl
@[simp] theorem State.tick_cores : (s.tick.2).cores = s.cores := rfl
@[simp] theorem State.tick_dies : (s.tick.2).dies = s.dies := rfl
@[simp] theorem State.tick_teams : (s.tick.2).teams = s.teams := rfl
@[simp] theorem State.tick_pkgComb : (s.tick.2).pkgComb = s.pkgComb := rfl
@[simp] theorem State.tick_det : (s.tick.2).det = s.det := rfl
@[simp] theorem State.tick_tinvs : (s.tick.2).tinvs = s.tinvs := rfl
@[simp] theorem State.tick_pfaults : (s.tick.2).pfaults = s.pfaults := rfl
@[simp] theorem State.tick_classes : (s.tick.2).classes = s.classes := rfl
@[simp] theorem State.tick_marks : (s.tick.2).marks = s.marks := rfl
@[simp] theorem State.tick_msgs : (s.tick.2).msgs = s.msgs := rfl
@[simp] theorem State.tick_vats : (s.tick.2).vats = s.vats := rfl
@[simp] theorem State.tick_module : (s.tick.2).module = s.module := rfl
@[simp] theorem State.tick_fab : (s.tick.2).fab = s.fab := rfl
@[simp] theorem State.tick_host : (s.tick.2).host = s.host := rfl
@[simp] theorem State.tick_screens : (s.tick.2).screens = s.screens := rfl

@[simp] theorem State.setHwq_agenda (c n : Nat) (q : HwQ) : (s.setHwq c n q).agenda = s.agenda := rfl
@[simp] theorem State.setHwq_cur (c n : Nat) (q : HwQ) : (s.setHwq c n q).cur = s.cur := rfl
@[simp] theorem State.setHwq_freeCtr (c n : Nat) (q : HwQ) : (s.setHwq c n q).freeCtr = s.freeCtr := rfl
@[simp] theorem State.setHwq_seq (c n : Nat) (q : HwQ) : (s.setHwq c n q).seq = s.seq := rfl
@[simp] theorem State.setHwq_turn (c n : Nat) (q : HwQ) : (s.setHwq c n q).turn = s.turn := rfl
@[simp] theorem State.setHwq_auto (c n : Nat) (q : HwQ) : (s.setHwq c n q).auto = s.auto := rfl
@[simp] theorem State.setHwq_mem (c n : Nat) (q : HwQ) : (s.setHwq c n q).mem = s.mem := rfl
@[simp] theorem State.setHwq_roots (c n : Nat) (q : HwQ) : (s.setHwq c n q).roots = s.roots := rfl
@[simp] theorem State.setHwq_strands (c n : Nat) (q : HwQ) : (s.setHwq c n q).strands = s.strands := rfl
@[simp] theorem State.setHwq_batches (c n : Nat) (q : HwQ) : (s.setHwq c n q).batches = s.batches := rfl
@[simp] theorem State.setHwq_jobs (c n : Nat) (q : HwQ) : (s.setHwq c n q).jobs = s.jobs := rfl
@[simp] theorem State.setHwq_launches (c n : Nat) (q : HwQ) : (s.setHwq c n q).launches = s.launches := rfl
@[simp] theorem State.setHwq_dies (c n : Nat) (q : HwQ) : (s.setHwq c n q).dies = s.dies := rfl
@[simp] theorem State.setHwq_teams (c n : Nat) (q : HwQ) : (s.setHwq c n q).teams = s.teams := rfl
@[simp] theorem State.setHwq_pkgComb (c n : Nat) (q : HwQ) : (s.setHwq c n q).pkgComb = s.pkgComb := rfl
@[simp] theorem State.setHwq_det (c n : Nat) (q : HwQ) : (s.setHwq c n q).det = s.det := rfl
@[simp] theorem State.setHwq_tinvs (c n : Nat) (q : HwQ) : (s.setHwq c n q).tinvs = s.tinvs := rfl
@[simp] theorem State.setHwq_pfaults (c n : Nat) (q : HwQ) : (s.setHwq c n q).pfaults = s.pfaults := rfl
@[simp] theorem State.setHwq_classes (c n : Nat) (q : HwQ) : (s.setHwq c n q).classes = s.classes := rfl
@[simp] theorem State.setHwq_marks (c n : Nat) (q : HwQ) : (s.setHwq c n q).marks = s.marks := rfl
@[simp] theorem State.setHwq_msgs (c n : Nat) (q : HwQ) : (s.setHwq c n q).msgs = s.msgs := rfl
@[simp] theorem State.setHwq_vats (c n : Nat) (q : HwQ) : (s.setHwq c n q).vats = s.vats := rfl
@[simp] theorem State.setHwq_module (c n : Nat) (q : HwQ) : (s.setHwq c n q).module = s.module := rfl
@[simp] theorem State.setHwq_fab (c n : Nat) (q : HwQ) : (s.setHwq c n q).fab = s.fab := rfl
@[simp] theorem State.setHwq_host (c n : Nat) (q : HwQ) : (s.setHwq c n q).host = s.host := rfl
@[simp] theorem State.setHwq_screens (c n : Nat) (q : HwQ) : (s.setHwq c n q).screens = s.screens := rfl

@[simp] theorem State.updQueue_agenda (k : Nat) (g : HQueue → HQueue) : (s.updQueue k g).agenda = s.agenda := rfl
@[simp] theorem State.updQueue_cur (k : Nat) (g : HQueue → HQueue) : (s.updQueue k g).cur = s.cur := rfl
@[simp] theorem State.updQueue_freeCtr (k : Nat) (g : HQueue → HQueue) : (s.updQueue k g).freeCtr = s.freeCtr := rfl
@[simp] theorem State.updQueue_seq (k : Nat) (g : HQueue → HQueue) : (s.updQueue k g).seq = s.seq := rfl
@[simp] theorem State.updQueue_turn (k : Nat) (g : HQueue → HQueue) : (s.updQueue k g).turn = s.turn := rfl
@[simp] theorem State.updQueue_auto (k : Nat) (g : HQueue → HQueue) : (s.updQueue k g).auto = s.auto := rfl
@[simp] theorem State.updQueue_mem (k : Nat) (g : HQueue → HQueue) : (s.updQueue k g).mem = s.mem := rfl
@[simp] theorem State.updQueue_roots (k : Nat) (g : HQueue → HQueue) : (s.updQueue k g).roots = s.roots := rfl
@[simp] theorem State.updQueue_strands (k : Nat) (g : HQueue → HQueue) : (s.updQueue k g).strands = s.strands := rfl
@[simp] theorem State.updQueue_batches (k : Nat) (g : HQueue → HQueue) : (s.updQueue k g).batches = s.batches := rfl
@[simp] theorem State.updQueue_jobs (k : Nat) (g : HQueue → HQueue) : (s.updQueue k g).jobs = s.jobs := rfl
@[simp] theorem State.updQueue_launches (k : Nat) (g : HQueue → HQueue) : (s.updQueue k g).launches = s.launches := rfl
@[simp] theorem State.updQueue_cores (k : Nat) (g : HQueue → HQueue) : (s.updQueue k g).cores = s.cores := rfl
@[simp] theorem State.updQueue_dies (k : Nat) (g : HQueue → HQueue) : (s.updQueue k g).dies = s.dies := rfl
@[simp] theorem State.updQueue_teams (k : Nat) (g : HQueue → HQueue) : (s.updQueue k g).teams = s.teams := rfl
@[simp] theorem State.updQueue_pkgComb (k : Nat) (g : HQueue → HQueue) : (s.updQueue k g).pkgComb = s.pkgComb := rfl
@[simp] theorem State.updQueue_det (k : Nat) (g : HQueue → HQueue) : (s.updQueue k g).det = s.det := rfl
@[simp] theorem State.updQueue_tinvs (k : Nat) (g : HQueue → HQueue) : (s.updQueue k g).tinvs = s.tinvs := rfl
@[simp] theorem State.updQueue_pfaults (k : Nat) (g : HQueue → HQueue) : (s.updQueue k g).pfaults = s.pfaults := rfl
@[simp] theorem State.updQueue_classes (k : Nat) (g : HQueue → HQueue) : (s.updQueue k g).classes = s.classes := rfl
@[simp] theorem State.updQueue_marks (k : Nat) (g : HQueue → HQueue) : (s.updQueue k g).marks = s.marks := rfl
@[simp] theorem State.updQueue_msgs (k : Nat) (g : HQueue → HQueue) : (s.updQueue k g).msgs = s.msgs := rfl
@[simp] theorem State.updQueue_vats (k : Nat) (g : HQueue → HQueue) : (s.updQueue k g).vats = s.vats := rfl
@[simp] theorem State.updQueue_module (k : Nat) (g : HQueue → HQueue) : (s.updQueue k g).module = s.module := rfl
@[simp] theorem State.updQueue_fab (k : Nat) (g : HQueue → HQueue) : (s.updQueue k g).fab = s.fab := rfl
@[simp] theorem State.updQueue_screens (k : Nat) (g : HQueue → HQueue) : (s.updQueue k g).screens = s.screens := rfl

@[simp] theorem State.event_agenda (e : BitVec 8) (xs : List Nat) : (s.event e xs).agenda = s.agenda := rfl
@[simp] theorem State.event_cur (e : BitVec 8) (xs : List Nat) : (s.event e xs).cur = s.cur := rfl
@[simp] theorem State.event_freeCtr (e : BitVec 8) (xs : List Nat) : (s.event e xs).freeCtr = s.freeCtr := rfl
@[simp] theorem State.event_seq (e : BitVec 8) (xs : List Nat) : (s.event e xs).seq = s.seq := rfl
@[simp] theorem State.event_turn (e : BitVec 8) (xs : List Nat) : (s.event e xs).turn = s.turn := rfl
@[simp] theorem State.event_auto (e : BitVec 8) (xs : List Nat) : (s.event e xs).auto = s.auto := rfl
@[simp] theorem State.event_mem (e : BitVec 8) (xs : List Nat) : (s.event e xs).mem = s.mem := rfl
@[simp] theorem State.event_roots (e : BitVec 8) (xs : List Nat) : (s.event e xs).roots = s.roots := rfl
@[simp] theorem State.event_strands (e : BitVec 8) (xs : List Nat) : (s.event e xs).strands = s.strands := rfl
@[simp] theorem State.event_batches (e : BitVec 8) (xs : List Nat) : (s.event e xs).batches = s.batches := rfl
@[simp] theorem State.event_jobs (e : BitVec 8) (xs : List Nat) : (s.event e xs).jobs = s.jobs := rfl
@[simp] theorem State.event_launches (e : BitVec 8) (xs : List Nat) : (s.event e xs).launches = s.launches := rfl
@[simp] theorem State.event_cores (e : BitVec 8) (xs : List Nat) : (s.event e xs).cores = s.cores := rfl
@[simp] theorem State.event_dies (e : BitVec 8) (xs : List Nat) : (s.event e xs).dies = s.dies := rfl
@[simp] theorem State.event_teams (e : BitVec 8) (xs : List Nat) : (s.event e xs).teams = s.teams := rfl
@[simp] theorem State.event_pkgComb (e : BitVec 8) (xs : List Nat) : (s.event e xs).pkgComb = s.pkgComb := rfl
@[simp] theorem State.event_det (e : BitVec 8) (xs : List Nat) : (s.event e xs).det = s.det := rfl
@[simp] theorem State.event_tinvs (e : BitVec 8) (xs : List Nat) : (s.event e xs).tinvs = s.tinvs := rfl
@[simp] theorem State.event_pfaults (e : BitVec 8) (xs : List Nat) : (s.event e xs).pfaults = s.pfaults := rfl
@[simp] theorem State.event_classes (e : BitVec 8) (xs : List Nat) : (s.event e xs).classes = s.classes := rfl
@[simp] theorem State.event_marks (e : BitVec 8) (xs : List Nat) : (s.event e xs).marks = s.marks := rfl
@[simp] theorem State.event_msgs (e : BitVec 8) (xs : List Nat) : (s.event e xs).msgs = s.msgs := rfl
@[simp] theorem State.event_vats (e : BitVec 8) (xs : List Nat) : (s.event e xs).vats = s.vats := rfl
@[simp] theorem State.event_module (e : BitVec 8) (xs : List Nat) : (s.event e xs).module = s.module := rfl
@[simp] theorem State.event_fab (e : BitVec 8) (xs : List Nat) : (s.event e xs).fab = s.fab := rfl
@[simp] theorem State.event_screens (e : BitVec 8) (xs : List Nat) : (s.event e xs).screens = s.screens := rfl

@[simp] theorem State.setRgn_agenda (sid f : Nat) (pc : VAddr) : (setRgn s sid f pc).agenda = s.agenda := rfl
@[simp] theorem State.setRgn_cur (sid f : Nat) (pc : VAddr) : (setRgn s sid f pc).cur = s.cur := rfl
@[simp] theorem State.setRgn_freeCtr (sid f : Nat) (pc : VAddr) : (setRgn s sid f pc).freeCtr = s.freeCtr := rfl
@[simp] theorem State.setRgn_seq (sid f : Nat) (pc : VAddr) : (setRgn s sid f pc).seq = s.seq := rfl
@[simp] theorem State.setRgn_turn (sid f : Nat) (pc : VAddr) : (setRgn s sid f pc).turn = s.turn := rfl
@[simp] theorem State.setRgn_auto (sid f : Nat) (pc : VAddr) : (setRgn s sid f pc).auto = s.auto := rfl
@[simp] theorem State.setRgn_mem (sid f : Nat) (pc : VAddr) : (setRgn s sid f pc).mem = s.mem := rfl
@[simp] theorem State.setRgn_roots (sid f : Nat) (pc : VAddr) : (setRgn s sid f pc).roots = s.roots := rfl
@[simp] theorem State.setRgn_batches (sid f : Nat) (pc : VAddr) : (setRgn s sid f pc).batches = s.batches := rfl
@[simp] theorem State.setRgn_jobs (sid f : Nat) (pc : VAddr) : (setRgn s sid f pc).jobs = s.jobs := rfl
@[simp] theorem State.setRgn_launches (sid f : Nat) (pc : VAddr) : (setRgn s sid f pc).launches = s.launches := rfl
@[simp] theorem State.setRgn_cores (sid f : Nat) (pc : VAddr) : (setRgn s sid f pc).cores = s.cores := rfl
@[simp] theorem State.setRgn_dies (sid f : Nat) (pc : VAddr) : (setRgn s sid f pc).dies = s.dies := rfl
@[simp] theorem State.setRgn_teams (sid f : Nat) (pc : VAddr) : (setRgn s sid f pc).teams = s.teams := rfl
@[simp] theorem State.setRgn_pkgComb (sid f : Nat) (pc : VAddr) : (setRgn s sid f pc).pkgComb = s.pkgComb := rfl
@[simp] theorem State.setRgn_det (sid f : Nat) (pc : VAddr) : (setRgn s sid f pc).det = s.det := rfl
@[simp] theorem State.setRgn_tinvs (sid f : Nat) (pc : VAddr) : (setRgn s sid f pc).tinvs = s.tinvs := rfl
@[simp] theorem State.setRgn_pfaults (sid f : Nat) (pc : VAddr) : (setRgn s sid f pc).pfaults = s.pfaults := rfl
@[simp] theorem State.setRgn_classes (sid f : Nat) (pc : VAddr) : (setRgn s sid f pc).classes = s.classes := rfl
@[simp] theorem State.setRgn_marks (sid f : Nat) (pc : VAddr) : (setRgn s sid f pc).marks = s.marks := rfl
@[simp] theorem State.setRgn_msgs (sid f : Nat) (pc : VAddr) : (setRgn s sid f pc).msgs = s.msgs := rfl
@[simp] theorem State.setRgn_vats (sid f : Nat) (pc : VAddr) : (setRgn s sid f pc).vats = s.vats := rfl
@[simp] theorem State.setRgn_module (sid f : Nat) (pc : VAddr) : (setRgn s sid f pc).module = s.module := rfl
@[simp] theorem State.setRgn_fab (sid f : Nat) (pc : VAddr) : (setRgn s sid f pc).fab = s.fab := rfl
@[simp] theorem State.setRgn_host (sid f : Nat) (pc : VAddr) : (setRgn s sid f pc).host = s.host := rfl
@[simp] theorem State.setRgn_screens (sid f : Nat) (pc : VAddr) : (setRgn s sid f pc).screens = s.screens := rfl

/-! ## Records after an update -/

theorem State.core_setCore (c d : Nat) (x : Core) : (s.setCore c x).core d = if d = c then x else s.core d := by
  simp only [State.core, State.setCore_cores, nmGet_nmSet]; split <;> simp

theorem State.core_updCore (c d : Nat) (f : Core → Core) : (s.updCore c f).core d = if d = c then f (s.core c) else s.core d :=
  s.core_setCore c d _

@[simp] theorem State.core_updCore_self (c : Nat) (f : Core → Core) : (s.updCore c f).core c = f (s.core c) := by
  simp [State.core_updCore]

theorem State.die_updDie (c d : Nat) (f : Die → Die) : (s.updDie c f).die d = if d = c then f (s.die c) else s.die d := by
  simp only [State.die, State.updDie_dies, nmGet_nmSet]; split <;> simp

@[simp] theorem State.die_updDie_self (d : Nat) (f : Die → Die) : (s.updDie d f).die d = f (s.die d) := by
  simp [State.die_updDie]

theorem State.vat_updVat (c d : Nat) (f : Vat → Vat) : (s.updVat c f).vat d = if d = c then f (s.vat c) else s.vat d := by
  simp only [State.vat, State.updVat_vats, nmGet_nmSet]; split <;> simp

@[simp] theorem State.core_updStrand (sid : Nat) (f : Strand → Strand) (c : Nat) : (s.updStrand sid f).core c = s.core c := rfl
@[simp] theorem State.core_updFrag (sid f : Nat) (g : Frag → Frag) (c : Nat) : (s.updFrag sid f g).core c = s.core c := rfl
@[simp] theorem State.core_acts (sid c : Nat) : (s.acts sid).core c = s.core c := rfl
@[simp] theorem State.core_tick (c : Nat) : s.tick.2.core c = s.core c := rfl
@[simp] theorem State.core_updDie (d : Nat) (f : Die → Die) (c : Nat) : (s.updDie d f).core c = s.core c := rfl
@[simp] theorem State.job?_updStrand (sid : Nat) (f : Strand → Strand) (st : Strand) : (s.updStrand sid f).job? st = s.job? st := rfl
@[simp] theorem State.job?_updCore (c : Nat) (f : Core → Core) (st : Strand) : (s.updCore c f).job? st = s.job? st := rfl
@[simp] theorem State.asid_updStrand (sid : Nat) (f : Strand → Strand) (st : Strand) : (s.updStrand sid f).asid st = s.asid st := rfl

theorem State.strand_updStrand (sid x : Nat) (f : Strand → Strand) :
    nmGet (s.updStrand sid f).strands x = if x = sid then (nmGet s.strands x).map f else nmGet s.strands x := nmGet_nmUpd _ _ _ _

@[simp] theorem State.strand_updStrand_self (sid : Nat) (f : Strand → Strand) :
    nmGet (s.updStrand sid f).strands sid = (nmGet s.strands sid).map f := nmGet_nmUpd_self _ _ _

@[simp] theorem State.strand_updFrag_self (sid f : Nat) (g : Frag → Frag) :
    nmGet (s.updFrag sid f g).strands sid = (nmGet s.strands sid).map fun st => st.updFrag f g := nmGet_nmUpd_self _ _ _

theorem Strand.frag_updFrag (st : Strand) (f x : Nat) (g : Frag → Frag) :
    nmGet (st.updFrag f g).frags x = if x = f then (nmGet st.frags x).map g else nmGet st.frags x := nmGet_nmUpd _ _ _ _

@[simp] theorem Strand.updFrag_r (st : Strand) (f : Nat) (g : Frag → Frag) : (st.updFrag f g).r = st.r := rfl
@[simp] theorem Strand.updFrag_sp (st : Strand) (f : Nat) (g : Frag → Frag) : (st.updFrag f g).sp = st.sp := rfl
@[simp] theorem Strand.updFrag_pend (st : Strand) (f : Nat) (g : Frag → Frag) : (st.updFrag f g).pend = st.pend := rfl
@[simp] theorem Strand.updFrag_rsb (st : Strand) (f : Nat) (g : Frag → Frag) : (st.updFrag f g).rsb = st.rsb := rfl

end Sys2Proof.Machine
end

