-- ==== Sys2Proof/Laws/Quiet.lean ====
section
/-!
SUPPORT. What ending a region, joining, moving on, ending a job and stopping for a translation never change: module
memory, the registers and special registers of every strand, every batch's scratchpad, the roots, the launches and the
host's memory. One lemma for each shared operation.
-/
namespace Sys2Proof.Machine

/-- The registers of a strand: allocated and special; which fragment a handler goes on in is none (R164). -/
def Strand.regs (st : Strand) : Regs × Spec := (st.r, { st.sp with hfrag := none, ufrag := none })

/-- A strand with the same registers, and no rendezvous that it did not have. -/
def Strand.Like (a b : Strand) : Prop := b.regs = a.regs ∧ (b.rdvs = a.rdvs ∨ b.rdvs = [])

theorem Strand.Like.refl (a : Strand) : a.Like a := ⟨rfl, .inl rfl⟩

theorem Strand.Like.trans {a b c : Strand} (h : a.Like b) (k : b.Like c) : a.Like c :=
  ⟨k.1.trans h.1, k.2.elim (fun e => h.2.elim (fun g => .inl (e.trans g)) fun g => .inr (e.trans g)) .inr⟩

/-- The same strands, each like it was. -/
def likeOpt : Option Strand → Option Strand → Prop
  | some a, some b => a.Like b
  | none, none => True
  | _, _ => False

theorem likeOpt.refl (a : Option Strand) : likeOpt a a := by cases a; exact trivial; exact Strand.Like.refl _

theorem likeOpt.trans {a b c : Option Strand} (h : likeOpt a b) (k : likeOpt b c) : likeOpt a c := by
  cases a <;> cases b <;> cases c <;> first | exact trivial | exact h.elim | exact k.elim | exact Strand.Like.trans h k

theorem likeOpt.map {a : Option Strand} {f : Strand → Strand} (h : ∀ x : Strand, x.Like (f x)) : likeOpt a (a.map f) := by
  cases a; exact trivial; exact h _

theorem likeOpt.regs {a b : Option Strand} (h : likeOpt a b) : b.map Strand.regs = a.map Strand.regs := by
  cases a <;> cases b <;> first | rfl | exact h.elim | exact congrArg some h.1

/-- Nothing that software computes with has changed between two states. -/
structure Quiet (s t : State) : Prop where
  mem : t.mem = s.mem
  roots : t.roots = s.roots
  launches : t.launches = s.launches
  module : t.module = s.module
  hostMem : t.host.mem = s.host.mem
  strand : ∀ x, likeOpt (nmGet s.strands x) (nmGet t.strands x)
  scr : ∀ b, (nmGet t.batches b).map (·.scr) = (nmGet s.batches b).map (·.scr)

theorem Quiet.regs {s t : State} (q : Quiet s t) (x : Nat) : (nmGet t.strands x).map Strand.regs = (nmGet s.strands x).map Strand.regs :=
  (q.strand x).regs

theorem Quiet.refl (s : State) : Quiet s s := ⟨rfl, rfl, rfl, rfl, rfl, fun _ => .refl _, fun _ => rfl⟩

theorem Quiet.trans {s t u : State} (a : Quiet s t) (b : Quiet t u) : Quiet s u :=
  ⟨b.mem.trans a.mem, b.roots.trans a.roots, b.launches.trans a.launches, b.module.trans a.module, b.hostMem.trans a.hostMem,
   fun x => (a.strand x).trans (b.strand x), fun x => (b.scr x).trans (a.scr x)⟩

/-- A state that differs only in fields that Quiet does not speak of. -/
theorem Quiet.of_eq {s t : State} (h1 : t.mem = s.mem) (h2 : t.roots = s.roots) (h3 : t.launches = s.launches) (h4 : t.module = s.module)
    (h5 : t.host = s.host) (h6 : t.strands = s.strands) (h7 : t.batches = s.batches) : Quiet s t :=
  ⟨h1, h2, h3, h4, by rw [h5], fun _ => by rw [h6]; exact .refl _, fun _ => by rw [h7]⟩

theorem quiet_updStrand (s : State) (sid : Nat) (f : Strand → Strand) (hf : ∀ st : Strand, st.Like (f st)) : Quiet s (s.updStrand sid f) := by
  refine ⟨rfl, rfl, rfl, rfl, rfl, fun x => ?_, fun _ => rfl⟩
  rw [State.strand_updStrand]
  split
  · exact .map hf
  · exact .refl _

theorem quiet_updFrag (s : State) (sid f : Nat) (g : Frag → Frag) : Quiet s (s.updFrag sid f g) := quiet_updStrand s sid _ fun _ => ⟨rfl, .inl rfl⟩
theorem quiet_acts (s : State) (sid : Nat) : Quiet s (s.acts sid) := quiet_updStrand s sid _ fun _ => ⟨rfl, .inl rfl⟩
theorem quiet_setRgn (s : State) (sid f : Nat) (pc : VAddr) : Quiet s (setRgn s sid f pc) := quiet_updFrag s sid f _
theorem quiet_updCore (s : State) (c : Nat) (f : Core → Core) : Quiet s (s.updCore c f) := .of_eq rfl rfl rfl rfl rfl rfl rfl
theorem quiet_setCore (s : State) (c : Nat) (x : Core) : Quiet s (s.setCore c x) := .of_eq rfl rfl rfl rfl rfl rfl rfl
theorem quiet_updDie (s : State) (d : Nat) (f : Die → Die) : Quiet s (s.updDie d f) := .of_eq rfl rfl rfl rfl rfl rfl rfl
theorem quiet_tick (s : State) : Quiet s s.tick.2 := .of_eq rfl rfl rfl rfl rfl rfl rfl
theorem quiet_updJob (s : State) (j : Nat) (f : Job → Job) : Quiet s (s.updJob j f) := .of_eq rfl rfl rfl rfl rfl rfl rfl

theorem quiet_updBatch (s : State) (b : Nat) (f : Batch → Batch) (hf : ∀ x, (f x).scr = x.scr) : Quiet s (s.updBatch b f) := by
  refine ⟨rfl, rfl, rfl, rfl, rfl, fun _ => .refl _, fun x => ?_⟩
  rw [State.updBatch_batches, nmGet_nmUpd]
  split
  · cases nmGet s.batches x <;> simp [hf]
  · rfl

/-- Setting the strand that stands at a key to one with the same registers. -/
theorem quiet_setStrand (s : State) (sid : Nat) {st st' : Strand} (h : nmGet s.strands sid = some st) (e : st.Like st') :
    Quiet s { s with strands := nmSet s.strands sid st' } := by
  refine ⟨rfl, rfl, rfl, rfl, rfl, fun x => ?_, fun _ => rfl⟩
  rw [nmGet_nmSet]
  split
  · next hx => subst hx; rw [h]; exact e
  · exact .refl _

/-- Setting a strand again, with the same registers. -/
theorem quiet_resetStrand (s : State) (sid : Nat) (a b : Strand) (e : a.Like b) :
    Quiet { s with strands := nmSet s.strands sid a } { s with strands := nmSet (nmSet s.strands sid a) sid b } :=
  quiet_setStrand { s with strands := nmSet s.strands sid a } sid (nmGet_nmSet_self _ _ _) e

theorem quiet_mailPut (s : State) (a b : Nat) (m : BitVec 256) : Quiet s (mailPut s a b m) := by
  exact ⟨rfl, rfl, rfl, rfl, rfl, fun _ => .refl _, fun _ => rfl⟩

theorem quiet_addFault (s : State) (asid va pc : Nat) (m : W32) (w : Waiter) : Quiet s (s.addFault asid va pc m w).2 :=
  ((quiet_tick s).trans (quiet_mailPut _ _ _ _)).trans (.of_eq rfl rfl rfl rfl rfl rfl rfl)

theorem quiet_log (s : State) (j : Nat) (r : List W64) : Quiet s (s.log j r) := by
  unfold State.log; dsimp only; split
  · exact .refl s
  · exact ⟨rfl, rfl, rfl, rfl, rfl, fun _ => .refl _, fun _ => rfl⟩

theorem quiet_event (s : State) (e : BitVec 8) (xs : List Nat) : Quiet s (s.event e xs) := ⟨rfl, rfl, rfl, rfl, rfl, fun _ => .refl _, fun _ => rfl⟩

/-! ## The end of a job -/

theorem quiet_dropTeams (s : State) (g : Nat → Team → Bool) : Quiet s (s.dropTeams g) := .of_eq rfl rfl rfl rfl rfl rfl rfl

theorem nmGet_mapIf {α : Type} (m : NMap α) (p : α → Bool) (g : α → α) (x : Nat) :
    nmGet (m.map fun e => if p e.2 then (e.1, g e.2) else e) x = (nmGet m x).map fun v => if p v then g v else v := by
  induction m with
  | nil => rfl
  | cons e m ih =>
    obtain ⟨k, v⟩ := e
    by_cases hk : x = k <;> by_cases hp : p v <;> simp [nmGet, hk, hp, ih]

theorem quiet_chargeBatch (s : State) (b : Batch) : Quiet s (chargeBatch s b) := by
  unfold chargeBatch; split
  · exact .refl s
  · exact ⟨rfl, rfl, rfl, rfl, rfl, fun _ => .refl _, fun _ => rfl⟩

theorem quiet_killBatch (s : State) (b : Batch) : Quiet s (killBatch s b) := by
  have h : Quiet s (if b.resident then chargeBatch s b else s) := by
    split
    · exact quiet_chargeBatch s b
    · exact .refl s
  unfold killBatch; dsimp only; split
  · exact h.trans (quiet_log _ _ _)
  · exact h

theorem quiet_foldl {α : Type} (g : State → α → State) (hg : ∀ s x, Quiet s (g s x)) (xs : List α) (s : State) : Quiet s (xs.foldl g s) := by
  induction xs generalizing s with
  | nil => exact .refl s
  | cons x xs ih => exact (hg s x).trans (ih _)

theorem quiet_endJob (s : State) (j : Nat) (c : BitVec 8) (r : List W64) : Quiet s (endJob s j c r) := by
  unfold endJob
  split
  · exact .refl s
  · dsimp only
    have h0 := quiet_log s j r
    generalize s.log j r = s0 at h0 ⊢
    refine h0.trans ?_
    split
    · exact .refl _
    · have h1 := (quiet_foldl (fun (s : State) (e : Nat × Batch) => killBatch s e.2) (fun s e => quiet_killBatch s e.2)
        (s0.batches.filter fun e => e.2.job == j) s0).trans (quiet_updJob _ j fun x => { x with ended := true, cause := some c, hids := [] })
      generalize State.updJob _ j _ = s1 at h1 ⊢
      refine h1.trans ⟨rfl, rfl, rfl, rfl, rfl, fun x => ?_, fun b => ?_⟩
      · refine (nmGet_mapIf s1.strands (fun v => v.job == j) (Strand.kill · (phaseOver s1)) x).symm ▸ likeOpt.map fun y => ?_
        split
        · exact ⟨rfl, .inr rfl⟩
        · exact .refl y
      · refine (congrArg _ (nmGet_mapIf s1.batches (fun v => v.job == j) (fun v => { v with ended := true, qs := [] }) b)).trans ?_
        cases nmGet s1.batches b <;> simp
        split <;> rfl

theorem quiet_endJobAt (s : State) (sid f : Nat) (c : BitVec 8) (m : List W64) : Quiet s (endJobAt s sid f c m) := by
  unfold endJobAt
  repeat' split
  · exact .refl s
  · exact .refl s
  · exact (quiet_updFrag s sid f _).trans (quiet_endJob _ _ _ _)

/-! ## Translation -/

theorem quiet_dieXlate (s : State) (d asid va : Nat) : Quiet s (dieXlate s d asid va).2 := by
  unfold dieXlate
  split
  · exact .refl s
  · split
    · dsimp only; exact quiet_updDie s _ _
    · exact .refl s

theorem quiet_coreXlate (s : State) (c slot asid batch va : Nat) : Quiet s (coreXlate s c slot asid batch va).2 := by
  unfold coreXlate
  split
  · exact .refl s
  · dsimp only
    split
    · exact .refl s
    · split
      · exact quiet_setCore s c _
      · split
        · exact .refl s
        · have h := quiet_dieXlate s c asid va
          split
          · next e s' heq => rw [heq] at h; dsimp only at h ⊢; exact h.trans (quiet_updCore _ _ _)
          · next r hr => exact h

theorem quiet_pipeXlate (s : State) (p : Pipe) (c asid va : Nat) : Quiet s (pipeXlate s p c asid va).2 := by
  unfold pipeXlate
  split
  · exact .refl s
  · dsimp only
    split
    · exact .refl s
    · have h := quiet_dieXlate s c asid va
      split
      · next e s' heq => rw [heq] at h; dsimp only at h ⊢; exact h.trans (quiet_updCore _ _ _)
      · exact h

/-! ## Faults, validation and the region end -/

theorem quiet_withdrawMarks (s : State) (sid : Nat) : Quiet s (withdrawMarks s sid) := by
  unfold withdrawMarks
  split
  · exact .of_eq rfl rfl rfl rfl rfl rfl rfl
  · exact .refl s

theorem quiet_abortRegion (s : State) (sid n : Nat) : Quiet s (abortRegion s sid n) :=
  (quiet_withdrawMarks s sid).trans (quiet_updStrand _ sid _ fun _ => ⟨rfl, .inr rfl⟩)

theorem quiet_abortTry (s : State) (sid : Nat) : Quiet s (abortTry s sid) := by
  unfold abortTry
  split
  · exact .refl s
  · split
    · exact .refl s
    · split
      · exact .refl s
      · exact quiet_abortRegion _ _ _

theorem quiet_strandFault (s : State) (sid f va : Nat) : Quiet s (strandFault s sid f va) := by
  unfold strandFault
  split
  · exact .refl s
  · split
    · exact .refl s
    · split
      · exact Quiet.trans (quiet_addFault s _ _ _ _ _) (quiet_updFrag _ _ _ _)
      · dsimp only
        refine Quiet.trans ?_ (quiet_abortTry _ _)
        refine Quiet.trans ?_ (quiet_updStrand _ sid _ fun _ => ⟨rfl, .inl rfl⟩)
        exact quiet_addFault s _ _ _ _ _

theorem quiet_strandXFail (s : State) (sid f va : Nat) (r : XRes) : Quiet s (strandXFail s sid f va r) := by
  unfold strandXFail
  split
  · exact quiet_strandFault _ _ _ _
  · exact quiet_endJobAt _ _ _ _ _
  · exact quiet_endJobAt _ _ _ _ _

theorem quiet_detAccess {s s' : State} {sid : Nat} {st : Strand} {team va sec : Nat} {k : DetKind}
    (h : detAccess s sid st team va sec k = .inl s') : Quiet s s' := by
  unfold detAccess at h
  dsimp only at h
  repeat' (split at h)
  all_goals first
    | (cases h; exact .of_eq rfl rfl rfl rfl rfl rfl rfl)
    | cases h

/-- The state in a result of either outcome. -/
def eitherState {α : Type} (x : (State × α) ⊕ State) : State := match x with | .inl y => y.1 | .inr y => y

theorem quiet_inr {α : Type} {s t : State} {x : (State × α) ⊕ State} (h : x = .inr t) (q : Quiet s (eitherState x)) : Quiet s t := by
  subst h; exact q
theorem quiet_inl {α : Type} {s t : State} {a : α} {x : (State × α) ⊕ State} (h : x = .inl (t, a)) (q : Quiet s (eitherState x)) : Quiet s t := by
  subst h; exact q

theorem quiet_validate (s : State) (sid f team : Nat) (k : DetKind) (st : Strand) (e : RsbEnt) :
    Quiet s (eitherState (validate s sid f team k st e)) := by
  have det : ∀ (s0 : State) (e : RsbEnt), Quiet s0 (eitherState (α := RsbEnt) (if e.ord == 3 then
      match detAccess s0 sid st team e.va (pkey e.home e.pa) k with
      | .inl s' => .inl (s', e)
      | .inr (c, rec) => .inr (endJob (s0.updFrag sid f fun x => { x with st := .stopped }) st.job c rec)
      else .inl (s0, e))) := by
    intro s0 e
    split
    · split
      · next s' h => exact quiet_detAccess h
      · exact (quiet_updFrag _ _ _ _).trans (quiet_endJob _ _ _ _)
    · exact .refl _
  have fresh : ∀ (s0 : State) (t : Tlb), Quiet s0 (eitherState (α := RsbEnt) (if (!t.w) = true then .inr (endJobAt s0 sid f 0x47#8 [])
      else if (!e.fits t) = true then .inr (endJobAt s0 sid f 0x42#8 []) else (if (e.again (t.piece e.va 32)).ord == 3 then
      match detAccess s0 sid st team (e.again (t.piece e.va 32)).va (pkey (e.again (t.piece e.va 32)).home (e.again (t.piece e.va 32)).pa) k with
      | .inl s' => .inl (s', e.again (t.piece e.va 32))
      | .inr (c, rec) => .inr (endJob (s0.updFrag sid f fun x => { x with st := .stopped }) st.job c rec)
      else .inl (s0, e.again (t.piece e.va 32))))) := by
    intro s0 t
    split
    · exact quiet_endJobAt _ _ _ _ _
    · split
      · exact quiet_endJobAt _ _ _ _ _
      · exact det _ _
  unfold validate
  dsimp only
  split
  · have hc := quiet_coreXlate s st.core (st.lane * 8 + 0) (s.asid st) st.batch e.va
    split
    · next t s' heq =>
      rw [heq] at hc
      exact hc.trans (fresh s' t)
    · next s' heq =>
      rw [heq] at hc
      have hd := quiet_dieXlate s' st.core (s.asid st) e.va
      split
      · next t s'' h2 =>
        rw [h2] at hd
        exact (hc.trans hd).trans (fresh s'' t)
      · next r s'' _ h2 => rw [h2] at hd; dsimp only at hc hd; exact (hc.trans hd).trans (quiet_strandXFail _ _ _ _ _)
    · next r s' _ _ heq => rw [heq] at hc; dsimp only at hc; exact hc.trans (quiet_strandXFail _ _ _ _ _)
  · exact det _ _

theorem quiet_validateAll (sid f team : Nat) (k : DetKind) (st : Strand) (es : List RsbEnt) (s : State) :
    Quiet s (eitherState (validateAll s sid f team k st es)) := by
  induction es generalizing s with
  | nil => exact .refl s
  | cons e es ih =>
    unfold validateAll
    have h := quiet_validate s sid f team k st e
    split
    · next s' heq => rw [heq] at h; exact h
    · next s' e' heq =>
      rw [heq] at h
      have h2 := ih s'
      split
      · next s'' heq2 => rw [heq2] at h2; exact h.trans h2
      · next s'' es' heq2 => rw [heq2] at h2; exact h.trans h2

/-- A region end changes nothing that software computes with (R321). -/
theorem quiet_endRegion (s : State) (sid f : Nat) (next : VAddr) (tb : Option (Nat × Nat × Nat)) : Quiet s (endRegion s sid f next tb).1 := by
  unfold endRegion
  split
  · exact .refl s
  · next st _ =>
    dsimp only
    split
    · next s' heq => exact quiet_inr heq (quiet_validateAll sid f _ _ st _ s)
    · next s' es heq =>
      exact ((quiet_inl heq (quiet_validateAll sid f _ _ st _ s)).trans (quiet_tick _)).trans (quiet_updStrand _ _ _ fun _ => ⟨rfl, .inl rfl⟩)

theorem quiet_pair {s t : State} {b : Bool} {x : State × Bool} (h : x = (t, b)) (q : Quiet s x.1) : Quiet s t := by
  subst h; exact q

/-! ## Joining and moving -/

theorem quiet_joinGo (sid fuel : Nat) (s : State) : Quiet s (joinGo s sid fuel) := by
  induction fuel generalizing s with
  | zero => exact .refl s
  | succ n ih =>
    unfold joinGo
    split
    · exact .refl s
    · next st hst =>
      dsimp only
      have hq := quiet_setStrand s sid (st' := { st with frags := st.frags.map fun (k, fr) =>
        (k, match fr.rix.bind (nmGet st.recs ·) with
            | some x => if (fr.st == .ready || fr.st == .stalled) && fr.pc == x.pc && (fr.wait == .none || fr.wait == .gap)
                then { fr with st := .joinwait, wait := .none } else fr
            | none => fr) }) hst ⟨rfl, .inl rfl⟩
      split
      · exact hq
      · next r x hx =>
        split
        · next s2 heq =>
          exact hq.trans ((quiet_pair heq (quiet_endRegion _ _ _ _ _)).trans
            ((quiet_updStrand s2 sid (fun y => y.fuse r x (s2.now y)) fun _ => ⟨rfl, .inl rfl⟩).trans (ih _)))
        · next s2 heq => exact hq.trans (quiet_pair heq (quiet_endRegion _ _ _ _ _))

theorem quiet_joinAll (s : State) (sid : Nat) : Quiet s (joinAll s sid) := quiet_joinGo sid 9 s

theorem quiet_moveTo (s : State) (sid f : Nat) (h : Hdr) (pc : VAddr) : Quiet s (moveTo s sid f h pc) := by
  unfold moveTo
  exact (quiet_updFrag _ _ _ _).trans (quiet_joinAll _ _)

/-- Moving on to the next word changes nothing that software computes with, whatever it leads to (R40, R43, R67). -/
theorem quiet_advance (s : State) (sid f : Nat) (h : Hdr) : Quiet s (advance s sid f h) := by
  unfold advance
  split
  · exact .refl s
  · split
    · split
      · exact quiet_moveTo _ _ _ _ _
      · exact quiet_endJobAt _ _ _ _ _
    · exact .refl s

theorem quiet_wakeTo (s : State) (sid f : Nat) (pc : VAddr) : Quiet s (wakeTo s sid f pc) := by
  unfold wakeTo
  split
  · exact .refl s
  · exact (quiet_updFrag _ _ _ _).trans (quiet_joinAll _ _)

theorem quiet_unblock (s : State) (sid f : Nat) : Quiet s (unblock s sid f) := by
  unfold unblock
  repeat' split
  · exact .refl s
  · exact quiet_wakeTo _ _ _ _
  · exact quiet_endJobAt _ _ _ _ _
  · exact .refl s
theorem quiet_unblockRgn (s : State) (sid f : Nat) : Quiet s (unblockRgn s sid f) := (quiet_updFrag _ _ _ _).trans (quiet_unblock _ _ _)

end Sys2Proof.Machine
end

