-- ==== Sys2Proof/Laws/Region.lean ====
section
/-!
SUPPORT. What a translation, a validation and a region end that succeeds leave: a state that differs in the cores' and
dies' cached translations, the ownership of DETERM pages, the sequence counter and the one strand only.
-/
namespace Sys2Proof.Machine

/-- A die's translation changes the dies only (R304). -/
theorem dieXlate_shape (s : State) (d asid va : Nat) : ∃ ds, (dieXlate s d asid va).2 = { s with dies := ds } := by
  unfold dieXlate
  split
  · exact ⟨_, rfl⟩
  · split <;> exact ⟨_, rfl⟩

/-- A strand's translation changes the cores and the dies only (R304, R313). -/
theorem coreXlate_shape (s : State) (c slot asid batch va : Nat) :
    ∃ cs ds, (coreXlate s c slot asid batch va).2 = { s with cores := cs, dies := ds } := by
  unfold coreXlate
  split
  · exact ⟨_, _, rfl⟩
  · dsimp only
    split
    · exact ⟨_, _, rfl⟩
    · split
      · exact ⟨_, _, rfl⟩
      · split
        · exact ⟨_, _, rfl⟩
        · obtain ⟨ds, h⟩ := dieXlate_shape s c asid va
          split
          · next e s' heq => rw [heq] at h; dsimp only at h ⊢; subst h; exact ⟨_, _, rfl⟩
          · next r hr => exact ⟨_, _, h⟩

/-- So do the translations of an access that all succeed (R306). -/
theorem xlateElems_shape {c : Ctx} {w : Bool} {s1 : State} {ps : List Place} (xs : List Elem) (s : State)
    (h : xlateElems s c w xs = .inl (s1, ps)) : ∃ cs ds, s1 = { s with cores := cs, dies := ds } := by
  induction xs generalizing s s1 ps with
  | nil => cases h; exact ⟨_, _, rfl⟩
  | cons x xs ih =>
    unfold xlateElems at h
    obtain ⟨cs, ds, e⟩ := coreXlate_shape s c.st.core (c.st.tslot x.t) (s.asid c.st) c.st.batch x.va
    split at h
    · next e0 s2 heq =>
      rw [heq] at e; dsimp only at e; subst e
      split at h
      · cases h
      · split at h
        · next s3 ps' h2 => cases h; obtain ⟨cs', ds', e'⟩ := ih _ h2; exact ⟨cs', ds', e'⟩
        · cases h
    · cases h
    · cases h

/-- A DETERM access that may go on changes the ownership records only (R344). -/
theorem detAccess_shape {s s' : State} {sid : Nat} {st : Strand} {team va sec : Nat} {k : DetKind}
    (h : detAccess s sid st team va sec k = .inl s') : ∃ det, s' = { s with det := det } := by
  unfold detAccess at h
  dsimp only at h
  repeat' (split at h)
  all_goals first
    | (cases h; exact ⟨_, rfl⟩)
    | cases h

/-- A validation that succeeds (R321). -/
theorem validate_shape {s s' : State} {sid f team : Nat} {k : DetKind} {st : Strand} {e e' : RsbEnt}
    (h : validate s sid f team k st e = .inl (s', e')) : ∃ cs ds det, s' = { s with cores := cs, dies := ds, det := det } := by
  have det : ∀ (s0 s1 : State) (x x' : RsbEnt), (if x.ord == 3 then
      match detAccess s0 sid st team x.va (pkey x.home x.pa) k with
      | .inl s' => .inl (s', x)
      | .inr (c, rec) => .inr (endJob (s0.updFrag sid f fun x => { x with st := .stopped }) st.job c rec)
      else (.inl (s0, x) : (State × RsbEnt) ⊕ State)) = .inl (s1, x') → ∃ det, s1 = { s0 with det := det } := by
    intro s0 s1 x x' h
    split at h
    · split at h
      · next s2 h2 => cases h; exact detAccess_shape h2
      · cases h
    · cases h; exact ⟨_, rfl⟩
  unfold validate at h
  dsimp only at h
  split at h
  · obtain ⟨cs, ds, hc⟩ := coreXlate_shape s st.core (st.lane * 8 + 0) (s.asid st) st.batch e.va
    split at h
    · next t s2 heq =>
      rw [heq] at hc; dsimp only at hc; subst hc
      split at h
      · cases h
      · split at h
        · cases h
        · obtain ⟨d, e⟩ := det _ _ _ _ h; exact ⟨cs, ds, d, e⟩
    · next s2 heq =>
      rw [heq] at hc; dsimp only at hc; subst hc
      obtain ⟨ds2, hd⟩ := dieXlate_shape { s with cores := cs, dies := ds } st.core (s.asid st) e.va
      split at h
      · next t s3 h2 =>
        rw [h2] at hd; dsimp only at hd; subst hd
        split at h
        · cases h
        · split at h
          · cases h
          · obtain ⟨d, e⟩ := det _ _ _ _ h; exact ⟨cs, ds2, d, e⟩
      · cases h
    · cases h
  · obtain ⟨d, e⟩ := det _ _ _ _ h; exact ⟨_, _, d, e⟩

theorem validateAll_shape {sid f team : Nat} {k : DetKind} {st : Strand} (es : List RsbEnt) {s s' : State} {es' : List RsbEnt}
    (h : validateAll s sid f team k st es = .inl (s', es')) : ∃ cs ds det, s' = { s with cores := cs, dies := ds, det := det } := by
  induction es generalizing s s' es' with
  | nil => cases h; exact ⟨_, _, _, rfl⟩
  | cons e es ih =>
    unfold validateAll at h
    split at h
    · cases h
    · next s1 e1 h1 =>
      obtain ⟨cs, ds, det, rfl⟩ := validate_shape h1
      split at h
      · cases h
      · next s2 es2 h2 => cases h; obtain ⟨cs', ds', det', e⟩ := ih h2; exact ⟨cs', ds', det', e⟩

/-- What a region end that succeeds does (R321, R323): the strand's buffer, its log, its tail flag and its fragments' region
starts; nothing else of it, and no other strand. -/
theorem endRegion_shape {s t : State} {sid f : Nat} {next : VAddr} {tb : Option (Nat × Nat × Nat)} {st : Strand}
    (hs : nmGet s.strands sid = some st) (h : endRegion s sid f next tb = (t, true)) :
    ∃ cs ds det rsb log, t =
      ({ s with
          cores := cs
          dies := ds
          det := det
          seq := s.seq + 1
          strands := nmSet s.strands sid ({ st with
            rsb := rsb
            tail := false
            log := log
            frags := st.frags.map fun e => (e.1, { e.2 with rgn := if e.1 == f then next else e.2.pc }) } : Strand) } : State) := by
  unfold endRegion at h
  simp only [hs] at h
  split at h
  · cases h
  · next s1 es h1 =>
    obtain ⟨cs, ds, det, rfl⟩ := validateAll_shape _ h1
    simp only [Prod.mk.injEq, and_true] at h
    subst h
    simp only [State.tick, State.updStrand, nmUpd_of_some hs]
    exact ⟨cs, ds, det, _, _, rfl⟩

theorem nmGet_mapVal {α : Type} (m : NMap α) (g : Nat → α → α) (b : Nat) :
    nmGet (m.map fun e => (e.1, g e.1 e.2)) b = (nmGet m b).map (g b) := by
  induction m with
  | nil => rfl
  | cons e m ih =>
    obtain ⟨k, v⟩ := e
    by_cases h : b = k <;> simp [nmGet, h, ih]

/-- The strand and a fragment of it after a region end that succeeds. -/
theorem endRegion_frag {s t : State} {sid f : Nat} {next : VAddr} {tb : Option (Nat × Nat × Nat)} {st : Strand}
    (hs : nmGet s.strands sid = some st) (h : endRegion s sid f next tb = (t, true)) :
    ∃ y, nmGet t.strands sid = some y ∧ y.pend = st.pend ∧ y.teams = st.teams ∧ y.sp = st.sp ∧ y.r = st.r ∧
      ∀ k, nmGet y.frags k = (nmGet st.frags k).map fun fr => { fr with rgn := if k == f then next else fr.pc } := by
  obtain ⟨cs, ds, det, rsb, log, rfl⟩ := endRegion_shape hs h
  refine ⟨_, nmGet_nmSet_self _ _ _, rfl, rfl, rfl, rfl, fun k => ?_⟩
  exact nmGet_mapVal st.frags (fun k fr => { fr with rgn := if k == f then next else fr.pc }) k

end Sys2Proof.Machine
end

