-- ==== Sys2Proof/Tests/Slice0.lean ====
section
/-!
SUPPORT. Tests: words decoded and refused, single steps whose results are calculated by hand from the rules cited, terms that
WellFormed refuses, and for each statement with hypotheses a state and operands that meet them.
-/
section
set_option Elab.async false
namespace Sys2Proof.Tests
open Sys2Proof.Machine

/-- A plain header: no guard, STALL 1. -/
def h0 : Hdr := { gn := false, gp := 7#3, stall := 1#3, yld := false, ks := false, kd := false, wsb := false, hx := false, uni := false }

/-- A header whose guard is p1. -/
def first : Hdr := { h0 with gp := 1#3 }

/-- The machine with a strand of 32 threads whose fragment 0 is ISSUED at PC 0 of a text of two words. -/
def start : State := placeWord State.reset 0

/-- The same with registers set. -/
def holding (ws : List Write) : State := start.updStrand 1 fun st => { st with r := st.r.wrAll ws }

def withSpec (f : Spec → Spec) : State := start.updStrand 1 fun st => { st with sp := f st.sp }

/-- A byte of the batch's scratchpad. -/
def scratch (a : Nat) (b : Byte) (s : State) : State := s.updBatch 1 fun x => { x with scr := spPut x.scr a b }

def nextOf (o : Out) : Option State := match o with | .next t => some t | _ => none

/-- Strand 1 after a step, with what it left pending landed. -/
def after (o : Out) : Option Strand := (nextOf o).bind fun t => (nmGet t.strands 1).map fun st => st.landIf fun _ => true

def vOf (o : Out) (n t : Nat) : Option Nat := (after o).map fun st => (st.r.rdV n t).toNat
def kOf (o : Out) (n : Nat) : Option Nat := (after o).map fun st => (st.r.rdK n).toNat
def mOf (o : Out) (n t : Nat) : Option Nat := (after o).map fun st => (st.r.rdM n t).toNat
def aOf (o : Out) (n t : Nat) : Option Nat := (after o).map fun st => (st.r.rdA n 0 t).toNat
def pOf (o : Out) (n t : Nat) : Option Bool := (after o).map fun st => st.r.bitP n t
def flOf (o : Out) : Option Nat := (after o).map fun st => st.sp.fflag.toNat
def allocOf (o : Out) : Option Nat := (after o).map fun st => st.r.valloc
def recsOf (o : Out) : Option Nat := (after o).map fun st => st.recs.length
def fragsOf (o : Out) : Option Nat := (after o).map fun st => st.frags.length
def rsbOf (o : Out) : Option Nat := (after o).map fun st => st.rsb.length
def pendOf (o : Out) : Option Nat := (nextOf o).bind fun t => (nmGet t.strands 1).map fun st => st.pend.length
def pcOf (o : Out) : Option Nat := (after o).bind fun st => (nmGet st.frags 0).map fun f => f.pc.toNat
def endOf (o : Out) : Option (BitVec 8) := (nextOf o).bind fun t => (nmGet t.jobs 1).bind fun j => j.cause
def scrOf (o : Out) (a : Nat) : Option Nat := (nextOf o).bind fun t => (nmGet t.batches 1).map fun b => (spGet b.scr a).toNat
def fmaskOf (o : Out) : Option Nat := (after o).map fun st => st.sp.fmask.toNat

/-- ISUB.i32.sat v4, v1, −1: OPC 0x001, TYPE 2, SAT (R120). -/
theorem test_decode_isub_sat : decodesTo 0x005C804200002000005BFFFE (.isub h0 .i32 .sat (.v 4#8) (.two (.v 1#8) (.imm 0x1FFFF#17))) = true := by decide +kernel

/-- FMUL.g16.rup.x2 v9, v2, v3: TYPE 11, RND 2, SUB bit 0 (R127). -/
theorem test_decode_fmul : decodesTo 0x209C81690000480000800006 (.fmul h0 .g16 .rup false true (.v 9#8) (.two (.v 2#8) (.v 3#8))) = true := by decide +kernel

/-- CVT.rdn.i32.f32.sat v4, v5: OPC 0x103, destination TYPE 2, source TYPE 13, SAT (R135). -/
theorem test_decode_cvt : decodesTo 0x40DC805B00002000017C0000 (.cvt h0 .rdn .i32 .f32 true (.v 4#8) (.v 5#8)) = true := by decide +kernel

/-- PLOP.xor p1, p2, p3 under @!p4: table 6 (R141). -/
theorem test_decode_plop : decodesTo 0x503080062000090000880006 (.plop { h0 with gn := true, gp := 4#3 } 6#4 (.p 1#3) (.p 2#3) (.p 3#3)) = true := by decide +kernel

/-- SRD.b64 k5, %cycle under UNI: number 19, MOD bit 0 (R155). -/
theorem test_decode_srd : decodesTo 0x70DC820110002A8004FC0000 (.srd { h0 with uni := true } true (.k 5#6) (.s .cycle)) = true := by decide +kernel

/-- TRAP 9: n in MOD bits 3–0 (R155). -/
theorem test_decode_trap : decodesTo 0x701C8009F0000780003C0000 (.trap h0 9#4) = true := by decide +kernel

/-- MGET.var v7, m3: SUB 1 in bits 8–6 (R174). -/
theorem test_decode_mget : decodesTo 0x809C80400000398000FC0000 (.mget h0 .var (.v 7#8) (.m 3#6)) = true := by decide +kernel

/-- ATG.cas.b32.full.module v1, v2, v4:v5: OPC 0x2A7, TYPE 8, SCOPE 4, KIND 3 (R58, R225). -/
theorem test_decode_atg_cas : decodesTo 0xA9DC81130000080000A4080A (.atgCas h0 .b32 .module .full (.v 1#8) (.v 2#8) (.pair 4#8 5#8)) = true := by decide +kernel

/-- STS.n16.rel.core v6, [k2 + 8]: OPC 0x281, TYPE 5, SCOPE 1, KIND 2 (R225). -/
theorem test_decode_sts : decodesTo 0xA05C80A60000308000980010 (.sts h0 .n16 .core .rel (.v 6#8) (.k 2#6) (.imm 8#17)) = true := by decide +kernel

/-- XBW k1, 0: OPC 0x309 (R225). -/
theorem test_decode_xbw : decodesTo 0xC25C8000F000008000580000 (.xbw h0 (.k 1#6) (.imm 0#17)) = true := by decide +kernel

/-- CPY.ui 0x40, k7: bit 5 (R225). -/
theorem test_decode_cpy_ui : decodesTo 0xD01C8020F00003001004000E (.cpy h0 true (.imm 0x40#17) (.k 7#6)) = true := by decide +kernel

/-- AMOV.put.m64 a2:a3, m1, 7: TYPE 15, SUB bit 0 (R283). -/
theorem test_decode_amov_put : decodesTo 0xE19C81E1400011800058000E (.amov h0 .m64 .rne false true (.a 2#6) (.m 1#6) (.imm 7#17)) = true := by decide +kernel

/-- MMAM.pos a2:a3, k8, k10 under WSB and @p1: TYPE 15, COV 2 (R283). -/
theorem test_decode_mmam : decodesTo 0xE08489E84000108002040014 (.mmam { h0 with gp := 1#3, wsb := true } .pos (.a 2#6) (.k 8#6) (.k 10#6)) = true := by decide +kernel

/-- MKM.andn.w3 k8: bits 5–4 = 2, CLASS 3 (R370). -/
theorem test_decode_mkm : decodesTo 0xF01C8023F0000080023C0000 (.mkm h0 .andn 3#4 (.k 8#6)) = true := by decide +kernel

/-- VRED 0x140 (R370). -/
theorem test_decode_vred : decodesTo 0xF31C8000F0000300503C0000 (.vred h0 (.imm 0x140#17)) = true := by decide +kernel

/-- SWAIT.ne k10, k4, k9: code 2 in bits 6–5 (R420). -/
theorem test_decode_swait : decodesTo 0xF89C80401000508001040012 (.swait h0 .ne (.k 10#6) (.k 4#6) (.k 9#6)) = true := by decide +kernel

/-- TINV k1, k2, −1 (R310). -/
theorem test_decode_tinv : decodesTo 0xA35C800010000880009BFFFE (.tinv h0 (.k 1#6) (.k 2#6) (.imm 0x1FFFF#17)) = true := by decide +kernel

/-- CALL v3, −2: D holds the link register, literal bits 41–24 copy bit 23 (R156). -/
theorem test_decode_call : decodesTo 0x609C800000001FFFFFFFFFFD (.call h0 (.v 3#8) 0xFFFFFE#24) = true := by decide +kernel

/-- OPC 0x01D is unassigned (R57). -/
theorem test_refuse_opc : refusedAs 0x075C8000F0000780003C0000 .illegalOpc = true := by decide +kernel

/-- KIND 0 with SCOPE 3 in LD (R225). -/
theorem test_refuse_mod_scope : refusedAs 0xA09C810C0000088000980000 .illegalMod = true := by decide +kernel

/-- SAT on IMIN (R55, R120). -/
theorem test_refuse_mod_sat : refusedAs 0x015C80420000080000800006 .illegalMod = true := by decide +kernel

/-- Operand class 8 (R49). -/
theorem test_refuse_class8 : refusedAs 0x025C810000000C0000000006 .illegalField = true := by decide +kernel

/-- An index bit that is not zero (R49). -/
theorem test_refuse_index : refusedAs 0x025C81000000088010000006 .illegalField = true := by decide +kernel

/-- An odd register of a 64-bit type (R51). -/
theorem test_refuse_parity : refusedAs 0x025C81200000080000800008 .illegalField = true := by decide +kernel

/-- A vector operand under UNI (R42). -/
theorem test_refuse_uni_vector : refusedAs 0x025C83000000088000840006 .illegalField = true := by decide +kernel

/-- RCV under a guard (R155). -/
theorem test_refuse_guard : refusedAs 0x61088000F000000000000003 .illegalField = true := by decide +kernel

/-- SWR of a read-only register (R59). -/
theorem test_refuse_ro : refusedAs 0x711C800050000080007C0000 .illegalField = true := by decide +kernel

/-- Literal bits 41–24 that do not copy bit 23 (R156). -/
theorem test_refuse_literal : refusedAs 0x601C8000F000000001000001 .illegalField = true := by decide +kernel

/-- R121: 0x7FFFFFFF + 1 wraps. -/
theorem test_iadd_wraps : vOf (exec (.iadd h0 .i32 .wrap (.v 4#8) (.two (.v 1#8) (.imm 1#17))) (holding [⟨.v, 1, 0, 0x7FFFFFFF#64⟩])) 4 0 = some 0x80000000 := by decide +kernel

/-- R121: −2^31 − 1 under .sat is −2^31. -/
theorem test_isub_clamps : vOf (exec (.isub h0 .i32 .sat (.v 4#8) (.two (.v 1#8) (.imm 1#17))) (holding [⟨.v, 1, 0, 0x80000000#64⟩])) 4 0 = some 0x80000000 := by decide +kernel

/-- R121: the carry form sets its predicate when the sum leaves 32 bits. -/
theorem test_iadd_carry : pOf (exec (.iadd h0 .n32 (.carry 1#3) (.v 4#8) (.two (.v 1#8) (.imm 0#17))) (holding [⟨.v, 1, 0, 0xFFFFFFFF#64⟩, ⟨.p, 1, 0, 1#64⟩])) 1 0 = some true := by decide +kernel

/-- R51, R121: an .i8 product of 100 × 3 keeps 44. -/
theorem test_imul_sign : vOf (exec (.imul h0 .i8 false (.v 4#8) (.two (.v 1#8) (.imm 3#17))) (holding [⟨.v, 1, 0, 0x64#64⟩])) 4 0 = some 0x2C := by decide +kernel

/-- R121: the high half of (2^32 − 1)^2. -/
theorem test_imulh : vOf (exec (.imulh h0 .n32 (.v 4#8) (.v 1#8) (.v 1#8)) (holding [⟨.v, 1, 0, 0xFFFFFFFF#64⟩])) 4 0 = some 0xFFFFFFFE := by decide +kernel

/-- R121: 3 × 4 + 5. -/
theorem test_imad : vOf (exec (.imad h0 .i32 false (.v 4#8) (.v 1#8) (.pair 2#8 3#8)) (holding [⟨.v, 1, 0, 0x3#64⟩, ⟨.v, 2, 0, 0x4#64⟩, ⟨.v, 3, 0, 0x5#64⟩])) 4 0 = some 0x11 := by decide +kernel

/-- R122: the signed minimum of −1 and 1. -/
theorem test_imin_signed : vOf (exec (.imin h0 .i32 (.v 4#8) (.two (.v 1#8) (.imm 1#17))) (holding [⟨.v, 1, 0, 0xFFFFFFFF#64⟩])) 4 0 = some 0xFFFFFFFF := by decide +kernel

/-- R122: the unsigned maximum of 2^32 − 1 and 1. -/
theorem test_imax_unsigned : vOf (exec (.imax h0 .n32 (.v 4#8) (.two (.v 1#8) (.imm 1#17))) (holding [⟨.v, 1, 0, 0xFFFFFFFF#64⟩])) 4 0 = some 0xFFFFFFFF := by decide +kernel

/-- R122: |−2^31| under .sat. -/
theorem test_iabs_sat : vOf (exec (.iabs h0 .i32 true (.v 4#8) (.v 1#8)) (holding [⟨.v, 1, 0, 0x80000000#64⟩])) 4 0 = some 0x7FFFFFFF := by decide +kernel

/-- R122: −(−2^31) wraps. -/
theorem test_ineg_wraps : vOf (exec (.ineg h0 .i32 false (.v 4#8) (.v 1#8)) (holding [⟨.v, 1, 0, 0x80000000#64⟩])) 4 0 = some 0x80000000 := by decide +kernel

/-- R122. -/
theorem test_and : vOf (exec (.and h0 .b32 (.v 4#8) (.two (.v 1#8) (.imm 15#17))) (holding [⟨.v, 1, 0, 0x3C#64⟩])) 4 0 = some 0xC := by decide +kernel

/-- R122. -/
theorem test_or : vOf (exec (.or h0 .b32 (.v 4#8) (.two (.v 1#8) (.imm 15#17))) (holding [⟨.v, 1, 0, 0x3C#64⟩])) 4 0 = some 0x3F := by decide +kernel

/-- R122. -/
theorem test_xor : vOf (exec (.xor h0 .b32 (.v 4#8) (.two (.v 1#8) (.imm 15#17))) (holding [⟨.v, 1, 0, 0x3C#64⟩])) 4 0 = some 0x33 := by decide +kernel

/-- R122. -/
theorem test_andn : vOf (exec (.andn h0 .b32 (.v 4#8) (.two (.v 1#8) (.imm 15#17))) (holding [⟨.v, 1, 0, 0x3C#64⟩])) 4 0 = some 0x30 := by decide +kernel

/-- R122. -/
theorem test_not : vOf (exec (.not h0 .b32 (.v 4#8) (.v 1#8)) (holding [⟨.v, 1, 0, 0xFFFF0000#64⟩])) 4 0 = some 0xFFFF := by decide +kernel

/-- R123: a count of the width gives 0. -/
theorem test_shl_full : vOf (exec (.shl h0 .b32 (.v 4#8) (.v 1#8) (.imm 32#17)) (holding [⟨.v, 1, 0, 0xFFFFFFFF#64⟩])) 4 0 = some 0x0 := by decide +kernel

/-- R123. -/
theorem test_shr : vOf (exec (.shr h0 .b32 (.v 4#8) (.v 1#8) (.imm 31#17)) (holding [⟨.v, 1, 0, 0x80000000#64⟩])) 4 0 = some 0x1 := by decide +kernel

/-- R123: a count past the width gives the sign. -/
theorem test_sar_full : vOf (exec (.sar h0 .i32 (.v 4#8) (.v 1#8) (.imm 40#17)) (holding [⟨.v, 1, 0, 0x80000000#64⟩])) 4 0 = some 0xFFFFFFFF := by decide +kernel

/-- R123: the count is taken modulo the width. -/
theorem test_rol : vOf (exec (.rol h0 .b32 (.v 4#8) (.v 1#8) (.imm 33#17)) (holding [⟨.v, 1, 0, 0x80000001#64⟩])) 4 0 = some 0x3 := by decide +kernel

/-- R123. -/
theorem test_popc : vOf (exec (.popc h0 .b32 (.v 4#8) (.v 1#8)) (holding [⟨.v, 1, 0, 0xF000F001#64⟩])) 4 0 = some 0x9 := by decide +kernel

/-- R123. -/
theorem test_clz_zero : vOf (exec (.clz h0 .b32 (.v 4#8) (.v 1#8)) (holding [])) 4 0 = some 0x20 := by decide +kernel

/-- R123. -/
theorem test_ctz : vOf (exec (.ctz h0 .b32 (.v 4#8) (.v 1#8)) (holding [⟨.v, 1, 0, 0x50#64⟩])) 4 0 = some 0x4 := by decide +kernel

/-- R123. -/
theorem test_brev : vOf (exec (.brev h0 .b32 (.v 4#8) (.v 1#8)) (holding [⟨.v, 1, 0, 0x3#64⟩])) 4 0 = some 0xC0000000 := by decide +kernel

/-- R124: the field 0xF at bit 4 is −1. -/
theorem test_bfx_signed : vOf (exec (.bfx h0 .i32 (.v 4#8) (.v 1#8) (.imm 1028#17)) (holding [⟨.v, 1, 0, 0xF0#64⟩])) 4 0 = some 0xFFFFFFFF := by decide +kernel

/-- R124. -/
theorem test_bfi : vOf (exec (.bfi h0 .b32 (.v 4#8) (.v 1#8) (.pair 2#8 3#8)) (holding [⟨.v, 1, 0, 0xFF5#64⟩, ⟨.v, 2, 0, 0xFFFFFFFF#64⟩, ⟨.v, 3, 0, 0x408#64⟩])) 4 0 = some 0xFFFFF5FF := by decide +kernel

/-- R125, R51: 2^32 + 1 × 8; the high half is in the next register. -/
theorem test_lea_pair : vOf (exec (.lea h0 .n64 3#3 (.v 4#8) (.v 2#8) (.imm 1#17)) (holding [⟨.v, 3, 0, 0x1#64⟩])) 5 0 = some 0x1 := by decide +kernel

/-- R125. -/
theorem test_mov : vOf (exec (.mov h0 .b32 (.v 4#8) (.imm 131071#17)) (holding [])) 4 0 = some 0xFFFFFFFF := by decide +kernel

/-- R52, R125: a G16 immediate is widened. -/
theorem test_movi_float : vOf (exec (.movi h0 .f32 (.v 4#8) (.two (.g 0x3F80#16) .none)) (holding [])) 4 0 = some 0x3F800000 := by decide +kernel

/-- R125: the predicate is 0, so B is taken. -/
theorem test_sel : vOf (exec (.sel h0 .b32 2#3 false (.v 4#8) (.imm 1#17) (.imm 2#17)) (holding [])) 4 0 = some 0x2 := by decide +kernel

/-- R126: −1 < 1. -/
theorem test_icmp_signed : pOf (exec (.icmp h0 .i32 .lt (.p 2#3) (.v 1#8) (.imm 1#17)) (holding [⟨.v, 1, 0, 0xFFFFFFFF#64⟩])) 2 0 = some true := by decide +kernel

/-- R94: 1 + 2^−24 ties to even. -/
theorem test_fadd_tie : vOf (exec (.fadd h0 .f32 .rne false false (.v 4#8) (.two (.v 1#8) (.v 2#8))) (holding [⟨.v, 1, 0, 0x3F800000#64⟩, ⟨.v, 2, 0, 0x33800000#64⟩])) 4 0 = some 0x3F800000 := by decide +kernel

/-- R98: the same sum is inexact. -/
theorem test_fadd_flag : flOf (exec (.fadd h0 .f32 .rne false false (.v 4#8) (.two (.v 1#8) (.v 2#8))) (holding [⟨.v, 1, 0, 0x3F800000#64⟩, ⟨.v, 2, 0, 0x33800000#64⟩])) = some 1 := by decide +kernel

/-- R92, R98: ∞ − ∞ is the canonical NaN. -/
theorem test_fsub_inf : vOf (exec (.fsub h0 .f32 .rne false false (.v 4#8) (.two (.v 1#8) (.v 1#8))) (holding [⟨.v, 1, 0, 0x7F800000#64⟩])) 4 0 = some 0x7FC00000 := by decide +kernel

/-- R128. -/
theorem test_fmul : vOf (exec (.fmul h0 .f32 .rne false false (.v 4#8) (.two (.v 1#8) (.v 2#8))) (holding [⟨.v, 1, 0, 0x40400000#64⟩, ⟨.v, 2, 0, 0xC0000000#64⟩])) 4 0 = some 0xC0C00000 := by decide +kernel

/-- R128: (1 + 2^−23)^2 − 1 rounded once keeps 2^−46. -/
theorem test_ffma_once : vOf (exec (.ffma h0 .f32 .rne false false (.v 4#8) (.v 1#8) (.pair 1#8 3#8)) (holding [⟨.v, 1, 0, 0x3F800001#64⟩, ⟨.v, 3, 0, 0xBF800002#64⟩])) 4 0 = some 0x28800000 := by decide +kernel

/-- R130: a NaN operand is passed over. -/
theorem test_fmin_nan : vOf (exec (.fmin h0 .f32 false (.v 4#8) (.two (.v 1#8) (.v 2#8))) (holding [⟨.v, 1, 0, 0x7FC00000#64⟩, ⟨.v, 2, 0, 0x40000000#64⟩])) 4 0 = some 0x40000000 := by decide +kernel

/-- R130: −0 is below +0. -/
theorem test_fmax_zero : vOf (exec (.fmax h0 .f32 false (.v 4#8) (.two (.v 1#8) (.v 2#8))) (holding [⟨.v, 1, 0, 0x80000000#64⟩])) 4 0 = some 0x0 := by decide +kernel

/-- R130: only the sign bit changes. -/
theorem test_fabs_nan : vOf (exec (.fabs h0 .f32 false (.v 4#8) (.v 1#8)) (holding [⟨.v, 1, 0, 0xFFA00001#64⟩])) 4 0 = some 0x7FA00001 := by decide +kernel

/-- R130. -/
theorem test_fneg : vOf (exec (.fneg h0 .f32 false (.v 4#8) (.v 1#8)) (holding [⟨.v, 1, 0, 0x3F800000#64⟩])) 4 0 = some 0xBF800000 := by decide +kernel

/-- R131: .ne of a NaN is true. -/
theorem test_fcmp_nan : pOf (exec (.fcmp h0 .f32 .ne (.p 2#3) (.v 1#8) (.v 2#8)) (holding [⟨.v, 1, 0, 0x7FC00000#64⟩])) 2 0 = some true := by decide +kernel

/-- R131: class 4 is a negative subnormal. -/
theorem test_fcls : pOf (exec (.fcls h0 .f32 (.p 2#3) (.v 1#8) (.imm 16#17)) (holding [⟨.v, 1, 0, 0x80000001#64⟩])) 2 0 = some true := by decide +kernel

/-- R132: 1.5 × 2^3. -/
theorem test_fscl : vOf (exec (.fscl h0 .f32 .rne false (.v 4#8) (.v 1#8) (.imm 3#17)) (holding [⟨.v, 1, 0, 0x3FC00000#64⟩])) 4 0 = some 0x41400000 := by decide +kernel

/-- R132: 2.5 to even. -/
theorem test_frnd : vOf (exec (.frnd h0 .f32 .rne (.v 4#8) (.v 1#8)) (holding [⟨.v, 1, 0, 0x40200000#64⟩])) 4 0 = some 0x40000000 := by decide +kernel

/-- R133, R98: 1/0 sets dz. -/
theorem test_frcp_zero : flOf (exec (.frcp h0 .f32 (.v 4#8) (.v 1#8)) (holding [])) = some 8 := by decide +kernel

/-- R133: 1/√4. -/
theorem test_frsq : vOf (exec (.frsq h0 .f32 (.v 4#8) (.v 1#8)) (holding [⟨.v, 1, 0, 0x40800000#64⟩])) 4 0 = some 0x3F000000 := by decide +kernel

/-- R128. -/
theorem test_fsqrt : vOf (exec (.fsqrt h0 .f32 .rne (.v 4#8) (.v 1#8)) (holding [⟨.v, 1, 0, 0x40800000#64⟩])) 4 0 = some 0x40000000 := by decide +kernel

/-- R128: 3/2. -/
theorem test_fdiv : vOf (exec (.fdiv h0 .f32 .rne false (.v 4#8) (.v 1#8) (.v 2#8)) (holding [⟨.v, 1, 0, 0x40400000#64⟩, ⟨.v, 2, 0, 0x40000000#64⟩])) 4 0 = some 0x3FC00000 := by decide +kernel

/-- R133: an integral operand is exact. -/
theorem test_fex2 : vOf (exec (.fex2 h0 .f32 (.v 4#8) (.v 1#8)) (holding [⟨.v, 1, 0, 0x40400000#64⟩])) 4 0 = some 0x41000000 := by decide +kernel

/-- R133: log2 8. -/
theorem test_flg2 : vOf (exec (.flg2 h0 .f32 (.v 4#8) (.v 1#8)) (holding [⟨.v, 1, 0, 0x41000000#64⟩])) 4 0 = some 0x40400000 := by decide +kernel

/-- R133: cos 0. -/
theorem test_ftrg : vOf (exec (.ftrg h0 .f32 true (.v 4#8) (.v 1#8)) (holding [])) 4 0 = some 0x3F800000 := by decide +kernel

/-- R133: tanh −∞. -/
theorem test_ftnh : vOf (exec (.ftnh h0 .f32 (.v 4#8) (.v 1#8)) (holding [⟨.v, 1, 0, 0xFF800000#64⟩])) 4 0 = some 0xBF800000 := by decide +kernel

/-- R133: erf −0. -/
theorem test_ferf : vOf (exec (.ferf h0 .f32 (.v 4#8) (.v 1#8)) (holding [⟨.v, 1, 0, 0x80000000#64⟩])) 4 0 = some 0x80000000 := by decide +kernel

/-- R133: Φ(+∞). -/
theorem test_fphi : vOf (exec (.fphi first .f32 (.v 4#8) (.v 1#8)) (holding [⟨.v, 1, 0, 0x7F800000#64⟩, ⟨.p, 1, 0, 1#64⟩])) 4 0 = some 0x3F800000 := by decide +kernel

/-- R134: 1 × 2 + 1 × 2 + 3 in F16. -/
theorem test_fdot : vOf (exec (.fdot h0 .f16 .rne false (.v 4#8) (.v 1#8) (.pair 2#8 3#8)) (holding [⟨.v, 1, 0, 0x3C003C00#64⟩, ⟨.v, 2, 0, 0x40004000#64⟩, ⟨.v, 3, 0, 0x40400000#64⟩])) 4 0 = some 0x40E00000 := by decide +kernel

/-- R100: a NaN gives 0. -/
theorem test_cvt_nan : vOf (exec (.cvt h0 .rne .i32 .f32 false (.v 4#8) (.v 1#8)) (holding [⟨.v, 1, 0, 0x7FC00000#64⟩])) 4 0 = some 0x0 := by decide +kernel

/-- R99: 0.1 in G8. -/
theorem test_cvt_g8 : vOf (exec (.cvt h0 .rne .g8 .f32 false (.v 4#8) (.v 1#8)) (holding [⟨.v, 1, 0, 0x3DCCCCCD#64⟩])) 4 0 = some 0x25 := by decide +kernel

/-- R136: 3 × 0.5 rounded toward zero. -/
theorem test_cvts : vOf (exec (.cvts h0 .rtz .i32 .f32 false (.v 4#8) (.v 1#8) (.v 2#8)) (holding [⟨.v, 1, 0, 0x40400000#64⟩, ⟨.v, 2, 0, 0x3F000000#64⟩])) 4 0 = some 0x1 := by decide +kernel

/-- R137: bits 15–0 from a. -/
theorem test_pack : vOf (exec (.pack h0 .i16 .i32 false (.v 4#8) (.v 1#8) (.v 2#8)) (holding [⟨.v, 1, 0, 0x10001#64⟩, ⟨.v, 2, 0, 0x2#64⟩])) 4 0 = some 0x20001 := by decide +kernel

/-- R138: byte 3. -/
theorem test_unpk : vOf (exec (.unpk h0 .n32 .n8 false (.v 4#8) (.v 1#8) (.imm 3#17)) (holding [⟨.v, 1, 0, 0xAB000000#64⟩])) 4 0 = some 0xAB := by decide +kernel

/-- R109: the bytes of the worked record: BF 2F 79 88. -/
theorem test_qenc : vOf (exec (.qenc h0 .q4 .f32 (.v 4#8) (.k 1#6) (.pair 2#8 3#8)) (holding [⟨.k, 1, 0, 0x40000000#64⟩, ⟨.v, 2, 0, 0x3FC00000#64⟩, ⟨.v, 2, 1, 0xBF400000#64⟩, ⟨.v, 2, 2, 0x3E4CCCCD#64⟩, ⟨.v, 2, 3, 0xBDCCCCCD#64⟩])) 4 0 = some 0x88792FBF := by decide +kernel

/-- R108: element 1 of the worked record is −0.81298828125. -/
theorem test_qdec : vOf (exec (.qdec h0 .f32 false .q4 false (.v 4#8) (.v 1#8) (.k 1#6)) (holding [⟨.k, 1, 0, 0x40000000#64⟩, ⟨.v, 1, 0, 0x88792FBF#64⟩])) 4 1 = some 0xBF502000 := by decide +kernel

/-- R141: .andn. -/
theorem test_plop : pOf (exec (.plop h0 4#4 (.p 1#3) (.p 2#3) (.p 3#3)) (holding [⟨.p, 2, 0, 1#64⟩])) 1 0 = some true := by decide +kernel

/-- R142: bit 7 is 1. -/
theorem test_pmov_pack : vOf (exec (.pmov h0 .pack (.v 4#8) .none .none) (holding [⟨.p, 2, 0, 1#64⟩])) 4 0 = some 0x84 := by decide +kernel

/-- R143. -/
theorem test_vany : pOf (exec (.vany h0 (.p 1#3) (.p 2#3)) (holding [⟨.p, 2, 31, 1#64⟩])) 1 0 = some true := by decide +kernel

/-- R143. -/
theorem test_vall : pOf (exec (.vall h0 (.p 1#3) (.p 2#3)) (holding [⟨.p, 1, 0, 1#64⟩, ⟨.p, 2, 31, 1#64⟩])) 1 0 = some false := by decide +kernel

/-- R143. -/
theorem test_elect : pOf (exec (.elect h0 (.p 1#3)) (holding [⟨.p, 1, 1, 1#64⟩])) 1 1 = some false := by decide +kernel

/-- R150. -/
theorem test_bcst : vOf (exec (.bcst h0 .b32 1#3 (.v 4#8) (.v 1#8) (.imm 7#17)) (holding [⟨.v, 1, 7, 0x63#64⟩])) 4 30 = some 0x63 := by decide +kernel

/-- R182. -/
theorem test_mmov : mOf (exec (.mmov h0 (.m 4#6) (.m 1#6)) (holding [⟨.m, 1, 0, 0x3F80000040000000#64⟩])) 4 0 = some 0x3F80000040000000 := by decide +kernel

/-- R183. -/
theorem test_mput : mOf (exec (.mput h0 (.m 4#6) (.v 1#8) (.v 2#8)) (holding [⟨.v, 1, 0, 0x40000000#64⟩, ⟨.v, 2, 0, 0x3F800000#64⟩])) 4 0 = some 0x3F80000040000000 := by decide +kernel

/-- R184. -/
theorem test_mget : vOf (exec (.mget h0 .var (.v 4#8) (.m 1#6)) (holding [⟨.m, 1, 0, 0x4080000040400000#64⟩])) 4 0 = some 0x40800000 := by decide +kernel

/-- R187: (5, 7). -/
theorem test_madd_rho : mOf (exec (.madd h0 .rho .rne (.m 4#6) (.m 1#6) (.m 2#6)) (holding [⟨.k, 63, 0, 0x3F000000#64⟩, ⟨.m, 1, 0, 0x3F80000040000000#64⟩, ⟨.m, 2, 0, 0x4080000040400000#64⟩])) 4 0 = some 0x40E0000040A00000 := by decide +kernel

/-- R187: (−1, 1). -/
theorem test_msub_pos : mOf (exec (.msub h0 .pos .rne (.m 4#6) (.m 1#6) (.m 2#6)) (holding [⟨.m, 1, 0, 0x3F80000040000000#64⟩, ⟨.m, 2, 0, 0x4080000040400000#64⟩])) 4 0 = some 0x3F800000BF800000 := by decide +kernel

/-- R187: (4, 9). -/
theorem test_mmul_neg : mOf (exec (.mmul h0 .neg .rne (.m 4#6) (.m 1#6) (.m 2#6)) (holding [⟨.m, 1, 0, 0x3F80000040000000#64⟩, ⟨.m, 2, 0, 0x4080000040400000#64⟩])) 4 0 = some 0x4110000040800000 := by decide +kernel

/-- R187: (8.5, 57.25). -/
theorem test_mfma_pos : mOf (exec (.mfma h0 .pos .rne (.m 4#6) (.m 1#6) (.m 2#6)) (holding [⟨.m, 1, 0, 0x3F80000040000000#64⟩, ⟨.m, 2, 0, 0x4080000040400000#64⟩, ⟨.m, 4, 0, 0x3E8000003F000000#64⟩])) 4 0 = some 0x4265000041080000 := by decide +kernel

/-- R187: (−3, 4). -/
theorem test_mscl : mOf (exec (.mscl h0 .rne (.m 4#6) (.m 1#6) (.k 5#6)) (holding [⟨.k, 5, 0, 0x3F800000C0000000#64⟩, ⟨.m, 1, 0, 0x3F80000040000000#64⟩])) 4 0 = some 0x40800000C0400000 := by decide +kernel

/-- R191: (5, 18). -/
theorem test_msqr : mOf (exec (.msqr h0 .rne (.m 4#6) (.m 1#6)) (holding [⟨.m, 1, 0, 0x3F80000040000000#64⟩])) 4 0 = some 0x4190000040A00000 := by decide +kernel

/-- R188: a variance of 0 keeps a positive mean. -/
theorem test_mrlu_zero : mOf (exec (.mrlu h0 (.m 4#6) (.m 1#6)) (holding [⟨.m, 1, 0, 0x40000000#64⟩])) 4 0 = some 0x40000000 := by decide +kernel

/-- R191. -/
theorem test_mexp_inf : mOf (exec (.mexp h0 (.m 4#6) (.m 1#6)) (holding [⟨.m, 1, 0, 0xFF800000#64⟩])) 4 0 = some 0x0 := by decide +kernel

/-- R191: (0.5, 0.25). -/
theorem test_mphi_inf : mOf (exec (.mphi first (.m 4#6) (.m 1#6)) (holding [⟨.m, 1, 0, 0x7F80000000000000#64⟩, ⟨.p, 1, 0, 1#64⟩])) 4 0 = some 0x3E8000003F000000 := by decide +kernel

/-- R194: 4 − 0.5 × 3. -/
theorem test_mclp : vOf (exec (.mclp h0 .sample .rne (.v 4#8) (.m 1#6) (.v 9#8)) (holding [⟨.v, 9, 0, 0xBF000000#64⟩, ⟨.m, 1, 0, 0x4110000040800000#64⟩])) 4 0 = some 0x40200000 := by decide +kernel

/-- R194: a negative variance. -/
theorem test_mchk : pOf (exec (.mchk h0 .vneg (.p 1#3) (.m 1#6)) (holding [⟨.m, 1, 0, 0xBF80000000000000#64⟩])) 1 0 = some true := by decide +kernel

/-- R157: the fragment moves to the target. -/
theorem test_bra : pcOf (exec (.bra h0 0#24) (holding [])) = some 12 := by decide +kernel

/-- R156: a target outside the text raises PC_BAD. -/
theorem test_bra_bad : endOf (exec (.bra h0 5#24) (holding [])) = some 0x06#8 := by decide +kernel

/-- R159: CALL writes the offset of the next word. -/
theorem test_call : vOf (exec (.call h0 (.v 4#8) 0#24) (holding [])) 4 0 = some 0xC := by decide +kernel

/-- R157: the threads with another target are a second fragment. -/
theorem test_brx_split : fragsOf (exec (.brx h0 (.v 1#8)) (holding [⟨.v, 1, 3, 0xC#64⟩])) = some 2 := by decide +kernel

/-- R157: an offset that is no multiple of 12. -/
theorem test_ret_bad : endOf (exec (.ret h0 (.v 1#8)) (holding [⟨.v, 1, 3, 0x4#64⟩])) = some 0x06#8 := by decide +kernel

/-- R160: the record of PC 0 is pushed. -/
theorem test_rcv : recsOf (exec (.rcv h0 0xFFFFFF#24) (holding [])) = some 1 := by decide +kernel

/-- R162. -/
theorem test_nop : pcOf (exec (.nop h0) (holding [])) = some 12 := by decide +kernel

/-- R162. -/
theorem test_yld : pcOf (exec (.yld h0) (holding [])) = some 12 := by decide +kernel

/-- R161: no thread acts, so the fragment goes on. -/
theorem test_exit_guarded : pcOf (exec (.exit { h0 with gn := true }) (holding [])) = some 12 := by decide +kernel

/-- R62: without a handler the cause F0 + n ends the job. -/
theorem test_trap : endOf (exec (.trap h0 3#4) (holding [])) = some 0xF3#8 := by decide +kernel

/-- R164: outside a handler. -/
theorem test_eret_state : endOf (exec (.eret h0) (holding [])) = some 0x08#8 := by decide +kernel

/-- R164: outside a handler. -/
theorem test_iret_state : endOf (exec (.iret h0) (holding [])) = some 0x08#8 := by decide +kernel

/-- R165: %tid. -/
theorem test_srd : vOf (exec (.srd h0 false (.v 4#8) (.s .tid)) (holding [])) 4 5 = some 0x5 := by decide +kernel

/-- R166: %fflag is cleared by ones. -/
theorem test_swr : flOf (exec (.swr h0 false (.s .fflag) (.imm 3#17)) (withSpec fun sp => { sp with fflag := 7#5 })) = some 4 := by decide +kernel

/-- R169: the fragment does not move. -/
theorem test_sleep : pcOf (exec (.sleep h0 (.imm 9#17)) (holding [])) = some 0 := by decide +kernel

/-- R170: outside a debug job it only moves on. -/
theorem test_brk : pcOf (exec (.brk h0 1#8) (holding [])) = some 12 := by decide +kernel

/-- R230: the bytes enter the scratchpad, low byte first. -/
theorem test_sts : scrOf (exec (.sts h0 .b32 .strand .plain (.v 1#8) .none (.v 2#8)) (holding [⟨.v, 1, 0, 0xA1B2C3D4#64⟩, ⟨.v, 2, 0, 0x0#64⟩, ⟨.v, 2, 1, 0x40#64⟩, ⟨.v, 2, 2, 0x80#64⟩, ⟨.v, 2, 3, 0xC0#64⟩, ⟨.v, 2, 4, 0x100#64⟩, ⟨.v, 2, 5, 0x140#64⟩, ⟨.v, 2, 6, 0x180#64⟩, ⟨.v, 2, 7, 0x1C0#64⟩, ⟨.v, 2, 8, 0x200#64⟩, ⟨.v, 2, 9, 0x240#64⟩, ⟨.v, 2, 10, 0x280#64⟩, ⟨.v, 2, 11, 0x2C0#64⟩, ⟨.v, 2, 12, 0x300#64⟩, ⟨.v, 2, 13, 0x340#64⟩, ⟨.v, 2, 14, 0x380#64⟩, ⟨.v, 2, 15, 0x3C0#64⟩, ⟨.v, 2, 16, 0x400#64⟩, ⟨.v, 2, 17, 0x440#64⟩, ⟨.v, 2, 18, 0x480#64⟩, ⟨.v, 2, 19, 0x4C0#64⟩, ⟨.v, 2, 20, 0x500#64⟩, ⟨.v, 2, 21, 0x540#64⟩, ⟨.v, 2, 22, 0x580#64⟩, ⟨.v, 2, 23, 0x5C0#64⟩, ⟨.v, 2, 24, 0x600#64⟩, ⟨.v, 2, 25, 0x640#64⟩, ⟨.v, 2, 26, 0x680#64⟩, ⟨.v, 2, 27, 0x6C0#64⟩, ⟨.v, 2, 28, 0x700#64⟩, ⟨.v, 2, 29, 0x740#64⟩, ⟨.v, 2, 30, 0x780#64⟩, ⟨.v, 2, 31, 0x7C0#64⟩])) 3 = some 0xA1 := by decide +kernel

/-- R211: a thread whose address passes the scratchpad is switched off. -/
theorem test_sts_range : fmaskOf (exec (.sts h0 .b32 .strand .plain (.v 1#8) .none (.v 2#8)) (holding [⟨.v, 2, 3, 0x10000#64⟩])) = some 8 := by decide +kernel

/-- R229: an .i8 load extends its sign. -/
theorem test_lds : vOf (exec (.lds h0 .i8 .strand .plain (.v 4#8) .none (.v 2#8)) (scratch 128 0xFF#8 (holding [⟨.v, 2, 3, 0x80#64⟩]))) 4 3 = some 0xFFFFFFFF := by decide +kernel

/-- R235: thread t reads the sum of the threads before it. -/
theorem test_ats : vOf (exec (.atsAdd h0 .n32 .strand .plain (.v 4#8) (.k 1#6) (.v 2#8)) (holding [⟨.v, 2, 0, 0x1#64⟩, ⟨.v, 2, 1, 0x1#64⟩, ⟨.v, 2, 2, 0x1#64⟩, ⟨.v, 2, 3, 0x1#64⟩, ⟨.v, 2, 4, 0x1#64⟩, ⟨.v, 2, 5, 0x1#64⟩, ⟨.v, 2, 6, 0x1#64⟩, ⟨.v, 2, 7, 0x1#64⟩, ⟨.v, 2, 8, 0x1#64⟩, ⟨.v, 2, 9, 0x1#64⟩, ⟨.v, 2, 10, 0x1#64⟩, ⟨.v, 2, 11, 0x1#64⟩, ⟨.v, 2, 12, 0x1#64⟩, ⟨.v, 2, 13, 0x1#64⟩, ⟨.v, 2, 14, 0x1#64⟩, ⟨.v, 2, 15, 0x1#64⟩, ⟨.v, 2, 16, 0x1#64⟩, ⟨.v, 2, 17, 0x1#64⟩, ⟨.v, 2, 18, 0x1#64⟩, ⟨.v, 2, 19, 0x1#64⟩, ⟨.v, 2, 20, 0x1#64⟩, ⟨.v, 2, 21, 0x1#64⟩, ⟨.v, 2, 22, 0x1#64⟩, ⟨.v, 2, 23, 0x1#64⟩, ⟨.v, 2, 24, 0x1#64⟩, ⟨.v, 2, 25, 0x1#64⟩, ⟨.v, 2, 26, 0x1#64⟩, ⟨.v, 2, 27, 0x1#64⟩, ⟨.v, 2, 28, 0x1#64⟩, ⟨.v, 2, 29, 0x1#64⟩, ⟨.v, 2, 30, 0x1#64⟩, ⟨.v, 2, 31, 0x1#64⟩])) 4 31 = some 0x1F := by decide +kernel

/-- R227. -/
theorem test_ld_misaligned : endOf (exec (.ld h0 .b32 .strand .plain (.v 4#8) (.k 1#6) .none) (holding [⟨.k, 1, 0, 0x2#64⟩])) = some 0x41#8 := by decide +kernel

/-- R44: the load is in flight. -/
theorem test_ld : pendOf (exec (.ld h0 .b32 .strand .plain (.v 4#8) (.k 1#6) .none) (holding [⟨.k, 1, 0, 0x40#64⟩])) = some 1 := by decide +kernel

/-- R320: a plain store waits in the region store buffer. -/
theorem test_st : rsbOf (exec (.st h0 .b32 .strand .plain (.v 4#8) (.k 1#6) .none) (holding [⟨.k, 1, 0, 0x40#64⟩])) = some 1 := by decide +kernel

/-- R235: the update is in flight. -/
theorem test_atg : pendOf (exec (.atgAdd h0 .n32 .strand .plain (.v 4#8) (.k 1#6) (.v 2#8)) (holding [⟨.k, 1, 0, 0x40#64⟩])) = some 1 := by decide +kernel

/-- R233: on a plain page the bytes are buffered. -/
theorem test_stb : rsbOf (exec (.stb h0 .b32 (.v 4#8) (.k 1#6) (.v 2#8)) (holding [⟨.k, 1, 0, 0x40#64⟩])) = some 1 := by decide +kernel

/-- R59: a user job may not invalidate. -/
theorem test_tinv_user : endOf (exec (.tinv h0 (.k 1#6) (.k 2#6) (.k 3#6)) (holding [])) = some 0x05#8 := by decide +kernel

/-- R242: a count past the class maximum fails. -/
theorem test_grow_refused : pOf (exec (.grow h0 true .v (.p 1#3) (.imm 300#17)) (holding [⟨.p, 1, 0, 1#64⟩])) 1 0 = some false := by decide +kernel

/-- R243: the count is lowered to a multiple of 8, never below the allocation at launch. -/
theorem test_shrk : allocOf (exec (.shrk h0 .v (.imm 9#17)) (holding [])) = some 256 := by decide +kernel

/-- R218: the record holds its count. -/
theorem test_xbi : scrOf (exec (.xbi h0 (.imm 64#17) (.imm 3#17)) (holding [])) 64 = some 0x30 := by decide +kernel

/-- R257: an empty queue blocks the fragment. -/
theorem test_qget_empty : pcOf (exec (.qget h0 (.v 4#8) (.imm 1#17)) (holding [])) = some 0 := by decide +kernel

/-- R289: an element of the tile takes the value. -/
theorem test_amov : aOf (exec (.amov h0 .f32 .rne false true (.a 4#6) (.v 1#8) (.imm 0#17)) (holding [⟨.v, 1, 3, 0x3F800000#64⟩])) 4 3 = some 0x3FE0000000000000 := by decide +kernel

/-- R267: an odd descriptor. -/
theorem test_mma_desc : endOf (exec (.mma h0 .f32 (.a 4#6) (.k 8#6) (.k 10#6)) (holding [⟨.k, 8, 0, 0x1#64⟩])) = some 0x82#8 := by decide +kernel

/-- R395: a class that is not open gives 2. -/
theorem test_wqt : kOf (exec (.wqt h0 false .module 1#4 (.k 6#6)) (holding [])) 6 = some 2 := by decide +kernel

/-- R394: the class opens. -/
theorem test_wopn : kOf (exec (.wopn h0 .module 1#4 (.k 6#6)) (holding [⟨.k, 6, 0, 0x9#64⟩])) 6 = some 0 := by decide +kernel

/-! ## WellFormed refuses an ill-formed term at each of its checks -/

/-- Check 2 alone refuses a term. -/
def badMod (i : Instr) : Bool := !modOk i && fieldOk i && !WellFormed i

/-- Check 3 alone refuses a term. -/
def badField (i : Instr) : Bool := modOk i && !fieldOk i && !WellFormed i

def v4 : Opnd := .v 4#8
def v5 : Opnd := .v 5#8
def k4 : Opnd := .k 4#6
def k5 : Opnd := .k 5#6
def p1 : Opnd := .p 1#3
def m1 : Opnd := .m 1#6
def a4 : Opnd := .a 4#6
def a5 : Opnd := .a 5#6
def i1 : Opnd := .imm 1#17
def g1 : Opnd := .g 1#16
def vv : Opnd := .pair 4#8 6#8
def hu : Hdr := { h0 with uni := true }

theorem smoke_steps : WellFormed (.queueFetch 0 0) = false ∧ WellFormed (.sectorLand 0 0 (.land 0)) = false := by decide +kernel

/-- Types of the integer and bit instructions. -/
theorem smoke_mod_integer : [Instr.iadd h0 .f32 .wrap v4 (.two v4 v4), .isub h0 .i32 (.carry 1#3) v4 (.two v4 v4), .imul h0 .b32 false v4 (.two v4 v4),
    .imulh h0 .i16 v4 v4 v4, .bfx h0 .n8 v4 v4 v4, .iabs h0 .n32 false v4 v4, .and h0 .i32 v4 (.two v4 v4), .not h0 .n32 v4 v4, .shl h0 .i32 v4 v4 v4,
    .sar h0 .b32 v4 v4 v4, .lea h0 .i32 0#3 v4 v4 v4, .movi h0 .m64 v4 (.wide 0#42), .sel h0 .f32 1#3 false v4 v4 v4].all badMod = true := by decide +kernel

/-- Types of the floating and conversion instructions. -/
theorem smoke_mod_float : [Instr.fadd h0 .f32 .rne false true v4 (.two v4 v4), .ffma h0 .g8 .rne false false v4 v4 vv, .fmin h0 .i32 false v4 (.two v4 v4),
    .fabs h0 .f64 true v4 v4, .fcmp h0 .n32 .eq p1 v4 v4, .fcls h0 .b32 p1 v4 v4, .frcp h0 .f64 v4 v4, .ftrg h0 .g8 false v4 v4,
    .fdot h0 .f32 .rne false v4 v4 vv, .cvt h0 .rne .b32 .f32 false v4 v4, .cvts h0 .rne .f32 .m64 false v4 v4 v4, .pack h0 .i16 .f16 false v4 v4 v4,
    .unpk h0 .f32 .g8 true v4 v4 i1, .qenc h0 .q4 .f64 v4 k4 vv, .qdec h0 .f64 false .q4 false v4 v4 k4].all badMod = true := by decide +kernel

/-- Types of the cross-lane instructions; types, scopes and kinds of the memory, barrier, matrix and wave instructions. -/
theorem smoke_mod_rest : [Instr.shfl h0 .i32 1#3 .rot v4 v4 k4, .redx h0 .i32 .and v4 v4 k4, .scan h0 .b64 .add false v4 v4 k4, .lds h0 .b32 .die .acq v4 k4 .none,
    .lds h0 .b32 .core .plain v4 k4 .none, .sts h0 .b32 .core .acq v4 k4 .none, .ld h0 .b32 .die .rel v4 k4 .none, .st h0 .b32 .die .plain v4 k4 .none,
    .pft h0 .module k4 .none, .fence h0 .strand .plain, .atsAdd h0 .b32 .core .acq v4 k4 v4, .atsAnd h0 .i32 .core .acq v4 k4 v4, .atsCas h0 .b32 .die .acq v4 k4 vv,
    .atgMax h0 .f64 .die .acq v4 k4 v4, .atgExch h0 .n32 .die .acq v4 k4 v4, .tbar h0 .die .acq k4, .lsyn h0 .die .full k4, .mma h0 .f64 a4 k4 k4, .mmas h0 .f32 a4 k4 k4,
    .ald h0 .n32 a4 k4, .ast h0 .i8 .rne false a4 k4, .amov h0 .f32 .rtz false true a4 v4 k4, .wopn h0 .die 1#4 k4, .wqt h0 false .core 1#4 k4].all badMod = true := by
  decide +kernel

/-- Classes of D, A and B, the parity rule, UNI, and the literal of a wide form. -/
theorem smoke_field_register : [Instr.iadd h0 .i32 .wrap p1 (.two v4 v4), .iadd h0 .i32 .wrap v4 (.two m1 v4), .iadd h0 .i32 .wrap v4 (.two v4 g1),
    .iadd h0 .i64 .wrap v5 (.two v4 v4), .imul h0 .n64 false v4 (.two v5 v4), .imin h0 .i64 v4 (.two v4 v5), .iadd h0 .i32 .wrap k4 (.two v4 v4),
    .and hu .b32 v4 (.two k4 k4), .or hu .b32 k4 (.two v4 k4), .fadd h0 .f32 .rne false false v4 (.wide 0x100000000#42), .imulh h0 .i32 v4 i1 v4,
    .imad hu .i32 false v4 v4 vv, .bfi h0 .b32 v4 v4 v4, .ineg h0 .i32 false v4 i1, .not h0 .b64 v5 v4, .shl h0 .b64 v4 v5 v4, .popc h0 .b64 v4 v5, .brev h0 .b32 v4 i1,
    .mov h0 .b32 p1 v4, .movi h0 .f32 v4 (.two i1 .none), .movi h0 .n32 v4 (.two i1 v4), .movi h0 .i64 v5 (.wide 0#42), .icmp h0 .i32 .eq v4 v4 v4].all badField = true := by
  decide +kernel

theorem smoke_field_float : [Instr.ffma hu .f32 .rne false false v4 v4 vv, .fmin h0 .f64 false v4 (.two v4 v5), .fabs h0 .f32 false v4 g1, .fcmp h0 .f32 .eq p1 v4 i1,
    .fcls h0 .f32 p1 v4 g1, .fscl h0 .f64 .rne false v5 v4 v4, .frnd h0 .f32 .rne v4 g1, .frcp h0 .f32 v4 g1, .fdiv h0 .f64 .rne false v4 v4 v5, .fdot h0 .g8 .rne false v4 v4 v4,
    .cvt h0 .rne .i32 .f32 false v4 i1, .cvts h0 .rne .f32 .i32 false v4 v4 i1, .pack h0 .i16 .i32 false v4 i1 v4, .unpk h0 .i32 .i16 false v4 v4 (.imm 2#17),
    .qenc h0 .q4 .f32 v4 v4 vv, .qdec h0 .f32 false .q4 false v4 k4 k4, .mput h0 v4 v4 v4, .mget h0 .both v5 m1, .madd h0 .ctl .rne m1 v4 m1, .mscl h0 .rne m1 m1 m1,
    .msqr h0 .rne m1 v4, .mclp h0 .mean .rne v4 m1 v4, .mchk h0 .nan v4 m1, .mmov hu m1 m1].all badField = true := by decide +kernel

theorem smoke_field_control : [Instr.plop h0 0#4 p1 v4 p1, .pmov h0 .test p1 v4 v4, .pmov h0 .pack v4 p1 .none, .pmov h0 .unpack .none v4 v4, .ballot hu k4 p1 k4, .vany h0 v4 p1,
    .elect hu p1, .shfl h0 .b32 1#3 .rot v4 v4 i1, .shfl h0 .b64 1#3 .rot v4 (.pair 4#8 5#8) i1, .bcst h0 .b64 1#3 v5 v4 k4, .redx h0 .i32 .add v4 k4 k4, .scan h0 .i32 .add false k4 v4 k4,
    .matchx h0 .b64 1#3 false v4 v5 k4, .call h0 k4 0#24, .rcv first 0#24, .rcv hu 0#24, .brx h0 i1, .ret hu v4, .eret first, .iret hu, .trap hu 0#4, .brk hu 0#8,
    .srd h0 true v5 (.s .cycle), .swr h0 false (.s .tid) v4, .sleep h0 v4].all badField = true := by decide +kernel

theorem smoke_field_memory : [Instr.lds h0 .m64 .strand .plain v4 k4 .none, .lds h0 .b32 .strand .plain m1 k4 .none, .sts h0 .b32 .strand .plain v4 .none .none,
    .ld h0 .b32 .strand .plain v4 v5 .none, .ld h0 .b32 .strand .plain v4 v4 v4, .st h0 .b64 .strand .plain v5 k4 .none, .ld hu .b32 .strand .plain k4 v4 .none,
    .ldb h0 .b32 v4 v4 v4, .stb hu .b32 v4 k4 k4, .pft h0 .core v5 .none, .drel h0 k4 k4 v4, .tinv h0 k4 v4 k4, .tlbp h0 v4 k4, .tlbu h0 i1, .xprb h0 v4 k4,
    .atsAdd h0 .i32 .core .acq v4 k4 vv, .atsCas h0 .b32 .core .acq v4 k4 v4, .atsAdd h0 .f32 .core .acq v4 k4 i1, .atgAdd h0 .i32 .die .acq v4 v5 v4,
    .atgCas h0 .b64 .die .acq v4 k4 (.pair 4#8 5#8), .atgAdd h0 .i64 .die .acq v5 k4 v4].all badField = true := by decide +kernel

theorem smoke_field_services : [Instr.grow h0 false .v v4 i1, .shrk h0 .v v4, .tjoin h0 k4 k4 v4, .tleave h0 v4, .tbar h0 .strand .plain p1, .lsyn hu .strand .plain k4, .xbi h0 v4 i1,
    .xba h0 v4, .xbt h0 v4 k4 k4, .cpy h0 false v4 k4, .gth h0 false k4 p1, .qput hu k4 k4, .qget h0 k4 k4, .mma h0 .g8 a4 k5 k4, .mmas h0 .g8 a4 k4 k5, .mmam h0 .ctl a5 k4 k4,
    .azro h0 true a5, .ald h0 .m64 a5 k4, .ast hu .f32 .rne false a4 k4, .amov h0 .f32 .rne false true a4 m1 k4, .amov h0 .m64 .rne false false m1 a5 k4, .mkp h0 1#4 v4,
    .vred h0 p1, .wopn h0 .module 1#4 v4, .wqt h0 false .module 1#4 i1, .csig h0 .add i1 k4, .swait h0 .ge v4 k4 k4, .coll h0 false k4 v4].all badField = true := by decide +kernel

/-! ## Witnesses: for each statement with hypotheses, a state and operands that meet them -/

def seated (ws : List Write) : Strand := { loadedStrand with r := loadedStrand.r.wrAll ws }
def frag0 : Frag := { fid := 0, mask := 0xFFFFFFFF#32, pc := 0#57, st := .ready, gap := 0, rix := none, evt := 0#64, wait := .none, rgn := 0#57, since := 0, rel := none }

/-- The machine of `start` with another word at PC 0 and another strand there. -/
def placed (w : Nat) (st : Strand) : State := (placeWord State.reset w).updStrand 1 fun _ => st

/-- A fragment's view of its strand in window 0. -/
def view (st : Strand) : Ctx := { sid := 1, f := 0, st := st, fr := frag0, win := 0, kb := start.keyBase loadedStrand }

/-- Every instruction executes normally on such a machine, when it names only allocated registers and is not privileged. -/
theorem issues_placed {w : Nat} {st : Strand} {h : Hdr} {u : Uses} (e : { st with r := loadedStrand.r, sp := loadedStrand.sp, recs := [], teams := [(0, 0)], rsb := [] } = loadedStrand)
    (hp : u.priv = false) (hb : (u.reads ++ u.writes).any st.r.beyond = false) (hs : st.sp.sbchk = false) : Issues h u (placed w st) st (view st) := by
  have hpend : st.pend = [] := by have := congrArg Strand.pend e; exact this
  have hfr : st.frags = loadedStrand.frags := by have := congrArg Strand.frags e; exact this
  have hfa : st.faults = [] := by have := congrArg Strand.faults e; exact this
  have hco : st.core = 0 := by have := congrArg Strand.core e; exact this
  have hba : st.batch = 1 := by have := congrArg Strand.batch e; exact this
  have hset : ∀ rs n, st.settle n rs = (st, n) := by
    intro rs
    induction rs with
    | nil => intro n; rfl
    | cons r rs ih => intro n; simp [Strand.settle, Strand.lastFixed, hpend, ih]
  refine ⟨rfl, rfl, ?_, ?_, ?_, ?_, ?_, ?_, ?_, hb, ?_, ?_⟩
  · rw [hfr]; rfl
  · rw [hset]; rfl
  · show 0 = State.now _ st
    unfold State.now; rw [hco]; rfl
  · show start.keyBase loadedStrand = State.keyBase _ st
    unfold State.keyBase; simp only [hba]; rfl
  · simp [Strand.marked, hpend]
  · simp [Strand.trackedCount, hpend]
  · simp [hp]
  · simp [hs]
  · simp [Strand.faulted, hfa]

theorem someOf {α : Type} {x : Option α} (h : x.isSome = true) : x = some (x.get h) := (Option.some_get h).symm

theorem decode_of {w : Nat} {i : Instr} (h : decodesTo w i = true) : decode w = .ok i := by
  unfold decodesTo at h
  split at h
  · next j e => rw [e, of_decide_eq_true h]
  · cases h

theorem ended {p : State × Bool} (h : p.2 = true) : p = (p.1, true) := Prod.ext rfl h

/-- O1: the 32-bit, 64-bit, carry and pair forms. -/
theorem witness_integer : (let u := uses (refsOf (.v 4#8) false) (srcRefs (.two (.v 1#8) (.v 255#8)) (.v 4#8) false)
    Issues h0 u (placed 0 (seated [])) (seated []) (view (seated []))) ∧
    (let u := uses (refsOf (.v 254#8) true ++ refsOf (.p 1#3) false) (srcRefs (.wide 5#42) (.v 254#8) true ++ refsOf (.p 1#3) false)
     Issues h0 u (placed 0 (seated [])) (seated []) (view (seated []))) ∧
    (let u := uses (refsOf (.v 0#8) false) (refsOf (.v 1#8) false ++ refsOf (.pair 2#8 3#8) false)
     Issues h0 u (placed 0 (seated [])) (seated []) (view (seated []))) ∧
    (let u := uses (refsOf (.k 4#6) false) (refsOf (.k 1#6) false)
     Issues { h0 with uni := true } u (placed 0 (seated [])) (seated []) (view (seated []))) :=
  ⟨issues_placed rfl rfl rfl rfl, issues_placed rfl rfl rfl rfl, issues_placed rfl rfl rfl rfl, issues_placed rfl rfl rfl rfl⟩

/-- O2. -/
theorem witness_bits : (let u := uses (refsOf (.v 4#8) false) (refsOf (.v 1#8) false ++ refsOf (.imm 32#17) false)
    Issues h0 u (placed 0 (seated [])) (seated []) (view (seated []))) ∧
    (let u := uses (refsOf (.v 4#8) true) (refsOf (.v 2#8) true ++ refsOf (.pair 6#8 8#8) true)
     Issues h0 u (placed 0 (seated [])) (seated []) (view (seated []))) :=
  ⟨issues_placed rfl rfl rfl rfl, issues_placed rfl rfl rfl rfl⟩

/-- O3. -/
theorem witness_moves : (let u := uses (refsOf (.v 4#8) false) (refsOf (.v 1#8) false ++ refsOf (.v 2#8) false ++ refsOf (.p 7#3) false)
    Issues h0 u (placed 0 (seated [])) (seated []) (view (seated []))) ∧
    (let u := uses (preds.flatMap fun o => refsOf o false) (refsOf (.v 1#8) false ++ refsOf (.k 2#6) false)
     Issues first u (placed 0 (seated [⟨.p, 1, 3, 1#64⟩])) (seated [⟨.p, 1, 3, 1#64⟩]) (view (seated [⟨.p, 1, 3, 1#64⟩]))) ∧
    (let u := uses (refsOf (.v 4#8) true ++ refsOf (.p 1#3) false) (refsOf (.v 2#8) true ++ refsOf (.imm 31#17) false)
     Issues h0 u (placed 0 (seated [])) (seated []) (view (seated []))) :=
  ⟨issues_placed rfl rfl rfl rfl, issues_placed rfl rfl rfl rfl, issues_placed rfl rfl rfl rfl⟩

/-- O4: a fixed-latency form and a tracked form. -/
theorem witness_float : (let u := uses (refsOf (.v 4#8) false) (srcRefs (.two (.v 1#8) (.g 0x3F80#16)) (.v 4#8) false)
    Issues h0 u (placed 0 (seated [])) (seated []) (view (seated []))) ∧
    (let u := usesT (refsOf (.v 4#8) true) (refsOf (.v 2#8) true ++ refsOf (.v 6#8) true)
     Issues h0 u (placed 0 (seated [])) (seated []) (view (seated []))) :=
  ⟨issues_placed rfl rfl rfl rfl, issues_placed rfl rfl rfl rfl⟩

/-- O5. -/
theorem witness_conversion : (let u := uses (refsOf (.v 4#8) (Ty.f64.width = 64)) (refsOf (.v 1#8) (Ty.f32.width = 64))
    Issues h0 u (placed 0 (seated [])) (seated []) (view (seated []))) ∧
    (let u := uses (refsOf (.v 4#8) false) (refsOf (.k 1#6) false ++ refsOf (.pair 2#8 3#8) false)
     Issues h0 u (placed 0 (seated [])) (seated []) (view (seated []))) :=
  ⟨issues_placed rfl rfl rfl rfl, issues_placed rfl rfl rfl rfl⟩

/-- O6: MFMA's and MRLU's uses, a moment without a negative variance, and one that %ctl.vclamp replaces. -/
theorem witness_moment : (let u := uses (refsOf (.m 4#6) false) (refsOf (.m 4#6) false ++ refsOf (.m 1#6) false ++ refsOf (.m 2#6) false ++ covRefs (placed 0 (seated [])) .rho)
    Issues h0 u (placed 0 (seated [])) (seated []) (view (seated []))) ∧
    (Issues h0 (usesT (refsOf (.m 4#6) false) (refsOf (.m 1#6) false)) (placed 0 (seated [])) (seated []) (view (seated []))) ∧
    noNegvar h0 (fun _ _ => { x := 0x3F8000003F800000, fl := flNone, bad := varFails 0x3F800000 }) (view (seated [])) ∧
    noNegvar h0 (fun _ _ => { x := 0, fl := flNone, bad := varFails 0x80000001 }) (view { seated [] with sp := { Spec.reset with ctl := 2#4 } }) ∧
    varFails 0x80000001 = true :=
  ⟨issues_placed rfl rfl rfl rfl, issues_placed rfl rfl rfl rfl, .inr fun _ _ => by show varFails 0x3F800000 = false; decide +kernel, .inl (by decide +kernel), by decide +kernel⟩

/-- O7: thread 3's variance is −1: of what MPUT forms, of A, of B alone, and of MFMA's D alone. -/
theorem witness_negvar : (let u := uses (refsOf (.m 1#6) false) (refsOf (.v 1#8) false ++ refsOf (.v 2#8) false)
    let st := seated [⟨.v, 2, 3, 0xBF800000#64⟩]
    Issues h0 u (placed 0 st) st (view st) ∧ st.sp.vclamp = false ∧ ∃ t ∈ (view st).acts h0, varFails ((view st).st.r.src .f32 t (.v 2#8)) = true) ∧
    (let st := seated [⟨.m, 1, 3, 0xBF80000000000000#64⟩]
     let s := placed 0 st
     let neg := fun (o : Opnd) => varFails (momVar ((view st).st.r.src .m64 3 o))
     st.sp.vclamp = false ∧ 3 ∈ (view st).acts h0 ∧ neg (.m 1#6) = true ∧ (neg (.m 2#6) || neg (.m 1#6)) = true ∧ ((neg (.m 2#6) || neg (.m 3#6)) || neg (.m 1#6)) = true ∧
     (∀ o ∈ [Opnd.m 1#6, .m 4#6], ∀ cov ∈ [Cov.ind, .rho],
       Issues h0 (uses (refsOf o false) (refsOf (.m 2#6) false ++ refsOf (.m 1#6) false ++ covRefs s cov)) s st (view st) ∧
       Issues h0 (uses (refsOf o false) (refsOf o false ++ refsOf (.m 2#6) false ++ refsOf (.m 3#6) false ++ covRefs s cov)) s st (view st)) ∧
     Issues h0 (uses (refsOf (.m 4#6) false) (refsOf (.m 1#6) false ++ refsOf (.k 2#6) false)) s st (view st) ∧
     Issues h0 (uses (refsOf (.m 4#6) false) (refsOf (.m 1#6) false)) s st (view st) ∧ Issues h0 (usesT (refsOf (.m 4#6) false) (refsOf (.m 1#6) false)) s st (view st) ∧
     Issues h0 (uses (refsOf (.v 4#8) false) (refsOf (.m 1#6) false ++ refsOf (.k 2#6) false)) s st (view st)) :=
  ⟨⟨issues_placed rfl rfl rfl rfl, rfl, 3, by decide +kernel, by decide +kernel⟩,
   ⟨rfl, by decide +kernel, by decide +kernel, by decide +kernel, by decide +kernel,
    by intro o ho cov hc
       simp only [List.mem_cons, List.not_mem_nil, or_false] at ho hc
       rcases ho with rfl | rfl <;> rcases hc with rfl | rfl <;> exact ⟨issues_placed rfl rfl rfl rfl, issues_placed rfl rfl rfl rfl⟩,
    issues_placed rfl rfl rfl rfl, issues_placed rfl rfl rfl rfl, issues_placed rfl rfl rfl rfl, issues_placed rfl rfl rfl rfl⟩⟩

/-- A strand whose k2 names every thread. -/
def meeting : Strand := seated [⟨.k, 2, 0, 0xFFFFFFFF#64⟩]

theorem alone_placed {w : Nat} {i : Instr} {u : Uses} (b : Opnd) (hp : u.priv = false) (hb : (u.reads ++ u.writes).any meeting.r.beyond = false)
    (hw : decodesTo ((loadedJob w).word 0#57) i = true) (hm : BitVec.ofNat 32 (meeting.r.uni64 b) = 0xFFFFFFFF#32) :
    Alone i h0 u (placed w meeting) meeting (view meeting) (loadedJob w) (BitVec.ofNat 32 (meeting.r.uni64 b)) := by
  rw [hm]
  exact ⟨issues_placed rfl hp hb rfl, rfl, decode_of hw, rfl, by decide +kernel, by decide +kernel, by decide +kernel⟩

/-- O8, O28: the five words. -/
theorem witness_rendezvous :
    Alone (.ballot h0 (.v 4#8) (.p 1#3) (.imm 0x1FFFF#17)) h0 (uses (refsOf (.v 4#8) false) (refsOf (.p 1#3) false ++ refsOf (.imm 0x1FFFF#17) false)) (placed 0x509C800000002100005BFFFE meeting) meeting (view meeting) (loadedJob 0x509C800000002100005BFFFE) (BitVec.ofNat 32 (meeting.r.uni64 (.imm 0x1FFFF#17))) ∧
    Alone (.shfl h0 .b64 1#3 .rot (.v 4#8) (.v 2#8) (.k 2#6)) h0 (uses (refsOf (.v 4#8) true ++ refsOf (.p 1#3) false) (refsOf (.v 2#8) true ++ refsOf (.k 2#6) false)) (placed 0x515C81250000200000840004 meeting) meeting (view meeting) (loadedJob 0x515C81250000200000840004) (BitVec.ofNat 32 (meeting.r.uni64 (.k 2#6))) ∧
    Alone (.redx h0 .f32 .add (.v 4#8) (.v 1#8) (.imm 0x1FFFF#17)) h0 (uses (refsOf (.v 4#8) false) (refsOf (.v 1#8) false ++ refsOf (.imm 0x1FFFF#17) false)) (placed 0x51DC81A000002000005BFFFE meeting) meeting (view meeting) (loadedJob 0x51DC81A000002000005BFFFE) (BitVec.ofNat 32 (meeting.r.uni64 (.imm 0x1FFFF#17))) ∧
    Alone (.scan h0 .i32 .max true (.v 4#8) (.v 1#8) (.k 2#6)) h0 (uses (refsOf (.v 4#8) false) (refsOf (.v 1#8) false ++ refsOf (.k 2#6) false)) (placed 0x521C804A0000200000440004 meeting) meeting (view meeting) (loadedJob 0x521C804A0000200000440004) (BitVec.ofNat 32 (meeting.r.uni64 (.k 2#6))) ∧
    Alone (.matchx h0 .b32 1#3 false (.v 4#8) (.v 1#8) (.imm 0x1FFFF#17)) h0 (uses (refsOf (.v 4#8) false ++ refsOf (.p 1#3) false) (refsOf (.v 1#8) false ++ refsOf (.imm 0x1FFFF#17) false)) (placed 0x525C810400002000005BFFFE meeting) meeting (view meeting) (loadedJob 0x525C810400002000005BFFFE) (BitVec.ofNat 32 (meeting.r.uni64 (.imm 0x1FFFF#17))) :=
  ⟨alone_placed (.imm 0x1FFFF#17) rfl rfl (by decide +kernel) (by decide +kernel),
   alone_placed (.k 2#6) rfl rfl (by decide +kernel) (by decide +kernel),
   alone_placed (.imm 0x1FFFF#17) rfl rfl (by decide +kernel) (by decide +kernel),
   alone_placed (.k 2#6) rfl rfl (by decide +kernel) (by decide +kernel),
   alone_placed (.imm 0x1FFFF#17) rfl rfl (by decide +kernel) (by decide +kernel)⟩

/-- O10: a mask that leaves out thread 31; and open rendezvous with other live threads, with another OPC, and with another MOD, met by
each instruction that has a rendezvous. -/
theorem witness_maskMismatch : (let u := uses (refsOf (.v 4#8) false) (refsOf (.p 1#3) false ++ refsOf (.imm 1#17) false)
    Issues h0 u (placed 0 (seated [])) (seated []) (view (seated [])) ∧
    maskOf ((view (seated [])).acts h0) &&& ~~~(BitVec.ofNat 32 ((seated []).r.uni64 (.imm 1#17))) ≠ 0#32) ∧
    (∀ e ∈ [(0x0000FFFF#32, 0), (0xFFFFFFFF#32, 2 ^ 86), (0xFFFFFFFF#32, 2 ^ 64)],
     let r : Rdv := { id := 3, mask := e.1, pc := 0#57, word := e.2, fs := [] }
     let st := { meeting with rdvs := [r] }
     let s := placed 0 st
     let c := view st
     let mask := BitVec.ofNat 32 (c.st.r.uni64 (.k 2#6))
     let live := fun (m : W32) => liveMask c.st.sp m
     (∀ u ∈ [uses (refsOf (.v 4#8) false) (refsOf (.p 1#3) false ++ refsOf (.k 2#6) false), uses [] (refsOf (.k 2#6) false),
        uses (refsOf (.v 4#8) true ++ refsOf (.p 1#3) false) (refsOf (.v 2#8) true ++ refsOf (.k 2#6) false),
        uses (refsOf (.v 4#8) true) (refsOf (.v 2#8) true ++ refsOf (.k 2#6) false),
        uses (refsOf (.v 4#8) false ++ refsOf (.p 1#3) false) (refsOf (.v 2#8) true ++ refsOf (.k 2#6) false)], Issues h0 u s st c) ∧
     s.job? st = some (loadedJob 0) ∧ c.acts h0 ≠ [] ∧ maskOf (c.acts h0) &&& ~~~mask = 0#32 ∧ c.fr.mask &&& live mask ≠ 0#32 ∧
     c.st.rdvs.find? (fun x => live x.mask &&& live mask != 0#32) = some r ∧
     (live r.mask ≠ live mask ∨ bitsOf ((loadedJob 0).word c.fr.pc) 95 86 ≠ bitsOf r.word 95 86 ∨ bitsOf ((loadedJob 0).word c.fr.pc) 72 64 ≠ bitsOf r.word 72 64)) :=
  ⟨⟨issues_placed rfl rfl rfl rfl, by decide +kernel⟩,
   by intro e he; simp only [List.mem_cons, List.not_mem_nil, or_false] at he
      rcases he with rfl | rfl | rfl <;>
      exact ⟨by intro u hu; simp only [List.mem_cons, List.not_mem_nil, or_false] at hu
                rcases hu with rfl | rfl | rfl | rfl | rfl <;> exact ⟨rfl, rfl, rfl, rfl, rfl, rfl, rfl, rfl, rfl, rfl, rfl, rfl⟩,
        rfl, by decide +kernel, by decide +kernel, by decide +kernel, by decide +kernel, by decide +kernel⟩⟩

/-- O11: BRA back to PC 0 of thread 3 alone, which splits the fragment; and BRX of every thread to word 1. -/
theorem witness_branches : (let st := seated [⟨.p, 1, 3, 1#64⟩]
    Branches first (uses [] []) (placed 0 st) st (view st) (loadedJob 0) (((view st).acts first).map fun t => (t, litTarget 0#57 0xFFFFFF#24))
      (12, 0xFFFFFFF7#32) [(0, 8#32)] ∧ (loadedJob 0).pcOk (litTarget 0#57 0xFFFFFF#24) = true) ∧
    (let st := seated [⟨.k, 1, 0, 12#64⟩]
     Branches h0 (uses [] (refsOf (.k 1#6) false)) (placed 0 st) st (view st) (loadedJob 0)
       (((view st).acts h0).map fun t => (t, (loadedJob 0).base + (view st).st.r.src .n32 t (.k 1#6))) (12, 0xFFFFFFFF#32) []) :=
  ⟨⟨⟨issues_placed rfl rfl rfl rfl, rfl, rfl, by decide +kernel, by decide +kernel, by decide +kernel, by decide +kernel⟩, by decide +kernel⟩,
   ⟨issues_placed rfl rfl rfl rfl, rfl, rfl, by decide +kernel, by decide +kernel, by decide +kernel, by decide +kernel⟩⟩

/-- O12: the leader's guard 0, and 1. -/
theorem witness_uniformBranch : (let st := seated [⟨.p, 1, 3, 1#64⟩]
    let h := { first with uni := true }
    Issues h (uses [] []) (placed 0 st) st (view st) ∧ Issues h (uses (refsOf (.k 4#6) false) []) (placed 0 st) st (view st) ∧
      Issues h (uses [] (refsOf (.k 1#6) false)) (placed 0 st) st (view st) ∧ (view st).acts h = [] ∧ (placed 0 st).job? st = some (loadedJob 0)) ∧
    (let st := seated [⟨.p, 1, 0, 1#64⟩, ⟨.k, 1, 0, 12#64⟩]
     let h := { first with uni := true }
     Issues h (uses [] []) (placed 0 st) st (view st) ∧ Issues h (uses (refsOf (.k 4#6) false) []) (placed 0 st) st (view st) ∧
       Issues h (uses [] (refsOf (.k 1#6) false)) (placed 0 st) st (view st) ∧ (view st).acts h ≠ [] ∧
       (loadedJob 0).pcOk (litTarget 0#57 0#24) = true ∧
       (loadedJob 0).pcOk ((loadedJob 0).base + (view st).st.r.src .n32 (((view st).leader).getD 0) (.k 1#6)) = true) :=
  ⟨⟨issues_placed rfl rfl rfl rfl, issues_placed rfl rfl rfl rfl, issues_placed rfl rfl rfl rfl, by decide +kernel, rfl⟩,
   ⟨issues_placed rfl rfl rfl rfl, issues_placed rfl rfl rfl rfl, issues_placed rfl rfl rfl rfl, by decide +kernel, by decide +kernel, by decide +kernel⟩⟩

/-- O13: the first word past the text, as a literal and as thread 3's register or the leader's, with no thread guarded and with the
leader guarded. -/
theorem witness_badBranch : (loadedJob 0).pcOk (litTarget 0#57 1#24) = false ∧
    (∀ uni ∈ [true, false], let st := seated ([⟨.p, 1, 0, 1#64⟩, ⟨.p, 1, 3, 1#64⟩, ⟨.k, 1, 0, 24#64⟩] ++ threads.map fun t => ⟨.v, 1, t, if t = 3 then 24#64 else 12#64⟩)
     let h := { first with uni := uni }
     let c := view st
     let reg := fun (o : Opnd) (t : Nat) => (loadedJob 0).base + c.st.r.src .n32 t o
     (placed 0 st).job? st = some (loadedJob 0) ∧ Issues h (uses [] []) (placed 0 st) st c ∧ Issues h (uses (refsOf (.v 4#8) false) []) (placed 0 st) st c ∧
     Issues h (uses (refsOf (.k 4#6) false) []) (placed 0 st) st c ∧ Issues h (uses [] (refsOf (.v 1#8) false)) (placed 0 st) st c ∧
     Issues h (uses [] (refsOf (.k 1#6) false)) (placed 0 st) st c ∧ c.acts h ≠ [] ∧ (∃ t ∈ c.acts h, (loadedJob 0).pcOk (reg (.k 1#6) t) = false) ∧
     (uni = false → ∃ t ∈ c.acts h, (loadedJob 0).pcOk (reg (.v 1#8) t) = false) ∧ (loadedJob 0).pcOk (reg (.k 1#6) ((c.leader).getD 0)) = false) ∧
    (view (seated [])).acts first = [] ∧ Issues first (uses [] []) (placed 0 (seated [])) (seated []) (view (seated [])) :=
  ⟨by decide +kernel,
   by intro uni hu; simp only [List.mem_cons, List.not_mem_nil, or_false] at hu
      rcases hu with rfl | rfl <;>
      exact ⟨rfl, issues_placed rfl rfl rfl rfl, issues_placed rfl rfl rfl rfl, issues_placed rfl rfl rfl rfl, issues_placed rfl rfl rfl rfl, issues_placed rfl rfl rfl rfl,
        by decide +kernel, by decide +kernel, by decide +kernel, by decide +kernel⟩,
   by decide +kernel, issues_placed rfl rfl rfl rfl⟩

/-- A strand with one sector that no region end has committed. -/
def buffering : Strand :=
  { seated [] with rsb := [{ id := 9, va := 64, pa := 64, home := 0, ord := 1, bytes := [{ off := 0, b := 1#8, t := 0 }], stale := false, ready := false,
                             hold := none, carried := false, stamp := 0 }] }

theorem buffering_sound : Sound buffering := by
  intro e h; simp only [buffering, List.mem_singleton] at h; subst h; intro _; exact ⟨rfl, by decide⟩

/-- O9: threads 0 and 1, with values that are alike and values that differ. -/
theorem witness_matching :
    (let ps : List RdvPart := [⟨0, .ballot h0 (.v 4#8) (.p 1#3) (.k 2#6), [0, 1], [(0, 7), (1, 7)], []⟩]
     let all := threads.filter fun t => ps.any fun q => q.ts.contains t
     1 ∈ all ∧ ∀ t ∈ all, ∀ u ∈ all, rdvVal ps t % 2 ^ 32 = rdvVal ps u % 2 ^ 32) ∧
    (let ps : List RdvPart := [⟨0, .ballot h0 (.v 4#8) (.p 1#3) (.k 2#6), [0, 1], [(0, 7), (1, 8)], []⟩]
     let all := threads.filter fun t => ps.any fun q => q.ts.contains t
     ¬∀ t ∈ all, ∀ u ∈ all, rdvVal ps t % 2 ^ 32 = rdvVal ps u % 2 ^ 32) := by decide +kernel

/-- O14: RCV with room for a record; EXIT with no acting thread, of thread 3 after its region end, and under UNI of a strand
with a buffered sector. -/
theorem witness_recordsExits : (let st := seated [⟨.p, 1, 3, 1#64⟩]
    let b := issued first (uses [] []) (placed 0 st) st (view st)
    Issues first (uses [] []) (placed 0 st) st (view st) ∧ (placed 0 st).job? st = some (loadedJob 0) ∧ (loadedJob 0).pcOk (litTarget 0#57 0#24) = true ∧
    st.recs.length < 8 ∧ st.anyTracked = false ∧ (view st).acts first ≠ [] ∧ (view (seated [])).acts first = [] ∧
    (∃ s1, endRegion (b.updStrand 1 Strand.landFixed) 1 0 12#57 none = (s1, true)) ∧
    Issues { h0 with uni := true } (uses [] []) (placed 0 buffering) buffering (view buffering) ∧ buffering.anyTracked = false ∧
    (view buffering).acts { h0 with uni := true } ≠ [] ∧ Sound buffering) :=
  ⟨issues_placed rfl rfl rfl rfl, rfl, by decide +kernel, by decide +kernel, rfl, by decide +kernel, by decide +kernel, ⟨_, ended (by decide +kernel)⟩,
   issues_placed rfl rfl rfl rfl, rfl, by decide +kernel, buffering_sound⟩

/-- O15: TRAP at 7 and 8; SLEEP by 0 and by 9; a job that is being debugged and one that is not. -/
theorem witness_trapSleep : Issues h0 (uses [] (refsOf (.k 1#6) false)) (placed 0 (seated [⟨.k, 1, 0, 9#64⟩])) (seated [⟨.k, 1, 0, 9#64⟩]) (view (seated [⟨.k, 1, 0, 9#64⟩])) ∧
    (seated []).r.uni32 (.k 1#6) = 0 ∧ (seated [⟨.k, 1, 0, 9#64⟩]).r.uni32 (.k 1#6) ≠ 0 ∧ (view (seated [])).acts h0 ≠ [] ∧
    (view (seated [])).acts first = [] ∧ (7#4).toNat < 8 ∧ 8 ≤ (8#4).toNat ∧
    (let s := placed 0 (seated [])
     let s1 := { s with launches := nmSet s.launches 1 { loadedLaunch with debug := true } }
     Issues h0 (uses [] []) s1 (seated []) (view (seated [])) ∧ (((s1.job? (seated [])).bind fun j => nmGet s1.launches j.launch).map (·.debug)).getD false = true ∧
     (((s.job? (seated [])).bind fun j => nmGet s.launches j.launch).map (·.debug)).getD false = false) :=
  ⟨issues_placed rfl rfl rfl rfl, by decide +kernel, by decide +kernel, by decide +kernel, by decide +kernel, by decide, by decide,
   ⟨rfl, rfl, rfl, rfl, rfl, rfl, rfl, rfl, rfl, rfl, rfl, rfl⟩, rfl, rfl⟩

/-- A strand inside its handlers. -/
def handling : Strand := { seated [] with sp := { Spec.reset with hstate := 3#2, hfrag := some 0, ufrag := some 0, epc := 12#57, uepc := 12#57, hcause := 0x20#8, tsave := 0x8000#57 } }

/-- O16: in both handlers, with a mapped save area; and outside. -/
theorem witness_handlers : (let st := handling
    let b := issued h0 (uses [] []) (placed 0 st) st (view st)
    Issues h0 (uses [] []) (placed 0 st) st (view st) ∧ (placed 0 st).job? st = some (loadedJob 0) ∧ st.anyTracked = false ∧ (loadedJob 0).pcOk 12 = true ∧
    st.sp.hstate.getLsbD 0 = true ∧ st.sp.hfrag = some 0 ∧ st.sp.hstate.getLsbD 1 = true ∧ st.sp.ufrag = some 0 ∧
    (12#57 : VAddr) = (if st.sp.hcause ∈ [0x04#8, 0x07#8, 0x20#8, 0x43#8, 0x45#8, 0x61#8, 0x62#8, 0x65#8, 0x84#8] then st.sp.epc else st.sp.epc + 12#57) ∧
    (12#57 : VAddr) = st.sp.uepc ∧
    ∃ s1 st1 ps, endRegion b 1 0 12#57 none = (s1, true) ∧ nmGet s1.strands 1 = some st1 ∧ areaPieces s1 st false = some ps) ∧
    (Issues h0 (uses [] []) (placed 0 (seated [])) (seated []) (view (seated [])) ∧ (seated []).sp.hstate.getLsbD 0 = false) :=
  ⟨⟨issues_placed rfl rfl rfl rfl, rfl, rfl, by decide +kernel, rfl, rfl, rfl, rfl, by decide +kernel, by decide +kernel,
    _, _, _, ended (by decide +kernel), someOf (by decide +kernel), someOf (by decide +kernel)⟩, issues_placed rfl rfl rfl rfl, rfl⟩

/-- O17: a 64-bit read into a register pair, and a write. -/
theorem witness_specials : Issues h0 (uses (refsOf (.v 4#8) true) []) (placed 0 (seated [])) (seated []) (view (seated [])) ∧
    Issues h0 (uses [] (refsOf (.v 4#8) true)) (placed 0 (seated [])) (seated []) (view (seated [])) ∧ (view (seated [])).acts h0 ≠ [] :=
  ⟨issues_placed rfl rfl rfl rfl, issues_placed rfl rfl rfl rfl, by decide +kernel⟩

/-- O18: the last word of the scratchpad. -/
theorem witness_scratchpad : (let st := seated [⟨.k, 1, 0, 65532#64⟩]
    let u := usesT (refsOf (.v 4#8) false) (refsOf (.k 1#6) false ++ refsOf (.imm 0#17) false)
    let us := uses [] (refsOf (.v 4#8) false ++ refsOf (.k 1#6) false ++ refsOf (.imm 0#17) false)
    let ts := ((view st).memActs h0 [.v 4#8, .k 1#6, .imm 0#17]).map fun t => (t, (view st).scrAddr (.k 1#6) (.imm 0#17) t)
    let ta := ((view st).memActs h0 [.v 4#8, .k 1#6, .imm 0#17]).map fun t => (t, (view st).scrAddr (.k 1#6) .none t)
    Issues h0 u (placed 0 st) st (view st) ∧ Issues h0 us (placed 0 st) st (view st) ∧ st.acquiring = false ∧ ts ≠ [] ∧
    scrGood (placed 0 st) (view st) 4 ts ∧ ta ≠ [] ∧ scrGood (placed 0 st) (view st) (tyBytes .n32) ta ∧
    (∃ s2, endRegion (issued h0 u (placed 0 st) st (view st)) 1 0 (0#57 + 12#57) none = (s2, true)) ∧
    ∃ s2, endRegion (issued h0 us (placed 0 st) st (view st)) 1 0 (0#57 + 12#57) none = (s2, true)) :=
  ⟨issues_placed rfl rfl rfl rfl, issues_placed rfl rfl rfl rfl, rfl, by decide +kernel, by unfold scrGood; decide +kernel, by decide +kernel,
   by unfold scrGood; decide +kernel, ⟨_, ended (by decide +kernel)⟩, _, ended (by decide +kernel)⟩

/-- O19: the least and the greatest old value. -/
theorem witness_atomics : Ty.n32.isInt = true ∧ 0 < Ty.n32.width ∧ (0 : Nat) < 2 ^ Ty.n32.width ∧ (0xFFFFFFFF : Nat) < 2 ^ Ty.n32.width := by decide

theorem inlOf {α β : Type} {x : α ⊕ β} (h : x.isLeft = true) : x = .inl (x.getLeft h) := by cases x; rfl; cases h

theorem inlPair {α β γ : Type} {x : (α × β) ⊕ γ} (h : x.isLeft = true) : x = .inl ((x.getLeft h).1, (x.getLeft h).2) := by cases x; rfl; cases h

theorem inlOf1 {α β γ : Type} {x : (α × List β) ⊕ γ} (h : x.isLeft = true) (k : (x.getLeft h).2.length = 1) :
    x = .inl ((x.getLeft h).1, [(x.getLeft h).2.head (List.ne_nil_of_length_pos (k ▸ Nat.one_pos))]) := by
  cases x with
  | inl p => obtain ⟨a, l⟩ := p; match l, k with | [b], _ => rfl
  | inr _ => cases h

theorem pairSnd {α β : Type} {p : α × β} {b : β} (h : p.2 = b) : p = (p.1, b) := Prod.ext rfl h

/-- The machine of `placed` with the leaf of the first 2 MiB replaced: bits 5-4 are its ORD (R300). -/
def paged (b : Byte) (st : Strand) : State := { placed 0 st with mem := spPut (placed 0 st).mem 0x10002000 b }

theorem issues_paged {b : Byte} {st : Strand} {h : Hdr} {u : Uses} (I : Issues h u (placed 0 st) st (view st)) : Issues h u (paged b st) st (view st) := by
  obtain ⟨h1, h2, h3, h4, h5, h6, h7, h8, h9, h10, h11, h12⟩ := I
  exact ⟨h1, h2, h3, h4, h5, h6, h7, h8, h9, h10, h11, h12⟩

/-- Every thread accesses byte 64, on a page of each kind. -/
def reaching : Strand := seated [⟨.k, 1, 0, 64#64⟩]
def xs4 : List Elem := elems (view reaching) h0 [.v 4#8, .k 1#6, .none] 4 ((view reaching).gblAddr (.k 1#6) .none)
def useLd : Uses := usesT (refsOf (.v 4#8) false) (refsOf (.k 1#6) true ++ refsOf .none false)
def useSt : Uses := uses [] (refsOf (.v 4#8) false ++ refsOf (.k 1#6) true ++ refsOf .none false)
def useAt : Uses := usesT (refsOf (.v 4#8) false) (refsOf (.k 1#6) true ++ refsOf (.v 2#8) false)

/-- O20: a load and an atomic of a RELEASE page, of a STRONG page, of a DETERM page and of an UNORDERED page. -/
theorem witness_loads (ord : Byte) (ho : ord = 0x1F#8 ∨ ord = 0x0F#8 ∨ ord = 0x3F#8 ∨ ord = 0x2F#8) :
    (∃ s1 ps, Issues h0 useLd (paged ord reaching) reaching (view reaching) ∧
      Reaches (issued h0 useLd (paged ord reaching) reaching (view reaching)) (view reaching) false 4 xs4 s1 ps ∧ reaching.acquiring = false ∧
      sigPending s1 1 (ps.flatMap fun p => p.p.keys) = false ∧ ottUsed s1 0 < 256 ∧ reaching.misplaced (ps.map (·.p)) = false ∧ reaching.strongBusy = false ∧ (onOrd 0 ps = true ↔ ord = 0x0F#8) ∧ ∃ x, endRegion s1 1 0 (0#57 + 12#57) none = (x, true)) ∧
    (∃ s1 ps s2 s3, Issues h0 useAt (paged ord reaching) reaching (view reaching) ∧
      Reaches (issued h0 useAt (paged ord reaching) reaching (view reaching)) (view reaching) true 4 xs4 s1 ps ∧
      (∀ p ∈ ps, reaching.overlaps p.t p.p.keys = false) ∧ sigPending s1 1 (ps.flatMap fun p => p.p.keys) = false ∧ ottUsed s1 0 < 256 ∧
      endRegion s1 1 0 0#57 none = (s2, true) ∧
      release s2 1 0 .core true = (s3, true) ∧ (onOrd 3 ps = true ↔ ord = 0x3F#8)) := by
  rcases ho with rfl | rfl | rfl | rfl <;>
  exact ⟨⟨_, _, issues_paged (issues_placed rfl rfl rfl rfl),
      ⟨by decide +kernel, by decide +kernel, inlPair (by decide +kernel), by decide +kernel⟩, rfl, by decide +kernel, by decide +kernel, by decide +kernel, rfl, by decide +kernel, _, ended (by decide +kernel)⟩,
    _, _, _, _, issues_paged (issues_placed rfl rfl rfl rfl),
      ⟨by decide +kernel, by decide +kernel, inlPair (by decide +kernel), by decide +kernel⟩, by decide +kernel, by decide +kernel, by decide +kernel,
      ended (by decide +kernel), ended (by decide +kernel), by decide +kernel⟩

/-- O21, O58: stores, plain and release, to a RELEASE page, to a STRONG page, to a DETERM page and to an UNORDERED page of this module. -/
theorem witness_stores (ord : Byte) (ho : ord = 0x1F#8 ∨ ord = 0x0F#8 ∨ ord = 0x3F#8 ∨ ord = 0x2F#8) :
    ∃ s1 ps s2 s3, let reqs := ps.map fun p => ({ t := p.t, p := p.p, bs := leBytes 4 (reaching.r.src .b32 p.t (.v 4#8)) } : StoreReq)
      Issues h0 useSt (paged ord reaching) reaching (view reaching) ∧
      Reaches (issued h0 useSt (paged ord reaching) reaching (view reaching)) (view reaching) true 4 xs4 s1 ps ∧ reaching.acquiring = false ∧
      (∀ p ∈ ps, reaching.overlaps p.t p.p.keys = false) ∧ sigPending s1 1 (ps.flatMap fun p => p.p.keys) = false ∧
      (onOrd 0 ps = true ↔ ord = 0x0F#8) ∧ (onOrd 3 ps = true ↔ ord = 0x3F#8) ∧ reaching.rsb.length + reaching.needs reqs ≤ 64 ∧
      rsbUsed s1 0 + reaching.needs reqs ≤ 16384 ∧ (ord = 0x0F#8 → ∀ p ∈ ps, p.p.ord = 0 ∧ p.p.home = 0) ∧ ps ≠ [] ∧ reaching.strongBusy = false ∧
      endRegion s1 1 0 0#57 none = (s2, true) ∧
      (if ps.all fun p => p.p.ord == 2 then (s2, true) else release s2 1 0 .core true) = (s3, true) ∧
      ottUsed s1 0 < 256 ∧ reaching.misplaced (ps.map (·.p)) = false := by
  rcases ho with rfl | rfl | rfl | rfl <;>
  exact ⟨_, _, _, _, issues_paged (issues_placed rfl rfl rfl rfl),
      ⟨by decide +kernel, by decide +kernel, inlPair (by decide +kernel), by decide +kernel⟩, rfl, by decide +kernel, by decide +kernel,
      by decide +kernel, by decide +kernel, by decide +kernel, by decide +kernel, by decide +kernel, by decide +kernel, rfl, ended (by decide +kernel), ended (by decide +kernel),
      by decide +kernel, by decide +kernel⟩

/-- O22: an address of 4 n + 2. -/
theorem witness_misaligned : (let st := seated [⟨.k, 1, 0, 66#64⟩]
    (∃ t ∈ (view st).memActs h0 [.v 4#8, .k 1#6, .none], (view st).gblAddr (.k 1#6) .none t % tyBytes .b32 ≠ 0) ∧
    Issues h0 useLd (placed 0 st) st (view st) ∧ Issues h0 useSt (placed 0 st) st (view st) ∧ Issues h0 useAt (placed 0 st) st (view st)) :=
  ⟨⟨0, by decide +kernel, by decide +kernel⟩, issues_placed rfl rfl rfl rfl, issues_placed rfl rfl rfl rfl, issues_placed rfl rfl rfl rfl⟩

/-- O22: queue 1 belongs to batch 2. -/
theorem witness_queueOwner : (let st := seated []
    let s := { placed 0 st with cores := [(0, { Core.reset with queues := [(1, { batch := some 2, ents := [] })] })] }
    (view st).acts h0 ≠ [] ∧ (s.hwq 0 (st.r.uni64 (.imm 1#17) % 64)).batch = some 2 ∧ 2 ≠ st.batch ∧
    Issues h0 (uses [] (refsOf (.imm 1#17) false ++ refsOf (.v 2#8) false)) s st (view st) ∧
    Issues h0 (usesT (refsOf (.v 4#8) false) (refsOf (.imm 1#17) false)) s st (view st)) :=
  ⟨by decide +kernel, by decide +kernel, by decide, ⟨rfl, rfl, rfl, rfl, rfl, rfl, rfl, rfl, rfl, rfl, rfl, rfl⟩, ⟨rfl, rfl, rfl, rfl, rfl, rfl, rfl, rfl, rfl, rfl, rfl, rfl⟩⟩

/-- The machine whose first 2 MiB are a page of their own, whose leaf begins with two bytes: bits 8-6 are its FMT (R299, R300). -/
def leafed (b0 b1 : Byte) (st : Strand) : State :=
  { placed 0 st with mem := [(0x10002000, 1#8), (0x10002001, 0x30#8), (0x10002003, 0x10#8), (0x10003000, b0), (0x10003001, b1)].foldl (fun m e => spPut m e.1 e.2) (placed 0 st).mem }

theorem issues_leafed {b0 b1 : Byte} {st : Strand} {h : Hdr} {u : Uses} (I : Issues h u (placed 0 st) st (view st)) : Issues h u (leafed b0 b1 st) st (view st) := by
  obtain ⟨h1, h2, h3, h4, h5, h6, h7, h8, h9, h10, h11, h12⟩ := I
  exact ⟨h1, h2, h3, h4, h5, h6, h7, h8, h9, h10, h11, h12⟩

/-- P is in k1, thread t's index `e t` in v2. -/
def laying (P : Nat) (e : Nat → Nat) : Strand := seated ((⟨.k, 1, 0, BitVec.ofNat 64 P⟩ : Write) :: threads.map fun t => ⟨.v, 2, t, BitVec.ofNat 64 (e t)⟩)

def useLdb (d : Opnd) (w : Bool) : Uses := usesT (refsOf d w) (refsOf (.k 1#6) false ++ refsOf (.v 2#8) false)
def useStb (d : Opnd) (w : Bool) : Uses := uses [] (refsOf d w ++ refsOf (.k 1#6) false ++ refsOf (.v 2#8) false)

/-- An LDB or STB of the page whose FMT is `f`. -/
def found (wr : Bool) (f : Nat) (d : Opnd) (w : Bool) (b0 b1 : Byte) (st : Strand) : Prop :=
  let u := if wr then useStb d w else useLdb d w
  Issues h0 u (leafed b0 b1 st) st (view st) ∧
    ∃ s0 p0, PageOf (issued h0 u (leafed b0 b1 st) st (view st)) (view st) wr (.k 1#6) s0 p0 ∧ p0.e.fmt = f

/-- O22: a type that an M32, a sparse and a Q page do not take; the first record past a Q page, of .b32 and of an element; a P that is not
aligned; an element of a PLAIN page that is not aligned; an odd D. -/
theorem witness_formatTraps :
    (∀ wr ∈ [false, true], let d : Opnd := .v 4#8
      let m : Opnd := .m 4#6
      let far := laying 0 fun _ => 123120
      let farEl := laying 0 fun _ => 123120 * 64
      let odd := laying 66 id
      let c := view far
      found wr 6 d false 0x9F#8 1#8 far ∧ found wr 4 d false 0x1F#8 1#8 far ∧ found wr 1 m true 0x5F#8 0#8 far ∧ found wr 1 d false 0x5F#8 0#8 far ∧
      found wr 1 d false 0x5F#8 0#8 farEl ∧ found wr 6 m true 0x9F#8 1#8 odd ∧ found wr 4 d false 0x1F#8 1#8 odd ∧ found wr 1 d false 0x5F#8 0#8 odd ∧
      found wr 0 d false 0x1F#8 0#8 odd ∧ found wr 1 (.v 5#8) false 0x5F#8 0#8 far ∧
      c.memActs h0 [d] ≠ [] ∧ c.memActs h0 [m] ≠ [] ∧ qRecords (qOf 1) ≤ c.offset (.v 2#8) (c.leader.getD 0) % 2 ^ 32 ∧
      (∃ t ∈ (view farEl).memActs h0 [d], qRecords (qOf 1) ≤ (view farEl).offset (.v 2#8) t % 2 ^ 32 / 64) ∧
      (view odd).offset (.v 2#8) ((view odd).leader.getD 0) % 2 ^ 32 < qRecords (qOf 1) ∧
      (∀ t ∈ (view odd).memActs h0 [d], (view odd).offset (.v 2#8) t % 2 ^ 32 / 64 < qRecords (qOf 1)) ∧
      (view odd).offset (.k 1#6) 0 % 4 ≠ 0 ∧ (view odd).offset (.k 1#6) 0 % fmtAlign 4 ≠ 0 ∧ (view odd).offset (.k 1#6) 0 % 2 ^ 21 ≠ 0 ∧
      (∃ t ∈ (view odd).memActs h0 [d], ((view odd).offset (.k 1#6) 0 + (view odd).offset (.v 2#8) t % 2 ^ 32 * 4) % 2 ^ 64 % 4 ≠ 0)) ∧
    ldbPair 6 .b32 = false ∧ ldbPair 4 .b32 = false ∧ ldbPair 1 .m64 = false ∧ ldbPair 1 .f32 = true ∧ ldbPair 6 .m64 = true ∧ ldbPair 4 .g8 = true := by
  refine ⟨?_, by decide⟩
  intro wr hw; simp only [List.mem_cons, List.not_mem_nil, or_false] at hw
  rcases hw with rfl | rfl <;>
  refine ⟨⟨issues_leafed (issues_placed rfl rfl rfl rfl), _, _, inlOf1 (by decide +kernel) (by decide +kernel), by decide +kernel⟩,
    ⟨issues_leafed (issues_placed rfl rfl rfl rfl), _, _, inlOf1 (by decide +kernel) (by decide +kernel), by decide +kernel⟩,
    ⟨issues_leafed (issues_placed rfl rfl rfl rfl), _, _, inlOf1 (by decide +kernel) (by decide +kernel), by decide +kernel⟩,
    ⟨issues_leafed (issues_placed rfl rfl rfl rfl), _, _, inlOf1 (by decide +kernel) (by decide +kernel), by decide +kernel⟩,
    ⟨issues_leafed (issues_placed rfl rfl rfl rfl), _, _, inlOf1 (by decide +kernel) (by decide +kernel), by decide +kernel⟩,
    ⟨issues_leafed (issues_placed rfl rfl rfl rfl), _, _, inlOf1 (by decide +kernel) (by decide +kernel), by decide +kernel⟩,
    ⟨issues_leafed (issues_placed rfl rfl rfl rfl), _, _, inlOf1 (by decide +kernel) (by decide +kernel), by decide +kernel⟩,
    ⟨issues_leafed (issues_placed rfl rfl rfl rfl), _, _, inlOf1 (by decide +kernel) (by decide +kernel), by decide +kernel⟩,
    ⟨issues_leafed (issues_placed rfl rfl rfl rfl), _, _, inlOf1 (by decide +kernel) (by decide +kernel), by decide +kernel⟩,
    ⟨issues_leafed (issues_placed rfl rfl rfl rfl), _, _, inlOf1 (by decide +kernel) (by decide +kernel), by decide +kernel⟩,
    by decide +kernel, by decide +kernel, by decide +kernel, by decide +kernel, by decide +kernel, by decide +kernel, by decide +kernel, by decide +kernel, by decide +kernel, by decide +kernel⟩

/-- What O23 asks of an LDB whose accesses are found. -/
def mayLoad (s1 : State) (st : Strand) (accs : List Acc) : Prop :=
  let ps := accs.flatMap (·.ps)
  st.acquiring = false ∧ st.strongBusy = false ∧ sigPending s1 1 (accs.flatMap Acc.keys) = false ∧ ottUsed s1 0 < 256 ∧ st.misplaced ps = false ∧
    ∃ x, endRegion s1 1 0 (if accs.any (·.dec.sparse) then 0#57 else 0#57 + 12#57) none = (x, true)

/-- The places that threads' elements find, from the state in which the page of P has been found. -/
def eachAt (s0 : State) (c : Ctx) (wr : Bool) (n : Nat) (g : Nat → Nat) (ts : List Nat) : (State × List Place) ⊕ State :=
  xlateElems s0 c wr (ts.map fun t => { t := t, va := g t % 2 ^ 64, len := n })

def loadBase (d : Opnd) (w : Bool) (b0 b1 : Byte) (st : Strand) : State := issued h0 (useLdb d w) (leafed b0 b1 st) st (view st)
def storeBase (d : Opnd) (w : Bool) (b0 b1 : Byte) (st : Strand) : State := issued h0 (useStb d w) (leafed b0 b1 st) st (view st)

/-- O23: LDB of a PLAIN page of each order. -/
theorem witness_ldb_plain (ord : Byte) (ho : ord = 0x0F#8 ∨ ord = 0x1F#8 ∨ ord = 0x2F#8 ∨ ord = 0x3F#8) : let st := laying 64 id
    Issues h0 (useLdb (.v 4#8) false) (leafed ord 0#8 st) st (view st) ∧
    ∃ s1 accs, LdbReads h0 .b32 (.v 4#8) (.k 1#6) (.v 2#8) (loadBase (.v 4#8) false ord 0#8 st) (view st) s1 accs ∧ mayLoad s1 st accs := by
  rcases ho with rfl | rfl | rfl | rfl <;>
  exact ⟨issues_leafed (issues_placed rfl rfl rfl rfl), _, _,
    ⟨by decide +kernel, _, _, inlOf1 (by decide +kernel) (by decide +kernel),
      .inl ⟨by decide +kernel, by decide +kernel, _, inlPair (by decide +kernel), by decide +kernel, rfl⟩⟩,
    rfl, rfl, by decide +kernel, by decide +kernel, by decide +kernel, _, ended (by decide +kernel)⟩

/-- O23: LDB of a record and of an element of a page of each Q-format. -/
theorem witness_ldb_q (b : Byte) (hb : b = 0x5F#8 ∨ b = 0x9F#8 ∨ b = 0xDF#8) : let st := laying 0 id
    Issues h0 (useLdb (.v 4#8) false) (leafed b 0#8 st) st (view st) ∧
    (∃ s1 accs, LdbReads h0 .b32 (.v 4#8) (.k 1#6) (.v 2#8) (loadBase (.v 4#8) false b 0#8 st) (view st) s1 accs ∧ mayLoad s1 st accs) ∧
    ∃ s1 accs, LdbReads h0 .f32 (.v 4#8) (.k 1#6) (.v 2#8) (loadBase (.v 4#8) false b 0#8 st) (view st) s1 accs ∧ mayLoad s1 st accs := by
  rcases hb with rfl | rfl | rfl <;>
  exact ⟨issues_leafed (issues_placed rfl rfl rfl rfl),
    ⟨_, _, ⟨by decide +kernel, _, _, inlOf1 (by decide +kernel) (by decide +kernel),
        .inr (.inl ⟨by decide +kernel, by decide +kernel, _, inlOf1 (by decide +kernel) (by decide +kernel), .inl ⟨rfl, by decide +kernel, rfl⟩⟩)⟩,
      rfl, rfl, by decide +kernel, by decide +kernel, by decide +kernel, _, ended (by decide +kernel)⟩,
    _, _, ⟨by decide +kernel, _, _, inlOf1 (by decide +kernel) (by decide +kernel),
        .inr (.inl ⟨by decide +kernel, by decide +kernel, _, inlOf1 (by decide +kernel) (by decide +kernel), .inr ⟨.inl rfl, by decide +kernel, rfl⟩⟩)⟩,
      rfl, rfl, by decide +kernel, by decide +kernel, by decide +kernel, _, ended (by decide +kernel)⟩

/-- O23: LDB of an M32, an SP8 and an SP16 page. -/
theorem witness_ldb_m32_sp : let st := laying 128 id
    (Issues h0 (useLdb (.m 4#6) true) (leafed 0x9F#8 1#8 st) st (view st) ∧
      ∃ s1 accs, LdbReads h0 .m64 (.m 4#6) (.k 1#6) (.v 2#8) (loadBase (.m 4#6) true 0x9F#8 1#8 st) (view st) s1 accs ∧ mayLoad s1 st accs) ∧
    (Issues h0 (useLdb (.v 4#8) false) (leafed 0x1F#8 1#8 st) st (view st) ∧
      ∃ s1 accs, LdbReads h0 .g8 (.v 4#8) (.k 1#6) (.v 2#8) (loadBase (.v 4#8) false 0x1F#8 1#8 st) (view st) s1 accs ∧ mayLoad s1 st accs) ∧
    (Issues h0 (useLdb (.v 4#8) false) (leafed 0x5F#8 1#8 st) st (view st) ∧
      ∃ s1 accs, LdbReads h0 .f16 (.v 4#8) (.k 1#6) (.v 2#8) (loadBase (.v 4#8) false 0x5F#8 1#8 st) (view st) s1 accs ∧ mayLoad s1 st accs) :=
  ⟨⟨issues_leafed (issues_placed rfl rfl rfl rfl), _, _,
    ⟨by decide +kernel, _, _, inlOf1 (by decide +kernel) (by decide +kernel),
      .inr (.inr (.inl ⟨by decide +kernel, rfl, by decide +kernel, _, inlPair (by decide +kernel), by decide +kernel, rfl⟩))⟩,
    rfl, rfl, by decide +kernel, by decide +kernel, by decide +kernel, _, ended (by decide +kernel)⟩,
   ⟨issues_leafed (issues_placed rfl rfl rfl rfl), _, _,
    ⟨by decide +kernel, _, _, inlOf1 (by decide +kernel) (by decide +kernel),
      .inr (.inr (.inr (.inl ⟨by decide +kernel, .inl rfl, by decide +kernel, _, inlPair (by decide +kernel), by decide +kernel, rfl⟩)))⟩,
    rfl, rfl, by decide +kernel, by decide +kernel, by decide +kernel, _, ended (by decide +kernel)⟩,
   ⟨issues_leafed (issues_placed rfl rfl rfl rfl), _, _,
    ⟨by decide +kernel, _, _, inlOf1 (by decide +kernel) (by decide +kernel),
      .inr (.inr (.inr (.inr ⟨by decide +kernel, .inl rfl, by decide +kernel, _, inlPair (by decide +kernel), by decide +kernel, rfl⟩)))⟩,
    rfl, rfl, by decide +kernel, by decide +kernel, by decide +kernel, _, ended (by decide +kernel)⟩⟩

/-- What O23 asks of an STB whose stores are found: they enter the buffer, or, on STRONG pages, pass it. -/
def mayStore (s1 : State) (reqs : List StoreReq) : Prop :=
  ∃ st, nmGet s1.strands 1 = some st ∧ reqs ≠ [] ∧ st.acquiring = false ∧ (∀ r ∈ reqs, st.overlaps r.t r.p.keys = false) ∧
    sigPending s1 1 (reqs.flatMap fun r => r.p.keys) = false ∧ st.misplaced (reqs.map (·.p)) = false ∧
    (((∀ r ∈ reqs, r.p.ord ≠ 0) ∧ st.rsb.length + st.needs reqs ≤ 64 ∧ rsbUsed s1 st.core + st.needs reqs ≤ 16384) ∨
     ((∀ r ∈ reqs, r.p.ord = 0) ∧ st.strongBusy = false ∧ ottUsed s1 0 < 256 ∧ ∃ s2, endRegion s1 1 0 0#57 none = (s2, true)))

/-- O23: STB to a PLAIN page of each order. -/
theorem witness_stb_plain (ord : Byte) (ho : ord = 0x0F#8 ∨ ord = 0x1F#8 ∨ ord = 0x2F#8 ∨ ord = 0x3F#8) : let st := laying 64 id
    Issues h0 (useStb (.v 4#8) false) (leafed ord 0#8 st) st (view st) ∧
    ∃ s1 fl mfl reqs, StbWrites h0 .b32 (.v 4#8) (.k 1#6) (.v 2#8) (storeBase (.v 4#8) false ord 0#8 st) (view st) s1 fl mfl reqs ∧ mayStore s1 reqs := by
  rcases ho with rfl | rfl | rfl | rfl
  · exact ⟨issues_leafed (issues_placed rfl rfl rfl rfl), _, _, _, _,
      ⟨by decide +kernel, _, _, inlOf1 (by decide +kernel) (by decide +kernel),
        .inl ⟨by decide +kernel, rfl, rfl, by decide +kernel, _, ⟨inlPair (by decide +kernel), by decide +kernel⟩, rfl⟩⟩,
      _, someOf (by decide +kernel), by decide +kernel, by decide +kernel, by decide +kernel, by decide +kernel, by decide +kernel,
      .inr ⟨by decide +kernel, by decide +kernel, by decide +kernel, _, ended (by decide +kernel)⟩⟩
  all_goals exact ⟨issues_leafed (issues_placed rfl rfl rfl rfl), _, _, _, _,
    ⟨by decide +kernel, _, _, inlOf1 (by decide +kernel) (by decide +kernel),
      .inl ⟨by decide +kernel, rfl, rfl, by decide +kernel, _, ⟨inlPair (by decide +kernel), by decide +kernel⟩, rfl⟩⟩,
    _, someOf (by decide +kernel), by decide +kernel, by decide +kernel, by decide +kernel, by decide +kernel, by decide +kernel,
    .inl ⟨by decide +kernel, by decide +kernel, by decide +kernel⟩⟩

/-- O23: STB of moments to an M32 page, of a record and of values to encode to a page of each Q-format. -/
theorem witness_stb_m32 : let st := laying 128 id
    Issues h0 (useStb (.m 4#6) true) (leafed 0x9F#8 1#8 st) st (view st) ∧
    ∃ s1 fl mfl reqs, StbWrites h0 .m64 (.m 4#6) (.k 1#6) (.v 2#8) (storeBase (.m 4#6) true 0x9F#8 1#8 st) (view st) s1 fl mfl reqs ∧ mayStore s1 reqs :=
  ⟨issues_leafed (issues_placed rfl rfl rfl rfl), _, _, _, _,
    ⟨by decide +kernel, _, _, inlOf1 (by decide +kernel) (by decide +kernel),
      .inr (.inl ⟨by decide +kernel, rfl, by decide +kernel, _, ⟨inlPair (by decide +kernel), by decide +kernel⟩, rfl, rfl, by decide +kernel, rfl⟩)⟩,
    _, someOf (by decide +kernel), by decide +kernel, by decide +kernel, by decide +kernel, by decide +kernel, by decide +kernel,
    .inl ⟨by decide +kernel, by decide +kernel, by decide +kernel⟩⟩

theorem witness_stb_q (b : Byte) (hb : b = 0x5F#8 ∨ b = 0x9F#8 ∨ b = 0xDF#8) : let st := laying 0 id
    Issues h0 (useStb (.v 4#8) false) (leafed b 0#8 st) st (view st) ∧
    (∃ s1 fl mfl reqs, StbWrites h0 .b32 (.v 4#8) (.k 1#6) (.v 2#8) (storeBase (.v 4#8) false b 0#8 st) (view st) s1 fl mfl reqs ∧ mayStore s1 reqs) ∧
    ∃ s1 fl mfl reqs, StbWrites h0 .f32 (.v 4#8) (.k 1#6) (.v 2#8) (storeBase (.v 4#8) false b 0#8 st) (view st) s1 fl mfl reqs ∧ mayStore s1 reqs := by
  rcases hb with rfl | rfl | rfl <;>
  exact ⟨issues_leafed (issues_placed rfl rfl rfl rfl),
    ⟨_, _, _, _, ⟨by decide +kernel, _, _, inlOf1 (by decide +kernel) (by decide +kernel),
        .inr (.inr ⟨by decide +kernel, by decide +kernel, by decide +kernel, _, _, _, inlOf1 (by decide +kernel) (by decide +kernel), rfl, rfl, .inl ⟨rfl, rfl, rfl, rfl⟩⟩)⟩,
      _, someOf (by decide +kernel), by decide +kernel, by decide +kernel, by decide +kernel, by decide +kernel, by decide +kernel,
      .inl ⟨by decide +kernel, by decide +kernel, by decide +kernel⟩⟩,
    _, _, _, _, ⟨by decide +kernel, _, _, inlOf1 (by decide +kernel) (by decide +kernel),
        .inr (.inr ⟨by decide +kernel, by decide +kernel, by decide +kernel, _, _, _, inlOf1 (by decide +kernel) (by decide +kernel), rfl, rfl,
          .inr ⟨.inl rfl, rfl, by decide +kernel, by decide +kernel, rfl, rfl, rfl⟩⟩)⟩,
      _, someOf (by decide +kernel), by decide +kernel, by decide +kernel, by decide +kernel, by decide +kernel, by decide +kernel,
      .inl ⟨by decide +kernel, by decide +kernel, by decide +kernel⟩⟩

/-- O24: a strand with a buffered sector; one with nothing on its way, whose team gives up the pages of its range. -/
theorem witness_fences : (Issues h0 (uses [] []) (placed 0 buffering) buffering (view buffering) ∧ (view buffering).acts h0 ≠ [] ∧ Sound buffering ∧
    (∃ s1, endRegion (issued h0 (uses [] []) (placed 0 buffering) buffering (view buffering)) 1 0 (0#57 + 12#57) none = (s1, true)) ∧
    (∃ s1 s2, endRegion (issued h0 (uses [] []) (placed 0 buffering) buffering (view buffering)) 1 0 0#57 none = (s1, true) ∧
      release s1 1 0 .die false = (s2, false))) ∧
    (let st := seated [⟨.k, 3, 0, 4096#64⟩]
    let u := uses [] (refsOf (.k 1#6) false ++ refsOf (.k 2#6) false ++ refsOf (.k 3#6) false)
    Issues h0 (uses [] []) (placed 0 st) st (view st) ∧ (view st).acts h0 ≠ [] ∧ (view st).acts first = [] ∧ Still (placed 0 st) st ∧
    Issues h0 u (placed 0 st) st (view st) ∧ st.r.uni64 (.k 3#6) ≠ 0 ∧ st.r.uni64 (.k 2#6) = 0 ∧
    ∃ k, teamKey (issued h0 u (placed 0 st) st (view st)) 1 1 (st.r.uni64 (.k 1#6) % 65536) = some k ∧ st.teams.any (·.1 == k) = true) :=
  ⟨⟨issues_placed rfl rfl rfl rfl, by decide +kernel, buffering_sound, ⟨_, ended (by decide +kernel)⟩, _, _, ended (by decide +kernel), pairSnd (by decide +kernel)⟩,
   issues_placed rfl rfl rfl rfl, by decide +kernel, by decide +kernel, ⟨rfl, rfl, rfl, rfl, rfl, rfl⟩, issues_placed rfl rfl rfl rfl, by decide +kernel,
   by decide +kernel, _, someOf (by decide +kernel), by decide +kernel⟩

/-- O25: an empty range for TLBP and one of one byte, and TINV in a supervisor job. -/
theorem witness_translation : (let u := uses [] (refsOf (.k 1#6) false ++ refsOf (.imm 1#17) false)
    let st := buffering
    let x := committed (issued h0 u (placed 0 st) st (view st)) 1 0 0#57
    Issues h0 (uses [] (refsOf (.k 1#6) true ++ refsOf (.imm 0#17) false)) (placed 0 st) st (view st) ∧
    Issues h0 u (placed 0 st) st (view st) ∧ (view st).acts h0 ≠ [] ∧ (view st).acts first = [] ∧ Sound st ∧ st.r.uni64 (.imm 0#17) = 0 ∧
    st.r.uni64 (.imm 1#17) ≠ 0 ∧
    (∃ s2 es, let old := (s2.core 0).unlock 1 (st.r.uni64 (.k 1#6))
      pagesGo x 0 (x.asid st) (st.r.uni64 (.k 1#6) + 1) (1 / 4096 + 2) (st.r.uni64 (.k 1#6)) = .inl (s2, es) ∧ es ≠ [] ∧
      old.locks.length < 16 ∧ old.locked.length + (es.filter fun e => !old.locked.contains e).length ≤ 64) ∧
    Issues h0 (usesT (refsOf (.k 4#6) false) (refsOf (.k 1#6) false)) (placed 0 st) st (view st) ∧
    (let v := { uses [] (refsOf (.k 1#6) false ++ refsOf (.k 2#6) false ++ refsOf (.k 3#6) false) with priv := true }
     Issues h0 v { placed 0 st with jobs := [(1, { loadedJob 0 with user := false })] } st (view st))) :=
  ⟨issues_placed rfl rfl rfl rfl, issues_placed rfl rfl rfl rfl, by decide +kernel, by decide +kernel, buffering_sound, by decide +kernel, by decide +kernel,
   ⟨_, _, inlPair (by decide +kernel), by decide +kernel, by decide +kernel, by decide +kernel⟩, issues_placed rfl rfl rfl rfl,
   ⟨rfl, rfl, rfl, rfl, rfl, rfl, rfl, rfl, rfl, rfl, rfl, rfl⟩⟩

/-- O26. -/
theorem witness_privilege : (let s := placed 0 (seated [])
    s.cur = some (1, 0) ∧ nmGet s.strands 1 = some (seated []) ∧ nmGet (seated []).frags 0 = some frag0 ∧ s.job? (seated []) = some (loadedJob 0) ∧
    (loadedJob 0).user = true ∧ (h0.wsb && (seated []).marked (refsOf (.k 1#6) false ++ refsOf (.k 2#6) false ++ refsOf (.k 3#6) false ++ guardRefs h0)) = false) :=
  ⟨rfl, rfl, rfl, rfl, rfl, rfl⟩

/-- A strand allocated 32 vector registers. -/
def small : Strand := { seated [] with r := { Regs.reset with valloc := 32, kalloc := 64 }, launch := (16, 16, 0) }

/-- O27: a count held already, one past the class, one that fits; and a count that SHRK lowers. -/
theorem witness_growShrink : (let s := paged 0x1F#8 small
    let u := usesT (refsOf (.p 1#3) false) (refsOf (.imm 9#17) false)
    let us := uses [] (refsOf (.imm 9#17) false)
    let b := issued h0 u s small (view small)
    (view small).acts h0 ≠ [] ∧ (view small).acts first = [] ∧ roundUp (small.r.uni32 (.imm 9#17)) (granule .v) ≤ small.r.alloc .v ∧
    small.r.alloc .v < roundUp (small.r.uni32 (.imm 300#17)) (granule .v) ∧ classMax .v < roundUp (small.r.uni32 (.imm 300#17)) (granule .v) ∧
    small.r.alloc .v < roundUp (small.r.uni32 (.imm 40#17)) (granule .v) ∧ roundUp (small.r.uni32 (.imm 40#17)) (granule .v) ≤ classMax .v ∧
    Issues h0 u s small (view small) ∧ growQueue b 0 = [] ∧ growFits b small .v (roundUp (small.r.uni32 (.imm 40#17)) (granule .v)) = true ∧
    Issues h0 us s small (view small) ∧ small.pend = [] ∧
    max (roundUp (small.r.uni32 (.imm 9#17)) (granule .v)) (small.floor 0 .v) < small.r.alloc .v) :=
  ⟨by decide +kernel, by decide +kernel, by decide +kernel, by decide +kernel, by decide +kernel, by decide +kernel, by decide +kernel,
   ⟨rfl, rfl, rfl, rfl, rfl, rfl, rfl, rfl, rfl, rfl, rfl, rfl⟩, by decide +kernel, by decide +kernel, ⟨rfl, rfl, rfl, rfl, rfl, rfl, rfl, rfl, rfl, rfl, rfl, rfl⟩, rfl, by decide +kernel⟩

/-- O28: TJOIN of rank 0 of a team of one; TLEAVE and TBAR of the batch's own team. -/
theorem witness_teams : (let st := seated [⟨.k, 1, 0, 5#64⟩, ⟨.k, 2, 0, 1#64⟩]
    let u := usesT (refsOf (.k 4#6) false) (refsOf (.k 1#6) false ++ refsOf (.k 2#6) false)
    let ua := uses [] (refsOf (.imm 0#17) false)
    let b := issued h0 ua (placed 0 st) st (view st)
    Issues h0 u (placed 0 st) st (view st) ∧ (view st).acts h0 ≠ [] ∧
    tjoinCause (issued h0 u (placed 0 st) st (view st)) st (st.r.uni64 (.k 1#6) % 65536) (st.r.uni64 (.k 1#6) / 2 ^ 32 % 65536) (st.r.uni64 (.k 2#6) % 65536) = none ∧
    Issues h0 ua (placed 0 st) st (view st) ∧
    ∃ s1 k rank t, (view st).member b (.imm 0#17) = some (k, rank) ∧ nmGet (placed 0 st).teams k = some t ∧
      endRegion b 1 0 0#57 (some (k, t.phase, rank)) = (s1, true)) ∧
    Alone (.lsyn h0 .strand .plain (.imm 0x1FFFF#17)) h0 (uses [] (refsOf (.imm 0x1FFFF#17) false)) (placed 0xC15C8000F0000780001BFFFE meeting) meeting (view meeting) (loadedJob 0xC15C8000F0000780001BFFFE)
      (BitVec.ofNat 32 (meeting.r.uni64 (.imm 0x1FFFF#17))) ∧
    Alone (.lsyn h0 .strand .full (.imm 0x1FFFF#17)) h0 (uses [] (refsOf (.imm 0x1FFFF#17) false)) (placed 0xC15C8003F0000780001BFFFE meeting) meeting (view meeting) (loadedJob 0xC15C8003F0000780001BFFFE)
      (BitVec.ofNat 32 (meeting.r.uni64 (.imm 0x1FFFF#17))) ∧
    (∃ s2, endRegion ((gathered h0 (uses [] (refsOf (.imm 0x1FFFF#17) false)) (placed 0xC15C8003F0000780001BFFFE meeting) meeting (view meeting)).updStrand 1 fun x =>
      x.result 0 (view meeting).win 1 [] [] flNone false) 1 0 (0#57 + 12#57) none = (s2, true)) :=
  ⟨⟨issues_placed rfl rfl rfl rfl, by decide +kernel, by decide +kernel, issues_placed rfl rfl rfl rfl, _, 0, 0, _, by decide +kernel, someOf (by decide +kernel),
    ended (by decide +kernel)⟩, alone_placed _ rfl rfl (by decide +kernel) (by decide +kernel), alone_placed _ rfl rfl (by decide +kernel) (by decide +kernel), _, ended (by decide +kernel)⟩

/-- O29: a record at the last place of the scratchpad, in phase 0. -/
theorem witness_transactionBarriers : (let st := seated [⟨.k, 1, 0, 65520#64⟩]
    Issues h0 (uses [] (refsOf (.k 1#6) false ++ refsOf (.imm 1#17) false)) (placed 0 st) st (view st) ∧ (view st).acts h0 ≠ [] ∧
    xbOk (placed 0 st) 1 (st.r.uni32 (.k 1#6)) = true ∧ Issues h0 (uses [] (refsOf (.k 1#6) false)) (placed 0 st) st (view st) ∧
    Issues h0 (usesT (refsOf (.p 1#3) false) (refsOf (.k 1#6) false ++ refsOf (.imm 1#17) false)) (placed 0 st) st (view st) ∧
    (readXb (placed 0 st) 1 (st.r.uni32 (.k 1#6))).phase ≠ st.r.uni32 (.imm 1#17) % 16 ∧
    (readXb (placed 0 st) 1 (st.r.uni32 (.k 1#6))).phase = st.r.uni32 (.imm 0#17) % 16) :=
  ⟨issues_placed rfl rfl rfl rfl, by decide +kernel, by decide +kernel, issues_placed rfl rfl rfl rfl, issues_placed rfl rfl rfl rfl, by decide +kernel, by decide +kernel⟩

theorem pairOf {α β : Type} {p : α × β} {a : α} (h : p.1 = a) : p = (a, p.2) := Prod.ext h rfl

theorem okOf {ε α β : Type} {x : Except ε (α × β)} (h : x.toOption.isSome = true) : x = .ok ((x.toOption.get h).1, (x.toOption.get h).2) := by
  cases x <;> first | rfl | cases h

/-- A machine in which no fragment is ISSUED. -/
def resting (st : Strand) : State := { placed 0 st with cur := none }

def with0 (st : Strand) (f : Frag → Frag) : Strand := st.updFrag 0 f

/-- Eight strands of lane 0 of core 0 that have nothing to do, behind a pooled strand that is ready. -/
def crowded : State :=
  { resting { seated [] with st := .pooled } with
    strands := (1, { seated [] with st := .pooled }) ::
      (List.range 8).map fun i => (i + 2, with0 { seated [] with entered := i } fun fr => { fr with st := .blocked, wait := .sleep 9 }),
    cores := [(0, { Core.reset with disp := [(0, 64)] })] }

/-- O30: turns 0, 15 and 16, with a fragment to choose and without one; an empty and a full active set; a displacement;
TRAPWAIT; a sleep that is over. -/
theorem witness_lanes :
    (windowHeld (resting (seated [])) 0 = false ∧ ((resting (seated [])).core 0).laneTurn < 15 ∧
      ∃ x, lanePick (resting (seated [])) 0 ((resting (seated [])).core 0).laneTurn = some x) ∧
    (windowHeld (resting { seated [] with lane := 3 }) 0 = false ∧ lanePick (resting { seated [] with lane := 3 }) 0 0 = none) ∧
    (let s := { resting { seated [] with lane := 15 } with cores := [(0, { Core.reset with laneTurn := 15 })] }
     windowHeld s 0 = false ∧ (∃ x, lanePick s 0 15 = some x) ∧ (s.core 0).laneTurn = 15) ∧
    (let s := { resting (seated []) with cores := [(0, { Core.reset with laneTurn := 16 })] }
     windowHeld s 0 = false ∧ 16 ≤ (s.core 0).laneTurn) ∧
    (let s := resting { seated [] with st := .pooled }
     laneQueue s 0 0 = [1] ∧ (laneActive s 0 0).length < 8 ∧ entryDue s 0 0 = true ∧ windowHeld s 0 = true) ∧
    laneQueue crowded 0 0 = [1] ∧ 8 ≤ (laneActive crowded 0 0).length ∧ entryDue crowded 0 0 = true ∧
    (∃ old, earliest (laneActive crowded 0 0) = some old) ∧ displacementDue crowded 0 0 = true ∧
    (let st := with0 (seated []) fun fr => { fr with st := .trapwait }
     (∃ fr, nmGet st.frags 0 = some fr ∧ fr.st = .trapwait) ∧ st.sp.hstate = 0#2 ∧ (resting st).cur = none ∧
       ((resting st).core st.core).laneTurn = st.lane ∧ st.lane < 15 ∧ st.resident = true) ∧
    (∃ fr, nmGet (with0 (seated []) fun fr => { fr with wait := .sleep 0 }).frags 0 = some fr ∧ fr.wait = .sleep 0) :=
  ⟨⟨by decide +kernel, by decide +kernel, _, someOf (by decide +kernel)⟩, by decide +kernel,
   ⟨by decide +kernel, ⟨_, someOf (by decide +kernel)⟩, rfl⟩, ⟨by decide +kernel, by decide +kernel⟩,
   by decide +kernel, by decide +kernel, by decide +kernel, by decide +kernel, ⟨_, someOf (by decide +kernel)⟩, by decide +kernel,
   ⟨⟨_, rfl, rfl⟩, rfl, rfl, rfl, by decide, rfl⟩, ⟨_, rfl, rfl⟩⟩

def inFlight (op : Flight) : Strand :=
  { seated [] with pend := [{ id := 5, frag := 0, pc := 0#57, mask := 0xFFFFFFFF#32, due := none, ok := true, marks := [⟨.v, 4⟩], writes := [], fl := flNone, mfl := false, op := op }] }
/-- Thread 3's element: four bytes at 64 on a page of a home and kind. -/
def acc64 (home ord : Nat) : Acc :=
  { t := 3, ps := [{ va := 64, pa := 64, home := home, ord := ord, len := 4 }], dec := .raw .b32, b := 1#64, c := 0#64, bs := [1#8, 2#8, 3#8, 4#8] }

/-- What the elements of O31 ask of an operation that holds one element. -/
def lands (op : Flight) (a : Acc) : Prop :=
  let st := inFlight op
  let s := resting st
  ∃ p, nmGet s.strands 1 = some st ∧ st.st ≠ .saved ∧ st.pend.find? (fun p => p.id == 5 && p.tracked && p.ok) = some p ∧ p.op = op ∧ op.accs = [a] ∧
    st.pend.find? (fun p => p.id == 5) = some p ∧ op.accs.find? (fun x => x.t == 3) = some a ∧ st.earlierClash 5 [a] = false ∧
    vatAsleep s [a] = false ∧ reqOut s 1 5 3 = false

/-- O31: a known result; a load of this module and of another; an atomic; a store to a STRONG page and to a RELEASE page. -/
theorem witness_landing :
    ((∃ p, (inFlight .none).pend.find? (fun p => p.id == 5 && p.tracked && p.ok) = some p ∧ p.op.accs = [] ∧ p.op.isAcq = false) ∧
      nmGet (resting (inFlight .none)).strands 1 = some (inFlight .none)) ∧
    (∀ hm ∈ [(0, 1), (0, 3), (2, 1)], let a := acc64 hm.1 hm.2
     let op : Flight := .load (.v 4#8) false (some .die) false [a]
     lands op a ∧ loadSends (resting (inFlight op)) (inFlight op) [a] = none ∧ a.badLine (resting (inFlight op)) (inFlight op) = false ∧
       (a.ps.find? (asksHome (resting (inFlight op)) (inFlight op) 3)).isSome = decide (hm.1 = 2)) ∧
    (let a : Acc := { acc64 0 1 with ps := [{ va := 128, pa := 128, home := 0, ord := 1, len := 128, fmt := 4 }], dec := .sp 1 0 .g8 }
     let op : Flight := .load (.v 4#8) false none false [a]
     lands op a ∧ loadSends (resting (inFlight op)) (inFlight op) [a] = none ∧ a.badLine (resting (inFlight op)) (inFlight op) = true ∧
       a.ps.find? (asksHome (resting (inFlight op)) (inFlight op) 3) = none) ∧
    (∀ o ∈ [0, 1, 3], let a := acc64 0 o
     let op : Flight := .atom 0 .n32 (.v 4#8) false .core .plain [a]
     lands op a ∧ atomSends (resting (inFlight op)) 0 [a] = none ∧ (op.accs.head?.map (·.t)) = some 3 ∧
       atomClear (resting (inFlight op)) (inFlight op) [a] = true ∧ ∀ x ∈ a.ps, x.home = 0) ∧
    (∀ o ∈ [0, 1, 3], let a := acc64 0 o
     let op : Flight := .store [a]
     lands op a ∧ (∀ b ∈ [a], b.t < 3 → ∀ k ∈ b.keys, k ∉ a.keys) ∧ a.ps = [{ va := 64, pa := 64, home := 0, ord := o, len := 4 }] ∧
       (∀ x ∈ a.ps, (inFlight op).pendingSectors (x.sectors.map (·.2)) = false ∧ ottUsed (resting (inFlight op)) 0 + x.sectors.length ≤ 256)) ∧
    (let rec3 : Piece := { va := 64, pa := 2 ^ 51 + 64, home := 0, ord := 1, len := 4 }
     let a := { acc64 0 1 with ps := [rec3] }
     let b := { acc64 0 1 with t := 4, ps := [{ rec3 with va := 68, pa := 2 ^ 51 + 68 }] }
     let st := inFlight (.store [a, b])
     let s := resting st
     ∃ p, nmGet s.strands 1 = some st ∧ st.pend.find? (fun p => p.id == 5 && p.tracked && p.ok) = some p ∧ st.pend.find? (fun p => p.id == 5) = some p ∧
       p.op = .store [a, b] ∧ p.op.accs.find? (fun x => x.t == 3) = some a ∧ storeMates p a rec3 = [a, b] ∧ st.earlierClash 5 [a, b] = false ∧
       st.earlierClash 5 [a] = false ∧ vatAsleep s [a] = false ∧ reqOut s 1 5 3 = false ∧ st.pendingSectors (rec3.sectors.map (·.2)) = false ∧
       ottUsed s 0 + rec3.sectors.length ≤ 256) :=
  ⟨⟨⟨_, rfl, rfl, rfl⟩, rfl⟩,
   by intro hm h; simp only [List.mem_cons, List.not_mem_nil, or_false] at h
      rcases h with rfl | rfl | rfl <;>
        exact ⟨⟨_, rfl, by decide, rfl, rfl, rfl, rfl, rfl, by decide +kernel, by decide +kernel, by decide +kernel⟩, by decide +kernel, by decide +kernel, by decide +kernel⟩,
   ⟨⟨_, rfl, by decide, rfl, rfl, rfl, rfl, rfl, by decide +kernel, by decide +kernel, by decide +kernel⟩, by decide +kernel, by decide +kernel, by decide +kernel⟩,
   by intro o h; simp only [List.mem_cons, List.not_mem_nil, or_false] at h
      rcases h with rfl | rfl | rfl <;>
        exact ⟨⟨_, rfl, by decide, rfl, rfl, rfl, rfl, rfl, by decide +kernel, by decide +kernel, by decide +kernel⟩, by decide +kernel, rfl, by decide +kernel, by decide⟩,
   by intro o h; simp only [List.mem_cons, List.not_mem_nil, or_false] at h
      rcases h with rfl | rfl | rfl <;>
        exact ⟨⟨_, rfl, by decide, rfl, rfl, rfl, rfl, rfl, by decide +kernel, by decide +kernel, by decide +kernel⟩, by decide, rfl, by decide +kernel⟩,
   ⟨_, rfl, rfl, rfl, rfl, rfl, by decide +kernel, by decide +kernel, by decide +kernel, by decide +kernel, by decide +kernel, by decide +kernel, by decide +kernel⟩⟩

/-- O58: an element of a STRONG store of this module, and of a STRONG atomic, with another to come. -/
theorem witness_store_element : let q := acc64 0 0
    let r : Acc := { acc64 0 0 with t := 4, ps := [{ va := 96, pa := 96, home := 0, ord := 0, len := 4 }] }
    let st := inFlight (.store [q, r])
    let s := resting st
    ∃ p x, nmGet s.strands 1 = some st ∧ st.st ≠ .saved ∧ st.pend.find? (fun p => p.id == 5 && p.tracked && p.ok) = some p ∧
      st.pend.find? (fun p => p.id == 5) = some p ∧ p.op = .store [q, r] ∧ [q, r].find? (fun z => z.t == 3) = some q ∧ q.ps = [x] ∧
      x.home = 0 ∧ x.ord = 0 ∧ st.earlierClash 5 [q] = false ∧ vatAsleep s [q] = false ∧ reqOut s 1 5 3 = false ∧
      (∀ b ∈ [q, r], b.t < 3 → ∀ k ∈ b.keys, k ∉ q.keys) ∧ (∃ b ∈ [q, r], b.t ≠ 3) ∧ st.pendingSectors (x.sectors.map (·.2)) = false ∧
      (let at_ := inFlight (.atom 0 .n32 (.v 4#8) false .core .plain [q, r])
       ∃ p, at_.pend.find? (fun p => p.id == 5 && p.tracked && p.ok) = some p ∧ p.op.accs.head? = some q ∧ at_.pend.find? (fun p => p.id == 5) = some p ∧
         at_.earlierClash 5 [q] = false ∧ reqOut (resting at_) 1 5 3 = false ∧ at_.pendingSectors (x.sectors.map (·.2)) = false ∧
         atomSends (resting at_) 0 [q] = none ∧ atomClear (resting at_) at_ [q] = true) :=
  ⟨_, _, rfl, by decide, rfl, rfl, rfl, rfl, rfl, rfl, rfl, by decide +kernel, by decide +kernel, by decide +kernel, by decide +kernel,
   by decide, by decide +kernel, _, rfl, rfl, rfl, by decide +kernel, by decide +kernel, by decide +kernel, by decide +kernel, by decide +kernel⟩

/-- O32: a completion held with %uvec 0 and with a handler; a live thread; a page that is not valid. -/
theorem witness_interrupts : (let i : UInt := { frag := 0, status := 0#8, tag := 7#32 }
    let st := { seated [] with held := [i], sp := { Spec.reset with uvec := 12#57 } }
    nmGet (resting st).strands 1 = some st ∧ st.resident = true ∧ st.held = i :: [] ∧ st.sp.uvec ≠ 0#57 ∧ st.intFrag i.frag = some 0 ∧
    nmGet st.frags 0 = some frag0 ∧ st.sp.hstate = 0#2 ∧ frag0.st = .ready ∧ (resting st).cur = none ∧ st.anyTracked = false ∧ st.abort = none ∧ areaWaits (resting st) st = false ∧
    (seated []).sp.uvec = 0#57 ∧ 31 < 32 ∧ st.sp.live 31 = true ∧
    ∃ s1, fetchXlate { paged 0x1E#8 st with cur := none } 0 (({ paged 0x1E#8 st with cur := none } : State).asid st) 0 = (.pageFault, s1)) :=
  ⟨rfl, rfl, rfl, by decide +kernel, by decide +kernel, rfl, rfl, rfl, rfl, rfl, rfl, by decide +kernel, rfl, by decide, by decide +kernel, _, pairOf (by decide +kernel)⟩

def entry (home ord : Nat) : RsbEnt :=
  { id := 9, va := 64, pa := 64, home := home, ord := ord, bytes := [{ off := 0, b := 1#8, t := 0 }], stale := false, ready := true, hold := none, carried := false, stamp := 0 }
def storing (home ord : Nat) : Strand := { seated [] with rsb := [entry home ord] }
def line : WcbLine := { id := 4, home := 2, pa := 128, bytes := [(0, 1#8)], born := 0, sids := [1], unord := false, wait := false }
def onWay : PWrite := { seq := 1, sid := 1, pa := 64, b := 5#8, unord := false }

/-- O33. -/
theorem witness_ordering : (∀ hm ∈ [(0, 0), (2, 1), (0, 1)],
      nmGet (resting (storing hm.1 hm.2)).strands 1 = some (storing hm.1 hm.2) ∧
      (storing hm.1 hm.2).rsb.find? (fun e => e.id == 9 && (e.ready || e.hold.isSome)) = some (entry hm.1 hm.2) ∧
      (∀ x ∈ (storing hm.1 hm.2).rsb.takeWhile fun x => x.id != 9, x.ready = true → x.hold = none → sectorKey x.home x.pa ≠ sectorKey (entry hm.1 hm.2).home (entry hm.1 hm.2).pa) ∧
      ottUsed (resting (storing hm.1 hm.2)) 0 < 256 ∧ ((resting (storing hm.1 hm.2)).core 0).wcb.length < 64) ∧
    (let s := { State.reset with dies := [(0, { Die.reset with p := [onWay] })] }
     (s.die 0).p.find? (fun w => w.pa == 64) = some onWay) ∧
    (1151 < coreCount ∧ (2 ^ 52 - 1) / 32 * 32 < 2 ^ 52) ∧
    (let s := { State.reset with cores := [(0, { Core.reset with wcb := [line], cycle := 2048, ott := 1 })] }
     (s.core 0).wcb.find? (fun l => l.id == 4) = some line ∧ ottUsed s 0 < 256 ∧ pairFull s 2 = false ∧
     (s.core 0).wcb.find? (fun l => decide (l.born + 2048 ≤ (s.core 0).cycle)) = some line ∧
     (s.fab.pkts.filter fun k => k.core == 0 && k.src == s.module.toNat && (match k.body with | .line _ _ _ => true | _ => false)).length < (s.core 0).ott) ∧
    (let st := with0 (seated []) fun fr => { fr with st := .blocked, wait := .rsb }
     ∃ fr, nmGet st.frags 0 = some fr ∧ fr.wait = .rsb ∧ st.rsb.length < 64 ∧ rsbUsed (resting st) 0 < 16384) :=
  ⟨by intro hm h; simp only [List.mem_cons, List.not_mem_nil, or_false] at h
      rcases h with rfl | rfl | rfl <;> exact ⟨rfl, by decide +kernel, by decide +kernel, by decide +kernel, by decide +kernel⟩,
   by decide +kernel, by decide, ⟨by decide +kernel, by decide +kernel, by decide +kernel, by decide +kernel, by decide +kernel⟩, _, rfl, rfl, by decide +kernel, by decide +kernel⟩

/-- GROW.wait p1, 9 at PC 0 (R225): its request for n registers waits. -/
def growWord : Nat := 0xC01C808020000B00027C0000
def growStrand (n : Nat) : Strand := with0 (seated []) fun fr => { fr with st := .blocked, wait := .grow .v n 0 3 }
def growing (n : Nat) : State := { placed growWord (growStrand n) with cur := none }

/-- O34: a request that is granted, and one that no release can serve. -/
theorem witness_growWaits : decode ((loadedJob growWord).word 0#57) = .ok (.grow h0 true .v (.p 1#3) (.imm 9#17)) ∧
    (∀ n, nmGet (growing n).strands 1 = some (growStrand n) ∧ (growing n).job? (growStrand n) = some (loadedJob growWord)) ∧
    (∃ q sid f cl n p, growHead (growing 8) 0 = some (q, sid, f, cl, n, p)) ∧
    growHead (growing 1000000) 0 = none ∧ (∀ e ∈ (growing 1000000).strands, e.2.core = 0 → e.2.resident = true → ∀ x ∈ e.2.frags, x.2.moves = false) ∧
    (growQueue (growing 1000000) 0).getLast? = some (3, 1, 0, .v, 1000000, 0) :=
  ⟨decode_of (by decide +kernel), fun _ => ⟨rfl, rfl⟩, ⟨3, 1, 0, .v, 8, 0, by decide +kernel⟩, by decide +kernel, by decide +kernel, by decide +kernel⟩

def team2 : Team := { job := 1, num := 5, bidx := none, size := 2, ranks := [(0, .member 1), (1, .member 2)], phase := 1, arrived := [1], done := false, held := [], rels := [0] }
def slot5 (phase : Nat) (sent : Option Nat) : BarSlot := { job := 1, team := 5, bidx := none, phase := phase, arrived := 1, sent := sent, watch := some 100, limit := 100 }
/-- A team of two strands on core 0 and core `c`. -/
def twoCores (c phase : Nat) (sent : Option Nat) : State :=
  { resting (seated []) with strands := [(1, seated []), (2, { seated [] with core := c })], teams := [(7, team2)],
                             cores := [(0, { Core.reset with slots := [(4, slot5 phase sent)] }), (c, { Core.reset with slots := [(4, slot5 phase sent)] })],
                             dies := [(1, { Die.reset with comb := [(combKey 1 team2, { job := 1, team := 5, cnt := [(144, 1)] })] })] }

/-- O34: a full slot, a die whose slots have sent, a release, and watchdogs of the phase and of one that has completed. -/
theorem witness_barriers :
    (let s := twoCores 1 1 none
     s.teams.filter (fun e => e.2.job == 1 && e.2.num == 5) = [(7, team2)] ∧ slotOf s 0 1 team2 = some (4, slot5 1 none) ∧
     2 ≤ (teamCores s team2).length ∧ (slot5 1 none).phase = team2.phase ∧ (slot5 1 none).arrived = (membersOn s team2 0).length ∧ (slot5 1 none).sent ≠ some (slot5 1 none).arrived) ∧
    (∀ ph ∈ [1, 0], let s := twoCores 1 ph none
     nmGet (s.core 0).slots 4 = some (slot5 ph none) ∧
     s.teams.find? (fun e => e.2.job == 1 && e.2.num == 5 && e.2.bidx == none && e.2.rels.contains 0) = some (7, team2) ∧
     s.teams.find? (fun e => e.2.job == 1 && e.2.num == 5 && e.2.bidx == none) = some (7, team2) ∧
     (slot5 ph none).watch = some 100 ∧ (slot5 ph none).limit ≤ 100 ∧ (∀ m ∈ team2.members, ∀ x, nmGet s.strands m = some x → x.st ≠ .saved)) ∧
    (let s := twoCores 144 1 (some 1)
     2 ≤ (((teamCores s team2).map dieOf).eraseDups).length ∧ (∃ c ∈ teamCores s team2, dieOf c = 1) ∧
     (∀ c ∈ teamCores s team2, dieOf c = 1 → ∃ i x, slotOf s c 1 team2 = some (i, x) ∧ x.phase = team2.phase ∧ x.sent ≠ none) ∧
     dieSum s team2 1 ≠ ((nmGet s.pkgComb (combKey 1 team2)).bind fun x => nmGet x.cnt 1).getD 0) :=
  ⟨by decide +kernel,
   by intro ph h; simp only [List.mem_cons, List.not_mem_nil, or_false] at h
      rcases h with rfl | rfl <;>
        exact ⟨by decide +kernel, by decide +kernel, by decide +kernel, by decide, by decide,
          by intro m hm; simp only [show team2.members = [1, 2] by rfl, List.mem_cons, List.not_mem_nil, or_false] at hm
             rcases hm with rfl | rfl <;> (intro x hx; cases hx; decide)⟩,
   by decide +kernel, ⟨144, by decide +kernel, by decide⟩,
   by intro c hc; have : teamCores (twoCores 144 1 (some 1)) team2 = [0, 144] := by decide +kernel
      rw [this] at hc; simp only [List.mem_cons, List.not_mem_nil, or_false] at hc
      rcases hc with rfl | rfl
      · intro h; exact absurd h (by decide)
      · intro _; exact ⟨4, slot5 1 (some 1), by decide +kernel, by decide, by decide⟩,
   by decide +kernel⟩

def tinv1 (ag : Nat) : Tinv := { id := 0, sid := none, asid := 1, whole := true, lo := 0, hi := 0, left := [ag], swept := [], after := [] }
def screen1 : Screen := { die := 0, job := 1, pos := (0, 0, 0), sigs := [(0, 5#64)] }

/-- O35: an invalidation at a die and at the last core; a core without a due watchdog; a screen of one strand. -/
theorem witness_services :
    (let s := { State.reset with tinvs := [tinv1 4096] }
     s.tinvs.find? (fun t => t.left.contains (4096 + 0)) = some (tinv1 4096) ∧ (∀ m ∈ s.marks, m.tr = []) ∧ (∀ e ∈ s.cores, e.2.markQ = [])) ∧
    (let s := { State.reset with tinvs := [tinv1 1151] }
     let tv := { tinv1 1151 with after := ((tinv1 1151).after ++ tinvDropped s 1151 (tinv1 1151)).eraseDups, swept := ((tinv1 1151).swept ++ [1151]).eraseDups }
     s.tinvs.find? (fun t => t.left.contains 1151) = some (tinv1 1151) ∧ 1151 < 4096 ∧
     tinvBusy { s.updCore 1151 (·.sweep tv) with strands := s.strands } 1151 tv = false) ∧
    tinvAgents (resting (seated [])) ≠ [] ∧ (1151 < coreCount ∧ watchDue State.reset 1151 = false ∧ (State.reset.core 1151).laneTurn = 0) ∧
    (let s := { State.reset with screens := [(3, screen1)] }
     nmGet s.screens 3 = some screen1 ∧ (∀ g ∈ screen1.sigs, ∀ x ∈ [((0 : Nat), 5#64)], x.1 = g.1 → x.2 = g.2) ∧ screen1.sigs = [(0, 5#64)] ∧ 6#64 ≠ 5#64) :=
  ⟨by decide +kernel, by decide +kernel, by decide +kernel, by decide +kernel, by decide +kernel⟩

/-- O36: command blocks of no elements at offset 0 of the scratchpad, and a queue of the batch with room, then with an entry. -/
theorem witness_engines : (let st := seated []
    let u := uses [] (refsOf (.imm 0#17) false ++ refsOf (.imm 7#17) false)
    let s := scratch 20 1#8 (placed 0 st)
    Issues h0 u s st (view st) ∧ (view st).acts h0 ≠ [] ∧ st.acquiring = false ∧
    ∃ s1, endRegion (issued h0 u s st (view st)) 1 0 0#57 none = (s1, true) ∧ storesOut (s1.acts 1) 1 = true ∧
      (∀ g, (engQueue (s1.acts 1) 0 g).length < 32 ∧ cmdQueue (s1.acts 1) [0] (fun x => ((cmdParts x).map (·.1)) == some g) = []) ∧
      (∃ s2, acceptEng (s1.acts 1).tick.2 1 0 (.gth 0 7#32 false) (s1.acts 1).tick.1 = .inl s2) ∧
      (∃ s2, acceptEng (s1.acts 1).tick.2 1 0 (.sct 0 7#32 false) (s1.acts 1).tick.1 = .inl s2)) ∧
    (let st := seated []
     let u := uses [] (refsOf (.imm 0#17) false ++ refsOf (.imm 7#17) false)
     ∃ s1 s2, endRegion (issued h0 u (placed 0 st) st (view st)) 1 0 0#57 none = (s1, true) ∧
       acceptEng (s1.acts 1).tick.2 1 0 (.cpy 0 7#32 false) (s1.acts 1).tick.1 = .inl s2) ∧
    (let st := seated []
     let e : W32 × List W32 := (1#32, [5#32])
     let s := { placed 0 st with cores := [(0, { Core.reset with queues := [(1, { batch := some 1, ents := [e] })] })] }
     let uab := uses [] (refsOf (.imm 1#17) false ++ refsOf (.v 2#8) false)
     let ug := usesT (refsOf (.v 4#8) false) (refsOf (.imm 1#17) false)
     Issues h0 uab s st (view st) ∧ (s.hwq 0 1).batch = some 1 ∧ (s.hwq 0 1).ents.length < 16 ∧ queueWaiters (issued h0 uab s st (view st)) 0 1 false = [] ∧
     Issues h0 ug s st (view st) ∧ (s.hwq 0 1).ents = e :: [] ∧ queueWaiters (issued h0 ug s st (view st)) 0 1 true = []) :=
  ⟨⟨⟨rfl, rfl, rfl, rfl, rfl, rfl, rfl, rfl, rfl, rfl, rfl, rfl⟩, by decide +kernel, rfl, _, ended (by decide +kernel), by decide +kernel,
     fun g => by cases g <;> exact ⟨by decide +kernel, by decide +kernel⟩, ⟨_, inlOf (by decide +kernel)⟩, _, inlOf (by decide +kernel)⟩,
   ⟨_, _, ended (by decide +kernel), inlOf (by decide +kernel)⟩,
   ⟨rfl, rfl, rfl, rfl, rfl, rfl, rfl, rfl, rfl, rfl, rfl, rfl⟩, by decide +kernel, by decide +kernel, by decide +kernel,
   ⟨rfl, rfl, rfl, rfl, rfl, rfl, rfl, rfl, rfl, rfl, rfl, rfl⟩, by decide +kernel, by decide +kernel⟩

def cmd2 (status : BitVec 8) (started : Bool) : EngCmd :=
  { id := 6, by_ := { pc := 0#57, mask := 1#32, core := 0, slot := 0 }, sid := 1, frag := 0, job := 1, batch := 1, asid := 1, tag := 0#32, ui := false, xbr := some 32,
    src := 0, xty := none, rawq := none, lands := [{ n := 0, scr := true, bytes := [(0, .zero)] }, { n := 1, scr := true, bytes := [(64, .scr 3)] }], out := [], seen := [],
    started := started, status := status, wait := none, stop := 0 }
def copying (x : EngCmd) : State := { resting (seated []) with cores := [(0, { Core.reset with copyQ := [x] })] }

/-- O37. -/
theorem witness_engineSteps : (let s := resting (with0 (seated []) fun fr => { fr with st := .blocked, wait := .cmd (.cpy 0 7#32 false) 3 })
    (engQueue s 0 false).length < 32 ∧ cmdQueue s [0] (fun x => ((cmdParts x).map (·.1)) == some false) = (3, 1, 0, .cpy 0 7#32 false) :: [] ∧ storesOut s 1 = true ∧
    ∃ s1, acceptEng s 1 0 (.cpy 0 7#32 false) 3 = .inl s1) ∧
    (engQueue (copying (cmd2 0#8 false)) 0 false).find? (fun x => !x.started) = some (cmd2 0#8 false) ∧
    (let s := copying (cmd2 0#8 true)
     let x := cmd2 0#8 true
     engFind s 0 6 = some (false, x) ∧ omrkHolds s x.batch x.id = false ∧ x.lands.find? (·.n == 1) = some { n := 1, scr := true, bytes := [(64, .scr 3)] } ∧
     1 < x.lands.length ∧ x.lands.filter (·.n != 1) ≠ [] ∧
     (x.lands.any fun y => y.n < 1 && y.scr == true && y.bytes.any fun b => [((64 : Nat), SrcByte.scr 3)].any fun d => d.1 == b.1) = false ∧
     ∃ s1 bs, engBytes s .copy 0 x none [(64, .scr 3)] = .ok (s1, bs)) ∧
    (let x := { cmd2 0#8 true with lands := [], ui := true }
     engFind (copying x) 0 6 = some (false, x) ∧ omrkHolds (copying x) x.batch x.id = false ∧ allInM (copying x) x.out = true ∧ heldFull (copying x) x.sid = false) ∧
    engFind (copying (cmd2 0x42#8 true)) 0 6 = some (false, cmd2 0x42#8 true) ∧
    (let st := with0 (seated []) fun fr => { fr with st := .blocked, wait := .qget 1 5 8 }
     let s := { resting st with cores := [(0, { Core.reset with queues := [(1, { batch := some 1, ents := [(1#32, [5#32])] })] })] }
     (s.hwq 0 1).ents = (1#32, [5#32]) :: [] ∧ queueWaiters s 0 1 true = (8, 1, 0) :: [] ∧ nmGet s.strands 1 = some st ∧
     ∃ fr, nmGet st.frags 0 = some fr ∧ fr.wait = .qget 1 5 8) ∧
    (let st := with0 (seated []) fun fr => { fr with st := .blocked, wait := .qput 1 1#32 [5#32] 8 }
     let s := resting st
     queueWaiters s 0 1 true = [] ∧ (s.hwq 0 1).ents.length < 16 ∧ queueWaiters s 0 1 false = (8, 1, 0) :: [] ∧ nmGet s.strands 1 = some st ∧
     ∃ fr, nmGet st.frags 0 = some fr ∧ fr.wait = .qput 1 1#32 [5#32] 8) :=
  ⟨⟨by decide +kernel, by decide +kernel, by decide +kernel, _, inlOf (by decide +kernel)⟩, by decide +kernel,
   ⟨by decide +kernel, by decide +kernel, by decide +kernel, by decide +kernel, by decide +kernel, by decide +kernel, _, _, okOf (by decide +kernel)⟩,
   by decide +kernel, by decide +kernel, ⟨by decide +kernel, by decide +kernel, rfl, _, rfl, rfl⟩,
   by decide +kernel, by decide +kernel, by decide +kernel, rfl, _, rfl, rfl⟩

/-- What O38 asks of a machine for a command to take an entry. -/
def entryFree (u : Uses) (st : Strand) : Prop :=
  ∃ s1, endRegion (issued h0 u (placed 0 st) st (view st)) 1 0 0#57 none = (s1, true) ∧ storesOut s1 1 = true ∧
    (clusterCmds (s1.acts 1) 0).length < 32 ∧ cmdQueue (s1.acts 1) [0, 1, 2, 3] CmdReq.isMat = []

/-- O38: descriptors of zeros, and one whose address is 1. -/
theorem witness_matrix : (let st := seated [⟨.k, 8, 0, 1#64⟩, ⟨.k, 10, 0, 1#64⟩]
    let c := view st
    let mm := { uses (tilesOf false (.a 4#6)) (descRefs (.k 12#6) ++ descRefs (.k 14#6)) with tracked := true }
    let mc := { uses (tilesOf true (.a 4#6)) (descRefs (.k 12#6) ++ descRefs (.k 14#6) ++ covRefs (placed 0 st) .rho) with tracked := true }
    let uz := { uses (tilesOf true (.a 62#6)) [] with tracked := true }
    let ul := { uses (tilesOf false (.a 4#6)) (descRefs (.k 12#6)) with tracked := true }
    let us := uses [] (descRefs (.k 12#6) ++ tilesOf false (.a 4#6))
    let mm8 := { uses (tilesOf false (.a 4#6)) (descRefs (.k 8#6) ++ descRefs (.k 14#6)) with tracked := true }
    let mc8 := { uses (tilesOf true (.a 4#6)) (descRefs (.k 8#6) ++ descRefs (.k 14#6) ++ covRefs (placed 0 st) .rho) with tracked := true }
    let ul8 := { uses (tilesOf false (.a 4#6)) (descRefs (.k 8#6)) with tracked := true }
    let us8 := uses [] (descRefs (.k 8#6) ++ tilesOf false (.a 4#6))
    c.acts h0 ≠ [] ∧ c.acts first = [] ∧ st.acquiring = false ∧
    (Issues h0 mm (placed 0 st) st c ∧ entryFree mm st) ∧ (Issues h0 mc (placed 0 st) st c ∧ entryFree mc st) ∧ (Issues h0 uz (placed 0 st) st c ∧ entryFree uz st) ∧
    (Issues h0 ul (placed 0 st) st c ∧ entryFree ul st) ∧ (Issues h0 us (placed 0 st) st c ∧ entryFree us st) ∧
    descBad .f16 (c.desc (.k 12#6)) = false ∧ sparseBad (c.desc (.k 12#6)) = false ∧ descBad .m64 (c.desc (.k 12#6)) = false ∧
    Issues h0 mm8 (placed 0 st) st c ∧ Issues h0 mc8 (placed 0 st) st c ∧ Issues h0 ul8 (placed 0 st) st c ∧ Issues h0 us8 (placed 0 st) st c ∧
    descBad .f16 (c.desc (.k 8#6)) = true ∧ sparseBad (c.desc (.k 8#6)) = true ∧ descBad .m64 (c.desc (.k 8#6)) = true) :=
  ⟨by decide +kernel, by decide +kernel, rfl, ⟨issues_placed rfl rfl rfl rfl, _, ended (by decide +kernel), by decide +kernel, by decide +kernel, by decide +kernel⟩,
   ⟨issues_placed rfl rfl rfl rfl, _, ended (by decide +kernel), by decide +kernel, by decide +kernel, by decide +kernel⟩,
   ⟨issues_placed rfl rfl rfl rfl, _, ended (by decide +kernel), by decide +kernel, by decide +kernel, by decide +kernel⟩,
   ⟨issues_placed rfl rfl rfl rfl, _, ended (by decide +kernel), by decide +kernel, by decide +kernel, by decide +kernel⟩,
   ⟨issues_placed rfl rfl rfl rfl, _, ended (by decide +kernel), by decide +kernel, by decide +kernel, by decide +kernel⟩,
   by decide +kernel, by decide +kernel, by decide +kernel, issues_placed rfl rfl rfl rfl, issues_placed rfl rfl rfl rfl, issues_placed rfl rfl rfl rfl,
   issues_placed rfl rfl rfl rfl, by decide +kernel, by decide +kernel, by decide +kernel⟩

/-- O38: MWT with no command left, and AMOV of elements whose variances are 0. -/
theorem witness_matrixMoves : (let st := seated []
    let c := view st
    let get := fun (t : Nat) => amovGet c .m64 .rne false (opndIx (.a 4#6)) (c.amovBase (.imm 127#17) + t) t
    Issues h0 (uses [] []) (placed 0 st) st c ∧ strandCmds (issued h0 (uses [] []) (placed 0 st) st c) 1 = [] ∧ st.faults = [] ∧
    Issues h0 (usesT (tilesOf true (.a 4#6)) (refsOf (.m 1#6) false ++ refsOf (.imm 127#17) false)) (placed 0 st) st c ∧
    (∀ t ∈ c.acts h0, (amovPut c .m64 (.m 1#6) (opndIx (.a 4#6)) (c.amovBase (.imm 127#17) + t) t).2.2 = false) ∧
    Issues h0 (usesT (refsOf (.m 1#6) false) (tilesOf true (.a 4#6) ++ refsOf (.imm 127#17) false)) (placed 0 st) st c ∧
    ∀ t ∈ c.acts h0, (get t).bad = false) :=
  ⟨issues_placed rfl rfl rfl rfl, by decide +kernel, rfl, issues_placed rfl rfl rfl rfl, by decide +kernel, issues_placed rfl rfl rfl rfl, by decide +kernel⟩

def pass (a : Nat) (run : Bool) (row : Nat) : MatCmd :=
  { id := 6, by_ := { pc := 0#57, mask := 1#32, core := 0, slot := 0 }, sid := 1, frag := 0, core := 0, job := 1, asid := 1,
    req := .mma false .f32 4 (w64n a, 0#64) (0#64, 0#64), since := 0, prio := 0, run := run, row := row, susp := none, fl := flNone, mfl := false,
    pend := none, opB := List.replicate 512 0#64, put := [], out := [], seen := [] }
def tileCmd (a : Nat) (run : Bool) : MatCmd := { pass 0 run 0 with req := .ald .f32 false 4 (w64n a, 0#64) }
def withMat (m : MatCmd) : State := { resting (seated []) with dies := [(0, { Die.reset with mat := [m] })] }
/-- A machine whose first pages are not valid. -/
def withMatUnpaged (m : MatCmd) : State := { withMat m with mem := spPut (withMat m).mem 0x10002000 0x1E#8 }

def isRow (n : MatNext) : Bool := match n with | .row _ _ _ => true | _ => false
def rowOf : MatNext → State × MatCmd × List Write
  | .row s m ws => (s, m, ws)
  | _ => (State.reset, pass 0 false 0, [])
def deadOf : MatNext → Option (BitVec 8 × List W64)
  | .dead c more => some (c, more)
  | _ => none
theorem dead_of {n : MatNext} {c : BitVec 8} (h : ((deadOf n).map (·.1)) = some c) : n = .dead c (((deadOf n).map (·.2)).getD []) := by
  cases n <;> simp_all [deadOf]
theorem row_of {n : MatNext} (h : isRow n = true) : n = .row (rowOf n).1 (rowOf n).2.1 (rowOf n).2.2 := by cases n <;> first | rfl | cases h

/-- O39: a waiting AZRO; passes and tile commands that start, commit row 0, are done, meet a page that is not valid, misread a
moment operand, and leave the address space. -/
theorem witness_matrixSteps : (let s := resting (with0 (seated []) fun fr => { fr with st := .blocked, wait := .cmd (.azro false 4) 3 })
    (clusterCmds s 0).length < 32 ∧ cmdQueue s [0, 1, 2, 3] CmdReq.isMat = (3, 1, 0, .azro false 4) :: [] ∧ mayTake s 1 (.azro false 4) = true) ∧
    matPick (withMat (pass 0 false 0)) 0 true = some (pass 0 false 0) ∧ matPick (withMat (tileCmd 0 false)) 0 false = some (tileCmd 0 false) ∧
    (matRunning (withMat (pass 0 true 0)) 0 true = some (pass 0 true 0, seated []) ∧
      ∃ s1 m1 ws, matNext (withMat (pass 0 true 0)) (seated []) (pass 0 true 0) = .row s1 m1 ws) ∧
    (matRunning (withMat (pass 0 true 64)) 0 true = some (pass 0 true 64, seated []) ∧
      matNext (withMat (pass 0 true 64)) (seated []) (pass 0 true 64) = .done (withMat (pass 0 true 64)) (pass 0 true 64) []) ∧
    (matRunning (withMatUnpaged (pass 0 true 0)) 0 true = some (pass 0 true 0, seated []) ∧
      matNext (withMatUnpaged (pass 0 true 0)) (seated []) (pass 0 true 0) = .page 0) ∧
    (let m := { pass 0 true 0 with req := .mmam 0#32 false 4 (4#64, 0#64) (0#64, 0#64) }
     matRunning (withMat m) 0 true = some (m, seated []) ∧ matNext (withMat m) (seated []) m = .err 0x41#8) ∧
    (matRunning (withMat (pass (2 ^ 57) true 0)) 0 true = some (pass (2 ^ 57) true 0, seated []) ∧
      ∃ more, matNext (withMat (pass (2 ^ 57) true 0)) (seated []) (pass (2 ^ 57) true 0) = .dead 0x46#8 more) ∧
    (let m := { tileCmd 0 true with req := .azro false 4 }
     matRunning (withMat m) 0 true = none ∧ matRunning (withMat m) 0 false = some (m, seated []) ∧
       ∃ s1 m1 ws, matNext (withMat m) (seated []) m = .done s1 m1 ws) ∧
    (let m := { tileCmd 0 true with req := .ald .m64 false 4 (4#64, 0#64) }
     matRunning (withMat m) 0 true = none ∧ matRunning (withMat m) 0 false = some (m, seated []) ∧
     matNext (withMat m) (seated []) m = .err 0x41#8) ∧
    (let m := { tileCmd 0 true with req := .ast .f32 .rne false false 4 (w64n 0, 0#64) 0#64 }
     matRunning (withMat m) 0 true = none ∧ matRunning (withMat m) 0 false = some (m, seated []) ∧
       ∃ s1 m1 ws, matNext (withMat m) (seated []) m = .row s1 m1 ws) ∧
    (matRunning (withMatUnpaged (tileCmd 0 true)) 0 true = none ∧ matRunning (withMatUnpaged (tileCmd 0 true)) 0 false = some (tileCmd 0 true, seated []) ∧
      matNext (withMatUnpaged (tileCmd 0 true)) (seated []) (tileCmd 0 true) = .page 0) :=
  ⟨⟨by decide +kernel, by decide +kernel, by decide +kernel⟩, by decide +kernel, by decide +kernel, ⟨by decide +kernel, _, _, _, row_of (by decide +kernel)⟩,
   ⟨by decide +kernel, rfl⟩, ⟨by decide +kernel, by decide +kernel⟩, ⟨by decide +kernel, by decide +kernel⟩, ⟨by decide +kernel, _, dead_of (by decide +kernel)⟩,
   ⟨by decide +kernel, by decide +kernel, _, _, _, rfl⟩, ⟨by decide +kernel, by decide +kernel, by decide +kernel⟩,
   ⟨by decide +kernel, by decide +kernel, _, _, _, row_of (by decide +kernel)⟩, by decide +kernel, by decide +kernel, by decide +kernel⟩

/-- O40. -/
theorem witness_rows : (pass 0 true 63).req.isPass = true ∧ (64 : Nat) ≤ (pass 0 true 64).row ∧
    ∃ s1 m1 ws, matNext (withMat (pass 0 true 63)) (seated []) (pass 0 true 63) = .row s1 m1 ws :=
  ⟨rfl, by decide, _, _, _, row_of (by decide +kernel)⟩

theorem noneOf {α β : Type} {p : α × Option β} (h : p.2.isNone = true) : p = (p.1, none) := by
  obtain ⟨a, b⟩ := p
  cases b <;> first | rfl | cases h

def isMarkReq : CmdReq → Bool := fun r => match r with | .mark _ _ _ _ | .omrk => true | _ => false

/-- O41: an empty mark queue that nothing waits for. -/
theorem witness_markers : (let st := seated []
    (view st).acts h0 ≠ [] ∧ (view st).acts first = [] ∧ st.acquiring = false ∧ Issues h0 (uses [] (refsOf (.imm 64#17) false)) (placed 0 st) st (view st) ∧
    Issues h0 (uses [] []) (placed 0 st) st (view st) ∧
    (∃ s1, endRegion (issued h0 (uses [] (refsOf (.imm 64#17) false)) (placed 0 st) st (view st)) 1 0 0#57 none = (s1, true) ∧
      ((s1.acts 1).core 0).markQ.length < 32 ∧ cmdQueue (s1.acts 1) [0] isMarkReq = []) ∧
    ∃ s1, endRegion (issued h0 (uses [] []) (placed 0 st) st (view st)) 1 0 0#57 none = (s1, true) ∧
      ((s1.acts 1).core 0).markQ.length < 32 ∧ cmdQueue (s1.acts 1) [0] isMarkReq = []) :=
  ⟨by decide +kernel, by decide +kernel, rfl, issues_placed rfl rfl rfl rfl, issues_placed rfl rfl rfl rfl, ⟨_, ended (by decide +kernel), by decide +kernel, by decide +kernel⟩,
   _, ended (by decide +kernel), by decide +kernel, by decide +kernel⟩

def class1 : WClass := { job := 1, cls := 1, sc := .module, regs := [], close := [], again := false }

/-- O42: class 1 open and not; 64 classes of other jobs; and a job with another module. -/
theorem witness_classes : (let st := seated []
    let u := usesT (refsOf (.v 4#8) false) []
    let so := { placed 0 st with classes := [class1] }
    let sf := { placed 0 st with classes := List.replicate 64 { class1 with job := 2 } }
    (view st).acts h0 ≠ [] ∧ (Issues h0 u so st (view st) ∧ (so.classes.any fun x => x.job == st.job && x.cls == (1#4).toNat) = true) ∧
    (Issues h0 u (placed 0 st) st (view st) ∧ ((placed 0 st).classes.any fun x => x.job == st.job && x.cls == (1#4).toNat) = false ∧
      (placed 0 st).classes.length < 64) ∧
    (Issues h0 u sf st (view st) ∧ (sf.classes.any fun x => x.job == st.job && x.cls == (1#4).toNat) = false ∧ 64 ≤ sf.classes.length) ∧
    ((((({ sf with jobs := [(1, { loadedJob 0 with mset := [0, 5] })] } : State).job? st).map (·.mset)).getD []).any (· != sf.module.toNat)) = true) :=
  ⟨by decide +kernel, ⟨⟨rfl, rfl, rfl, rfl, rfl, rfl, rfl, rfl, rfl, rfl, rfl, rfl⟩, by decide +kernel⟩,
   ⟨issues_placed rfl rfl rfl rfl, by decide +kernel, by decide +kernel⟩,
   ⟨⟨rfl, rfl, rfl, rfl, rfl, rfl, rfl, rfl, rfl, rfl, rfl, rfl⟩, by decide +kernel, by decide +kernel⟩, by decide +kernel⟩

/-- O43: a word of this module on a RELEASE page and on a STRONG page. -/
theorem witness_fabric (ord : Byte) (ho : ord = 0x1F#8 ∨ ord = 0x0F#8) : (let st := reaching
    let u := uses [] (refsOf (.k 1#6) false ++ refsOf (.imm 1#17) false)
    let ut := usesT (refsOf (.v 4#8) false) (refsOf (.k 1#6) false ++ refsOf (.imm 1#17) false)
    (view st).acts h0 ≠ [] ∧ Issues h0 u (paged ord st) st (view st) ∧ Issues h0 ut (paged ord st) st (view st) ∧
    (∃ s1 p s2, sigPage (issued h0 u (paged ord st) st (view st)) (view st) (st.r.uni64 (.k 1#6)) true = .inl (s1, p) ∧ p.home = 0 ∧
      endRegion s1 1 0 0#57 none = (s2, true) ∧ st.misplaced [p] = false ∧ sigLines s2 0 p = [] ∧
      ∃ y, nmGet s2.strands 1 = some y ∧ y.sigHeld ((view st).leader.getD 0) p = false) ∧
    (∃ s1 p, sigPage (issued h0 ut (paged ord st) st (view st)) (view st) (st.r.uni64 (.k 1#6)) false = .inl (s1, p) ∧
      st.acquiring = false ∧ sigPending s1 1 p.keys = false ∧ st.overlaps ((view st).leader.getD 0) p.keys = false) ∧
    ∃ s2, endRegion (issued h0 u (paged ord st) st (view st)) 1 0 0#57 none = (s2, true)) := by
  rcases ho with rfl | rfl <;>
  exact ⟨by decide +kernel, issues_paged (issues_placed rfl rfl rfl rfl), issues_paged (issues_placed rfl rfl rfl rfl),
    ⟨_, _, _, inlPair (by decide +kernel), by decide +kernel, ended (by decide +kernel), by decide +kernel, by decide +kernel, _, someOf (by decide +kernel), by decide +kernel⟩,
    ⟨_, _, inlPair (by decide +kernel), rfl, by decide +kernel, by decide +kernel⟩, _, ended (by decide +kernel)⟩

def nodeJob : Job := { loadedJob 0 with nw := 0x100000, hi := 1 }
def asking (r : CmdReq) (m : Option MarkCmd) : MarkReq := { id := 4, sid := 1, frag := 0, req := r, blk := [], cmd := m, rel := none }
def blocked1 : Strand := with0 (seated []) fun fr => { fr with st := .blocked, wait := .accept }
def marking (st : Strand) (q : MarkReq) : State :=
  { resting st with jobs := [(1, nodeJob)], classes := [class1], cores := [(0, { Core.reset with markQ := [q] })] }
def marked (mn : Nat) (blk : List Byte) (todo : List Nat) : MarkCmd :=
  { id := 7, core := 0, job := 1, batch := 1, sid := 1, asid := 1, cls := some 1, mn := mn, sub := 0, blk := blk, tr := [], todo := todo, acc := [], moves := [] }

theorem midOf {α β γ δ : Type} {p : α × β × (γ ⊕ δ)} (h : p.2.2.isLeft = true) : p = (p.1, p.2.1, .inl (p.2.2.getLeft h)) := by
  obtain ⟨a, b, c⟩ := p
  cases c <;> first | rfl | cases h

/-- O44: the checks of an MKC and an OMRK; commands whose waits are over, and one that a buffered sector holds back. -/
theorem witness_markQueue :
    (∀ r ∈ [CmdReq.mark 0x3C2 0 1 0, .omrk], let s0 := pruneMarkers (markFill (marking blocked1 (asking r none)) 0)
     (s0.core 0).markQ = asking r none :: [] ∧ nmGet s0.strands 1 = some blocked1 ∧ (s0.pfaults.any fun e => e.2.who == .mark 0 4) = false) ∧
    (let s0 := pruneMarkers (markFill (marking blocked1 (asking (.mark 0x3C2 0 1 0) none)) 0)
     ∃ s1 b m, markCheck s0 0 blocked1 (asking (.mark 0x3C2 0 1 0) none) 0x3C2 0 1 0 = (s1, b, .inl m)) ∧
    (let m := marked 0x3C2 (List.replicate 16 0#8) [0]
     let q := asking (.mark 0x3C2 0 1 0) (some m)
     let s0 := pruneMarkers (markFill (marking blocked1 q) 0)
     (s0.core 0).markQ = q :: [] ∧ nmGet s0.strands 1 = some blocked1 ∧ (s0.pfaults.any fun e => e.2.who == .mark 0 4) = false ∧
       (markWaits s0 1 blocked1 (m.mn == 0x3CC) q.rel).2 = true) ∧
    (let m := marked 0x3C2 (List.replicate 16 0#8) [0]
     let q := asking (.mark 0x3C2 0 1 0) (some m)
     let st := { blocked1 with rsb := [entry 0 1] }
     let s0 := pruneMarkers (markFill (marking st q) 0)
     (s0.core 0).markQ = q :: [] ∧ nmGet s0.strands 1 = some st ∧ (s0.pfaults.any fun e => e.2.who == .mark 0 4) = false ∧
       (markWaits s0 1 st (m.mn == 0x3CC) q.rel).2 = false) ∧
    (let q := asking .omrk (some { marked opOmrk [] [] with cls := none })
     let s0 := pruneMarkers (markFill (marking blocked1 q) 0)
     (s0.core 0).markQ = q :: [] ∧ nmGet s0.strands 1 = some blocked1 ∧ (markWaits s0 1 blocked1 false q.rel).2 = true) :=
  ⟨by intro r h; simp only [List.mem_cons, List.not_mem_nil, or_false] at h; rcases h with rfl | rfl <;> decide +kernel,
   ⟨_, _, _, midOf (by decide +kernel)⟩, by decide +kernel, by decide +kernel, by decide +kernel⟩

def msg : WaveMsg := { job := 1, cls := 1, wave := 7, target := 0, source := 0, etype := 0, weight := 0#16, pos := 0, spawn := 0, hop := 1, val := [] }
def waving (m : MarkCmd) : State :=
  { resting (seated []) with jobs := [(1, nodeJob)], classes := [class1], marks := [m], msgs := [{ vat := 0, m := msg }] }
def free1 : MarkCmd := marked 0x3C3 (List.replicate 64 0#8) []
def stepped1 : MarkCmd := marked 0x3C3 (List.replicate 4 0#8 ++ [4#8] ++ List.replicate 59 0#8) []

/-- O44: a Vat's command and its messages; a step close; VRED of no element, VCMD of no bank; and a Vat that holds nothing. -/
theorem witness_vats :
    (let m := marked 0x3C2 (List.replicate 16 0#8) [0]
     let s := waving m
     s.marks.find? (fun m => m.id == 7) = some m ∧ nmGet s.jobs 1 = some nodeJob ∧ vatMay s m 0 = true ∧ (vatAct s nodeJob m 0).1.gone m.job = false) ∧
    (∀ e ∈ [(free1, false), (stepped1, true)], let s := waving e.1
     (s.msgs.filter (·.vat == 0))[0]? = some { vat := 0, m := msg } ∧ s.marks.find? (fun c => c.id == msg.wave && c.job == msg.job) = some e.1 ∧
     nmGet s.jobs msg.job = some nodeJob ∧ e.1.todo.contains 0 = false ∧ (s.vat 0).sleep = false ∧ (mkpOf e.1.blk).stepped = e.2 ∧
     (s.classes.any fun k => k.job == msg.job && k.cls == msg.cls && k.close.contains 0) = false) ∧
    (let k := { class1 with close := [0, 511] }
     let s := { waving free1 with classes := [k] }
     s.classes.find? (fun k => k.job == 1 && k.cls == 1 && k.close.contains 511) = some k ∧ nmGet s.jobs 1 = some nodeJob ∧ (s.vat 511).sleep = false ∧
     ((s.vat 511).arr.filter fun m => m.job == 1 && m.cls == 1) = []) ∧
    (∀ mn ∈ [0x3CC, 0x3CD], let m := marked mn (List.replicate 96 0#8) [5]
     let s := { waving m with mem := [], strands := [] }
     s.marks.find? (fun x => x.mn == mn && vatMay s x 5) = some m ∧ s.marks.find? (fun x => x.id == 7 && x.mn == mn && vatMay s x 5) = some m ∧
       m.rel = none ∧ (vredAll s m).1.gone m.job = false ∧ (vcmdAll s m).gone m.job = false) ∧
    (∀ n ∈ [0, 2], let m := { marked 0x3CC (List.replicate 96 0#8) [5] with rel := some (n, flNone) }
     let s := { waving m with mem := [], strands := [], dies := [(0, { Die.reset with p := [onWay] })] }
     s.marks.find? (fun x => x.id == 7 && x.mn == 0x3CC && vatMay s x 5) = some m ∧ vredFree s m n = decide (n = 0) ∧
       (markWrite s m (blkN m.blk 16 8) (leBytes 8 0)).gone m.job = false) ∧
    vatBusy State.reset 511 = false :=
  ⟨by decide +kernel,
   by intro e he; simp only [List.mem_cons, List.not_mem_nil, or_false] at he
      rcases he with rfl | rfl <;> exact ⟨by decide +kernel, by decide +kernel, by decide +kernel, by decide +kernel, by decide +kernel, by decide +kernel, by decide +kernel⟩,
   ⟨by decide +kernel, by decide +kernel, by decide +kernel, by decide +kernel⟩,
   by intro mn h; simp only [List.mem_cons, List.not_mem_nil, or_false] at h
      rcases h with rfl | rfl <;> exact ⟨by decide +kernel, by decide +kernel, rfl, by decide +kernel, by decide +kernel⟩,
   by decide +kernel,
   by decide +kernel⟩

def packet (src : Nat) (b : PktKind) : Pkt :=
  { src := src, dst := 0, num := 3, seq := 0, core := 0, jobs := [1], sid := 1, pc := 0#57, mask := 1#32, slot := 0, body := b }
def carrying (k : Pkt) (acc : NMap AccWin) : State :=
  { State.reset with fab := { Fabric.reset with pkts := [k] }, host := { Hostside.reset with access := acc } }
/-- Every plane's link to module 5 has failed. -/
def cutOff : State := { State.reset with fab := { Fabric.reset with failed := (List.range 16).map fun p => (p, downLink 5) } }

/-- O45: packets of module 1 that its window admits and that no window admits, and a local signal; a link at 64 retries; a module
that is reached and one that is not; the last port of the last switch of the last plane; the token with and without a packet. -/
theorem witness_links :
    (∀ e ∈ [(packet 1 (.line 0 [(127, 1#8)] false), [(accKey (unitIngress 0) (masterPeer 1) 0, ({ base := 0, len := 128, rd := true, wr := true } : AccWin))], true),
            (packet 1 (.csig 64 .add 1#64), [], false), (packet 0 (.csig 64 .set 1#64), [], true)],
      let s := carrying e.1 e.2.1
      s.fab.pkts.find? (fun k => k.src == e.1.src && k.dst == 0) = some e.1 ∧ sigReady s e.1 = true ∧ s.reaches e.1.src 0 = true ∧ e.1.admitted s = e.2.2) ∧
    (let s := { State.reset with fab := { Fabric.reset with retries := [(8191 * 16 + 15 % 16, 64)] } }
     8191 < 8192 ∧ 64 ≤ (nmGet s.fab.retries (8191 * 16 + 15 % 16)).getD 0 ∧ s.fab.failed.contains (15 % 16, 8191) = false) ∧
    (State.reset.reaches State.reset.module.toNat 5 = true ∧ cutOff.reaches cutOff.module.toNat 5 = false) ∧
    (15 < 16 ∧ 95 < 96 ∧ 127 < 128 ∧ State.reset.fab.blocked.contains (15, 95, 127) = false) ∧
    (let s := { State.reset with fab := { Fabric.reset with blocked := [(15, 95, 127)], token := [(15, 95)] } }
     State.reset.fab.blocked.find? (fun b => b.1 == 15 && b.2.1 == 95) = none ∧
     s.fab.blocked.find? (fun b => b.1 == 15 && b.2.1 == (nmGet s.fab.token 15).getD 0) = some (15, 95, 127)) :=
  ⟨by intro e h; simp only [List.mem_cons, List.not_mem_nil, or_false] at h
      rcases h with rfl | rfl | rfl <;> exact ⟨by decide +kernel, by decide +kernel, by decide +kernel, by decide +kernel⟩,
   by decide +kernel, by decide +kernel, by decide +kernel, by decide +kernel⟩

def quiet1 (sc : Scope) : State :=
  { resting (with0 (seated []) fun fr => { fr with st := .blocked, wait := .wqt 1 false sc 0 }) with classes := [{ class1 with sc := sc }] }
def told0 : SweepSum := { s := 1, c := 1, l := 0, a := false, p := false }

/-- O45: sweeps of a class of the module and of the fabric, and a message at a port each way. -/
theorem witness_sweeps :
    sweepDue (quiet1 .module) 1 1 false (moduleSum (quiet1 .module) (pairKeyOf 1 1) false) = true ∧
    (let s := quiet1 .fabric
     let t0 := moduleSum s (pairKeyOf 1 1) true
     (∀ b ∈ [false, true], (b && peerOpens s 1 1) = false) ∧
     sweepDue s 1 1 true { told0 with s := (t0.s + told0.s) % 2 ^ 64, c := (t0.c + told0.c) % 2 ^ 64, l := t0.l + told0.l,
                                      a := t0.a || told0.a || s.classes.any (fun x => x.job == 1 && x.cls == 1 && x.again), p := t0.p || told0.p } = true ∧ jobPlane s 1 = some 0) ∧
    (let s := { resting (seated []) with jobs := [(1, { nodeJob with mset := [0, 5] })] }
     (true && peerOpens s 1 15) = true) ∧
    (let s := { State.reset with fab := { Fabric.reset with out := [{ msg with target := 5 * 2 ^ 25 }] } }
     s.fab.out[0]? = some { msg with target := 5 * 2 ^ 25 } ∧ s.pathOk (31 % 16) s.module.toNat (bitsOf (5 * 2 ^ 25) 36 25) = true) ∧
    (let s := quiet1 .fabric
     (∃ x ∈ s.classes, x.job = msg.job ∧ x.cls = msg.cls ∧ x.sc = .fabric) ∧ bitsOf msg.target 36 25 = s.module.toNat ∧
       s.linkOk (31 % 16) (downLink s.module.toNat) = true) :=
  ⟨by decide +kernel, by decide +kernel, by decide +kernel, by decide +kernel, by decide +kernel⟩

theorem inl2Of {α β γ : Type} {p : α × (β ⊕ γ)} (h : p.2.isLeft = true) : p = (p.1, .inl (p.2.getLeft h)) := by
  obtain ⟨a, b⟩ := p
  cases b <;> first | rfl | cases h

def sigWait : Strand := with0 (seated []) fun fr => { fr with st := .blocked, wait := .swait .ge 64 0#64 0 }
def sigGot : SigRead → Option (W64 ⊕ WcbLine)
  | .val x => some (.inl x)
  | .send l => some (.inr l)
  | _ => none
def sigAsks : SigRead → Bool | .ask => true | _ => false
def sigWaits : SigRead → Bool | .wait => true | _ => false
theorem val_of {r : SigRead} {x : W64} (h : sigGot r = some (.inl x)) : r = .val x := by cases r <;> simp_all [sigGot]
theorem send_of {r : SigRead} {l : WcbLine} (h : sigGot r = some (.inr l)) : r = .send l := by cases r <;> simp_all [sigGot]
theorem ask_of {r : SigRead} (h : sigAsks r = true) : r = .ask := by cases r <;> simp_all [sigAsks]
theorem wait_of {r : SigRead} (h : sigWaits r = true) : r = .wait := by cases r <;> simp_all [sigWaits]
def onPage (b : Byte) : State := { paged b sigWait with cur := none }
/-- The first pages lie in module 1. -/
def farPage : State := { onPage 0x1F#8 with mem := spPut (spPut (onPage 0x1F#8).mem 0x10002001 2#8) 0x10002006 0x10#8 }

def word64 (home ord : Nat) : Piece := { va := 64, pa := 64, home := home, ord := ord, len := 8 }

/-- O46: SWAIT's word 0 on a RELEASE page and on a STRONG page, with a condition that holds and one that does not; behind a write of
another strand on its way; under a stale entry that holds it elsewhere; and a word of another module, which is asked, with numbers free
and none, once a line that holds it has been sent. -/
theorem witness_swait : nmGet sigWait.frags 0 = some { frag0 with st := .blocked, wait := .swait .ge 64 0#64 0 } ∧
    (∀ b ∈ [0x1F#8, 0x0F#8], nmGet (onPage b).strands 1 = some sigWait ∧ readOut (onPage b) 1 0 = false ∧ sigWait.misplaced [word64 0 (if b = 0x1F#8 then 1 else 0)] = false ∧
      sigWord (onPage b) sigWait 64 = some (word64 0 (if b = 0x1F#8 then 1 else 0))) ∧
    sigRead (onPage 0x1F#8) sigWait (word64 0 1) = .val 0#64 ∧ sigHolds .ne 0#64 0#64 = false ∧ sigHolds .ge 0#64 0#64 = true ∧
    (∃ s1 y, endRegion (onPage 0x0F#8) 1 0 0#57 none = (s1, true) ∧ nmGet s1.strands 1 = some y ∧ sigRead s1 y (word64 0 0) = .val 0#64) ∧
    (let st := { sigWait with rsb := [{ entry 0 1 with ready := true, pa := 64 }] }
     sigRead (onPage 0x1F#8) st (word64 0 1) = .wait) ∧
    ({ sigWait with rsb := [{ entry 0 1 with pa := 2 ^ 21 + 64, stale := true }] } : Strand).misplaced [word64 0 1] = true ∧
    readOut farPage 1 0 = false ∧ sigWord farPage sigWait 64 = some (word64 2 1) ∧ sigRead farPage sigWait (word64 2 1) = .ask ∧ pairFull farPage 2 = false ∧ ottUsed farPage 0 < 256 ∧
    (let s := { farPage with fab := { Fabric.reset with pkts := List.replicate 4096 { packet farPage.module.toNat (.read 0 9 9) with dst := 1 } } }
     pairFull s 2 = true ∧ sigRead s sigWait (word64 2 1) = .ask ∧ ottUsed s 0 < 256) ∧
    (let l := { line with pa := 0, bytes := [(64, 1#8)] }
     sigRead { farPage with cores := [(0, { Core.reset with wcb := [l] })] } sigWait (word64 2 1) = .send l) :=
  ⟨by decide +kernel, by decide +kernel, val_of (by decide +kernel), by decide, by decide, ⟨_, _, ended (by decide +kernel), someOf (by decide +kernel), val_of (by decide +kernel)⟩,
   wait_of (by decide +kernel), by decide +kernel, by decide +kernel, by decide +kernel, ask_of (by decide +kernel), by decide +kernel, by decide +kernel,
   ⟨by decide +kernel, ask_of (by decide +kernel), by decide +kernel⟩, send_of (by decide +kernel)⟩

/-- A COLL block: word 0, COUNT, no barrier record, source, destination. -/
def block (w0 n src dst : Nat) : List Byte :=
  leBytes 8 w0 ++ leBytes 4 n ++ leBytes 4 0xFFFFFFFF ++ leBytes 8 src ++ leBytes 8 dst ++ List.replicate 32 0#8
def coll (blk : List Byte) (rprt : Bool) (phase : Nat) : CollCmd :=
  { id := 9, by_ := { pc := 0#57, mask := 1#32, core := 0, slot := 0 }, sid := 1, frag := 0, core := 0, job := 1, batch := 1, asid := 1, rprt := rprt, off := 0,
    blk := blk, ids := [0, 5], tag := 0#32, ui := false, xbr := none, phase := phase, fl := flNone, short := false }
def collecting (c : CollCmd) : State := { resting (seated []) with dies := [(0, { Die.reset with coll := [c] })] }
/-- A sum of one .n32 element of each of two participants, of which this module is rank 0. -/
def sum2 : CollCmd := coll (block (2 ^ 36 + 0x2000) 1 0 64) false 0
def rprt2 : CollCmd := coll (block (2 ^ 36) 0 0 64 ++ List.replicate 64 0#8) true 1

/-- O46: acceptance of a barrier of one participant; digests that agree and differ; a sum, a Couch run of no items, and ends. -/
theorem witness_collectives :
    (let st := with0 (seated []) fun fr => { fr with st := .blocked, wait := .cmd (.coll 0 0#32 false) 3 }
     let s := { resting st with batches := [(1, { loadedBatch with scr := ((block 0x402000 0 0 64).zipIdx).foldl (fun m x => spPut m x.2 x.1) [] })] }
     (s.die 0).coll.length < 32 ∧ cmdQueue s ((List.range 144).map (· + 144 * 0)) CmdReq.isColl = (3, 1, 0, .coll 0 0#32 false) :: [] ∧
     nmGet s.strands 1 = some st ∧ (s.pfaults.any fun e => e.2.who == .coll 0 3) = false ∧ ∃ s1, acceptColl s 0 1 0 st (.coll 0 0#32 false) 3 = (s1, none)) ∧
    (let s := collecting sum2
     collNow s 1 0 = some (0, sum2) ∧ sum2.covered [1] = true ∧ sum2.arrived s 0 = true ∧ omrkHolds s sum2.batch sum2.id = false ∧
     (∀ o ∈ [(1, sum2.digest)], o.1 < blkPart sum2.blk → o.1 ≠ blkRank sum2.blk → o.2 = sum2.digest) ∧
     (∃ o ∈ [(1, [0])], o.1 < blkPart sum2.blk ∧ o.1 ≠ blkRank sum2.blk ∧ o.2 ≠ sum2.digest)) ∧
    (let c := { sum2 with phase := 1 }
     let s := collecting c
     let src := fun (r : Nat) => (([(1, [1#8, 0#8, 0#8, 0#8])].find? fun o => o.1 == r).map (·.2)).getD []
     collNow s 1 0 = some (0, c) ∧ (∀ r < blkPart c.blk, r = blkRank c.blk ∨ collReads c.blk r = false ∨ (src r).length = collSrcLen c.blk) ∧
     (s.pfaults.any fun e => e.2.who == .coll 0 c.id) = false ∧
     ∃ s1 mine s2, (if collReads c.blk (blkRank c.blk) then collRead s 0 c (blkN c.blk 16 8) (collSrcLen c.blk) else (s, .inl [])) = (s1, .inl mine) ∧
       collWrites s1 0 c [(blkN c.blk 24 8, (collResult c.blk ((List.range (blkPart c.blk)).map fun r => if r = blkRank c.blk then mine else src r)).1)] = (s2, none)) ∧
    (let s := collecting rprt2
     collNow s 1 0 = some (0, rprt2) ∧ rprt2.covered ([((1, 0, []) : Nat × Nat × List Byte)].map (·.1)) = true ∧
     (s.pfaults.any fun e => e.2.who == .coll 0 rprt2.id) = false ∧
     ∃ s1 mine, collRead s 0 rprt2 (blkN rprt2.blk 16 8) (rprtItems rprt2.blk * rprtStride rprt2.blk) = (s1, .inl mine) ∧
       mine = [] ∧ ∃ s2, collWrites s1 0 rprt2 [(blkN rprt2.blk 24 8, [])] = (s2, none)) ∧
    (let c := { sum2 with phase := 2 }
     collNow (collecting c) 1 0 = some (0, c) ∧ c.covered [1] = true ∧ c.ui = false) :=
  ⟨⟨by decide +kernel, by decide +kernel, by decide +kernel, by decide +kernel, _, noneOf (by decide +kernel)⟩,
   ⟨by decide +kernel, by decide +kernel, by decide +kernel, by decide +kernel, by decide +kernel, by decide +kernel⟩,
   ⟨by decide +kernel, by decide +kernel, by decide +kernel, _, _, _, inl2Of (by decide +kernel), noneOf (by decide +kernel)⟩,
   ⟨by decide +kernel, by decide +kernel, by decide +kernel, _, _, inl2Of (by decide +kernel), by decide +kernel, _, noneOf (by decide +kernel)⟩,
   by decide +kernel, by decide +kernel, rfl⟩

def okRes : XRes × State → Option (Tlb × State)
  | (.ok e, s) => some (e, s)
  | _ => none
theorem okX {p : XRes × State} (h : (okRes p).isSome = true) : p = (.ok ((okRes p).get h).1, ((okRes p).get h).2) := by
  obtain ⟨a, b⟩ := p
  cases a <;> first | rfl | cases h

def trapped (w : Wait) : Strand := with0 (seated []) fun fr => { fr with st := .stopped, wait := w }
def fault0 : PFault := { asid := 1, va := 64, pc := 0, mask := 1#32, who := .region 1 0 }
/-- A window that admits a master everywhere, at the controller of one address. -/
def openAt (pa master : Nat) : NMap AccWin := [(accKey (Config.regionOf pa) master 0, { base := 0, len := 2 ^ 52, rd := true, wr := true })]

theorem open_admits {s : State} {pa master len : Nat} {wr : Bool} (e : s.host.access = openAt pa master) (h : pa + len ≤ 2 ^ 52) :
    admitted s (Config.regionOf pa) master pa len wr = true := by
  unfold admitted
  rw [List.any_eq_true, e]
  exact ⟨0, by decide, by cases wr <;> simp [openAt, nmGet] <;> omega⟩

/-- The first pages are not valid; service by H2 writes their leaf. -/
def faulting : State :=
  let s := paged 0x1E#8 (trapped (.fault 5))
  { s with cur := none, pfaults := [(5, fault0)], host := { s.host with access := openAt 0x10002000 (masterHart 2) } }

def servedAs : Served → Option State
  | .done s => some s
  | _ => none
theorem done_of {r : Served} (h : (servedAs r).isSome = true) : r = .done ((servedAs r).get h) := by
  cases r <;> first | rfl | cases h

theorem served : (servedAs (makeResident faulting fault0 [(0x10002000, 0x1F#64)])).isSome = true := by
  have h : hartMay faulting 2 0x10002000 (leBytes 8 (0x1F#64).toNat).length true = true := open_admits rfl (by decide)
  unfold makeResident
  simp only [List.foldl_cons, List.foldl_nil, hartWrite, h, if_true]
  decide +kernel

/-- O47: a fault that its service resolves; a region whose fault is served; traps 8, 9, 10, 11 and 15 and a breakpoint; a mailbox with
room, and a full one with a message that waits. -/
theorem witness_faults : (nmGet faulting.pfaults 5 = some fault0 ∧ ∃ s1, makeResident faulting fault0 [(0x10002000, 0x1F#64)] = .done s1) ∧
    (let s := resting (trapped (.fault 5))
     nmGet s.strands 1 = some (trapped (.fault 5)) ∧ (trapped (.fault 5)).anyTracked = false ∧ (trapped (.fault 5)).abort = none ∧ (trapped (.fault 5)).resident = true ∧
     ∀ e ∈ (trapped (.fault 5)).frags, ∀ k, e.2.wait = .fault k → nmGet s.pfaults k = none) ∧
    loadedLaunch.fn ≠ hartFn ∧
    (∀ w ∈ [Wait.trapStop 8 7#64, .trapStop 9 7#64, .trapStop 10 7#64, .trapStop 11 7#64, .trapStop 15 7#64, .debugStop], let s := resting (trapped w)
      nmGet s.strands 1 = some (trapped w) ∧ (trapped w).resident = true ∧ s.job? (trapped w) = some (loadedJob 0) ∧
      nmGet s.launches (loadedJob 0).launch = some loadedLaunch ∧ ∃ fr, nmGet (trapped w).frags 0 = some fr ∧ fr.wait = w) ∧
    (∀ n ∈ [63, 64], let s := { State.reset with host := { Hostside.reset with mail := [(7, List.replicate n (0, 1#256))] } }
     7 < 8 ∧ s.host.mailWait = [] ∧ (∀ e ∈ s.host.mailWait, e.1 ≠ 3 ∧ 64 ≤ ((nmGet s.host.mail e.2.1).getD []).length) ∧ ((nmGet s.host.mail 7).getD []).length = n ∧
       (nmGet s.host.mail 7).getD [] ≠ []) ∧
    (let s := { State.reset with host := { Hostside.reset with mail := [(7, List.replicate 64 (0, 1#256))], mailWait := [(1, 7, 2#256)] } }
     s.host.mailWait = (1, 7, 2#256) :: [] ∧ ((nmGet s.host.mail 7).getD []).length = 64 ∧ (∃ e ∈ s.host.mailWait, e.1 = 1) ∧
       (∀ e ∈ s.host.mailWait, e.1 ≠ 7 ∧ 64 ≤ ((nmGet s.host.mail e.2.1).getD []).length) ∧
       ∀ e ∈ s.host.mailWait, e.1 ≠ 3 ∧ 64 ≤ ((nmGet s.host.mail e.2.1).getD []).length) :=
  ⟨⟨rfl, _, done_of served⟩, ⟨rfl, rfl, rfl, rfl, fun _ _ _ _ => rfl⟩, by decide,
   by intro w h; simp only [List.mem_cons, List.not_mem_nil, or_false] at h
      rcases h with rfl | rfl | rfl | rfl | rfl | rfl <;> exact ⟨rfl, rfl, rfl, rfl, _, rfl, rfl⟩,
   by intro n h; simp only [List.mem_cons, List.not_mem_nil, or_false] at h
      rcases h with rfl | rfl <;> decide +kernel,
   by decide +kernel⟩

/-- A window of a master over a whole register block. -/
def openRegs (b master : Nat) : NMap AccWin := [(accKey (unitRegs b) master 0, { base := 0, len := 2 ^ 16, rd := true, wr := true })]

theorem open_bar {s : State} {off len : Nat} {wr : Bool} (e : s.host.access = openRegs (0x4000 + 128) 128) (h : off + len ≤ 0x1080) :
    s.regRefuses (barAt 128 off len) wr = none := by
  have : admitted s (unitRegs (0x4000 + 128)) 128 off len wr = true := by
    unfold admitted
    rw [List.any_eq_true, e]
    exact ⟨0, by decide, by cases wr <;> simp [openRegs, nmGet] <;> omega⟩
  simp [State.regRefuses, barAt, this]

def queueing (x : HQueue) : State := { resting (seated []) with host := { Hostside.reset with queues := [(qkey 128 7, x)], asids := [(0, 1)] } }
/-- An entry of an operation whose ADDR is 64. -/
def entryAt (op : Nat) : List Byte := leBytes 8 op ++ leBytes 8 64 ++ List.replicate 48 0#8
def handed (op : Nat) : HQueue := { HQueue.reset with entry := some (entryAt op), out := 1 }
def onRing : HQueue := { HQueue.reset with sqsize := 2#13, cqsize := 4#13, on := true, fetch := 1 }
def compl0 : Compl := { value := 0#64, tag := 0#32, head := 0, status := 0#8, irq := false, kind := .plain }
def putAt (m : Sparse 8) (a : Nat) (bs : List Byte) : Sparse 8 := bs.zipIdx.foldl (fun m x => spPut m (a + x.2) x.1) m
/-- The header of an image of no text at 4096 of module 1, its resource record, which its name shares, and a zero byte. -/
def imageBytes : List Byte :=
  leBytes 4 0x31465744 ++ leBytes 4 1 ++ leBytes 4 64 ++ leBytes 4 0 ++ leBytes 4 64 ++ leBytes 4 64 ++ leBytes 12 0 ++ leBytes 4 64 ++ leBytes 4 0 ++ leBytes 4 64 ++
    leBytes 16 0 ++ leBytes 2 8 ++ leBytes 2 16
def descBytes : List Byte := leBytes 8 4096 ++ leBytes 4 1 ++ leBytes 4 1 ++ leBytes 4 1
def launching : State :=
  let s := queueing (handed 1)
  { s with mem := putAt (spPut (spPut s.mem 0x10002001 2#8) 0x10002006 0x10#8) (pkey 2 4096) imageBytes, host := { s.host with mem := putAt [] 64 descBytes } }

theorem root_open : let s0 := queueing (handed 3)
    hartMay { s0 with host := { s0.host with access := openAt (rootWord 0) (masterHart 2) } } 2 (rootWord 0) 8 true = true :=
  open_admits rfl (by have := (Config.rootAt 0).isLt; unfold rootWord; omega)

/-- O48: the last queue of the last function. -/
theorem witness_queues : (let s := queueing HQueue.reset
     let s := { s with host := { s.host with access := openRegs (0x4000 + 128) 128 } }
     barOk s 128 7 = true ∧ (s.queue (qkey 128 7)).busy = false ∧ ∀ off len wr, off + len ≤ 0x1080 → s.regRefuses (barAt 128 off len) wr = none) ∧
    (let s0 := queueing (handed 3)
     let s := { s0 with host := { s0.host with access := openAt (rootWord 0) (masterHart 2) } }
     entryOf s 128 7 3 = some (entryAt 3) ∧ (s.queue (qkey 128 7)).pasid.toNat = 0 ∧ s.host.dying.contains 0 = false ∧ hartMay s 2 (rootWord 0) 8 true = true) ∧
    (let s := { launching with roots := spPut launching.roots 0 0x10000001#64 }
     let d := rdHost launching 0 64 256
     nmGet s.jobs 65535 = none ∧ s.host.launchOk = true ∧ d.length = 256 ∧ descFieldsBad s.host.keyChunks d = false ∧
     ∃ im mset, readImage s 0 (blkN d 0 8) = some im ∧ readMset s 0 d = some mset ∧ im.bad = false) ∧
    (let s := queueing onRing
     let x := s.queue (qkey 128 7)
     x.on = true ∧ x.asked = false ∧ x.entry = none ∧ x.fetch ≠ x.sqtail.toNat ∧ s.host.dying.contains x.pasid.toNat = false) ∧
    (∀ dy ∈ [[], [0]], let s0 := queueing { onRing with asked := true }
     let s := { s0 with host := { s0.host with dying := dy, tearOut := [(0, 2)] } }
     let x := s.queue (qkey 128 7)
     7 < 8 ∧ nmGet s.host.tearOut x.pasid.toNat = some (0 + 2) ∧ askedQueue s x.pasid.toNat = some (qkey 128 7) ∧ x.entry = none ∧
       s.host.dying.contains x.pasid.toNat = !dy.isEmpty ∧ entryBad 128 (rdHost s x.pasid.toNat (x.sqbase.toNat + 64 * x.fetch) 64) = false) ∧
    (∀ op ∈ [0, 1, 2, 3, 4], entryOf (queueing (handed op)) 128 7 op = some (entryAt op)) ∧
    (let s := { queueing (handed 1) with host := { (queueing (handed 1)).host with dying := [0] } }
     s.host.dying.contains (s.queue (qkey 128 7)).pasid.toNat = true) ∧
    (let s := launching
     let d := rdHost s 0 (entAddr (entryAt 1)) 256
     entryOf s 128 7 1 = some (entryAt 1) ∧ s.host.dying.contains 0 = false ∧ nmGet s.host.asids 0 = some 1 ∧ nmGet s.jobs 65535 = none ∧
     s.host.launchOk = true ∧ entAddr (entryAt 1) % 64 = 0 ∧ descFieldsBad s.host.keyChunks d = false ∧
     ∃ im mset, readImage s 1 (blkN d 0 8) = some im ∧ readMset s 1 d = some mset ∧ im.bad = false) ∧
    (∀ b ∈ [false, true], let s0 := queueing (handed 2)
     let s := { s0 with host := { s0.host with snaps := [(0, { pages := [], alt := true, busy := b })] } }
     (s.queue (qkey 128 7)).pasid.toNat = 0 ∧ entryOf s 128 7 2 = some (entryAt 2) ∧ s.host.dying.contains 0 = false ∧ ((nmGet s.host.snaps 0).getD Snap.none).busy = b) ∧
    (let x := { onRing with done := [compl0] }
     x.done.zipIdx.find? (fun d => d.1.fits x) = some (compl0, 0) ∧ compl0.kind = .plain) ∧
    (∀ r ∈ [none, some 3], let j := { loadedJob 0 with ended := true, rel := r }
     let s := { resting (seated []) with jobs := [(1, j)] }
     nmGet s.jobs 1 = some j ∧ jobOver s 1 j = true ∧ jobCommands s 1 = false ∧ jobWrites s 1 = false ∧
     (s.dies.any fun d => d.2.p.any fun w => decide (w.seq < 3)) = false ∧ nmGet s.launches j.launch = some loadedLaunch) :=
  ⟨⟨by decide +kernel, by decide +kernel, fun _ _ _ h => open_bar rfl h⟩, ⟨by decide +kernel, by decide +kernel, by decide +kernel, root_open⟩,
   ⟨by decide +kernel, by decide +kernel, by decide +kernel, by decide +kernel, _, _, someOf (by decide +kernel), someOf (by decide +kernel), by decide +kernel⟩,
   by decide +kernel, by decide +kernel, by decide +kernel, by decide +kernel,
   ⟨by decide +kernel, by decide +kernel, by decide +kernel, by decide +kernel, by decide +kernel, by decide +kernel, by decide +kernel, _, _,
    someOf (by decide +kernel), someOf (by decide +kernel), by decide +kernel⟩,
   by decide +kernel, by decide +kernel, by decide +kernel⟩

/-- A launch with batches left to place. -/
def launch2 : Launch := { loadedLaunch with dims := (1, 2, 1), res := (8, 16, 0, 0, 0) }
def open2 : State := { resting (seated []) with launches := [(1, launch2)] }
/-- A launch with a bound whose batches ask for more scratchpad than a core has, beside a resident batch. -/
def bound2 : Launch := { launch2 with job := 1, prio := 1, lbound := 1, res := (8, 16, 0, 0, 2 ^ 23) }
def bounded : State :=
  { open2 with launches := [(1, loadedLaunch), (2, bound2)], cores := [(0, { Core.reset with cycle := 700 }), (1, { Core.reset with cycle := 1400 })] }

/-- O49: the first die's pick; the last core's partition; a batch that has done nothing; a batch to save; a bound on die 7. -/
theorem witness_batches : ({ State.reset with host := { State.reset.host with access := openRegs 1151 (masterHart 1) } } : State).regRefuses (hartAt 1 [1151] 0 4) true = none ∧
    (∃ key l c z, fairPick open2 7 = some (key, l, c, z) ∧ fairPick open2 (dieOf c) = some (key, l, c, z) ∧ c < coreCount ∧ 7 < 8) ∧
    (1151 < coreCount ∧ partOk (0x1040#32).toNat = true ∧ coreEmpty State.reset 1151 = true ∧ partOk (0x41#32).toNat = false ∧
      coreEmpty (resting (seated [])) 0 = false) ∧
    (let b := { loadedBatch with pre := some .flush }
     let s := { resting (seated []) with batches := [(1, b)] }
     nmGet s.batches 1 = some b ∧ b.resident = true ∧ (∃ j, nmGet s.jobs b.job = some j ∧ j.ended = false) ∧ b.pre = some .flush ∧
     ∀ sid ∈ b.sids, ∀ st, nmGet s.strands sid = some st → st.acted = false) ∧
    (let s := { resting (seated []) with jobs := [(1, { loadedJob 0 with hasLive := true })] }
     nmGet s.batches 1 = some loadedBatch ∧ (∃ j, nmGet s.jobs loadedBatch.job = some j ∧ j.hasLive = true ∧ j.ended = false) ∧
     (∀ sid ∈ loadedBatch.sids, ∃ st, nmGet s.strands sid = some st ∧ saveReady s sid st = true) ∧ batchCommands s 1 loadedBatch = false) ∧
    (nmGet bounded.launches 2 = some bound2 ∧ bound2.lbound ≠ 0 ∧ startable bounded 2 bound2 = true ∧ bound2.since + 700 * bound2.lbound ≤ hostTime bounded ∧ (∀ d < 8, findCore bounded 2 bound2 d = none) ∧
     ∃ x, leastBy (fun y => (y.waste, y.act.rank)) (((bounded.batches.filter fun e => e.2.resident && e.2.pre.isNone && partMatch (bounded.core e.2.core) bound2.part
       && ((nmGet bounded.launches e.2.launch).map fun y => decide (y.prio < bound2.prio)).getD false).flatMap fun e => preActs bounded e.1 e.2).filter
       fun y => decide (y.delay ≤ ((700 * bound2.lbound : Nat) : Rat))) = some x) :=
  ⟨by decide +kernel, ⟨_, _, _, _, someOf (by decide +kernel), by decide +kernel, by decide +kernel, by decide⟩, by decide +kernel,
   ⟨rfl, rfl, ⟨_, rfl, rfl⟩, rfl, by intro sid h st e; simp only [show loadedBatch.sids = [1] from rfl, List.mem_singleton] at h; subst h; cases e; rfl⟩,
   ⟨rfl, ⟨_, rfl, rfl, rfl⟩, by intro sid h; simp only [show loadedBatch.sids = [1] from rfl, List.mem_singleton] at h; subst h; exact ⟨_, rfl, by decide +kernel⟩,
    by decide +kernel⟩,
   ⟨rfl, by decide, by decide +kernel, by decide +kernel, by decide +kernel, _, someOf (by decide +kernel)⟩⟩

def saved1 : Batch := { loadedBatch with saved := true, locks := [{ base := 0, len := 4096, asid := 1, batch := 1 }] }
def saving : State :=
  { resting { seated [] with st := .saved, rsb := [{ entry 0 1 with ready := false, carried := true }] } with batches := [(1, saved1)] }

def faultRes : State ⊕ Option (State × Nat × XRes) → Option (State × Nat)
  | .inr (some (s, va, .pageFault)) => some (s, va)
  | _ => none
theorem faultOf {r : State ⊕ Option (State × Nat × XRes)} (h : (faultRes r).isSome = true) :
    r = .inr (some (((faultRes r).get h).1, ((faultRes r).get h).2, .pageFault)) := by
  rcases r with a | _ | ⟨s, va, x⟩ <;> try cases h
  cases x <;> first | rfl | cases h

/-- O50: a saved batch with a lock record and a carried sector, resumed on core 1151; and one whose lock's page is not valid. -/
theorem witness_resume : nmGet saving.batches 1 = some saved1 ∧ nmGet saving.launches saved1.launch = some loadedLaunch ∧ saved1.saved = true ∧ saved1.ended = false ∧
    partMatch (saving.core 1151) loadedLaunch.part = true ∧ (∀ q ∈ saved1.qs, ((nmGet (saving.core 1151).queues q.1).bind (·.batch)) = none) ∧
    roomFor saving 1151 (saving.core 1151) (resumeDemand saving 1151 saved1) = true ∧ entriesFor saving 1151 saved1 = true ∧ 1151 < coreCount ∧
    (∃ s1 s2, relock saving 1151 1 saved1.locks = .inl s1 ∧ recarryAll s1 1151 (((nmGet saving.jobs saved1.job).map (·.asid)).getD 0) saved1.sids = .inl s2) ∧
    (let s := { saving with mem := spPut saving.mem 0x10002000 0x1E#8 }
     (∃ s2 va, relock s 1151 1 saved1.locks = .inr (some (s2, va, .pageFault))) ∧ ∀ e ∈ s.pfaults, e.2.who ≠ .resume 1) :=
  ⟨rfl, rfl, rfl, rfl, by decide +kernel, by decide, by decide +kernel, by decide +kernel, by decide, ⟨_, _, inlOf (by decide +kernel), inlOf (by decide +kernel)⟩,
   ⟨_, _, faultOf (by decide +kernel)⟩, by intro e h; cases h⟩

/-- O35, O51: a PASID to tear down; a response that answers no queue; timeouts with and without an address space, and the freeing of
one; windows that admit and none, of registers too; the limits of a register's range. -/
theorem witness_system : (State.reset.host.dying.contains 7 = false ∧ ∀ x, nmGet State.reset.host.asids 7 = some x → ∀ e ∈ State.reset.launches, e.2.asid ≠ x) ∧
    (∀ asids ∈ [[], [(7, 3)]], let s := { State.reset with host := { Hostside.reset with dying := [7], tearOut := [(7, 0 + 2)], asids := asids } }
     nmGet s.host.tearOut 7 = some (0 + 2) ∧ askedQueue s 7 = none ∧ s.host.dying.contains 7 = true ∧
       nmGet s.host.asids 7 = (if asids = [] then none else some 3)) ∧
    (let s := { State.reset with host := { Hostside.reset with dying := [7], asids := [(7, 3)] } }
     s.host.dying.contains 7 = true ∧ nmGet s.host.tearOut 7 = none ∧ nmGet s.host.asids 7 = some 3 ∧ (∀ t ∈ s.tinvs, ¬(t.asid = 3 ∧ t.whole = true)) ∧
       ∀ e ∈ s.jobs, e.2.asid ≠ 3) ∧
    (admitted State.reset 0 128 0 1 true = false ∧ admitted State.reset 0 (masterHart 7) 0 1 false = false) ∧
    (∀ wr, let s := { State.reset with host := { State.reset.host with access := openAt 64 128 } }
     s.host.launchOk = true ∧ 64 + 64 ≤ 2 ^ 52 ∧ admitted s (Config.regionOf 64) 128 64 64 wr = true ∧ admitted State.reset (Config.regionOf 64) 128 64 64 wr = false) ∧
    (let s := { State.reset with host := { State.reset.host with access := openRegs 0x3000 (masterHart 4) } }
     s.regRefuses (regAt .blockedLimit) true = none ∧ State.reset.regRefuses (regAt .blockedLimit) true = some 0x3000 ∧
       State.reset.regRefuses (regAt (.sqbase 128 7)) true = some 0x4080) ∧
    (let wins := (List.range 8).map fun d => (accKey (unitRegs (0x1000 + d)) (masterHart 2) 0, ({ base := 0, len := 2 ^ 20, rd := true, wr := true } : AccWin))
     let s := { State.reset with host := { State.reset.host with access := wins } }
     65535 < 65536 ∧ s.regRefuses (regAt (.asidRoot 65535)) true = none ∧ s.regRefuses (hartAt 2 [0x1000] 0 8) true = none) ∧
    2 ^ 10 ≤ (1024#64).toNat ∧ (16777216#64).toNat ≤ 2 ^ 24 ∧ (1023#64).toNat < 2 ^ 10 ∧ 2 ^ 24 < (16777217#64).toNat :=
  ⟨⟨by decide, by intro x h; cases h⟩,
   by intro a h; simp only [List.mem_cons, List.not_mem_nil, or_false] at h; rcases h with rfl | rfl <;> decide,
   by decide, by decide +kernel, fun wr => ⟨rfl, by decide, open_admits rfl (by decide), rfl⟩, by decide +kernel, by decide +kernel, by decide, by decide, by decide, by decide⟩

/-- O9, O10, O17: a rendezvous's parts of one fragment, a mask that leaves a thread out, and a thread of a fragment. -/
theorem witness_threads : (view (seated [])).acts h0 ≠ [] ∧ (31 : Nat) ∈ (view (seated [])).acts h0 := by decide +kernel

/-- O53. -/
theorem witness_wellFormed : WellFormed (.ffma h0 .f32 .rtz false false (.v 5#8) (.v 1#8) (.pair 2#8 3#8)) = true ∧ 0x20E9A1A40000280000640406 < 2 ^ 96 ∧
    decodesTo 0x20E9A1A40000280000640406 (.ffma { h0 with gn := true, gp := 2#3, stall := 3#3, ks := true } .f32 .rtz false false (.v 5#8) (.v 1#8) (.pair 2#8 3#8)) = true := by
  decide +kernel

/-- O54: a machine that fetches an IADD, one that fetches each refused word, and one with a step set. -/
theorem witness_step (w : Nat) (hw : w = 0x001C80400000200000030D41 ∨ w = 0x075C80400000200000030D41 ∨ w = 0x815E002930002180004C0004 ∨ w = 0x20E9A1A40000280000600406) :
    (let s := placed w (seated [])
     s.cur = some (1, 0) ∧ nmGet s.strands 1 = some (seated []) ∧ nmGet (seated []).frags 0 = some frag0 ∧ s.job? (seated []) = some (loadedJob w) ∧
     (loadedJob w).pcOk 0 = true ∧ ∃ e s1, fetchXlate s 0 1 0 = (.ok e, s1) ∧ e.x = true) ∧
    (let s := { State.reset with agenda := [.jobEnd 0, .jobEnd 1] }
     s.cur = none ∧ s.agenda = .jobEnd 0 :: [.jobEnd 1]) := by
  rcases hw with rfl | rfl | rfl | rfl <;>
  exact ⟨⟨rfl, rfl, rfl, rfl, by decide +kernel, _, _, okX (by decide +kernel), by decide +kernel⟩, rfl, rfl⟩

/-- O56: a step that writes memory. -/
theorem witness_canonical : (let s := { State.reset with agenda := [.propagate 0 64], dies := [(0, { Die.reset with p := [onWay] })] }
    Memory.wf s.mem = true ∧ ((match step s with | .next t => some t.mem | _ => none) = some [(64, 5#8)])) ∧ Memory.wf State.reset.mem = true := by decide +kernel

/-- O57: a result in D's registers of the last thread, with an earlier pending write. -/
theorem witness_frame : (let st := inFlight .none
    let st := { st with pend := st.pend.map fun p => { p with writes := [⟨.a, 63, 4095, 1#64⟩] } }
    let u := uses (refsOf (.v 4#8) false) (refsOf (.v 1#8) false)
    Issues h0 u (placed 0 st) st (view st)) ∧
    ∀ w ∈ [(⟨.v, 4, 31, 1#64⟩ : Write)] ++ [⟨.a, 63, 4095, 1#64⟩], cellIn (cellOf w) :=
  ⟨⟨rfl, rfl, rfl, rfl, rfl, rfl, rfl, rfl, rfl, rfl, rfl, rfl⟩, by simp [cellIn, cellOf]⟩

/-- O59: a strand whose handler and save area are in place. -/
theorem witness_entry : (let st := { seated [] with sp := { Spec.reset with evec := 12#57, tsave := 0x8000#57 } }
    let s := placed 0 st
    nmGet s.strands 1 = some st ∧ nmGet st.frags 0 = some frag0 ∧ s.job? st = some (loadedJob 0) ∧ st.sp.evec ≠ 0#57 ∧ st.inHandler 0 = false ∧
    st.anyTracked = false ∧ st.sp.hstate = 0#2 ∧ (loadedJob 0).pcOk st.sp.evec.toNat = true ∧
    ∃ s1 ps, endRegion (s.updStrand 1 Strand.landFixed) 1 0 st.sp.evec none = (s1, true) ∧ areaPieces s1 st.landFixed true = some ps) :=
  ⟨rfl, rfl, rfl, by decide, by decide +kernel, rfl, rfl, by decide +kernel, _, _, ended (by decide +kernel), someOf (by decide +kernel)⟩

/-- O60: the first and the last cell of each class. -/
theorem witness_cells : ∀ w ∈ [(⟨.v, 0, 31, 1#64⟩ : Write), ⟨.k, 63, 0, 1#64⟩, ⟨.m, 63, 31, 1#64⟩, ⟨.p, 6, 0, 1#64⟩, ⟨.a, 63, 4095, 1#64⟩], cellIn (cellOf w) := by
  simp [cellIn, cellOf]

end Sys2Proof.Tests
end
end

section
/-!
SUPPORT. O60: what register reads and memory reads find after a write (R5, R50, R74).
-/
namespace Sys2Proof.Machine

/-- Each byte that a value is written as stands at its place, the least significant first (R5). -/
theorem rdM1_wrMN_leBytes (m : List Host.Cell) (a n x i : Nat) (hi : i < n) :
    rdM1 (wrMN m a (leBytes n x)) (a + i) = BitVec.ofNat 8 (x / 256 ^ i) := by
  have h : i < (leBytes n x).length := by simpa using hi
  exact (rdM1_wrMN_in _ m a i h).trans (getElem_leBytes n x i h)

/-- A value written as bytes reads back, to the bytes' width (R5). -/
theorem leVal_rdMN_wrMN_leBytes (m : List Host.Cell) (a n x : Nat) : leVal (rdMN (wrMN m a (leBytes n x)) a n) = x % 256 ^ n := by
  have h := rdMN_wrMN m a (leBytes n x)
  rw [length_leBytes] at h
  rw [h, leVal_leBytes]

/-- p7 reads 1 in every thread (R50). -/
theorem Regs.bitP_seven (r : Regs) {t : Nat} (ht : t < 32) : r.bitP 7 t = true := by
  show (BitVec.allOnes 32).getLsbD t = true
  rw [BitVec.getLsbD_allOnes, decide_eq_true ht]

/-- Settles O60, from what a register write puts into its cell and leaves of the others, and the reads of memory after a write. -/
theorem readsReturnWhatWasWritten : Obligations.ReadsReturnWhatWasWritten := by
  unfold Obligations.ReadsReturnWhatWasWritten
  refine ⟨fun r w hw => ?_, fun r t => r.bitP_seven, fun m a n x bs => ?_⟩
  · obtain ⟨hv, hk, hm, ha, hp⟩ := regs_wr_self r w hw
    exact ⟨hv, hk, hm, ha, hp, fun x hx hne => regs_wr_other r hw hx hne.symm⟩
  · exact ⟨rdMN_wrMN m a bs, rdM1_wrMN_out bs m a, rdM1_wrMN_leBytes m a n x, leVal_rdMN_wrMN_leBytes m a n x⟩

end Sys2Proof.Machine
end

section
/-!
SUPPORT. O51: teardown (R449), the access tables (R440, R450), module reset (R452) and register writes (R6, R298, R414), step
by step.
-/
namespace Sys2Proof.Machine

variable {s : State} {pasid asid fn unit pa len n : Nat} {wr : Bool}

/-! ## Teardown -/

/-- Every queue of the PASID is dying after `dyingQueues`. -/
theorem dyingQueues_dying {e : Nat × HQueue} (he : e ∈ (dyingQueues s pasid).host.queues) (hp : e.2.pasid.toNat = pasid) : e.2.dying = true := by
  obtain ⟨q, -, rfl⟩ := List.mem_map.1 he
  by_cases h : q.2.pasid.toNat = pasid
  · simp [h]
  · simp [h] at hp

/-- With no launch in its address space, a teardown marks the PASID and its queues as dying and nothing else. -/
theorem execPasidTeardown_noLaunch (hd : s.host.dying.contains pasid = false)
    (hl : ∀ x, nmGet s.host.asids pasid = some x → ∀ e ∈ s.launches, e.2.asid ≠ x) :
    execPasidTeardown pasid s = .next { dyingQueues s pasid with host := { (dyingQueues s pasid).host with
      dying := s.host.dying ++ [pasid], tearOut := nmSet s.host.tearOut pasid ((nmGet s.host.tearOut pasid).getD 0) } } := by
  simp only [execPasidTeardown, hd, Bool.false_eq_true, if_false]
  cases ha : nmGet s.host.asids pasid with
  | none => simp [dyingQueues, ha]
  | some x =>
    have none_mine : s.launches.filter (fun e => e.2.asid == x) = [] :=
      List.filter_eq_nil_iff.2 fun e he => by simpa using hl x ha e he
    simp [dyingQueues, ha, none_mine]

/-- A response that no queue waits for, with another still to come, is counted. -/
theorem execTranslationResponse_counted (ht : nmGet s.host.tearOut pasid = some (n + 2)) (hq : askedQueue s pasid = none) :
    execTranslationResponse pasid s = .next { s with host := { s.host with tearOut := nmSet s.host.tearOut pasid (n + 1) } } := by
  have hq' : ∀ m, askedQueue { s with host := { s.host with tearOut := m } } pasid = none := fun _ => hq
  simp [execTranslationResponse, ht, hq']

/-- The state in which the responses still to come for a PASID are discarded. -/
def discardAsked (s : State) (pasid : Nat) : State :=
  { s with host := { s.host with
    tearOut := nmDel s.host.tearOut pasid
    queues := s.host.queues.map fun (e : Nat × HQueue) => (e.1, if e.2.pasid.toNat == pasid then { e.2 with asked := false } else e.2) } }

/-- While requests are counted, the timeout discards them and starts the invalidation of the address space, where there is one. -/
theorem execTeardownTimeout_counted (hd : s.host.dying.contains pasid = true) (ht : nmGet s.host.tearOut pasid = some n) :
    execTeardownTimeout pasid s = .next (match nmGet s.host.asids pasid with
      | some a => startTinv (discardAsked s pasid) none a true 0 0
      | none => discardAsked s pasid) := by
  simp only [execTeardownTimeout, hd, ht, Bool.not_true, Bool.false_eq_true, if_false]
  rfl

/-- Once the invalidation has completed and no job of the address space is left, the address space is freed. -/
theorem execTeardownTimeout_frees (hd : s.host.dying.contains pasid = true) (ht : nmGet s.host.tearOut pasid = none)
    (ha : nmGet s.host.asids pasid = some asid) (hi : ∀ t ∈ s.tinvs, ¬(t.asid = asid ∧ t.whole = true))
    (hj : ∀ e ∈ s.jobs, e.2.asid ≠ asid) :
    ∃ t, execTeardownTimeout pasid s = .next t ∧ t.roots = spPut s.roots asid 0#64 ∧ t.host.asids = nmDel s.host.asids pasid ∧
      t.host.dying = s.host.dying.erase pasid := by
  have idle : (s.tinvs.any (fun t => some t.asid == some asid && t.whole) || s.jobs.any (fun e => some e.2.asid == some asid)) = false := by
    simpa using And.intro (fun t ht he => by simpa [he] using hi t ht) fun k j => hj (k, j)
  simp only [execTeardownTimeout, hd, ht, ha, idle, Bool.not_true, Bool.false_eq_true, if_false]
  exact ⟨_, rfl, rfl, rfl, rfl⟩

/-! ## The access tables and the host's accesses -/

/-- A host access that no window admits: logged, and a read gives all ones. -/
theorem hostDenied_eq : hostDenied s fn unit pa len wr
    = if wr then s.event 0x00#8 [fn, unit, pa, 1] else (s.event 0x00#8 [fn, unit, pa, 0]).hostReads (List.replicate len 0xFF#8) := by
  cases wr <;> rfl

/-- The conditions under which HOST_CXL_MEM_ACCESS reaches the access table. -/
structure HostReach (s : State) (fn unit pa len : Nat) : Prop where
  launchOk : s.host.launchOk = true
  fn_le : fn ≤ 128
  end_le : pa + len ≤ 2 ^ 52
  region : unit = Config.regionOf pa

section
variable (h : HostReach s fn unit pa len)
include h

/-- A write of as many bytes as it says, and a read, do what the access table says. -/
theorem HostReach.access {w : Option (List Byte)} (hw : ∀ bs ∈ w, bs.length = len) :
    execHostCxlMemAccess fn unit pa len w s = .next (if admitted s unit fn pa len w.isSome then
      (match w with | some bs => { s with mem := wrMN s.mem pa bs } | none => s.hostReads (rdMN s.mem pa len))
      else hostDenied s fn unit pa len w.isSome) := by
  obtain ⟨hok, hfn, hend, rfl⟩ := h
  have len_ok : w.any (fun bs => bs.length != len) = false := by
    cases w with
    | none => rfl
    | some bs => simpa using hw bs rfl
  have reach : (!s.host.launchOk || decide (128 < fn) || decide (2 ^ 52 < pa + len) || Config.regionOf pa != Config.regionOf pa ||
      w.any (fun bs => bs.length != len)) = false := by
    simp only [hok, len_ok, decide_eq_false (Nat.not_lt.2 hfn), decide_eq_false (Nat.not_lt.2 hend), bne_self_eq_false, Bool.not_true, Bool.or_self]
  simp only [execHostCxlMemAccess, reach]
  cases admitted s (Config.regionOf pa) fn pa len w.isSome <;> cases w <;> rfl

theorem HostReach.writes {bs : List Byte} (hl : bs.length = len) (ha : admitted s unit fn pa len true = true) :
    execHostCxlMemAccess fn unit pa len (some bs) s = .next { s with mem := wrMN s.mem pa bs } := by
  simpa [ha] using h.access (w := some bs) (by simpa using hl)

theorem HostReach.write_refused {bs : List Byte} (hl : bs.length = len) (ha : admitted s unit fn pa len true = false) :
    execHostCxlMemAccess fn unit pa len (some bs) s = .next (s.event 0x00#8 [fn, unit, pa, 1]) := by
  simpa [ha, hostDenied_eq] using h.access (w := some bs) (by simpa using hl)

theorem HostReach.reads (ha : admitted s unit fn pa len false = true) :
    execHostCxlMemAccess fn unit pa len none s = .next (s.hostReads (rdMN s.mem pa len)) := by
  simpa [ha] using h.access (w := none) (by simp)

theorem HostReach.read_refused (ha : admitted s unit fn pa len false = false) :
    execHostCxlMemAccess fn unit pa len none s
      = .next ((s.event 0x00#8 [fn, unit, pa, 0]).hostReads (List.replicate len 0xFF#8)) := by
  simpa [ha, hostDenied_eq] using h.access (w := none) (by simp)

end

/-! ## Reset -/

/-- The charges of a reset leave the host's memory (R452). -/
theorem chargeBatches_hostMem (bs : List (Nat × Batch)) : (bs.foldl (fun x e => chargeBatch x e.2) s).host.mem = s.host.mem :=
  (quiet_foldl _ (fun x e => quiet_chargeBatch x e.2) bs s).hostMem

/-! ## Register writes -/

/-- A register write that no block's table refuses does what the register takes. -/
theorem execRegisterWrite_admitted {r : RegName} (v : W64) (h : s.regRefuses (regAt r) true = none) :
    execRegisterWrite r v s = .next (regPut r v s) := by
  simp only [execRegisterWrite, State.regWrite, h]

/-- One that a block's table refuses is logged for a function and reported for a hart. -/
theorem execRegisterWrite_refused {r : RegName} {b : Nat} (v : W64) (h : s.regRefuses (regAt r) true = some b) :
    execRegisterWrite r v s = .next (if (regAt r).master < 0x100
      then hostDenied s (regAt r).master (unitRegs b) (regAt r).off (regAt r).len true
      else hartRefused s ((regAt r).master - 0x100) (unitRegs b) (regAt r).off true) := by
  simp only [execRegisterWrite, State.regWrite, h]
  rfl

/-- The bits of an ASID root that a write keeps: 51 down to 12, and bit 0 (R298). -/
theorem asidRoot_bits (v : W64) : w64n (bitsOf v.toNat 51 12 * 4096 + v.toNat % 2) = v &&& 0xFFFFFFFFFF001#64 := by
  have mask : (0xFFFFFFFFFF001#64).toNat = 2 ^ 12 * (2 ^ 40 - 1) + 1 := rfl
  have low : v.toNat % 2 < 2 ^ 12 := by omega
  have fields : bitsOf v.toNat 51 12 * 4096 + v.toNat % 2 = v.toNat &&& (0xFFFFFFFFFF001#64).toNat := by
    refine Nat.eq_of_testBit_eq fun j => ?_
    rw [mask, Nat.testBit_and, Nat.testBit_two_pow_mul_add _ (by decide), bitsOf_div, Nat.mul_comm _ 4096,
      Nat.testBit_two_pow_mul_add (i := 12) _ low]
    split
    · cases j with
      | zero => simp
      | succ j => simp [Nat.testBit_succ, Nat.div_eq_of_lt (Nat.mod_lt v.toNat (by decide : 2 > 0))]
    · next hj =>
      rw [Nat.testBit_mod_two_pow, Nat.testBit_div_two_pow, Nat.testBit_two_pow_sub_one, Nat.sub_add_cancel (Nat.not_lt.1 hj), Bool.and_comm]
  exact BitVec.eq_of_toNat_eq (by rw [fields, w64n, BitVec.toNat_ofNat, BitVec.toNat_and, ← BitVec.toNat_and, Nat.mod_eq_of_lt (BitVec.isLt _)])

/-- An ASID root takes bits 51 down to 12 and bit 0 of a write (R6, R298). -/
theorem regPut_asidRoot {a : Nat} (v : W64) (ha : a < 65536) :
    regPut (.asidRoot a) v s = { s with roots := spPut s.roots a (v &&& 0xFFFFFFFFFF001#64) } := by
  simp only [regPut, if_pos ha, asidRoot_bits]

/-- The blocked-packet limit takes a value in its range only (R6, R414). -/
theorem regPut_blockedLimit (v : W64) : regPut .blockedLimit v s
    = if 2 ^ 10 ≤ v.toNat ∧ v.toNat ≤ 2 ^ 24 then { s with fab := { s.fab with limit := v.toNat } } else s := rfl

/-- A read-only register stands in no block and takes no write (R6). -/
theorem execRegisterWrite_readOnly (u off : Nat) (v : W64) : execRegisterWrite (.readOnly u off) v s = .next s :=
  execRegisterWrite_admitted v (r := .readOnly u off) rfl

end Sys2Proof.Machine
end

section
namespace Sys2Proof.Machine

/-- Settles O51, clause by clause from what each step answers. -/
theorem systemStepsTakeEffect : Obligations.SystemStepsTakeEffect := by
  unfold Obligations.SystemStepsTakeEffect
  intro s pasid fn unit pa len master win hart a n wr ok id w bs v
  refine ⟨?teardown, ?response, ?timeout, ?freed, ?window, ?hostRefused, ?hartRefused, ?hostAccess, ?reset, ?refused, ?root, ?limit,
    ?limitRange, ?readOnly⟩
  case teardown =>
    intro hd hl
    exact ⟨_, execPasidTeardown_noLaunch hd hl, rfl, rfl, rfl, fun e => dyingQueues_dying⟩
  case response => exact execTranslationResponse_counted
  case timeout =>
    intro hd ht
    have h := execTeardownTimeout_counted hd ht
    exact ⟨fun ha => by rw [ha] at h; exact h, fun ha => by rw [ha] at h; exact h⟩
  case freed => exact execTeardownTimeout_frees
  case window =>
    intro hw
    exact if_neg (Nat.not_le.2 hw)
  case hostRefused =>
    intro ha
    rw [exec_hostAccessDenied, execHostAccessDenied, ha, hostDenied_eq]
    rfl
  case hartRefused =>
    intro ha
    rw [exec_hartDenied, execHartDenied, ha]
    rfl
  case hostAccess =>
    intro hok hfn hend hu
    have h : HostReach s fn unit pa len := ⟨hok, hfn, hend, hu⟩
    exact ⟨fun hl => ⟨h.writes hl, h.write_refused hl⟩, h.reads, h.read_refused⟩
  case reset => exact ⟨_, rfl, rfl, rfl, rfl, rfl, rfl, rfl, rfl, rfl, rfl, chargeBatches_hostMem _⟩
  case refused => exact fun r b => execRegisterWrite_refused v
  case root =>
    intro ha h
    rw [exec_registerWrite, execRegisterWrite_admitted v h, regPut_asidRoot v ha]
  case limit =>
    intro lo hi h
    rw [exec_registerWrite, execRegisterWrite_admitted v h, regPut_blockedLimit, if_pos ⟨lo, hi⟩]
  case limitRange =>
    intro out h
    rw [exec_registerWrite, execRegisterWrite_admitted v h, regPut_blockedLimit, if_neg (by omega)]
  case readOnly => exact fun r => execRegisterWrite_readOnly r n v

end Sys2Proof.Machine
end

section
/-!
SUPPORT. O53: the instructions of the Encoding family together, and the way back from a word to its instruction (R39, R53, R59).
-/
namespace Sys2Proof.Laws.Encoding
open Sys2Proof

/-- A step of the machine is no instruction, so it is not well-formed. -/
theorem statement_of_isStep {i : Instr} (h : i.isStep = true) : Statement i := fun wf => by
  simp [WellFormed, h] at wf

/-- Every well-formed instruction has a 96-bit word that decodes to it, instruction by instruction (R53 to R58). -/
theorem wellFormed_encodes (i : Instr) : Statement i := by
  cases i with
  | iadd => apply iadd | isub => apply isub | imul => apply imul | imulh => apply imulh | imad => apply imad
  | imin => apply imin | imax => apply imax | iabs => apply iabs | ineg => apply ineg | and => apply and
  | or => apply or | xor => apply xor | andn => apply andn | not => apply not | shl => apply shl
  | shr => apply shr | sar => apply sar | rol => apply rol | popc => apply popc | clz => apply clz
  | ctz => apply ctz | brev => apply brev | bfx => apply bfx | bfi => apply bfi | lea => apply lea
  | mov => apply mov | movi => apply movi | sel => apply sel | icmp => apply icmp | fadd => apply fadd
  | fsub => apply fsub | fmul => apply fmul | ffma => apply ffma | fmin => apply fmin | fmax => apply fmax
  | fabs => apply fabs | fneg => apply fneg | fcmp => apply fcmp | fcls => apply fcls | fscl => apply fscl
  | frnd => apply frnd | frcp => apply frcp | frsq => apply frsq | fsqrt => apply fsqrt | fdiv => apply fdiv
  | fex2 => apply fex2 | flg2 => apply flg2 | ftrg => apply ftrg | ftnh => apply ftnh | ferf => apply ferf
  | fphi => apply fphi | fdot => apply fdot | cvt => apply cvt | cvts => apply cvts | pack => apply pack
  | unpk => apply unpk | qenc => apply qenc | qdec => apply qdec | plop => apply plop | pmov => apply pmov
  | ballot => apply ballot | vany => apply vany | vall => apply vall | shfl => apply shfl
  | bcst => apply bcst | redx => apply redx | scan => apply scan | matchx => apply matchx
  | elect => apply elect | bra => apply bra | brx => apply brx | call => apply call | ret => apply ret
  | rcv => apply rcv | exit => apply exit | nop => apply nop | yld => apply yld | trap => apply trap
  | eret => apply eret | iret => apply iret | srd => apply srd | swr => apply swr | sleep => apply sleep
  | brk => apply brk | mmov => apply mmov | mput => apply mput | mget => apply mget | madd => apply madd
  | msub => apply msub | mmul => apply mmul | mfma => apply mfma | mscl => apply mscl | mrlu => apply mrlu
  | mexp => apply mexp | msqr => apply msqr | mphi => apply mphi | mclp => apply mclp | mchk => apply mchk
  | lds => apply lds | sts => apply sts | ld => apply ld | st => apply st | ldb => apply ldb
  | stb => apply stb | pft => apply pft | fence => apply fence | rgn => apply rgn | drel => apply drel
  | tlbp => apply tlbp | tlbu => apply tlbu | xprb => apply xprb | tinv => apply tinv
  | atsAdd => apply atsAdd | atsMin => apply atsMin | atsMax => apply atsMax | atsAnd => apply atsAnd
  | atsOr => apply atsOr | atsXor => apply atsXor | atsExch => apply atsExch | atsCas => apply atsCas
  | atgAdd => apply atgAdd | atgMin => apply atgMin | atgMax => apply atgMax | atgAnd => apply atgAnd
  | atgOr => apply atgOr | atgXor => apply atgXor | atgExch => apply atgExch | atgCas => apply atgCas
  | grow => apply grow | shrk => apply shrk | tjoin => apply tjoin | tleave => apply tleave
  | tbar => apply tbar | lsyn => apply lsyn | xbi => apply xbi | xba => apply xba | xbe => apply xbe
  | xbw => apply xbw | xbt => apply xbt | cpy => apply cpy | gth => apply gth | sct => apply sct
  | qput => apply qput | qget => apply qget | mma => apply mma | mmas => apply mmas | mmam => apply mmam
  | azro => apply azro | ald => apply ald | ast => apply ast | amov => apply amov | mwt => apply mwt
  | mkm => apply mkm | mks => apply mks | mkc => apply mkc | mkp => apply mkp | mkl => apply mkl
  | mkn => apply mkn | mkr => apply mkr | mkw => apply mkw | mkt => apply mkt | hins => apply hins
  | wopn => apply wopn | wqt => apply wqt | vred => apply vred | vcmd => apply vcmd | omrk => apply omrk
  | coll => apply coll | csig => apply csig | swait => apply swait | rprt => apply rprt
  | _ => exact statement_of_isStep rfl

/-- The instruction that a word decodes to is well-formed: it is no step, and it passed the checks of R59. -/
theorem wellFormed_of_decode {w : Nat} {i : Instr} (hd : decode w = .ok i) : WellFormed i = true := by
  obtain ⟨names, -, -, hmod, hfield⟩ := decode_ok hd
  obtain ⟨-, -, noStep⟩ := skeleton_names names
  simp [WellFormed, noStep, hmod, hfield]

/-- The word of the instruction that a 96-bit word decodes to is that word: no bit of it is dropped (R39). -/
theorem encode_of_decode {w : Nat} {i : Instr} (hw : w < 2 ^ 96) (hd : decode w = .ok i) : encode i = some w := by
  obtain ⟨names, hmod, hlow, -, -⟩ := decode_ok hd
  obtain ⟨hhdr, hopc, -⟩ := skeleton_names names
  rw [encode_some hhdr, hopc, hmod, hlow, word_of_fields hw]

end Sys2Proof.Laws.Encoding
end

section
namespace Sys2Proof.Machine

/-- Settles O53: the way out by the Encoding family's lemma of each instruction, the way back by what a decoded word's fields are. -/
theorem decodeAndEncodeAgree : Obligations.DecodeAndEncodeAgree := by
  unfold Obligations.DecodeAndEncodeAgree
  refine ⟨Laws.Encoding.wellFormed_encodes, fun w i hw hd => ?_⟩
  exact ⟨Laws.Encoding.wellFormed_of_decode hd, Laws.Encoding.encode_of_decode hw hd⟩

end Sys2Proof.Machine
end

section
/-!
SUPPORT. O52: a word that the chapters write out is the encoding of its instruction, so it decodes to it (R39).
-/
namespace Sys2Proof.Machine

/-- The word that a well-formed instruction encodes to decodes to it. -/
theorem decodesTo_of_encode {w : Nat} {i : Instr} (wf : WellFormed i = true) (he : encode i = some w) : decodesTo w i = true := by
  obtain ⟨x, hx, -, hd⟩ := Laws.Encoding.wellFormed_encodes i wf
  obtain rfl : w = x := Option.some.inj (he.symm.trans hx)
  simp [decodesTo, hd]

/-- Settles O52: each word is its instruction's encoding, and the three others are refused by evaluation of the checks of R59. -/
theorem wordsDecodeAsTheChaptersSay : Obligations.WordsDecodeAsTheChaptersSay := by
  unfold Obligations.WordsDecodeAsTheChaptersSay
  intro h
  refine ⟨?_, ?_, ?_, ?_, ?_, ?_, ?_, ?_, ?_, ?_, ?_, ?_, by decide, by decide, by decide⟩
  all_goals exact decodesTo_of_encode (by decide) (by decide)

end Sys2Proof.Machine
end

section
/-!
SUPPORT. O54: what a fetch whose translations succeed hands to the step (R39, R40, R59).
-/
namespace Sys2Proof.Machine

/-- A fetch's translations change the dies only (R40, R304). -/
theorem fetchXlate_shape (s : State) (c asid pc : Nat) : ∃ ds, (fetchXlate s c asid pc).2 = { s with dies := ds } := by
  obtain ⟨ds, h⟩ := dieXlate_shape s c asid pc
  unfold fetchXlate
  split
  · next e s1 first =>
    rw [first] at h
    obtain rfl : s1 = { s with dies := ds } := h
    obtain ⟨ds2, h2⟩ := dieXlate_shape { s with dies := ds } c asid (pc + 11)
    split
    · next e2 s2 last =>
      rw [last] at h2
      exact ⟨ds2, h2⟩
    · exact ⟨ds2, h2⟩
  · exact ⟨ds, h⟩

/-- The cause of a word that fails a decoding check (R59, R456). -/
def checkCause : DecodeErr → BitVec 8
  | .illegalOpc => 0x01#8
  | .illegalMod => 0x02#8
  | .illegalField => 0x03#8

/-- The fragment's word lies in the text, and its translations succeed with permission to execute: `s1` is the state after them. -/
structure FetchReaches (s : State) (sid f : Nat) (st : Strand) (fr : Frag) (j : Job) (e : Tlb) (s1 : State) : Prop where
  strand : nmGet s.strands sid = some st
  frag : nmGet st.frags f = some fr
  job : s.job? st = some j
  inText : j.pcOk fr.pc.toNat = true
  translated : fetchXlate s st.core j.asid fr.pc.toNat = (.ok e, s1)
  executable : e.x = true

section
variable {s : State} {sid f : Nat} {st : Strand} {fr : Frag} {j : Job} {e : Tlb} {s1 : State} (r : FetchReaches s sid f st fr j e s1)
include r

theorem FetchReaches.dies : ∃ ds, s1 = { s with dies := ds } := by
  obtain ⟨ds, h⟩ := fetchXlate_shape s st.core j.asid fr.pc.toNat
  rw [r.translated] at h
  exact ⟨ds, h⟩

/-- A word that decodes is run in the state after the translations. -/
theorem FetchReaches.run {i : Instr} (hd : decode (j.word fr.pc) = .ok i) : fetch s sid f = .run i s1 := by
  obtain ⟨strand, frag, job, inText, translated, executable⟩ := r
  simp [fetch, strand, frag, job, inText, translated, executable, hd]

/-- A word that fails a decoding check raises that check's cause (R59). -/
theorem FetchReaches.refused {err : DecodeErr} (hd : decode (j.word fr.pc) = .error err) :
    fetch s sid f = .done (raiseUser { s1 with cur := none } sid f (checkCause err) none) := by
  obtain ⟨strand, frag, job, inText, translated, executable⟩ := r
  cases err <;> simp [fetch, strand, frag, job, inText, translated, executable, hd, checkCause]

end

/-- The step of an ISSUED fragment whose fetch gives an instruction is exec of it. -/
theorem step_of_run {s s1 : State} {sid f : Nat} {i : Instr} (hc : s.cur = some (sid, f)) (h : fetch s sid f = .run i s1) :
    step s = exec i s1 := by
  simp only [step, hc, h]

/-- The step of an ISSUED fragment that does not execute leads to the state that its fetch gives. -/
theorem step_of_done {s s1 : State} {sid f : Nat} (hc : s.cur = some (sid, f)) (h : fetch s sid f = .done s1) : step s = .next s1 := by
  simp only [step, hc, h]

/-- With no fragment ISSUED, the step is the next one that is set (log 1). -/
theorem step_of_agenda {s : State} {i : Instr} {rest : List Instr} (hc : s.cur = none) (ha : s.agenda = i :: rest) :
    step s = exec i { s with agenda := rest } := by
  simp only [step, hc, ha]

/-- Settles O54, from what the fetch gives in each case of the decoding. -/
theorem aStepRunsTheDecodedInstruction : Obligations.AStepRunsTheDecodedInstruction := by
  unfold Obligations.AStepRunsTheDecodedInstruction
  intro s sid f st fr j e s1 i rest
  refine ⟨fun hc hst hfr hj hpc hx he => ?_, step_of_agenda⟩
  have r : FetchReaches s sid f st fr j e s1 := ⟨hst, hfr, hj, hpc, hx, he⟩
  have refused : ∀ err, decode (j.word fr.pc) = .error err → step s = .next (raiseUser { s1 with cur := none } sid f (checkCause err) none) :=
    fun err hd => step_of_done hc (r.refused hd)
  exact ⟨r.dies, fun hd => step_of_run hc (r.run hd), by simpa only [checkCause] using refused .illegalOpc,
    by simpa only [checkCause] using refused .illegalMod, by simpa only [checkCause] using refused .illegalField⟩

end Sys2Proof.Machine
end

section
/-!
SUPPORT. O26: the mode check of issue (R59), and TINV under it (R315).
-/
namespace Sys2Proof.Machine

/-- A privileged instruction of a user job ends the job with PRIV_OPC once nothing that it waits for is pending (R59, R456). -/
theorem issue_privileged {h : Hdr} {u : Uses} {s : State} {sid f : Nat} {st : Strand} {fr : Frag} {j : Job} (body : Ctx → State → Out)
    (hc : s.cur = some (sid, f)) (hst : nmGet s.strands sid = some st) (hfr : nmGet st.frags f = some fr) (hj : s.job? st = some j)
    (user : j.user = true) (priv : u.priv = true) (untracked : u.tracked = false)
    (waits : (h.wsb && st.marked (u.reads ++ u.writes ++ guardRefs h)) = false) :
    issue h u s body = .next (endJobAt { s with cur := none } sid f 0x05#8 []) := by
  have hj' : State.job? { s with cur := none } st = some j := hj
  rw [guardRefs] at waits
  simp only [issue, hc, hst, hfr, issueChecks, waits, priv, untracked, hj', user, supOut, Bool.false_and, Bool.true_and, Option.map_some,
    Option.getD_some, Bool.false_eq_true, if_false, if_true]

/-- Settles O26: TINV is privileged, so the mode check ends a user job before its body runs. -/
theorem tinvIsPrivileged : Obligations.TinvIsPrivileged := by
  unfold Obligations.TinvIsPrivileged
  intro h d a b s sid f st fr j hc hst hfr hj user waits
  rw [exec_tinv]
  refine issue_privileged _ hc hst hfr hj user rfl rfl ?_
  simpa [uses] using waits

end Sys2Proof.Machine
end

section
/-!
SUPPORT. O19: the new values of an integer atomic (R236).
-/
namespace Sys2Proof.Machine

variable {ty : Ty} {old b : Nat}

theorem isInt_ne_f32 (h : ty.isInt = true) : (ty == .f32) = false := by
  have other : ty ≠ .f32 := by
    rintro rfl
    cases h
  simpa using other

/-- A minimum keeps the old encoding unless the operand is less (R236). -/
theorem atomNew_min (c : Nat) (h : ty.isInt = true) :
    (atomNew 1 ty old b c).1 = if intRead ty b < intRead ty old then b % 2 ^ ty.width else old := by
  simp only [atomNew, isInt_ne_f32 h]
  rcases Int.lt_trichotomy (intRead ty old) (intRead ty b) with less | equal | more
  · simp [less, Int.ne_of_lt less, Int.not_lt.2 (Int.le_of_lt less)]
  · simp [equal]
  · simp [more, Int.ne_of_gt more, Int.not_lt.2 (Int.le_of_lt more)]

/-- A maximum keeps the old encoding unless the operand is greater (R236). -/
theorem atomNew_max (c : Nat) (h : ty.isInt = true) :
    (atomNew 2 ty old b c).1 = if intRead ty old < intRead ty b then b % 2 ^ ty.width else old := by
  simp only [atomNew, isInt_ne_f32 h]
  rcases Int.lt_trichotomy (intRead ty old) (intRead ty b) with less | equal | more
  · simp [less, Int.ne_of_lt less]
  · simp [equal]
  · simp [Int.ne_of_gt more, Int.not_lt.2 (Int.le_of_lt more)]

/-- A choice between the operand and the old encoding fits the type. -/
theorem chosen_lt {p : Prop} [Decidable p] (ho : old < 2 ^ ty.width) : (if p then b % 2 ^ ty.width else old) < 2 ^ ty.width := by
  split
  · exact Nat.mod_lt _ (Nat.two_pow_pos _)
  · exact ho

/-- Settles O19: the logical operations, the exchange and the compare-and-swap by definition, the ordered ones by comparison. -/
theorem atomicNewValues : Obligations.AtomicNewValues := by
  unfold Obligations.AtomicNewValues
  intro ty old b c int _ fits
  have add : atomNew 0 ty old b c = ((old + b) % 2 ^ ty.width, flNone) := by simp [atomNew, isInt_ne_f32 int]
  refine ⟨add, atomNew_min c int, atomNew_max c int, rfl, rfl, rfl, rfl, rfl, ?_, ?_⟩
  · rw [atomNew_min c int]
    exact chosen_lt fits
  · rw [atomNew_max c int]
    exact chosen_lt fits

end Sys2Proof.Machine
end

section
/-!
SUPPORT. O12 and O13: the branches' outcomes by their targets and acting threads (R40, R42, R156, R157, R160).
-/
namespace Sys2Proof.Machine

variable {h : Hdr} {u : Uses} {s : State} {st : Strand} {c : Ctx} {j : Job}

/-! ## The job of the issued fragment -/

/-- Deciding the uncovered reads of R48 leaves the strand's job. -/
theorem Strand.settle_job (st : Strand) (ctr : Nat) (rs : List RegRef) : (st.settle ctr rs).1.job = st.job := by
  obtain ⟨r, sp, ps, e⟩ := st.settle_shape rs ctr
  rw [e]

/-- So does putting results on it (R43). -/
theorem Strand.result_job (st : Strand) (f win lat : Nat) (marks : List RegRef) (ws : List Write) (fl : Flags) (mfl : Bool) :
    (st.result f win lat marks ws fl mfl).job = st.job := by
  unfold Strand.result
  split
  · obtain ⟨r, sp, ps, e⟩ := st.landIf_shape fun p => !p.tracked && p.names marks
    rw [e]
  · rfl

theorem issued_job (I : Issues h u s st c) : (issued h u s st c).job? c.st = s.job? st := by
  rw [I.settled]
  exact congrArg (nmGet s.jobs) (st.settle_job _ _)

@[simp] theorem issued_strand : nmGet (issued h u s st c).strands c.sid = some c.st := nmGet_nmSet_self _ _ _

/-! ## Branches -/

/-- Under UNI, a leader whose guard is 0 goes to the next word (R42, R157). -/
theorem branchUni_idle (s : State) (pc : Nat) (marks : List RegRef) (ws : List Write) (idle : c.acts h = []) :
    branchUni h c s pc marks ws = advance s c.sid c.f h := by
  simp [branchUni, idle]

/-- Under UNI, a leader that takes a branch to no word of the text raises PC_BAD (R40). -/
theorem branchUni_bad {pc : Nat} (marks : List RegRef) (ws : List Write) (hj : s.job? c.st = some j) (acting : c.acts h ≠ [])
    (bad : j.pcOk pc = false) : branchUni h c s pc marks ws = endJobAt s c.sid c.f 0x06#8 [] := by
  unfold branchUni
  split
  · next idle => exact absurd idle acting
  · simp [hj, bad]

/-- A branch to a word of the text moves the fragment (R40). -/
theorem branchTo_ok {sid f pc : Nat} (hs : nmGet s.strands sid = some st) (hj : s.job? st = some j) (ok : j.pcOk pc = true) :
    branchTo s sid f h pc = moveTo s sid f h (BitVec.ofNat 57 pc) := by
  simp only [branchTo, hs, hj, ok, if_true]

/-- Under UNI, a leader that takes a branch to a word of the text moves the fragment after CALL's writes (R157, R159). -/
theorem branchUni_moves {pc : Nat} (marks : List RegRef) (ws : List Write) (hs : nmGet s.strands c.sid = some c.st)
    (hj : s.job? c.st = some j) (acting : c.acts h ≠ []) (ok : j.pcOk pc = true) :
    branchUni h c s pc marks ws
      = moveTo (s.updStrand c.sid fun x => x.result c.f c.win 1 marks ws flNone false) c.sid c.f h (BitVec.ofNat 57 pc) := by
  unfold branchUni
  split
  · next idle => exact absurd idle acting
  · simp only [hj, ok, Bool.not_true, Bool.false_eq_true, if_false]
    refine branchTo_ok (by rw [State.strand_updStrand_self, hs]; rfl) ?_ ok
    rw [State.job?_updStrand, State.job?, Strand.result_job]
    exact hj

/-- A branch that some thread takes to no word of the text raises PC_BAD (R40). -/
theorem branch_bad {taken : List (Nat × Nat)} (marks : List RegRef) (ws : List Write) (hj : s.job? c.st = some j)
    (bad : ∃ e ∈ taken, j.pcOk e.2 = false) : branch h c s taken marks ws = endJobAt s c.sid c.f 0x06#8 [] := by
  have some_bad : (taken.all fun e => j.pcOk e.2) = false := by
    obtain ⟨e, he, hb⟩ := bad
    exact List.all_eq_false.2 ⟨e, he, by simp [hb]⟩
  simp [branch, hj, some_bad]

/-! ## The branch instructions as issued -/

/-- BRA under UNI is its leader's (R42). -/
theorem execBra_uni {off : BitVec 24} (I : Issues h (uses [] []) s st c) (uni : h.uni = true) :
    execBra h off s = .next (branchUni h c (issued h (uses [] []) s st c) (litTarget c.fr.pc off) [] []) := by
  rw [execBra, issue_of_issues I]
  simp [uni]

section
variable (hj : s.job? st = some j)
include hj

theorem issued_job_eq (I : Issues h u s st c) : (issued h u s st c).job? c.st = some j := (issued_job I).trans hj

theorem regTarget_issued (I : Issues h u s st c) (a : Opnd) (t : Nat) :
    regTarget (issued h u s st c) c a t = j.base + c.st.r.src .n32 t a := by
  simp [regTarget, issued_job_eq hj I]

/-- CALL under UNI is its leader's, with the return offset for D (R42, R159). -/
theorem execCall_uni {d : Opnd} {off : BitVec 24} (I : Issues h (uses (refsOf d false) []) s st c) (uni : h.uni = true) :
    execCall h d off s = .next (branchUni h c (issued h (uses (refsOf d false) []) s st c) (litTarget c.fr.pc off) (refsOf d false)
      (c.dst h d .n32 ((c.acts h).map fun t => (t, c.fr.pc.toNat + 12 - j.base)))) := by
  rw [execCall, issue_of_issues I]
  simp [uni, issued_job_eq hj I]

/-- BRX and RET under UNI go to the leader's target (R42, R157). -/
theorem branchReg_uni {a : Opnd} (I : Issues h (uses [] (refsOf a false)) s st c) (uni : h.uni = true) :
    branchReg h a s = .next (branchUni h c (issued h (uses [] (refsOf a false)) s st c)
      (j.base + c.st.r.src .n32 ((c.leader).getD 0) a) [] []) := by
  rw [branchReg, issue_of_issues I]
  simp [uni, regTarget_issued hj I]

/-- BRX and RET without UNI take each acting thread to its own target (R157). -/
theorem branchReg_each {a : Opnd} (I : Issues h (uses [] (refsOf a false)) s st c) (each : h.uni = false) :
    branchReg h a s = .next (branch h c (issued h (uses [] (refsOf a false)) s st c)
      ((c.acts h).map fun t => (t, j.base + c.st.r.src .n32 t a)) [] []) := by
  rw [branchReg, issue_of_issues I]
  simp [each, regTarget_issued hj I]

/-- BRA to a bad literal target raises PC_BAD, under UNI only for a leader that takes it (R40, log 67). -/
theorem execBra_bad {off : BitVec 24} (I : Issues h (uses [] []) s st c) (bad : j.pcOk (litTarget c.fr.pc off) = false)
    (taken : h.uni = false ∨ c.acts h ≠ []) :
    execBra h off s = .next (endJobAt (issued h (uses [] []) s st c) c.sid c.f 0x06#8 []) := by
  cases uni : h.uni with
  | true =>
    have acting : c.acts h ≠ [] := taken.resolve_left (by simp [uni])
    rw [execBra_uni I uni, branchUni_bad _ _ (issued_job_eq hj I) acting bad]
  | false =>
    rw [execBra, issue_of_issues I]
    simp [uni, issued_job_eq hj I, bad, supOut]

/-- So does CALL (R40, log 67). -/
theorem execCall_bad {d : Opnd} {off : BitVec 24} (I : Issues h (uses (refsOf d false) []) s st c)
    (bad : j.pcOk (litTarget c.fr.pc off) = false) (taken : h.uni = false ∨ c.acts h ≠ []) :
    execCall h d off s = .next (endJobAt (issued h (uses (refsOf d false) []) s st c) c.sid c.f 0x06#8 []) := by
  cases uni : h.uni with
  | true =>
    have acting : c.acts h ≠ [] := taken.resolve_left (by simp [uni])
    rw [execCall_uni hj I uni, branchUni_bad _ _ (issued_job_eq hj I) acting bad]
  | false =>
    rw [execCall, issue_of_issues I]
    simp [uni, issued_job_eq hj I, bad, supOut]

/-- RCV to a bad literal target raises PC_BAD in every form (R160). -/
theorem execRcv_bad {off : BitVec 24} (I : Issues h (uses [] []) s st c) (bad : j.pcOk (litTarget c.fr.pc off) = false) :
    execRcv h off s = .next (endJobAt (issued h (uses [] []) s st c) c.sid c.f 0x06#8 []) := by
  rw [execRcv, issue_of_issues I]
  simp [issued_job_eq hj I, bad, supOut]

/-- BRX and RET under UNI to a bad target of the leader raise PC_BAD (R40). -/
theorem branchReg_uni_bad {a : Opnd} (I : Issues h (uses [] (refsOf a false)) s st c) (uni : h.uni = true) (acting : c.acts h ≠ [])
    (bad : j.pcOk (j.base + c.st.r.src .n32 ((c.leader).getD 0) a) = false) :
    branchReg h a s = .next (endJobAt (issued h (uses [] (refsOf a false)) s st c) c.sid c.f 0x06#8 []) := by
  rw [branchReg_uni hj I uni, branchUni_bad _ _ (issued_job_eq hj I) acting bad]

/-- BRX and RET without UNI to a bad target of some acting thread raise PC_BAD (R40). -/
theorem branchReg_each_bad {a : Opnd} (I : Issues h (uses [] (refsOf a false)) s st c) (each : h.uni = false)
    (bad : ∃ t ∈ c.acts h, j.pcOk (j.base + c.st.r.src .n32 t a) = false) :
    branchReg h a s = .next (endJobAt (issued h (uses [] (refsOf a false)) s st c) c.sid c.f 0x06#8 []) := by
  rw [branchReg_each hj I each, branch_bad _ _ (issued_job_eq hj I)]
  obtain ⟨t, ht, hb⟩ := bad
  exact ⟨_, List.mem_map_of_mem ht, hb⟩

end

end Sys2Proof.Machine
end

section
namespace Sys2Proof.Machine

/-- Settles O12: each branch under UNI is branchUni with its target, which moves on or moves the fragment by the leader's guard. -/
theorem uniformBranchesMoveTheFragment : Obligations.UniformBranchesMoveTheFragment := by
  unfold Obligations.UniformBranchesMoveTheFragment
  intro h off d a s st c j uni hj none' callU regU stay move lit reg link
  refine ⟨fun I => ⟨fun idle => ?_, fun acting ok => ?_⟩, fun I => ⟨fun idle => ?_, fun acting ok => ?_⟩,
    fun I => ⟨fun idle => ?_, fun acting ok => ?_⟩⟩
  · rw [exec_bra, execBra_uni I uni, branchUni_idle _ _ _ _ idle]
  · rw [exec_bra, execBra_uni I uni, branchUni_moves _ _ issued_strand (issued_job_eq hj I) acting ok]
    rfl
  · rw [exec_call, execCall_uni hj I uni, branchUni_idle _ _ _ _ idle]
  · rw [exec_call, execCall_uni hj I uni, branchUni_moves _ _ issued_strand (issued_job_eq hj I) acting ok]
    rfl
  · have falls : branchReg h a s = .next (stay regU) := by rw [branchReg_uni hj I uni, branchUni_idle _ _ _ _ idle]
    exact ⟨falls, falls⟩
  · have moves : branchReg h a s = .next (move regU [] reg) := by
      rw [branchReg_uni hj I uni, branchUni_moves _ _ issued_strand (issued_job_eq hj I) acting ok]
      rfl
    exact ⟨moves, moves⟩

/-- Settles O13, by the outcome of each branch and of RCV at a bad target. -/
theorem badBranchTargetsRaisePcBad : Obligations.BadBranchTargetsRaisePcBad := by
  unfold Obligations.BadBranchTargetsRaisePcBad
  intro h off d a s st c j hj bad reg
  refine ⟨fun out => ⟨fun I => ⟨execRcv_bad hj I out, execBra_bad hj I out⟩, fun I => execCall_bad hj I out⟩, fun I => ⟨?each, ?uni⟩⟩
  case each =>
    intro each out
    have ends := branchReg_each_bad hj I each out
    exact ⟨ends, ends⟩
  case uni =>
    intro uni acting out
    have ends := branchReg_uni_bad hj I uni acting out
    exact ⟨ends, ends⟩

end Sys2Proof.Machine
end

section
/-!
SUPPORT. O4: what a floating instruction of one, two or three sources computes for its threads (R116, R117, R127 to R134).
-/
namespace Sys2Proof.Machine

variable {i : Instr} {h : Hdr} {u : Uses} {ty : Ty} {x2 : Bool} {lat : Nat} {d a : Opnd} {src : Srcs}

/-! ## Results per thread -/

/-- One value with flags per acting thread (R117). -/
theorem valRes_eachF (c : Ctx) (h : Hdr) (d : Opnd) (ty : Ty) (g : Nat → Nat × Flags) :
    valRes c h d ty g = .ok (eachF c h d ty g).ws (eachF c h d ty g).fl (eachF c h d ty g).mfl := by
  simp [valRes, mapActs, eachF, List.map_map, Function.comp_def]

/-- One value per acting thread, without flags. -/
theorem valRes0_each (c : Ctx) (h : Hdr) (d : Opnd) (ty : Ty) (g : Nat → Nat) :
    valRes0 c h d ty g = .ok (each c h d ty g).ws (each c h d ty g).fl (each c h d ty g).mfl := rfl

/-- A fixed-latency instruction of values with flags does what its values say (R43). -/
theorem does_eachF {g : Ctx → Nat → Nat × Flags} (e : ∀ s, exec i s = laneOp h lat u s fun c => valRes c h d ty (g c)) :
    Does i h u lat fun c => eachF c h d ty (g c) :=
  fun s _ c I => does_of I (e s) (valRes_eachF c h d ty (g c))

/-- A fixed-latency instruction of values without flags does what its values say (R43). -/
theorem does_each {g : Ctx → Nat → Nat} (e : ∀ s, exec i s = laneOp h lat u s fun c => valRes0 c h d ty (g c)) :
    Does i h u lat fun c => each c h d ty (g c) :=
  fun s _ c I => does_of I (e s) (valRes0_each c h d ty (g c))

/-- A tracked instruction of values with flags does what its values say (R44). -/
theorem doesT_eachF {g : Ctx → Nat → Nat × Flags} (tracked : u.tracked = true)
    (e : ∀ s, exec i s = laneOpT h u s fun c => valRes c h d ty (g c)) : DoesT i h u fun c => eachF c h d ty (g c) :=
  fun s _ c I => doesT_of I (e s) tracked (valRes_eachF c h d ty (g c))

/-! ## The shapes of the floating instructions -/

/-- The first source of a floating instruction with a wide form, a constant in both halves of an .x2 form (R53, R129). -/
def flFst (ty : Ty) (x2 : Bool) (src : Srcs) (x : Nat) : Nat :=
  match src with
  | .two a _ => dupHalf ty x2 a x
  | .wide _ => x

/-- The second source, which the literal of a wide form is (R53, R129). -/
def flSnd (ty : Ty) (x2 : Bool) (src : Srcs) (x : Nat) : Nat :=
  match src with
  | .two _ b => dupHalf ty x2 b x
  | .wide _ => dupHalf ty x2 (.g 0#16) x

/-- A floating instruction of two sources `x` and `y`, in both halves of an .x2 form (R128 to R130). -/
theorem does_flBin {x y : Ctx → Nat → Nat} (g : W64 → Nat → Nat → Rounded)
    (hx : ∀ c t, x c t = flFst ty x2 src (c.st.r.srcs ty t d src).1) (hy : ∀ c t, y c t = flSnd ty x2 src (c.st.r.srcs ty t d src).2)
    (e : ∀ s, exec i s = flBin h ty x2 lat d src s g) :
    Does i h (uses (refsOf d (ty.width = 64)) (srcRefs src d (ty.width = 64))) lat fun c => eachF c h d ty fun t =>
      flApply ty x2 (fun j u v _ => g (c.key t j) u v) (x c t) (y c t) 0 := by
  refine does_eachF fun s => (e s).trans ?_
  simp only [hx, hy]
  cases src <;> rfl

/-- A floating instruction of one source (R130, R132, R133). -/
theorem does_flUn (g : W64 → Nat → Rounded) (e : ∀ s, exec i s = flUn h ty x2 lat d a s g) :
    Does i h (uses (refsOf d (ty.width = 64)) (refsOf a (ty.width = 64))) lat fun c => eachF c h d ty fun t =>
      flApply ty x2 (fun j u _ _ => g (c.key t j) u) (c.st.r.src ty t a) 0 0 :=
  does_eachF e

/-- A tracked floating instruction of one source (R128, R133). -/
theorem doesT_flUnT (g : W64 → Nat → Rounded) (e : ∀ s, exec i s = flUnT h ty d a s g) :
    DoesT i h (usesT (refsOf d (ty.width = 64)) (refsOf a (ty.width = 64))) fun c => eachF c h d ty fun t =>
      flApply ty false (fun j u _ _ => g (c.key t j) u) (c.st.r.src ty t a) 0 0 :=
  doesT_eachF rfl e

/-- The latency of the additions and products (R56). -/
theorem addLat_eq (ty : Ty) : addLat ty = if ty = .f64 then 5 else 3 := by simp [addLat]

/-- The sign inverted: its bit's weight added or taken away (R130). -/
def signFlipped (ty : Ty) (u : Nat) : Rounded :=
  { bits := if u < 2 ^ (ty.width - 1) then u + 2 ^ (ty.width - 1) else u - 2 ^ (ty.width - 1), fl := flNone }

/-- FNEG adds the sign bit's weight below it, and takes it away at and above it (R130). -/
theorem execFneg_eq (h : Hdr) (ty : Ty) (x2 : Bool) (d a : Opnd) (s : State) :
    execFneg h ty x2 d a s = flUn h ty x2 1 d a s fun _ => signFlipped ty := by
  simp only [execFneg, signW, ← Nat.not_lt, ite_not]
  rfl

end Sys2Proof.Machine
end

section
namespace Sys2Proof.Machine

/-- Settles O4: each instruction has one of the shapes above, with its operation of R127 to R134. -/
theorem floatInstructionResults : Obligations.FloatInstructionResults := by
  unfold Obligations.FloatInstructionResults
  intro h ty rnd sat x2 cos cnd d a b src w f add two ops one oneT x y p bin un
  have add_eq : addLat ty = add := addLat_eq ty
  have hx : ∀ c t, x c t = flFst ty x2 src (c.st.r.srcs ty t d src).1 := fun c t => by cases src <;> rfl
  have hy : ∀ c t, y c t = flSnd ty x2 src (c.st.r.srcs ty t d src).2 := fun c t => by cases src <;> rfl
  refine ⟨?fadd, ?fsub, ?fmul, ?ffma, does_flBin (fun _ => fMinMax f false) hx hy fun _ => rfl,
    does_flBin (fun _ => fMinMax f true) hx hy fun _ => rfl, does_flUn (fun _ u => { bits := u % signW ty, fl := flNone }) fun _ => rfl,
    does_flUn (fun _ => signFlipped ty) fun s => execFneg_eq h ty x2 d a s, does_eachF fun _ => rfl, does_each fun _ => rfl, does_eachF fun _ => rfl,
    does_flUn (fRnd f rnd) fun _ => rfl, does_flUn (fun _ => fRcp f) fun _ => rfl, does_flUn (fun _ => fRsq f) fun _ => rfl,
    does_flUn (fun _ => fEx2 ty) fun _ => rfl, does_flUn (fun _ => fLg2 ty) fun _ => rfl, does_eachF fun _ => rfl,
    doesT_flUnT (fSqrt f rnd) fun _ => rfl, doesT_eachF rfl fun _ => rfl, doesT_flUnT (fun _ => fTrg ty cos) fun _ => rfl,
    doesT_flUnT (fun _ => fTnh ty) fun _ => rfl, doesT_flUnT (fun _ => fErf ty) fun _ => rfl, doesT_flUnT (fun _ => fPhi ty) fun _ => rfl⟩
  case fadd => rw [← add_eq]; exact does_flBin (fun k => fAdd f rnd sat k false) hx hy fun _ => rfl
  case fsub => rw [← add_eq]; exact does_flBin (fun k => fAdd f rnd sat k true) hx hy fun _ => rfl
  case fmul => rw [← add_eq]; exact does_flBin (fun k => fMul f rnd sat k) hx hy fun _ => rfl
  case ffma => rw [← add_eq]; exact does_eachF fun _ => rfl

end Sys2Proof.Machine
end

section
/-!
SUPPORT. O59 asks for the entry in every state in which the cause is to be delivered, but R355 has an entry wait that finds no room in
its core's transaction table: a core whose table is full refutes it.
-/
namespace Sys2Proof.Machine

/-- An entry whose save area finds no room in the transaction table waits: its fragment is STALLED with the cause, and nothing else
changes (R80, R355). -/
theorem raiseUser_areaWaits {s : State} {sid f : Nat} {st : Strand} (cause : BitVec 8) (hst : nmGet s.strands sid = some st)
    (handler : st.sp.evec ≠ 0#57) (untracked : st.anyTracked = false) (steady : st.abort = none) (outside : st.inHandler f = false)
    (free : st.sp.hstate = 0#2) (full : areaWaits s st = true) :
    raiseUser s sid f cause none = s.updFrag sid f fun fr => { fr with st := .stalled, wait := .trap cause none } := by
  simp [raiseUser, hst, handler, untracked, steady, outside, free, full]

/-- A strand with a handler at the second word of its text and a save area at 0x8000. -/
def handlerStrand : Strand := { loadedStrand with sp := { Spec.reset with evec := 12#57, tsave := 0x8000#57 } }

/-- A loaded machine with that strand, whose core has all 256 entries of its transaction table in use. -/
def crowdedState : State := ((placeWord State.reset 0).updStrand 1 fun _ => handlerStrand).updCore 0 fun x => { x with ott := 256 }

theorem crowdedState_waits : areaWaits crowdedState handlerStrand = true := by decide +kernel

/-- The strand has buffered nothing, so its region end goes through. -/
theorem crowdedState_endRegion : endRegion (crowdedState.updStrand 1 Strand.landFixed) 1 0 handlerStrand.sp.evec none
    = (committed (crowdedState.updStrand 1 Strand.landFixed) 1 0 handlerStrand.sp.evec, true) :=
  endRegion_sound (st := handlerStrand.landFixed) rfl fun _ he => nomatch he

/-- The save area of the strand is mapped. -/
theorem crowdedState_area : (areaPieces (committed (crowdedState.updStrand 1 Strand.landFixed) 1 0 handlerStrand.sp.evec)
    handlerStrand.landFixed true).isSome = true := by decide +kernel

/-- Refutes O59: its hypotheses leave out the wait for room in the core's transaction table. With all entries in use the fragment is
STALLED and %ecause keeps its value. -/
theorem not_trapEntrySavesAndRedirects : ¬ Obligations.TrapEntrySavesAndRedirects := by
  unfold Obligations.TrapEntrySavesAndRedirects
  rintro ⟨entry, -⟩
  obtain ⟨ps, area⟩ := Option.isSome_iff_exists.1 crowdedState_area
  obtain ⟨t, y, -, entered, strand, -, ecause, -⟩ := entry crowdedState 1 0 0x20#8 handlerStrand _ (loadedJob 0) _ ps rfl rfl rfl
    (by decide) rfl rfl rfl (by decide +kernel) crowdedState_endRegion area
  have waits := raiseUser_areaWaits (sid := 1) (f := 0) (st := handlerStrand) 0x20#8 (s := crowdedState) rfl (by decide) rfl rfl rfl rfl
    crowdedState_waits
  rw [← entered, waits, State.strand_updFrag_self] at strand
  obtain rfl : handlerStrand.updFrag 0 _ = y := Option.some.inj strand
  exact absurd ecause (by decide)

end Sys2Proof.Machine
end

section
/-!
SUPPORT. O57 asks that the strand's special record stay but for the sticky flags; the record also names the fragment that goes on in a
handler (R164), and the fusion that moving on may complete renames it (R67): a handler's fragment that joins a lower entry refutes it.
-/
namespace Sys2Proof.Machine

/-- A fragment that waits at the record of `handlerJoins`, with the low half of the threads. -/
def waitingFrag : Frag :=
  { fid := 0, mask := 0x0000FFFF#32, pc := 12#57, st := .joinwait, gap := 0, rix := some 0, evt := 0#64, wait := .none, rgn := 12#57,
    since := 0, rel := none }

/-- The fragment that entered the handler, one word before the record, with the other half. -/
def handlerFrag : Frag := { waitingFrag with fid := 1, mask := 0xFFFF0000#32, pc := 0#57, st := .ready }

/-- A strand whose fragment 1 is in the %evec handler and about to meet fragment 0 at their record. -/
def handlerJoins : Strand :=
  { loadedStrand with
    sp := { Spec.reset with hstate := 1#2, hfrag := some 1 }
    frags := [(0, waitingFrag), (1, handlerFrag)]
    recs := [(0, { pc := 12#57, mask := 0xFFFFFFFF#32, parent := none })] }

/-- A loaded machine in which fragment 1 of that strand is ISSUED. -/
def joiningState : State := { (placeWord State.reset 0).updStrand 1 fun _ => handlerJoins with cur := some (1, 1) }

/-- An unguarded header. -/
def plainHdr : Hdr := { gn := false, gp := 7#3, stall := 1#3, yld := false, ks := false, kd := false, wsb := false, hx := false, uni := false }

/-- The view of the issued fragment. -/
def joiningCtx : Ctx :=
  { sid := 1, f := 1, st := handlerJoins, fr := handlerFrag, win := joiningState.now handlerJoins, kb := joiningState.keyBase handlerJoins }

theorem joiningState_issues : Issues plainHdr (uses [] []) joiningState handlerJoins joiningCtx :=
  ⟨rfl, rfl, rfl, rfl, rfl, rfl, rfl, rfl, rfl, rfl, rfl, rfl⟩

/-- An instruction without results that the fragment executes leaves the handler to the fused fragment, entry 0. -/
theorem joiningState_renames : ((nmGet (laneState plainHdr (uses [] []) 1 joiningState handlerJoins joiningCtx ⟨[], flNone, false⟩).strands
    joiningCtx.sid).map fun y => y.sp.hfrag) = some (some 0) := by decide +kernel

/-- Refutes O57: the fusion that follows the instruction renames the handler's fragment in the strand's special record. -/
theorem not_laneInstructionsKeepTheRest : ¬ Obligations.LaneInstructionsKeepTheRest := by
  unfold Obligations.LaneInstructionsKeepTheRest
  rintro ⟨frame, -⟩
  obtain ⟨-, -, y, strand, -, -, -, -, -, special, -⟩ := frame plainHdr (uses [] []) 1 joiningState handlerJoins joiningCtx
    ⟨[], flNone, false⟩ _ joiningState_issues (.inl rfl) (fun _ hw => nomatch hw)
  have renamed := joiningState_renames
  rw [strand] at renamed
  have kept : y.sp.hfrag = some 1 := congrArg Spec.hfrag special
  exact absurd ((Option.some.inj renamed).symm.trans kept) (by decide)

end Sys2Proof.Machine
end

section
/-!
SUPPORT. O30: the steps of a core's lanes, under the conditions of their rules (R204, R206, R69, R169).
-/
namespace Sys2Proof.Machine

variable {s : State} {c lane sid f : Nat}

/-! ## The turn of the lanes -/

/-- Before lane 15 only the core's turn moves on (log 1). -/
theorem passLane_before (h : (s.core c).laneTurn < 15) :
    passLane s c = s.updCore c fun z => { z with laneTurn := (s.core c).laneTurn + 1 } := by
  simp [passLane, Nat.ne_of_lt h]

/-- After lane 15 the next core's lanes choose (log 1). -/
theorem passLane_last (h : (s.core c).laneTurn = 15) :
    passLane s c = { s.updCore c fun z => { z with laneTurn := (s.core c).laneTurn + 1 } with turn := nextCoreOf s c } := by
  simp [passLane, h, nextCoreOf]

/-! ## ISSUE_SELECT -/

/-- What is due at once comes first (R204, R206). -/
theorem execIssueSelect_held (held : windowHeld s c = true) : execIssueSelect c s = .next s := by
  simp [execIssueSelect, held]

section
variable (core : c < coreCount) (free : windowHeld s c = false)
include core free

/-- A core whose 16 lanes have chosen ends its window (R45). -/
theorem execIssueSelect_window (ended : 16 ≤ (s.core c).laneTurn) : execIssueSelect c s = .next (tickWindow s c) := by
  simp [execIssueSelect, free, Nat.not_le.2 core, ended]

/-- A lane that picks a fragment issues it (R206). -/
theorem execIssueSelect_some {x : Cand} (turn : (s.core c).laneTurn < 16) (pick : lanePick s c (s.core c).laneTurn = some x) :
    execIssueSelect c s = .next (passLane { s with cur := some (x.sid, x.f) } c) := by
  simp [execIssueSelect, free, Nat.not_le.2 core, Nat.not_le.2 turn, pick]

/-- A lane that picks none passes (R206). -/
theorem execIssueSelect_none (turn : (s.core c).laneTurn < 16) (pick : lanePick s c (s.core c).laneTurn = none) :
    execIssueSelect c s = .next (passLane s c) := by
  simp [execIssueSelect, free, Nat.not_le.2 core, Nat.not_le.2 turn, pick]

end

/-! ## The active set, TRAPWAIT and sleeps -/

/-- The head of a lane's queue enters where it can (R204). -/
theorem execActiveSetEntry_due {rest : List Nat} (queue : laneQueue s c lane = sid :: rest) (due : entryDue s c lane = true) :
    execActiveSetEntry c lane s = .next (enter (poolIdle (setQueue s c lane rest) c lane) sid) := by
  simp [execActiveSetEntry, queue, due]

/-- The earliest entrant gives its place to the head of the queue (R204). -/
theorem execActiveSetDisplacement_due {rest : List Nat} {old : Nat × Strand} (queue : laneQueue s c lane = sid :: rest)
    (first : earliest (laneActive s c lane) = some old) (due : displacementDue s c lane = true) :
    execActiveSetDisplacement c lane s = .next (enter (((setQueue s c lane (rest ++ [old.1])).updCore c fun y =>
      { y with disp := nmDel y.disp lane }).updStrand old.1 (Strand.pool (s.core c).window)) sid) := by
  simp [execActiveSetDisplacement, queue, first, due]

section
variable {st : Strand} {fr : Frag} (hst : nmGet s.strands sid = some st) (hfr : nmGet st.frags f = some fr) (resident : st.resident = true)
include hst hfr resident

/-- A TRAPWAIT fragment is ISSUED again when the save area is free, as its lane's choice (R69, R80, R167). -/
theorem execTrapwaitRetry_free (waits : fr.st = .trapwait) (free : st.sp.hstate = 0#2) (idle : s.cur = none)
    (turn : (s.core st.core).laneTurn = st.lane) :
    execTrapwaitRetry sid f s
      = .next { passLane (s.updFrag sid f fun x => { x with st := .ready, wait := .none }) st.core with cur := some (sid, f) } := by
  simp [execTrapwaitRetry, hst, hfr, resident, waits, free, idle, turn]

/-- A sleep that has run down ends (R169). -/
theorem execSleepExpire_over (ended : fr.wait = .sleep 0) : execSleepExpire sid f s = .next (unblock s sid f) := by
  simp [execSleepExpire, hst, hfr, resident, ended]

end

end Sys2Proof.Machine
end

section
namespace Sys2Proof.Machine

/-- Settles O30, step by step. -/
theorem laneStepsTakeEffect : Obligations.LaneStepsTakeEffect := by
  unfold Obligations.LaneStepsTakeEffect
  intro s c lane sid f x rest st fr turn passed
  refine ⟨execIssueSelect_held, execIssueSelect_window, fun core free early => ⟨fun pick => ?issues, fun pick => ?passes⟩,
    fun core free last pick => ?last, execActiveSetEntry_due, fun old => execActiveSetDisplacement_due,
    fun hst hfr resident => ⟨fun waits free idle at_ lane => ?retries, execSleepExpire_over hst hfr resident⟩⟩
  case issues =>
    exact (execIssueSelect_some core free (Nat.lt_succ_of_lt early) pick).trans (congrArg _ (passLane_before early))
  case passes =>
    exact (execIssueSelect_none core free (Nat.lt_succ_of_lt early) pick).trans (congrArg _ (passLane_before early))
  case last =>
    have at15 : (s.core c).laneTurn = 15 := last
    exact (execIssueSelect_some core free (by omega) (at15 ▸ pick)).trans (congrArg _ (passLane_last at15))
  case retries =>
    have before : ((s.updFrag sid f fun y => { y with st := .ready, wait := .none }).core st.core).laneTurn < 15 := by
      rw [State.core_updFrag]
      omega
    rw [exec_trapwaitRetry, execTrapwaitRetry_free hst hfr resident waits free idle at_, passLane_before before, State.core_updFrag, at_]

end Sys2Proof.Machine
end

section
/-!
SUPPORT. O31 gives the state after a result without an access as its registers, flags and mark, and the fragments that wait for marks; a
fragment that a load of a sparse page holds goes on too when the scoreboard entry it waits for lands (R234), which refutes it.
-/
namespace Sys2Proof.Machine

/-- A fragment that is held at its instruction until entry 0 of the scoreboard lands. -/
def lineFrag : Frag :=
  { fid := 0, mask := 0xFFFFFFFF#32, pc := 0#57, st := .blocked, gap := 0, rix := none, evt := 0#64, wait := .line 0 false, rgn := 0#57,
    since := 0, rel := none }

/-- A tracked result without an access, as entry 0 of the scoreboard. -/
def plainPend : Pend :=
  { id := 0, frag := 0, pc := 0#57, mask := 0xFFFFFFFF#32, due := none, ok := true, marks := [], writes := [], fl := flNone, mfl := false,
    op := .none }

/-- A strand with that fragment and that entry. -/
def lineStrand : Strand := { loadedStrand with frags := [(0, lineFrag)], pend := [plainPend] }

/-- A loaded machine with that strand. -/
def lineState : State := { (placeWord State.reset 0).updStrand 1 fun _ => lineStrand with cur := none }

/-- The state that O31 gives after the landing. -/
def lineLanded : State :=
  afterLand (lineState.updStrand 1 fun y =>
    { y with r := y.r.wrAll plainPend.writes, sp := y.sp.addFlags plainPend.fl plainPend.mfl, pend := y.pend.filter fun q => q.id != 0 }) 1

/-- The step lands the entry, and the fragment goes on at the next word. -/
theorem lineState_goesOn : (nmGet (landPend lineState 1 lineStrand plainPend).strands 1).map (fun y => y.fragPc 0) = some 12#57 := by
  decide +kernel

/-- In the state that O31 gives the fragment is still held. -/
theorem lineLanded_held : (nmGet lineLanded.strands 1).map (fun y => y.fragPc 0) = some 0#57 := by decide +kernel

/-- Refutes O31: it leaves out the fragments that are held until the landing entry. -/
theorem not_trackedResultsLand : ¬ Obligations.TrackedResultsLand := by
  unfold Obligations.TrackedResultsLand
  intro claim
  obtain ⟨lands, -⟩ := claim lineState 1 0 0 lineStrand plainPend
    { t := 0, ps := [], dec := .raw .b32, b := 0#64, c := 0#64 } rfl (by decide) rfl
  have landed : Host.Outcome.next (landPend lineState 1 lineStrand plainPend) = .next lineLanded := lands rfl rfl
  have same : landPend lineState 1 lineStrand plainPend = lineLanded := by injection landed
  have moved := lineState_goesOn
  rw [same, lineLanded_held] at moved
  exact absurd moved (by decide)

end Sys2Proof.Machine
end

section
/-!
SUPPORT. O16: the way out of a handler (R79, R83, R164).
-/
namespace Sys2Proof.Machine

variable {h : Hdr} {s s1 : State} {st st1 : Strand} {c : Ctx} {j : Job} {pc : VAddr} {ps : List Piece}

/-- ERET skips the trapping instruction but for the causes that resume at it (R164, R458). -/
theorem eretSkips_iff {cause : BitVec 8} : eretSkips cause = true
    ↔ cause ∉ [0x04#8, 0x07#8, 0x20#8, 0x43#8, 0x45#8, 0x61#8, 0x62#8, 0x65#8, 0x84#8] := by
  rw [eretSkips, Bool.not_eq_true', ← Bool.not_eq_true, List.contains_iff_mem]

/-- ERET's target, as a choice between %epc and the word after it (R164). -/
theorem eretTarget_eq {cause : BitVec 8} (epc : VAddr) : (if eretSkips cause then epc + 12#57 else epc)
    = if cause ∈ [0x04#8, 0x07#8, 0x20#8, 0x43#8, 0x45#8, 0x61#8, 0x62#8, 0x65#8, 0x84#8] then epc else epc + 12#57 := by
  simp only [eretSkips_iff, ite_not]

/-- A return to a word of the text goes through once the region has ended and the save area is mapped (R79, R83). -/
theorem leaveHandler_returned (hs : nmGet s.strands c.sid = some st) (hj : s.job? st = some j) (ok : j.pcOk pc.toNat = true)
    (ended : endRegion s c.sid c.f pc none = (s1, true)) (hs1 : nmGet s1.strands c.sid = some st1)
    (area : areaPieces s1 st false = some ps) (set : Spec → Spec) :
    leaveHandler s c.sid c.f pc set h = returned h s1 st1 c ps pc set := by
  simp only [leaveHandler, hs, hj, ok, ended, hs1, area, Bool.not_true, Bool.false_eq_true, if_false]
  rfl

section
variable (I : Issues h (uses [] []) s st c)
include I

/-- ERET in its handler, with no mark pending, leaves it (R83, R164). -/
theorem execEret_leaves (inside : c.st.sp.hstate.getLsbD 0 = true) (mine : c.st.sp.hfrag = some c.f) (quiet : c.st.anyTracked = false) :
    execEret h s = .next (leaveHandler (issued h (uses [] []) s st c) c.sid c.f
      (if eretSkips c.st.sp.hcause then c.st.sp.epc + 12#57 else c.st.sp.epc)
      (fun sp => { sp with hstate := sp.hstate &&& 2#2, hfrag := none }) h) := by
  have guard : (c.st.sp.hstate.getLsbD 0 == false || c.st.sp.hfrag != some c.f) = false := by
    rw [inside, mine, bne_self_eq_false]
    rfl
  rw [execEret, issue_of_issues I]
  simp only [guard, quiet, Bool.false_eq_true, if_false]

/-- So does IRET, to %uepc (R83, R164). -/
theorem execIret_leaves (inside : c.st.sp.hstate.getLsbD 1 = true) (mine : c.st.sp.ufrag = some c.f) (quiet : c.st.anyTracked = false) :
    execIret h s = .next (leaveHandler (issued h (uses [] []) s st c) c.sid c.f c.st.sp.uepc
      (fun sp => { sp with hstate := sp.hstate &&& 1#2, ufrag := none }) h) := by
  have guard : (c.st.sp.hstate.getLsbD 1 == false || c.st.sp.ufrag != some c.f) = false := by
    rw [inside, mine, bne_self_eq_false]
    rfl
  rw [execIret, issue_of_issues I]
  simp only [guard, quiet, Bool.false_eq_true, if_false]

/-- ERET outside a trap handler raises RETURN_STATE (R164). -/
theorem execEret_outside (outside : c.st.sp.hstate.getLsbD 0 = false ∨ c.st.sp.hfrag ≠ some c.f) :
    execEret h s = .next (endJobAt (issued h (uses [] []) s st c) c.sid c.f 0x08#8 []) := by
  have guard : (c.st.sp.hstate.getLsbD 0 == false || c.st.sp.hfrag != some c.f) = true := by
    simpa only [Bool.or_eq_true, beq_iff_eq, bne_iff_ne] using outside
  rw [execEret, issue_of_issues I]
  simp only [guard, if_true, supOut]

/-- IRET outside a user handler raises RETURN_STATE (R164). -/
theorem execIret_outside (outside : c.st.sp.hstate.getLsbD 1 = false ∨ c.st.sp.ufrag ≠ some c.f) :
    execIret h s = .next (endJobAt (issued h (uses [] []) s st c) c.sid c.f 0x08#8 []) := by
  have guard : (c.st.sp.hstate.getLsbD 1 == false || c.st.sp.ufrag != some c.f) = true := by
    simpa only [Bool.or_eq_true, beq_iff_eq, bne_iff_ne] using outside
  rw [execIret, issue_of_issues I]
  simp only [guard, if_true, supOut]

end

/-- Settles O16: in its handler each instruction leaves it to its target, and the return goes through; elsewhere its first check fails. -/
theorem handlerReturns : Obligations.HandlerReturns := by
  unfold Obligations.HandlerReturns
  refine ⟨fun h s st c j pc s1 st1 ps I hj quiet ok ended hs1 area => ?_,
    fun h s st c I => ⟨execEret_outside I, execIret_outside I⟩⟩
  have returns := leaveHandler_returned (h := h) issued_strand (issued_job_eq hj I) ok ended hs1 area
  refine ⟨fun inside mine target => ?eret, fun inside mine target => ?iret⟩
  case eret => rw [exec_eret, execEret_leaves I inside mine quiet, eretTarget_eq, ← target, returns]
  case iret => rw [exec_iret, execIret_leaves I inside mine quiet, ← target, returns]

end Sys2Proof.Machine
end

section
/-!
SUPPORT. O17: what SRD reads and SWR writes (R76, R77, R165, R166).
-/
namespace Sys2Proof.Machine

variable {h : Hdr} {s : State} {st : Strand} {c : Ctx} {b64 : Bool}

/-- Issue leaves what a special register reads as (R76). -/
theorem sregVal_issued (u : Uses) (r : SReg) (t : Nat) : sregVal (issued h u s st c) c r t = sregVal s c r t := by
  cases r
  case cycle => exact congrArg (· % 2 ^ 64) (issued_core_cycle c.st.core)
  all_goals rfl

/-- What SRD gives thread t: its value of the register, or the leader's into a uniform destination, of 32 or 64 bits (R165). -/
def srdVal (s : State) (c : Ctx) (r : SReg) (b64 : Bool) (d : Opnd) (t : Nat) : Nat :=
  let x := sregVal s c r (match d with | .k _ => c.leader.getD 0 | _ => t)
  if b64 then x else x % 2 ^ 32

/-- SRD of a special register writes these values (R165). -/
theorem execSrd_reads {r : SReg} {d : Opnd} (I : Issues h (uses (refsOf d b64) []) s st c) :
    execSrd h b64 d (.s r) s = .next (laneState h (uses (refsOf d b64) []) 2 s st c
      (each c h d (if b64 then .b64 else .b32) (srdVal (issued h (uses (refsOf d b64) []) s st c) c r b64 d))) := by
  have unchanged : srdVal (issued h (uses (refsOf d b64) []) s st c) c r b64 d = srdVal s c r b64 d := by
    funext t
    simp only [srdVal, sregVal_issued]
  rw [execSrd, unchanged]
  exact laneOp_does I 2 _ rfl

/-- SWR with an acting thread writes the leader's value and moves on (R166). -/
theorem execSwr_writes {r : SReg} {a : Opnd} (I : Issues h (uses [] (refsOf a b64)) s st c) (acting : c.acts h ≠ []) :
    execSwr h b64 (.s r) a s = .next (advance ((issued h (uses [] (refsOf a b64)) s st c).updStrand c.sid fun x =>
      { x with sp := x.sp.write r (c.st.r.src (if b64 then .b64 else .b32) (c.leader.getD 0) a) }) c.sid c.f h) := by
  rw [execSwr, issue_of_issues I]
  obtain ⟨t, ts, threads⟩ := List.exists_cons_of_ne_nil acting
  simp only [threads, swrVal]

/-- A read-only register takes no write (R76). -/
theorem Spec.write_readOnly (sp : Spec) (x : Nat) :
    ∀ r ∈ [SReg.tid, .sidx, .bsize, .bidx, .bidy, .bidz, .lane, .core, .module, .slot, .job, .mask, .dmask, .fmask, .xmask, .valloc,
           .kalloc, .malloc, .aalloc, .cycle, .tsave, .hstate], sp.write r x = sp := by
  simp only [List.forall_mem_cons, Spec.write, List.not_mem_nil, false_implies, implies_true, and_self]

/-- Settles O17: SRD and SWR by what they do when issued, each writable register's write by its definition. -/
theorem specialRegisters : Obligations.SpecialRegisters := by
  unfold Obligations.SpecialRegisters
  refine ⟨fun h r b64 d a s st c => ⟨execSrd_reads, execSwr_writes⟩, fun sp x => ?_⟩
  exact ⟨rfl, rfl, rfl, rfl, rfl, rfl, rfl, rfl, rfl, rfl, rfl, rfl, rfl, rfl, rfl, sp.write_readOnly x⟩

end Sys2Proof.Machine
end

section
/-!
SUPPORT. O32: user interrupts, thread deaths and failed fetches as steps (R71, R81, R82, R307).
-/
namespace Sys2Proof.Machine

variable {s s1 : State} {sid f t : Nat} {st : Strand} {fr : Frag} {i : UInt} {rest : List UInt}

/-- A READY fragment takes an interrupt (R82). -/
theorem Frag.takesInt_of_ready (ready : fr.st = .ready) : fr.takesInt = true := by
  simp only [Frag.takesInt, ready]

/-- With no tracked mark pending, delivery waits for none (log 47). -/
theorem anyOther_tracked_false (quiet : st.anyTracked = false) (mine : Option Nat) :
    (st.pend.any fun p => p.tracked && some p.id != mine) = false := by
  rw [Strand.anyTracked, List.any_eq_false] at quiet
  refine List.any_eq_false.2 fun p hp => ?_
  simp only [quiet p hp, Bool.false_and, Bool.false_eq_true, not_false_eq_true]

/-- A fragment at an instruction boundary, of a strand that runs no handler and waits for nothing, to which an interrupt goes. -/
structure TakesInterrupt (s : State) (sid : Nat) (st : Strand) (fid f : Nat) (fr : Frag) : Prop where
  strand : nmGet s.strands sid = some st
  resident : st.resident = true
  target : st.intFrag fid = some f
  frag : nmGet st.frags f = some fr
  outside : st.sp.hstate = 0#2
  ready : fr.st = .ready
  idle : s.cur = none
  quiet : st.anyTracked = false
  sound : st.abort = none
  room : areaWaits s st = false

section
variable (hst : nmGet s.strands sid = some st)
include hst

/-- Without a handler the oldest held completion is discarded (R81). -/
theorem execUserInterrupt_discards (held : st.held = i :: rest) (noHandler : st.sp.uvec = 0#57) :
    execUserInterrupt sid s = .next (s.updStrand sid fun x => { x with held := rest }) := by
  simp only [execUserInterrupt, hst, held, noHandler, if_true]

/-- The death of a live thread switches it off, at the PC of its fragment (R71). -/
theorem execThreadDead_kills (resident : st.resident = true) (inRange : t < 32) (live : st.sp.live t = true) :
    execThreadDead sid t s
      = .next (killThreads s sid (maskOf [t]) (((st.frags.find? fun e => inMask e.2.mask t).map (·.2.pc)).getD 0#57)) := by
  simp only [execThreadDead, hst, resident, live, Nat.not_le.2 inRange, Bool.not_true, Bool.false_eq_true, or_self, if_false]

/-- A READY fragment whose fetch page-faults stops (R307). -/
theorem execFetchFault_stops (resident : st.resident = true) (hfr : nmGet st.frags f = some fr) (ready : fr.st = .ready)
    (idle : s.cur = none) (fault : fetchXlate s st.core (s.asid st) fr.pc.toNat = (.pageFault, s1)) :
    execFetchFault sid f s = .next (stopFetch s1 sid f (fetchVa s1 st.core (s.asid st) fr.pc.toNat) st) := by
  simp only [execFetchFault, hst, hfr, ready, resident, idle, fault, Option.bind_some, Option.map_some, bne_self_eq_false, Bool.not_true,
    Option.isSome_none, Bool.or_self, Bool.false_eq_true, if_false]

end

/-- The oldest held completion enters the handler at %uvec, with the PC in %uepc and its status and tag in k56 (R81, R82). -/
theorem TakesInterrupt.delivered (T : TakesInterrupt s sid st i.frag f fr) (held : st.held = i :: rest) (handler : st.sp.uvec ≠ 0#57) :
    execUserInterrupt sid s = .next (dropRlb (enterHandler s sid f st.sp.uvec fun x y =>
      { x with held := rest, sp := { x.sp with uepc := y.pc, hstate := x.sp.hstate ||| 2#2, ufrag := some f },
               r := { x.r with k := spPut x.r.k 56 (w64n (i.status.toNat * 2 ^ 56 + i.tag.toNat)) } }) st.core .module) := by
  obtain ⟨strand, resident, target, frag, outside, ready, idle, quiet, sound, room⟩ := T
  have notBlocked : (FragSt.ready == FragSt.blocked) = false := rfl
  have notIssued : ((none : Option (Nat × Nat)) == some (sid, f)) = false := rfl
  simp only [execUserInterrupt, strand, held, handler, target, frag, outside, Frag.takesInt_of_ready ready, resident, idle, sound, room,
    anyOther_tracked_false quiet, ready, notBlocked, notIssued, Option.bind_some, Option.map_some, Option.isSome_none, Bool.not_true,
    Bool.false_eq_true, ne_eq, not_true_eq_false, or_self, if_false]

/-- Settles O32, step by step. -/
theorem interruptsDeathsAndFetchFaults : Obligations.InterruptsDeathsAndFetchFaults := by
  unfold Obligations.InterruptsDeathsAndFetchFaults
  intro s sid t f st fr i rest s1 hst resident
  refine ⟨execUserInterrupt_discards hst, fun held handler target frag outside ready idle quiet sound room => ?delivered,
    execThreadDead_kills hst resident, execFetchFault_stops hst resident⟩
  case delivered =>
    have T : TakesInterrupt s sid st i.frag f fr := ⟨hst, resident, target, frag, outside, ready, idle, quiet, sound, room⟩
    exact T.delivered held handler

end Sys2Proof.Machine
end

section
/-!
SUPPORT. O23: LDB and STB by the format of the page (R107 to R111, R114, R230 to R233).
-/
namespace Sys2Proof.Machine

variable {h : Hdr} {s s1 : State} {st : Strand} {c : Ctx}

/-! ## Starting an access -/

/-- Translating an access changes no strand (R304, R306). -/
theorem xlateElems_strands {wr : Bool} {xs : List Elem} {ps : List Place} (found : xlateElems s c wr xs = .inl (s1, ps)) :
    s1.strands = s.strands := by
  obtain ⟨cs, ds, rfl⟩ := xlateElems_shape xs s found
  rfl

/-- A load whose waits are over is in flight (R229, R333, R338, R340, R342, R355). -/
theorem startLoad_starts {d : Opnd} {marks : List RegRef} {accs : List Acc} (strand : nmGet s1.strands c.sid = some c.st) :
    LoadStarts (.next (startLoad h c s1 d marks none accs)) h c s1 d marks accs := by
  intro s2 ps sparse acquire strong signals room placed ended s3
  have waits : ¬((c.st.acquiring && !ps.all fun p => p.ord == 2) || (anyOrd 0 ps && c.st.strongBusy) ||
      sigPending s1 c.sid (accs.flatMap Acc.keys) || decide (256 ≤ ottUsed s1 c.st.core)) = true := by
    simp only [signals, Nat.not_le.2 room, Bool.or_false, Bool.not_eq_true, Bool.or_eq_false_iff, Bool.and_eq_false_imp,
      Bool.not_eq_eq_eq_not, Bool.not_false, List.all_eq_true, beq_iff_eq, decide_false]
    exact ⟨acquire, strong⟩
  have stays : ¬c.st.misplaced ps = true := Bool.eq_false_iff.1 placed
  simp only [startLoad, strand]
  rw [if_neg waits, if_neg stays]
  split at ended
  case isTrue onStrong =>
    obtain ⟨x, regionEnds, rfl⟩ := ended
    rw [if_pos onStrong, regionEnds]
    rfl
  case isFalse soft =>
    subst ended
    rw [if_neg soft]
    rfl

/-- With no stores left to buffer there is room (R324). -/
theorem rsbRoom_nil {f sid : Nat} (strand : nmGet s.strands sid = some st) : rsbRoom s sid f [] = (s, true) := by
  simp only [rsbRoom, strand]
  rfl

/-- Stores whose new entries fit the strand's and the core's shares enter (R320, R324). -/
theorem rsbRoom_fits {f sid : Nat} {reqs : List StoreReq} (strand : nmGet s.strands sid = some st)
    (share : st.rsb.length + st.needs reqs ≤ 64) (room : rsbUsed s st.core + st.needs reqs ≤ 16384) : rsbRoom s sid f reqs = (s, true) := by
  simp only [rsbRoom, strand, Nat.not_lt.2 share, Nat.not_lt.2 room, if_false, ite_self]

/-- A store whose waits are over enters the region store buffer, or passes it after the region end (R230, R320, R324, R333, R342). -/
theorem startStore_starts {fl : Flags} {mfl : Bool} {reqs : List StoreReq} :
    StoreStarts (.next (startStore h c s1 none fl mfl reqs)) h c s1 fl mfl reqs := by
  intro st s2 strand nonempty acquire apart signals placed fin
  have stays : ¬st.misplaced (reqs.map (·.p)) = true := Bool.eq_false_iff.1 placed
  have apart' : (reqs.any fun x => st.overlaps x.t x.p.keys) = false := by simpa using apart
  have signals' : sigPending s1 c.sid ((reqs.map (·.p)).flatMap Piece.keys) = false := by rwa [List.flatMap_map]
  simp only [startStore, strand, acquire, apart', signals', Bool.false_or]
  refine ⟨fun soft share room => ?buffered, fun strong free entry regionEnds => ?passed⟩
  case buffered =>
    have noneStrong : (reqs.filter fun x => x.p.ord == 0) = [] := by simpa using soft
    have allSoft : (reqs.filter fun x => x.p.ord != 0) = reqs := by simpa using soft
    simp only [noneStrong, allSoft, List.isEmpty_nil, Bool.not_true, Bool.false_and, Bool.false_eq_true, if_false, if_neg stays, if_true,
      rsbRoom_fits strand share room]
    rfl
  case passed =>
    have allStrong : (reqs.filter fun x => x.p.ord == 0) = reqs := by simpa using strong
    have noneSoft : (reqs.filter fun x => x.p.ord != 0) = [] := by simpa using strong
    have notEmpty : reqs.isEmpty = false := by simpa using nonempty
    obtain ⟨y, strand2, -⟩ := endRegion_frag strand regionEnds
    simp only [noneSoft, allStrong, notEmpty, free, Nat.not_le.2 entry, decide_false, Bool.or_false, Bool.and_false, Bool.false_eq_true,
      if_false, if_neg stays, regionEnds, rsbRoom_nil strand2]
    rfl

/-! ## The page of P and the places of the threads' elements -/

/-- The format of the page of P, once it is found (R231). -/
theorem pageFmt_of_pageOf {wr : Bool} {a : Opnd} {p : Place} (page : PageOf s c wr a s1 p) :
    pageFmt s c wr (c.leader.getD 0) (c.offset a 0) = .inl (s1, p.e.fmt) := by
  rw [pageFmt, page]
  rfl

/-- The threads' elements of n bytes translate, to pages of one format (R231). -/
def FoundOn (s : State) (c : Ctx) (wr : Bool) (fmt : Nat) (ts : List Nat) (n : Nat) (g : Nat → Nat) (s1 : State) (ps : List Place) : Prop :=
  xlateElems s c wr (ts.map fun t => { t := t, va := g t % 2 ^ 64, len := n }) = .inl (s1, ps) ∧ ∀ p ∈ ps, p.e.fmt = fmt

/-- Aligned elements that are found on pages of the format pass its check (R227, R231). -/
theorem FoundOn.places {wr : Bool} {fmt n w : Nat} {ts : List Nat} {g : Nat → Nat} {ps : List Place} (found : FoundOn s c wr fmt ts n g s1 ps)
    (aligned : ∀ t ∈ ts, g t % 2 ^ 64 % w = 0) :
    fmtPlaces s c wr w fmt (ts.map fun t => { t := t, va := g t % 2 ^ 64, len := n }) = .inl (s1, ps) := by
  obtain ⟨translated, formats⟩ := found
  have inPlace : ((ts.map fun t => ({ t := t, va := g t % 2 ^ 64, len := n } : Elem)).any fun x => x.va % w != 0) = false := by
    simpa using aligned
  have good : (ps.any fun p => p.e.fmt != fmt) = false := by simpa using formats
  simp only [fmtPlaces, gblPlaces, inPlace, translated, good, Bool.false_eq_true, if_false]

/-! ## LDB by the format of the page -/

/-- What a load holds of a thread: its places, and how their bytes are decoded. -/
def loadAcc (t : Nat) (ps : List Piece) (dec : Dec) : Acc := { t := t, ps := ps, dec := dec, b := 0#64, c := 0#64 }

/-- What a Q format says of its page: it is neither PLAIN nor M32, lies at 2 MiB, and LDB reads words and three float types (R232). -/
theorem qFmt_page {fmt : Nat} (q : qFmt fmt = true) : fmt ≠ 0 ∧ fmt ≠ 6 ∧ fmtAlign fmt = 2 ^ 21 ∧
    ∀ ty, ldbPair fmt ty = (ty == .f32 || ty == .f16 || ty == .g16 || ty == .b32) := by
  obtain (rfl | rfl) | rfl : (fmt = 1 ∨ fmt = 2) ∨ fmt = 3 := by simpa [qFmt] using q
  all_goals exact ⟨by decide, by decide, by decide, fun _ => rfl⟩

/-- The registers that LDB uses: it writes D, and the result is tracked (R44, R232). -/
abbrev ldbUses (ty : Ty) (d a b : Opnd) : Uses := usesT (refsOf d (ty.width = 64)) (refsOf a false ++ refsOf b false)

section
variable {ty : Ty} {d a b : Opnd} {s0 : State} {p0 : Place} {ps : List Place}
variable (I : Issues h (ldbUses ty d a b) s st c) (acting : c.memActs h [d] ≠ [])
variable (page : PageOf (issued h (ldbUses ty d a b) s st c) c false a s0 p0)
include I acting page

/-- LDB on a PLAIN page loads each thread's element (R232). -/
theorem execLdb_plain (plain : p0.e.fmt = 0)
    (aligned : ∀ t ∈ c.memActs h [d], (c.offset a 0 + c.elemIx b t * tyBytes ty) % 2 ^ 64 % tyBytes ty = 0)
    (found : FoundOn s0 c false 0 (c.memActs h [d]) (tyBytes ty) (fun t => c.offset a 0 + c.elemIx b t * tyBytes ty) s1 ps) :
    execLdb h ty d a b s = .next (startLoad h c s1 d (refsOf d (ty.width = 64)) none (ps.map fun p => loadAcc p.t [p.p] (.raw ty))) := by
  obtain ⟨t, ts, threads⟩ := List.exists_cons_of_ne_nil acting
  have places := found.places aligned
  rw [threads] at places
  rw [execLdb, issue_of_issues I]
  simp only [threads, pageFmt_of_pageOf page, plain, ldbPair, qFmt, fmtAlign, Nat.mod_one, places]
  rfl

/-- LDB on an M32 page loads each thread's moment (R114, R232). -/
theorem execLdb_m32 (m32 : p0.e.fmt = 6) (moment : ty = .m64) (aligned : c.offset a 0 % 4 = 0)
    (found : FoundOn s0 c false 6 (c.memActs h [d]) 4 (fun t => c.offset a 0 + 4 * c.elemIx b t) s1 ps) :
    execLdb h ty d a b s = .next (startLoad h c s1 d (refsOf d (ty.width = 64)) none (ps.map fun p => loadAcc p.t [p.p] .m32)) := by
  obtain ⟨t, ts, threads⟩ := List.exists_cons_of_ne_nil acting
  have places := found.places fun t _ => Nat.mod_one _
  rw [threads] at places
  subst moment
  rw [execLdb, issue_of_issues I]
  simp only [threads, pageFmt_of_pageOf page, m32, ldbPair, qFmt, fmtAlign, aligned, places]
  rfl

/-- LDB on a sparse page, whose lines hold `per` elements of `size` bytes, loads the line of each thread's element (R111, R232). -/
theorem execLdb_sparse {per size : Nat} (sparse : p0.e.fmt = 4 ∧ (ty = .g8 ∨ ty = .i8 ∨ ty = .n8) ∧ size = 1 ∧ per = 192 ∨
      p0.e.fmt = 5 ∧ (ty = .f16 ∨ ty = .g16 ∨ ty = .i16 ∨ ty = .n16) ∧ size = 2 ∧ per = 96)
    (aligned : c.offset a 0 % 128 = 0)
    (found : FoundOn s0 c false p0.e.fmt (c.memActs h [d]) 128 (fun t => c.offset a 0 + 128 * (c.elemIx b t / per)) s1 ps) :
    execLdb h ty d a b s = .next (startLoad h c s1 d (refsOf d (ty.width = 64)) none
      (ps.map fun p => loadAcc p.t [p.p] (.sp size (c.elemIx b p.t % per) ty))) := by
  obtain ⟨t, ts, threads⟩ := List.exists_cons_of_ne_nil acting
  have places := found.places fun t _ => Nat.mod_one _
  rw [threads] at places
  obtain ⟨notPlain, notM32, notQ, line, elems⟩ : p0.e.fmt ≠ 0 ∧ p0.e.fmt ≠ 6 ∧ qFmt p0.e.fmt = false ∧ fmtAlign p0.e.fmt = 128 ∧
      (if p0.e.fmt = 4 then 192 else 96) = per := by
    obtain ⟨fmt, -, -, rfl⟩ | ⟨fmt, -, -, rfl⟩ := sparse <;> rw [fmt] <;> decide
  obtain ⟨pair, bytes⟩ : ldbPair p0.e.fmt ty = true ∧ tyBytes ty = size := by
    obtain ⟨fmt, rfl | rfl | rfl, rfl, -⟩ | ⟨fmt, rfl | rfl | rfl | rfl, rfl, -⟩ := sparse <;> rw [fmt] <;> decide
  rw [execLdb, issue_of_issues I]
  simp only [threads, pageFmt_of_pageOf page, pair, notPlain, notM32, notQ, line, aligned, elems, bytes, places, Bool.not_true, Bool.false_and,
    Bool.or_self, Bool.false_eq_true, ne_eq, not_true_eq_false, if_false]
  rfl

section
variable {p1 : Place} (q : qFmt p0.e.fmt = true) (aligned : c.offset a 0 % 2 ^ 21 = 0) (run : PageOf s0 c false a s1 p1)
include q aligned run

/-- LDB of words on a Q page loads each thread's bytes of the leader's record (R108, R232). -/
theorem execLdb_record (words : ty = .b32) (inPage : c.elemIx b (c.leader.getD 0) < qRecords (qOf p0.e.fmt)) :
    execLdb h ty d a b s = .next (startLoad h c s1 d (refsOf d (ty.width = 64)) none ((c.memActs h [d]).map fun t =>
      let n := qLen (qOf p0.e.fmt)
      loadAcc t [Place.run p1 (c.offset a 0) (4096 + c.elemIx b (c.leader.getD 0) * n + min (4 * t) n) (min 4 (n - 4 * t))] (.raw .b32))) := by
  obtain ⟨t, ts, threads⟩ := List.exists_cons_of_ne_nil acting
  obtain ⟨notPlain, notM32, align, pair⟩ := qFmt_page q
  have outside : ((t :: ts).any fun _ => decide (qRecords (qOf p0.e.fmt) ≤ c.elemIx b (c.leader.getD 0))) = false := by
    simp [inPage]
  subst words
  rw [execLdb, issue_of_issues I]
  simp only [threads, pageFmt_of_pageOf page, pair, q, notPlain, align, aligned, outside, beq_self_eq_true, Bool.or_true, if_true]
  rw [run]
  rfl

/-- LDB of a float type on a Q page loads each thread's element: its block's scale and its record (R108, R110, R232). -/
theorem execLdb_element (float : ty = .f32 ∨ ty = .f16 ∨ ty = .g16)
    (inPage : ∀ t ∈ c.memActs h [d], c.elemIx b t / 64 < qRecords (qOf p0.e.fmt)) :
    execLdb h ty d a b s = .next (startLoad h c s1 d (refsOf d (ty.width = 64)) none ((c.memActs h [d]).map fun t =>
      let n := qLen (qOf p0.e.fmt)
      let record := c.elemIx b t / 64
      loadAcc t [Place.run p1 (c.offset a 0) (4 * (record / 256)) 4, Place.run p1 (c.offset a 0) (4096 + record * n) n]
        (.qel (qOf p0.e.fmt) (c.elemIx b t % 64) ty))) := by
  obtain ⟨t, ts, threads⟩ := List.exists_cons_of_ne_nil acting
  obtain ⟨notPlain, notM32, align, pair⟩ := qFmt_page q
  have outside : ((t :: ts).any fun t => decide (qRecords (qOf p0.e.fmt) ≤ c.elemIx b t / 64)) = false := by
    rw [threads] at inPage
    simpa using inPage
  have notWords : (ty == .b32) = false := by obtain rfl | rfl | rfl := float <;> rfl
  have isPair : ldbPair p0.e.fmt ty = true := by rw [pair]; obtain rfl | rfl | rfl := float <;> rfl
  rw [execLdb, issue_of_issues I]
  simp only [threads, pageFmt_of_pageOf page, isPair, q, notPlain, align, aligned, notWords, outside, Bool.false_eq_true, if_true, if_false]
  rw [run]
  rfl

end

end

/-! ## STB by the format of the page -/

/-- The registers that STB uses: it reads D (R233). -/
abbrev stbUses (ty : Ty) (d a b : Opnd) : Uses := uses [] (refsOf d (ty.width = 64) ++ refsOf a false ++ refsOf b false)

/-- A strand after the uncovered reads of `hi` are decided, in its state (R48). -/
def readAlso (s : State) (c : Ctx) (hi : List RegRef) : State :=
  { s with strands := nmSet s.strands c.sid (c.st.settle s.freeCtr hi).1, freeCtr := (c.st.settle s.freeCtr hi).2 }

/-- The bytes of D's words in a record of n bytes, a thread's word where it acts (R233). -/
def recordBytes (r : Regs) (ts : List Nat) (v n : Nat) : List Byte :=
  (List.range n).map fun j => if j / 4 ∈ ts then BitVec.ofNat 8 ((r.rdV v (j / 4)).toNat / 2 ^ (8 * (j % 4))) else 0#8

/-- The 64 elements of an encoding STB, in v and v + 1, zero where the thread does not act (R109, R233). -/
def recordElems (r : Regs) (ts : List Nat) (ty : Ty) (v : Nat) : List Num :=
  (List.range 64).map fun j => if j % 32 ∈ ts then (fmtOf ty).dec ((r.rdV (v + j / 32) (j % 32)).toNat % 2 ^ ty.width) else .fin false 0 0

/-- The record that STB of a type makes, and its flags (R109, R233): the bytes of D's words, or the encoding of D's elements under
the scale at `at_`. -/
def recordOf (c : Ctx) (ty : Ty) (s : State) (st : Strand) (q : QFmt) (ts : List Nat) (at_ : Piece) (v : Nat) : List Byte × Flags :=
  if ty = .b32 then (recordBytes st.r ts v (qLen q), flNone)
  else qEncode q (leVal (loadPiece s st (c.leader.getD 0) at_)) (recordElems st.r ts ty v)

/-- What STB reads on a Q page beside its operands: the second register of an encoding (R233, log 70). -/
def alsoRead (ty : Ty) (v : BitVec 8) : List RegRef := if ty = .b32 then [] else [⟨.v, v.toNat + 1⟩]

section
variable {ty : Ty} {d a b : Opnd} {s0 : State} {p0 : Place} {ps : List Place}
variable (I : Issues h (stbUses ty d a b) s st c) (acting : c.memActs h [d] ≠ [])
variable (page : PageOf (issued h (stbUses ty d a b) s st c) c true a s0 p0)
include I acting page

/-- STB on a PLAIN page stores each thread's element (R233). -/
theorem execStb_plain (plain : p0.e.fmt = 0)
    (aligned : ∀ t ∈ c.memActs h [d], (c.offset a 0 + c.elemIx b t * tyBytes ty) % 2 ^ 64 % tyBytes ty = 0)
    (found : FoundOn s0 c true 0 (c.memActs h [d]) (tyBytes ty) (fun t => c.offset a 0 + c.elemIx b t * tyBytes ty) s1 ps) :
    execStb h ty d a b s = .next (startStore h c s1 none flNone false (ps.map fun p => { t := p.t, p := p.p, bs := c.stBytes ty p.t d })) := by
  obtain ⟨t, ts, threads⟩ := List.exists_cons_of_ne_nil acting
  have places := found.places aligned
  rw [threads] at places
  rw [execStb.eq_def, issue_of_issues I]
  simp only [threads, pageFmt_of_pageOf page, plain, places, if_true]

/-- STB on an M32 page stores each thread's moment, narrowed, where no variance fails or %ctl.vclamp replaces it (R114, R178, R180, R233). -/
theorem execStb_m32 (m32 : p0.e.fmt = 6) (moment : ty = .m64) (aligned : c.offset a 0 % 4 = 0)
    (found : FoundOn s0 c true 6 (c.memActs h [d]) 4 (fun t => c.offset a 0 + 4 * c.elemIx b t) s1 ps)
    (good : (ps.any fun p => (narrowM32 (c.st.r.src .m64 p.t d)).2.2) = true → c.st.sp.vclamp = true) :
    execStb h ty d a b s = .next (startStore h c s1 none (unionFlags (ps.map fun p => (narrowM32 (c.st.r.src .m64 p.t d)).2.1))
      (ps.any fun p => (narrowM32 (c.st.r.src .m64 p.t d)).2.2)
      (ps.map fun p => { t := p.t, p := p.p, bs := (narrowM32 (c.st.r.src .m64 p.t d)).1 })) := by
  obtain ⟨t, ts, threads⟩ := List.exists_cons_of_ne_nil acting
  have places := found.places fun t _ => Nat.mod_one _
  rw [threads] at places
  have noTrap : ((ps.any fun p => (narrowM32 (c.st.r.src .m64 p.t d)).2.2) && !c.st.sp.vclamp) = false := by
    simpa only [Bool.and_eq_false_imp, Bool.not_eq_false'] using good
  have notPlain : ¬6 = 0 := by decide
  subst moment
  rw [execStb.eq_def, issue_of_issues I]
  simp only [threads, pageFmt_of_pageOf page, m32, aligned, places, List.any_map, List.map_map, Function.comp_def, noTrap, beq_self_eq_true,
    Bool.and_self, decide_true, Bool.false_eq_true, notPlain, ne_eq, not_true_eq_false, if_true, if_false]

/-- STB on a Q page stores one record of the leader: D's words as given, or D's elements encoded under their block's scale (R109, R233). -/
theorem execStb_record {p1 : Place} {v : BitVec 8} (q : qFmt p0.e.fmt = true) (aligned : c.offset a 0 % 2 ^ 21 = 0)
    (inPage : c.elemIx b (c.leader.getD 0) < qRecords (qOf p0.e.fmt)) (run : PageOf s0 c true a s1 p1) (data : d = .v v)
    (pair : ty = .b32 ∨ ty = .f32 ∨ ty = .f16 ∨ ty = .g16 ∨ ty = .g8) (even : ty ≠ .b32 → v.toNat % 2 = 0)
    (unmarked : (h.wsb && c.st.marked (alsoRead ty v)) = false) (due : (c.st.sp.sbchk && c.st.short c.win h (alsoRead ty v)) = false) :
    execStb h ty d a b s = .next (
      let n := qLen (qOf p0.e.fmt)
      let i := c.elemIx b (c.leader.getD 0)
      let r := recordOf c ty (readAlso s1 c (alsoRead ty v)) (c.st.settle s1.freeCtr (alsoRead ty v)).1 (qOf p0.e.fmt) (c.memActs h [d])
        (Place.run p1 (c.offset a 0) (4 * (i / 256)) 4) v.toNat
      startStore h c (readAlso s1 c (alsoRead ty v)) none r.2 false
        [{ t := c.leader.getD 0, p := Place.run p1 (c.offset a 0) (4096 + i * n) n, bs := r.1 }]) := by
  obtain ⟨t, ts, threads⟩ := List.exists_cons_of_ne_nil acting
  obtain ⟨notPlain, notM32, align, -⟩ := qFmt_page q
  have taken : (ty == .b32 || ty == .f32 || ty == .f16 || ty == .g16 || ty == .g8) = true := by
    obtain rfl | rfl | rfl | rfl | rfl := pair <;> rfl
  have also : (if (ty == .b32 || v.toNat % 2 == 1) = true then [] else [⟨.v, v.toNat + 1⟩]) = alsoRead ty v := by
    by_cases words : ty = .b32
    · simp [alsoRead, words]
    · simp [alsoRead, words, even words]
  have evenPair : (ty != .b32 && v.toNat % 2 == 1) = false := by
    by_cases words : ty = .b32
    · simp [words]
    · simp [even words]
  have there : xlateElems s0 c true [{ t := c.leader.getD 0, va := c.offset a 0, len := 1 }] = .inl (s1, [p1]) := run
  subst data
  rw [execStb.eq_def, issue_of_issues I]
  simp only [threads, pageFmt_of_pageOf page, notPlain, notM32, q, align, aligned, taken, also, evenPair, unmarked, due, there, Nat.not_le.2 inPage,
    decide_false, Bool.false_and, Bool.and_true, Bool.or_self, Bool.false_eq_true, ne_eq, not_true_eq_false, if_true, if_false,
    List.contains_eq_mem, decide_eq_true_eq, beq_iff_eq]
  rfl

end

/-! ## Every page format -/

section
variable {ty : Ty} {d a b : Opnd}

/-- LDB starts the load of what its threads read, and no strand has changed before that (R232). -/
theorem execLdb_reads {accs : List Acc} (I : Issues h (ldbUses ty d a b) s st c)
    (reads : LdbReads h ty d a b (issued h (ldbUses ty d a b) s st c) c s1 accs) :
    execLdb h ty d a b s = .next (startLoad h c s1 d (refsOf d (ty.width = 64)) none accs) ∧
      s1.strands = (issued h (ldbUses ty d a b) s st c).strands := by
  obtain ⟨acting, s0, p0, page, reads⟩ := reads
  have before := xlateElems_strands page
  obtain ⟨plain, aligned, ps, found, formats, rfl⟩ | ⟨q, aligned, p1, run, record⟩ | ⟨m32, moment, aligned, ps, found, formats, rfl⟩ |
    ⟨line, types, aligned, ps, found, formats, rfl⟩ | ⟨line, types, aligned, ps, found, formats, rfl⟩ := reads
  case inl =>
    rw [plain] at formats
    exact ⟨execLdb_plain I acting page plain aligned ⟨found, formats⟩, (xlateElems_strands found).trans before⟩
  case inr.inl =>
    refine ⟨?_, (xlateElems_strands run).trans before⟩
    obtain ⟨words, inPage, rfl⟩ | ⟨float, inPage, rfl⟩ := record
    · exact execLdb_record I acting page q aligned run words inPage
    · exact execLdb_element I acting page q aligned run float inPage
  case inr.inr.inl =>
    rw [m32] at formats
    exact ⟨execLdb_m32 I acting page m32 moment aligned ⟨found, formats⟩, (xlateElems_strands found).trans before⟩
  case inr.inr.inr.inl =>
    exact ⟨execLdb_sparse I acting page (.inl ⟨line, types, rfl, rfl⟩) aligned ⟨found, formats⟩, (xlateElems_strands found).trans before⟩
  case inr.inr.inr.inr =>
    exact ⟨execLdb_sparse I acting page (.inr ⟨line, types, rfl, rfl⟩) aligned ⟨found, formats⟩, (xlateElems_strands found).trans before⟩

/-- STB starts the store of what its threads write (R233). -/
theorem execStb_writes {fl : Flags} {mfl : Bool} {reqs : List StoreReq} (I : Issues h (stbUses ty d a b) s st c)
    (writes : StbWrites h ty d a b (issued h (stbUses ty d a b) s st c) c s1 fl mfl reqs) :
    execStb h ty d a b s = .next (startStore h c s1 none fl mfl reqs) := by
  obtain ⟨acting, s0, p0, page, writes⟩ := writes
  obtain ⟨plain, rfl, rfl, aligned, ps, ⟨found, formats⟩, rfl⟩ |
    ⟨m32, moment, aligned, ps, ⟨found, formats⟩, rfl, rfl, clamped, rfl⟩ |
    ⟨q, aligned, inPage, s2, p1, v, run, rfl, rfl, record⟩ := writes
  case inl =>
    rw [plain] at formats
    exact execStb_plain I acting page plain aligned ⟨found, formats⟩
  case inr.inl =>
    rw [m32] at formats
    exact execStb_m32 I acting page m32 moment aligned ⟨found, formats⟩ clamped
  case inr.inr =>
    obtain ⟨words, rfl, rfl, rfl⟩ | ⟨coded, even, unmarked, due, rfl, rfl, rfl⟩ := record
    · have unread : alsoRead ty v = [] := if_pos words
      have unmarked : (h.wsb && c.st.marked (alsoRead ty v)) = false := by simp [unread, Strand.marked, Pend.names]
      have due : (c.st.sp.sbchk && c.st.short c.win h (alsoRead ty v)) = false := by simp [unread, Strand.short, Pend.names]
      rw [execStb_record I acting page q aligned inPage run rfl (.inl words) (absurd words) unmarked due, unread]
      simp only [recordOf, words, if_true]
      rfl
    · have notWords : ty ≠ .b32 := by obtain rfl | rfl | rfl | rfl := coded <;> decide
      have alsoHigh : alsoRead ty v = [⟨.v, v.toNat + 1⟩] := if_neg notWords
      rw [execStb_record I acting page q aligned inPage run rfl (.inr coded) (fun _ => even) (by rwa [alsoHigh]) (by rwa [alsoHigh]), alsoHigh]
      simp only [recordOf, notWords, if_false]
      rfl

end

/-- Settles O23: each format's equation of LDB or STB, and what the load or store does once its waits are over. -/
theorem formattedAccessesByPageFormat : Obligations.FormattedAccessesByPageFormat := by
  unfold Obligations.FormattedAccessesByPageFormat
  intro h ty d a b s st c s1
  refine ⟨fun accs I reads => ?loads, fun fl mfl reqs I writes => ?stores⟩
  case loads =>
    obtain ⟨run, strands⟩ := execLdb_reads I reads
    have strand : nmGet s1.strands c.sid = some c.st := by rw [strands]; exact nmGet_nmSet_self _ _ _
    rw [exec_ldb, run]
    exact startLoad_starts strand
  case stores =>
    rw [exec_stb, execStb_writes I writes]
    exact startStore_starts

end Sys2Proof.Machine
end

section
/-!
SUPPORT. O1, O2, O3 and O5: what an instruction of one destination, or of two, computes for its threads (R116, R120), and the integer
results of a type (R88, R121).
-/
namespace Sys2Proof.Machine

variable {i : Instr} {h : Hdr} {u : Uses} {ty : Ty} {lat : Nat} {d : Opnd} {src : Srcs} {q : BitVec 3}

/-! ## Results in another form -/

/-- A fixed-latency instruction does what its body answers (R43). -/
theorem does_ok {body : Ctx → Res} {r : Ctx → Results} (e : ∀ s, exec i s = laneOp h lat u s body)
    (ok : ∀ c, body c = .ok (r c).ws (r c).fl (r c).mfl) : Does i h u lat r :=
  fun s _ c I => does_of I (e s) (ok c)

/-- An instruction of one value per thread does what equal values say. -/
theorem does_each_of_eq {g g' : Ctx → Nat → Nat} (eq : ∀ c t, g c t = g' c t)
    (e : ∀ s, exec i s = laneOp h lat u s fun c => valRes0 c h d ty (g c)) : Does i h u lat fun c => each c h d ty (g' c) := by
  obtain rfl : g = g' := funext fun c => funext (eq c)
  exact does_each e

/-! ## Integers of a type -/

theorem two_pow_width_dvd (ty : Ty) : ((2 ^ ty.width : Nat) : Int) ∣ ((2 ^ 64 : Nat) : Int) :=
  Int.natCast_dvd_natCast.2 (Nat.pow_dvd_pow 2 (by cases ty <;> decide))

/-- Reading a signed value changes it by a multiple of 2^w (R88). -/
theorem sgn_emod (w n : Nat) : sgn w n % ((2 ^ w : Nat) : Int) = (n : Int) % ((2 ^ w : Nat) : Int) := by
  unfold sgn
  dsimp only
  split
  · rw [Int.natCast_emod, Int.emod_emod]
  · rw [Int.sub_emod_right, Int.natCast_emod, Int.emod_emod]

/-- So does reading a value in a type (R88). -/
theorem intRead_emod (ty : Ty) (n : Nat) : intRead ty n % ((2 ^ ty.width : Nat) : Int) = (n : Int) % ((2 ^ ty.width : Nat) : Int) := by
  unfold intRead
  split
  · exact sgn_emod _ n
  · rw [Int.natCast_emod, Int.emod_emod]

theorem natCast_toWrap (w : Nat) (v : Int) : ((toWrap w v : Nat) : Int) = v % ((2 ^ w : Nat) : Int) :=
  Int.toNat_of_nonneg (Int.emod_nonneg _ (Int.natCast_ne_zero.2 (Nat.ne_of_gt (Nat.two_pow_pos w))))

/-- An integer wrapped to 64 bits and read in a type has the type's low bits (R88). -/
theorem toWrap_intRead_toWrap (ty : Ty) (v : Int) : toWrap ty.width (intRead ty (toWrap 64 v)) = toWrap ty.width v := by
  rw [toWrap, intRead_emod, natCast_toWrap, Int.emod_emod_of_dvd _ (two_pow_width_dvd ty), toWrap]

/-- An encoding depends on the low bits of the type only (R88). -/
theorem intWrite_congr {v w : Int} (low : toWrap ty.width v = toWrap ty.width w) : intWrite ty v = intWrite ty w := by
  unfold intWrite
  split
  · next wide => rwa [wide] at low
  · rw [low]

/-- A result that does not saturate wraps (R121). -/
theorem intFit_wrap (ty : Ty) (v : Int) : intFit ty false v = intWrite ty v :=
  intWrite_congr (toWrap_intRead_toWrap ty v)

/-- The choices of IMIN and IMAX are the minimum and the maximum (R122). -/
theorem ite_lt_eq_min (x y : Int) : (if y < x then y else x) = min x y := by
  simp only [Int.min_def, ← Int.not_lt, ite_not]

theorem ite_lt_eq_max (x y : Int) : (if x < y then y else x) = max x y := by
  simp only [Int.max_comm x y, Int.max_def, ← Int.not_lt, ite_not]

/-- A carry form writes the low bits of its exact result `y`, and to its predicate the carry or borrow `co` (R121). -/
theorem does_carry {sub : Bool} {y : Ctx → Nat → Int} {co : Ctx → Nat → Bool}
    (hy : ∀ c t, y c t = if sub then intRead ty (c.st.r.srcs ty t d src).1 - intRead ty (c.st.r.srcs ty t d src).2 - (c.st.r.bitP q.toNat t).toNat
      else intRead ty (c.st.r.srcs ty t d src).1 + intRead ty (c.st.r.srcs ty t d src).2 + (c.st.r.bitP q.toNat t).toNat)
    (hco : ∀ c t, co c t = if sub then decide (y c t < 0) else decide ((2 ^ ty.width : Int) ≤ y c t))
    (e : ∀ s, exec i s = intCarry h ty q d src s sub) :
    Does i h (uses (refsOf d (ty.width = 64) ++ refsOf (.p q) false) (srcRefs src d (ty.width = 64) ++ refsOf (.p q) false)) 1 fun c =>
      { ws := (each c h d ty fun t => toWrap ty.width (y c t)).ws ++ (each c h (.p q) .b32 fun t => (co c t).toNat).ws,
        fl := flNone, mfl := false } := by
  unfold intCarry at e
  refine does_ok e fun c => ?_
  simp only [each, hco, hy, List.map_map, Function.comp_def]

end Sys2Proof.Machine
end

section
namespace Sys2Proof.Machine

/-- Settles O1: wrapped results are encodings of the exact ones, clamped results are so by definition, and the carry forms have two
destinations. -/
theorem integerArithmeticResults : Obligations.IntegerArithmeticResults := by
  unfold Obligations.IntegerArithmeticResults
  intro h ty d a b src q sat w two ops one cu mul x y p ci exactly clamped
  have fit : ∀ v, intFit ty sat v = (if sat then clamped else exactly) v := fun v => by
    cases sat
    · exact intFit_wrap ty v
    · rfl
  refine ⟨?add, does_each fun _ => rfl, ?sub, does_each fun _ => rfl, does_carry (sub := false) (fun _ _ => rfl) (fun _ _ => rfl) fun _ => rfl,
    does_carry (sub := true) (fun _ _ => rfl) (fun _ _ => rfl) fun _ => rfl, ?mul, does_each fun _ => rfl, ?high, ?mad, ?min, ?max, ?abs, ?neg⟩
  case add => exact does_each_of_eq (fun c t => intFit_wrap ty (x c t + y c t)) fun _ => rfl
  case sub => exact does_each_of_eq (fun c t => intFit_wrap ty (x c t - y c t)) fun _ => rfl
  case mul => exact does_each_of_eq (fun c t => intFit_wrap ty (x c t * y c t)) fun _ => rfl
  case high => exact does_each_of_eq (fun c t => intFit_wrap ty (p c t * intRead ty (c.st.r.src ty t b) / (2 ^ ty.width : Int))) fun _ => rfl
  case mad => exact does_each_of_eq (fun c t => fit (p c t * intRead ty (c.st.r.srcB ty t b) + intRead ty (c.st.r.srcC ty t b))) fun _ => rfl
  case min => exact does_each_of_eq (fun c t => congrArg exactly (ite_lt_eq_min (x c t) (y c t))) fun _ => rfl
  case max => exact does_each_of_eq (fun c t => congrArg exactly (ite_lt_eq_max (x c t) (y c t))) fun _ => rfl
  case abs => exact does_each_of_eq (fun c t => fit (if p c t < 0 then -p c t else p c t)) fun _ => rfl
  case neg => exact does_each_of_eq (fun c t => fit (-p c t)) fun _ => rfl

end Sys2Proof.Machine
end

section
namespace Sys2Proof.Machine

/-- Settles O2: most results are the model's own expressions; the shifts compare their count the other way about. -/
theorem bitInstructionResults : Obligations.BitInstructionResults := by
  unfold Obligations.BitInstructionResults
  intro h ty d a b src w n two one sh ops cnt x y p k field
  refine ⟨does_each fun _ => rfl, does_each fun _ => rfl, does_each fun _ => rfl, does_each fun _ => rfl, does_each fun _ => rfl, ?shl, ?shr,
    ?sar, does_each fun _ => rfl, does_each fun _ => rfl, does_each fun _ => rfl, does_each fun _ => rfl, does_each fun _ => rfl,
    does_each fun _ => rfl, does_each fun _ => rfl⟩
  case shl =>
    refine does_each_of_eq (g := fun c t => if k c t < n then p c t * 2 ^ k c t % 2 ^ n else 0) (fun c t => ?_) fun _ => rfl
    simp only [← Nat.not_lt, ite_not, Nat.shiftLeft_eq]
  case shr =>
    refine does_each_of_eq (g := fun c t => if k c t < n then p c t / 2 ^ k c t else 0) (fun c t => ?_) fun _ => rfl
    simp only [← Nat.not_lt, ite_not, Nat.shiftRight_eq_div_pow]
  case sar =>
    refine does_each_of_eq (g := fun c t => intWrite ty (if k c t < n then intRead ty (p c t) / (2 ^ k c t : Int)
      else if 0 ≤ intRead ty (p c t) then 0 else -1)) (fun c t => ?_) fun _ => rfl
    simp only [← Nat.not_lt, ← Int.not_lt, ite_not]

end Sys2Proof.Machine
end

section
namespace Sys2Proof.Machine

/-- Settles O3: PMOV.unpack and BCST write more than one register; the others give one value per thread. -/
theorem moveSelectCompareVoteResults : Obligations.MoveSelectCompareVoteResults := by
  unfold Obligations.MoveSelectCompareVoteResults
  intro h ty d a b q neg sh cnd tab x y w p mv bit all n known
  refine ⟨does_each fun _ => rfl, does_each fun _ => rfl, does_each fun _ => rfl, fun l => does_each fun _ => rfl, ?sel, ?icmp,
    does_each fun _ => rfl, ?test, does_each fun _ => rfl, does_ok (fun _ => rfl) fun _ => rfl, does_each fun _ => rfl, does_each fun _ => rfl,
    ?elect, does_ok (fun _ => rfl) fun _ => rfl⟩
  case sel =>
    refine does_each_of_eq (g := fun c t => if bit c q t != neg then mv c a t else mv c b t) (fun c t => ?_) fun _ => rfl
    simp only [bne_iff_ne, ne_eq, ite_not]
  case icmp =>
    refine does_each_of_eq (g := fun c t => (icmp cnd (intRead ty (p c t)) (intRead ty (c.st.r.src ty t b))).toNat) (fun c t => ?_) fun _ => rfl
    cases cnd with
    | ne => exact congrArg Bool.toNat decide_not.symm
    | eq | lt | le | gt | ge => rfl
  case test =>
    refine does_each_of_eq (g := fun c t => if c.st.r.src .b32 t a = 0 then 0 else 1) (fun c t => ?_) fun _ => rfl
    by_cases zero : c.st.r.src .b32 t a = 0 <;> simp [zero]
  case elect =>
    refine does_each_of_eq (g := fun c t => if (c.acts h).head? == some t then 1 else 0) (fun c t => ?_) fun _ => rfl
    simp only [beq_iff_eq]

end Sys2Proof.Machine
end

section
namespace Sys2Proof.Machine

/-- Settles O5: each instruction computes its conversion per thread; QENC spreads one record. -/
theorem conversionResults : Obligations.ConversionResults := by
  unfold Obligations.ConversionResults
  intro h ty dt st rnd sat hi qf d a b two
  exact ⟨does_eachF fun _ => rfl, does_eachF fun _ => rfl, does_eachF fun _ => rfl, does_eachF fun _ => rfl,
    does_ok (fun _ => rfl) fun _ => rfl, does_eachF fun _ => rfl⟩

end Sys2Proof.Machine
end

section
/-!
SUPPORT. O8 and O10: the lane-masked rendezvous (R146). A mask or an open rendezvous that does not fit raises MASK_DIS; a fragment that
covers the live threads of its mask executes its rendezvous alone and leaves none open.
-/
namespace Sys2Proof.Machine

variable {i : Instr} {h : Hdr} {u : Uses} {s : State} {st : Strand} {c : Ctx} {j : Job} {mask : W32} {sid : Nat} {b : Opnd}

/-! ## MASK_DIS -/

theorem maskOf_nil_inside (mask : W32) : maskOf [] &&& ~~~mask = 0#32 := BitVec.zero_and

/-- A guarded thread that the mask does not name raises MASK_DIS (R146). -/
theorem rdvIssue_outside (s : State) (outside : maskOf (c.acts h) &&& ~~~mask ≠ 0#32) : rdvIssue i h mask c s = trapOut s c 0x60#8 :=
  if_pos outside

/-- Words that differ in OPC or MOD differ in the bits that a rendezvous compares (R146). -/
theorem rdvWords_differ {x y : Nat} (differ : bitsOf x 95 86 ≠ bitsOf y 95 86 ∨ bitsOf x 72 64 ≠ bitsOf y 72 64) :
    x / 2 ^ 86 ≠ y / 2 ^ 86 ∨ x / 2 ^ 64 % 512 ≠ y / 2 ^ 64 % 512 := by
  simp only [bitsOf_div] at differ
  exact differ.imp (mt (congrArg (· % 2 ^ 10))) id

/-- An open rendezvous that shares a live thread and has another live mask, OPC or MOD raises MASK_DIS (R146). -/
theorem rdvIssue_clash {r : Rdv} (hj : s.job? c.st = some j) (inside : maskOf (c.acts h) &&& ~~~mask = 0#32)
    (meets : c.fr.mask &&& liveMask c.st.sp mask ≠ 0#32)
    (found : c.st.rdvs.find? (fun x => liveMask c.st.sp x.mask &&& liveMask c.st.sp mask != 0#32) = some r)
    (clash : liveMask c.st.sp r.mask ≠ liveMask c.st.sp mask ∨ bitsOf (j.word c.fr.pc) 95 86 ≠ bitsOf r.word 95 86 ∨
      bitsOf (j.word c.fr.pc) 72 64 ≠ bitsOf r.word 72 64) :
    rdvIssue i h mask c s = trapOut s c 0x60#8 := by
  have differ : liveMask c.st.sp r.mask ≠ liveMask c.st.sp mask ∨ j.word c.fr.pc / 2 ^ 86 ≠ r.word / 2 ^ 86 ∨
      j.word c.fr.pc / 2 ^ 64 % 512 ≠ r.word / 2 ^ 64 % 512 := clash.imp_right rdvWords_differ
  simp only [rdvIssue, rdvEnter, inside, meets, found, hj, Option.map_some, Option.getD_some, ne_eq, not_true_eq_false, if_false]
  exact if_pos differ

/-- An instruction that issues a rendezvous, with an acting thread where it asks for one, raises MASK_DIS where R146 says. -/
theorem maskFails_of {some' : Bool} {body : Ctx → State → Out} (e : ∀ s, exec i s = issue h u s body)
    (run : ∀ c s, (some' = true → c.acts h ≠ []) → body c s = rdvIssue i h (rdvMask c.st.r b) c s) : maskFails h u b i some' := by
  intro s st c I
  have issues : exec i s = body c (issued h u s st c) := (e s).trans (issue_of_issues I body)
  refine ⟨fun outside => ?_, fun j r hj acting inside meets found clash => ?_⟩
  · have acting : c.acts h ≠ [] := fun none => outside (none ▸ maskOf_nil_inside _)
    exact issues.trans ((run c _ fun _ => acting).trans (rdvIssue_outside _ outside))
  · exact issues.trans ((run c _ acting).trans (rdvIssue_clash (issued_job_eq hj I) inside meets found clash))

/-- Settles O10: the five instructions issue a rendezvous in every case, LSYN with an acting thread. -/
theorem rendezvousMaskMismatchTraps : Obligations.RendezvousMaskMismatchTraps := by
  unfold Obligations.RendezvousMaskMismatchTraps
  intro h ty vp md op ex al d a b w
  refine ⟨maskFails_of (fun _ => rfl) fun _ _ _ => rfl, maskFails_of (fun _ => rfl) fun _ _ _ => rfl, maskFails_of (fun _ => rfl) fun _ _ _ => rfl,
    maskFails_of (fun _ => rfl) fun _ _ _ => rfl, maskFails_of (fun _ => rfl) fun _ _ _ => rfl,
    fun sc kd => maskFails_of (fun _ => rfl) fun c s acting => ?_⟩
  simp only [List.isEmpty_iff, acting rfl, if_false]

/-! ## A rendezvous of one fragment -/

/-- No rendezvous of the strand is open. -/
def NoRdv (s : State) (sid : Nat) : Prop := ∀ y, nmGet s.strands sid = some y → y.rdvs = []

/-- With none open, there is none to execute. -/
theorem rdvTry_none (closed : NoRdv s sid) (fuel : Nat) : rdvTry s sid fuel = s := by
  cases fuel with
  | zero => rfl
  | succ n =>
    have stays : rdvOnce s sid = none := by
      unfold rdvOnce
      split
      · rfl
      · next y strand => simp only [closed y strand, List.find?_nil]
    simp only [rdvTry, stays]

/-- What keeps a strand like it was opens no rendezvous. -/
theorem NoRdv.of_quiet {t : State} (closed : NoRdv s sid) (quiet : Quiet s t) : NoRdv t sid := by
  intro y strand
  have like := quiet.strand sid
  rw [strand] at like
  cases before : nmGet s.strands sid with
  | none => rw [before] at like; exact like.elim
  | some x =>
    rw [before] at like
    exact like.2.elim (fun same => same.trans (closed x before)) id

/-- Nor does a release (R146). -/
theorem NoRdv.rdvRelease (closed : NoRdv s sid) (lat f : Nat) : NoRdv (rdvRelease s sid lat f) sid :=
  closed.of_quiet ((quiet_updFrag _ _ _ _).trans (quiet_unblock _ _ _))

/-- Results on a strand leave its rendezvous (R43). -/
theorem Strand.result_rdvs (st : Strand) (f win lat : Nat) (marks : List RegRef) (ws : List Write) (fl : Flags) (mfl : Bool) :
    (st.result f win lat marks ws fl mfl).rdvs = st.rdvs := by
  unfold Strand.result
  split
  · obtain ⟨r, sp, ps, e⟩ := st.landIf_shape fun p => !p.tracked && p.names marks
    rw [e]
  · rfl

/-- The part that a fragment takes in a rendezvous that executes: its live participants (R146). -/
def partOf (sp : Spec) (i : Instr) (e : RdvIn) : RdvPart :=
  { f := e.f, i := i, ts := (maskThreads e.mask).filter sp.live, vals := e.vals, sels := e.sels }

/-- The one open rendezvous of a strand, of one fragment that covers it, executes and is gone (R146). -/
theorem rdvOnce_single {y : Strand} {r : Rdv} {e : RdvIn} {fr : Frag} (strand : nmGet s.strands sid = some y) (only : y.rdvs = [r])
    (alone : r.fs = [e]) (hj : s.job? y = some j) (frag : nmGet y.frags e.f = some fr) (word : decode (j.word fr.pc) = .ok i)
    (noFence : ∀ h sc b, i ≠ .lsyn h sc .full b) (covers : liveMask y.sp r.mask &&& fr.mask = liveMask y.sp r.mask) :
    rdvOnce s sid = some (
      let w := rdvWrites [partOf y.sp i e] (liveMask y.sp r.mask) (partOf y.sp i e)
      rdvRelease (({ s with strands := nmSet s.strands sid { y with rdvs := [] } } : State).updStrand sid fun x =>
        x.result e.f (s.now y) (rdvLat i) (rdvMarks i) w.1 w.2 false) sid (rdvLat i) e.f) := by
  have ready : y.rdvReady r = true := by
    simp only [Strand.rdvReady, alone, List.foldl_cons, List.foldl_nil, frag, Option.map_some, Option.getD_some, BitVec.zero_or, covers,
      beq_self_eq_true]
  simp only [rdvOnce, strand, only, ready, List.find?_cons, List.filter_cons, List.filter_nil, bne_self_eq_false, Bool.false_eq_true, if_false, hj,
    alone, List.filterMap_cons, List.filterMap_nil, frag, word, List.foldl_cons, List.foldl_nil, List.any_cons, List.any_nil, Bool.or_false]
  rfl

/-- The rendezvous that a fragment opens in a state (R146). -/
def openedRdv (i : Instr) (h : Hdr) (mask : W32) (c : Ctx) (s : State) : Rdv :=
  { id := s.seq, mask := mask, pc := c.fr.pc, word := ((s.job? c.st).map fun j => j.word c.fr.pc).getD 0,
    fs := [rdvEnter c.st.r i c.f (c.acts h)] }

/-- The fragment as it waits at a rendezvous (R146). -/
def atRdv (h : Hdr) (id : Nat) (fr : Frag) : Frag := { fr with st := .blocked, wait := .rdv id, evt := 0#64, gap := max h.stall.toNat 1 }

/-- The strand of a fragment that waits alone at the rendezvous it has opened. -/
def openedStrand (i : Instr) (h : Hdr) (mask : W32) (c : Ctx) (s : State) : Strand :=
  Strand.updFrag { c.st with rdvs := [openedRdv i h mask c s] } c.f (atRdv h s.seq)

/-- The state of such a strand. -/
def openedState (i : Instr) (h : Hdr) (mask : W32) (c : Ctx) (s : State) : State :=
  { s.tick.2 with strands := nmSet s.strands c.sid (openedStrand i h mask c s) }

theorem Strand.without_rdvs (closed : st.rdvs = []) : ({ st with rdvs := [] } : Strand) = st := by
  rw [← closed]

end Sys2Proof.Machine
end

section
namespace Sys2Proof
open Sys2Proof.Machine

variable {i : Instr} {h : Hdr} {u : Uses} {s : State} {st : Strand} {c : Ctx} {j : Job} {mask : W32} {b : Opnd}

section
variable (A : Alone i h u s st c j mask)
include A

/-- Alone, a fragment opens its rendezvous. -/
theorem Alone.opens : rdvIssue i h mask c (issued h u s st c) = .next (rdvTry (openedState i h mask c (issued h u s st c)) c.sid 8) := by
  have strand : nmGet (issued h u s st c).tick.2.strands c.sid = some c.st := issued_strand (h := h) (u := u) (st := st)
  simp only [rdvIssue, rdvEnter, A.inside, A.meets, A.first, List.find?_nil, ne_eq, not_true_eq_false, if_false, State.updStrand,
    nmUpd_of_some strand, List.nil_append]
  rfl

/-- Deciding the uncovered reads of R48 leaves the fragment. -/
theorem Alone.frag : nmGet c.st.frags c.f = some c.fr := by
  obtain ⟨r, sp, ps, e⟩ := st.settle_shape (u.reads ++ guardRefs h) s.freeCtr
  rw [A.issues.settled, e]
  exact A.issues.frag

/-- The window of its results is the one of its issue. -/
theorem Alone.now : (openedState i h mask c (issued h u s st c)).now (openedStrand i h mask c (issued h u s st c)) = c.win := by
  have core : c.st.core = st.core := by
    obtain ⟨r, sp, ps, e⟩ := st.settle_shape (u.reads ++ guardRefs h) s.freeCtr
    rw [A.issues.settled, e]
  rw [A.issues.win]
  show ((issued h u s st c).core c.st.core).window = (s.core st.core).window
  rw [issued_core_window, core]

/-- Once the rendezvous has executed, the fragment stands in the state that `gathered` describes. -/
theorem Alone.gathered_eq : ({ openedState i h mask c (issued h u s st c) with
    strands := nmSet (openedState i h mask c (issued h u s st c)).strands c.sid { openedStrand i h mask c (issued h u s st c) with rdvs := [] } } : State)
    = gathered h u s st c := by
  have strand : nmGet (issued h u s st c).tick.2.strands c.sid = some c.st := issued_strand (h := h) (u := u) (st := st)
  have closed : ({ openedStrand i h mask c (issued h u s st c) with rdvs := [] } : Strand) = c.st.updFrag c.f (atRdv h (issued h u s st c).seq) :=
    Strand.without_rdvs (st := c.st.updFrag c.f (atRdv h (issued h u s st c).seq)) A.first
  rw [closed, gathered]
  simp only [State.updStrand, nmUpd_of_some strand, openedState, nmSet_nmSet]
  rfl

/-- The fragment as it waits there. -/
theorem Alone.waiting : nmGet (openedStrand i h mask c (issued h u s st c)).frags c.f = some (atRdv h (issued h u s st c).seq c.fr) := by
  rw [openedStrand, Strand.frag_updFrag, if_pos rfl]
  exact congrArg (Option.map _) A.frag

/-- With the rendezvous executed, no other is open. -/
theorem Alone.closed (f win lat : Nat) (marks : List RegRef) (ws : List Write) (fl : Flags) :
    NoRdv ((gathered h u s st c).updStrand c.sid fun x => x.result f win lat marks ws fl false) c.sid := by
  intro y strand
  have standing : nmGet (gathered h u s st c).strands c.sid = some (c.st.updFrag c.f (atRdv h (issued h u s st c).seq)) := by
    have before : nmGet (issued h u s st c).tick.2.strands c.sid = some c.st := issued_strand (h := h) (u := u) (st := st)
    rw [gathered, State.strand_updStrand_self, before]
    rfl
  rw [State.strand_updStrand_self, standing, Option.map_some] at strand
  rw [← Option.some.inj strand, Strand.result_rdvs]
  exact A.first

/-- A fragment that executes a rendezvous instruction alone opens its rendezvous, executes it and is released (R146). -/
theorem Alone.executes (noFence : ∀ h sc b, i ≠ .lsyn h sc .full b) :
    let r := rdvWrites [alonePart i h c] (liveMask c.st.sp mask) (alonePart i h c)
    rdvIssue i h mask c (issued h u s st c) = .next (rdvRelease ((gathered h u s st c).updStrand c.sid fun x =>
      x.result c.f c.win (rdvLat i) (rdvMarks i) r.1 r.2 false) c.sid (rdvLat i) c.f) := by
  have part : partOf c.st.sp i (rdvEnter c.st.r i c.f (c.acts h)) = alonePart i h c := by
    simp only [partOf, rdvEnter, alonePart, c.maskThreads_acts]
  rw [← part]
  intro r
  have once := rdvOnce_single (s := openedState i h mask c (issued h u s st c)) (nmGet_nmSet_self _ _ _) rfl rfl
    ((issued_job A.issues).trans A.job) A.waiting A.word noFence A.covers
  have executed : rdvOnce (openedState i h mask c (issued h u s st c)) c.sid = some (rdvRelease ((gathered h u s st c).updStrand c.sid fun x =>
      x.result c.f c.win (rdvLat i) (rdvMarks i) r.1 r.2 false) c.sid (rdvLat i) c.f) := by
    rw [once, A.gathered_eq, A.now]
    rfl
  rw [A.opens, rdvTry, executed]
  exact congrArg _ (rdvTry_none ((A.closed _ _ _ _ _ _).rdvRelease _ _) 7)

end

/-- An instruction that issues its rendezvous completes for a fragment alone (R146); LSYN, which may end the region, is the one of
latency 1. -/
theorem aloneDoes_of {lat : Nat} (e : ∀ s, exec i s = issue h u s fun c s => rdvIssue i h (rdvMask c.st.r b) c s)
    (latency : rdvLat i = lat) (slow : lat ≠ 1) (marks : rdvMarks i = u.writes) : AloneDoes i h u b lat := by
  intro s st c j A r
  have noFence : ∀ h sc b, i ≠ .lsyn h sc .full b := by
    rintro h sc b rfl
    exact slow latency.symm
  subst latency
  rw [e, issue_of_issues A.issues, ← marks]
  exact A.executes noFence

/-- Settles O8: each instruction issues its rendezvous, with its own latency and the registers it writes. -/
theorem rendezvousInstructionsComplete : Obligations.RendezvousInstructionsComplete := by
  unfold Obligations.RendezvousInstructionsComplete
  intro h ty vp md op ex al d a b w
  exact ⟨aloneDoes_of (fun _ => rfl) rfl (by decide) rfl, aloneDoes_of (fun _ => rfl) rfl (by decide) rfl,
    aloneDoes_of (fun _ => rfl) rfl (by decide) rfl, aloneDoes_of (fun _ => rfl) rfl (by decide) rfl,
    aloneDoes_of (fun _ => rfl) rfl (by decide) rfl⟩

end Sys2Proof
end

section
/-!
SUPPORT. O9: the writes and flags of one part of a rendezvous, instruction by instruction (R148 to R153).
-/
namespace Sys2Proof.Machine

/-- A destination that is not uniform takes a value for each thread (R148, R151). -/
theorem partDst_each {d : Opnd} (perThread : ∀ n, d ≠ .k n) (ty : Ty) (ts : List Nat) (g : Nat → Nat) :
    partDst d ty (ts.map fun t => (t, g t)) = ts.flatMap fun t => dstW d ty t (g t) := by
  unfold partDst
  split
  · next n => exact absurd rfl (perThread n)
  · exact List.flatMap_map ..

/-- Whether all participants have one value, as MATCH.all compares them with the first (R153). -/
def sameAll (key : Nat → Nat) (all : List Nat) : Bool := match all with | [] => true | u :: _ => all.all fun t => key t == key u

theorem sameAll_iff (key : Nat → Nat) (all : List Nat) : sameAll key all = true ↔ ∀ t ∈ all, ∀ u ∈ all, key t = key u := by
  cases all with
  | nil => simp [sameAll]
  | cons u us =>
    simp only [sameAll, List.all_eq_true, beq_iff_eq]
    exact ⟨fun same t ht v hv => (same t ht).trans (same v hv).symm, fun alike t ht => alike t ht u List.mem_cons_self⟩

/-- The participants of a rendezvous, in order. -/
def participants (ps : List RdvPart) : List Nat := threads.filter fun t => ps.any fun q => q.ts.contains t

section
variable (ps : List RdvPart) (ml : W32) (f : Nat) (ts : List Nat) (vs ss : List (Nat × Nat)) (h : Hdr) (ty : Ty) (vp : BitVec 3) (a b : Opnd)

/-- BALLOT's writes: the mask of the participants whose predicate is 1 (R148). -/
theorem rdvWrites_ballot (d : Opnd) : rdvWrites ps ml ⟨f, .ballot h d a b, ts, vs, ss⟩ =
    (partDst d .b32 (ts.map fun t => (t, (maskOf ((participants ps).filter fun t => rdvVal ps t == 1)).toNat)), flNone) := rfl

/-- SHFL's writes: the value of the source thread, and whether it takes part (R149). -/
theorem rdvWrites_shfl (md : ShflMode) (d : Opnd) : rdvWrites ps ml ⟨f, .shfl h ty vp md d a b, ts, vs, ss⟩ =
    (partDst d ty (ts.map fun t =>
        (t, if (participants ps).contains (shflFrom md (byThread ss t) t) then rdvVal ps (shflFrom md (byThread ss t) t) else 0)) ++
      partDst (.p vp) .b32 (ts.map fun t => (t, ((participants ps).contains (shflFrom md (byThread ss t) t)).toNat)), flNone) := rfl

/-- REDX's writes and flags: the reduction over all participants (R151). -/
theorem rdvWrites_redx (op : RedOp) (d : Opnd) : rdvWrites ps ml ⟨f, .redx h ty op d a b, ts, vs, ss⟩ =
    (partDst d ty (ts.map fun t => (t, (reduce op ty ((participants ps).map (rdvVal ps))).1)),
      (reduce op ty ((participants ps).map (rdvVal ps))).2) := rfl

/-- The reduction that SCAN gives a thread: of the participants up to it, or before it (R152). -/
def scanAt (ps : List RdvPart) (op : RedOp) (ty : Ty) (ex : Bool) (t : Nat) : Nat × Flags :=
  reduce op ty (((participants ps).filter fun u => if ex then u < t else u ≤ t).map (rdvVal ps))

theorem rdvWrites_scan (op : RedOp) (ex : Bool) (d : Opnd) : (rdvWrites ps ml ⟨f, .scan h ty op ex d a b, ts, vs, ss⟩).1 =
    partDst d ty (ts.map fun t => (t, (scanAt ps op ty ex t).1)) := by
  simp only [rdvWrites, List.map_map, Function.comp_def]
  rfl

/-- What MATCH compares: the value's bits of the type (R153). -/
def matchKey (ps : List RdvPart) (ty : Ty) (t : Nat) : Nat := rdvVal ps t % 2 ^ ty.width

/-- MATCH.any's writes: the participants with a thread's value, and whether every live thread of the mask takes part (R153). -/
theorem rdvWrites_matchAny (d : Opnd) : rdvWrites ps ml ⟨f, .matchx h ty vp false d a b, ts, vs, ss⟩ =
    (partDst d .b32 (ts.map fun t => (t, (maskOf ((participants ps).filter fun u => matchKey ps ty u == matchKey ps ty t)).toNat)) ++
      partDst (.p vp) .b32 (ts.map fun t => (t, (maskOf (participants ps) == ml && true).toNat)), flNone) := rfl

/-- MATCH.all's writes: all participants where they are alike, and none elsewhere (R153). -/
theorem rdvWrites_matchAll (d : Opnd) : rdvWrites ps ml ⟨f, .matchx h ty vp true d a b, ts, vs, ss⟩ =
    (partDst d .b32 (ts.map fun t => (t, if sameAll (matchKey ps ty) (participants ps) then (maskOf (participants ps)).toNat else 0)) ++
      partDst (.p vp) .b32 (ts.map fun t => (t, (maskOf (participants ps) == ml && sameAll (matchKey ps ty) (participants ps)).toNat)), flNone) := rfl

end

/-- Settles O9: each instruction's writes, given to a vector destination thread by thread and to a uniform one once. -/
theorem rendezvousResults : Obligations.RendezvousResults := by
  unfold Obligations.RendezvousResults
  intro ps ml f ts vs ss h ty vp md op ex a b dv all v put pred src key alike
  have vec : ∀ ty g, partDst (.v dv) ty (ts.map fun t => (t, g t)) = put ty g :=
    fun ty g => partDst_each (d := .v dv) nofun ty ts g
  have bit : ∀ g : Nat → Bool, partDst (.p vp) .b32 (ts.map fun t => (t, (g t).toNat)) = pred g :=
    fun g => partDst_each (d := .p vp) nofun .b32 ts _
  refine ⟨?ballot, fun dk t => rfl, ?shfl, ?redx, fun dk t => rfl, ?scan, ?any, fun same => ?alike, fun differ => ?differ⟩
  case ballot =>
    rw [rdvWrites_ballot, vec]
    rfl
  case shfl =>
    rw [rdvWrites_shfl, vec, bit]
    simp only [List.contains_eq_mem, decide_eq_true_eq]
    rfl
  case redx =>
    rw [rdvWrites_redx, vec]
    rfl
  case scan =>
    rw [rdvWrites_scan, vec]
    rfl
  case any =>
    rw [rdvWrites_matchAny, vec, bit]
    simp only [Bool.and_true]
    rfl
  case alike =>
    have whole : sameAll (matchKey ps ty) (participants ps) = true := (sameAll_iff _ _).2 same
    rw [rdvWrites_matchAll, vec, bit, whole]
    simp only [Bool.and_true, if_true]
    rfl
  case differ =>
    have broken : sameAll (matchKey ps ty) (participants ps) = false := Bool.eq_false_iff.2 fun same => differ ((sameAll_iff _ _).1 same)
    rw [rdvWrites_matchAll, vec, bit, broken]
    simp only [Bool.and_false, Bool.false_eq_true, if_false]

end Sys2Proof.Machine
end

section
/-!
SUPPORT. O11: the parts that a branch without UNI splits its fragment into, and where they stand (R156 to R159).
-/
namespace Sys2Proof
open Sys2Proof.Machine

variable {h : Hdr} {u : Uses} {s : State} {st : Strand} {c : Ctx} {j : Job} {off : BitVec 24} {taken : List (Nat × Nat)} {ws : List Write}
  {p0 : Nat × W32} {rest : List (Nat × W32)}

/-! ## The targets of a branch -/

/-- A thread joins the group of its target, or opens it (R157). -/
def joinGroup (gs : List (Nat × List Nat)) (e : Nat × Nat) : List (Nat × List Nat) :=
  match gs.find? (·.1 == e.2) with
  | some _ => gs.map fun g => if g.1 == e.2 then (g.1, g.2 ++ [e.1]) else g
  | none => gs ++ [(e.2, [e.1])]

theorem groupBy_eq_foldl (ts : List (Nat × Nat)) : groupBy ts = ts.foldl joinGroup [] := rfl

/-- The targets that have groups once a thread has joined: those of before, and the thread's own. -/
theorem mem_joinGroup_targets (gs : List (Nat × List Nat)) (e : Nat × Nat) (pc : Nat) :
    pc ∈ (joinGroup gs e).map (·.1) ↔ pc ∈ gs.map (·.1) ∨ pc = e.2 := by
  unfold joinGroup
  split
  case h_1 g found =>
    have kept : (gs.map fun g => if g.1 == e.2 then (g.1, g.2 ++ [e.1]) else g).map (·.1) = gs.map (·.1) := by
      rw [List.map_map]
      refine List.map_congr_left fun g _ => ?_
      rw [Function.comp_apply, apply_ite Prod.fst, ite_self]
    have present : e.2 ∈ gs.map (·.1) := List.mem_map.2 ⟨g, List.mem_of_find?_eq_some found, by simpa using List.find?_some found⟩
    rw [kept]
    exact ⟨.inl, fun either => either.elim id fun same => same ▸ present⟩
  case h_2 => simp

/-- Every target that a thread takes has a group, and no other has (R157). -/
theorem mem_groupBy_targets (ts : List (Nat × Nat)) (pc : Nat) : pc ∈ (groupBy ts).map (·.1) ↔ pc ∈ ts.map (·.2) := by
  have fold : ∀ gs, pc ∈ (ts.foldl joinGroup gs).map (·.1) ↔ pc ∈ gs.map (·.1) ∨ pc ∈ ts.map (·.2) := by
    induction ts with
    | nil => simp
    | cons e ts ih =>
      intro gs
      rw [List.foldl_cons, ih, mem_joinGroup_targets, List.map_cons, List.mem_cons, or_assoc]
  simpa [groupBy_eq_foldl] using fold []

/-! ## The parts of a branch -/

/-- The live threads that a branch leaves to fall through (R157). -/
def fallThrough (c : Ctx) (taken : List (Nat × Nat)) : List Nat := c.lives.filter fun t => !(taken.any (·.1 == t))

/-- The parts as `branch` lists them: each group's mask beside its lowest thread. -/
theorem branchParts_of_groups (c : Ctx) (taken : List (Nat × Nat)) :
    (if (fallThrough c taken).isEmpty then ((groupBy taken).map fun g => (g.1, maskOf g.2, g.2.headD 32)).map fun g => (g.1, g.2.1)
      else (c.fr.pc.toNat + 12, maskOf (fallThrough c taken)) ::
        ((groupBy taken).map fun g => (g.1, maskOf g.2, g.2.headD 32)).map fun g => (g.1, g.2.1)) = branchParts c taken := by
  rw [List.map_map]
  show _ = (if (fallThrough c taken).isEmpty then [] else _) ++ _
  split <;> rfl

/-- Each thread's target is the PC of a part (R157). -/
theorem target_mem_branchParts {e : Nat × Nat} (he : e ∈ taken) : e.2 ∈ (branchParts c taken).map (·.1) := by
  have grouped : e.2 ∈ (groupBy taken).map (·.1) := (mem_groupBy_targets _ _).2 (List.mem_map_of_mem he)
  rw [branchParts, List.map_append, List.map_map]
  exact List.mem_append_right _ grouped

/-- Threads that fall through stand at the next word, in the first part (R157). -/
theorem next_mem_branchParts (falling : (fallThrough c taken).isEmpty = false) : c.fr.pc.toNat + 12 ∈ (branchParts c taken).map (·.1) := by
  rw [← branchParts_of_groups, falling]
  exact List.mem_cons_self

/-! ## The branch instructions as issued -/

section
variable (B : Branches h u s st c j taken p0 rest)
include B

/-- Every part of a branch that takes effect stands at a word of the text (R40). -/
theorem Branches.pcOk_part {pc : Nat} (hpc : pc ∈ (branchParts c taken).map (·.1)) : j.pcOk pc = true := by
  rw [B.parts] at hpc
  obtain ⟨p, hp, rfl⟩ := List.mem_map.1 hpc
  exact B.targets p hp

/-- A branch that takes effect leaves its parts in their entries, and CALL's writes on the strand (R157 to R159). -/
theorem Branches.splits : branch h c (issued h u s st c) taken u.writes ws = branched h u s st c ws p0 rest := by
  have good : (taken.all fun e => j.pcOk e.2) = true := List.all_eq_true.2 fun e he => B.pcOk_part (target_mem_branchParts he)
  have falls : (!(fallThrough c taken).isEmpty && !j.pcOk (c.fr.pc.toNat + 12)) = false := by
    cases empty : (fallThrough c taken).isEmpty with
    | true => rfl
    | false => simp [B.pcOk_part (next_mem_branchParts empty)]
  have parts := (branchParts_of_groups c taken).trans B.parts
  have room : ¬(8 < c.st.frags.length + rest.length ∨
      (freeEntries (usedEntries (issued h u s st c) c.st.core) rest.length).length < rest.length) := by
    have fits := B.room
    have found := B.entries
    omega
  unfold fallThrough at parts falls
  simp only [branch, issued_job_eq B.job B.issues, good, parts, if_neg room, falls, Bool.not_true, Bool.false_eq_true, if_false]
  rfl

end

/-- BRA takes its acting threads to the literal target (R156, R157). -/
theorem execBra_splits (B : Branches h (uses [] []) s st c j ((c.acts h).map fun t => (t, litTarget c.fr.pc off)) p0 rest)
    (ok : j.pcOk (litTarget c.fr.pc off) = true) : execBra h off s = .next (branched h (uses [] []) s st c [] p0 rest) := by
  rw [execBra, issue_of_issues B.issues]
  simp only [B.all, issued_job_eq B.job B.issues, ok, Option.map_some, Option.getD_some, Bool.not_true, Bool.false_eq_true, if_false]
  exact congrArg _ B.splits

/-- So does CALL, which writes the next word's place in the text to D of the acting threads (R159). -/
theorem execCall_splits {d : Opnd} (B : Branches h (uses (refsOf d false) []) s st c j ((c.acts h).map fun t => (t, litTarget c.fr.pc off)) p0 rest)
    (ok : j.pcOk (litTarget c.fr.pc off) = true) :
    execCall h d off s = .next (branched h (uses (refsOf d false) []) s st c
      (c.dst h d .n32 ((c.acts h).map fun t => (t, c.fr.pc.toNat + 12 - j.base))) p0 rest) := by
  rw [execCall, issue_of_issues B.issues]
  simp only [B.all, issued_job_eq B.job B.issues, ok, Option.map_some, Option.getD_some, Bool.not_true, Bool.false_eq_true, if_false]
  exact congrArg _ B.splits

/-- BRX and RET take each acting thread to the target in its operand (R157). -/
theorem branchReg_splits {a : Opnd}
    (B : Branches h (uses [] (refsOf a false)) s st c j ((c.acts h).map fun t => (t, j.base + c.st.r.src .n32 t a)) p0 rest) :
    branchReg h a s = .next (branched h (uses [] (refsOf a false)) s st c [] p0 rest) := by
  rw [branchReg_each B.job B.issues B.all]
  exact congrArg _ B.splits

/-- Settles O11: each instruction is a branch with its targets, whose parts are the groups of threads with one target. -/
theorem branchesMoveThreads : Obligations.BranchesMoveThreads := by
  unfold Obligations.BranchesMoveThreads
  intro h off d a s st c j p0 rest lit reg link
  refine ⟨execBra_splits, execCall_splits, fun B => ?registers⟩
  case registers =>
    have moves := branchReg_splits B
    exact ⟨moves, moves⟩

end Sys2Proof
end

section
/-!
SUPPORT. O15: what TRAP, SLEEP and BRK do once they execute (R163, R169, R170, R454).
-/
namespace Sys2Proof
open Sys2Proof.Machine

variable {h : Hdr} {n : BitVec 4} {k : BitVec 8} {a : Opnd} {s : State} {st : Strand} {c : Ctx}

/-! ## SLEEP -/

section
variable (I : Issues h (uses [] (refsOf a false)) s st c)
include I

theorem execSleep_idle (idle : c.acts h = []) :
    execSleep h a s = .next (advance (issued h (uses [] (refsOf a false)) s st c) c.sid c.f h) := by
  rw [execSleep, issue_of_issues I]
  simp only [idle, List.isEmpty_nil, if_true]

variable (acting : c.acts h ≠ [])
include acting

/-- SLEEP by 0 yields and moves on (R169). -/
theorem execSleep_yields (zero : c.st.r.uni32 a = 0) :
    execSleep h a s = .next (advance { issued h (uses [] (refsOf a false)) s st c with
      cores := yieldMark (issued h (uses [] (refsOf a false)) s st c).cores c } c.sid c.f h) := by
  rw [execSleep, issue_of_issues I]
  simp only [List.isEmpty_iff, acting, zero, if_false, if_true]

/-- SLEEP by n blocks the fragment for n cycles (R169). -/
theorem execSleep_blocks (nonzero : c.st.r.uni32 a ≠ 0) :
    execSleep h a s = .next ((issued h (uses [] (refsOf a false)) s st c).updFrag c.sid c.f fun fr =>
      { fr with st := .blocked, wait := .sleep (c.st.r.uni32 a), evt := w64n (c.st.r.uni32 a), gap := max h.stall.toNat 1 }) := by
  rw [execSleep, issue_of_issues I]
  simp only [List.isEmpty_iff, acting, nonzero, if_false]

end

/-! ## TRAP and BRK -/

/-- Whether the launch of a strand's job is being debugged (R170). -/
def debugged (s : State) (st : Strand) : Bool := (((s.job? st).bind fun j => nmGet s.launches j.launch).map (·.debug)).getD false

/-- The report of a breakpoint to H7 (R170, log 23). -/
def breakReport (c : Ctx) (k : BitVec 8) : BitVec 256 :=
  BitVec.ofNat 256 (c.st.job + c.st.slot * 2 ^ 16 + c.fr.pc.toNat * 2 ^ 32 + k.toNat * 2 ^ 96)

section
variable (I : Issues h (uses [] []) s st c)
include I

theorem debugged_issued : debugged (issued h (uses [] []) s st c) c.st = debugged s st := by
  rw [debugged, issued_job I]
  rfl

theorem execTrap_idle (idle : c.acts h = []) : execTrap h n s = .next (advance (issued h (uses [] []) s st c) c.sid c.f h) := by
  rw [execTrap, issue_of_issues I]
  simp only [idle, List.isEmpty_nil, if_true]

/-- TRAP n below 8 takes the user cause F0 + n (R163). -/
theorem execTrap_raises (acting : c.acts h ≠ []) (low : n.toNat < 8) :
    execTrap h n s = .next (raiseUser (issued h (uses [] []) s st c) c.sid c.f (0xF0#8 + n.setWidth 8) none) := by
  rw [execTrap, issue_of_issues I]
  simp only [List.isEmpty_iff, acting, low, if_false, if_true, trapOut]

/-- The other traps stop the fragment for firmware, with their record (R163, R454, R459). -/
theorem execTrap_stops (acting : c.acts h ≠ []) (high : 8 ≤ n.toNat) :
    execTrap h n s = .next (((issued h (uses [] []) s st c).log c.st.job (trapRec c.st c.fr n.toNat)).updFrag c.sid c.f fun fr =>
      { fr with st := .stopped, wait := .trapStop n.toNat (c.st.r.rdK 56) }) := by
  rw [execTrap, issue_of_issues I]
  simp only [List.isEmpty_iff, acting, Nat.not_lt.2 high, if_false]

/-- BRK as issued: only in a job that is being debugged, with an acting thread, does it more than move on (R170). -/
theorem execBrk_issued : execBrk h k s =
    if (!debugged s st || (c.acts h).isEmpty) = true then .next (advance (issued h (uses [] []) s st c) c.sid c.f h)
    else .next (mailPut ((issued h (uses [] []) s st c).updFrag c.sid c.f fun fr => { fr with st := .stopped, wait := .debugStop }) 8 7
      (breakReport c k)) := by
  rw [← debugged_issued I, execBrk, issue_of_issues I]
  rfl

theorem execBrk_passes (passes : debugged s st = false ∨ c.acts h = []) :
    execBrk h k s = .next (advance (issued h (uses [] []) s st c) c.sid c.f h) := by
  rw [execBrk_issued I]
  exact if_pos (by simpa using passes)

theorem execBrk_reports (debug : debugged s st = true) (acting : c.acts h ≠ []) :
    execBrk h k s = .next (mailPut ((issued h (uses [] []) s st c).updFrag c.sid c.f fun fr =>
      { fr with st := .stopped, wait := .debugStop }) 8 7 (breakReport c k)) := by
  rw [execBrk_issued I]
  exact if_neg (by simp [debug, acting])

end

/-- Settles O15, by the outcomes of each instruction as issued. -/
theorem trapSleepBreak : Obligations.TrapSleepBreak := by
  unfold Obligations.TrapSleepBreak
  intro h n k a s st c b b1 m dbg
  refine ⟨fun I => ⟨execTrap_idle I, execTrap_raises I, execTrap_stops I, execBrk_passes I, fun debug acting => ?report⟩,
    fun I => ⟨execSleep_idle I, execSleep_yields I, execSleep_blocks I⟩⟩
  case report => exact ⟨breakReport c k, execBrk_reports I debug acting⟩

end Sys2Proof
end

section
/-!
SUPPORT. O14: the records of RCV and the threads that EXIT ends (R160 to R162).
-/
namespace Sys2Proof
open Sys2Proof.Machine

variable {h : Hdr} {off : BitVec 24} {s s1 : State} {st : Strand} {c : Ctx} {j : Job}

/-- Landing the fixed-latency writes leaves the buffer, so a sound strand is sound after it (R43, R321). -/
theorem Sound.landFixed (sound : Sound st) : Sound st.landFixed := by
  obtain ⟨r, sp, ps, e⟩ := st.landIf_shape fun p => !p.tracked
  rw [Strand.landFixed, e]
  exact sound

/-- YLD's own yield is no check of its issue (R45, R162). -/
theorem Issues.yields {u : Uses} (I : Issues h u s st c) : Issues { h with yld := true } u s st c :=
  ⟨I.cur, I.strand, I.frag, I.settled, I.win, I.key, I.waits, I.room, I.mode, I.allocated, I.covered, I.tiles⟩

theorem execYld_advances (I : Issues h (uses [] []) s st c) :
    execYld h s = .next (advance (issued { h with yld := true } (uses [] []) s st c) c.sid c.f h) :=
  issue_of_issues I.yields _

/-- The threads that EXIT ends: the acting ones, and under UNI every live one of the fragment (R161). -/
def leavers (c : Ctx) (h : Hdr) : List Nat := if h.uni then c.lives else c.acts h

/-- No live thread stays where EXIT ends them all. -/
theorem stayers_isEmpty_iff (lives ending : List Nat) : (lives.filter fun t => !ending.contains t).isEmpty = true ↔ ∀ t ∈ lives, t ∈ ending := by
  simp

section
variable (I : Issues h (uses [] []) s st c)
include I

theorem execNop_advances : execNop h s = .next (advance (issued h (uses [] []) s st c) c.sid c.f h) := issue_of_issues I _

/-- RCV with a record free puts its target, the live threads and the record that the fragment had into it (R160). -/
theorem execRcv_records (hj : s.job? st = some j) (ok : j.pcOk (litTarget c.fr.pc off) = true) (room : c.st.recs.length < 8) :
    execRcv h off s = .next (advance ((issued h (uses [] []) s st c).updStrand c.sid fun x => Strand.updFrag
      { x with recs := nmSet x.recs ((firstFree (nmKeys c.st.recs) 9 0).getD 0)
                 { pc := BitVec.ofNat 57 (litTarget c.fr.pc off), mask := maskOf c.lives, parent := c.fr.rix } } c.f
      fun fr => { fr with rix := some ((firstFree (nmKeys c.st.recs) 9 0).getD 0) }) c.sid c.f h) := by
  rw [execRcv, issue_of_issues I]
  simp only [issued_job_eq hj I, ok, Nat.not_le.2 room, Bool.not_true, Bool.false_eq_true, if_false]

variable (quiet : c.st.anyTracked = false)
include quiet

theorem execExit_idle (idle : c.acts h = []) : execExit h s = .next (advance (issued h (uses [] []) s st c) c.sid c.f h) := by
  rw [execExit, issue_of_issues I]
  simp only [quiet, idle, Bool.false_eq_true, if_false]

variable (acting : c.acts h ≠ [])
include acting

/-- EXIT whose region ends takes its threads out of the live ones, and those that stay go on at the next word (R161). -/
theorem execExit_leaves (ended : endRegion ((issued h (uses [] []) s st c).updStrand c.sid Strand.landFixed) c.sid c.f (c.fr.pc + 12#57) none
    = (s1, true)) :
    execExit h s = .next (if ∀ t ∈ c.lives, t ∈ leavers c h then exitThreads s1 c.sid (maskOf (leavers c h)) c.fr.pc
      else advance (exitThreads s1 c.sid (maskOf (leavers c h)) c.fr.pc) c.sid c.f h) := by
  obtain ⟨t, ts, threads⟩ := List.exists_cons_of_ne_nil acting
  rw [execExit, issue_of_issues I]
  simp only [leavers, threads, quiet, ended, Bool.false_eq_true, if_false]
  exact congrArg _ (ite_congr (propext (stayers_isEmpty_iff _ _)) (fun _ => rfl) fun _ => rfl)

/-- Without UNI it takes the acting threads (R161). -/
theorem execExit_each (each : h.uni = false)
    (ended : endRegion ((issued h (uses [] []) s st c).updStrand c.sid Strand.landFixed) c.sid c.f (c.fr.pc + 12#57) none = (s1, true)) :
    execExit h s = .next (if ∀ t ∈ c.lives, t ∈ c.acts h then exitThreads s1 c.sid (maskOf (c.acts h)) c.fr.pc
      else advance (exitThreads s1 c.sid (maskOf (c.acts h)) c.fr.pc) c.sid c.f h) := by
  have own : leavers c h = c.acts h := by simp [leavers, each]
  rw [execExit_leaves I quiet acting ended, own]

/-- Under UNI it takes all of the fragment's, and the region end of a sound strand goes through (R42, R161). -/
theorem execExit_uni (uni : h.uni = true) (sound : Sound c.st) :
    execExit h s = .next (exitThreads (committed ((issued h (uses [] []) s st c).updStrand c.sid Strand.landFixed) c.sid c.f (c.fr.pc + 12#57))
      c.sid (maskOf c.lives) c.fr.pc) := by
  have strand : nmGet ((issued h (uses [] []) s st c).updStrand c.sid Strand.landFixed).strands c.sid = some c.st.landFixed := by
    rw [State.strand_updStrand_self, issued_strand]
    rfl
  have whole : leavers c h = c.lives := by simp [leavers, uni]
  rw [execExit_leaves I quiet acting (endRegion_sound strand sound.landFixed), whole, if_pos fun _ live => live]

end

/-- Settles O14, by the outcomes of each instruction as issued. -/
theorem recordsExitsAndNops : Obligations.RecordsExitsAndNops := by
  unfold Obligations.RecordsExitsAndNops
  intro h off s st c j s1 I hj b r
  exact ⟨execRcv_records I hj, execExit_idle I, execExit_each I,
    execExit_uni I, execNop_advances I, execYld_advances I⟩

end Sys2Proof
end

section
/-!
SUPPORT. O47: page-fault service, region restart, firmware's answers to stopped fragments, and the mailboxes (R163, R170, R308, R322,
R442, R454).
-/
namespace Sys2Proof
open Sys2Proof.Machine

variable {s s1 : State} {sid f n src dst : Nat} {st : Strand} {fr : Frag} {j : Job} {l : Launch} {pf : PFault} {ws : List (Nat × W64)}
  {msg : BitVec 256} {k : W64}

/-! ## Page faults -/

section
variable (fault : nmGet s.pfaults n = some pf)
include fault

/-- A served fault leaves the list, and what waited for it goes on (R308). -/
theorem execPageFaultService_serves (served : makeResident s pf ws = .done s1) :
    execPageFaultService n (some ws) s = .next (resolved { s1 with pfaults := nmDel s1.pfaults n } n pf) := by
  simp only [execPageFaultService, fault, served]

/-- So does one at an address that is declared unmapped, whose access ends (R308). -/
theorem execPageFaultService_unmaps : execPageFaultService n none s = .next (unmapped { s with pfaults := nmDel s.pfaults n } pf) := by
  simp only [execPageFaultService, fault]

end

/-- A fragment that is stopped for a fault becomes READY (R322). -/
def readyStopped (sid : Nat) (s : State) (e : Nat × Frag) : State :=
  match e.2.wait with
  | .fault _ => if e.2.st == .stopped then s.ready sid e.1 else s
  | _ => s

/-- With every fault served and no mark pending, the region restarts (R322). -/
theorem execRegionRestart_restarts (strand : nmGet s.strands sid = some st) (quiet : st.anyTracked = false) (steady : st.abort = none)
    (resident : st.resident = true) (served : ∀ e ∈ st.frags, ∀ k, e.2.wait = .fault k → nmGet s.pfaults k = none) :
    execRegionRestart sid s = .next (joinAll (st.frags.foldl (readyStopped sid) s) sid) := by
  simp only [execRegionRestart, strand]
  rw [if_neg]
  · rfl
  · simp only [quiet, steady, resident, Option.isSome_none, Bool.not_true, Bool.or_false, List.any_eq_true, not_exists, not_and]
    intro e he
    split
    case h_1 k waits => simp [served e he k waits]
    case h_2 => exact Bool.false_ne_true

/-! ## Stopped fragments -/

theorem fragOf_eq_some (strand : nmGet s.strands sid = some st) (frag : nmGet st.frags f = some fr) : fragOf s sid f = some (st, fr) := by
  simp only [fragOf, strand, frag, Option.bind_some, Option.map_some]

section
variable (found : fragOf s sid f = some (st, fr))
include found

/-- TRAP_END ends the job with its exit code (R454). -/
theorem execFirmwareTrapService_end (wait : fr.wait = .trapStop 8 k) : execFirmwareTrapService sid f s = .next (trapEnd s st.job k) := by
  simp only [execFirmwareTrapService, found, wait, if_true]

/-- A reserved trap ends the job with its cause (R163, R454). -/
theorem execFirmwareTrapService_reserved (wait : fr.wait = .trapStop n k) (reserved : n ∉ [8, 9, 10]) :
    execFirmwareTrapService sid f s = .next (endJob s st.job (0xF0#8 + BitVec.ofNat 8 n) []) := by
  obtain ⟨n8, n9, n10⟩ : n ≠ 8 ∧ n ≠ 9 ∧ n ≠ 10 := by simpa using reserved
  simp only [execFirmwareTrapService, found, wait, n8, n9, n10, if_false]

/-- TRAP_YIELD goes on when it is served (R454). -/
theorem execFirmwareTrapService_yield (wait : fr.wait = .trapStop 9 k) (resident : st.resident = true) :
    execFirmwareTrapService sid f s = .next (unblock s sid f) := by
  simp only [execFirmwareTrapService, found, wait, resident, Nat.reduceEqDiff, if_false, if_true]

/-- So it does when firmware resumes it (R163, R454). -/
theorem execFirmwareResume_yield (wait : fr.wait = .trapStop 9 k) (resident : st.resident = true) :
    execFirmwareResume sid f s = .next (unblock s sid f) := by
  simp only [execFirmwareResume, found, wait, resident, Bool.and_self, if_true]

/-- The completion that TRAP_LOG queues: k56 and k57, for the fragment that waits for it (R454). -/
def logCompl (st : Strand) (l : Launch) (sid f : Nat) : Compl :=
  { value := st.r.rdK 56, tag := l.tag, head := l.head, status := 0x06#8, irq := false, kind := .log sid f (st.r.rdK 57) }

/-- TRAP_LOG queues its pair at the queue of its job's launch (R454). -/
theorem execFirmwareTrapService_log (wait : fr.wait = .trapStop 10 k) (job : s.job? st = some j)
    (launch : nmGet s.launches j.launch = some l) (host : l.fn ≠ hartFn) :
    execFirmwareTrapService sid f s
      = .next (pushCompl (s.updFrag sid f fun x => { x with wait := .logPair }) (qkey l.fn l.q) (logCompl st l sid f)) := by
  simp only [execFirmwareTrapService, found, wait, job, launch, host, Option.bind_some, Nat.reduceEqDiff, if_false, if_true]
  rfl

/-- The debugger ends the job of a breakpoint without a cause of its own (R170, log 43). -/
theorem execDebugResume_end (wait : fr.wait = .debugStop) : execDebugResume sid f true s = .next (endJob s st.job 0x00#8 []) := by
  simp only [execDebugResume, found, wait, bne_self_eq_false, Bool.false_eq_true, if_false, if_true]

/-- Or the fragment goes on (R170). -/
theorem execDebugResume_go (wait : fr.wait = .debugStop) (resident : st.resident = true) :
    execDebugResume sid f false s = .next (unblock s sid f) := by
  simp only [execDebugResume, found, wait, resident, bne_self_eq_false, Bool.false_eq_true, if_false, if_true]

end

/-! ## Mailboxes -/

section
variable {m : NMap (List (Nat × BitVec 256))} {q es : List (Nat × Nat × BitVec 256)} {e : Nat × Nat × BitVec 256}

/-- A message for a full mailbox waits (R442). -/
theorem mailStep_full (full : 64 ≤ ((nmGet m e.2.1).getD []).length) : mailStep (m, q) e = (m, q ++ [e]) := by
  simp only [mailStep, Nat.not_lt.2 full, decide_false, Bool.false_and, Bool.false_eq_true, if_false]

/-- A message for a mailbox with room enters it, unless its sender waits (R442). -/
theorem mailStep_room (room : ((nmGet m e.2.1).getD []).length < 64) (first : ∀ x ∈ q, x.1 ≠ e.1) :
    mailStep (m, q) e = (nmSet m e.2.1 ((nmGet m e.2.1).getD [] ++ [(e.1, e.2.2)]), q) := by
  have unheld : (q.any fun x => x.1 == e.1) = false := List.any_eq_false.2 fun x hx => by simpa using first x hx
  simp only [mailStep, room, unheld, decide_true, Bool.not_false, Bool.and_self, if_true]

/-- Messages for full mailboxes all wait, in their order (R442). -/
theorem foldl_mailStep_full (full : ∀ e ∈ es, 64 ≤ ((nmGet m e.2.1).getD []).length) : es.foldl mailStep (m, q) = (m, q ++ es) := by
  induction es generalizing q with
  | nil => rw [List.foldl_nil, List.append_nil]
  | cons e es ih =>
    rw [List.foldl_cons, mailStep_full (full e List.mem_cons_self), ih fun x hx => full x (List.mem_cons_of_mem _ hx), List.append_assoc]
    rfl

end

/-- The state with these mailboxes and messages that wait. -/
def withMail (s : State) (m : NMap (List (Nat × BitVec 256))) (q : List (Nat × Nat × BitVec 256)) : State :=
  { s with host := { s.host with mail := m, mailWait := q } }

/-- The messages of a hart's mailbox. -/
def boxOf (s : State) (dst : Nat) : List (Nat × BitVec 256) := (nmGet s.host.mail dst).getD []

theorem mailSettle_withMail (m : NMap (List (Nat × BitVec 256))) (q : List (Nat × Nat × BitVec 256)) :
    mailSettle (withMail s m q) = withMail s (q.foldl mailStep (m, [])).1 (q.foldl mailStep (m, [])).2 := rfl

section
variable (waiting : ∀ e ∈ s.host.mailWait, e.1 ≠ src ∧ 64 ≤ (boxOf s e.2.1).length)
include waiting

/-- Behind messages that wait for full mailboxes, a message enters a mailbox with room (R442). -/
theorem mailPut_room (room : (boxOf s dst).length < 64) :
    mailPut s src dst msg = withMail s (nmSet s.host.mail dst (boxOf s dst ++ [(src, msg)])) s.host.mailWait := by
  have enters := mailStep_room (m := s.host.mail) (e := (src, dst, msg)) room fun e he => (waiting e he).1
  show mailSettle (withMail s s.host.mail (s.host.mailWait ++ [(src, dst, msg)])) = _
  rw [mailSettle_withMail, List.foldl_append, foldl_mailStep_full fun e he => (waiting e he).2, List.nil_append, List.foldl_cons, List.foldl_nil,
    enters]
  rfl

/-- And waits for a full one (R442). -/
theorem mailPut_full (full : 64 ≤ (boxOf s dst).length) :
    mailPut s src dst msg = withMail s s.host.mail (s.host.mailWait ++ [(src, dst, msg)]) := by
  have all : ∀ e ∈ s.host.mailWait ++ [(src, dst, msg)], 64 ≤ (boxOf s e.2.1).length := by
    simpa [or_imp, forall_and] using ⟨fun a b c he => (waiting (a, b, c) he).2, full⟩
  show mailSettle (withMail s s.host.mail (s.host.mailWait ++ [(src, dst, msg)])) = _
  rw [mailSettle_withMail, foldl_mailStep_full all, List.nil_append]

/-- A hart none of whose messages waits may send (R442). -/
theorem execMailboxMessage_sends (source : src < 8) (target : dst < 8) :
    execMailboxMessage src dst (some msg) s = .next (mailPut s src dst msg) := by
  have unheld : (s.host.mailWait.any fun e => e.1 == src) = false := List.any_eq_false.2 fun e he => by simpa using (waiting e he).1
  simp only [execMailboxMessage, unheld, Option.isSome_some, if_true, Nat.not_le.2 source, Nat.not_le.2 target, decide_false, Bool.or_self,
    Bool.false_eq_true, if_false]

end

/-- A hart whose message waits sends no other (R442). -/
theorem execMailboxMessage_held (held : ∃ e ∈ s.host.mailWait, e.1 = src) : execMailboxMessage src dst (some msg) s = .next s := by
  have waits : (s.host.mailWait.any fun e => e.1 == src) = true := by simpa using held
  simp only [execMailboxMessage, waits, Option.isSome_some, if_true, Bool.or_true]

/-- A hart none of whose messages waits takes the oldest of its mailbox (R442). -/
theorem execMailboxMessage_takes (target : dst < 8) (free : ∀ e ∈ s.host.mailWait, e.1 ≠ dst) (nonempty : boxOf s dst ≠ []) :
    execMailboxMessage src dst none s = .next (mailTake s dst) := by
  have unheld : (s.host.mailWait.any fun e => e.1 == dst) = false := List.any_eq_false.2 fun e he => by simpa using free e he
  have notEmpty : ((nmGet s.host.mail dst).getD []).isEmpty = false := by simpa [boxOf] using nonempty
  simp only [execMailboxMessage, unheld, notEmpty, Option.isSome_none, Nat.not_le.2 target, decide_false, Bool.or_self, Bool.false_eq_true,
    if_false]

/-- With no message waiting, a mailbox only loses its oldest (R442). -/
theorem mailTake_alone (alone : s.host.mailWait = []) : mailTake s dst = withMail s (nmSet s.host.mail dst ((boxOf s dst).drop 1)) [] := by
  show mailSettle (withMail s (nmSet s.host.mail dst ((boxOf s dst).drop 1)) s.host.mailWait) = _
  rw [alone, mailSettle_withMail]
  rfl

/-- The first message that waits for a full mailbox takes the room in it, and the others still wait (R442). -/
theorem mailTake_refills {w : Nat × Nat × BitVec 256} {rest : List (Nat × Nat × BitVec 256)} (queue : s.host.mailWait = w :: rest)
    (mine : w.2.1 = dst) (full : (boxOf s dst).length = 64) (others : ∀ e ∈ rest, 64 ≤ (boxOf s e.2.1).length) :
    mailTake s dst = withMail s (nmSet (nmSet s.host.mail dst ((boxOf s dst).drop 1)) dst ((boxOf s dst).drop 1 ++ [(w.1, w.2.2)])) rest := by
  subst mine
  have taken : (nmGet (nmSet s.host.mail w.2.1 ((boxOf s w.2.1).drop 1)) w.2.1).getD [] = (boxOf s w.2.1).drop 1 := by
    rw [nmGet_nmSet_self, Option.getD_some]
  have enters := mailStep_room (m := nmSet s.host.mail w.2.1 ((boxOf s w.2.1).drop 1)) (q := []) (e := w)
    (by rw [taken, List.length_drop, full]; decide) fun _ absent => absurd absent List.not_mem_nil
  rw [taken] at enters
  have stillFull : ∀ e ∈ rest, 64 ≤ ((nmGet (nmSet (nmSet s.host.mail w.2.1 ((boxOf s w.2.1).drop 1)) w.2.1
      ((boxOf s w.2.1).drop 1 ++ [(w.1, w.2.2)])) e.2.1).getD []).length := by
    intro e he
    by_cases same : e.2.1 = w.2.1
    · rw [same, nmGet_nmSet_self, Option.getD_some, List.length_append, List.length_drop, full]
      exact Nat.le_refl 64
    · rw [nmGet_nmSet_ne _ _ same, nmGet_nmSet_ne _ _ same]
      exact others e he
  show mailSettle (withMail s (nmSet s.host.mail w.2.1 ((boxOf s w.2.1).drop 1)) s.host.mailWait) = _
  rw [queue, mailSettle_withMail, List.foldl_cons, enters, foldl_mailStep_full stillFull, List.nil_append]

end Sys2Proof
end

section
namespace Sys2Proof
open Sys2Proof.Machine

/-- Settles O47, step by step. -/
theorem faultAndHartStepsTakeEffect : Obligations.FaultAndHartStepsTakeEffect := by
  unfold Obligations.FaultAndHartStepsTakeEffect
  intro s sid f n st fr j l pf ws s1 src dst msg k box
  refine ⟨fun fault => ⟨execPageFaultService_serves fault, execPageFaultService_unmaps fault⟩, execRegionRestart_restarts,
    fun strand frag => ?stopped, fun source target waiting => ?send, execMailboxMessage_held, fun target nonempty alone => ?take,
    fun target w rest queue mine full waiting => ?refill⟩
  case stopped =>
    have found := fragOf_eq_some strand frag
    refine ⟨execFirmwareTrapService_end found, fun reserved wait => execFirmwareTrapService_reserved found wait ?_,
      fun wait resident => ⟨execFirmwareTrapService_yield found wait resident, execFirmwareResume_yield found wait resident⟩,
      execFirmwareTrapService_log found, execDebugResume_end found, execDebugResume_go found⟩
    obtain rfl | rfl := reserved <;> decide
  case send =>
    have sends := execMailboxMessage_sends (msg := msg) waiting source target
    exact ⟨fun room => sends.trans (congrArg _ (mailPut_room waiting room)), fun full => sends.trans (congrArg _ (mailPut_full waiting full))⟩
  case take =>
    have free : ∀ e ∈ s.host.mailWait, e.1 ≠ dst := by simp only [alone, List.not_mem_nil, false_implies, implies_true]
    rw [exec_mailboxMessage, execMailboxMessage_takes target free nonempty, mailTake_alone alone, ← alone]
    rfl
  case refill =>
    have nonempty : boxOf s dst ≠ [] := List.ne_nil_of_length_eq_add_one (n := 63) full
    have others : ∀ e ∈ rest, 64 ≤ (boxOf s e.2.1).length := fun e he => (waiting e (queue ▸ List.mem_cons_of_mem _ he)).2
    rw [exec_mailboxMessage, execMailboxMessage_takes target (fun e he => (waiting e he).1) nonempty, mailTake_refills queue mine full others]
    rfl

end Sys2Proof
end

section
/-!
SUPPORT. O6 and O7: what a moment instruction computes for its threads, and the negative variance that it raises (R175, R178 to R180).
-/
namespace Sys2Proof.Machine

variable {i : Instr} {h : Hdr} {lat : Nat} {d : Opnd} {ty : Ty} {c : Ctx}

/-! ## Writing or raising -/

/-- Whether an acting thread finds a negative variance decides %mflag and NEGVAR (R180). -/
theorem any_momRes_bad (c : Ctx) (h : Hdr) (g : Nat → MomRes) :
    (((c.acts h).map fun t => (t, g t)).any fun x => x.2.bad) = (c.acts h).any fun t => (g t).bad :=
  List.any_map

/-- Where no acting thread finds a negative variance, or it is replaced, every acting thread's result is written (R180). -/
theorem momWrite_writes {g : Ctx → Nat → MomRes} (ok : noNegvar h g c) :
    momWrite c h d ty (g c) = .ok (moments c h d ty (g c)).ws (moments c h d ty (g c)).fl (moments c h d ty (g c)).mfl := by
  have goes : (((c.acts h).any fun t => (g c t).bad) && !c.st.sp.vclamp) = false := by
    obtain clamps | sound := ok
    · rw [clamps, Bool.not_true, Bool.and_false]
    · rw [List.any_eq_false.2 fun t ht => Bool.eq_false_iff.1 (sound t ht), Bool.false_and]
  simp only [momWrite, any_momRes_bad, goes, Bool.false_eq_true, if_false, moments, List.map_map, Function.comp_def]

/-- A negative variance that an acting thread finds and nothing replaces raises NEGVAR (R180). -/
theorem momWrite_negvar {g : Nat → MomRes} (clamp : c.st.sp.vclamp = false) (found : ∃ t ∈ c.acts h, (g t).bad = true) :
    momWrite c h d ty g = .cause 0x20#8 := by
  simp only [momWrite, any_momRes_bad, List.any_eq_true.2 found, clamp, Bool.not_false, Bool.and_true, if_true]

/-! ## Instructions that write moments -/

/-- A tracked instruction whose body ends in a user cause takes it (R59, R80). -/
theorem laneOpT_cause {u : Uses} {s : State} {st : Strand} (I : Issues h u s st c) (tracked : u.tracked = true) (body : Ctx → Res)
    {e : BitVec 8} (he : body c = .cause e) : laneOpT h u s body = .next (raiseUser (issued h u s st c) c.sid c.f e none) := by
  have same : { u with tracked := true } = u := by rw [← tracked]
  unfold laneOpT
  rw [same, issue_of_issues I]
  simp only [he]
  rfl

section
variable {u : State → Uses} {g : Ctx → Nat → MomRes} (e : ∀ s, exec i s = laneOp h lat (u s) s fun c => momWrite c h d ty (g c))
include e

/-- A fixed-latency moment instruction writes its threads' results (R43, R180). -/
theorem doesIf_moments : DoesIf i h u lat (noNegvar h g) fun c => moments c h d ty (g c) :=
  fun s _ _ I ok => does_of I (e s) (momWrite_writes ok)

/-- It raises NEGVAR where an acting thread has a condition `bad` under which its result fails (R178, R180). -/
theorem negvarTraps_moments {bad : Ctx → Nat → Bool} (fails : ∀ c t, bad c t = true → (g c t).bad = true) : NegvarTraps i h u bad :=
  fun s _ c I clamp ⟨t, acts, found⟩ => (e s).trans (laneOp_cause I lat _ (momWrite_negvar clamp ⟨t, acts, fails c t found⟩))

end

section
variable {u : Uses} {g : Ctx → Nat → MomRes} (tracked : u.tracked = true)
  (e : ∀ s, exec i s = laneOpT h u s fun c => momWrite c h d ty (g c))
include tracked e

/-- A tracked moment instruction has its threads' results pending (R44, R180). -/
theorem doesTIf_moments : DoesTIf i h u (noNegvar h g) fun c => moments c h d ty (g c) :=
  fun s _ _ I ok => doesT_of I (e s) tracked (momWrite_writes ok)

/-- It raises NEGVAR at its issue under the same condition (R178, R180). -/
theorem negvarTrapsT_moments {bad : Ctx → Nat → Bool} (fails : ∀ c t, bad c t = true → (g c t).bad = true) :
    NegvarTraps i h (fun _ => u) bad :=
  fun s _ c I clamp ⟨t, acts, found⟩ => (e s).trans (laneOpT_cause I tracked _ (momWrite_negvar clamp ⟨t, acts, fails c t found⟩))

end

/-! ## The checked operand of MRLU, MEXP and MPHI -/

/-- A negative input variance fails whatever the function makes of it (R178, R179). -/
theorem momFun_bad {inf : Bool → Bool → Bool → Nat × Nat} {zero : Num → Nat → Rounded} {exact : Apx → Apx → Apx × Apx} {km kv : Nat}
    {more : Bool} {free : Nat → Nat → Nat × Nat} {x : Nat} (negative : varFails (momVar x) = true) :
    (momFun inf zero exact km kv more free x).bad = true := by
  unfold momFun
  dsimp only
  split
  · exact negative
  split
  · exact negative
  split
  · exact negative
  · rw [negative, Bool.true_or]

end Sys2Proof.Machine
end

section
namespace Sys2Proof.Machine

/-- Settles O6: the moves give one value per thread, the others a moment result per thread, written where none fails. -/
theorem momentInstructionResults : Obligations.MomentInstructionResults := by
  unfold Obligations.MomentInstructionResults
  intro h cov rnd d a b clp chk one oneT two covU x y z m v neg form pair fma scl sqr put clip
  refine ⟨does_each fun _ => rfl, ?mput, does_each fun _ => rfl, does_each fun _ => rfl, does_each fun _ => rfl, ?madd, ?msub, ?mmul, ?mfma,
    ?mscl, ?msqr, ?mrlu, ?mexp, ?mphi, ?mclp, does_each fun _ => rfl⟩
  case mput | madd | msub | mmul | mfma | mscl | msqr | mclp => exact doesIf_moments fun _ => rfl
  case mrlu | mexp | mphi => exact doesTIf_moments rfl fun _ => rfl

end Sys2Proof.Machine
end

section
namespace Sys2Proof.Machine

/-- Settles O7: a thread's result fails where a checked operand is negative, by its definition for the arithmetic rules and by
`momFun_bad` for the three functions. -/
theorem negativeVarianceRaisesNegvar : Obligations.NegativeVarianceRaisesNegvar := by
  unfold Obligations.NegativeVarianceRaisesNegvar
  intro h cov rnd clp d a b one oneT two covU neg ofA ofAB
  refine ⟨?mput, ?madd, ?msub, ?mmul, ?mfma, ?mscl, ?msqr, ?mrlu, ?mexp, ?mphi, ?mclp⟩
  case mput | madd | msub | mmul | mfma | mscl | msqr | mclp => exact negvarTraps_moments (fun _ => rfl) fun _ _ negative => negative
  case mrlu | mexp | mphi => exact negvarTrapsT_moments rfl (fun _ => rfl) fun _ _ => momFun_bad

end Sys2Proof.Machine
end

section
/-!
SUPPORT. O27: GROW and SHRK as issued (R201, R242, R243).
-/
namespace Sys2Proof
open Sys2Proof.Machine

variable {h : Hdr} {u : Uses} {s : State} {st : Strand} {c : Ctx} {i : Instr} {wt : Bool} {cl : GClass} {d a : Opnd}

theorem acts_isEmpty (acting : c.acts h ≠ []) : (c.acts h).isEmpty = false := List.isEmpty_eq_false_iff.2 acting

/-- An instruction whose body moves on where no thread acts is idle there (R41). -/
theorem idle_of_body {body : Ctx → State → Out} (runs : ∀ s, exec i s = issue h u s body)
    (moves : ∀ c s, c.acts h = [] → body c s = .next (advance s c.sid c.f h)) : idle h u i :=
  fun s _ c I still => (runs s).trans ((issue_of_issues I body).trans (moves c _ still))

/-! ## GROW -/

/-- The registers that GROW uses: it writes its predicate, tracked (R242). -/
abbrev growUses (d a : Opnd) : Uses := usesT (refsOf d false) (refsOf a false)

/-- The fragment moves on with its predicate told to its live threads (R242). -/
def growTells (h : Hdr) (c : Ctx) (d : Opnd) (s : State) (ok : Bool) : State :=
  advance (s.updStrand c.sid fun y => y.track c.f true (refsOf d false) (liveP y c.fr.mask d ok) flNone false .none) c.sid c.f h

section
variable (I : Issues h (growUses d a) s st c) (acting : c.acts h ≠ [])
include I acting

/-- A count that the class has already succeeds (R242). -/
theorem execGrow_held (held : roundUp (c.st.r.uni32 a) (granule cl) ≤ c.st.r.alloc cl) :
    execGrow h wt cl d a s = .next (growTells h c d (issued h (growUses d a) s st c) true) := by
  rw [execGrow.eq_def, issue_of_issues I]
  simp only [acts_isEmpty acting, held, Bool.false_eq_true, if_true, if_false]
  rfl

variable (new : c.st.r.alloc cl < roundUp (c.st.r.uni32 a) (granule cl))
include new

/-- A count beyond the class fails (R242). -/
theorem execGrow_beyond (beyond : classMax cl < roundUp (c.st.r.uni32 a) (granule cl)) :
    execGrow h wt cl d a s = .next (growTells h c d (issued h (growUses d a) s st c) false) := by
  rw [execGrow.eq_def, issue_of_issues I]
  simp only [acts_isEmpty acting, Nat.not_le.2 new, beyond, Bool.false_eq_true, if_true, if_false]
  rfl

/-- A new count takes effect at once where no request waits and the blocks are free (R201, R242). -/
theorem execGrow_fits (within : roundUp (c.st.r.uni32 a) (granule cl) ≤ classMax cl)
    (first : growQueue (issued h (growUses d a) s st c) c.st.core = [])
    (fits : growFits (issued h (growUses d a) s st c) c.st cl (roundUp (c.st.r.uni32 a) (granule cl)) = true) :
    execGrow h false cl d a s = .next (growTells h c d ((issued h (growUses d a) s st c).updStrand c.sid fun y =>
      { y with r := y.r.setAlloc cl (roundUp (c.st.r.uni32 a) (granule cl)) }) true) := by
  rw [execGrow.eq_def, issue_of_issues I]
  simp only [acts_isEmpty acting, Nat.not_le.2 new, Nat.not_lt.2 within, first, fits, List.isEmpty_nil, Bool.not_false, Bool.and_self,
    Bool.false_eq_true, if_true, if_false]
  rfl

end

/-! ## SHRK -/

/-- SHRK of a strand with nothing pending lowers its count (R201, R243). -/
theorem execShrk_lowers (I : Issues h (uses [] (refsOf a false)) s st c) (acting : c.acts h ≠ []) (quiet : c.st.pend = [])
    (lower : max (roundUp (c.st.r.uni32 a) (granule cl)) (c.st.floor c.f cl) < c.st.r.alloc cl) :
    execShrk h cl a s = .next (advance ((issued h (uses [] (refsOf a false)) s st c).updStrand c.sid fun y =>
      let n := max (roundUp (c.st.r.uni32 a) (granule cl)) (c.st.floor c.f cl)
      let z := y.landIf fun p => !p.tracked && p.marks.any fun r => r.c == classOf cl && decide (n ≤ r.n) && !(cl == .k && decide (56 ≤ r.n))
      { z with r := z.r.setAlloc cl n }) c.sid c.f h) := by
  rw [execShrk, issue_of_issues I]
  simp only [acts_isEmpty acting, Nat.not_le.2 lower, quiet, decide_false, Bool.or_self, List.any_nil, Bool.false_eq_true, if_false]

/-- Settles O27, outcome by outcome. -/
theorem growAndShrink : Obligations.GrowAndShrink := by
  unfold Obligations.GrowAndShrink
  intro h wt cl d a u us
  refine ⟨idle_of_body (fun _ => rfl) fun c s still => ?grows, idle_of_body (fun _ => rfl) fun c s still => ?shrinks,
    fun s st c I acting => ?outcomes,
    fun s st c I acting quiet => execShrk_lowers I acting quiet⟩
  case grows | shrinks => simp only [still, List.isEmpty_nil, Bool.true_or, if_true]
  case outcomes =>
    refine ⟨execGrow_held I acting, execGrow_beyond I acting, fun new within now first fits => ?fits⟩
    subst now
    exact execGrow_fits I acting new within first fits

end Sys2Proof
end

section
/-!
SUPPORT. O29: the instructions of a transaction barrier's record (R218, R219, R248, R249).
-/
namespace Sys2Proof
open Sys2Proof.Machine

variable {h : Hdr} {u : Uses} {s : State} {st : Strand} {c : Ctx} {d a b : Opnd}

/-- An instruction that names a record of its batch goes to it (R248). -/
theorem xbOp_record {go : Ctx → Nat → State → Out} (I : Issues h u s st c) (acting : c.acts h ≠ [])
    (record : xbOk s c.st.batch (c.st.r.uni32 a) = true) :
    xbOp h u a s go = go c (c.st.r.uni32 a) (issued h u s st c) := by
  have record' : xbOk (issued h u s st c) c.st.batch (c.st.r.uni32 a) = true := record
  rw [xbOp, issue_of_issues I]
  simp only [acts_isEmpty acting, record', Bool.false_eq_true, if_true, if_false]

/-- The bytes that XBI writes: count and reload, everything else 0 (R218, R248). -/
theorem Xb.enc_initial {n : Nat} (count : n < 2 ^ 20) :
    Xb.enc { phase := 0, arr := n, exp := 0, reload := n, done := 0, rsv := 0 } = n * 2 ^ 4 + n * 2 ^ 64 := by
  show 0 % 16 + n % 2 ^ 20 * 2 ^ 4 + 0 % 2 ^ 40 * 2 ^ 24 + n % 2 ^ 20 * 2 ^ 64 + 0 % 2 ^ 40 * 2 ^ 84 + 0 % 16 * 2 ^ 124 = _
  omega

section
variable (acting : c.acts h ≠ []) (record : xbOk s c.st.batch (c.st.r.uni32 a) = true)
include acting record

section
variable (I : Issues h (uses [] (refsOf a false ++ refsOf b false)) s st c)
include I

/-- XBI sets count and reload and clears the rest (R248). -/
theorem execXbi_sets : execXbi h a b s = .next (advance (storeScr (issued h (uses [] (refsOf a false ++ refsOf b false)) s st c) c.st.batch
    (atOff (c.st.r.uni32 a) (leBytes 16 (c.st.r.uni32 b % 2 ^ 20 * 2 ^ 4 + c.st.r.uni32 b % 2 ^ 20 * 2 ^ 64)))) c.sid c.f h) := by
  rw [execXbi, xbOp_record I acting record, ← Xb.enc_initial (Nat.mod_lt _ (by decide))]

/-- XBW goes on, with an acquire at .module, where the phase differs (R248, R249). -/
theorem execXbw_passes (differs : (readXb s c.st.batch (c.st.r.uni32 a)).phase ≠ c.st.r.uni32 b % 16) :
    execXbw h a b s
      = .next (dropRlb (advance (issued h (uses [] (refsOf a false ++ refsOf b false)) s st c) c.sid c.f h) c.st.core .module) := by
  rw [execXbw, xbOp_record I acting record]
  exact if_pos differs

/-- XBW blocks where it does not (R248). -/
theorem execXbw_blocks (same : (readXb s c.st.batch (c.st.r.uni32 a)).phase = c.st.r.uni32 b % 16) :
    execXbw h a b s = .next ((issued h (uses [] (refsOf a false ++ refsOf b false)) s st c).updFrag c.sid c.f fun fr =>
      { fr with st := .blocked, wait := .xbw (c.st.r.uni32 a) (c.st.r.uni32 b % 16),
                evt := w64n (c.st.r.uni32 a + c.st.r.uni32 b % 16 * 2 ^ 32), gap := max h.stall.toNat 1 }) := by
  rw [execXbw, xbOp_record I acting record]
  exact if_neg (not_not_intro same)

end

end

/-- Settles O29: each instruction goes to its record, and its update of the record is the definition of R219. -/
theorem transactionBarriers : Obligations.TransactionBarriers := by
  unfold Obligations.TransactionBarriers
  intro h d a b s st c ua uab ut r p n acting record
  refine ⟨fun I => ⟨execXbi_sets acting record I, ?xbe, execXbw_passes acting record I, execXbw_blocks acting record I⟩, fun I => ?xba,
    fun I => ?xbt⟩
  case xbe =>
    rw [exec_xbe, execXbe, xbOp_record I acting record]
    rfl
  case xba =>
    rw [exec_xba, execXba, xbOp_record I acting record]
    rfl
  case xbt =>
    rw [exec_xbt, execXbt.eq_def, xbOp_record I acting record]
    rfl

end Sys2Proof
end

section
/-!
SUPPORT. O34: GROW requests, the barrier's combining tree and its watchdogs as steps (R202, R203, R213, R215, R216).
-/
namespace Sys2Proof
open Sys2Proof.Machine

variable {s : State} {c sid f n p q slot job team unit k : Nat} {cl : GClass} {sl : BarSlot} {t : Team} {st : Strand} {fr : Frag} {j : Job}

/-! ## GROW requests -/

section
variable {h : Hdr} {wt ok : Bool} {cl' : GClass} {d a : Opnd}

/-- The end of a GROW.wait tells its predicate (R202, R203, R242). -/
theorem growDone_tells (strand : nmGet s.strands sid = some st) (frag : nmGet st.frags f = some fr) (hj : s.job? st = some j)
    (word : decode (j.word fr.pc) = .ok (.grow h wt cl' d a)) : growDone s sid f p ok = growTold s st fr d sid f p ok := by
  simp only [growDone, strand, frag, hj, word]
  rfl

/-- The strand whose GROW.wait is granted: its count is raised, unless it has it already (R202). -/
def grownTo (cl : GClass) (n : Nat) (x : Strand) : Strand := if n ≤ x.r.alloc cl then x else { x with r := x.r.setAlloc cl n }

/-- A grant changes the strand's registers only (R202). -/
theorem grownTo_shape (cl : GClass) (n : Nat) (x : Strand) : ∃ r, grownTo cl n x = { x with r := r } := by
  unfold grownTo
  split
  · exact ⟨x.r, rfl⟩
  · exact ⟨_, rfl⟩

/-- The head of the queue is granted where it fits (R202). -/
theorem execGrowGrant_grants (strand : nmGet s.strands sid = some st) (frag : nmGet st.frags f = some fr) (hj : s.job? st = some j)
    (word : decode (j.word fr.pc) = .ok (.grow h wt cl' d a)) (head : growHead s c = some (q, sid, f, cl, n, p)) :
    execGrowGrant c s = .next (growTold (s.updStrand sid (grownTo cl n)) st fr d sid f p true) := by
  obtain ⟨r, shape⟩ := grownTo_shape cl n st
  have strand' : nmGet (s.updStrand sid (grownTo cl n)).strands sid = some { st with r := r } := by
    rw [State.strand_updStrand_self, strand, Option.map_some, shape]
  have told := growDone_tells (s := s.updStrand sid (grownTo cl n)) (p := p) (ok := true) strand' frag hj word
  simp only [execGrowGrant, head]
  exact congrArg _ told

/-- The youngest request fails when none can be granted and no resident strand can go on (R203). -/
theorem execGrowWaitFail_fails (strand : nmGet s.strands sid = some st) (frag : nmGet st.frags f = some fr) (hj : s.job? st = some j)
    (word : decode (j.word fr.pc) = .ok (.grow h wt cl' d a)) (stuck : growHead s c = none)
    (still : ∀ e ∈ s.strands, e.2.core = c → e.2.resident = true → ∀ x ∈ e.2.frags, x.2.moves = false)
    (youngest : (growQueue s c).getLast? = some (q, sid, f, cl, n, p)) :
    execGrowWaitFail c s = .next (growTold s st fr d sid f p false) := by
  have noneMoves : (s.strands.any fun e => e.2.core == c && e.2.resident && e.2.frags.any fun x => x.2.moves) = false := by
    simp only [List.any_eq_false, Bool.and_eq_true, beq_iff_eq, List.any_eq_true, not_and, not_exists, Bool.not_eq_true, and_imp]
    exact fun e he core resident x hx => still e he core resident x hx
  have fails : growFails s c = some (q, sid, f, cl, n, p) := by
    simp only [growFails, stuck, noneMoves, Option.isSome_none, Bool.or_self, Bool.false_eq_true, if_false, youngest]
  simp only [execGrowWaitFail, fails]
  exact congrArg _ (growDone_tells strand frag hj word)

end

/-! ## The combining tree -/

/-- With one team of that number in the job, its message is the one that may be due (R213). -/
theorem execBarrierArrivalMsg_one {fromDie : Bool} {s1 : State}
    (one : s.teams.filter (fun e => e.2.job == job && e.2.num == team) = [(k, t)]) (msg : arrivalMsg s fromDie unit k t = some s1) :
    execBarrierArrivalMsg fromDie unit job team s = .next s1 := by
  simp only [execBarrierArrivalMsg, one, List.findSome?_cons, msg]

/-- A full slot sends its count up, once (R213). -/
theorem arrivalMsg_slot (found : slotOf s unit t.job t = some (n, sl)) (spread : 2 ≤ (teamCores s t).length) (phase : sl.phase = t.phase)
    (full : sl.arrived = (membersOn s t unit).length) (unsent : sl.sent ≠ some sl.arrived) :
    arrivalMsg s false unit k t = some (topCheck ((dieCount s t unit sl.arrived).updCore unit fun x =>
      { x with slots := nmSet x.slots n { sl with sent := some sl.arrived } }) k) := by
  have due : ¬((teamCores s t).length < 2 ∨ sl.phase ≠ t.phase ∨ sl.arrived ≠ (membersOn s t unit).length ∨ sl.sent = some sl.arrived) := by
    simp only [not_or]
    exact ⟨Nat.not_lt.2 spread, not_not_intro phase, not_not_intro full, unsent⟩
  simp only [arrivalMsg, found, Bool.not_false, if_true]
  exact if_neg due

/-- A die whose slots have all sent sends their sum up, where it is new (R213). -/
theorem arrivalMsg_die (spread : 2 ≤ (((teamCores s t).map dieOf).eraseDups).length) (mine : ∃ c ∈ teamCores s t, dieOf c = unit)
    (all : ∀ c ∈ teamCores s t, dieOf c = unit → ∃ i x, slotOf s c t.job t = some (i, x) ∧ x.phase = t.phase ∧ x.sent ≠ none)
    (new : dieSum s t unit ≠ ((nmGet s.pkgComb (combKey t.job t)).bind fun x => nmGet x.cnt unit).getD 0) :
    arrivalMsg s true unit k t = some (topCheck (pkgCount s t unit (dieSum s t unit)) k) := by
  have some' : ((teamCores s t).filter fun c => dieOf c == unit).isEmpty = false := by simpa using mine
  have sent : (((teamCores s t).filter fun c => dieOf c == unit).all fun c =>
      ((slotOf s c t.job t).map fun x => x.2.phase == t.phase && x.2.sent.isSome).getD false) = true := by
    simp only [List.all_eq_true, List.mem_filter, beq_iff_eq, and_imp]
    intro c hc here
    obtain ⟨i, x, found, phase, out⟩ := all c hc here
    simp only [found, Option.map_some, Option.getD_some, phase, beq_self_eq_true, Bool.true_and]
    exact Option.isSome_iff_ne_none.2 out
  have due : ¬((((teamCores s t).map dieOf).eraseDups).length < 2 ∨ ((teamCores s t).filter fun c => dieOf c == unit).isEmpty = true ∨
      (!((teamCores s t).filter fun c => dieOf c == unit).all fun c =>
        ((slotOf s c t.job t).map fun x => x.2.phase == t.phase && x.2.sent.isSome).getD false) = true ∨
      dieSum s t unit = ((nmGet s.pkgComb (combKey t.job t)).bind fun x => nmGet x.cnt unit).getD 0) := by
    rw [some', sent]
    simp only [not_or, Nat.not_lt, Bool.not_true, Bool.false_eq_true, not_false_eq_true, true_and]
    exact ⟨spread, new⟩
  simp only [arrivalMsg, Bool.not_true, Bool.false_eq_true, if_false]
  exact if_neg due

/-! ## Releases and watchdogs -/

section
variable (found : nmGet (s.core c).slots slot = some sl)
include found

/-- A release reaches its core (R213). -/
theorem execBarrierRelease_releases
    (due : s.teams.find? (fun e => e.2.job == sl.job && e.2.num == sl.team && e.2.bidx == sl.bidx && e.2.rels.contains c) = some (k, t)) :
    execBarrierRelease c slot s = .next (releaseSlot s c k) := by
  simp only [execBarrierRelease, found, due]

/-- A watchdog at its limit stops where its phase has completed, and otherwise ends the job (R215, R216). -/
theorem execBarTimeout_fires (watch : sl.watch = some n) (limit : sl.limit ≤ n)
    (mine : s.teams.find? (fun e => e.2.job == sl.job && e.2.num == sl.team && e.2.bidx == sl.bidx) = some (k, t))
    (present : ∀ m ∈ t.members, ∀ x, nmGet s.strands m = some x → x.st ≠ .saved) :
    execBarTimeout c slot s = if sl.phase ≠ t.phase then .next (s.updCore c fun x => { x with slots := nmSet x.slots slot { sl with watch := none } })
      else .next (endJob s sl.job 0x63#8 (barrierRec s c slot k)) := by
  have unsaved : (t.members.any fun sid => match nmGet s.strands sid with | some st => st.st == .saved | none => false) = false := by
    rw [List.any_eq_false]
    intro m hm
    split
    case h_1 x strand => simpa using present m hm x strand
    case h_2 => exact Bool.false_ne_true
  simp only [execBarTimeout, found, watch, mine]
  exact if_neg (not_or.2 ⟨Nat.not_lt.2 limit, Bool.eq_false_iff.1 unsaved⟩)

end

/-- Settles O34, step by step. -/
theorem allocationAndBarrierStepsTakeEffect : Obligations.AllocationAndBarrierStepsTakeEffect := by
  unfold Obligations.AllocationAndBarrierStepsTakeEffect
  intro s c sid f n p q slot job team unit k cl sl t st fr j h wt cl' d a
  refine ⟨fun strand frag hj word => ⟨execGrowGrant_grants strand frag hj word, execGrowWaitFail_fails strand frag hj word⟩,
    fun one => ?messages, fun found => ⟨execBarrierRelease_releases found, fun watch limit mine present => ?watchdog⟩⟩
  case messages =>
    have listed : (k, t) ∈ s.teams.filter fun e => e.2.job == job && e.2.num == team := one ▸ List.mem_singleton_self _
    obtain rfl : t.job = job := beq_iff_eq.1 (Bool.and_eq_true_iff.1 (List.mem_filter.1 listed).2).1
    exact ⟨fun found spread phase full unsent => execBarrierArrivalMsg_one one (arrivalMsg_slot found spread phase full unsent),
      fun spread mine all new => execBarrierArrivalMsg_one one (arrivalMsg_die spread mine all new)⟩
  case watchdog =>
    have fires := execBarTimeout_fires found watch limit mine present
    exact ⟨fun same => fires.trans (if_neg (not_not_intro same)), fun past => fires.trans (if_pos past)⟩

end Sys2Proof
end

section
/-!
SUPPORT. O36: commands for the engines, and the hardware queues (R220, R223, R224, R250, R257).
-/
namespace Sys2Proof
open Sys2Proof.Machine

variable {h : Hdr} {u : Uses} {s : State} {st : Strand} {c : Ctx} {i : Instr} {d a b : Opnd}

/-! ## A strand that sends a command -/

/-- What a table's records answer does not change with a record that answers the same. -/
theorem flatMap_filter_insKey {α β : Type} {p : Nat × α → Bool} {q : Nat × α → List β} {k : Nat} {x y : α}
    (accepted : p (k, y) = p (k, x)) (answer : q (k, y) = q (k, x)) (m : NMap α) :
    ((insKey m k y).filter p).flatMap q = ((insKey m k x).filter p).flatMap q := by
  induction m with
  | nil =>
    simp only [insKey, List.filter_cons, accepted]
    split
    · simp only [List.flatMap_cons, answer]
    · rfl
  | cons e m ih =>
    simp only [insKey]
    split
    · simp only [List.filter_cons (x := (k, _)), accepted]
      split
      · simp only [List.flatMap_cons, answer]
      · rfl
    · simp only [List.filter_cons (x := (e.1, e.2))]
      split
      · simp only [List.flatMap_cons, ih]
      · exact ih

/-- The fragments of a strand that wait for an entry, with their requests (R220). -/
def entryWaits (g : CmdReq → Bool) (e : Nat × Strand) : List (Nat × Nat × Nat × CmdReq) :=
  e.2.frags.filterMap fun f => match f.2.wait with
    | .cmd r q => if g r then some (q, e.1, f.1, r) else none
    | _ => none

theorem cmdQueue_eq (s : State) (cores : List Nat) (g : CmdReq → Bool) : cmdQueue s cores g =
    ((s.strands.filter fun e => cores.contains e.2.core && e.2.resident).flatMap (entryWaits g)).mergeSort fun x y => x.1 ≤ y.1 := rfl

/-- An update that leaves a strand on its core with its fragments. -/
def StaysPut (f : Strand → Strand) : Prop := ∀ x, (f x).core = x.core ∧ (f x).st = x.st ∧ (f x).frags = x.frags

/-- Such an update leaves the queue for entries as it was (R220). -/
theorem StaysPut.cmdQueue_eq {f : Strand → Strand} (stays : StaysPut f) {sid : Nat} {m : NMap Strand} (strands : s.strands = nmSet m sid st)
    (cores : List Nat) (g : CmdReq → Bool) : cmdQueue (s.updStrand sid f) cores g = cmdQueue s cores g := by
  obtain ⟨core, status, frags⟩ := stays st
  rw [Sys2Proof.cmdQueue_eq, Sys2Proof.cmdQueue_eq, State.updStrand_strands, strands, nmUpd_nmSet, nmSet, nmSet,
    flatMap_filter_insKey (x := st) (y := f st) (by simp only [Strand.resident, core, status]) (by simp only [entryWaits, frags])]

/-- Sending a command marks its strand and may extend its log (R329, R447). -/
theorem sends_staysPut (s : State) (sid f : Nat) (r : CmdReq) : ∃ g, StaysPut g ∧ s.sends sid f r = s.updStrand sid g := by
  unfold State.sends
  split
  · refine ⟨fun y => { y with acted := true, log := y.log ++ [(s.acts sid).wordAt { y with acted := true } f] }, fun _ => ⟨rfl, rfl, rfl⟩, ?_⟩
    exact congrArg (fun m => { s with strands := m }) (nmUpd_nmUpd _ _ _ _)
  · exact ⟨fun y => { y with acted := true }, fun _ => ⟨rfl, rfl, rfl⟩, rfl⟩

/-! ## CPY, GTH and SCT -/

/-- A command whose engine has a free entry that nothing waits for enters its queue (R220, R250, R338, R350). -/
theorem engAccepts_of {mk : Nat → W32 → CmdReq} {gather : Bool} (runs : ∀ s, exec i s = engIssue h a b mk s)
    (engine : ∀ o t, (cmdParts (mk o t)).map (·.1) = some gather) : EngAccepts i h a b gather mk := by
  intro s st c s1 s2 u r I acting ended b1 acquire out room first accepted
  obtain ⟨g, stays, sent⟩ := sends_staysPut s1 c.sid c.f r
  obtain ⟨cs, ds, det, rsb, log, shape⟩ := endRegion_shape (issued_strand (h := h) (u := u) (s := s) (st := st) (c := c)) ended
  have free : (engQueue s1 c.st.core gather).length < 32 := by
    have cores : b1.core c.st.core = s1.core c.st.core := by rw [show b1 = _ from sent]; rfl
    simpa only [engQueue, cores] using room
  have noneWaits : cmdQueue s1 [c.st.core] (fun x => (cmdParts x).map (·.1) == some gather) = [] := by
    rw [show b1 = _ from sent, stays.cmdQueue_eq (by rw [shape])] at first
    exact first
  have enters : ¬(32 ≤ (engQueue s1 c.st.core gather).length ∨
      (!(cmdQueue s1 [c.st.core] fun x => (cmdParts x).map (·.1) == some gather).isEmpty) = true) := by
    simp only [noneWaits, List.isEmpty_nil, Bool.not_true, Bool.false_eq_true, or_false]
    exact Nat.not_le.2 free
  rw [runs, engIssue, issue_of_issues I]
  simp only [acts_isEmpty acting, ended, acquire, out, engine, Option.getD_some, Bool.not_true, Bool.or_self, Bool.false_eq_true, if_false]
  rw [if_neg enters, accepted]
  rfl

/-! ## QPUT and QGET -/

theorem issued_hwq (core n : Nat) : (issued h u s st c).hwq core n = s.hwq core n := by
  rw [State.hwq, issued_core_queues]
  rfl

section
variable {go : Ctx → Nat → State → Out} (I : Issues h u s st c) (acting : c.acts h ≠ [])
include I acting

/-- A queue of the batch takes the instruction (R223). -/
theorem queueOp_own (own : (s.hwq c.st.core (c.st.r.uni64 a % 64)).batch = some c.st.batch) :
    queueOp h u a s go = go c (c.st.r.uni64 a % 64) (issued h u s st c) := by
  rw [queueOp, issue_of_issues I]
  simp only [acts_isEmpty acting, issued_hwq, own, Bool.false_eq_true, if_true, if_false]

/-- Another batch's queue raises QUEUE_OWNER (R223). -/
theorem queueOp_foreign {x : Nat} (owner : (s.hwq c.st.core (c.st.r.uni64 a % 64)).batch = some x) (foreign : x ≠ c.st.batch) :
    queueOp h u a s go = .next (raiseUser (issued h u s st c) c.sid c.f 0x64#8 none) := by
  rw [queueOp, issue_of_issues I]
  simp only [acts_isEmpty acting, issued_hwq, owner, foreign, Bool.false_eq_true, if_false]
  rfl

end

/-- QPUT adds its threads' values to a queue with room, behind nobody (R224, R257). -/
theorem execQput_adds (I : Issues h (uses [] (refsOf a false ++ refsOf b false)) s st c) (acting : c.acts h ≠ [])
    (own : (s.hwq c.st.core (c.st.r.uni64 a % 64)).batch = some c.st.batch) (room : (s.hwq c.st.core (c.st.r.uni64 a % 64)).ents.length < 16)
    (first : queueWaiters (issued h (uses [] (refsOf a false ++ refsOf b false)) s st c) c.st.core (c.st.r.uni64 a % 64) false = []) :
    let n := c.st.r.uni64 a % 64
    let vals := threads.map fun t => if inMask (maskOf (c.acts h)) t then BitVec.ofNat 32 (c.st.r.src .b32 t b) else 0#32
    execQput h a b s = .next (advance ((issued h (uses [] (refsOf a false ++ refsOf b false)) s st c).setHwq c.st.core n
      { s.hwq c.st.core n with ents := (s.hwq c.st.core n).ents ++ [(maskOf (c.acts h), vals)] }) c.sid c.f h) := by
  have enters : ¬(16 ≤ (s.hwq c.st.core (c.st.r.uni64 a % 64)).ents.length ∨
      (!(queueWaiters (issued h (uses [] (refsOf a false ++ refsOf b false)) s st c) c.st.core (c.st.r.uni64 a % 64) false).isEmpty) = true) := by
    simp only [first, List.isEmpty_nil, Bool.not_true, Bool.false_eq_true, or_false]
    exact Nat.not_le.2 room
  rw [execQput, queueOp_own I acting own]
  simp only [issued_hwq]
  exact if_neg enters

/-- QGET takes the oldest entry of a queue, behind nobody (R224, R257). -/
theorem execQget_takes {e : W32 × List W32} {rest : List (W32 × List W32)} (I : Issues h (usesT (refsOf d false) (refsOf a false)) s st c)
    (acting : c.acts h ≠ []) (own : (s.hwq c.st.core (c.st.r.uni64 a % 64)).batch = some c.st.batch)
    (entries : (s.hwq c.st.core (c.st.r.uni64 a % 64)).ents = e :: rest)
    (first : queueWaiters (issued h (usesT (refsOf d false) (refsOf a false)) s st c) c.st.core (c.st.r.uni64 a % 64) true = []) :
    let n := c.st.r.uni64 a % 64
    execQget h d a s = .next (advance (((issued h (usesT (refsOf d false) (refsOf a false)) s st c).setHwq c.st.core n
      { s.hwq c.st.core n with ents := rest }).updStrand c.sid fun y =>
        y.track c.f true (refsOf d false) (takeEntry (c.dst h d .b32 ((c.acts h).map fun t => (t, 0))) e) flNone false .none) c.sid c.f h) := by
  rw [execQget.eq_def, queueOp_own I acting own]
  simp only [issued_hwq, entries, first, List.isEmpty_nil, if_true]

/-- Settles O36: the three commands share one acceptance, and each queue instruction finds its queue. -/
theorem engineCommandsAndQueues : Obligations.EngineCommandsAndQueues := by
  unfold Obligations.EngineCommandsAndQueues
  intro h ui d a b uab ug
  refine ⟨idle_of_body (fun _ => rfl) fun c s still => ?cpy, idle_of_body (fun _ => rfl) fun c s still => ?gth,
    idle_of_body (fun _ => rfl) fun c s still => ?sct, idle_of_body (fun _ => rfl) fun c s still => ?qput,
    idle_of_body (fun _ => rfl) fun c s still => ?qget, engAccepts_of (fun _ => rfl) fun _ _ => rfl,
    engAccepts_of (fun _ => rfl) fun _ _ => rfl, engAccepts_of (fun _ => rfl) fun _ _ => rfl,
    fun s st c I acting => execQput_adds I acting, fun s st c e rest I acting => execQget_takes I acting⟩
  case cpy | gth | sct | qput | qget => simp only [still, List.isEmpty_nil, if_true]

end Sys2Proof
end

section
/-!
SUPPORT. O22: the accesses that raise MISALIGN, FORMAT_MISMATCH or QUEUE_OWNER before anything is loaded or stored (R223, R227,
R232 to R234, R237, R306, R459).
-/
namespace Sys2Proof
open Sys2Proof.Machine

variable {h : Hdr} {s s0 : State} {st : Strand} {c : Ctx} {ty : Ty} {sc : Scope} {kd : Kind} {d a b : Opnd}

/-! ## Misaligned elements -/

/-- A misaligned element raises MISALIGN before any translation (R227, R306). -/
theorem gblPlaces_misaligned {wr : Bool} {w : Nat} {bad : Nat → Bool} {xs : List Elem} (off : ∃ x ∈ xs, x.va % w ≠ 0) :
    gblPlaces s c wr w bad xs = .inr (raiseUser s c.sid c.f 0x41#8 none) := by
  have found : (xs.any fun x => x.va % w != 0) = true := by simpa using off
  rw [gblPlaces, found]
  rfl

/-- A thread whose address is misaligned has a misaligned element. -/
theorem elems_misaligned {ops : List Opnd} {w : Nat} {g : Nat → Nat} (off : ∃ t ∈ c.memActs h ops, g t % w ≠ 0) :
    ∃ x ∈ elems c h ops w g, x.va % w ≠ 0 := by
  obtain ⟨t, acts, misaligned⟩ := off
  exact ⟨_, List.mem_map_of_mem acts, misaligned⟩

theorem execLd_misaligned (off : ∃ x ∈ elems c h [d, a, b] (tyBytes ty) (c.gblAddr a b), x.va % tyBytes ty ≠ 0)
    (I : Issues h (usesT (refsOf d (ty.width = 64)) (refsOf a true ++ refsOf b false)) s st c) :
    execLd h ty sc kd d a b s
      = .next (raiseUser (issued h (usesT (refsOf d (ty.width = 64)) (refsOf a true ++ refsOf b false)) s st c) c.sid c.f 0x41#8 none) := by
  obtain ⟨x, xs, elements⟩ := List.exists_cons_of_ne_nil (List.ne_nil_of_mem off.choose_spec.1)
  rw [elements] at off
  rw [elems] at elements
  rw [execLd.eq_def, issue_of_issues I]
  simp only [elements, gblPlaces_misaligned off]

theorem execSt_misaligned (off : ∃ x ∈ elems c h [d, a, b] (tyBytes ty) (c.gblAddr a b), x.va % tyBytes ty ≠ 0)
    (I : Issues h (uses [] (refsOf d (ty.width = 64) ++ refsOf a true ++ refsOf b false)) s st c) :
    execSt h ty sc kd d a b s
      = .next (raiseUser (issued h (uses [] (refsOf d (ty.width = 64) ++ refsOf a true ++ refsOf b false)) s st c) c.sid c.f 0x41#8 none) := by
  obtain ⟨x, xs, elements⟩ := List.exists_cons_of_ne_nil (List.ne_nil_of_mem off.choose_spec.1)
  rw [elements] at off
  rw [elems] at elements
  rw [execSt.eq_def, issue_of_issues I]
  simp only [elements, gblPlaces_misaligned off]

theorem atgOp_misaligned {op : Nat} (off : ∃ x ∈ elems c h [d, a, b] (tyBytes ty) (c.gblAddr a .none), x.va % tyBytes ty ≠ 0)
    (I : Issues h (usesT (refsOf d (ty.width = 64)) (refsOf a true ++ refsOf b (ty.width = 64))) s st c) :
    atgOp op h ty sc kd d a b s
      = .next (raiseUser (issued h (usesT (refsOf d (ty.width = 64)) (refsOf a true ++ refsOf b (ty.width = 64))) s st c) c.sid c.f 0x41#8 none) := by
  obtain ⟨x, xs, elements⟩ := List.exists_cons_of_ne_nil (List.ne_nil_of_mem off.choose_spec.1)
  rw [elements] at off
  rw [elems] at elements
  rw [atgOp.eq_def, issue_of_issues I]
  simp only [elements, gblPlaces_misaligned off]

/-- A thread of a PLAIN page whose element is misaligned (R231). -/
def OffElement (h : Hdr) (c : Ctx) (ty : Ty) (d a b : Opnd) : Prop :=
  ∃ t ∈ c.memActs h [d], (c.offset a 0 + c.elemIx b t * tyBytes ty) % 2 ^ 64 % tyBytes ty ≠ 0

/-- Its access raises MISALIGN (R227). -/
theorem OffElement.raises {wr : Bool} (off : OffElement h c ty d a b) :
    fmtPlaces s c wr (tyBytes ty) 0 ((c.memActs h [d]).map fun t =>
      { t := t, va := (c.offset a 0 + c.elemIx b t * tyBytes ty) % 2 ^ 64, len := tyBytes ty }) = .inr (raiseUser s c.sid c.f 0x41#8 none) := by
  obtain ⟨t, acts, misaligned⟩ := off
  exact gblPlaces_misaligned ⟨_, List.mem_map_of_mem acts, misaligned⟩

/-! ## LDB -/

section
variable {p0 : Place} (I : Issues h (ldbUses ty d a b) s st c) (acting : c.memActs h [d] ≠ [])
variable (page : PageOf (issued h (ldbUses ty d a b) s st c) c false a s0 p0)

/-- The record of a Q page that LDB reads for a thread (R232). -/
def recordIx (c : Ctx) (ty : Ty) (b : Opnd) (t : Nat) : Nat := if ty = .b32 then c.elemIx b (c.leader.getD 0) else c.elemIx b t / 64

/-- A thread of LDB asks for a record that its Q page does not have (R232). -/
def NoRecord (h : Hdr) (c : Ctx) (ty : Ty) (d b : Opnd) (fmt : Nat) : Prop :=
  qFmt fmt = true ∧ ∃ t ∈ c.memActs h [d], qRecords (qOf fmt) ≤ recordIx c ty b t

/-- LDB's check of the page's format, as the model computes it. -/
theorem ldbRefused_iff (fmt : Nat) : (!ldbPair fmt ty || (qFmt fmt && (c.memActs h [d]).any fun t =>
    decide (qRecords (qOf fmt) ≤ if ty == .b32 then c.elemIx b (c.leader.getD 0) else c.elemIx b t / 64))) = true ↔
      ldbPair fmt ty = false ∨ NoRecord h c ty d b fmt := by
  simp [NoRecord, recordIx]

include I acting page

/-- A type that the page's format does not take, or a record that the page does not have (R232, R234). -/
theorem execLdb_mismatch (mismatch : ldbPair p0.e.fmt ty = false ∨ NoRecord h c ty d b p0.e.fmt) :
    execLdb h ty d a b s = .next (raiseUser s0 c.sid c.f 0x42#8 none) := by
  have refused := (ldbRefused_iff p0.e.fmt).2 mismatch
  obtain ⟨t, ts, threads⟩ := List.exists_cons_of_ne_nil acting
  rw [threads] at refused
  rw [execLdb.eq_def, issue_of_issues I]
  simp only [threads, pageFmt_of_pageOf page, refused, if_true]
  rfl

variable (pair : ldbPair p0.e.fmt ty = true) (inPage : ¬NoRecord h c ty d b p0.e.fmt)
include pair inPage

/-- A P that is not aligned for its page's format (R232, R234). -/
theorem execLdb_misaligned (off : c.offset a 0 % fmtAlign p0.e.fmt ≠ 0) :
    execLdb h ty d a b s = .next (raiseUser s0 c.sid c.f 0x41#8 none) := by
  have taken := fun refused => ((ldbRefused_iff (h := h) (c := c) (d := d) (b := b) p0.e.fmt).1 refused).elim (Bool.eq_false_iff.1 · pair) inPage
  obtain ⟨t, ts, threads⟩ := List.exists_cons_of_ne_nil acting
  rw [threads] at taken
  rw [execLdb.eq_def, issue_of_issues I]
  simp only [threads, pageFmt_of_pageOf page]
  rw [if_neg taken, if_pos off]
  rfl

end

/-- A PLAIN element that is not aligned (R227, R232). -/
theorem execLdb_offElement {p0 : Place} (I : Issues h (ldbUses ty d a b) s st c)
    (page : PageOf (issued h (ldbUses ty d a b) s st c) c false a s0 p0) (plain : p0.e.fmt = 0) (off : OffElement h c ty d a b) :
    execLdb h ty d a b s = .next (raiseUser s0 c.sid c.f 0x41#8 none) := by
  have raises := off.raises (s := s0) (wr := false)
  obtain ⟨t, ts, threads⟩ := List.exists_cons_of_ne_nil (List.ne_nil_of_mem off.choose_spec.1)
  rw [threads] at raises
  rw [execLdb.eq_def, issue_of_issues I]
  simp only [threads, pageFmt_of_pageOf page, plain, ldbPair, qFmt, fmtAlign, Nat.mod_one, raises]
  rfl

/-! ## STB -/

/-- An operand that is no even vector register, which an encoding STB refuses (R233). -/
def oddOpnd (d : Opnd) : Bool := match d with | .v n => n.toNat % 2 == 1 | _ => true

/-- What an STB on a Q page reads beside its operands (R233, log 70). -/
def highRefs (ty : Ty) (d : Opnd) : List RegRef :=
  match d with
  | .v n => if ty == .b32 || oddOpnd d then [] else [⟨.v, n.toNat + 1⟩]
  | _ => []

theorem highRefs_nil (single : ty = .b32 ∨ oddOpnd d = true) : highRefs ty d = [] := by
  cases d with
  | v n => exact if_pos (by simpa using single)
  | _ => rfl

theorem oddOpnd_of (odd : match d with | .v n => n.toNat % 2 = 1 | _ => True) : oddOpnd d = true := by
  cases d with
  | v n => exact beq_iff_eq.2 odd
  | _ => rfl

/-- The types that STB stores on a Q page (R233). -/
def stbOnQ (ty : Ty) : Bool := ty == .b32 || ty == .f32 || ty == .f16 || ty == .g16 || ty == .g8

theorem stbOnQ_iff : stbOnQ ty = true ↔ ty = .b32 ∨ ty = .f32 ∨ ty = .f16 ∨ ty = .g16 ∨ ty = .g8 := by
  simp [stbOnQ, or_assoc]

section
variable {p0 : Place} (I : Issues h (stbUses ty d a b) s st c)
variable (page : PageOf (issued h (stbUses ty d a b) s st c) c true a s0 p0)
include I page

/-- A PLAIN element that is not aligned (R227, R233). -/
theorem execStb_offElement (plain : p0.e.fmt = 0) (off : OffElement h c ty d a b) :
    execStb h ty d a b s = .next (raiseUser s0 c.sid c.f 0x41#8 none) := by
  have raises := off.raises (s := s0) (wr := true)
  obtain ⟨t, ts, threads⟩ := List.exists_cons_of_ne_nil (List.ne_nil_of_mem off.choose_spec.1)
  rw [threads] at raises
  rw [execStb.eq_def, issue_of_issues I]
  simp only [threads, pageFmt_of_pageOf page, plain, raises, if_true]

variable (acting : c.memActs h [d] ≠ [])
include acting

/-- A P of an M32 page that is not aligned (R233, R234). -/
theorem execStb_m32_misaligned (m32 : p0.e.fmt = 6) (moment : ty = .m64) (off : c.offset a 0 % 4 ≠ 0) :
    execStb h ty d a b s = .next (raiseUser s0 c.sid c.f 0x41#8 none) := by
  obtain ⟨t, ts, threads⟩ := List.exists_cons_of_ne_nil acting
  have formatted : p0.e.fmt ≠ 0 := by rw [m32]; decide
  have chosen : (decide (p0.e.fmt = 6) && ty == .m64) = true := by simp [m32, moment]
  rw [execStb.eq_def, issue_of_issues I]
  simp only [threads, pageFmt_of_pageOf page]
  rw [if_neg formatted, if_pos chosen, if_pos off]
  rfl

/-- A type that the page's format does not take (R233, R234). -/
theorem execStb_mismatch (formatted : p0.e.fmt ≠ 0) (notMoment : ¬(p0.e.fmt = 6 ∧ ty = .m64)) (refused : ¬(qFmt p0.e.fmt = true ∧ stbOnQ ty = true)) :
    execStb h ty d a b s = .next (raiseUser s0 c.sid c.f 0x42#8 none) := by
  obtain ⟨t, ts, threads⟩ := List.exists_cons_of_ne_nil acting
  have notMoment' : ¬(decide (p0.e.fmt = 6) && ty == .m64) = true := by simpa using notMoment
  have refused' : ¬(qFmt p0.e.fmt && stbOnQ ty) = true := by simpa using refused
  rw [execStb.eq_def, issue_of_issues I]
  simp only [threads, pageFmt_of_pageOf page]
  rw [if_neg formatted, if_neg notMoment']
  exact if_neg refused'

/-- STB's checks on a Q page, in their order, where it reads no second register (R233, R234). -/
theorem execStb_checks (q : qFmt p0.e.fmt = true) (stores : stbOnQ ty = true) (single : ty = .b32 ∨ oddOpnd d = true) :
    ∃ rest, execStb h ty d a b s =
      if ((ty != .b32 && oddOpnd d) || decide (qRecords (qOf p0.e.fmt) ≤ c.elemIx b (c.leader.getD 0))) = true then
        .next (raiseUser s0 c.sid c.f 0x42#8 none)
      else if c.offset a 0 % 2 ^ 21 ≠ 0 then .next (raiseUser s0 c.sid c.f 0x41#8 none) else rest := by
  obtain ⟨t, ts, threads⟩ := List.exists_cons_of_ne_nil acting
  obtain ⟨formatted, notM32, align, -⟩ := qFmt_page q
  have notMoment : ¬(decide (p0.e.fmt = 6) && ty == .m64) = true := by simp [notM32]
  have onQ : (qFmt p0.e.fmt && stbOnQ ty) = true := by rw [q, stores, Bool.and_self]
  have unmarked : ¬(h.wsb && c.st.marked (highRefs ty d)) = true := by simp [highRefs_nil single, Strand.marked, Pend.names]
  have due : ¬(c.st.sp.sbchk && c.st.short c.win h (highRefs ty d)) = true := by simp [highRefs_nil single, Strand.short, Pend.names]
  rw [execStb.eq_def, issue_of_issues I]
  simp only [threads, pageFmt_of_pageOf page, ← align]
  rw [if_neg formatted, if_neg notMoment]
  exact ⟨_, (if_pos onQ).trans ((if_neg unmarked).trans (if_neg due))⟩

end

/-- Settles O22, access by access. -/
theorem misalignedAndForeignAccessesTrap : Obligations.MisalignedAndForeignAccessesTrap := by
  unfold Obligations.MisalignedAndForeignAccessesTrap
  intro h ty sc kd d a b s st c w wide traps
  refine ⟨fun off => ⟨fun I => execLd_misaligned (elems_misaligned off) I, fun I => execSt_misaligned (elems_misaligned off) I⟩,
    fun I off i hi => ?atg, fun s0 p0 => ?formats, fun x acting owner foreign => ⟨fun I => ?qput, fun I => ?qget⟩⟩
  case atg =>
    have raises := fun op => atgOp_misaligned (op := op) (sc := sc) (kd := kd) (elems_misaligned off) I
    simp only [List.mem_cons, List.not_mem_nil, or_false] at hi
    obtain rfl | rfl | rfl | rfl | rfl | rfl | rfl | rfl := hi <;> exact raises _
  case qput =>
    show execQput h a b s = _
    rw [execQput, queueOp_foreign I acting owner foreign]
  case qget =>
    show execQget h d a s = _
    rw [execQget.eq_def, queueOp_foreign I acting owner foreign]
  case formats =>
    intro va e fmt off here acting
    refine ⟨fun I page => ?ldb, fun I page => ?stb⟩
    case ldb =>
      exact ⟨execLdb_mismatch I acting page, execLdb_misaligned I acting page, execLdb_offElement I page⟩
    case stb =>
      refine ⟨execStb_offElement I page, execStb_m32_misaligned I page acting, fun formatted notMoment refused => ?mismatch,
        fun q enc single => ?odd, fun q words outside => ?outside, fun q words inside misaligned => ?misaligned⟩
      case mismatch =>
        exact execStb_mismatch I page acting formatted notMoment fun taken => refused ⟨taken.1, stbOnQ_iff.1 taken.2⟩
      case odd =>
        have single := oddOpnd_of single
        have notWords : (ty != .b32) = true := by obtain rfl | rfl | rfl | rfl := enc <;> rfl
        obtain ⟨rest, checks⟩ := execStb_checks I page acting q (stbOnQ_iff.2 (.inr enc)) (.inr single)
        exact checks.trans (if_pos (by rw [notWords, single]; rfl))
      case outside =>
        obtain ⟨rest, checks⟩ := execStb_checks I page acting q (stbOnQ_iff.2 (.inl words)) (.inl words)
        exact checks.trans (if_pos (Bool.or_eq_true_iff.2 (.inr (decide_eq_true outside))))
      case misaligned =>
        obtain ⟨rest, checks⟩ := execStb_checks I page acting q (stbOnQ_iff.2 (.inl words)) (.inl words)
        have inPage : ¬((ty != .b32 && oddOpnd d) || decide (qRecords (qOf p0.e.fmt) ≤ c.elemIx b (c.leader.getD 0))) = true := by
          have inside : c.elemIx b (c.leader.getD 0) < qRecords (qOf p0.e.fmt) := inside
          simp [words, inside]
        exact checks.trans ((if_neg inPage).trans (if_pos misaligned))

end Sys2Proof
end

section
/-!
SUPPORT. O49: placing, saving, flushing and choosing batches as steps (R197, R327, R446 to R448).
-/
namespace Sys2Proof
open Sys2Proof.Machine

variable {s : State} {c die key tsave batch : Nat} {l : Launch} {ptes : List (Nat × W64)} {w : W32} {b : Batch} {write : Bool}

/-! ## Placing -/

/-- H1's pick is placed on its core (R446). -/
theorem execFairSharePlace_places (pick : fairPick s die = some (key, l, c, write)) (within : die < 8) :
    execFairSharePlace die tsave ptes s = .next (placeBatch s key l c write tsave ptes) := by
  simp only [execFairSharePlace, pick, within, if_true]

/-- So it is by the dispatcher of the core's die (R327). -/
theorem execBatchPlace_places (pick : fairPick s (dieOf c) = some (key, l, c, write)) (core : c < coreCount) :
    execBatchPlace key c tsave ptes s = .next (placeBatch s key l c write tsave ptes) := by
  simp only [execBatchPlace, pick, core, and_self, if_true]

/-- A partition word that H1 may write takes an empty core where it is legal, and is reported otherwise (R197). -/
theorem execPartitionWordWrite_admitted (core : c < coreCount) (admits : s.regRefuses (hartAt 1 [c] 0 4) true = none) :
    execPartitionWordWrite c w s = .next (if (partOk w.toNat && coreEmpty s c) = true then writePart s c w.toNat else s.event 0xE3#8 [c]) := by
  simp only [execPartitionWordWrite, Nat.not_le.2 core, if_false, State.regWrite, admits]

/-- The core's partition is then the word's (R197). -/
theorem writePart_core (s : State) (c part : Nat) : (writePart s c part).core c = (s.core c).setPart part :=
  State.core_updCore_self s c (·.setPart part)

/-! ## Flushing -/

theorem nmGet_filter_ne {α : Type} {p : Nat → Bool} {k : Nat} (gone : p k = false) (m : NMap α) : nmGet (m.filter fun e => p e.1) k = none := by
  induction m with
  | nil => rfl
  | cons e m ih =>
    rw [List.filter_cons]
    split
    · next kept =>
      have other : k ≠ e.1 := fun same => Bool.eq_false_iff.1 gone (same ▸ kept)
      rw [nmGet, if_neg other, ih]
    · exact ih

/-- Pruning a team changes slots, teams and ownership only (R212, R245). -/
theorem teamPrune_shape (s : State) (k : Nat) : ∃ cs ts ds, teamPrune s k = { s with cores := cs, teams := ts, det := ds } := by
  unfold teamPrune
  split
  · exact ⟨s.cores, s.teams, s.det, rfl⟩
  · dsimp only
    split
    · exact ⟨_, _, _, rfl⟩
    · exact ⟨_, s.teams, s.det, rfl⟩

/-- So does pruning any number of them. -/
theorem foldl_teamPrune_shape (ks : List Nat) (s : State) : ∃ cs ts ds, ks.foldl teamPrune s = { s with cores := cs, teams := ts, det := ds } := by
  induction ks generalizing s with
  | nil => exact ⟨s.cores, s.teams, s.det, rfl⟩
  | cons k ks ih =>
    obtain ⟨cs, ts, ds, first⟩ := teamPrune_shape s k
    obtain ⟨cs', ts', ds', rest⟩ := ih (teamPrune s k)
    exact ⟨cs', ts', ds', by rw [List.foldl_cons, rest, first]⟩

section
variable (found : nmGet s.batches batch = some b) (resident : b.resident = true)
include found resident

/-- The flush that H1 chose discards a batch that has done nothing lasting, and no byte of memory changes (R447). -/
theorem execBatchFlush_discards (runs : ∃ j, nmGet s.jobs b.job = some j ∧ j.ended = false) (chosen : b.pre = some .flush)
    (idle : ∀ sid ∈ b.sids, ∀ st, nmGet s.strands sid = some st → st.acted = false) :
    ∃ t, execBatchFlush batch s = .next t ∧ nmGet t.batches batch = none ∧ (∀ sid ∈ b.sids, nmGet t.strands sid = none) ∧ t.mem = s.mem := by
  obtain ⟨j, hj, running⟩ := runs
  have nothing : ((b.sids.filterMap (nmGet s.strands ·)).any (·.acted)) = false := by
    simp only [List.any_eq_false, List.mem_filterMap, forall_exists_index, and_imp, Bool.not_eq_true]
    exact fun st sid hsid strand => idle sid hsid st strand
  have kept := (quiet_chargeBatch s b).mem
  simp only [execBatchFlush, found, resident, hj, running, chosen, nothing, Option.map_some, Option.getD_some, Bool.not_true, bne_self_eq_false,
    Bool.or_self, Bool.false_eq_true, if_false]
  refine ⟨_, rfl, ?batch, ?strands, ?memory⟩
  all_goals (obtain ⟨cs, ts, ds, shape⟩ := foldl_teamPrune_shape _ _; rw [shape])
  case batch => exact (nmGet_nmDel _ _ _).trans (if_pos rfl)
  case strands =>
    intro sid member
    exact nmGet_filter_ne (p := fun k => !b.sids.contains k) (by simpa using member) _
  case memory => exact kept

/-- A batch all of whose strands are ready and none of whose commands is pending is saved (R448). -/
theorem execBatchSave_saves (runs : ∃ j, nmGet s.jobs b.job = some j ∧ j.hasLive = true ∧ j.ended = false)
    (ready : ∀ sid ∈ b.sids, ∃ st, nmGet s.strands sid = some st ∧ saveReady s sid st = true) (quiet : batchCommands s batch b = false) :
    let s1 := b.sids.foldl saveStrand (chargeBatch s b)
    let x := (chargeBatch s b).core b.core
    let s2 := s1.updBatch batch fun y =>
      { y with saved := true, pre := none, qs := x.queues.filter fun q => q.2.batch == some batch, locks := x.locks.filter (·.batch == batch) }
    let s3 := s2.updCore b.core fun y =>
      { y with queues := y.queues.filter fun q => q.2.batch != some batch, locks := y.locks.filter (·.batch != batch),
               locked := y.locked.filter fun e => (y.locks.filter (·.batch != batch)).any (·.covers e) }
    let tks := (b.sids.flatMap fun sid => ((nmGet s3.strands sid).map fun st => st.teams.map (·.1)).getD []).eraseDups
    execBatchSave batch s = .next (tks.foldl (fun s k => topCheck (teamPrune s k) k) s3) := by
  obtain ⟨j, hj, live, running⟩ := runs
  have allReady : (b.sids.all fun sid => ((nmGet s.strands sid).map fun st => saveReady s sid st).getD true) = true := by
    rw [List.all_eq_true]
    intro sid member
    obtain ⟨st, strand, can⟩ := ready sid member
    rw [strand, Option.map_some, Option.getD_some, can]
  simp only [execBatchSave, found, resident, hj, live, running, allReady, quiet, Option.map_some, Option.getD_some, Bool.not_true, Bool.not_false,
    Bool.and_self, Bool.or_self, Bool.false_eq_true, if_false]

end

/-! ## The choice of a victim -/

/-- A launch whose bound has passed takes the least waste that its bound allows (R447). -/
theorem execLatencyBoundExpire_chooses {x : PreAct} (found : nmGet s.launches key = some l) (bound : l.lbound ≠ 0) (open' : startable s key l = true)
    (passed : l.since + 700 * l.lbound ≤ hostTime s) (nowhere : ∀ d < 8, findCore s key l d = none) :
    let acts := (s.batches.filter fun e => e.2.resident && e.2.pre.isNone && partMatch (s.core e.2.core) l.part
      && ((nmGet s.launches e.2.launch).map fun y => decide (y.prio < l.prio)).getD false).flatMap fun e => preActs s e.1 e.2
    leastBy (fun y => (y.waste, y.act.rank)) (acts.filter fun y => decide (y.delay ≤ ((700 * l.lbound : Nat) : Rat))) = some x →
    execLatencyBoundExpire key s
      = .next { s.updBatch x.batch fun y => { y with pre := some x.act } with launches := nmUpd s.launches key fun l => { l with since := hostTime s } } := by
  intro acts least
  have unplaced : ((List.range 8).any fun d => (findCore s key l d).isSome) = false := by
    simp only [List.any_eq_false, List.mem_range, Option.not_isSome_iff_eq_none]
    exact nowhere
  simp only [execLatencyBoundExpire, found, bound, open', Nat.not_lt.2 passed, unplaced, Bool.not_true, Bool.false_eq_true, or_self, if_false]
  rw [least]

/-- Settles O49, step by step. -/
theorem batchStepsTakeEffect : Obligations.BatchStepsTakeEffect := by
  unfold Obligations.BatchStepsTakeEffect
  intro s c die key tsave batch l ptes w b
  refine ⟨fun z => execFairSharePlace_places, fun z => execBatchPlace_places, fun core admits => ?partition, rfl,
    execBatchFlush_discards, execBatchSave_saves, fun x => execLatencyBoundExpire_chooses⟩
  case partition =>
    have writes := execPartitionWordWrite_admitted (w := w) core admits
    refine ⟨fun legal empty => ⟨writes.trans (congrArg _ (if_pos (by rw [legal, empty]; rfl))), ?_, ?_⟩,
      fun refused => writes.trans (congrArg _ (if_neg ?_))⟩
    · rw [writePart_core]; rfl
    · rw [writePart_core]; rfl
    · rw [Bool.and_eq_true_iff]
      exact fun ⟨legal, empty⟩ => refused.elim (Bool.eq_false_iff.1 · legal) (Bool.eq_false_iff.1 · empty)

end Sys2Proof
end

section
/-!
SUPPORT. O37 asks that a sector be read ahead for any command that has not failed, but a command one of whose accesses is in service
translates only for the landings before that one (R308): a copy that waits for its first page refutes it.
-/
namespace Sys2Proof
open Sys2Proof.Machine

/-- A copy of one byte, to the scratchpad, from a page that is not mapped. -/
def unmappedCopy : EngCmd :=
  { id := 6, by_ := { pc := 0#57, mask := 1#32, core := 0, slot := 0 }, sid := 1, frag := 0, job := 1, batch := 1, asid := 1, tag := 0#32,
    ui := false, xbr := none, src := 0x40000000, xty := none, rawq := none, lands := [{ n := 0, scr := true, bytes := [(0, .mem 0x40000000)] }],
    out := [], seen := [], started := true, status := 0#8, wait := none, stop := 0 }

/-- A loaded machine with that copy in the copy engine of core 0. -/
def copyRuns : State := (placeWord State.reset 0).updCore 0 fun x => { x with copyQ := [unmappedCopy] }

/-- The machine once the copy has met its page: the fault is in service. -/
def copyWaits : State := engError copyRuns 0 false unmappedCopy 0 (.page 0x40000000)

/-- The copy as it waits. -/
def waitingCopy : EngCmd := { unmappedCopy with wait := some 0, stop := 0 }

/-- The copy's landing meets the page that is not mapped, and its fault goes into service (R308). -/
theorem copyRuns_waits : exec (.sectorLand 0 6 (.land 0)) copyRuns = .next copyWaits := rfl

theorem copyWaits_find : engFind copyWaits 0 6 = some (false, waitingCopy) := by decide +kernel

/-- No landing comes before the one that waits, so the copy reads nothing ahead (R308). -/
theorem copyWaits_ahead : exec (.sectorLand 0 6 (.ahead 0)) copyWaits = .next copyWaits := by
  have unheld : omrkHolds copyWaits waitingCopy.batch waitingCopy.id = false := by decide +kernel
  have mayNot : waitingCopy.mayFetch copyWaits 0 = false := by decide +kernel
  have succeeds : ¬(waitingCopy.status ≠ 0#8 ∨ omrkHolds copyWaits waitingCopy.batch waitingCopy.id = true) := by
    rw [unheld]
    decide
  rw [exec_sectorLand, execSectorLand]
  simp only [copyWaits_find, mayNot, if_neg succeeds, Bool.false_eq_true, if_false]

/-- The bytes that core 0's copies have read ahead. -/
def readAhead (s : State) : List Nat := (s.core 0).copyQ.map fun x => x.seen.length

/-- Refutes O37: while the copy waits for its page, reading the mapped sector at 0 ahead leaves the state as it is, where the statement
has its 32 bytes read. -/
theorem not_engineStepsTakeEffect : ¬ Obligations.EngineStepsTakeEffect := by
  unfold Obligations.EngineStepsTakeEffect
  intro steps
  obtain ⟨-, -, -, ahead, -⟩ := steps copyWaits 0 0 6 0 1 0 0 false (.cpy 0 0#32 false) [] waitingCopy ⟨0, true, []⟩ copyWaits []
  obtain ⟨reads, -⟩ := ahead copyWaits_find rfl (by decide +kernel)
  have same : copyWaits = engFetch copyWaits 0 false waitingCopy 0 := Host.Outcome.next.inj (copyWaits_ahead.symm.trans (reads 0))
  have unread : readAhead copyWaits = [0] := by decide +kernel
  have read : readAhead (engFetch copyWaits 0 false waitingCopy 0) = [32] := by decide +kernel
  rw [← same, unread] at read
  exact absurd read (by decide)

end Sys2Proof
end

section
/-!
SUPPORT. O58 asks that an element of a store to STRONG pages, when it is performed, change the bytes of its own place only. In a sector of a
node record the model writes all the elements of one store there at once (`storeMates`, R367): threads 0 and 1 of one store refute it.
-/
namespace Sys2Proof
open Sys2Proof.Machine

/-- Thread t's element, four bytes 1 at the place pa of this module's STRONG memory. -/
def onesAt (t pa : Nat) : Acc :=
  { t, ps := [{ va := 0, pa, home := 0, ord := 0, len := 4 }], dec := .raw .b32, b := 0#64, c := 0#64, bs := List.replicate 4 1#8 }

/-- The elements of a store to a node record: two in its first sector, and one in the next. -/
def recordStore : List Acc := [onesAt 0 (2 ^ 51), onesAt 1 (2 ^ 51 + 4), onesAt 2 (2 ^ 51 + 32)]

/-- That store in flight. -/
def recordPend : Pend :=
  { id := 5, frag := 0, pc := 0#57, mask := 0xFFFFFFFF#32, due := none, ok := true, marks := [], writes := [], fl := flNone, mfl := false,
    op := .store recordStore }

def recordStrand : Strand := { loadedStrand with pend := [recordPend] }

/-- A loaded machine whose strand has that store in flight. -/
def recordState : State := { (placeWord State.reset 0).updStrand 1 fun _ => recordStrand with cur := none }
/-- The byte at the place of thread 1's element, in the state that a step leads to. -/
def otherByte : Out → Byte
  | .next z => rdM1 z.mem (2 ^ 51 + 4)
  | _ => 0#8

/-- Performing thread 0's element writes thread 1's byte as well. -/
theorem recordState_writes_both : otherByte (exec (.trackedWriteLand 1 (.one 5 0)) recordState) = 1#8 := by decide +kernel

theorem recordState_unwritten : rdM1 recordState.mem (2 ^ 51 + 4) = 0#8 := by decide +kernel

/-- Refutes O58: thread 0's element of that store is performed, thread 2's is still to come, and the byte of thread 1's place, which is not
thread 0's, has changed. -/
theorem not_storesChangeTheirBytesOnly : ¬ Obligations.StoresChangeTheirBytesOnly := by
  unfold Obligations.StoresChangeTheirBytesOnly
  intro frames
  obtain ⟨-, -, -, -, -, elements⟩ := frames plainHdr .b32 .strand .plain .none .none .none recordState loadedStrand joiningCtx
  have lowest : ∀ b ∈ recordStore, b.t < 0 → ∀ k ∈ b.keys, k ∉ (onesAt 0 (2 ^ 51)).keys := fun _ _ below => absurd below (Nat.not_lt_zero _)
  obtain ⟨z, performed, kept⟩ := elements 1 5 0 recordPend (onesAt 0 (2 ^ 51)) { va := 0, pa := 2 ^ 51, home := 0, ord := 0, len := 4 }
    recordStore recordStrand rfl (by decide) rfl rfl rfl rfl rfl rfl (by decide +kernel) (by decide +kernel) (by decide +kernel)
    ⟨onesAt 1 (2 ^ 51 + 4), by decide, by decide⟩ (by decide +kernel) (.inl ⟨rfl, lowest⟩)
  have written := recordState_writes_both
  rw [performed] at written
  have unwritten := (kept (2 ^ 51 + 4) (by decide +kernel)).trans recordState_unwritten
  exact absurd (unwritten.symm.trans written) (by decide)

end Sys2Proof
end

section
/-!
SUPPORT. O18: scratchpad accesses whose threads all lie in the batch's range and are aligned (R210, R227, R229, R230, R235 to R237,
R349).
-/
namespace Sys2Proof
open Sys2Proof.Machine

variable {h : Hdr} {u : Uses} {s s2 : State} {st : Strand} {c : Ctx} {ty : Ty} {sc : Scope} {kd : Kind} {d a b : Opnd} {w : Nat}

/-! ## The places of a scratchpad access -/

/-- Good accesses switch no thread off and find their places as they stand (R210, R227). -/
theorem scrPlaces_good {xs : List (Nat × Nat)} (good : scrGood s c w xs) : scrPlaces s c w xs = .inl (s, xs) := by
  have inside : ∀ x ∈ xs, ¬scrSize s c.st.batch < x.2 + w := fun x hx => Nat.not_lt.2 (good x hx).1
  have noneOut : (xs.filter fun x => decide (scrSize s c.st.batch < x.2 + w)) = [] := by simpa using inside
  have allIn : (xs.filter fun x => !decide (scrSize s c.st.batch < x.2 + w)) = xs := by simpa using inside
  have aligned : (xs.any fun x => x.2 % w != 0) = false := by simpa using fun t r hx => (good (t, r) hx).2
  simp only [scrPlaces, noneOut, allIn, aligned, Bool.false_eq_true, if_false]
  rfl

/-- So do they in the issued state, whose scratchpad is that of before. -/
theorem scrPlaces_issued {xs : List (Nat × Nat)} (good : scrGood s c w xs) :
    scrPlaces (issued h u s st c) c w xs = .inl (issued h u s st c, xs) := scrPlaces_good good

/-- The accesses of an instruction's threads, with the address of each. -/
abbrev scrAccesses (h : Hdr) (c : Ctx) (ops : List Opnd) (g : Nat → Nat) : List (Nat × Nat) := (c.memActs h ops).map fun t => (t, g t)

/-! ## LDS and STS -/

/-- The registers that STS uses: it reads D (R230). -/
abbrev stsUses (ty : Ty) (d a b : Opnd) : Uses := uses [] (refsOf d (ty.width = 64) ++ refsOf a false ++ refsOf b false)

/-- The bytes that STS writes, in ascending thread order (R230). -/
def stsBytes (c : Ctx) (ty : Ty) (d : Opnd) (ts : List (Nat × Nat)) : List (Nat × Byte) :=
  ts.flatMap fun x => atOff x.2 (leBytes (tyBytes ty) (c.st.r.src ty x.1 d))

/-- LDS reads its threads' bytes as it issues, and lands them later (R229, R349). -/
theorem execLds_reads (I : Issues h (usesT (refsOf d (ty.width = 64)) (refsOf a false ++ refsOf b false)) s st c)
    (acquire : c.st.acquiring = false) (nonempty : scrAccesses h c [d, a, b] (c.scrAddr a b) ≠ [])
    (good : scrGood s c (tyBytes ty) (scrAccesses h c [d, a, b] (c.scrAddr a b))) :
    execLds h ty sc kd d a b s = .next (trackState h (usesT (refsOf d (ty.width = 64)) (refsOf a false ++ refsOf b false)) s st c
      { ws := (scrAccesses h c [d, a, b] (c.scrAddr a b)).flatMap fun x =>
          dstW d ty x.1 (ldVal ty (leVal (readScr s c.st.batch x.2 (tyBytes ty)))), fl := flNone, mfl := false }) := by
  obtain ⟨t, ts, threads⟩ := List.exists_cons_of_ne_nil nonempty
  have places := scrPlaces_issued (h := h) (u := usesT (refsOf d (ty.width = 64)) (refsOf a false ++ refsOf b false)) (st := st) good
  rw [threads] at places ⊢
  rw [execLds.eq_def, issue_of_issues I]
  simp only [acquire, threads, places, Bool.false_eq_true, if_false]
  rfl

section
variable (I : Issues h (stsUses ty d a b) s st c) (acquire : c.st.acquiring = false)
variable (nonempty : scrAccesses h c [d, a, b] (c.scrAddr a b) ≠ []) (good : scrGood s c (tyBytes ty) (scrAccesses h c [d, a, b] (c.scrAddr a b)))
include I acquire nonempty good

/-- STS writes its threads' bytes as it issues (R230, R349). -/
theorem execSts_writes (plain : kd ≠ .rel) : execSts h ty sc kd d a b s = .next (advance (storeScr (issued h (stsUses ty d a b) s st c)
    c.st.batch (stsBytes c ty d (scrAccesses h c [d, a, b] (c.scrAddr a b)))) c.sid c.f h) := by
  obtain ⟨t, ts, threads⟩ := List.exists_cons_of_ne_nil nonempty
  have places := scrPlaces_issued (h := h) (u := stsUses ty d a b) (st := st) good
  have notRel : (kd == .rel) = false := by simpa using plain
  rw [threads] at places ⊢
  rw [execSts, issue_of_issues I]
  simp only [acquire, threads, places, notRel, Bool.false_eq_true, if_false]
  rfl

/-- A release STS writes them after the region end (R230, R349). -/
theorem execSts_releases (rel : kd = .rel)
    (ended : endRegion (issued h (stsUses ty d a b) s st c) c.sid c.f (c.fr.pc + 12#57) none = (s2, true)) :
    execSts h ty sc kd d a b s = .next (advance (storeScr (s2.acts c.sid) c.st.batch
      (stsBytes c ty d (scrAccesses h c [d, a, b] (c.scrAddr a b)))) c.sid c.f h) := by
  obtain ⟨t, ts, threads⟩ := List.exists_cons_of_ne_nil nonempty
  have places := scrPlaces_issued (h := h) (u := stsUses ty d a b) (st := st) good
  subst rel
  rw [threads] at places ⊢
  rw [execSts, issue_of_issues I]
  simp only [acquire, threads, places, beq_self_eq_true, ended, Bool.false_eq_true, if_true, if_false]
  rfl

end

/-! ## Atomics -/

/-- The scratchpad atomic of one operation updates thread by thread, after the region end (R235 to R237, R349). -/
theorem atsDoes_of {i : Instr} {op : Nat} (runs : ∀ s, exec i s = atsOp op h ty d a b s) : AtsDoes op i h ty d a b := by
  intro s st c s2 I acquire ts nonempty good ended r
  obtain ⟨t, rest, threads⟩ := List.exists_cons_of_ne_nil nonempty
  have places := scrPlaces_issued (h := h) (u := usesT (refsOf d (ty.width = 64)) (refsOf a false ++ refsOf b (ty.width = 64))) (st := st) good
  have listed : (c.memActs h [d, a, b]).map (fun t => (t, c.scrAddr a .none t)) = t :: rest := threads
  have result : r = scrAtomics op ty c d b s2 (t :: rest) := congrArg (scrAtomics op ty c d b s2) threads
  rw [threads] at places
  rw [runs, atsOp.eq_def, issue_of_issues I, result]
  simp only [acquire, listed, places, ended, Bool.false_eq_true, if_false]
  rfl

/-- Settles O18: the places of good accesses are their own, and each instruction does its reads, writes or updates there. -/
theorem scratchpadAccesses : Obligations.ScratchpadAccesses := by
  unfold Obligations.ScratchpadAccesses
  intro h ty sc kd d a b w
  exact ⟨fun s st c => execLds_reads (sc := sc) (kd := kd),
    fun s st c I acquire plain nonempty good => execSts_writes (sc := sc) I acquire nonempty good plain,
    fun s st c s2 I acquire rel nonempty good => execSts_releases (sc := sc) I acquire nonempty good rel,
    atsDoes_of fun _ => rfl, atsDoes_of fun _ => rfl, atsDoes_of fun _ => rfl, atsDoes_of fun _ => rfl,
    atsDoes_of fun _ => rfl, atsDoes_of fun _ => rfl, atsDoes_of fun _ => rfl, atsDoes_of fun _ => rfl⟩

end Sys2Proof
end

section
/-!
SUPPORT. O20 and O21: global loads, stores and atomics whose elements are found, once their waits are over (R229, R230, R235, R306, R320,
R333, R337, R340, R342, R355).
-/
namespace Sys2Proof
open Sys2Proof.Machine

variable {h : Hdr} {u : Uses} {s s1 s2 s3 : State} {st : Strand} {c : Ctx} {ty : Ty} {sc : Scope} {kd : Kind} {d a b : Opnd} {w : Nat}
  {wr : Bool} {xs : List Elem} {ps : List Place}

/-! ## The places of a global access -/

/-- The elements of an access that is found pass its alignment and format checks (R107, R227, R306). -/
theorem Reaches.gblPlaces_eq (found : Reaches s c wr w xs s1 ps) : gblPlaces s c wr w qFmt xs = .inl (s1, ps) := by
  have inPlace : (xs.any fun x => x.va % w != 0) = false := by simpa using found.aligned
  have plain : (ps.any fun p => qFmt p.e.fmt) = false := by simpa using found.formats
  simp only [gblPlaces, inPlace, found.places, plain, Bool.false_eq_true, if_false]

/-- Finding them leaves the issuing strand as the issue left it. -/
theorem Reaches.strand (found : Reaches (issued h u s st c) c wr w xs s1 ps) : nmGet s1.strands c.sid = some c.st := by
  rw [xlateElems_strands found.places]
  exact issued_strand

/-- Each element has its place, so there is one. -/
theorem Reaches.places_nonempty (found : Reaches s c wr w xs s1 ps) : ps ≠ [] := by
  obtain ⟨x, rest, rfl⟩ := List.exists_cons_of_ne_nil found.nonempty
  rintro rfl
  have places := found.places
  unfold xlateElems at places
  repeat' split at places
  all_goals simp at places

/-- Whether a page is of one kind, asked of places and of their pieces (R300). -/
theorem anyOrd_places (o : Nat) (ps : List Place) : anyOrd o (ps.map (·.p)) = onOrd o ps := List.any_map

/-! ## What is in flight of a load or an atomic -/

theorem flights_pieces (g : Nat → W64 × W64) : (flights ty ps g).flatMap (·.ps) = ps.map (·.p) := by
  rw [flights, List.flatMap_map]
  exact List.map_eq_flatMap.symm

theorem flights_keys (g : Nat → W64 × W64) : (flights ty ps g).flatMap Acc.keys = ps.flatMap fun p => p.p.keys := by
  simp [flights, List.flatMap_map, Acc.keys]

theorem flights_dense (g : Nat → W64 × W64) : (flights ty ps g).any (·.dec.sparse) = false := by
  simp [flights, Dec.sparse]

/-! ## LD -/

/-- A load of elements on other than sparse pages, its waits over, is in flight, and its fragment moves on (R229, R338, R340, R342, R355). -/
theorem startLoad_flies {marks : List RegRef} {acq : Option Scope} {accs : List Acc} (strand : nmGet s1.strands c.sid = some c.st)
    (dense : accs.any (·.dec.sparse) = false) (acquire : c.st.acquiring = true → ∀ p ∈ accs.flatMap (·.ps), p.ord = 2)
    (signals : sigPending s1 c.sid (accs.flatMap Acc.keys) = false) (room : ottUsed s1 c.st.core < 256)
    (placed : c.st.misplaced (accs.flatMap (·.ps)) = false)
    (ended : if anyOrd 0 (accs.flatMap (·.ps)) then c.st.strongBusy = false ∧
      ∃ x, endRegion s1 c.sid c.f (c.fr.pc + 12#57) none = (x, true) ∧ s2 = x.acts c.sid else s2 = s1) :
    startLoad h c s1 d marks acq accs = advance (s2.updStrand c.sid fun x => x.track c.f true marks [] flNone false
      (.load d h.uni acq ((accs.flatMap (·.ps)).all fun p => p.ord == 2) accs)) c.sid c.f h := by
  have unordered : (c.st.acquiring && !(accs.flatMap (·.ps)).all fun p => p.ord == 2) = false := by
    simpa only [Bool.and_eq_false_imp, Bool.not_eq_eq_eq_not, Bool.not_false, List.all_eq_true, beq_iff_eq] using acquire
  simp only [startLoad, strand, dense, unordered, signals, Nat.not_le.2 room, placed, decide_false, Bool.false_or, Bool.or_false,
    Bool.false_eq_true, if_false]
  split at ended
  case isTrue onStrong =>
    obtain ⟨free, x, regionEnds, rfl⟩ := ended
    simp only [onStrong, free, regionEnds, Bool.and_false, Bool.false_eq_true, if_true, if_false]
  case isFalse soft =>
    subst ended
    simp only [soft, Bool.false_and, Bool.false_eq_true, if_false]

/-- LD starts the load of the elements that it finds (R229). -/
theorem execLd_found (I : Issues h (usesT (refsOf d (ty.width = 64)) (refsOf a true ++ refsOf b false)) s st c)
    (found : Reaches (issued h (usesT (refsOf d (ty.width = 64)) (refsOf a true ++ refsOf b false)) s st c) c false (tyBytes ty)
      (elems c h [d, a, b] (tyBytes ty) (c.gblAddr a b)) s1 ps) :
    execLd h ty sc kd d a b s = .next (startLoad h c s1 d (refsOf d (ty.width = 64)) (if kd = .acq then some sc else none)
      (flights ty ps fun _ => (0#64, 0#64))) := by
  have places := found.gblPlaces_eq
  obtain ⟨x, rest, elements⟩ := List.exists_cons_of_ne_nil found.nonempty
  rw [elements] at places
  rw [elems] at elements
  rw [execLd.eq_def, issue_of_issues I]
  simp only [elements, places, beq_iff_eq]
  rfl

/-! ## Atomics -/

/-- The waits of an atomic: for an acquire in flight, an earlier access to its bytes, a STRONG access, a signal to its bytes, and a
transaction entry (R333, R338, R342, R355). -/
def atgWaits (s1 : State) (c : Ctx) (ps : List Place) : Bool :=
  c.st.acquiring || ps.any (fun p => c.st.overlaps p.t p.p.keys) || (anyOrd 0 (ps.map (·.p)) && c.st.strongBusy)
    || sigPending s1 c.sid (ps.flatMap fun p => p.p.keys) || decide (256 ≤ ottUsed s1 c.st.core)

theorem atgWaits_over (acquire : c.st.acquiring = false) (apart : ∀ p ∈ ps, c.st.overlaps p.t p.p.keys = false)
    (strong : onOrd 0 ps = true → c.st.strongBusy = false) (signals : sigPending s1 c.sid (ps.flatMap fun p => p.p.keys) = false)
    (room : ottUsed s1 c.st.core < 256) : atgWaits s1 c ps = false := by
  have apart' : (ps.any fun p => c.st.overlaps p.t p.p.keys) = false := by simpa using apart
  have free : (anyOrd 0 (ps.map (·.p)) && c.st.strongBusy) = false := by
    rw [anyOrd_places, Bool.and_eq_false_imp]
    exact strong
  simp only [atgWaits, acquire, apart', free, signals, Nat.not_le.2 room, decide_false, Bool.or_self]

/-- The global atomic of one operation, its region ended and its release's waits over, is in flight (R235, R337, R342, R348). -/
theorem atgStarts_of {i : Instr} {op : Nat} (runs : ∀ s, exec i s = atgOp op h ty sc kd d a b s) : AtgStarts op i h ty sc kd d a b := by
  intro s st c s1 ps s2 s3 I found acquire apart strong signals room ended un released accs kd'
  have waits := atgWaits_over acquire apart strong signals room
  rw [atgWaits] at waits
  have released' : (if ((kd == .rel || kd == .full) && !un) = true then release s2 c.sid c.f sc true else (s2, true)) = (s3, true) := by
    simpa only [Bool.and_eq_true, Bool.or_eq_true, beq_iff_eq, Bool.not_eq_eq_eq_not, Bool.not_true] using released
  have places := found.gblPlaces_eq
  obtain ⟨x, rest, elements⟩ := List.exists_cons_of_ne_nil found.nonempty
  rw [elements] at places
  rw [elems] at elements
  rw [runs, atgOp.eq_def, issue_of_issues I]
  simp only [elements, places, waits, ended, Bool.false_eq_true, if_false]
  rw [show (ps.all fun p => p.p.ord == 2) = un from rfl, released']
  rfl

/-- Settles O20: LD starts a load of the elements that it finds, and each atomic is the global atomic of its operation. -/
theorem globalLoadsAndAtomicsStart : Obligations.GlobalLoadsAndAtomicsStart := by
  unfold Obligations.GlobalLoadsAndAtomicsStart
  intro h ty sc kd d a b w
  refine ⟨?load, atgStarts_of fun _ => rfl, atgStarts_of fun _ => rfl, atgStarts_of fun _ => rfl, atgStarts_of fun _ => rfl,
    atgStarts_of fun _ => rfl, atgStarts_of fun _ => rfl, atgStarts_of fun _ => rfl, atgStarts_of fun _ => rfl⟩
  intro s st c s1 ps s2 u I found acquire signals room placed ended accs acq
  rw [exec_ld, execLd_found I found]
  refine congrArg _ (startLoad_flies found.strand (flights_dense _) ?_ (by rwa [flights_keys]) room ?_ ?_)
  · rw [flights_pieces]
    simpa using acquire
  · rwa [flights_pieces]
  · rw [flights_pieces, anyOrd_places]
    exact ended

end Sys2Proof
end

section
/-!
SUPPORT. O21: the stores of ST as issued (R229, R230, R320, R333, R337, R342).
-/
namespace Sys2Proof
open Sys2Proof.Machine

variable {h : Hdr} {s s1 s2 s3 : State} {st : Strand} {c : Ctx} {ty : Ty} {sc : Scope} {kd : Kind} {d a b : Opnd} {ps : List Place}

/-- The registers that ST uses: it reads D (R230). -/
abbrev stUses (ty : Ty) (d a b : Opnd) : Uses := uses [] (refsOf d (ty.width = 64) ++ refsOf a true ++ refsOf b false)

/-- The stores of ST: each thread's bytes of D at its place (R229). -/
abbrev stReqs (c : Ctx) (ty : Ty) (d : Opnd) (ps : List Place) : List StoreReq :=
  ps.map fun p => { t := p.t, p := p.p, bs := leBytes (tyBytes ty) (c.st.r.src ty p.t d) }

/-- ST starts the stores at the places that it finds (R229, R230). -/
theorem execSt_found (I : Issues h (stUses ty d a b) s st c)
    (found : Reaches (issued h (stUses ty d a b) s st c) c true (tyBytes ty) (elems c h [d, a, b] (tyBytes ty) (c.gblAddr a b)) s1 ps) :
    execSt h ty sc kd d a b s = .next (startStore h c s1 (if kd = .rel then some sc else none) flNone false (stReqs c ty d ps)) := by
  have places := found.gblPlaces_eq
  obtain ⟨x, rest, elements⟩ := List.exists_cons_of_ne_nil found.nonempty
  rw [elements] at places
  rw [elems] at elements
  rw [execSt.eq_def, issue_of_issues I]
  simp only [elements, places, beq_iff_eq]
  rfl

/-- A release store whose waits are over passes the buffer, after the region end and the waits of a release, which pages that are all
UNORDERED do not ask for (R337, R340). -/
theorem startStore_releases {fl : Flags} {mfl : Bool} {reqs : List StoreReq} (strand : nmGet s1.strands c.sid = some c.st)
    (acquire : c.st.acquiring = false) (apart : ∀ r ∈ reqs, c.st.overlaps r.t r.p.keys = false)
    (signals : sigPending s1 c.sid ((reqs.map (·.p)).flatMap Piece.keys) = false)
    (strong : (∃ r ∈ reqs, r.p.ord = 0) → c.st.strongBusy = false ∧ ottUsed s1 c.st.core < 256)
    (placed : c.st.misplaced (reqs.map (·.p)) = false) (ended : endRegion s1 c.sid c.f c.fr.pc none = (s2, true))
    (released : (if ((reqs.map (·.p)).all fun p => p.ord == 2) then (s2, true) else release s2 c.sid c.f sc true) = (s3, true)) :
    startStore h c s1 (some sc) fl mfl reqs = advance ((setRgn (flyStores s3 c reqs) c.sid c.f (c.fr.pc + 12#57)).updStrand c.sid fun y =>
      { y with sp := y.sp.addFlags fl mfl }) c.sid c.f h := by
  have apart' : (reqs.any fun x => c.st.overlaps x.t x.p.keys) = false := by simpa using apart
  have free : (!(reqs.filter fun x => x.p.ord == 0).isEmpty && (c.st.strongBusy || decide (256 ≤ ottUsed s1 c.st.core))) = false := by
    rw [Bool.and_eq_false_imp]
    intro onStrong
    obtain ⟨busy, room⟩ := strong (by simpa using onStrong)
    simp only [busy, Nat.not_le.2 room, decide_false, Bool.or_self]
  simp only [startStore, strand, acquire, apart', signals, free, placed, ended, released, Bool.or_self, Bool.false_eq_true, if_false]

/-- Settles O21: ST starts the stores at its places; they enter the buffer, pass it on STRONG pages, or pass it after a release. -/
theorem globalStoresStart : Obligations.GlobalStoresStart := by
  unfold Obligations.GlobalStoresStart
  intro h ty sc kd d a b s st c s1 ps s2 s3 w u reqs fin I found acquire apart signals strong placed
  have nonempty : reqs ≠ [] := by simpa [reqs] using found.places_nonempty
  have apart' : ∀ r ∈ reqs, c.st.overlaps r.t r.p.keys = false := by simpa [reqs] using apart
  have signals' : sigPending s1 c.sid (reqs.flatMap fun r => r.p.keys) = false := by simpa [reqs, List.flatMap_map] using signals
  have pieces : reqs.map (·.p) = ps.map (·.p) := by simp [reqs]
  have placed' : c.st.misplaced (reqs.map (·.p)) = false := by rwa [pieces]
  obtain ⟨buffered, passed⟩ := startStore_starts (h := h) (fl := flNone) (mfl := false) c.st s2 found.strand nonempty acquire apart' signals' placed'
  refine ⟨fun plain soft share room => ?buffered, fun plain allStrong ended => ?passed, fun rel ended released => ?released⟩
  case buffered =>
    rw [exec_st, execSt_found I found, if_neg plain]
    exact buffered (by simpa [reqs, onOrd] using soft) share room
  case passed =>
    obtain ⟨p, places⟩ := List.exists_mem_of_ne_nil ps found.places_nonempty
    obtain ⟨free, entry⟩ := strong (List.any_eq_true.2 ⟨p, places, beq_iff_eq.2 (allStrong p places)⟩)
    rw [exec_st, execSt_found I found, if_neg plain]
    exact passed (by simpa [reqs] using allStrong) free entry ended
  case released =>
    rw [exec_st, execSt_found I found, if_pos rel]
    refine congrArg _ (startStore_releases found.strand acquire apart' (by rwa [List.flatMap_map]) (fun onStrong => strong ?_) placed' ended ?_)
    · obtain ⟨r, member, ordered⟩ := onStrong
      obtain ⟨p, place, rfl⟩ := List.mem_map.1 member
      exact List.any_eq_true.2 ⟨p, place, beq_iff_eq.2 ordered⟩
    · simpa [reqs] using released

end Sys2Proof
end

section
/-!
SUPPORT. O24: the region ends, the fences and DREL (R239, R240, R321, R323, R337 to R339): what a fence is for each kind once its region
has ended, and that a strand with nothing on its way waits for nothing.
-/
namespace Sys2Proof
open Sys2Proof.Machine

variable {h : Hdr} {u : Uses} {s s1 s2 : State} {st : Strand} {c : Ctx} {sc : Scope} {kd : Kind} {d a b : Opnd} {sid f k : Nat} {ok : Bool}

/-! ## The issuing fragment and its sound region end -/

/-- Deciding the uncovered reads of R48 leaves the fragment. -/
theorem Issues.settled_frag (I : Issues h u s st c) : nmGet c.st.frags c.f = some c.fr := by
  obtain ⟨r, sp, ps, e⟩ := st.settle_shape (u.reads ++ guardRefs h) s.freeCtr
  rw [I.settled, e]
  exact I.frag

/-- A sound strand's region end goes through at its issue (R321, R323). -/
theorem endRegion_issued {next : VAddr} (sound : Sound c.st) : endRegion (issued h u s st c) c.sid f next none
    = (committed (issued h u s st c) c.sid f next, true) := endRegion_sound issued_strand sound

/-! ## A fence by its kind -/

section
variable (ended : endRegion s c.sid c.f c.fr.pc none = (s1, ok))
include ended

/-- Where the region aborts or the job ends, the fence goes no further (R321). -/
theorem fence_aborts (aborts : ok = false) : fence s c sc kd = (s1, false) := by
  subst aborts
  simp only [fence, ended]

variable (ends : ok = true)
include ends

/-- A plain fence is over with its region (R239). -/
theorem fence_plain : fence s c sc .plain = (s1, true) := by
  subst ends
  simp only [fence, ended]
  rfl

/-- A release fence makes the waits of a release (R337). -/
theorem fence_rel : fence s c sc .rel = release s1 c.sid c.f sc false := by
  subst ends
  simp only [fence, ended]
  generalize waits : release s1 c.sid c.f sc false = r
  obtain ⟨s2, _ | _⟩ := r <;> rfl

/-- An acquire fence waits for the strand's loads, and drops the read line buffer (R338, R339). -/
theorem fence_acq : fence s c sc .acq = if ((nmGet s1.strands c.sid).map Strand.loading).getD false then (stay s1 c.sid c.f, false)
    else (dropRlb s1 c.st.core sc, true) := by
  subst ends
  simp [fence, ended]

/-- A full fence does both; at .module and .fabric it waits for the strand's invalidations as well (R318). -/
theorem fence_full (released : release s1 c.sid c.f sc false = (s2, true))
    (loaded : ((nmGet s2.strands c.sid).map Strand.loading).getD false = false) (settled : tinvOpen s2 c.sid = false) :
    fence s c sc .full = (dropRlb s2 c.st.core sc, true) := by
  subst ends
  simp [fence, ended, released, loaded, settled]

end

/-! ## A strand with nothing on its way -/

/-- Such a strand is sound: it has no entry to validate. -/
theorem Still.sound (still : Still s st) : Sound st := fun e entry => absurd entry (by simp [still.buffer])

/-- The waits of a release are over for it at every scope (R337). -/
theorem Still.relWaits_over (still : Still s st) (sc : Scope) (un : Bool) (stamp : Option Nat) : (relWaits s st sc un stamp).2 = true := by
  have drained : st.ownDrained un = true := by simp [Strand.ownDrained, still.buffer, still.pend]
  cases sc with
  | strand => rfl
  | core | cluster | die => exact drained
  | module | fabric => cases stamp <;> simp [relWaits, drained, still.die, still.lines, still.packets]

/-- So its release goes through (R337). -/
theorem Still.release_over {fr : Frag} (still : Still s st) (strand : nmGet s.strands sid = some st) (frag : nmGet st.frags f = some fr)
    (sc : Scope) (un : Bool) : release s sid f sc un = (s.acts sid, true) := by
  have waits := still.relWaits_over sc un fr.rel
  simp only [release, strand, frag]
  generalize relWaits s st sc un fr.rel = r at waits
  obtain ⟨q, _ | _⟩ := r
  · cases waits
  · rfl

/-- The strand after a region end of a strand with nothing on its way has nothing on its way either. -/
theorem Still.after_commit (still : Still s c.st) (frag : nmGet c.st.frags c.f = some c.fr) (next : VAddr) :
    ∃ y fr, nmGet (committed (issued h u s st c) c.sid c.f next).strands c.sid = some y ∧ nmGet y.frags c.f = some fr ∧
      Still (committed (issued h u s st c) c.sid c.f next) y := by
  obtain ⟨buffer, pend, die, lines, packets, tinvs⟩ := still
  have before : nmGet (issued h u s st c).tick.2.strands c.sid = some c.st := issued_strand (h := h) (u := u) (st := st)
  refine ⟨_, { c.fr with rgn := next }, (State.strand_updStrand_self _ _ _).trans (congrArg (Option.map _) before), ?_,
    ⟨by simp [buffer], pend, die, (issued_core_wcb (h := h) (u := u) (st := st) c.st.core).trans lines, packets, tinvs⟩⟩
  refine (nmGet_mapVal c.st.frags (fun k fr => { fr with rgn := if k == c.f then next else fr.pc }) c.f).trans ?_
  simp [frag]

/-- A fence of such a strand is over (R239, R337 to R339). -/
theorem Still.fence_over (still : Still s c.st) (I : Issues h u s st c) (sc : Scope) (kd : Kind) :
    let x := committed (issued h u s st c) c.sid c.f c.fr.pc
    let y := if kd = .rel ∨ kd = .full then x.acts c.sid else x
    fence (issued h u s st c) c sc kd = (if kd = .acq ∨ kd = .full then dropRlb y c.st.core sc else y, true) := by
  intro x y
  obtain ⟨z, fr, strand, frag, after⟩ := still.after_commit (h := h) (u := u) (st := st) I.settled_frag c.fr.pc
  have ended : endRegion (issued h u s st c) c.sid c.f c.fr.pc none = (x, true) := endRegion_issued still.sound
  have released : release x c.sid c.f sc false = (x.acts c.sid, true) := after.release_over strand frag sc false
  have quiet : z.loading = false := by simp [Strand.loading, after.pend]
  have loaded : ((nmGet x.strands c.sid).map Strand.loading).getD false = false := by
    rw [strand]
    exact quiet
  have loaded' : ((nmGet (x.acts c.sid).strands c.sid).map Strand.loading).getD false = false := by
    rw [State.acts, State.strand_updStrand_self, strand]
    exact quiet
  have settled : tinvOpen (x.acts c.sid) c.sid = false := by
    have none' : (x.acts c.sid).tinvs = [] := after.tinvs
    simp only [tinvOpen, none', List.any_nil]
  cases kd with
  | plain => exact fence_plain ended rfl
  | rel => exact (fence_rel ended rfl).trans released
  | acq => exact (fence_acq ended rfl).trans (if_neg (Bool.eq_false_iff.1 loaded))
  | full => exact fence_full ended rfl released loaded' settled

/-! ## RGN, FENCE and DREL -/

/-- RGN follows its region end (R239). -/
theorem execRgn_follows (I : Issues h (uses [] []) s st c) (acting : c.acts h ≠ [])
    (ended : endRegion (issued h (uses [] []) s st c) c.sid c.f (c.fr.pc + 12#57) none = (s1, ok)) :
    execRgn h s = .next (if ok then advance s1 c.sid c.f h else s1) := by
  rw [execRgn, issue_of_issues I]
  simp only [acts_isEmpty acting, ended, Bool.false_eq_true, if_false]
  cases ok <;> rfl

/-- FENCE follows its fence: over, its region starts at the next word (R239, R323). -/
theorem execFence_follows (I : Issues h (uses [] []) s st c) (acting : c.acts h ≠ [])
    (fenced : fence (issued h (uses [] []) s st c) c sc kd = (s1, ok)) : execFence h sc kd s = .next (if ok then doneRgn s1 c h else s1) := by
  rw [execFence, issue_of_issues I]
  simp only [acts_isEmpty acting, fenced, Bool.false_eq_true, if_false]
  cases ok <;> rfl

/-- The registers that DREL uses: it reads its team and its range (R240). -/
abbrev drelUses (d a b : Opnd) : Uses := uses [] (refsOf d false ++ refsOf a false ++ refsOf b false)

/-- DREL of a member, its fence over, gives up the team's pages of its range (R240). -/
theorem execDrel_releases (I : Issues h (drelUses d a b) s st c) (acting : c.acts h ≠ [])
    (team : teamKey (issued h (drelUses d a b) s st c) c.st.job c.st.batch (c.st.r.uni64 d % 65536) = some k)
    (member : c.st.teams.any (·.1 == k) = true) (fenced : fence (issued h (drelUses d a b) s st c) c .module .rel = (s1, true)) :
    execDrel h d a b s = .next (doneRgn (if c.st.r.uni64 b = 0 then s1
      else dropOwner s1 (s1.asid c.st) k (c.st.r.uni64 a) (c.st.r.uni64 a + c.st.r.uni64 b)) c h) := by
  rw [execDrel, issue_of_issues I]
  simp only [acts_isEmpty acting, team, Option.filter_some, member, fenced, Bool.false_eq_true, if_true, if_false]

/-- Settles O24: RGN follows its region end, FENCE and DREL their fence, which is over where nothing is on its way. -/
theorem fencesAndRegions : Obligations.FencesAndRegions := by
  unfold Obligations.FencesAndRegions
  intro h sc kd d a b s st c u done
  have rgnIdle : idle h (uses [] []) (.rgn h) := idle_of_body (fun _ => rfl) fun c s none' => by simp only [none', List.isEmpty_nil, if_true]
  have fenceIdle : idle h (uses [] []) (.fence h sc kd) := idle_of_body (fun _ => rfl) fun c s none' => by
    simp only [none', List.isEmpty_nil, if_true]
  have drelIdle : idle h u (.drel h d a b) := idle_of_body (fun _ => rfl) fun c s none' => by simp only [none', List.isEmpty_nil, if_true]
  refine ⟨fun I none' => ⟨rgnIdle s st c I none', fenceIdle s st c I none'⟩, drelIdle s st c,
    fun I acting sound => execRgn_follows I acting (endRegion_issued sound), fun I acting sound plain => ?plain,
    fun I acting still => execFence_follows I acting (still.fence_over I sc kd),
    fun k I acting still team member => execDrel_releases I acting team member (still.fence_over I .module .rel),
    ?follows⟩
  case plain =>
    subst plain
    exact execFence_follows I acting (fence_plain (endRegion_issued sound) rfl)
  case follows =>
    intro s1 s2 ok b I acting
    refine ⟨execRgn_follows I acting, fun aborted => execFence_follows I acting (fence_aborts aborted rfl),
      fun ended => ⟨fun plain => ?plain, fun rel released => ?rel, fun acq => ?acq⟩⟩
    case plain =>
      subst plain
      exact execFence_follows I acting (fence_plain ended rfl)
    case rel =>
      subst rel
      exact execFence_follows I acting ((fence_rel ended rfl).trans released)
    case acq =>
      subst acq
      have fenced := fence_acq (sc := sc) ended rfl
      rw [exec_fence]
      split at fenced
      case isTrue loading => exact (execFence_follows I acting fenced).trans (congrArg _ (if_pos loading).symm)
      case isFalse loaded => exact (execFence_follows I acting fenced).trans (congrArg _ (if_neg loaded).symm)

end Sys2Proof
end

section
/-!
SUPPORT. O28: teams, team barriers, and LSYN by a fragment alone (R228, R244 to R247).
-/
namespace Sys2Proof
open Sys2Proof.Machine

variable {h : Hdr} {u : Uses} {s s1 s2 : State} {st : Strand} {c : Ctx} {sc : Scope} {kd : Kind} {d a b : Opnd} {j : Job} {mask : W32}
  {sid f k rank : Nat}

/-! ## TJOIN, TLEAVE and TBAR -/

/-- The rank that TJOIN's A names stands in bits 47 to 32 (R244). -/
theorem bitsOf_rank (x : Nat) : bitsOf x 47 32 = x / 2 ^ 32 % 65536 := bitsOf_div x 47 32

/-- The registers that TJOIN uses: it writes D, tracked (R244). -/
abbrev tjoinUses (d a b : Opnd) : Uses := usesT (refsOf d false) (refsOf a false ++ refsOf b false)

/-- TJOIN, not refused, joins the team and tells D the number of members (R244). -/
theorem execTjoin_joins (I : Issues h (tjoinUses d a b) s st c) (acting : c.acts h ≠ []) {num size : Nat} (team : num = c.st.r.uni64 a % 65536)
    (place : rank = c.st.r.uni64 a / 2 ^ 32 % 65536) (members : size = c.st.r.uni64 b % 65536)
    (admitted : tjoinCause (issued h (tjoinUses d a b) s st c) c.st num rank size = none) :
    let r := tjoin (issued h (tjoinUses d a b) s st c) c.sid c.st num rank size
    execTjoin h d a b s = .next (advance (r.1.updStrand c.sid fun y =>
      y.track c.f true (refsOf d false) (dstW d .b64 0 (r.2 % 65536)) flNone false .none) c.sid c.f h) := by
  subst team place members
  rw [execTjoin.eq_def, issue_of_issues I]
  simp only [acts_isEmpty acting, bitsOf_rank, admitted, Bool.false_eq_true, if_false]

section
variable (I : Issues h (uses [] (refsOf a false)) s st c) (acting : c.acts h ≠ [])
variable (member : c.member (issued h (uses [] (refsOf a false)) s st c) a = some (k, rank))
include I acting member

/-- TLEAVE of a member vacates its rank (R245). -/
theorem execTleave_leaves :
    execTleave h a s = .next (advance (tleave (issued h (uses [] (refsOf a false)) s st c) c.sid k rank) c.sid c.f h) := by
  rw [execTleave, issue_of_issues I]
  simp only [acts_isEmpty acting, member, Bool.false_eq_true, if_false]

/-- TBAR ends the region and blocks the fragment for the team's current phase (R246). -/
theorem execTbar_blocks {t : Team} (team : nmGet s.teams k = some t)
    (ended : endRegion (issued h (uses [] (refsOf a false)) s st c) c.sid c.f c.fr.pc (some (k, t.phase, rank)) = (s1, true)) :
    execTbar h sc kd a s = .next (tbarTry (s1.updFrag c.sid c.f fun fr =>
      { fr with st := .blocked, wait := .tbar k t.phase sc (kd == .full), gap := max h.stall.toNat 1, rel := none,
                evt := w64n (c.st.r.uni64 a % 65536 + t.phase % 65536 * 65536) }) c.sid) := by
  have there : nmGet (issued h (uses [] (refsOf a false)) s st c).teams k = some t := team
  rw [execTbar, issue_of_issues I]
  simp only [acts_isEmpty acting, member, there, Option.map_some, Option.getD_some, ended, Bool.false_eq_true, if_false]

end

/-! ## LSYN.full alone -/

/-- A fragment whose LSYN.full has ended the region is released once the strand's buffer has drained, and waits for that before (R247). -/
def lsynFence (s : State) (sid f : Nat) : State :=
  let s3 := (s.acts sid).updFrag sid f fun fr => { fr with rgn := fr.pc + 12#57 }
  if ((nmGet s3.strands sid).map Strand.drained).getD true then rdvRelease s3 sid 1 f else s3.updFrag sid f fun fr => { fr with wait := .drain }

/-- The one open rendezvous of a strand, an LSYN.full of one fragment that covers it, ends the region and is gone (R146, R247). -/
theorem rdvOnce_lsynFull {y : Strand} {r : Rdv} {e : RdvIn} {fr : Frag} (strand : nmGet s.strands sid = some y) (only : y.rdvs = [r])
    (alone : r.fs = [e]) (hj : s.job? y = some j) (frag : nmGet y.frags e.f = some fr) (word : decode (j.word fr.pc) = .ok (.lsyn h sc .full b))
    (covers : liveMask y.sp r.mask &&& fr.mask = liveMask y.sp r.mask)
    (ended : endRegion (({ s with strands := nmSet s.strands sid { y with rdvs := [] } } : State).updStrand sid fun x =>
      x.result e.f (s.now y) 1 [] [] flNone false) sid e.f (fr.pc + 12#57) none = (s2, true)) :
    rdvOnce s sid = some (lsynFence s2 sid e.f) := by
  have ready : y.rdvReady r = true := by
    simp only [Strand.rdvReady, alone, List.foldl_cons, List.foldl_nil, frag, Option.map_some, Option.getD_some, BitVec.zero_or, covers,
      beq_self_eq_true]
  simp only [rdvOnce, strand, only, ready, List.find?_cons, List.filter_cons, List.filter_nil, bne_self_eq_false, Bool.false_eq_true, if_false, hj,
    alone, List.filterMap_cons, List.filterMap_nil, frag, word, List.foldl_cons, List.foldl_nil, List.any_cons, List.any_nil, Bool.or_false,
    List.head?_cons, Option.map_some, Option.getD_some, if_true, rdvWrites, rdvLat, rdvMarks, ended]
  rfl

/-- An LSYN.full that opens no rendezvous leaves none open. -/
theorem noRdv_lsynFence (closed : NoRdv s sid) (f : Nat) : NoRdv (lsynFence s sid f) sid := by
  have fenced : NoRdv ((s.acts sid).updFrag sid f fun fr => { fr with rgn := fr.pc + 12#57 }) sid :=
    closed.of_quiet ((quiet_acts _ _).trans (quiet_updFrag _ _ _ _))
  unfold lsynFence
  dsimp only
  split
  · exact fenced.rdvRelease _ _
  · exact fenced.of_quiet (quiet_updFrag _ _ _ _)

/-- Alone, a fragment executes its LSYN.full with the region end (R146, R247). -/
theorem Alone.executes_lsynFull (A : Alone (.lsyn h sc .full b) h u s st c j mask)
    (ended : endRegion ((gathered h u s st c).updStrand c.sid fun x => x.result c.f c.win 1 [] [] flNone false) c.sid c.f (c.fr.pc + 12#57) none
      = (s2, true)) :
    rdvIssue (.lsyn h sc .full b) h mask c (issued h u s st c) = .next (lsynFence s2 c.sid c.f) := by
  have executed := rdvOnce_lsynFull (s := openedState (.lsyn h sc .full b) h mask c (issued h u s st c)) (s2 := s2)
    (y := openedStrand (.lsyn h sc .full b) h mask c (issued h u s st c)) (r := openedRdv (.lsyn h sc .full b) h mask c (issued h u s st c))
    (nmGet_nmSet_self _ _ _) rfl rfl ((issued_job A.issues).trans A.job) A.waiting A.word A.covers
  rw [A.gathered_eq, A.now] at executed
  have closed : NoRdv s2 c.sid := (A.closed _ _ _ _ _ _).of_quiet (quiet_pair ended (quiet_endRegion _ _ _ _ _))
  rw [A.opens, rdvTry, executed ended]
  exact congrArg _ (rdvTry_none (noRdv_lsynFence closed _) 7)

/-- LSYN with an acting thread issues its rendezvous (R247). -/
theorem execLsyn_issues (I : Issues h (uses [] (refsOf b false)) s st c) (acting : c.acts h ≠ []) :
    execLsyn h sc kd b s
      = rdvIssue (.lsyn h sc kd b) h (BitVec.ofNat 32 (c.st.r.uni64 b)) c (issued h (uses [] (refsOf b false)) s st c) := by
  rw [execLsyn, issue_of_issues I, acts_isEmpty acting]
  rfl

/-- Settles O28, instruction by instruction; the two forms of LSYN are rendezvous of one fragment. -/
theorem teamsAndBarriers : Obligations.TeamsAndBarriers := by
  unfold Obligations.TeamsAndBarriers
  intro h sc kd d a b uj ua
  refine ⟨idle_of_body (fun _ => rfl) fun c s still => ?tjoin, idle_of_body (fun _ => rfl) fun c s still => ?tleave,
    idle_of_body (fun _ => rfl) fun c s still => ?tbar, fun s st c I acting => execTjoin_joins I acting rfl rfl rfl,
    fun s st c k rank I acting member => ⟨execTleave_leaves I acting member, fun s1 t team ended => execTbar_blocks I acting member team ended⟩,
    idle_of_body (fun _ => rfl) fun c s still => ?lsyn, fun other s st c j acting A => ?alone, fun full s st c j s2 acting A ended => ?fence⟩
  case tjoin | tleave | tbar | lsyn => simp only [still, List.isEmpty_nil, if_true]
  case alone =>
    have noFence : ∀ h' sc' b', Instr.lsyn h sc kd b ≠ .lsyn h' sc' .full b' := fun _ _ _ same => other (Instr.lsyn.inj same).2.2.1
    rw [exec_lsyn, execLsyn_issues A.issues acting, A.executes noFence]
    rfl
  case fence =>
    subst full
    rw [exec_lsyn, execLsyn_issues A.issues acting, A.executes_lsynFull ended]
    rfl

end Sys2Proof
end

section
/-!
SUPPORT. O25: prefetches and the translation instructions (R238, R311, R312, R314, R315): what a translation and a prefetch leave
unchanged, and that a probe sees the same at its instruction's issue.
-/
namespace Sys2Proof
open Sys2Proof.Machine

variable {h : Hdr} {s t s2 : State} {st : Strand} {c : Ctx} {sc : Scope} {d a b : Opnd} {asid va : Nat}

/-! ## What a prefetch leaves unchanged -/

/-- From `s` to `t` no byte of memory, no strand, no batch, no write of a die before memory and no line of a core has changed (R238). -/
structure Unwritten (s t : State) : Prop where
  mem : t.mem = s.mem
  strands : t.strands = s.strands
  batches : t.batches = s.batches
  die : ∀ n, (t.die n).p = (s.die n).p
  lines : ∀ n, (t.core n).wcb = (s.core n).wcb

theorem Unwritten.refl (s : State) : Unwritten s s := ⟨rfl, rfl, rfl, fun _ => rfl, fun _ => rfl⟩

theorem Unwritten.trans {r : State} (before : Unwritten s t) (after : Unwritten t r) : Unwritten s r :=
  ⟨after.mem.trans before.mem, after.strands.trans before.strands, after.batches.trans before.batches,
    fun n => (after.die n).trans (before.die n), fun n => (after.lines n).trans (before.lines n)⟩

/-- A run of steps that each leave it unchanged leaves it unchanged. -/
theorem Unwritten.foldl {α : Type} {f : State → α → State} (step : ∀ s x, Unwritten s (f s x)) :
    ∀ (xs : List α) (s : State), Unwritten s (xs.foldl f s)
  | [], s => .refl s
  | x :: xs, s => (step s x).trans (foldl step xs (f s x))

/-- A core may change but for its lines. -/
theorem Unwritten.setCore (s : State) (n : Nat) {x : Core} (lines : x.wcb = (s.core n).wcb) : Unwritten s (s.setCore n x) := by
  refine ⟨rfl, rfl, rfl, fun _ => rfl, fun m => ?_⟩
  rw [State.core_setCore]
  split
  · next same => rw [lines, same]
  · rfl

/-- A die may change but for its writes before memory. -/
theorem Unwritten.updDie (s : State) (n : Nat) {f : Die → Die} (writes : (f (s.die n)).p = (s.die n).p) : Unwritten s (s.updDie n f) := by
  refine ⟨rfl, rfl, rfl, fun m => ?_, fun _ => rfl⟩
  rw [State.die_updDie]
  split
  · next same => rw [writes, same]
  · rfl

/-- A packet that enters the fabric. -/
theorem Unwritten.sendPkt (s : State) (k : Pkt) : Unwritten s (sendPkt s k) := ⟨rfl, rfl, rfl, fun _ => rfl, fun _ => rfl⟩

/-- A die's translation fills its TLB (R304). -/
theorem Unwritten.dieXlate (s : State) (ag asid va : Nat) : Unwritten s (dieXlate s ag asid va).2 := by
  unfold Machine.dieXlate
  split
  case h_1 => exact .refl s
  case h_2 =>
    split
    case h_1 e _ => exact .updDie s _ (f := fun x => { x with tlb := tlbIns 16384 x.tlb e }) rfl
    case h_2 => exact .refl s

/-- A core's translation fills the TLBs (R304). -/
theorem Unwritten.coreXlate (s : State) (n slot asid batch va : Nat) : Unwritten s (coreXlate s n slot asid batch va).2 := by
  unfold Machine.coreXlate
  split
  case isTrue => exact .refl s
  case isFalse =>
    dsimp only
    split
    case h_1 => exact .refl s
    case h_2 =>
      split
      case h_1 => exact .setCore s _ rfl
      case h_2 =>
        split
        case isTrue => exact .refl s
        case isFalse =>
          have die := Unwritten.dieXlate s n asid va
          split
          case h_1 found => exact (found ▸ die).trans (.setCore _ _ rfl)
          case h_2 => exact die

/-- A sector that a read line buffer takes or asks for (R335, R336). -/
theorem Unwritten.fillSector (s : State) (c home key : Nat) (jobs : List Nat) : Unwritten s (fillSector s c home key jobs) := by
  unfold Machine.fillSector
  split
  · exact .setCore s _ rfl
  · split
    · exact .refl s
    · exact .sendPkt s _

/-- A prefetch (R238). -/
theorem Unwritten.prefetch (s : State) (c : Ctx) (core : Bool) (t va : Nat) : Unwritten s (prefetch s c core t va) := by
  have translated := Unwritten.coreXlate s c.st.core (c.st.tslot t) (s.asid c.st) c.st.batch va
  unfold Machine.prefetch
  split
  · next found =>
    rw [found] at translated
    dsimp only
    split
    · exact translated
    · exact translated.trans (.foldl (fun s _ => .fillSector s _ _ _ _) _ _)
  · exact .refl s

/-! ## XPRB's lookup at its issue -/

/-- A walk reads memory and the module's number only (R299). -/
theorem walkGo_congr (mem : t.mem = s.mem) (module : t.module = s.module) : ∀ lvl, walkGo t asid va lvl = walkGo s asid va lvl := by
  have read : State.rdM t = State.rdM s := funext fun x => funext fun n => by rw [State.rdM, State.rdM, mem]
  intro lvl
  induction lvl with
  | zero =>
    funext tab
    rw [walkGo.eq_def t, walkGo.eq_def s, read, module]
  | succ l upper =>
    funext tab
    rw [walkGo.eq_def t, walkGo.eq_def s, read, module]
    simp only [upper]

/-- A walk from the ASID's root reads the roots besides (R297). -/
theorem walk_congr (mem : t.mem = s.mem) (module : t.module = s.module) (roots : t.roots = s.roots) : walk t asid va = walk s asid va := by
  simp only [walk, roots, walkGo_congr mem module]

/-- The issue of an instruction changes nothing that XPRB looks up (R314). -/
theorem xprb_issued {u : Uses} (core : Nat) : xprb (issued h u s st c) core asid va = xprb s core asid va := by
  have walks : walk (issued h u s st c) asid va = walk s asid va := walk_congr rfl rfl rfl
  have hits : dieHit (issued h u s st c) core asid va = dieHit s core asid va := rfl
  simp only [xprb, issued_core_locked, issued_core_tlb, hits, walks]

/-! ## The instructions -/

/-- The registers that TLBP uses: it reads its range (R311). -/
abbrev tlbpUses (a b : Opnd) : Uses := uses [] (refsOf a false ++ refsOf b false)

/-- PFT prefetches for its acting threads and moves on (R238). -/
theorem execPft_prefetches (I : Issues h (uses [] (refsOf a true ++ refsOf b false)) s st c) :
    execPft h sc a b s = .next (advance ((c.memActs h [a, b]).foldl (fun s t => prefetch s c (sc == .core) t (c.gblAddr a b t))
      (issued h (uses [] (refsOf a true ++ refsOf b false)) s st c)) c.sid c.f h) := by
  rw [execPft, issue_of_issues I]

section
variable (I : Issues h (tlbpUses a b) s st c)
include I

/-- TLBP without an acting thread moves on (R41). -/
theorem execTlbp_idle (still : c.acts h = []) : execTlbp h a b s = .next (advance (issued h (tlbpUses a b) s st c) c.sid c.f h) := by
  rw [execTlbp, issue_of_issues I]
  simp only [still, List.isEmpty_nil, if_true]

variable (acting : c.acts h ≠ []) (sound : Sound c.st)
include acting sound

/-- Of an empty range TLBP locks nothing (R311). -/
theorem execTlbp_empty (empty : c.st.r.uni64 b = 0) :
    execTlbp h a b s = .next (doneRgn (committed (issued h (tlbpUses a b) s st c) c.sid c.f c.fr.pc) c h) := by
  rw [execTlbp, issue_of_issues I]
  simp only [acts_isEmpty acting, endRegion_issued sound, empty, Bool.false_eq_true, if_false, if_true]

/-- TLBP locks the pages of its range beside what the core holds already (R311). -/
theorem execTlbp_locks {es new : List Tlb} {x : State} {old : Core} (region : x = committed (issued h (tlbpUses a b) s st c) c.sid c.f c.fr.pc)
    (nonempty : c.st.r.uni64 b ≠ 0)
    (pages : pagesGo x c.st.core (x.asid c.st) (c.st.r.uni64 a + c.st.r.uni64 b) (c.st.r.uni64 b / 4096 + 2) (c.st.r.uni64 a) = .inl (s2, es))
    (held : old = (s2.core c.st.core).unlock c.st.batch (c.st.r.uni64 a)) (added : new = es.filter fun e => !old.locked.contains e)
    (records : old.locks.length < 16) (entries : old.locked.length + new.length ≤ 64) :
    execTlbp h a b s = .next (doneRgn (s2.setCore c.st.core
      { old with locks := old.locks ++ [{ base := c.st.r.uni64 a, len := c.st.r.uni64 b, asid := x.asid c.st, batch := c.st.batch }],
                 locked := old.locked ++ new }) c h) := by
  subst region held added
  have fits := not_or.2 ⟨Nat.not_le.2 records, Nat.not_lt.2 entries⟩
  rw [execTlbp, issue_of_issues I]
  simp only [acts_isEmpty acting, endRegion_issued sound, pages, nonempty, fits, Bool.false_eq_true, if_false]

end

/-- TLBU drops the batch's record of its base (R312). -/
theorem execTlbu_unlocks (I : Issues h (uses [] (refsOf a false)) s st c) (acting : c.acts h ≠ []) :
    execTlbu h a s = .next (advance ((issued h (uses [] (refsOf a false)) s st c).updCore c.st.core fun x =>
      x.unlock c.st.batch (c.st.r.uni64 a)) c.sid c.f h) := by
  rw [execTlbu, issue_of_issues I, acts_isEmpty acting]
  rfl

/-- XPRB gives D what it has looked up, tracked (R314). -/
theorem execXprb_probes (I : Issues h (usesT (refsOf d false) (refsOf a false)) s st c) (acting : c.acts h ≠ []) :
    execXprb h d a s = .next (trackState h (usesT (refsOf d false) (refsOf a false)) s st c
      { ws := dstW d .b64 0 (xprb s c.st.core (s.asid c.st) (c.st.r.uni64 a)), fl := flNone, mfl := false }) := by
  rw [execXprb, issue_of_issues I, acts_isEmpty acting, xprb_issued]
  rfl

/-- The registers that TINV uses; it is of a supervisor job (R315). -/
abbrev tinvUses (d a b : Opnd) : Uses := { uses [] (refsOf d false ++ refsOf a false ++ refsOf b false) with priv := true }

/-- TINV starts its invalidation (R315). -/
theorem execTinv_starts (I : Issues h (tinvUses d a b) s st c) (acting : c.acts h ≠ []) :
    execTinv h d a b s = .next (advance (startTinv (issued h (tinvUses d a b) s st c) (some c.sid) (c.st.r.uni64 d % 65536)
      (bitAt (c.st.r.uni64 d) 16) (c.st.r.uni64 a) (c.st.r.uni64 b)) c.sid c.f h) := by
  rw [execTinv, issue_of_issues I, acts_isEmpty acting]
  rfl

/-- Settles O25, instruction by instruction; PFT's prefetches write nothing, one after another. -/
theorem translationInstructions : Obligations.TranslationInstructions := by
  unfold Obligations.TranslationInstructions
  intro h sc d a b s st c s2 es
  refine ⟨?pft, ?tlbp, ?tlbu, ?xprb, ?tinv⟩
  case pft =>
    intro u x I
    have unwritten : Unwritten (issued h u s st c) x := .foldl (fun s t => .prefetch s c (sc == .core) t (c.gblAddr a b t)) _ _
    exact ⟨execPft_prefetches I, unwritten.mem, unwritten.strands, unwritten.batches, unwritten.die,
      fun n => (unwritten.lines n).trans (issued_core_wcb n)⟩
  case tlbp =>
    intro u x base len old new done I
    exact ⟨execTlbp_idle I, fun acting sound empty => execTlbp_empty I acting sound empty,
      fun acting sound nonempty pages records entries => execTlbp_locks I acting sound rfl nonempty pages rfl rfl records entries⟩
  case tlbu => exact fun I acting => execTlbu_unlocks I acting
  case xprb => exact fun I acting => execXprb_probes I acting
  case tinv => exact fun I acting => execTinv_starts I acting

end Sys2Proof
end

section
/-!
SUPPORT. O40: the rows of a pass (R270, R275).
-/
namespace Sys2Proof
open Sys2Proof.Machine

variable {s s1 : State} {st : Strand} {m m1 : MatCmd} {ws : List Write}

/-- A pass is a product of tiles of numbers or of moments (R264, R270, R275). -/
theorem isPass_cases {r : CmdReq} (pass : r.isPass = true) :
    (∃ sp ty d a b, r = .mma sp ty d a b) ∨ ∃ rho vc d a b, r = .mmam rho vc d a b := by
  cases r with
  | mma sp ty d a b => exact .inl ⟨sp, ty, d, a, b, rfl⟩
  | mmam rho vc d a b => exact .inr ⟨rho, vc, d, a, b, rfl⟩
  | _ => exact Bool.noConfusion pass

/-- After row 63 nothing of a pass is left to commit (R270). -/
theorem matNext_pass_last (pass : m.req.isPass = true) (last : 64 ≤ m.row) : matNext s st m = .done s m [] := by
  obtain ⟨_, _, _, _, _, product⟩ | ⟨_, _, _, _, _, product⟩ := isPass_cases pass
  all_goals
    simp only [matNext, product]
    exact if_pos last

/-- A failed fetch commits no row (R279, R306, R308). -/
theorem matErr_ne_row (e : EngErr) : matErr e ≠ .row s1 m1 ws := by
  cases e with
  | status c =>
    rw [matErr]
    split <;> exact MatNext.noConfusion
  | _ => exact MatNext.noConfusion

/-- The row that a pass commits is its next one, by a fetch that succeeds (R270). -/
theorem matNext_pass_row (pass : m.req.isPass = true) (next : matNext s st m = .row s1 m1 ws) :
    m.row < 64 ∧ ∃ b fl neg, passRow s st.r m = .ok (s1, b, ws, fl, neg) ∧
      m1 = { m with row := m.row + 1, opB := b, seen := [], fl := m.fl ||| fl, mfl := m.mfl || neg } := by
  have before : m.row < 64 := Nat.not_le.1 fun last => nomatch (matNext_pass_last pass last).symm.trans next
  refine ⟨before, ?_⟩
  obtain ⟨_, _, _, _, _, product⟩ | ⟨_, _, _, _, _, product⟩ := isPass_cases pass
  all_goals
    simp only [matNext, product, Nat.not_le.2 before, if_false] at next
    split at next
    · exact absurd next (matErr_ne_row _)
    · next fetched =>
      cases next
      exact ⟨_, _, _, fetched, by rw [product]⟩

/-- Settles O40: the command that a row leaves differs from the one before it in its next row and what the row computed. -/
theorem passesCommitSixtyFourRows : Obligations.PassesCommitSixtyFourRows := by
  unfold Obligations.PassesCommitSixtyFourRows
  intro s st m pass
  refine ⟨matNext_pass_last pass, fun s1 m1 ws next => ?_⟩
  obtain ⟨before, _, _, _, _, rfl⟩ := matNext_pass_row pass next
  exact ⟨before, rfl, rfl, rfl⟩

end Sys2Proof
end

section
/-!
SUPPORT. O39: the steps of the matrix engine (R263, R264, R270, R276, R280, R290).
-/
namespace Sys2Proof
open Sys2Proof.Machine

variable {s s1 : State} {cl pair : Nat} {st : Strand} {m m1 : MatCmd} {ws : List Write} {cause : BitVec 8}

/-- The oldest command that waits for an entry of a cluster takes a freed one (R263). -/
theorem execReservationAdmit_admits {q sid f : Nat} {r : CmdReq} {rest : List (Nat × Nat × Nat × CmdReq)}
    (room : (clusterCmds s cl).length < 32)
    (oldest : cmdQueue s [4 * cl, 4 * cl + 1, 4 * cl + 2, 4 * cl + 3] CmdReq.isMat = (q, sid, f, r) :: rest)
    (may : mayTake s sid r = true) : execReservationAdmit cl s = .next (unblockRgn (takeMat s sid f r q) sid f) := by
  simp only [execReservationAdmit, Nat.not_le.2 room, oldest, may, if_false, if_true]

/-! ## The command that a pair runs -/

/-- The command that a step of a pair serves first: its running pass, or its tile command where no pass runs (R264). -/
def Serves (s : State) (pair : Nat) (m : MatCmd) (st : Strand) : Prop :=
  matRunning s pair true = some (m, st) ∨ matRunning s pair true = none ∧ matRunning s pair false = some (m, st)

section
variable (serves : Serves s pair m st)
include serves

/-- A command with nothing left to do completes with its last writes (R276, R285 to R287). -/
theorem Serves.completes (next : matNext s st m = .done s1 m1 ws) : execMatrixCommandComplete pair s =
    .next (billSent s (completeMat (s1.updStrand m.sid fun x => { x with r := x.r.wrAll ws }) m1) m.job) := by
  obtain pass | ⟨idle, tile⟩ := serves
  · simp only [execMatrixCommandComplete, pass, next, putTile]
  · simp only [execMatrixCommandComplete, idle, tile, next, putTile, Option.getD_some]

/-- A page that is not there suspends the command (R276). -/
theorem Serves.suspends {va : Nat} (next : matNext s st m = .page va) : execMatrixPassSuspend pair s = .next (suspendMat s m va) := by
  obtain pass | ⟨idle, tile⟩ := serves
  · simp only [execMatrixPassSuspend, pass, next]
  · simp only [execMatrixPassSuspend, idle, tile, next, Option.getD_some]

/-- An engine error ends the command (R280). -/
theorem Serves.fails (next : matNext s st m = .err cause) : execMatrixEngineError pair s = .next (failMat s m cause) := by
  obtain pass | ⟨idle, tile⟩ := serves
  · simp only [execMatrixEngineError, pass, next]
  · simp only [execMatrixEngineError, idle, tile, next, Option.getD_some]

/-- A cause of its job ends the job (R276, R308). -/
theorem Serves.endsJob {more : List W64} (next : matNext s st m = .dead cause more) :
    execMatrixEngineError pair s = .next (endJob s m.job cause (originRec m.job cause m.by_ more)) := by
  obtain pass | ⟨idle, tile⟩ := serves
  · simp only [execMatrixEngineError, pass, next]
  · simp only [execMatrixEngineError, idle, tile, next, Option.getD_some]

end

/-- The running pass commits its next row to its tile (R270). -/
theorem execMatrixRowCommit_commits (running : matRunning s pair true = some (m, st)) (next : matNext s st m = .row s1 m1 ws) :
    execMatrixRowCommit (.commit pair) s =
      .next (billSent s (updMat (s1.updStrand m.sid fun x => { x with r := x.r.wrAll ws }) m1) m.job) := by
  simp only [execMatrixRowCommit, running, next, putTile]

/-- A sector may be fetched ahead for the running command (R290). -/
theorem execMatrixRowCommit_fetches {pass : Bool} (running : matRunning s pair pass = some (m, st)) (va : Nat) :
    execMatrixRowCommit (.ahead pair pass va) s = .next (matAhead s m va) := by
  simp only [execMatrixRowCommit, running]

/-- A tile command goes on by one sector where no pass runs (R287). -/
theorem execMatrixCommandComplete_sector (idle : matRunning s pair true = none) (running : matRunning s pair false = some (m, st))
    (next : matNext s st m = .row s1 m1 ws) : execMatrixCommandComplete pair s = .next (billSent s (updMat s1 m1) m.job) := by
  simp only [execMatrixCommandComplete, idle, running, next, Bool.false_eq_true, if_false, Option.getD_some]

/-- Settles O39: a step serves the pair's running pass, and its tile command where none runs. -/
theorem matrixStepsTakeEffect : Obligations.MatrixStepsTakeEffect := by
  unfold Obligations.MatrixStepsTakeEffect
  intro s cl pair q sid f va r rest m m1 st s1 ws cause
  refine ⟨execReservationAdmit_admits, fun picked => ?passStart, fun picked => ?tileStart, fun running => ?pass, fun idle running => ?tile⟩
  case passStart => simp only [exec_matrixPassStart, execMatrixPassStart, picked]
  case tileStart => simp only [exec_tileCommandStart, execTileCommandStart, picked]
  case pass =>
    have serves : Serves s pair m st := .inl running
    exact ⟨execMatrixRowCommit_commits running, execMatrixRowCommit_fetches running, serves.completes, serves.suspends, serves.fails,
      fun _ => serves.endsJob⟩
  case tile =>
    have serves : Serves s pair m st := .inr ⟨idle, running⟩
    exact ⟨serves.completes, execMatrixCommandComplete_sector idle running, serves.suspends, serves.fails⟩

end Sys2Proof
end

section
/-!
SUPPORT. O38: the matrix engine's instructions (R263, R267, R268, R284 to R289).
-/
namespace Sys2Proof
open Sys2Proof.Machine

variable {h : Hdr} {u : State → Uses} {s : State} {st : Strand} {c : Ctx} {i : Instr} {ty : Ty} {d a b : Opnd}

/-! ## Commands -/

/-- An instruction issues a matrix command in any mode: the registers that it uses, its descriptors' check, its operands (R284). -/
def IssuesMat (i : Instr) (h : Hdr) (u : State → Uses) (bad : Ctx → Bool) (mk : Ctx → CmdReq) : Prop :=
  ∀ s, exec i s = matIssue h (u s).reads (u s).writes (u s).tracked s bad mk ∧ (u s).priv = false

section
variable {bad : Ctx → Bool} {mk : Ctx → CmdReq} (issues : IssuesMat i h u bad mk)
include issues

/-- The issue of a command checks what its instruction uses, which no mode withholds. -/
theorem IssuesMat.uses_eq (s : State) : { uses (u s).writes (u s).reads with tracked := (u s).tracked } = u s := by
  rw [uses, ← (issues s).2]

/-- A good command that finds a free entry takes it (R263, R268, R284). -/
theorem IssuesMat.accepts : MatAccepts i h u bad mk := by
  intro s st c s1 I acting good ended acquire stored b1 cl room first
  have enters : ¬(32 ≤ (clusterCmds b1 cl).length ∨
      (!(cmdQueue b1 [4 * cl, 4 * cl + 1, 4 * cl + 2, 4 * cl + 3] CmdReq.isMat).isEmpty) = true) := by
    simp only [first, List.isEmpty_nil, Bool.not_true, Bool.false_eq_true, or_false]
    exact Nat.not_le.2 room
  rw [(issues s).1, matIssue, issues.uses_eq, issue_of_issues I]
  simp only [acts_isEmpty acting, good, ended, acquire, stored, Bool.not_true, Bool.or_self, Bool.false_eq_true, if_false]
  exact if_neg enters

/-- A bad descriptor traps (R267, R268). -/
theorem IssuesMat.refuses : MatRefuses i h u bad := by
  intro s st c I acting wrong
  rw [(issues s).1, matIssue, issues.uses_eq, issue_of_issues I]
  simp only [acts_isEmpty acting, wrong, Bool.false_eq_true, if_true, if_false]
  rfl

end

/-! ## MWT and AMOV -/

/-- MWT goes on when no command of its strand is left and no tile is faulted, whether a thread acts or none does (R289). -/
theorem execMwt_goes (I : Issues h (uses [] []) s st c) (none_left : strandCmds (issued h (uses [] []) s st c) c.sid = [])
    (sound : c.st.faults = []) : execMwt h s = .next (advance (issued h (uses [] []) s st c) c.sid c.f h) := by
  rw [execMwt, issue_of_issues I]
  simp only [none_left, sound, List.isEmpty_nil, Bool.not_true, Bool.false_eq_true, if_false, ite_self]

/-- AMOV.put gives tile rows its acting threads' elements, where no variance fails or %ctl.vclamp replaces it (R288). -/
theorem doesTIf_amovPut {rnd : Rnd} {sat : Bool} :
    let put := fun (c : Ctx) (t : Nat) => amovPut c ty a (opndIx d) (c.amovBase b + t) t
    DoesTIf (.amov h ty rnd sat true d a b) h (usesT (tilesOf (ty == .m64) d) (refsOf a false ++ refsOf b false))
      (fun c => c.st.sp.vclamp = true ∨ ∀ t ∈ c.acts h, (put c t).2.2 = false)
      (fun c => { ws := (c.acts h).flatMap fun t => (put c t).1, fl := unionFlags ((c.acts h).map fun t => (put c t).2.1),
                  mfl := (c.acts h).any fun t => (put c t).2.2 }) := by
  intro put s st c I ok
  refine doesT_of I rfl rfl ?_
  have goes : (((c.acts h).any fun t => (put c t).2.2) && !c.st.sp.vclamp) = false := by
    obtain clamps | sound := ok
    · rw [clamps, Bool.not_true, Bool.and_false]
    · rw [List.any_eq_false.2 fun t ht => Bool.eq_false_iff.1 (sound t ht), Bool.false_and]
  simp only [List.any_map, Function.comp_def, goes, put, Bool.false_eq_true, if_false, List.flatMap_map, List.map_map]

/-- Settles O38: six instructions issue a command, five of them with descriptors that may be bad. -/
theorem matrixInstructions : Obligations.MatrixInstructions := by
  unfold Obligations.MatrixInstructions
  intro h ty cov rnd sat pair d a b mm mc uz ul us two spr mom one
  have mma : IssuesMat (.mma h ty d a b) h (mm false) two _ := fun _ => ⟨rfl, rfl⟩
  have mmas : IssuesMat (.mmas h ty d a b) h (mm false) spr _ := fun _ => ⟨rfl, rfl⟩
  have mmam : IssuesMat (.mmam h cov d a b) h mc mom _ := fun _ => ⟨rfl, rfl⟩
  have azro : IssuesMat (.azro h pair d) h uz _ _ := fun _ => ⟨rfl, rfl⟩
  have ald : IssuesMat (.ald h ty d a) h ul one _ := fun _ => ⟨rfl, rfl⟩
  have ast : IssuesMat (.ast h ty rnd sat d a) h us one _ := fun _ => ⟨rfl, rfl⟩
  refine ⟨mma.accepts, mmas.accepts, mmam.accepts, azro.accepts, ald.accepts, ast.accepts, mma.refuses, mmas.refuses, mmam.refuses, ald.refuses,
    ast.refuses, idle_of_body (fun _ => rfl) fun c s still => ?mwt, fun s st c I => execMwt_goes I, doesTIf_amovPut,
    doesTIf_moments rfl fun _ => rfl⟩
  case mwt => simp only [still, List.isEmpty_nil, if_true]

end Sys2Proof
end

section
/-!
SUPPORT. O35: invalidations (R315, R316), timing replays (R328) and the ends of re-execution shadows (R330) as steps.
-/
namespace Sys2Proof
open Sys2Proof.Machine

variable {s : State} {c unit n : Nat} {sc : Screen} {tv : Tinv}

/-! ## Invalidations -/

/-- An invalidation whose translations an agent has dropped (R316, step 1). -/
def invSwept (s : State) (tv : Tinv) (ag : Nat) : Tinv :=
  { tv with after := (tv.after ++ tinvDropped s ag tv).eraseDups, swept := (tv.swept ++ [ag]).eraseDups }

/-- A core that drops the translations of an invalidation, and keeps what its strands hold under them from being used (R316). -/
def coreSwept (s : State) (c : Nat) (t : Tinv) : State :=
  { s.updCore c (·.sweep t) with
    strands := s.strands.map fun (e : Nat × Strand) => if e.2.core == c && s.asid e.2 == t.asid then (e.1, e.2.markStale t) else e }

/-- An agent that drops the translations of an invalidation: a core, or a die from 4096 on (R316, step 1). -/
def agentSwept (s : State) (ag : Nat) (t : Tinv) : State :=
  if ag < 4096 then coreSwept s ag t else s.updDie (ag - 4096) fun d => { d with tlb := d.tlb.filter fun e => !t.drops e }

/-- Whether a command that marks runs under a dropped translation of a die (R316, step 2). -/
def marksHeld (s : State) (die : Nat) (t : Tinv) : Bool :=
  (s.marks ++ s.cores.flatMap fun e => e.2.markQ.filterMap (·.cmd)).any fun m => dieOf m.core == die && m.tr.any t.drops

/-- Whether something issued under the dropped translations, which leave the state `x`, is on its way at the agent (R316, step 2). -/
def agentBusy (s x : State) (ag : Nat) (t : Tinv) : Bool :=
  (decide (ag < 4096) && tinvBusy x ag t) || (decide (4096 ≤ ag) && marksHeld s (ag - 4096) t)

/-- An agent's answer: its acknowledgement unless it is busy; the last acknowledgement ends the invalidation (R316, step 3). -/
def invAnswered (x : State) (t : Tinv) (ag : Nat) (busy : Bool) : State :=
  { x with tinvs := (x.tinvs.map fun (y : Tinv) =>
      if y.id == t.id then (if busy then t else { t with left := t.left.filter (· != ag) }) else y).filter fun y => !y.left.isEmpty }

/-- An agent that an invalidation still waits for drops its translations and answers (R316). -/
theorem execTinvAgentAck_answers {ag : Nat} (found : s.tinvs.find? (fun t => t.left.contains ag) = some tv) :
    let t := invSwept s tv ag
    let x := agentSwept s ag t
    execTinvAgentAck ag s = .next (invAnswered x t ag (agentBusy s x ag t)) := by
  rw [execTinvAgentAck, found]
  rfl

/-- No command that marks holds a translation where none of them holds any (R316). -/
theorem marksHeld_eq_false {die : Nat} {t : Tinv} (running : ∀ m ∈ s.marks, m.tr = []) (queued : ∀ e ∈ s.cores, e.2.markQ = []) :
    marksHeld s die t = false := by
  refine List.any_eq_false.2 fun m cmd => ?_
  rcases List.mem_append.1 cmd with runs | waits
  · simp [running m runs]
  · obtain ⟨e, core, inQueue⟩ := List.mem_flatMap.1 waits
    simp [queued e core] at inQueue

/-- A die where no command holds a translation drops its own and acknowledges at once (R316). -/
theorem execTinvAgentAck_die (found : s.tinvs.find? (fun t => t.left.contains (4096 + unit)) = some tv)
    (running : ∀ m ∈ s.marks, m.tr = []) (queued : ∀ e ∈ s.cores, e.2.markQ = []) :
    let t := invSwept s tv (4096 + unit)
    execTinvAgentAck (4096 + unit) s = .next (invAnswered (s.updDie unit fun d => { d with tlb := d.tlb.filter fun e => !t.drops e }) t
      (4096 + unit) false) := by
  intro t
  have die : ¬4096 + unit < 4096 := by omega
  have idle (x : State) : agentBusy s x (4096 + unit) t = false := by
    simp only [agentBusy, die, marksHeld_eq_false running queued, decide_false, Bool.false_and, Bool.and_false, Bool.or_self]
  rw [execTinvAgentAck_answers found, idle, agentSwept, if_neg die, Nat.add_sub_cancel_left]

/-- A core acknowledges once nothing that was issued under the translations is on its way there (R316). -/
theorem execTinvAgentAck_core (found : s.tinvs.find? (fun t => t.left.contains c) = some tv) (core : c < 4096) :
    let t := invSwept s tv c
    tinvBusy (coreSwept s c t) c t = false → execTinvAgentAck c s = .next (invAnswered (coreSwept s c t) t c false) := by
  intro t landed
  have idle : agentBusy s (coreSwept s c t) c t = false := by
    simp only [agentBusy, landed, Nat.not_le.2 core, decide_false, Bool.false_and, Bool.and_false, Bool.or_self]
  rw [execTinvAgentAck_answers found, agentSwept, if_pos core, idle]

/-- An invalidation of a whole address space, or of a range that is not empty, begins with every agent to answer (R315). -/
theorem startTinv_begins {sid : Option Nat} {asid base len : Nat} {whole : Bool} (nonempty : whole = true ∨ len ≠ 0) (agents : tinvAgents s ≠ []) :
    startTinv s sid asid whole base len = { s.tick.2 with tinvs := s.tinvs ++
      [{ id := s.tick.1, sid := sid, asid := asid, whole := whole, lo := base / 4096 * 4096, hi := ceilDiv (base + len) 4096 * 4096,
         left := tinvAgents s, swept := [], after := [] }] } := by
  have starts : ¬(!whole && len == 0) = true := by
    rcases nonempty with all | range
    · simp [all]
    · simp [range]
  rw [startTinv, if_neg starts]
  split
  · next noAgent => exact absurd noAgent agents
  · rfl

/-- H2's register starts an invalidation as TINV does (R315). -/
theorem execTinvRegisterWrite_admitted {asid base len : Nat} {whole : Bool} (admits : s.regRefuses (hartAt 2 [0x1000] 0 8) true = none) :
    execTinvRegisterWrite asid whole base len s = .next (startTinv s none (asid % 65536) whole base len) := by
  simp only [execTinvRegisterWrite, State.regWrite, admits]

/-! ## Timing replays -/

/-- A sleep of which a replay has passed two cycles (R328). -/
def replaySleep (fr : Frag) : Frag :=
  match fr.wait with
  | .sleep m => { fr with wait := .sleep (m - 2), evt := w64n (m - 2) }
  | _ => fr

/-- A replayed cycle takes two, for watchdogs and sleeps too (R328). -/
theorem execTimingReplay_replays (core : c < coreCount) (early : watchDue s c = false) (turn : (s.core c).laneTurn = 0) :
    let s1 := s.updCore c fun x =>
      { x with cycle := x.cycle + 2, ev := countEv x.ev x.src evTimingReplay, slots := x.slots.map fun (k, sl) => (k, tickWatch s 2 sl) }
    execTimingReplay c s = .next { s1 with strands := s1.strands.map fun (e : Nat × Strand) =>
      if e.2.core == c && e.2.resident then (e.1, { e.2 with frags := e.2.frags.map fun (k, fr) => (k, replaySleep fr) }) else e } := by
  intro s1
  have goes : ¬(decide (coreCount ≤ c) || watchDue s c || (s.core c).laneTurn != 0) = true := by
    simp [core, early, turn]
  rw [execTimingReplay, if_neg goes]
  rfl

/-! ## Shadows -/

section
variable (found : nmGet s.screens n = some sc)
include found

/-- An aborted shadow is counted at its die (R330). -/
theorem execScreenShadowEnd_aborts : execScreenShadowEnd n none s =
    .next ({ s with screens := nmDel s.screens n }.updDie sc.die fun d => { d with ev := countEv d.ev d.src evScreenAbort }) := by
  simp only [execScreenShadowEnd, found]

/-- A shadow all of whose signatures agree ends without a report (R330). -/
theorem execScreenShadowEnd_agrees {xs : List (Nat × W64)} (agree : ∀ g ∈ sc.sigs, ∀ x ∈ xs, x.1 = g.1 → x.2 = g.2) :
    execScreenShadowEnd n (some xs) s = .next { s with screens := nmDel s.screens n } := by
  simp only [execScreenShadowEnd, found]
  refine congrArg _ ((List.foldl_ext _ (fun r _ => r) _ fun r g sig => ?_).trans (List.foldl_fixed _))
  split
  · next x hit =>
    have same : x.1 = g.1 := by simpa using List.find?_some hit
    exact if_pos (beq_iff_eq.2 (agree g sig x (List.mem_of_find?_eq_some hit) same))
  · rfl

/-- A strand whose signature differs is reported (R330). -/
theorem execScreenShadowEnd_reports {g : Nat × W64} {x : W64} (one : sc.sigs = [g]) (differs : x ≠ g.2) :
    execScreenShadowEnd n (some [(g.1, x)]) s =
      .next (State.event { s with screens := nmDel s.screens n } 0xE1#8 [sc.job, sc.pos.1, sc.pos.2.1, sc.pos.2.2, g.1]) := by
  simp only [execScreenShadowEnd, found, one, List.foldl_cons, List.foldl_nil, List.find?_cons, beq_self_eq_true, beq_iff_eq, differs, if_false]

end

/-- Settles O35, step by step. -/
theorem invalidationAndScreeningStepsTakeEffect : Obligations.InvalidationAndScreeningStepsTakeEffect := by
  unfold Obligations.InvalidationAndScreeningStepsTakeEffect
  intro s c unit n sc tv acked swept
  refine ⟨execTinvAgentAck_die, fun found core => execTinvAgentAck_core found core, fun asid whole base len nonempty agents admits => ?register,
    execTimingReplay_replays, fun found => ⟨execScreenShadowEnd_aborts found, fun xs => execScreenShadowEnd_agrees found,
      fun g x => execScreenShadowEnd_reports found⟩⟩
  case register => exact (execTinvRegisterWrite_admitted admits).trans (congrArg _ (startTinv_begins nonempty agents))

end Sys2Proof
end

section
/-!
SUPPORT. O50: the resumption of a saved batch (R308, R311, R325, R448).
-/
namespace Sys2Proof
open Sys2Proof.Machine

variable {s s1 s2 : State} {batch c tsave va : Nat} {ptes : List (Nat × W64)} {b : Batch} {l : Launch}

/-- A saved batch that fits a core of its partition (R448). -/
structure Resumable (s : State) (batch c : Nat) (b : Batch) (l : Launch) : Prop where
  found : nmGet s.batches batch = some b
  launch : nmGet s.launches b.launch = some l
  saved : b.saved = true
  running : b.ended = false
  partition : partMatch (s.core c) l.part = true
  queues : ∀ q ∈ b.qs, ((nmGet (s.core c).queues q.1).bind (·.batch)) = none
  room : roomFor s c (s.core c) (resumeDemand s c b) = true
  entries : entriesFor s c b = true
  core : c < coreCount

/-- The address space of a batch (R298). -/
def batchAsid (s : State) (b : Batch) : Nat := ((nmGet s.jobs b.job).map (·.asid)).getD 0

/-- A saved batch whose locks and sectors are back, seated on a core with its scratchpad and its queues (R325, R448). -/
def resumedOn (s : State) (batch c tsave : Nat) (ptes : List (Nat × W64)) (b : Batch) : State :=
  let s3 := placeArea s b.job c tsave ptes
  let scr := (firstFit (scrUsed s3 c) (scrCap (s3.core c)) b.scrSize).getD 0
  let s4 := s3.updBatch batch fun y => { y with core := c, scrBase := scr, saved := false, born := (s3.core c).cycle, qs := [], locks := [] }
  let s5 := s4.updCore c fun y => { y with queues := b.qs.foldl (fun m q => nmSet m q.1 q.2) y.queues }
  dropRlb (seatAll s5 c b.sids) c .fabric

/-- The queues of a batch that may resume are free on its core (R448). -/
theorem Resumable.queuesFree (R : Resumable s batch c b l) : (b.qs.all fun q => ((nmGet (s.core c).queues q.1).bind (·.batch)).isNone) = true :=
  List.all_eq_true.2 fun q member => Option.isNone_iff_eq_none.2 (R.queues q member)

/-- It becomes resident where its locks and carried sectors translate again (R325, R448). -/
theorem execBatchResume_seats (R : Resumable s batch c b l) (locks : relock s c batch b.locks = .inl s1)
    (carried : recarryAll s1 c (batchAsid s b) b.sids = .inl s2) :
    execBatchResume batch c tsave ptes s = .next (resumedOn s2 batch c tsave ptes b) := by
  rw [batchAsid] at carried
  simp only [execBatchResume, R.found, R.launch, R.saved, R.running, R.partition, R.queuesFree, R.room, R.entries, Nat.not_le.2 R.core, locks,
    carried, decide_false, Bool.not_true, Bool.or_self, Bool.false_eq_true, if_false]
  rfl

/-- A lock's page that is not resident is H2's to bring, once for the batch (R308, R311). -/
theorem execBatchResume_faults (R : Resumable s batch c b l) (locks : relock s c batch b.locks = .inr (some (s2, va, .pageFault)))
    (new : ∀ e ∈ s.pfaults, e.2.who ≠ .resume batch) :
    execBatchResume batch c tsave ptes s
      = .next (({ s2 with cores := s.cores } : State).addFault (batchAsid s b) va 0 0#32 (.resume batch)).2 := by
  have unreported : (s.pfaults.any fun e => e.2.who == .resume batch) = false :=
    List.any_eq_false.2 fun e fault => by simpa using new e fault
  simp only [execBatchResume, R.found, R.launch, R.saved, R.running, R.partition, R.queuesFree, R.room, R.entries, Nat.not_le.2 R.core, locks,
    unreported, beq_self_eq_true, decide_false, Bool.not_true, Bool.or_self, Bool.false_eq_true, if_false, if_true]
  rfl

/-- Settles O50: the batch resumes, or a page of its locks is faulted. -/
theorem savedBatchesResume : Obligations.SavedBatchesResume := by
  unfold Obligations.SavedBatchesResume
  intro s batch c tsave ptes b l s1 s2 va found launch saved running partition queues room entries core
  have R : Resumable s batch c b l := ⟨found, launch, saved, running, partition, queues, room, entries, core⟩
  exact ⟨execBatchResume_seats R, execBatchResume_faults R⟩

end Sys2Proof
end

section
/-!
# The ordering machine's steps (O33)
-/
namespace Sys2Proof
open Sys2Proof.Machine

variable {s : State} {sid n c d pa f : Nat} {st : Strand} {e : RsbEnt} {w : PWrite} {l : WcbLine} {fr : Frag}

/-! ## Entries of the store buffer -/

/-- What the buffer holds once the entry has left it. -/
def entryOut (s : State) (sid n : Nat) : State := s.updStrand sid fun x => { x with rsb := x.rsb.filter fun y => y.id != n }

/-- What the entry's drain makes of its bytes. -/
def entryDrained (s : State) (c sid : Nat) (e : RsbEnt) : State :=
  if e.ord = 0 then { entryOut s sid e.id with mem := wrMs (entryOut s sid e.id).mem e.cells }
  else drainBytes (entryOut s sid e.id) c sid e.home (e.ord == 2) e.cells e.access

section
variable (first : ∀ x ∈ st.rsb.takeWhile fun x => x.id != e.id, x.ready = true → x.hold = none → sectorKey x.home x.pa ≠ sectorKey e.home e.pa)
include first

theorem no_earlier_of_sector :
    ((st.rsb.takeWhile fun x => x.id != e.id).any fun x => x.ready && x.hold.isNone && sectorKey x.home x.pa == sectorKey e.home e.pa) = false := by
  rw [List.any_eq_false]
  intro x hx h
  simp only [Bool.and_eq_true, Option.isNone_iff_eq_none, beq_iff_eq] at h
  exact first x hx h.1.1 h.1.2 h.2

/-- An entry with room beyond it drains. -/
theorem drainEnt_drains (free : (e.ord != 0 && drainFull s st.core e.home 1) = false) (room : e.ord ≠ 0 → wcbRoom s st.core e.home e.pa = (s, true)) :
    drainEnt s sid st e = (entryDrained s st.core sid e, true) := by
  have room' : (if e.ord = 0 then (s, true) else wcbRoom s st.core e.home e.pa) = (s, true) := by
    split
    · rfl
    · next h => exact room h
  rw [drainEnt]
  simp only [no_earlier_of_sector first, free, Bool.or_self, Bool.false_eq_true, if_false, room']
  rfl

theorem drainEnt_strong (strong : e.ord = 0) : drainEnt s sid st e = (entryDrained s st.core sid e, true) :=
  drainEnt_drains first (by simp [strong]) fun h => absurd strong h

theorem drainEnt_remote (away : e.home ≠ 0) (room : (s.core st.core).wcb.length < 64) : drainEnt s sid st e = (entryDrained s st.core sid e, true) :=
  drainEnt_drains first (by simp [drainFull, away]) fun _ => by rw [wcbRoom, if_pos (.inr (.inr room))]

theorem drainEnt_local (here : e.home = 0) (room : ottUsed s st.core < 256) : drainEnt s sid st e = (entryDrained s st.core sid e, true) :=
  drainEnt_drains first (by have : ¬256 < ottUsed s st.core + 1 := by omega
                            simp [drainFull, this]) fun _ => by rw [wcbRoom, if_pos (.inl here)]
end

/-- DRAIN of an entry that no barrier holds. -/
theorem execDrain_of_drainEnt (hs : nmGet s.strands sid = some st) (found : st.rsb.find? (fun e => e.id == n && (e.ready || e.hold.isSome)) = some e)
    (unheld : e.hold = none) (drains : drainEnt s sid st e = (entryDrained s st.core sid e, true)) :
    execDrain sid n s = .next (drainWake (entryDrained s st.core sid e) sid) := by
  rw [execDrain, hs]
  simp only [found, unheld, drains]

theorem id_of_found (found : st.rsb.find? (fun e => e.id == n && (e.ready || e.hold.isSome)) = some e) : e.id = n := by
  have h := List.find?_some found
  simp only [Bool.and_eq_true, beq_iff_eq] at h
  exact h.1

/-! ## Lines -/

/-- A line is sent, or waits for a number of its pair, where a transaction entry is free. -/
theorem trySend_free (free : ottUsed s c < 256) : trySend s c l = if pairFull s l.home then
    s.updCore c fun x => { x with wcb := x.wcb.map fun (z : WcbLine) => if z.id == l.id then { z with wait := true } else z }
    else sendLine s c l := by
  have free' : (!l.wait && decide (256 ≤ ottUsed s c)) = false := by simp [Nat.not_le.2 free]
  simp only [trySend, free', Bool.false_eq_true, if_false]

theorem execSend_found (found : (s.core c).wcb.find? (fun l => l.id == n) = some l) : execSend c n s = .next (trySend s c l) := by
  simp only [execSend, found]

theorem execWcbAgeSend_found (found : (s.core c).wcb.find? (fun l => decide (l.born + 2048 ≤ (s.core c).cycle)) = some l) :
    execWcbAgeSend c s = .next (trySend s c l) := by
  simp only [execWcbAgeSend, found]

/-! ## The other steps -/

theorem execPropagate_found (found : (s.die d).p.find? (fun w => w.pa == pa) = some w) :
    let go := fun (x : PWrite) => x.pa / 32 == pa / 32 && (propSet ((s.die d).p.filter fun x => x.pa / 32 == pa / 32) w.access).contains x.access
    execPropagate d pa s = .next (settleTeams ({ s with mem := wrMs s.mem (((s.die d).p.filter go).map fun (x : PWrite) => (x.pa, x.b)) }.updDie d fun x =>
      { x with p := x.p.filter fun y => !go y })) := by
  simp only [execPropagate, found]

theorem execFill_local (core : c < coreCount) (here : n / 32 * 32 < 2 ^ 52) :
    execFill c n s = .next (s.updCore c fun x => x.fillRlb (n / 32 * 32) (sectorNow s c (n / 32 * 32))) := by
  simp only [execFill, Nat.not_le.2 core, if_false, fillSector, Nat.div_eq_of_lt here, if_true]

theorem execDrop_drops (core : c < coreCount) : execDrop c n s = .next (s.updCore c fun x => { x with rlb := nmDel x.rlb (n / 32 * 32) }) := by
  simp only [execDrop, Nat.not_le.2 core, if_false]

theorem execTransactionAck_frees (sent : (s.fab.pkts.filter fun k => k.core == c && k.src == s.module.toNat &&
      (match k.body with | .line _ _ _ => true | _ => false)).length < (s.core c).ott) :
    execTransactionAck c s = .next (s.updCore c fun x => { x with ott := x.ott - 1 }) :=
  if_pos sent

theorem ready_eq (hs : nmGet s.strands sid = some st) :
    s.ready sid f = s.updFrag sid f fun x => { x with st := .ready, wait := .none, gap := 0, evt := 0#64, since := s.now st } := by
  rw [State.ready, hs]

theorem execRsbEntryWait_wakes (hs : nmGet s.strands sid = some st) (hf : nmGet st.frags f = some fr) (waits : fr.wait = .rsb)
    (room : st.rsb.length < 64) (core : rsbUsed s st.core < 16384) : execRsbEntryWait sid f s = .next (s.ready sid f) := by
  rw [execRsbEntryWait, hs]
  simp [hf, waits, room, core]

/-- Settles O33: one lemma above for each step, with the three places a drained entry may go to. -/
theorem orderingStepsTakeEffect : Obligations.OrderingStepsTakeEffect := by
  unfold Obligations.OrderingStepsTakeEffect
  intro s sid n c d pa f st e w l fr
  dsimp only
  refine ⟨fun hs found unheld first => ?_, execPropagate_found, execFill_local, execDrop_drops, fun found free => ?_, fun found free => ?_,
    execTransactionAck_frees, fun hs hf waits room core => ?_⟩
  · obtain rfl := id_of_found found
    refine ⟨fun strong => ?_, fun weak away room => ?_, fun weak here room => ?_⟩
    · refine (execDrain_of_drainEnt hs found unheld (drainEnt_strong first strong)).trans ?_
      rw [entryDrained, if_pos strong]
      rfl
    · refine (execDrain_of_drainEnt hs found unheld (drainEnt_remote first away room)).trans ?_
      rw [entryDrained, if_neg weak, drainBytes, if_neg away]
      rfl
    · refine (execDrain_of_drainEnt hs found unheld (drainEnt_local first here room)).trans ?_
      rw [entryDrained, if_neg weak, drainBytes, if_pos here]
      rfl
  · exact (execSend_found found).trans (congrArg _ (trySend_free free))
  · exact (execWcbAgeSend_found found).trans (congrArg _ (trySend_free free))
  · exact (execRsbEntryWait_wakes hs hf waits room core).trans (congrArg _ (ready_eq hs))

end Sys2Proof
end

section
/-!
# The marker commands and OMRK (O41)
-/
namespace Sys2Proof
open Sys2Proof.Machine

variable {h : Hdr} {reads : List RegRef} {mk : Ctx → CmdReq} {s s1 : State} {st : Strand} {c : Ctx} {i : Instr}

/-- What occupies a core's mark queue. -/
def marksQueue (r : CmdReq) : Bool := match r with | .mark _ _ _ _ | .omrk => true | _ => false

/-- The state in which a request has entered the mark queue of the strand's core. -/
def markEntered (t : State) (c : Ctx) (r : CmdReq) : State :=
  let t1 := t.sends c.sid c.f r
  t1.tick.2.updCore c.st.core fun x => { x with markQ := x.markQ ++ [{ id := t1.tick.1, sid := c.sid, frag := c.f, req := r, blk := [], cmd := none, rel := none }] }

theorem markIssue_idle (I : Issues h (uses [] reads) s st c) (still : c.acts h = []) :
    markIssue h reads s mk = .next (advance (issued h (uses [] reads) s st c) c.sid c.f h) := by
  rw [markIssue, issue_of_issues I]
  simp only [still, List.isEmpty_nil, if_true]

/-- A request whose region has ended, with no acquire in flight and room in the queue, enters it. -/
theorem markIssue_enters (I : Issues h (uses [] reads) s st c) (acting : c.acts h ≠ [])
    (ended : endRegion (issued h (uses [] reads) s st c) c.sid c.f c.fr.pc none = (s1, true)) (relaxed : c.st.acquiring = false)
    (room : (s1.core c.st.core).markQ.length < 32) (first : cmdQueue s1 [c.st.core] marksQueue = []) :
    markIssue h reads s mk = .next (if mk c = .omrk then doneRgn (markEntered s1 c (mk c)) c h
      else (markEntered s1 c (mk c)).updFrag c.sid c.f fun fr => { fr with st := .blocked, wait := .accept, evt := 0#64, gap := max h.stall.toNat 1 }) := by
  have room' : ¬(32 ≤ (s1.core c.st.core).markQ.length ∨ (!(cmdQueue s1 [c.st.core] marksQueue).isEmpty) = true) := by
    rw [first]; simpa using room
  rw [markIssue, issue_of_issues I]
  simp only [List.isEmpty_iff, acting, if_false, ended, relaxed, Bool.false_eq_true]
  refine (if_neg room').trans ?_
  split <;> rfl

theorem markQueued_of_markOp {a : Opnd} {mn sub : Nat} {cls : BitVec 4} (e : ∀ s, exec i s = markOp h mn sub cls a s) :
    MarkQueued i h a mn sub cls.toNat := by
  intro s st c s1 u I acting ended b1 relaxed room first
  rw [e, markOp, markIssue_enters I acting ended relaxed room first, if_neg (by simp)]
  rfl

/-- Settles O41: the marker commands share one rule of issue, and OMRK is the request that does not block. -/
theorem markerInstructions : Obligations.MarkerInstructions := by
  unfold Obligations.MarkerInstructions
  intro h op cls a n
  refine ⟨markQueued_of_markOp fun _ => rfl, markQueued_of_markOp fun _ => rfl, markQueued_of_markOp fun _ => rfl, markQueued_of_markOp fun _ => rfl,
    markQueued_of_markOp fun _ => rfl, markQueued_of_markOp fun _ => rfl, markQueued_of_markOp fun _ => rfl, markQueued_of_markOp fun _ => rfl,
    markQueued_of_markOp fun _ => rfl, markQueued_of_markOp fun _ => rfl, markQueued_of_markOp (cls := 0#4) fun _ => rfl,
    markQueued_of_markOp fun _ => rfl, fun s st c I still => markIssue_idle I still, ?_⟩
  intro s st c s1 I acting ended b1 relaxed room first
  exact (markIssue_enters I acting ended relaxed room first).trans (congrArg Host.Outcome.next (if_pos rfl))

end Sys2Proof
end

section
/-!
# Wave classes: WOPN and WQT (O42)
-/
namespace Sys2Proof
open Sys2Proof.Machine

variable {h : Hdr} {sc : Scope} {cls : BitVec 4} {d : Opnd} {s : State} {st : Strand} {c : Ctx} {close : Bool}

theorem execWopn_idle (I : Issues h (usesT (refsOf d false) []) s st c) (still : c.acts h = []) :
    execWopn h sc cls d s = .next (advance (issued h (usesT (refsOf d false) []) s st c) c.sid c.f h) := by
  rw [execWopn, issue_of_issues I]
  simp only [still, List.isEmpty_nil, if_true]

theorem execWqt_idle (I : Issues h (usesT (refsOf d false) []) s st c) (still : c.acts h = []) :
    execWqt h close sc cls d s = .next (advance (issued h (usesT (refsOf d false) []) s st c) c.sid c.f h) := by
  rw [execWqt, issue_of_issues I]
  simp only [still, List.isEmpty_nil, if_true]

/-- Whether the strand's job has the class open. -/
def classOpen (s : State) (c : Ctx) (cls : BitVec 4) : Bool := s.classes.any fun x => x.job == c.st.job && x.cls == cls.toNat

/-- Whether opening a class asks other modules for room. -/
def opensElsewhere (s : State) (c : Ctx) (sc : Scope) : Bool := sc == .fabric && (((s.job? c.st).map (·.mset)).getD []).any (· != s.module.toNat)

/-- The state in which the room of other modules has been asked for (log 14). -/
def roomAsked (s : State) (c : Ctx) (sc : Scope) : State := if opensElsewhere s c sc then { s with freeCtr := s.freeCtr + 1 } else s

/-- The state in which WOPN has given its result. -/
def wopnTold (h : Hdr) (d : Opnd) (c : Ctx) (x : State) (n : Nat) : State :=
  advance ((x.acts c.sid).updStrand c.sid fun y => y.track c.f true (usesT (refsOf d false) []).writes (dstW d .b64 0 n) flNone false .none) c.sid c.f h

section
variable (I : Issues h (usesT (refsOf d false) []) s st c) (acting : c.acts h ≠ [])
include I acting

theorem execWopn_again (found : classOpen s c cls = true) :
    execWopn h sc cls d s = .next (wopnTold h d c (issued h (usesT (refsOf d false) []) s st c) 2) := by
  have found' : ((issued h (usesT (refsOf d false) []) s st c).classes.any fun x => x.job == c.st.job && x.cls == cls.toNat) = true := found
  rw [execWopn, issue_of_issues I]
  simp only [List.isEmpty_iff, acting, if_false, found', Bool.not_true, Bool.and_false, Bool.false_eq_true, if_true]
  rfl

/-- A class that is not open is opened where there is room for it. -/
theorem execWopn_new (new : classOpen s c cls = false) (full : Bool)
    (e : (decide (64 ≤ s.classes.length) || (opensElsewhere s c sc && Config.freeBit (issued h (usesT (refsOf d false) []) s st c).freeCtr)) = full) :
    execWopn h sc cls d s = .next (wopnTold h d c (if full then roomAsked (issued h (usesT (refsOf d false) []) s st c) c sc
      else openClass (roomAsked (issued h (usesT (refsOf d false) []) s st c) c sc) c.st.job cls.toNat sc) (if full then 1 else 0)) := by
  have new' : ((issued h (usesT (refsOf d false) []) s st c).classes.any fun x => x.job == c.st.job && x.cls == cls.toNat) = false := new
  have e' : (decide (64 ≤ (issued h (usesT (refsOf d false) []) s st c).classes.length) ||
      (sc == .fabric && ((((issued h (usesT (refsOf d false) []) s st c).job? c.st).map (·.mset)).getD []).any
        (fun m => m != (issued h (usesT (refsOf d false) []) s st c).module.toNat)) &&
        Config.freeBit (issued h (usesT (refsOf d false) []) s st c).freeCtr) = full := e
  rw [execWopn, issue_of_issues I]
  simp only [List.isEmpty_iff, acting, if_false, new', Bool.not_false, Bool.and_true, Bool.false_eq_true, e']
  cases full <;> rfl

theorem execWopn_opens (new : classOpen s c cls = false)
    (room : ¬(64 ≤ s.classes.length ∨ (opensElsewhere s c sc = true ∧ Config.freeBit (issued h (usesT (refsOf d false) []) s st c).freeCtr = true))) :
    execWopn h sc cls d s = .next (wopnTold h d c (openClass (roomAsked (issued h (usesT (refsOf d false) []) s st c) c sc) c.st.job cls.toNat sc) 0) :=
  execWopn_new I acting new false (by simpa using room)

theorem execWopn_full (new : classOpen s c cls = false)
    (full : 64 ≤ s.classes.length ∨ (opensElsewhere s c sc = true ∧ Config.freeBit (issued h (usesT (refsOf d false) []) s st c).freeCtr = true)) :
    execWopn h sc cls d s = .next (wopnTold h d c (roomAsked (issued h (usesT (refsOf d false) []) s st c) c sc) 1) :=
  execWopn_new I acting new true (by simpa using full)

theorem execWqt_closed (new : classOpen s c cls = false) :
    execWqt h close sc cls d s = .next (advance ((issued h (usesT (refsOf d false) []) s st c).updStrand c.sid fun y =>
      y.track c.f true (usesT (refsOf d false) []).writes (dstW d .b64 0 2) flNone false .none) c.sid c.f h) := by
  have new' : ((issued h (usesT (refsOf d false) []) s st c).classes.any fun x => x.job == c.st.job && x.cls == cls.toNat) = false := new
  rw [execWqt, issue_of_issues I]
  simp only [List.isEmpty_iff, acting, if_false, new', Bool.false_eq_true]
  rfl

theorem execWqt_waits (found : classOpen s c cls = true) :
    execWqt h close sc cls d s = .next (((issued h (usesT (refsOf d false) []) s st c).acts c.sid).updStrand c.sid fun y =>
      (y.track c.f false (usesT (refsOf d false) []).writes (dstW d .b64 0 0) flNone false .none).updFrag c.f fun fr =>
        { fr with st := .blocked, wait := .wqt cls.toNat close sc c.st.nextPend, evt := w64n cls.toNat, gap := max h.stall.toNat 1 }) := by
  have found' : ((issued h (usesT (refsOf d false) []) s st c).classes.any fun x => x.job == c.st.job && x.cls == cls.toNat) = true := found
  rw [execWqt, issue_of_issues I]
  simp only [List.isEmpty_iff, acting, if_false, found', if_true]
  rfl
end

/-- Settles O42: whether the class is open, and whether there is room for a new one, decides between the cases. -/
theorem waveClassInstructions : Obligations.WaveClassInstructions := by
  unfold Obligations.WaveClassInstructions
  intro h close sc cls d s st c
  dsimp only
  refine ⟨fun _ _ _ => execWopn_idle, fun _ _ _ => execWqt_idle, fun I acting => ?_⟩
  exact ⟨execWopn_again I acting, execWopn_opens I acting, execWopn_full I acting, execWqt_closed I acting, execWqt_waits I acting⟩

end Sys2Proof
end

section
/-!
# Signals and collectives at issue (O43)
-/
namespace Sys2Proof
open Sys2Proof.Machine

variable {h : Hdr} {ui : Bool} {op : SigOp} {cd : SigCond} {d a b : Opnd} {mk : Nat → W32 → CmdReq}
  {s s1 s2 : State} {st : Strand} {c : Ctx} {p : Piece}

/-- The registers that an instruction of two sources reads. -/
def pairUses (a b : Opnd) : Uses := uses [] (refsOf a false ++ refsOf b false)

/-- The registers that SWAIT reads, and D, which it marks. -/
def swaitUses (d a b : Opnd) : Uses := usesT (refsOf d false) (refsOf a false ++ refsOf b false)

theorem execCsig_idle (I : Issues h (pairUses a b) s st c) (still : c.acts h = []) :
    execCsig h op a b s = .next (advance (issued h (pairUses a b) s st c) c.sid c.f h) := by
  rw [execCsig, ← pairUses, issue_of_issues I]
  simp only [still, List.isEmpty_nil, if_true]

theorem execSwait_idle (I : Issues h (swaitUses d a b) s st c) (still : c.acts h = []) :
    execSwait h cd d a b s = .next (advance (issued h (swaitUses d a b) s st c) c.sid c.f h) := by
  rw [execSwait, ← swaitUses, issue_of_issues I]
  simp only [still, List.isEmpty_nil, if_true]

theorem collIssue_idle (I : Issues h (pairUses a b) s st c) (still : c.acts h = []) :
    collIssue h a b mk s = .next (advance (issued h (pairUses a b) s st c) c.sid c.f h) := by
  rw [collIssue, ← pairUses, issue_of_issues I]
  simp only [still, List.isEmpty_nil, if_true]

/-- A signal is sent once the strand's stores are out and the lines before it sent. -/
theorem execCsig_sends (I : Issues h (pairUses a b) s st c) (acting : c.acts h ≠ [])
    (page : sigPage (issued h (pairUses a b) s st c) c (c.st.r.uni64 a) true = .inl (s1, p))
    (ended : endRegion s1 c.sid c.f c.fr.pc none = (s2, true)) (placed : c.st.misplaced [p] = false)
    (out : ∃ y, nmGet s2.strands c.sid = some y ∧ y.sigHeld (c.leader.getD 0) p = false) (sent : sigLines s2 c.st.core p = [])
    (room : p.home ≠ 0 → pairFull s2 p.home = false) :
    execCsig h op a b s = .next (doneRgn (sendSig ((s2.acts c.sid).signs c.sid c.f) c p op (w64n (c.st.r.uni64 b))) c h) := by
  obtain ⟨y, found, free⟩ := out
  have room' : ¬(p.home ≠ 0 ∧ pairFull s2 p.home = true) := fun ⟨away, full⟩ => by simp [room away] at full
  rw [execCsig, ← pairUses, issue_of_issues I]
  simp only [List.isEmpty_iff, acting, page, placed, ended, found, free, sent, Option.map_some, Option.getD_some, Bool.false_eq_true, if_false,
    List.foldl_nil, List.isEmpty_nil, Bool.not_true, room']

theorem execSwait_waits (I : Issues h (swaitUses d a b) s st c) (acting : c.acts h ≠ [])
    (page : sigPage (issued h (swaitUses d a b) s st c) c (c.st.r.uni64 a) false = .inl (s1, p)) (relaxed : c.st.acquiring = false)
    (settled : sigPending s1 c.sid p.keys = false) (apart : c.st.overlaps (c.leader.getD 0) p.keys = false) :
    execSwait h cd d a b s = .next ((s1.acts c.sid).updStrand c.sid fun y =>
      (y.track c.f false (swaitUses d a b).writes (dstW d .b64 0 0) flNone false .none).updFrag c.f fun fr =>
        { fr with st := .blocked, wait := .swait cd (c.st.r.uni64 a) (w64n (c.st.r.uni64 b)) c.st.nextPend, evt := w64n (c.st.r.uni64 a),
                  gap := max h.stall.toNat 1 }) := by
  rw [execSwait, ← swaitUses, issue_of_issues I]
  simp only [List.isEmpty_iff, acting, page, relaxed, settled, apart, Bool.or_self, Bool.false_eq_true, if_false]
  rfl

theorem collIssue_waits (I : Issues h (pairUses a b) s st c) (acting : c.acts h ≠ [])
    (ended : endRegion (issued h (pairUses a b) s st c) c.sid c.f c.fr.pc none = (s2, true)) (relaxed : c.st.acquiring = false) :
    let r := mk (c.st.r.uni32 a) (BitVec.ofNat 32 (c.st.r.uni32 b))
    collIssue h a b mk s = .next (waitCmd (s2.sends c.sid c.f r) c.sid c.f h r) := by
  rw [collIssue, ← pairUses, issue_of_issues I]
  simp only [List.isEmpty_iff, acting, ended, relaxed, Bool.false_eq_true, if_false]

theorem exec_coll : exec (.coll h ui a b) s = collIssue h a b (fun o t => .coll o t ui) s := rfl

theorem exec_rprt : exec (.rprt h ui a b) s = collIssue h a b (fun o t => .rprt o t ui) s := rfl

/-- Settles O43: COLL and RPRT share one rule of issue, and CSIG and SWAIT have one each. -/
theorem fabricInstructions : Obligations.FabricInstructions := by
  unfold Obligations.FabricInstructions
  intro h ui op cd d a b s st c s1 s2 p
  dsimp only
  refine ⟨fun _ _ _ => execCsig_idle, fun _ _ _ => execSwait_idle, fun _ _ _ I still => exec_coll.trans (collIssue_idle I still),
    fun _ _ _ I still => exec_rprt.trans (collIssue_idle I still), fun acting => ?_⟩
  exact ⟨fun I page ended placed out sent room => execCsig_sends I acting page ended placed out sent room,
    fun I page relaxed settled apart => execSwait_waits I acting page relaxed settled apart,
    fun I ended relaxed => ⟨exec_coll.trans (collIssue_waits I acting ended relaxed), exec_rprt.trans (collIssue_waits I acting ended relaxed)⟩⟩

end Sys2Proof
end

section
/-!
# VCMD's copies where two rows share a frame (O44)

The model copies every bank of a VCMD from the memory that the command found, and the statement from the memory that the banks
before it have left. The two differ where the row that a bank copies from is translated to a frame that an earlier bank has
filled.
-/
namespace Sys2Proof
open Sys2Proof.Machine

/-- A translation of one byte. -/
def byteTlb (va pa : Nat) : Tlb := { asid := 1, base := va, size := 1, pa := pa, home := 0, fmt := 0, ord := 0, x := false, w := true }

/-- A VCMD that copies row 1 of banks 0 and 1 to their row 0; row 0 of bank 0 and row 1 of bank 1 lie in one frame. -/
def aliasedVcmd : MarkCmd :=
  { id := 0, core := 0, job := 0, batch := 0, sid := 0, asid := 1, cls := none, mn := 0x3CD, sub := 0,
    blk := leBytes 8 0 ++ leBytes 8 (2 ^ 49 + 2 ^ 48 + 3),
    tr := [byteTlb 65536 0, byteTlb 0 64, byteTlb 67584 64, byteTlb 2048 128], todo := [0], acc := [], moves := [] }

/-- The VCMD at Vat 0, with 7 in row 1 of bank 0 and nothing elsewhere. -/
def aliasedState : State := { State.reset with mem := [(0, 7#8)], jobs := [(0, loadedJob 0)], marks := [aliasedVcmd] }

/-- The memory that a step leaves. -/
def memAfter : Out → List Host.Cell
  | .next t => t.mem
  | _ => []

theorem aliasedState_found : aliasedState.marks.find? (fun m => m.mn == 0x3CD && vatMay aliasedState m 0) = some aliasedVcmd := by decide +kernel

theorem aliasedState_live : (vcmdAll aliasedState aliasedVcmd).gone aliasedVcmd.job = false := by decide +kernel

/-- The model leaves row 0 of bank 1 as row 1 was. -/
theorem aliasedState_model : memAfter (exec (.vcmdBank 0) aliasedState) = [(0, 7#8), (64, 7#8)] := by decide +kernel

/-- The statement has there what bank 0 was filled with. -/
theorem aliasedState_stated : (vatDone (vcmdAll aliasedState aliasedVcmd) aliasedVcmd 0 [] []).mem = [(0, 7#8), (64, 7#8), (128, 7#8)] := by
  decide +kernel

/-- Refutes O44: where a bank copies from a frame that an earlier bank has filled, VCMD copies what the frame held before. -/
theorem not_markerAndVatStepsTakeEffect : ¬ Obligations.MarkerAndVatStepsTakeEffect := by
  unfold Obligations.MarkerAndVatStepsTakeEffect
  intro h
  obtain ⟨-, -, -, -, -, vcmd, -⟩ := h aliasedState 0 0 0 0 0 { id := 0, sid := 0, frag := 0, req := .omrk, blk := [], cmd := none, rel := none } []
    loadedStrand aliasedVcmd (loadedJob 0)
    { vat := 0, m := { job := 0, cls := 0, wave := 0, target := 0, source := 0, etype := 0, weight := 0, pos := 0, spawn := 0, hop := 0, val := [] } }
    { job := 0, cls := 0, sc := .fabric, regs := [], close := [], again := false } []
  have same : memAfter (exec (.vcmdBank 0) aliasedState) = _ := congrArg memAfter (vcmd aliasedState_found aliasedState_live)
  rw [aliasedState_model] at same
  exact absurd (same.trans aliasedState_stated) (by decide)

end Sys2Proof
end

section
/-!
# The fabric's steps (O45)
-/
namespace Sys2Proof
open Sys2Proof.Machine

variable {s : State} {src dst plane link sw port n job cls : Nat} {k : Pkt} {lost : List (Nat × Nat)} {w : WaveMsg} {o : SweepSum}

/-! ## Jobs that a step ends -/

/-- A job is over: where there is one of the number, it has ended. -/
def JobOver (s : State) (j : Nat) : Prop := ∀ x, nmGet s.jobs j = some x → x.ended = true

@[simp] theorem log_jobs (s : State) (j : Nat) (r : List W64) : (s.log j r).jobs = s.jobs := by
  unfold State.log
  dsimp only
  split <;> rfl

@[simp] theorem chargeBatch_jobs (s : State) (b : Batch) : (chargeBatch s b).jobs = s.jobs := by
  unfold chargeBatch
  split <;> rfl

@[simp] theorem killBatch_jobs (s : State) (b : Batch) : (killBatch s b).jobs = s.jobs := by
  have charged : (if b.resident then chargeBatch s b else s).jobs = s.jobs := by split <;> simp
  unfold killBatch
  dsimp only
  split
  · rw [log_jobs, charged]
  · exact charged

theorem foldl_jobs {α : Type} {g : State → α → State} (hg : ∀ s x, (g s x).jobs = s.jobs) (xs : List α) (s : State) : (xs.foldl g s).jobs = s.jobs := by
  induction xs generalizing s with
  | nil => rfl
  | cons x xs ih => exact (ih _).trans (hg s x)

/-- The end of a job writes no job but that one, and that one only where it is not over. -/
theorem endJob_jobs (s : State) (j : Nat) (c : BitVec 8) (r : List W64) : JobOver s j ∧ (endJob s j c r).jobs = s.jobs ∨
    (endJob s j c r).jobs = nmUpd s.jobs j fun x => { x with ended := true, cause := some c, hids := [] } := by
  unfold endJob
  split
  · next none => exact .inl ⟨fun x h => by simp [none] at h, rfl⟩
  · next jb found =>
    dsimp only
    split
    · next ended => exact .inl ⟨fun x h => by rw [found] at h; cases h; exact ended, log_jobs s j r⟩
    · right
      have killed := (foldl_jobs (fun s (e : Nat × Batch) => killBatch_jobs s e.2) ((s.log j r).batches.filter fun e => e.2.job == j) (s.log j r)).trans
        (log_jobs s j r)
      exact congrArg (fun m => nmUpd m j fun x => { x with ended := true, cause := some c, hids := [] }) killed

theorem jobOver_endJob_self (s : State) (j : Nat) (c : BitVec 8) (r : List W64) : JobOver (endJob s j c r) j := by
  intro x h
  obtain ⟨done, e⟩ | e := endJob_jobs s j c r
  · exact done x (e ▸ h)
  · rw [e, nmGet_nmUpd_self] at h
    obtain ⟨y, -, rfl⟩ := Option.map_eq_some_iff.1 h
    rfl

theorem JobOver.endJob {i : Nat} (h : JobOver s i) (j : Nat) (c : BitVec 8) (r : List W64) : JobOver (endJob s j c r) i := by
  obtain ⟨-, e⟩ | e := endJob_jobs s j c r
  · exact fun x hx => h x (e ▸ hx)
  · by_cases ij : i = j
    · exact ij ▸ jobOver_endJob_self s j c r
    · intro x hx
      rw [e, nmGet_nmUpd_ne _ _ ij] at hx
      exact h x hx

/-- Jobs that are ended one after the other are all over. -/
theorem jobOver_foldl_endJob (c : BitVec 8) (r : Nat → List W64) (js : List Nat) (s : State) {i : Nat} (h : i ∈ js ∨ JobOver s i) :
    JobOver (js.foldl (fun s j => endJob s j c (r j)) s) i := by
  induction js generalizing s with
  | nil => exact h.resolve_left (List.not_mem_nil)
  | cons j js ih =>
    refine ih _ ?_
    obtain h | h := h
    · obtain rfl | h := List.mem_cons.1 h
      · exact .inr (jobOver_endJob_self s i c (r i))
      · exact .inl h
    · exact .inr (h.endJob j c (r j))

/-! ## Packets, flits and links -/

theorem execApply_applies (oldest : s.fab.pkts.find? (fun k => k.src == src && k.dst == dst) = some k) (ready : sigReady s k = true)
    (path : s.reaches src dst = true) :
    let s1 := { s with fab := { s.fab with
      pkts := s.fab.pkts.filter fun x => !(x.src == src && x.dst == dst && x.num == k.num),
      applied := nmSet s.fab.applied (pairKey src dst) ((k.num + 1) % 2 ^ 32) } }
    execApply src dst s = .next (settleTeams (if k.admitted s then applyPkt s1 k else denyPkt s1 k)) := by
  simp only [execApply, oldest, ready, path, Bool.not_true, Bool.or_self, Bool.false_eq_true, if_false]

theorem execFlitRetry_counts (links : link < 8192) (bad : Bool) : execFlitRetry plane link bad s = .next { s with fab := { s.fab with
    retries := if bad then nmSet s.fab.retries (linkKey plane link) ((nmGet s.fab.retries (linkKey plane link)).getD 0 + 1)
      else nmDel s.fab.retries (linkKey plane link) } } :=
  if_neg (Nat.not_le.2 links)

/-- The state in which a failed link has been reported, where an end of it is this module's. -/
def linkTold (s : State) (plane link : Nat) : State :=
  if link = downLink s.module.toNat then (spoilSweeps s (plane % 16)).event 0xC6#8 [plane % 16, link] else spoilSweeps s (plane % 16)

theorem execLinkFailed_fails (retried : 64 ≤ (nmGet s.fab.retries (linkKey plane link)).getD 0) (works : s.fab.failed.contains (plane % 16, link) = false) :
    execLinkFailed plane link lost s = .next { linkTold s plane link with fab := { (linkTold s plane link).fab with
      failed := (linkTold s plane link).fab.failed ++ [(plane % 16, link)]
      retries := nmDel (linkTold s plane link).fab.retries (linkKey plane link)
      pairs := loseMsgs (linkTold s plane link) plane lost } } := by
  simp only [execLinkFailed, Nat.not_lt.2 retried, works, Bool.false_eq_true, or_self, if_false]
  rfl

/-- What the report of a failed link writes beside the module's events. -/
theorem linkTold_eq (s : State) (plane link : Nat) : linkTold s plane link = { spoilSweeps s (plane % 16) with
    host := { s.host with events := s.host.events ++ (if link = downLink s.module.toNat then [(0xC6#8, [plane % 16, link])] else []) } } := by
  unfold linkTold
  split
  · rfl
  · rw [List.append_nil]; rfl

/-! ## A module that no plane reaches -/

theorem execModuleDown_reached (path : s.reaches s.module.toNat dst = true) : execModuleDown dst s = .next s := if_pos path

/-- A module out of reach ends the jobs with traffic to it, and the packets and lines for it are gone. -/
theorem execModuleDown_ends (cut : s.reaches s.module.toNat dst = false) : ∃ s0 : State,
    let s2 := (jobsTo s dst).foldl (fun (s : State) j => endJob s j 0xC1#8 (faultRec j 0xC1#8 0 0#32 0 0 [w64n (dst * 2 ^ 52)])) s0
    execModuleDown dst s = .next { s2 with
      fab := { s2.fab with pkts := s2.fab.pkts.filter fun k => k.dst != dst || k.src == k.dst }
      cores := s2.cores.map fun (e : Nat × Core) => (e.1, { e.2 with wcb := e.2.wcb.filter fun l => l.home != dst + 1 }) } :=
  ⟨_, if_neg (by simp [cut])⟩

/-! ## Recovery, sweeps and ports -/

theorem execBlockedPacket_records (planes : plane < 16) (switches : sw < 96) (ports : port < 128) (fresh : s.fab.blocked.contains (plane, sw, port) = false) :
    execBlockedPacket plane sw port s
      = .next { s with fab := portEvent { s.fab with blocked := s.fab.blocked ++ [(plane, sw, port)] } plane evBlockedPacket } := by
  simp only [execBlockedPacket, Nat.not_le.2 planes, Nat.not_le.2 switches, Nat.not_le.2 ports, fresh, Bool.false_eq_true, or_self, if_false]

section
variable (planes : plane < 16)
include planes

theorem execRecoveryToken_passes
    (clear : s.fab.blocked.find? (fun b => b.1 == plane && b.2.1 == (nmGet s.fab.token plane).getD 0) = none) :
    execRecoveryToken plane s = .next { s with fab := { s.fab with token := nmSet s.fab.token plane (((nmGet s.fab.token plane).getD 0 + 1) % 96) } } := by
  simp only [execRecoveryToken, Nat.not_le.2 planes, if_false, clear]

theorem execRecoveryToken_sends {b : Nat × Nat × Nat}
    (blocked : s.fab.blocked.find? (fun b => b.1 == plane && b.2.1 == (nmGet s.fab.token plane).getD 0) = some b) :
    let f := { s.fab with token := nmSet s.fab.token plane (((nmGet s.fab.token plane).getD 0 + 1) % 96) }
    execRecoveryToken plane s = .next { s with fab := portEvent { f with blocked := f.blocked.erase b } plane evRecoverySend } := by
  simp only [execRecoveryToken, Nat.not_le.2 planes, if_false, blocked]
end

theorem execDeckleSweep_due (due : sweepDue s job cls false (moduleSum s (pairKeyOf job cls) false) = true) :
    execDeckleSweep job cls s = .next (sweepEnd (clearActive s (pairKeyOf job cls) false) job cls (moduleSum s (pairKeyOf job cls) false)) :=
  if_pos due

/-- The sums of a fabric sweep: this module's and the others'. -/
def fabricSum (s : State) (job cls : Nat) (o : SweepSum) : SweepSum :=
  let t0 := moduleSum s (pairKeyOf job cls) true
  { o with s := (t0.s + o.s) % 2 ^ 64, c := (t0.c + o.c) % 2 ^ 64, l := t0.l + o.l,
           a := t0.a || o.a || s.classes.any (fun x => x.job == job && x.cls == cls && x.again), p := t0.p || o.p }

theorem execFabricSweep_opens (opens : (o.opens && peerOpens s job cls) = true) :
    execFabricSweep job cls plane o s = .next (openClass s job cls .fabric) :=
  if_pos opens

theorem execFabricSweep_due (stays : (o.opens && peerOpens s job cls) = false) (due : sweepDue s job cls true (fabricSum s job cls o) = true)
    (chosen : jobPlane s job = some plane) :
    let s1 := clearActive s (pairKeyOf job cls) true
    execFabricSweep job cls plane o s = .next (sweepEnd { s1 with classes := s1.classes.map fun x =>
      if x.job == job && x.cls == cls then { x with again := false } else x } job cls (fabricSum s job cls o)) := by
  have due' : (sweepDue s job cls true (fabricSum s job cls o) && jobPlane s job == some plane) = true := by simp [due, chosen]
  exact (if_neg (by simp [stays])).trans (if_pos due')

/-- The state in which a port has counted a message both ways. -/
def portCounted (s : State) (port : Nat) (w : WaveMsg) : State :=
  ({ s with fab := { s.fab with
    pairs := pairUpd s.fab.pairs (portPair (pairKeyOf w.job w.cls) port) (·.count 1 1) } } : State).carry w.job (waveTraffic s w)

theorem execWavePortForward_out (found : s.fab.out[n]? = some w) (path : s.pathOk (port % 16) s.module.toNat (bitsOf w.target 36 25) = true) :
    execWavePortForward port none n s = .next { portCounted s port w with
      fab := { (portCounted s port w).fab with out := (portCounted s port w).fab.out.eraseIdx n } } := by
  simp only [execWavePortForward, found, path, if_true]
  rfl

theorem execWavePortForward_in (opened : ∃ x ∈ s.classes, x.job = w.job ∧ x.cls = w.cls ∧ x.sc = .fabric)
    (here : bitsOf w.target 36 25 = s.module.toNat) (works : s.linkOk (port % 16) (downLink s.module.toNat) = true) :
    execWavePortForward port (some w) n s = .next { portCounted s port w with msgs := s.msgs ++ [{ vat := bitsOf w.target 24 16, m := w }] } := by
  obtain ⟨x, mem, hj, hc, hs⟩ := opened
  have known : (s.classes.any fun k => k.job == w.job && k.cls == w.cls && k.sc == .fabric) = true := List.any_eq_true.2 ⟨x, mem, by simp [hj, hc, hs]⟩
  have open_ : peerOpens s w.job w.cls = false := by
    have : (s.classes.any fun k => k.job == w.job && k.cls == w.cls) = true := List.any_eq_true.2 ⟨x, mem, by simp [hj, hc]⟩
    simp [peerOpens, this]
  simp only [execWavePortForward, open_, Bool.false_eq_true, if_false, known, here, works, beq_self_eq_true, Bool.and_self, if_true]
  rfl

/-- Settles O45: one lemma above for each step. -/
theorem fabricStepsTakeEffect : Obligations.FabricStepsTakeEffect := by
  unfold Obligations.FabricStepsTakeEffect
  intro s src dst plane link sw port n job cls k lost w o
  dsimp only
  refine ⟨execApply_applies, fun links => ⟨execFlitRetry_counts links true, execFlitRetry_counts links false⟩, fun retried works => ?_,
    execModuleDown_reached, fun cut => ?_, execBlockedPacket_records, fun planes => ⟨execRecoveryToken_passes planes, fun b => execRecoveryToken_sends planes⟩,
    execDeckleSweep_due, ⟨execFabricSweep_opens, execFabricSweep_due⟩, execWavePortForward_out, execWavePortForward_in (n := n)⟩
  · refine ⟨_, execLinkFailed_fails retried works, ?_⟩
    rw [linkTold_eq]
    exact ⟨rfl, rfl, rfl, rfl, rfl, rfl, rfl⟩
  · obtain ⟨s0, e⟩ := execModuleDown_ends cut
    refine ⟨_, e, fun j hj x hx => jobOver_foldl_endJob _ _ _ s0 (.inl hj) x hx, fun p hp away => ?_, fun c hc l hl => ?_⟩
    · have kept := (List.mem_filter.1 hp).2
      simpa [away] using kept
    · obtain ⟨c0, -, rfl⟩ := List.mem_map.1 hc
      simpa using (List.mem_filter.1 hl).2

end Sys2Proof
end

section
/-!
# Signals read again and the collectives' steps (O46)
-/
namespace Sys2Proof
open Sys2Proof.Machine

variable {s s1 s2 : State} {sid f die job gid q va n d : Nat} {r : CmdReq} {rest : List (Nat × Nat × Nat × CmdReq)} {st : Strand} {fr : Frag}
  {cd : SigCond} {b : W64} {p : Piece} {c : CollCmd}

/-! ## SWAIT reads its word again -/

theorem sigAsk_sends (room : pairFull s p.home = false) (free : fr.num = true ∨ ottUsed s st.core < 256) : sigAsk s sid f st fr p =
    (sendPkt (s.updFrag sid f fun x => { x with num := true })
      { src := s.module.toNat, dst := p.home - 1, num := 0, seq := 0, core := st.core, jobs := [st.job], sid := sid, pc := fr.pc, mask := fr.mask,
        slot := st.slot, body := .read p.pa sid f }).carry st.job .word := by
  have free' : (!fr.num && decide (256 ≤ ottUsed s st.core)) = false := by
    obtain h | h := free
    · simp [h]
    · simp [Nat.not_le.2 h]
  simp only [sigAsk, room, free', Bool.false_eq_true, if_false]

theorem sigAsk_holds (full : pairFull s p.home = true) (free : ottUsed s st.core < 256) :
    sigAsk s sid f st fr p = s.updFrag sid f fun x => { x with num := true } := by
  simp only [sigAsk, full, if_true, holdNum, Nat.not_le.2 free, if_false]

theorem sigTry_reads : SwaitReads (.next (sigTry s sid f st fr cd b n p)) s st sid f fr cd b n p := by
  refine ⟨fun l e => ?_, fun e => ?_, fun e room free => ?_, fun e full free => ?_, fun x e fails => ?_, fun x e holds => ?_⟩
  · rw [sigTry, e]
  · rw [sigTry, e]
  · rw [sigTry, e]
    exact congrArg _ (sigAsk_sends room free)
  · rw [sigTry, e]
    exact congrArg _ (sigAsk_holds full free)
  · rw [sigTry, e]
    simp only [fails, Bool.false_eq_true, if_false]
  · rw [sigTry, e]
    simp only [holds, if_true]
    rfl

section
variable (found : nmGet s.strands sid = some st) (live : nmGet st.frags f = some fr) (waits : fr.wait = .swait cd va b n)
  (idle : readOut s sid f = false) (word : sigWord s st va = some p)
include found live waits idle word

theorem execSwaitReread_rekeys (moved : st.misplaced [p] = true) : execSwaitReread sid f s = .next (s.updStrand sid fun st => st.rekey [p]) := by
  simp only [execSwaitReread, found, live, waits, idle, word, moved, Bool.false_eq_true, if_false, if_true]

theorem execSwaitReread_weak (placed : st.misplaced [p] = false) (weak : p.ord ≠ 0) :
    execSwaitReread sid f s = .next (sigTry s sid f st fr cd b n p) := by
  simp only [execSwaitReread, found, live, waits, idle, word, placed, Bool.false_eq_true, if_false]
  exact if_pos weak

theorem execSwaitReread_strong {st2 : Strand} (placed : st.misplaced [p] = false) (strong : p.ord = 0)
    (ended : endRegion s sid f fr.pc none = (s1, true)) (still : nmGet s1.strands sid = some st2) :
    execSwaitReread sid f s = .next (sigTry s1 sid f st2 fr cd b n p) := by
  simp only [execSwaitReread, found, live, waits, idle, word, placed, Bool.false_eq_true, if_false, strong, ne_eq, not_true, ended, still,
    Option.getD_some]
end

/-! ## Collectives -/

theorem execCollAccept_accepts (room : (s.die die).coll.length < 32)
    (head : cmdQueue s ((List.range 144).map (· + 144 * die)) CmdReq.isColl = (q, sid, f, r) :: rest) (found : nmGet s.strands sid = some st)
    (resident : (s.pfaults.any fun e => e.2.who == .coll die q) = false) (accepted : acceptColl s die sid f st r q = (s1, none)) :
    execCollAccept die s = .next (unblockRgn s1 sid f) := by
  simp only [execCollAccept, Nat.not_le.2 room, if_false, head, found, resident, Bool.false_eq_true, accepted]

section
variable (now : collNow s job gid = some (d, c))
include now

section
variable {dg : List (Nat × Digest)} (waiting : c.phase = 0) (all : c.covered (dg.map (·.1)) = true) (arrived : c.arrived s d = true)
  (free : omrkHolds s c.batch c.id = false)
include waiting all arrived free

theorem execCollDigestCompare_compares : execCollDigestCompare job gid dg s =
    if (dg.any fun o => o.1 != blkRank c.blk && decide (o.1 < blkPart c.blk) && o.2 != c.digest) = true then .next (collFail s d c 0xC3#8)
    else .next (updColl s d { c with phase := 1 }) := by
  simp only [execCollDigestCompare, now, waiting, all, arrived, free, ne_eq, not_true, Bool.not_true, Bool.false_eq_true, or_self, if_false]

theorem execCollDigestCompare_agrees (agree : ∀ o ∈ dg, o.1 < blkPart c.blk → o.1 ≠ blkRank c.blk → o.2 = c.digest) :
    execCollDigestCompare job gid dg s = .next (updColl s d { c with phase := 1 }) := by
  rw [execCollDigestCompare_compares now waiting all arrived free]
  refine if_neg fun differs => ?_
  obtain ⟨o, mem, h⟩ := List.any_eq_true.1 differs
  simp only [Bool.and_eq_true, bne_iff_ne, decide_eq_true_eq] at h
  exact h.2 (agree o mem h.1.2 h.1.1)

theorem execCollDigestCompare_differs (differs : ∃ o ∈ dg, o.1 < blkPart c.blk ∧ o.1 ≠ blkRank c.blk ∧ o.2 ≠ c.digest) :
    execCollDigestCompare job gid dg s = .next (collFail s d c 0xC3#8) := by
  rw [execCollDigestCompare_compares now waiting all arrived free]
  obtain ⟨o, mem, rank, other, digest⟩ := differs
  exact if_pos (List.any_eq_true.2 ⟨o, mem, by simp [rank, other, digest]⟩)
end

section
variable {parts : List (Nat × List Byte)} {mine : List Byte}

/-- What a rank has given to a collective. -/
def combinePart (parts : List (Nat × List Byte)) (r : Nat) : List Byte := ((parts.find? fun o => o.1 == r).map (·.2)).getD []

/-- The result of a collective, from what each rank has given. -/
def combineOut (c : CollCmd) (parts : List (Nat × List Byte)) (mine : List Byte) : List Byte × Flags :=
  collResult c.blk ((List.range (blkPart c.blk)).map fun r => if r = blkRank c.blk then mine else combinePart parts r)

/-- The state in which a collective has its result. -/
def combined (t : State) (d : Nat) (c : CollCmd) (mine : List Byte) (out : List Byte × Flags) : State :=
  collCarry (updColl t d { c with phase := 2, fl := out.2 }) c [.block mine.length, .block out.1.length]

theorem execCollCombine_combines (started : c.phase = 1) (plain : c.rprt = false)
    (given : ∀ r < blkPart c.blk, r = blkRank c.blk ∨ collReads c.blk r = false ∨ (combinePart parts r).length = collSrcLen c.blk)
    (resident : (s.pfaults.any fun e => e.2.who == .coll d c.id) = false)
    (read : (if collReads c.blk (blkRank c.blk) then collRead s d c (blkN c.blk 16 8) (collSrcLen c.blk) else (s, .inl [])) = (s1, .inl mine))
    (written : collWrites s1 d c [(blkN c.blk 24 8, (combineOut c parts mine).1)] = (s2, none)) :
    execCollCombine job gid parts s = .next (match c.xbr with
      | some o => if collSectors false c.blk = 0 then combined s2 d c mine (combineOut c parts mine)
        else xbUpdate (combined s2 d c mine (combineOut c parts mine)) c.batch o (·.land (collSectors false c.blk))
      | none => combined s2 d c mine (combineOut c parts mine)) := by
  have given' : ((List.range (blkPart c.blk)).all fun r =>
      r == blkRank c.blk || !collReads c.blk r || (combinePart parts r).length == collSrcLen c.blk) = true := by
    rw [List.all_eq_true]
    intro r hr
    simpa [or_assoc] using given r (List.mem_range.1 hr)
  have go : ¬(c.phase ≠ 1 ∨ c.rprt = true ∨ (!((List.range (blkPart c.blk)).all fun r =>
      r == blkRank c.blk || !collReads c.blk r || (combinePart parts r).length == collSrcLen c.blk)) = true ∨
      (s.pfaults.any fun e => e.2.who == .coll d c.id) = true) := by
    simp [started, plain, given', resident]
  rw [execCollCombine, now]
  refine (if_neg go).trans ?_
  simp only [combineOut, combinePart] at written
  simp only [read, written]
  rfl
end

section
variable {cps : List (Nat × Nat × List Byte)} {mine : List Byte}

/-- What each rank has given to the Couch: its capacity and its items. -/
def couchParts (c : CollCmd) (cps : List (Nat × Nat × List Byte)) (mine : List Byte) : List (Nat × List Byte) :=
  (List.range (blkPart c.blk)).map fun r => if r = blkRank c.blk then (rprtCap c.blk, mine) else ((cps.find? fun o => o.1 == r).map (·.2)).getD (0, [])

/-- The items that the Couch reads. -/
def couchAll (c : CollCmd) (ps : List (Nat × List Byte)) : List CouchItem :=
  (ps.zipIdx.map fun (p, r) => couchItems (rprtBox c.blk) (rprtStride c.blk) r p.2).flatten

/-- How the Couch assigns them. -/
def couchPlan (c : CollCmd) (ps : List (Nat × List Byte)) : List (List CouchItem) × List CouchItem := couchAssign (ps.map (·.1)) (couchAll c ps)

/-- The run of items assigned to this module's rank. -/
def couchRun (c : CollCmd) (asg : List (List CouchItem) × List CouchItem) : List CouchItem := (asg.1[blkRank c.blk]?).getD []

/-- The items of this module's rank that are assigned to none, by their places. -/
def couchOwn (c : CollCmd) (asg : List (List CouchItem) × List CouchItem) : List Nat :=
  ((asg.2.filter fun x => x.rank == blkRank c.blk).map (·.ix)).mergeSort fun x y => decide (x ≤ y)

/-- A buffer that the command may leave out. -/
def couchOpt (c : CollCmd) (o : Nat) (bs : List Byte) : List (Nat × List Byte) := if blkN c.blk o 8 = 0 then [] else [(blkN c.blk o 8, bs)]

/-- What the Couch writes at this module. -/
def couchWrites (c : CollCmd) (asg : List (List CouchItem) × List CouchItem) : List (Nat × List Byte) :=
  [(blkN c.blk 24 8, (couchRun c asg).flatMap (·.bs))] ++ couchOpt c 32 ((couchRun c asg).flatMap fun x => leBytes 8 x.key) ++
    couchOpt c 40 ((couchOwn c asg).flatMap (leBytes 4))

/-- The state in which the Couch has assigned the items. -/
def couched (t : State) (d : Nat) (c : CollCmd) (n : Nat) (asg : List (List CouchItem) × List CouchItem) : State :=
  let gone := (asg.1.zipIdx.filter fun r => r.2 != blkRank c.blk).flatMap fun r => r.1.filter (·.rank == blkRank c.blk)
  collCarry (updColl (writeScr t c.batch (atOff (c.off + 104) (leBytes 4 (couchOwn c asg).length ++ leBytes 4 (couchRun c asg).length ++ leBytes 8 n))) d
    { c with phase := 2, fl := flIf ((couchRun c asg).any (·.nv)) flNv, short := !asg.2.isEmpty }) c
    (((couchRun c asg).filter (·.rank != blkRank c.blk) ++ gone).map fun _ => Traffic.item (rprtStride c.blk + 8))

theorem execCouchAssign_assigns (started : c.phase = 1) (couch : c.rprt = true)
    (all : c.covered (cps.map (·.1)) = true) (resident : (s.pfaults.any fun e => e.2.who == .coll d c.id) = false)
    (read : collRead s d c (blkN c.blk 16 8) (rprtItems c.blk * rprtStride c.blk) = (s1, .inl mine))
    (written : collWrites s1 d c (couchWrites c (couchPlan c (couchParts c cps mine))) = (s2, none)) :
    execCouchAssign job gid cps s = .next (match c.xbr with
      | some o => xbUpdate (couched s2 d c (couchAll c (couchParts c cps mine)).length (couchPlan c (couchParts c cps mine))) c.batch o
          (·.land (collSectors true c.blk))
      | none => couched s2 d c (couchAll c (couchParts c cps mine)).length (couchPlan c (couchParts c cps mine))) := by
  have go : ¬(c.phase ≠ 1 ∨ (!c.rprt) = true ∨ (!c.covered (cps.map (·.1))) = true ∨ (s.pfaults.any fun e => e.2.who == .coll d c.id) = true) := by
    simp [started, couch, all, resident]
  rw [execCouchAssign, now]
  refine (if_neg go).trans ?_
  simp only [read]
  simp only [couchWrites, couchRun, couchOwn, couchOpt, couchPlan, couchAll, couchParts] at written
  simp only [written]
  rfl
end

theorem execCollComplete_tells {done : List Nat} (landed : c.phase = 2) (all : c.covered done = true) (plain : c.ui = false) :
    execCollComplete job gid done s = .next (match c.xbr with
      | some o => xbUpdate (writeStat (dropNamed (dropColl s d c.id) d c) c 0) c.batch o fun y => (y.land 1).arrive
      | none => xbWake (writeStat (dropNamed (dropColl s d c.id) d c) c 0) c.batch) := by
  simp only [execCollComplete, now, landed, all, plain, ne_eq, not_true, Bool.not_true, Bool.false_and, Bool.false_eq_true, or_self, if_false] <;> rfl
end

/-- Settles O46: one lemma above for each step; each read of SWAIT's word is one `sigTry`. -/
theorem collectiveStepsTakeEffect : Obligations.CollectiveStepsTakeEffect := by
  unfold Obligations.CollectiveStepsTakeEffect
  intro s sid f die job gid q r rest st st2 fr cd va n b p d c s1 s2 dg parts cps done mine
  refine ⟨fun found live waits idle word => ⟨execSwaitReread_rekeys found live waits idle word, fun placed => ⟨fun weak => ?_, fun strong ended still => ?_⟩⟩,
    execCollAccept_accepts, fun now => ⟨fun waiting all arrived free => ⟨execCollDigestCompare_agrees now waiting all arrived free,
      execCollDigestCompare_differs now waiting all arrived free⟩, execCollCombine_combines now, execCouchAssign_assigns now, execCollComplete_tells now⟩⟩
  · show SwaitReads (execSwaitReread sid f s) s st sid f fr cd b n p
    exact execSwaitReread_weak found live waits idle word placed weak ▸ sigTry_reads
  · show SwaitReads (execSwaitReread sid f s) s1 st2 sid f fr cd b n p
    exact execSwaitReread_strong found live waits idle word placed strong ended still ▸ sigTry_reads

end Sys2Proof
end

section
/-!
# The host queues' steps (O48)
-/
namespace Sys2Proof
open Sys2Proof.Machine

variable {s : State} {fn q job asid n p : Nat} {v : BitVec 13} {w : W32} {hb : List (Nat × Byte)} {e : List Byte} {jb : Job} {l : Launch} {c : Compl} {i : Nat}

/-! ## The queue's registers -/

/-- Whether the access tables let through every access to a function's registers. -/
def BarOpen (s : State) (fn : Nat) : Prop := ∀ off len wr, off + len ≤ 0x1080 → s.regRefuses (barAt fn off len) wr = none

theorem queue_lt (ok : barOk s fn q = true) : q < 8 := by
  simp only [barOk, queueOk, Bool.and_eq_true, decide_eq_true_eq] at ok
  exact ok.1.2

theorem regWrite_admitted {r : RegAt} {put : State → State} (admits : s.regRefuses r true = none) : s.regWrite r put = put s := by
  rw [State.regWrite, admits]

section
variable (ok : barOk s fn q = true) (admits : BarOpen s fn)
include ok admits

theorem execSqtail_moves : execSqtail fn q v hb s = .next (({ s with host := { s.host with
      mem := hb.foldl (fun (m : Sparse 8) (z : Nat × Byte) => spPut m (hostKey (s.queue (qkey fn q)).pasid.toNat z.1) z.2) s.host.mem } }).updQueue
        (qkey fn q) fun y => { y with sqtail := v }) := by
  have lt := queue_lt ok
  refine (if_pos ok).trans (congrArg _ (regWrite_admitted ?_))
  exact admits (0x1000 + 0x10 * q) 4 true (by omega)

theorem execCqhead_moves : execCqhead fn q v s = .next (s.updQueue (qkey fn q) fun y => { y with cqhead := v }) := by
  have lt := queue_lt ok
  exact (if_pos ok).trans (congrArg _ (regWrite_admitted (admits (0x1000 + 0x10 * q + 8) 4 true (by omega))))

theorem execEnable_starts (drained : (s.queue (qkey fn q)).busy = false) : execEnable fn q w s = .next (s.updQueue (qkey fn q) fun y =>
    { y with enable := w.getLsbD 31, pasid := w.setWidth 20, on := w.getLsbD 31 && y.sound,
             dying := s.host.dying.contains (w.setWidth 20 : BitVec 20).toNat, fetch := 0, cqidx := 0, phase := true, sqtail := 0#13, cqhead := 0#13 }) := by
  have lt := queue_lt ok
  have go : ¬(!barOk s fn q || (s.queue (qkey fn q)).busy) = true := by simp [ok, drained]
  exact (if_neg go).trans (congrArg _ (regWrite_admitted (admits (0x40 * q + 0x18) 4 true (by omega))))

/-- A read of a queue's register at an offset within its block. -/
theorem barRead_queue {off : Nat} (within : off < 0x40) : barRead s fn (0x40 * q + off) = (s.queue (qkey fn q)).read off := by
  have lt := queue_lt ok
  have hq : (0x40 * q + off) / 0x40 = q := by omega
  have ho : (0x40 * q + off) % 0x40 = off := by omega
  have below : 0x40 * q + off < 0x200 := by omega
  rw [barRead, hq, ho, admits (0x40 * q + off) 4 false (by omega)]
  simp [ok, below]

theorem barRead_sqbase : barRead s fn (0x40 * q) = (s.queue (qkey fn q)).sqbase.toNat :=
  barRead_queue ok admits (off := 0) (by decide)

theorem barRead_status : barRead s fn (0x40 * q + 0x20) = (s.queue (qkey fn q)).dying.toNat * 2 + (s.queue (qkey fn q)).on.toNat := by
  rw [barRead_queue ok admits (by decide), HQueue.read]

/-- The doorbells read as zero. -/
theorem barRead_doorbell {off : Nat} (bell : off = 0x28 ∨ off = 0x30) : barRead s fn (0x40 * q + off) = 0 := by
  obtain rfl | rfl := bell <;> rw [barRead_queue ok admits (by decide), HQueue.read] <;> decide
end

/-! ## Fetching an entry -/

theorem execQueueFetch_asks (on : (s.queue (qkey fn q)).on = true) (fresh : (s.queue (qkey fn q)).asked = false)
    (empty : (s.queue (qkey fn q)).entry = none) (more : (s.queue (qkey fn q)).fetch ≠ (s.queue (qkey fn q)).sqtail.toNat)
    (alive : s.host.dying.contains (s.queue (qkey fn q)).pasid.toNat = false) :
    execQueueFetch fn q s = .next ((askXlate s (s.queue (qkey fn q)).pasid.toNat).updQueue (qkey fn q) fun y => { y with asked := true }) := by
  refine if_neg ?_
  rw [on, fresh, empty, alive]
  simpa using more

/-- The state in which a PASID has n translations outstanding. -/
def xlatesLeft (s : State) (p n : Nat) : State := { s with host := { s.host with tearOut := nmSet s.host.tearOut p n } }

theorem execTranslationResponse_fetches {k : Nat} (out : nmGet s.host.tearOut p = some (n + 2)) (alive : s.host.dying.contains p = false)
    (asked : askedQueue s p = some k) : execTranslationResponse p s = .next (fetchEntry (xlatesLeft s p (n + 1)) k) := by
  have asked' : askedQueue (xlatesLeft s p (n + 1)) p = some k := asked
  simp only [execTranslationResponse, out, alive, Nat.add_one_ne_zero, false_and, if_false]
  rw [← xlatesLeft, asked']
  rfl

theorem execTranslationResponse_drops {k : Nat} (out : nmGet s.host.tearOut p = some (n + 1)) (dying : s.host.dying.contains p = true)
    (asked : askedQueue s p = some k) : execTranslationResponse p s = .next ((xlatesLeft s p n).updQueue k fun y => { y with asked := false }) := by
  have asked' : askedQueue (xlatesLeft s p n) p = some k := asked
  simp only [execTranslationResponse, out, dying, Bool.not_true, Bool.false_eq_true, and_false, if_false]
  rw [← xlatesLeft, asked']
  rfl

/-- The bytes of a queue's next entry, in the ring. -/
def ringEntry (s : State) (k : Nat) : List Byte := rdHost s (s.queue k).pasid.toNat ((s.queue k).sqbase.toNat + 64 * (s.queue k).fetch) 64

theorem fetchEntry_sound (queues : q < 8) (sound : entryBad fn (ringEntry s (qkey fn q)) = false) :
    fetchEntry s (qkey fn q) = s.updQueue (qkey fn q) fun y =>
      { y with asked := false, entry := some (ringEntry s (qkey fn q)), fetch := (y.fetch + 1) % y.sqsize.toNat, out := y.out + 1 } := by
  have hfn : qkey fn q / 8 = fn := by rw [qkey]; omega
  rw [ringEntry] at sound ⊢
  simp only [fetchEntry, hfn, sound, Bool.false_eq_true, if_false]

/-! ## Commands -/

theorem execNopEntry_completes (entry : entryOf s fn q 0 = some e) : execNopEntry fn q s = .next (finishEntry s (qkey fn q) e 0x00#8 .plain) := by
  rw [execNopEntry, entry]

theorem execLaunch_dying (entry : entryOf s fn q 1 = some e) (dying : s.host.dying.contains (s.queue (qkey fn q)).pasid.toNat = true) :
    execLaunch (.host fn) q job asid s = .next (finishEntry s (qkey fn q) e 0x02#8 .plain) := by
  simp only [execLaunch, entry, dying, if_true]

/-! ### A launch that is accepted -/

@[simp] theorem startCharge_cores (s : State) (k : Nat) : (startCharge s k).cores = s.cores := by
  unfold startCharge
  dsimp only
  split
  · rfl
  · split <;> rfl

@[simp] theorem startCharge_seq (s : State) (k : Nat) : (startCharge s k).seq = s.seq := by
  unfold startCharge
  dsimp only
  split
  · rfl
  · split <;> rfl

/-- Clearing a job's window leaves the jobs, the launches and the cores. -/
theorem clearRange_rest (s : State) (asid lo hi : Nat) : (clearRange s asid lo hi).jobs = s.jobs ∧ (clearRange s asid lo hi).launches = s.launches ∧
    (clearRange s asid lo hi).cores = s.cores := by
  unfold clearRange
  split <;> exact ⟨rfl, rfl, rfl⟩

theorem clearWindow_rest (s : State) (asid nw lo hi elo ehi kw : Nat) : (clearWindow s asid nw lo hi elo ehi kw).jobs = s.jobs ∧
    (clearWindow s asid nw lo hi elo ehi kw).launches = s.launches ∧ (clearWindow s asid nw lo hi elo ehi kw).cores = s.cores := by
  have kept : ∀ (g : State → Nat → State) (_ : ∀ s v, (g s v).jobs = s.jobs ∧ (g s v).launches = s.launches ∧ (g s v).cores = s.cores) (vs : List Nat) (s : State),
      (vs.foldl g s).jobs = s.jobs ∧ (vs.foldl g s).launches = s.launches ∧ (vs.foldl g s).cores = s.cores := by
    intro g hg vs
    induction vs with
    | nil => exact fun _ => ⟨rfl, rfl, rfl⟩
    | cons v vs ih =>
      intro s
      obtain ⟨j1, l1, c1⟩ := ih (g s v)
      obtain ⟨j2, l2, c2⟩ := hg s v
      exact ⟨j1.trans j2, l1.trans l2, c1.trans c2⟩
  unfold clearWindow
  split
  · exact ⟨rfl, rfl, rfl⟩
  · refine kept _ (fun s v => ?_) _ _
    obtain ⟨j1, l1, c1⟩ := clearRange_rest s asid (nw + v * 0x8000000 + lo * 1280) (nw + v * 0x8000000 + hi * 1280)
    dsimp only
    split
    · exact ⟨j1, l1, c1⟩
    · obtain ⟨j2, l2, c2⟩ := clearRange_rest (clearRange s asid (nw + v * 0x8000000 + lo * 1280) (nw + v * 0x8000000 + hi * 1280)) asid
        (nw + v * 0x8000000 + 0x3C00000 + 2 ^ 21 * (8 * elo / 2 ^ 21)) (nw + v * 0x8000000 + 0x3C00000 + 2 ^ 21 * ceilDiv (8 * ehi) (2 ^ 21))
      exact ⟨j2.trans j1, l2.trans l1, c2.trans c1⟩

/-- A launch that is accepted, before its window is cleared. -/
def launched (s : State) (user : Bool) (fn q job asid : Nat) (e : List Byte) (head : Nat) (d : List Byte) (im : Image) (mset : List Nat) : State :=
  let s2 := (startCharge s (qkey fn q)).tick.2
  let key := (startCharge s (qkey fn q)).tick.1
  { s2 with
    jobs := nmSet s2.jobs job (mkJob user asid key s.host.keyChunks d im mset)
    launches := nmSet s2.launches key { mkLaunch fn q job asid e head s.host.keyChunks d im with since := hostTime s2 }
    cores := s2.cores.map fun (y : Nat × Core) => (y.1, { y.2 with rlb := [] }) }

section
variable {user : Bool} {head : Nat} {d : List Byte} {im : Image} {mset : List Nat}

theorem acceptLaunch_rest : (acceptLaunch s user fn q job asid e head d im mset).jobs = (launched s user fn q job asid e head d im mset).jobs ∧
    (acceptLaunch s user fn q job asid e head d im mset).launches = (launched s user fn q job asid e head d im mset).launches ∧
    (acceptLaunch s user fn q job asid e head d im mset).cores = (launched s user fn q job asid e head d im mset).cores :=
  clearWindow_rest (launched s user fn q job asid e head d im mset) _ _ _ _ _ _ _

theorem acceptLaunch_job : nmGet (acceptLaunch s user fn q job asid e head d im mset).jobs job = some (mkJob user asid s.seq s.host.keyChunks d im mset) := by
  rw [acceptLaunch_rest.1, ← startCharge_seq s (qkey fn q)]
  exact nmGet_nmSet_self _ _ _

theorem acceptLaunch_launch : nmGet (acceptLaunch s user fn q job asid e head d im mset).launches s.seq =
    some { mkLaunch fn q job asid e head s.host.keyChunks d im with since := hostTime s } := by
  have time : hostTime (startCharge s (qkey fn q)).tick.2 = hostTime s := by
    unfold hostTime
    exact congrArg (List.foldl _ 0) (startCharge_cores s (qkey fn q))
  rw [acceptLaunch_rest.2.1, ← startCharge_seq s (qkey fn q), ← time]
  exact nmGet_nmSet_self _ _ _

theorem acceptLaunch_rlb : ∀ y ∈ (acceptLaunch s user fn q job asid e head d im mset).cores, y.2.rlb = [] := by
  rw [acceptLaunch_rest.2.2]
  intro y hy
  obtain ⟨z, -, rfl⟩ := List.mem_map.1 hy
  rfl

/-- The state in which a queue's launch has been taken, and its PASID has an address space. -/
def launchTaken (s : State) (k asid : Nat) : State :=
  let s1 := s.updQueue k fun y => { y with entry := none }
  { s1 with host := { s1.host with asids := nmSet s1.host.asids (s.queue k).pasid.toNat asid } }

theorem jobFree_of (free : nmGet s.jobs job = none) (number : job < 65536) (up : s.host.launchOk = true) : jobFree s job = true := by
  simp [jobFree, free, number, up]

theorem execLaunch_accepts (entry : entryOf s fn q 1 = some e) (alive : s.host.dying.contains (s.queue (qkey fn q)).pasid.toNat = false)
    (own : nmGet s.host.asids (s.queue (qkey fn q)).pasid.toNat = some asid) (free : jobFree s job = true)
    (image : readImage s asid (blkN (rdHost s (s.queue (qkey fn q)).pasid.toNat (entAddr e) 256) 0 8) = some im)
    (modules : readMset s asid (rdHost s (s.queue (qkey fn q)).pasid.toNat (entAddr e) 256) = some mset) (aligned : entAddr e % 64 = 0)
    (fields : descFieldsBad s.host.keyChunks (rdHost s (s.queue (qkey fn q)).pasid.toNat (entAddr e) 256) = false) (sound : im.bad = false) :
    execLaunch (.host fn) q job asid s = .next (acceptLaunch (launchTaken s (qkey fn q) asid) true fn q job asid e (s.queue (qkey fn q)).fetch
      (rdHost s (s.queue (qkey fn q)).pasid.toNat (entAddr e) 256) im mset) := by
  simp only [execLaunch, entry, alive, own, free, image, modules, aligned, fields, sound, beq_self_eq_true, Bool.not_true, Bool.or_self, Bool.false_eq_true,
    ne_eq, not_true, or_self, if_false]
  rfl

theorem execLaunch_hart (free : jobFree s job = true) (size : d.length = 256) (fields : descFieldsBad s.host.keyChunks d = false)
    (image : readImage s 0 (blkN d 0 8) = some im) (modules : readMset s 0 d = some mset) (sound : im.bad = false) :
    execLaunch (.hart d) q job 0 s = .next (acceptLaunch s false hartFn 0 job 0 [] 0 d im mset) := by
  simp only [execLaunch, hartLaunch, free, size, fields, image, modules, sound, bne_self_eq_false, Bool.not_true, Bool.or_self, Bool.false_eq_true, if_false,
    if_true]
end

/-! ### Snapshots, commits and bills -/

theorem startTinv_strands (s : State) (sid : Option Nat) (asid : Nat) (whole : Bool) (base len : Nat) : (startTinv s sid asid whole base len).strands = s.strands := by
  unfold startTinv
  split
  · rfl
  · split <;> rfl

theorem markCow_strands (s : State) (asid va : Nat) : (markCow s asid va).1.strands = s.strands := by
  unfold markCow
  dsimp only
  split
  · split
    · rfl
    · exact startTinv_strands _ _ _ _ _ _
  · rfl

theorem markCows_strands (asid : Nat) (vas : List Nat) (s : State) : (markCows s asid vas).1.strands = s.strands := by
  induction vas generalizing s with
  | nil => rfl
  | cons va vas ih => exact (ih _).trans (markCow_strands s asid va)

/-- The pages that a SNAPSHOT names, marked. -/
def snapMarks (s : State) (k : Nat) (e : List Byte) : State × List Tlb :=
  markCows s ((nmGet s.host.asids (s.queue k).pasid.toNat).getD 0)
    ((List.range (entArg e)).map fun i => leVal (rdHost s (s.queue k).pasid.toNat (entAddr e + 8 * i) 8) / 4096 * 4096)

/-- What a PASID's snapshots are. -/
def snapOf (s : State) (fn q : Nat) : Snap := (nmGet s.host.snaps (s.queue (qkey fn q)).pasid.toNat).getD Snap.none

/-- The counters that a BILL reports, of function and account. -/
def billSums (s : State) (e : List Byte) : Bill :=
  let f := entArg e % 65536
  let a := bitsOf (entArg e) 31 16
  let old := (nmGet s.host.bills (f * 65536 + a)).getD Bill.none
  { old with vat := old.vat + (if old.vats then Config.vatCycles s.freeCtr else 0),
             energy := old.energy + (if old.core + runningCycles s f a = 0 then 0 else Config.energy s.freeCtr), vats := false }

/-- The number of a BILL's report. -/
def billNumber (s : State) (e : List Byte) : Nat := (nmGet s.host.reports (entArg e % 65536)).getD 0 + 1

/-- The report that a BILL writes, without its signature. -/
def billBody (s : State) (e : List Byte) : List Byte :=
  let f := entArg e % 65536
  let a := bitsOf (entArg e) 31 16
  leBytes 8 (f * 2 ^ 48 + a * 2 ^ 32) ++ leBytes 8 (billNumber s e)
    ++ leBytes 8 (((nmGet s.host.bills (f * 65536 + a)).getD Bill.none).core + runningCycles s f a) ++ leBytes 8 (billSums s e).vat
    ++ leBytes 8 (billSums s e).fab ++ leBytes 8 (billSums s e).energy ++ leBytes 32 ((nmGet s.host.prev f).getD 0#256).toNat

/-- The report that a BILL writes. -/
def billReport (s : State) (e : List Byte) : List Byte := billBody s e ++ leBytes 64 (Config.sm2 s.module.toNat (billBody s e)).toNat

theorem length_billReport : (billReport s e).length = 144 := by simp [billReport, billBody]

/-- The state in which a BILL has been counted. -/
def billed (s : State) (e : List Byte) : State := { s with
  freeCtr := s.freeCtr + 1
  host := { s.host with
    bills := nmSet s.host.bills (entArg e % 65536 * 65536 + bitsOf (entArg e) 31 16) (billSums s e)
    reports := nmSet s.host.reports (entArg e % 65536) (billNumber s e)
    prev := nmSet s.host.prev (entArg e % 65536) (Config.sm3 (billReport s e)) } }

section
variable (alive : s.host.dying.contains (s.queue (qkey fn q)).pasid.toNat = false)
include alive

theorem execSnapshot_busy (entry : entryOf s fn q 2 = some e) (busy : (snapOf s fn q).busy = true) :
    execSnapshot fn q s = .next (finishEntry s (qkey fn q) e 0x03#8 .plain) := by
  rw [snapOf] at busy
  simp only [execSnapshot, entry, entryTorn, alive, busy, Bool.false_eq_true, if_false, if_true]

theorem execSnapshot_marks (entry : entryOf s fn q 2 = some e) (free : (snapOf s fn q).busy = false) :
    execSnapshot fn q s = .next (finishEntry (setSnap (snapMarks s (qkey fn q) e).1 (s.queue (qkey fn q)).pasid.toNat
      { snapOf s fn q with pages := (snapOf s fn q).pages ++ (snapMarks s (qkey fn q) e).2 }) (qkey fn q) e 0x00#8 .plain) := by
  rw [snapOf] at free ⊢
  simp only [execSnapshot, entry, entryTorn, alive, free, Bool.false_eq_true, if_false]
  rfl

theorem execCommit_writes (entry : entryOf s fn q 3 = some e) (may : hartMay s 2 (rootWord (s.queue (qkey fn q)).pasid.toNat) 8 true = true) :
    let s1 := setSnap s (s.queue (qkey fn q)).pasid.toNat { snapOf s fn q with alt := !(snapOf s fn q).alt, busy := true }
    let root := leBytes 8 (Config.snapRoot (s.queue (qkey fn q)).pasid.toNat (!(snapOf s fn q).alt)).toNat
    execCommit fn q s = .next (finishEntry { s1 with mem := wrMN s.mem (rootWord (s.queue (qkey fn q)).pasid.toNat) root } (qkey fn q) e 0x00#8
      (.commit (s.queue (qkey fn q)).pasid.toNat)) := by
  intro s1 root
  have may' : hartMay s1 2 (rootWord (s.queue (qkey fn q)).pasid.toNat) root.length true = true := by
    rw [length_leBytes]
    exact may
  rw [execCommit]
  simp only [entry, entryTorn, alive, Bool.false_eq_true, if_false]
  exact congrArg (fun y => Host.Outcome.next (finishEntry y _ _ _ _)) (if_pos may')

theorem execBill_reports (entry : entryOf s fn q 4 = some e) :
    execBill fn q s = .next (finishEntry (wrHost (billed s e) (s.queue (qkey fn q)).pasid.toNat (entAddr e) (billReport s e)) (qkey fn q) e 0x00#8 .plain) := by
  rw [execBill]
  simp only [entry, entryTorn, alive, Bool.false_eq_true, if_false]
  rfl
end

/-! ## Completions and the end of a job -/

theorem execCompletionWrite_plain (found : (s.queue (qkey fn q)).done.zipIdx.find? (fun d => d.1.fits (s.queue (qkey fn q))) = some (c, i))
    (plain : c.kind = .plain) : execCompletionWrite fn q s = .next (((writeEntry s (qkey fn q) c.value c.tag c.head c.status).updQueue (qkey fn q) fun y =>
      { y with done := y.done.eraseIdx i, irqs := y.irqs + c.irq.toNat }).updQueue (qkey fn q) fun y => { y with out := y.out - 1 }) := by
  rw [execCompletionWrite]
  dsimp only
  rw [found]
  dsimp only
  rw [plain]

section
variable (found : nmGet s.jobs job = some jb) (finished : jobOver s job jb = true) (commands : jobCommands s job = false) (writes : jobWrites s job = false)
include found finished commands writes

theorem execJobEnd_starts (fresh : jb.rel = none) : execJobEnd job s = .next (s.tick.2.updJob job fun y => { y with rel := some s.seq }) := by
  simp only [execJobEnd, found, finished, commands, writes, fresh, Bool.not_true, Bool.or_self, Bool.false_eq_true, if_false]
  rfl

theorem execJobEnd_completes (started : jb.rel = some n) (quiet : (s.dies.any fun d => d.2.p.any fun w => decide (w.seq < n)) = false)
    (launch : nmGet s.launches jb.launch = some l) :
    execJobEnd job s = .next (pushCompl (jobGone s job jb) (qkey l.fn l.q) (jobCompl job jb l)) := by
  simp only [execJobEnd, found, finished, commands, writes, started, quiet, launch, Bool.not_true, Bool.or_self, Bool.false_eq_true, if_false]
end

theorem exec_launch {who : LaunchBy} : exec (.launch who q job asid) s = execLaunch who q job asid s := rfl

/-- Settles O48: one lemma above for each step of the queues. -/
theorem hostQueueStepsTakeEffect : Obligations.HostQueueStepsTakeEffect := by
  unfold Obligations.HostQueueStepsTakeEffect
  intro s fn q job asid v w hb e jb l c i n
  dsimp only
  refine ⟨fun ok admits => ⟨?_, ?_, ?_, barRead_sqbase ok admits, barRead_status ok admits, barRead_doorbell ok admits (.inl rfl),
      barRead_doorbell ok admits (.inr rfl)⟩,
    execQueueFetch_asks, fun queues out alive asked empty => ⟨execTranslationResponse_fetches out alive asked, fetchEntry_sound (s := xlatesLeft s _ _) queues⟩,
    execTranslationResponse_drops, execNopEntry_completes, ?_, ?_, ?_, fun entry alive busy => execSnapshot_busy alive entry busy,
    fun entry alive free => ⟨_, _, execSnapshot_marks alive entry free, markCows_strands _ _ _⟩, fun entry alive may => execCommit_writes alive entry may,
    fun entry alive => ⟨_, _, execBill_reports alive entry, length_billReport, rfl, rfl, nmGet_nmSet_self _ _ _⟩, execCompletionWrite_plain,
    fun found finished commands writes => ⟨execJobEnd_starts found finished commands writes, execJobEnd_completes found finished commands writes⟩⟩
  · exact execSqtail_moves ok admits
  · exact execCqhead_moves ok admits
  · exact execEnable_starts ok admits
  · exact fun entry dying => exec_launch.trans (execLaunch_dying entry dying)
  · intro im mset entry alive own none number up image modules aligned fields sound
    have accepted := execLaunch_accepts entry alive own (jobFree_of none number up) image modules aligned fields sound
    rw [exec_launch, accepted]
    exact ⟨_, rfl, acceptLaunch_job, acceptLaunch_launch, acceptLaunch_rlb⟩
  · intro d im mset none number up size fields image modules sound
    rw [exec_launch, execLaunch_hart (jobFree_of none number up) size fields image modules sound]
    exact ⟨_, rfl, acceptLaunch_job⟩

end Sys2Proof
end

section
/-!
# Module memory in its canonical form (O56): the rules, and Xlate and Ops

Each operation of the model that gives a state has one lemma here that says that it keeps the memory canonical. They follow the
order of the model, so that each uses those of the operations it calls; a result that may hold no state, or a state beside
something else, has its own predicate.
-/
-- One theorem at a time: the chain of these lemmas is too long for the threads of an elaborator that runs ahead.
set_option Elab.async false
namespace Sys2Proof.Machine
/-- The module memory of a state is in its canonical form (log 3). -/
def Canon (s : State) : Prop := Memory.wf s.mem = true

/-- So is that of the state in a result on the left. -/
def CanonLeft {β : Type} : State ⊕ β → Prop
  | .inl s => Canon s
  | .inr _ => True

/-- A property of what an engine's access gives where it meets no error. -/
def OkHolds {ε γ : Type} (P : γ → Prop) : Except ε γ → Prop
  | .ok x => P x
  | .error _ => True

/-- So is that of the state of an engine's access that met no error. -/
abbrev CanonOk {ε β : Type} (x : Except ε (State × β)) : Prop := OkHolds (fun y => Canon y.1) x

/-- So is that of a state that there may be. -/
def CanonOpt : Option State → Prop
  | some s => Canon s
  | none => True

/-- So is that of the state on either side, beside what stands there with it. -/
def CanonBoth {α β : Type} : (State × α) ⊕ (State × β) → Prop
  | .inl x => Canon x.1
  | .inr x => Canon x.1

/-- So is that of an instruction's next state. -/
def CanonOut : Out → Prop
  | .next s => Canon s
  | _ => True

variable {s t : State}

/-! ## The rules -/

theorem Canon.of_mem (hs : Canon s) (e : t.mem = s.mem := by rfl) : Canon t := by rw [Canon, e]; exact hs

theorem Canon.fst {β : Type} {x : State × β} {b : β} (h : Canon x.1) (e : x = (t, b)) : Canon t := by subst e; exact h
theorem Canon.of_fst {β : Type} {x : State × β} {b : β} (e : x = (t, b)) (h : Canon x.1) : Canon t := h.fst e
theorem Canon.snd {α : Type} {x : α × State} {a : α} (h : Canon x.2) (e : x = (a, t)) : Canon t := by subst e; exact h
theorem Canon.inl {α : Type} {x : (State × α) ⊕ State} {a : α} (h : Canon (eitherState x)) (e : x = .inl (t, a)) : Canon t := by subst e; exact h
theorem Canon.inr {α : Type} {x : (State × α) ⊕ State} (h : Canon (eitherState x)) (e : x = .inr t) : Canon t := by subst e; exact h
theorem CanonLeft.left {β : Type} {x : State ⊕ β} (h : CanonLeft x) (e : x = .inl t) : Canon t := by subst e; exact h
theorem OkHolds.ok {ε γ : Type} {P : γ → Prop} {x : Except ε γ} {y : γ} (h : OkHolds P x) (e : x = .ok y) : P y := by subst e; exact h
theorem CanonOk.ok {ε β : Type} {x : Except ε (State × β)} {b : β} (h : CanonOk x) (e : x = .ok (t, b)) : Canon t := OkHolds.ok (P := fun y => Canon y.1) h e
/-- The steps of an engine's access, one after the other. -/
theorem CanonOk.bind {ε α γ : Type} {P : γ → Prop} {x : Except ε (State × α)} {g : State × α → Except ε γ} (h : CanonOk x)
    (hg : ∀ t a, Canon t → OkHolds P (g (t, a))) : OkHolds P (x >>= g) := by
  cases x with
  | ok y => exact hg y.1 y.2 h
  | error _ => exact trivial
theorem CanonOpt.getD {x : Option State} (h : CanonOpt x) (hs : Canon s) : Canon (x.getD s) := by cases x; exact hs; exact h
theorem CanonOpt.some {x : Option State} (h : CanonOpt x) (e : x = .some t) : Canon t := by subst e; exact h

theorem Canon.ite {p : Prop} [Decidable p] (hs : Canon s) (ht : Canon t) : Canon (if p then s else t) := by split <;> assumption

theorem Canon.ite_fst {β : Type} {p : Prop} [Decidable p] {x y : State × β} (hx : Canon x.1) (hy : Canon y.1) : Canon (if p then x else y).1 := by
  split <;> assumption

theorem Canon.foldl_fst {α β : Type} {g : State × β → α → State × β} {xs : List α} {x : State × β} (hx : Canon x.1)
    (hg : ∀ x a, Canon x.1 → Canon (g x a).1) : Canon (xs.foldl g x).1 := by
  induction xs generalizing x with
  | nil => exact hx
  | cons a xs ih => exact ih (hg x a hx)

theorem CanonLeft.foldl {α β : Type} {g : State ⊕ β → α → State ⊕ β} {xs : List α} {x : State ⊕ β} (hx : CanonLeft x)
    (hg : ∀ x a, CanonLeft x → CanonLeft (g x a)) : CanonLeft (xs.foldl g x) := by
  induction xs generalizing x with
  | nil => exact hx
  | cons a xs ih => exact ih (hg x a hx)

theorem CanonBoth.inl {α β : Type} {x : (State × α) ⊕ (State × β)} {a : α} (h : CanonBoth x) (e : x = .inl (t, a)) : Canon t := by subst e; exact h
theorem CanonBoth.inr {α β : Type} {x : (State × α) ⊕ (State × β)} {b : β} (h : CanonBoth x) (e : x = .inr (t, b)) : Canon t := by subst e; exact h

theorem CanonBoth.ite {α β : Type} {p : Prop} [Decidable p] {x y : (State × α) ⊕ (State × β)} (hx : CanonBoth x) (hy : CanonBoth y) :
    CanonBoth (if p then x else y) := by split <;> assumption

theorem OkHolds.ite {ε γ : Type} {P : γ → Prop} {p : Prop} [Decidable p] {x y : Except ε γ} (hx : OkHolds P x) (hy : OkHolds P y) :
    OkHolds P (if p then x else y) := by split <;> assumption

theorem CanonOut.ite {p : Prop} [Decidable p] {x y : Out} (hx : CanonOut x) (hy : CanonOut y) : CanonOut (if p then x else y) := by
  split <;> assumption

theorem Canon.wrMs (hs : Canon s) {bs : List (Nat × Byte)} : Canon { s with mem := wrMs s.mem bs } := memory_wf_wrMs _ _ hs
theorem Canon.wrMN (hs : Canon s) {a : Nat} {bs : List Byte} : Canon { s with mem := wrMN s.mem a bs } := memory_wf_wrMN _ _ _ hs

theorem Canon.foldl {α : Type} {g : State → α → State} {xs : List α} (hs : Canon s) (hg : ∀ s x, Canon s → Canon (g s x)) : Canon (xs.foldl g s) := by
  induction xs generalizing s with
  | nil => exact hs
  | cons x xs ih => exact ih (hg s x hs)

/-- So is that of what a fetch gives. -/
def CanonFetched : Fetched → Prop
  | .run _ s => Canon s
  | .done s => Canon s

/-! ## Xlate -/

theorem Canon.setCore {c x} (hs : Canon s) : Canon (State.setCore s c x) := hs.of_mem

theorem Canon.updCore {c f} (hs : Canon s) : Canon (State.updCore s c f) := hs.of_mem

theorem Canon.setDie {d x} (hs : Canon s) : Canon (State.setDie s d x) := hs.of_mem

theorem Canon.updDie {d f} (hs : Canon s) : Canon (State.updDie s d f) := hs.of_mem

theorem Canon.updVat {v f} (hs : Canon s) : Canon (State.updVat s v f) := hs.of_mem

theorem Canon.updStrand {sid f} (hs : Canon s) : Canon (State.updStrand s sid f) := hs.of_mem

theorem Canon.updJob {j f} (hs : Canon s) : Canon (State.updJob s j f) := hs.of_mem

theorem Canon.updBatch {b f} (hs : Canon s) : Canon (State.updBatch s b f) := hs.of_mem

theorem Canon.updFrag {sid f g} (hs : Canon s) : Canon (State.updFrag s sid f g) := hs.of_mem

theorem Canon.tick (hs : Canon s) : Canon (State.tick s).2 :=
  hs.of_mem (quiet_tick _).mem

theorem Canon.dieXlate {ag asid va} (hs : Canon s) : Canon (dieXlate s ag asid va).2 :=
  hs.of_mem (quiet_dieXlate _ _ _ _).mem

theorem Canon.coreXlate {c slot asid batch va} (hs : Canon s) : Canon (coreXlate s c slot asid batch va).2 :=
  hs.of_mem (quiet_coreXlate _ _ _ _ _ _).mem

theorem Canon.pipeXlate {p c asid va} (hs : Canon s) : Canon (pipeXlate s p c asid va).2 :=
  hs.of_mem (quiet_pipeXlate _ _ _ _ _).mem

theorem Canon.putLocal {c sid unord bs acc} (hs : Canon s) : Canon (putLocal s c sid unord bs acc) := hs.of_mem

theorem Canon.rlbAgain {c key} (hs : Canon s) : Canon (rlbAgain s c key) := by
  unfold Machine.rlbAgain
  split; · exact hs.updCore
  exact hs

/-! ## Ops -/

theorem Canon.acts {sid} (hs : Canon s) : Canon (State.acts s sid) := hs.of_mem

theorem Canon.signs {sid f} (hs : Canon s) : Canon (State.signs s sid f) := hs.of_mem

theorem Canon.sends {sid f r} (hs : Canon s) : Canon (State.sends s sid f r) := by
  unfold Machine.State.sends
  split; · exact hs.acts.signs
  exact hs.acts

theorem Canon.log {j rec} (hs : Canon s) : Canon (State.log s j rec) :=
  hs.of_mem (quiet_log _ _ _).mem

theorem Canon.event {cause xs} (hs : Canon s) : Canon (State.event s cause xs) := hs.of_mem

theorem Canon.dropTeams {g} (hs : Canon s) : Canon (State.dropTeams s g) := hs.of_mem

theorem Canon.bill {j g} (hs : Canon s) : Canon (State.bill s j g) := by
  unfold Machine.State.bill
  dsimp only
  split; · exact hs
  exact hs.of_mem

theorem Canon.carry {j k} (hs : Canon s) : Canon (State.carry s j k) := by
  unfold Machine.State.carry
  exact hs.bill

theorem Canon.chargeBatch {b} (hs : Canon s) : Canon (chargeBatch s b) :=
  hs.of_mem (quiet_chargeBatch _ _).mem

theorem Canon.endJob {j cause rec} (hs : Canon s) : Canon (endJob s j cause rec) :=
  hs.of_mem (quiet_endJob _ _ _ _).mem

theorem Canon.endJobAt {sid f cause more} (hs : Canon s) : Canon (endJobAt s sid f cause more) :=
  hs.of_mem (quiet_endJobAt _ _ _ _ _).mem

theorem Canon.detAccess {sid st team va sec kind} (hs : Canon s) : CanonLeft (detAccess s sid st team va sec kind) := by
  cases e : Machine.detAccess s sid st team va sec kind with
  | inl t => exact hs.of_mem (quiet_detAccess e).mem
  | inr _ => exact trivial

theorem Canon.mailPut {src dst m} (hs : Canon s) : Canon (mailPut s src dst m) := hs.of_mem

theorem Canon.mailTake {dst} (hs : Canon s) : Canon (mailTake s dst) := hs.of_mem

theorem Canon.addFault {asid va pc mask w} (hs : Canon s) : Canon (State.addFault s asid va pc mask w).2 :=
  hs.of_mem (quiet_addFault _ _ _ _ _ _).mem

theorem Canon.abortTry {sid} (hs : Canon s) : Canon (abortTry s sid) :=
  hs.of_mem (quiet_abortTry _ _).mem

theorem Canon.strandXFail {sid f va r} (hs : Canon s) : Canon (strandXFail s sid f va r) :=
  hs.of_mem (quiet_strandXFail _ _ _ _ _).mem

theorem Canon.validateAll {sid f team kind st es} (hs : Canon s) : Canon (eitherState (validateAll s sid f team kind st es)) :=
  hs.of_mem (quiet_validateAll _ _ _ _ _ _ _).mem

theorem Canon.endRegion {sid f next tb} (hs : Canon s) : Canon (endRegion s sid f next tb).1 :=
  hs.of_mem (quiet_endRegion _ _ _ _ _).mem

theorem Canon.joinAll {sid} (hs : Canon s) : Canon (joinAll s sid) :=
  hs.of_mem (quiet_joinAll _ _).mem

theorem Canon.moveTo {sid f h pc} (hs : Canon s) : Canon (moveTo s sid f h pc) :=
  hs.of_mem (quiet_moveTo _ _ _ _ _).mem

theorem Canon.advance {sid f h} (hs : Canon s) : Canon (advance s sid f h) :=
  hs.of_mem (quiet_advance _ _ _ _).mem

theorem Canon.branchTo {sid f h pc} (hs : Canon s) : Canon (branchTo s sid f h pc) := by
  unfold Machine.branchTo
  split; · exact hs
  split
  · split; · exact hs.moveTo
    exact hs.endJobAt
  exact hs

theorem Canon.unblock {sid f} (hs : Canon s) : Canon (unblock s sid f) :=
  hs.of_mem (quiet_unblock _ _ _).mem

theorem Canon.setRgn {sid f pc} (hs : Canon s) : Canon (setRgn s sid f pc) := hs.of_mem

theorem Canon.unblockRgn {sid f} (hs : Canon s) : Canon (unblockRgn s sid f) :=
  hs.of_mem (quiet_unblockRgn _ _ _).mem

theorem Canon.writeArea {sid st ps bs} (hs : Canon s) : Canon (writeArea s sid st ps bs) := by
  unfold Machine.writeArea
  dsimp only
  exact Canon.foldl (Canon.wrMs (s := s.updStrand sid _) hs) fun _ _ hs => hs.putLocal

theorem Canon.enterHandler {sid f handler set} (hs : Canon s) : Canon (enterHandler s sid f handler set) := by
  unfold Machine.enterHandler
  dsimp only
  split; · exact hs.updStrand
  split
  · split; · exact hs.updStrand.endJobAt
    split; · exact hs.updStrand.endRegion.fst ‹_›
    next e =>
      split; · exact (hs.updStrand.endRegion.fst e).endJobAt
      exact (hs.updStrand.endRegion.fst e).writeArea.updStrand.updFrag
  exact hs.updStrand

theorem Canon.enterTrap {sid f cause k56} (hs : Canon s) : Canon (enterTrap s sid f cause k56) := by
  unfold Machine.enterTrap
  dsimp only
  split; · exact hs
  exact hs.enterHandler

theorem Canon.raiseUser {sid f cause k56} (hs : Canon s) : Canon (raiseUser s sid f cause k56) := by
  unfold Machine.raiseUser
  split; · exact hs
  split; · exact hs.endJobAt
  split; · exact hs.updFrag
  split; · exact hs.endJobAt
  split; · exact hs.updFrag
  split; · exact hs.updFrag
  exact hs.enterTrap

theorem Canon.trapsReady {sid} (hs : Canon s) : Canon (trapsReady s sid) := by
  unfold Machine.trapsReady
  split; · exact hs
  split; · exact hs
  refine hs.foldl fun _ _ hs => ?_
  split
  · split; · exact hs.raiseUser
    exact hs
  exact hs

theorem Canon.leaveHandler {sid f pc set h} (hs : Canon s) : Canon (leaveHandler s sid f pc set h) := by
  unfold Machine.leaveHandler
  dsimp only
  split; · exact hs
  split; · exact hs
  split; · exact hs.endJobAt
  split; · exact hs.endRegion.fst ‹_›
  next e =>
    split; · exact (hs.endRegion.fst e).updStrand.moveTo
    exact (hs.endRegion.fst e).endJobAt

theorem Canon.abandon {sid f fr} (hs : Canon s) : Canon (abandon s sid f fr) := by
  unfold Machine.abandon
  dsimp only
  split
  · exact hs.updStrand
  · exact hs.updStrand
  · exact hs.updStrand
  · split; · exact hs
    exact hs.unblock
  exact hs.updStrand

theorem Canon.trapOut {c cause} (hs : Canon s) : CanonOut (trapOut s c cause) := by
  unfold Machine.trapOut
  exact hs.raiseUser

theorem Canon.supOut {c cause} (hs : Canon s) : CanonOut (supOut s c cause) := by
  unfold Machine.supOut
  exact hs.endJobAt

theorem Canon.issueChecks {h u sid f st fr body} (hs : Canon s) (hb : ∀ c t, Canon t → CanonOut (body c t)) :
  CanonOut (issueChecks h u s sid f st fr body) := by
  unfold Machine.issueChecks
  dsimp only
  split; · exact hs.of_mem
  split; · exact hs.of_mem
  split; · exact hs.supOut
  split; · exact hs.trapOut
  split; · exact hs.trapOut
  split; · exact hs.raiseUser
  exact hb _ _ hs.of_mem

theorem Canon.issue {h u body} (hs : Canon s) (hb : ∀ c t, Canon t → CanonOut (body c t)) : CanonOut (issue h u s body) := by
  unfold Machine.issue
  split; · exact trivial
  split; · exact trivial
  split; · exact trivial
  exact hs.of_mem.issueChecks hb

theorem Canon.laneOp {h lat u body} (hs : Canon s) : CanonOut (laneOp h lat u s body) := by
  unfold Machine.laneOp
  refine hs.issue fun c s hs => ?_
  split; · exact hs.trapOut
  exact hs.updStrand.advance

theorem Canon.laneOpT {h u body} (hs : Canon s) : CanonOut (laneOpT h u s body) := by
  unfold Machine.laneOpT
  refine hs.issue fun c s hs => ?_
  split; · exact hs.trapOut
  exact hs.updStrand.advance

end Sys2Proof.Machine
end

section
/-!
# Canonical memory (O56): Integer, Float, CrossLane, Barrier, Leave, Control and Moment
-/
-- One theorem at a time: the chain of these lemmas is too long for the threads of an elaborator that runs ahead.
set_option Elab.async false
namespace Sys2Proof.Machine
variable {s t : State}

/-! ## Integer -/

theorem Canon.intBin {h ty lat d src g} (hs : Canon s) : CanonOut (intBin h ty lat d src s g) := by
  unfold Machine.intBin
  dsimp only
  exact hs.laneOp

theorem Canon.intCarry {h ty q d src sub} (hs : Canon s) : CanonOut (intCarry h ty q d src s sub) := by
  unfold Machine.intCarry
  dsimp only
  exact hs.laneOp

theorem Canon.execIadd {h ty md d src} (hs : Canon s) : CanonOut (execIadd h ty md d src s) := by
  unfold Machine.execIadd
  split
  · exact hs.intCarry
  · exact hs.intBin
  exact hs.intBin

theorem Canon.execIsub {h ty md d src} (hs : Canon s) : CanonOut (execIsub h ty md d src s) := by
  unfold Machine.execIsub
  split
  · exact hs.intCarry
  · exact hs.intBin
  exact hs.intBin

theorem Canon.intTri {h ty lat d a b g} (hs : Canon s) : CanonOut (intTri h ty lat d a b s g) := by
  unfold Machine.intTri
  dsimp only
  exact hs.laneOp

theorem Canon.bitsUn {h ty lat d a g} (hs : Canon s) : CanonOut (bitsUn h ty lat d a s g) := by
  unfold Machine.bitsUn
  dsimp only
  exact hs.laneOp

theorem Canon.bitsBin {h ty d src g} (hs : Canon s) : CanonOut (bitsBin h ty d src s g) := by
  unfold Machine.bitsBin
  dsimp only
  exact hs.laneOp

theorem Canon.shiftOp {h ty d a b g} (hs : Canon s) : CanonOut (shiftOp h ty d a b s g) := by
  unfold Machine.shiftOp
  dsimp only
  exact hs.laneOp

theorem Canon.countOp {h ty d a g} (hs : Canon s) : CanonOut (countOp h ty d a s g) := by
  unfold Machine.countOp
  exact hs.laneOp

/-! ## Float -/

theorem Canon.flBin {h ty x2 lat d src g} (hs : Canon s) : CanonOut (flBin h ty x2 lat d src s g) := by
  unfold Machine.flBin
  dsimp only
  exact hs.laneOp

theorem Canon.flUn {h ty x2 lat d a g} (hs : Canon s) : CanonOut (flUn h ty x2 lat d a s g) := by
  unfold Machine.flUn
  dsimp only
  exact hs.laneOp

theorem Canon.flUnT {h ty d a g} (hs : Canon s) : CanonOut (flUnT h ty d a s g) := by
  unfold Machine.flUnT
  dsimp only
  exact hs.laneOpT

/-! ## CrossLane -/

theorem Canon.execPmov {h fm d a b} (hs : Canon s) : CanonOut (execPmov h fm d a b s) := by
  unfold Machine.execPmov
  split <;> exact hs.laneOp

theorem Canon.rdvRelease {sid lat f} (hs : Canon s) : Canon (rdvRelease s sid lat f) := by
  unfold Machine.rdvRelease
  exact hs.updFrag.unblock

theorem Canon.rdvOnce {sid} (hs : Canon s) : CanonOpt (rdvOnce s sid) := by
  unfold Machine.rdvOnce
  dsimp only
  split; · exact trivial
  split; · exact trivial
  split; · exact hs.of_mem
  split
  · split
    · next e => exact .of_fst e (.endRegion (.foldl hs.of_mem fun _ _ hs => hs.updStrand))
    next e =>
      have ended := Canon.of_fst e (.endRegion (.foldl hs.of_mem fun _ _ hs => hs.updStrand))
      refine .foldl (.foldl ended.acts fun _ _ hs => hs.updFrag) fun _ _ hs => ?_
      exact .ite hs.rdvRelease hs.updFrag
  · exact .foldl (.foldl hs.of_mem fun _ _ hs => hs.updStrand) fun _ _ hs => hs.rdvRelease

theorem Canon.rdvTry {sid fuel} (hs : Canon s) : Canon (rdvTry s sid fuel) := by
  induction fuel generalizing s with
  | zero => exact hs
  | succ n ih =>
  unfold Machine.rdvTry
  split; · exact hs
  exact ih (hs.rdvOnce.some ‹_›)

theorem Canon.drainWake {sid} (hs : Canon s) : Canon (drainWake s sid) := by
  unfold Machine.drainWake
  split; · exact hs
  split
  · refine hs.foldl fun _ _ hs => ?_
    split; · exact hs.unblock
    exact hs
  exact hs

theorem Canon.rdvIssue {i h mask c} (hs : Canon s) : CanonOut (rdvIssue i h mask c s) := by
  unfold Machine.rdvIssue
  dsimp only
  split; · exact hs.trapOut
  split; · exact hs.advance
  split
  · split; · exact hs.trapOut
    exact hs.updStrand.rdvTry
  exact hs.of_mem.updStrand.rdvTry

theorem Canon.execBallot {h d a b} (hs : Canon s) : CanonOut (execBallot h d a b s) := by
  unfold Machine.execBallot
  refine hs.issue fun c s hs => ?_
  exact hs.rdvIssue

theorem Canon.execShfl {h ty vp md d a b} (hs : Canon s) : CanonOut (execShfl h ty vp md d a b s) := by
  unfold Machine.execShfl
  dsimp only
  refine hs.issue fun c s hs => ?_
  exact hs.rdvIssue

theorem Canon.execRedx {h ty op d a b} (hs : Canon s) : CanonOut (execRedx h ty op d a b s) := by
  unfold Machine.execRedx
  dsimp only
  refine hs.issue fun c s hs => ?_
  exact hs.rdvIssue

theorem Canon.execScan {h ty op ex d a b} (hs : Canon s) : CanonOut (execScan h ty op ex d a b s) := by
  unfold Machine.execScan
  dsimp only
  refine hs.issue fun c s hs => ?_
  exact hs.rdvIssue

theorem Canon.execMatchx {h ty vp al d a b} (hs : Canon s) : CanonOut (execMatchx h ty vp al d a b s) := by
  unfold Machine.execMatchx
  refine hs.issue fun c s hs => ?_
  exact hs.rdvIssue

/-! ## Barrier -/

theorem Canon.teamSettle {tk} (hs : Canon s) : Canon (teamSettle s tk) := by
  unfold Machine.teamSettle
  split; · exact hs
  split; · exact hs
  split; · exact hs.dropTeams
  exact hs.of_mem

theorem Canon.settleTeams (hs : Canon s) : Canon (settleTeams s) := by
  unfold Machine.settleTeams
  exact hs.foldl fun _ _ hs => hs.teamSettle

theorem Canon.completePhase {tk t} (hs : Canon s) : Canon (completePhase s tk t) := by
  unfold Machine.completePhase
  dsimp only
  exact hs.of_mem.teamSettle

theorem Canon.topCheck {tk} (hs : Canon s) : Canon (topCheck s tk) := by
  unfold Machine.topCheck
  split; · exact hs
  split; · exact hs
  exact hs.completePhase

theorem Canon.arrive {tk sid} (hs : Canon s) : Canon (arrive s tk sid) := by
  unfold Machine.arrive
  dsimp only
  split
  · split; · exact hs
    refine Canon.topCheck ?_
    split; · exact hs.of_mem.updCore
    exact hs.of_mem
  exact hs

theorem Canon.tbarTry {sid} (hs : Canon s) : Canon (tbarTry s sid) := by
  unfold Machine.tbarTry
  dsimp only
  split; · exact hs
  refine hs.foldl fun _ _ hs => ?_
  split; · exact hs
  split; · exact hs
  split; · exact hs.arrive
  split; · exact hs.acts.arrive
  exact hs.tick.updStrand

theorem Canon.dropRlb {c sc} (hs : Canon s) : Canon (dropRlb s c sc) := by
  unfold Machine.dropRlb
  split; · exact hs
  exact hs.updCore

theorem Canon.releaseSlot {c tk} (hs : Canon s) : Canon (releaseSlot s c tk) := by
  unfold Machine.releaseSlot
  dsimp only
  split; · exact hs
  refine .foldl ?_ fun _ _ hs => .ite (.foldl hs fun _ _ hs => ?_) hs
  · split; · exact Canon.updCore hs.of_mem
    exact hs.of_mem
  split
  · split; · exact .ite hs.unblockRgn.dropRlb hs.unblockRgn
    exact hs
  exact hs

theorem Canon.teamPrune {tk} (hs : Canon s) : Canon (teamPrune s tk) := by
  unfold Machine.teamPrune
  dsimp only
  split; · exact hs
  split; · exact hs.of_mem.dropTeams
  exact hs.of_mem

/-! ## Leave -/

theorem Canon.batchEnd {bid} (hs : Canon s) : Canon (batchEnd s bid) := by
  unfold Machine.batchEnd
  split; · exact hs
  extract_lets sts
  split; · exact hs
  rename_i s0 s1 s2 tks s3 n pick s4 _
  have logged : Canon s1 := .ite hs.chargeBatch.log hs.chargeBatch
  have dissolved : Canon s3 := .foldl (logged.of_mem : Canon s2) fun _ _ hs => by
    split; · exact Canon.dropTeams hs.of_mem
    exact hs
  exact .ite dissolved.of_mem dissolved.of_mem

theorem Canon.finishStrand {sid} (hs : Canon s) : Canon (finishStrand s sid) := by
  unfold Machine.finishStrand
  split; · exact hs
  split; · exact hs
  split; · exact hs.endJob
  exact hs.batchEnd

theorem Canon.endStrand {sid pc} (hs : Canon s) : Canon (endStrand s sid pc) := by
  unfold Machine.endStrand
  dsimp only
  split; · exact hs
  exact hs.of_mem.finishStrand

theorem Canon.afterLeave {sid pc} (hs : Canon s) : Canon (afterLeave s sid pc) := by
  unfold Machine.afterLeave
  dsimp only
  split; · exact hs
  split; · exact hs.endStrand
  exact hs.of_mem.joinAll.rdvTry.tbarTry

theorem Canon.exitThreads {sid m pc} (hs : Canon s) : Canon (exitThreads s sid m pc) := by
  unfold Machine.exitThreads
  dsimp only
  exact hs.updStrand.afterLeave

theorem Canon.faultThreads {sid m pc} (hs : Canon s) : Canon (faultThreads s sid m pc) := by
  unfold Machine.faultThreads
  dsimp only
  split; · exact hs
  exact hs.updStrand.afterLeave

theorem Canon.killThreads {sid m pc} (hs : Canon s) : Canon (killThreads s sid m pc) := by
  unfold Machine.killThreads
  dsimp only
  split; · exact hs
  exact hs.event.updStrand.afterLeave

/-! ## Control -/

theorem Canon.branch {h c taken marks ws} (hs : Canon s) : Canon (branch h c s taken marks ws) := by
  unfold Machine.branch
  dsimp only
  split; · exact hs
  split; · exact hs.endJobAt
  split; · exact hs
  split; · exact hs.raiseUser
  split; · exact hs.updStrand.endJobAt
  exact hs.of_mem.joinAll

theorem Canon.branchUni {h c pc marks ws} (hs : Canon s) : Canon (branchUni h c s pc marks ws) := by
  unfold Machine.branchUni
  split; · exact hs.advance
  split; · exact hs
  split; · exact hs.endJobAt
  exact hs.updStrand.branchTo

theorem Canon.execBra {h off} (hs : Canon s) : CanonOut (execBra h off s) := by
  unfold Machine.execBra
  dsimp only
  refine hs.issue fun c s hs => ?_
  split; · exact hs.branchUni
  split; · exact hs.supOut
  exact hs.branch

theorem Canon.branchReg {h a} (hs : Canon s) : CanonOut (branchReg h a s) := by
  unfold Machine.branchReg
  refine hs.issue fun c s hs => ?_
  split; · exact hs.branchUni
  exact hs.branch

theorem Canon.execCall {h d off} (hs : Canon s) : CanonOut (execCall h d off s) := by
  unfold Machine.execCall
  dsimp only
  refine hs.issue fun c s hs => ?_
  split; · exact hs.branchUni
  split; · exact hs.supOut
  exact hs.branch

theorem Canon.execRcv {h off} (hs : Canon s) : CanonOut (execRcv h off s) := by
  unfold Machine.execRcv
  dsimp only
  refine hs.issue fun c s hs => ?_
  split; · exact hs
  split; · exact hs.supOut
  split; · exact hs.trapOut
  exact hs.updStrand.advance

theorem Canon.execExit {h} (hs : Canon s) : CanonOut (execExit h s) := by
  unfold Machine.execExit
  dsimp only
  refine hs.issue fun c s hs => ?_
  split; · exact hs.updFrag
  split; · exact hs.advance
  split; · exact hs.updStrand.endRegion.fst ‹_›
  next e => exact Canon.ite (hs.updStrand.endRegion.fst e).exitThreads (hs.updStrand.endRegion.fst e).exitThreads.advance

theorem Canon.execNop {h} (hs : Canon s) : CanonOut (execNop h s) := by
  unfold Machine.execNop
  refine hs.issue fun c s hs => ?_
  exact hs.advance

theorem Canon.execYld {h} (hs : Canon s) : CanonOut (execYld h s) := by
  unfold Machine.execYld
  refine hs.issue fun c s hs => ?_
  exact hs.advance

/-! ## Moment -/

theorem Canon.momBin {h lat cov rnd d a b g} (hs : Canon s) : CanonOut (momBin h lat cov rnd d a b s g) := by
  unfold Machine.momBin
  dsimp only
  exact hs.laneOp

theorem Canon.momFunOp {h d a g} (hs : Canon s) : CanonOut (momFunOp h d a s g) := by
  unfold Machine.momFunOp
  exact hs.laneOpT

end Sys2Proof.Machine
end

section
/-!
# Canonical memory (O56): Access, Scratch and Memory
-/
-- One theorem at a time: the chain of these lemmas is too long for the threads of an elaborator that runs ahead.
set_option Elab.async false
namespace Sys2Proof.Machine
variable {s t : State}

/-! ## Access -/

theorem Canon.stay {sid f} (hs : Canon s) : Canon (stay s sid f) := hs.of_mem

theorem Canon.ready {sid f} (hs : Canon s) : Canon (State.ready s sid f) := by
  unfold Machine.State.ready
  split; · exact hs
  exact hs.updFrag

theorem Canon.afterLand {sid} (hs : Canon s) : Canon (afterLand s sid) := by
  unfold Machine.afterLand
  dsimp only
  split; · exact hs
  refine Canon.finishStrand ?_
  refine Canon.abortTry ?_
  refine Canon.drainWake ?_
  refine Canon.trapsReady ?_
  refine hs.foldl fun _ _ hs => ?_
  split; · exact hs.ready
  exact hs

theorem Canon.xlateElems {c write xs} (hs : Canon s) : Canon (eitherState (xlateElems s c write xs)) := by
  induction xs generalizing s with
  | nil => exact hs
  | cons x xs ih =>
    unfold Machine.xlateElems
    split
    · split; · exact (hs.coreXlate.snd ‹_›).endJobAt
      split; · exact (ih (hs.coreXlate.snd ‹_›)).inl ‹_›
      exact (ih (hs.coreXlate.snd ‹_›)).inr ‹_›
    · exact (hs.coreXlate.snd ‹_›).raiseUser
    exact (hs.coreXlate.snd ‹_›).strandXFail

theorem Canon.gblPlaces {c write w bad xs} (hs : Canon s) : Canon (eitherState (gblPlaces s c write w bad xs)) := by
  unfold Machine.gblPlaces
  split; · exact hs.raiseUser
  split; · exact hs.xlateElems.inr ‹_›
  split; · exact (hs.xlateElems.inl ‹_›).raiseUser
  exact hs.xlateElems.inl ‹_›

theorem Canon.forceCommit {sid f} (hs : Canon s) : Canon (forceCommit s sid f).1 := by
  unfold Machine.forceCommit
  dsimp only
  split; · exact hs
  split; · exact hs.validateAll.inr ‹_›
  exact (hs.validateAll.inl ‹_›).of_mem.updStrand

theorem Canon.waitRsb {sid f} (hs : Canon s) : Canon (waitRsb s sid f) := hs.of_mem

theorem Canon.bufferAll {sid xs} (hs : Canon s) : Canon (bufferAll s sid xs) := by
  unfold Machine.bufferAll
  dsimp only
  refine hs.foldl fun _ _ hs => ?_
  refine hs.foldl fun _ _ hs => ?_
  exact hs.of_mem.updStrand

theorem Canon.rsbRoom {sid f xs} (hs : Canon s) : Canon (rsbRoom s sid f xs).1 := by
  unfold Machine.rsbRoom
  dsimp only
  split; · exact hs
  split; · exact hs
  split
  · split
    · split; · exact (hs.forceCommit.fst ‹_›).waitRsb
      exact hs.forceCommit.fst ‹_›
    exact hs.waitRsb
  split
  · split
    · split; · exact (hs.forceCommit.fst ‹_›).waitRsb
      exact hs.forceCommit.fst ‹_›
    exact hs.waitRsb
  exact hs

theorem Canon.sendPkt {k} (hs : Canon s) : Canon (sendPkt s k) := hs.of_mem

theorem Canon.passPkt {home k} (hs : Canon s) : Canon (passPkt s home k) := by
  unfold Machine.passPkt
  dsimp only
  split; · exact hs
  exact hs.of_mem

theorem Canon.sendLine {c l} (hs : Canon s) : Canon (sendLine s c l) := by
  unfold Machine.sendLine
  dsimp only
  exact (hs.sendPkt.foldl fun _ _ hs => hs.carry).updCore

theorem Canon.trySend {c l} (hs : Canon s) : Canon (trySend s c l) := by
  unfold Machine.trySend
  split; · exact hs
  split; · exact hs.updCore
  exact hs.sendLine

theorem Canon.wcbRoom {c home pa} (hs : Canon s) : Canon (wcbRoom s c home pa).1 := by
  unfold Machine.wcbRoom
  dsimp only
  split; · exact hs
  split; · exact hs.trySend
  exact hs

theorem Canon.wcbPut {c sid home unord bs} (hs : Canon s) : Canon (wcbPut s c sid home unord bs) := by
  unfold Machine.wcbPut
  dsimp only
  split; · exact hs
  split; · exact hs.updCore
  exact hs.of_mem.updCore

theorem Canon.drainBytes {c sid home unord bs acc} (hs : Canon s) : Canon (drainBytes s c sid home unord bs acc) := by
  unfold Machine.drainBytes
  split; · exact hs.putLocal
  exact hs.wcbPut

theorem Canon.drainCells {c sid home unord bs} (hs : Canon s) : Canon (drainCells s c sid home unord bs) := by
  unfold Machine.drainCells
  exact hs.foldl fun _ _ hs => hs.drainBytes

theorem Canon.hartRefused {hart unit pa wr} (hs : Canon s) : Canon (hartRefused s hart unit pa wr) := hs.of_mem

theorem Canon.hartDenied {hart pa wr} (hs : Canon s) : Canon (hartDenied s hart pa wr) := hs.of_mem

theorem Canon.hartWrite {hart pa bs} (hs : Canon s) : Canon (hartWrite s hart pa bs) := by
  unfold Machine.hartWrite
  split; · exact hs.wrMN
  exact hs.hartDenied

theorem Canon.hostReads {bs} (hs : Canon s) : Canon (State.hostReads s bs) := hs.of_mem

theorem Canon.hostDenied {fn unit pa len wr} (hs : Canon s) : Canon (hostDenied s fn unit pa len wr) := by
  unfold Machine.hostDenied
  dsimp only
  split; · exact hs.event
  exact hs.event.hostReads

theorem Canon.regWrite {r put} (hs : Canon s) (hput : ∀ t, Canon t → Canon (put t)) : Canon (State.regWrite s r put) := by
  unfold Machine.State.regWrite
  split; · exact hput _ hs
  split; · exact hs.hostDenied
  exact hs.hartRefused

theorem Canon.installRlb {st t p} (hs : Canon s) : Canon (installRlb s st t p) := by
  unfold Machine.installRlb
  split; · exact hs
  refine hs.foldl fun _ _ hs => ?_
  split; · exact hs.updCore
  exact hs

theorem Canon.sendPart {c l p} (hs : Canon s) : Canon (sendPart s c l p) := by
  unfold Machine.sendPart
  dsimp only
  split; · exact hs.trySend
  exact hs.trySend.updCore

theorem Canon.release {sid f sc un} (hs : Canon s) : Canon (release s sid f sc un).1 := by
  unfold Machine.release
  dsimp only
  split; · exact hs
  split; · exact hs
  split; · exact hs.acts
  exact hs.of_mem.stay.updFrag

/-! ## Scratch -/

theorem Canon.writeScr {bid bs} (hs : Canon s) : Canon (writeScr s bid bs) := hs.of_mem

theorem Canon.scrPlaces {c w xs} (hs : Canon s) : Canon (eitherState (scrPlaces s c w xs)) := by
  unfold Machine.scrPlaces
  dsimp only
  split; · exact hs.faultThreads.raiseUser
  exact hs.faultThreads

theorem Canon.xbWake {bid} (hs : Canon s) : Canon (xbWake s bid) := by
  unfold Machine.xbWake
  split; · exact hs
  refine hs.foldl fun _ _ hs => ?_
  split; · exact hs
  refine hs.foldl fun _ _ hs => ?_
  split
  · split; · exact hs.unblock.dropRlb
    exact hs
  exact hs

theorem Canon.xbUpdate {bid off g} (hs : Canon s) : Canon (xbUpdate s bid off g) := by
  unfold Machine.xbUpdate
  exact hs.writeScr.xbWake

theorem Canon.storeScr {bid bs} (hs : Canon s) : Canon (storeScr s bid bs) := by
  unfold Machine.storeScr
  exact hs.writeScr.xbWake

/-! ## Memory -/

theorem Canon.execLds {h ty _sc _kd d a b} (hs : Canon s) : CanonOut (execLds h ty _sc _kd d a b s) := by
  unfold Machine.execLds
  dsimp only
  refine hs.issue fun c s hs => ?_
  split; · exact hs.stay
  split
  · exact hs.scrPlaces.inr ‹_›
  · exact (hs.scrPlaces.inl ‹_›).advance
  exact (hs.scrPlaces.inl ‹_›).updStrand.advance

theorem Canon.execSts {h ty _sc kd d a b} (hs : Canon s) : CanonOut (execSts h ty _sc kd d a b s) := by
  unfold Machine.execSts
  dsimp only
  refine hs.issue fun c s hs => ?_
  split; · exact hs.stay
  split
  · exact hs.scrPlaces.inr ‹_›
  · exact (hs.scrPlaces.inl ‹_›).advance
  split
  · split; · exact (hs.scrPlaces.inl ‹_›).endRegion.fst ‹_›
    exact ((hs.scrPlaces.inl ‹_›).endRegion.fst ‹_›).acts.storeScr.advance
  exact (hs.scrPlaces.inl ‹_›).storeScr.advance

theorem Canon.detAccs {sid kind accs} (hs : Canon s) : CanonLeft (detAccs s sid kind accs) := by
  unfold Machine.detAccs
  refine CanonLeft.foldl (x := .inl s) hs fun x _ hx => ?_
  split; · exact trivial
  split; · exact hx
  exact Canon.detAccess hx

theorem Canon.detPerform {sid kind accs} (hs : Canon s) : Canon (detPerform s sid kind accs).1 := by
  unfold Machine.detPerform
  split; · exact hs.detAccs.left ‹_›
  exact hs.endJob

theorem Canon.lineWait {c h id strong} (hs : Canon s) : Canon (lineWait s c h id strong) := hs.of_mem

theorem Canon.replace {c ps} (hs : Canon s) : Canon (replace s c ps) := hs.of_mem

theorem Canon.startLoad {h c d marks acq accs} (hs : Canon s) : Canon (startLoad h c s d marks acq accs) := by
  unfold Machine.startLoad
  dsimp only
  split; · exact hs
  split; · exact hs.stay
  split; · exact hs.replace
  split
  · split; · exact hs.endRegion.fst ‹_›
    split; · exact (hs.endRegion.fst ‹_›).acts.updStrand.lineWait
    exact (hs.endRegion.fst ‹_›).acts.updStrand.advance
  split; · exact hs.updStrand.lineWait
  exact hs.updStrand.advance

theorem Canon.execLd {h ty sc kd d a b} (hs : Canon s) : CanonOut (execLd h ty sc kd d a b s) := by
  unfold Machine.execLd
  dsimp only
  refine hs.issue fun c s hs => ?_
  split; · exact hs.advance
  split; · exact hs.gblPlaces.inr ‹_›
  exact (hs.gblPlaces.inl ‹_›).startLoad

theorem Canon.flyStores {c xs} (hs : Canon s) : Canon (flyStores s c xs) := hs.of_mem

theorem Canon.startStore {h c rel fl mfl xs} (hs : Canon s) : Canon (startStore h c s rel fl mfl xs) := by
  unfold Machine.startStore
  dsimp only
  split; · exact hs
  split; · exact hs.stay
  split; · exact hs.replace
  split
  · split; · exact hs.endRegion.fst ‹_›
    next e1 =>
      have ended := hs.endRegion.fst e1
      split
      · next e => exact .of_fst e (.ite_fst ended ended.release)
      · next e => exact (Canon.of_fst e (.ite_fst ended ended.release)).flyStores.setRgn.updStrand.advance
  · split
    · next e => exact .of_fst e (.ite_fst hs hs.endRegion)
    · next e =>
      have ended := Canon.of_fst e (.ite_fst hs hs.endRegion)
      split
      · exact ended.rsbRoom.fst ‹_›
      · next e2 => exact (Canon.bufferAll (.ite (ended.rsbRoom.fst e2) (ended.rsbRoom.fst e2).flyStores.setRgn)).updStrand.advance

theorem Canon.execSt {h ty sc kd d a b} (hs : Canon s) : CanonOut (execSt h ty sc kd d a b s) := by
  unfold Machine.execSt
  dsimp only
  refine hs.issue fun c s hs => ?_
  split; · exact hs.advance
  split; · exact hs.gblPlaces.inr ‹_›
  exact (hs.gblPlaces.inl ‹_›).startStore

theorem Canon.fmtPlaces {c write w fmt xs} (hs : Canon s) : Canon (eitherState (fmtPlaces s c write w fmt xs)) := by
  unfold Machine.fmtPlaces
  exact hs.gblPlaces

theorem Canon.pageFmt {c write t p} (hs : Canon s) : Canon (eitherState (pageFmt s c write t p)) := by
  unfold Machine.pageFmt
  split; · exact hs.xlateElems.inr ‹_›
  exact hs.xlateElems.inl ‹_›

theorem Canon.userCause {c cause} (hs : Canon s) : Canon (userCause s c cause) := by
  unfold Machine.userCause
  exact hs.raiseUser

theorem Canon.execLdb {h ty d a b} (hs : Canon s) : CanonOut (execLdb h ty d a b s) := by
  unfold Machine.execLdb
  dsimp only
  refine hs.issue fun c s hs => ?_
  split; · exact hs.advance
  split; · exact hs.pageFmt.inr ‹_›
  next e =>
    have page := hs.pageFmt.inl e
    refine .ite page.userCause (.ite page.userCause (.ite ?_ (.ite ?_ (.ite ?_ ?_))))
    · split; · exact page.fmtPlaces.inr ‹_›
      exact (page.fmtPlaces.inl ‹_›).startLoad
    · split; · exact page.xlateElems.inr ‹_›
      split; · exact page.xlateElems.inl ‹_›
      exact (page.xlateElems.inl ‹_›).startLoad
    · split; · exact page.fmtPlaces.inr ‹_›
      exact (page.fmtPlaces.inl ‹_›).startLoad
    · split; · exact page.fmtPlaces.inr ‹_›
      exact (page.fmtPlaces.inl ‹_›).startLoad

theorem Canon.execStb {h ty d a b} (hs : Canon s) : CanonOut (execStb h ty d a b s) := by
  unfold Machine.execStb
  dsimp only
  refine hs.issue fun c s hs => ?_
  split; · exact hs.advance
  split; · exact hs.pageFmt.inr ‹_›
  next e =>
    have page := hs.pageFmt.inl e
    refine .ite ?_ (.ite (.ite page.userCause ?_)
      (.ite (.ite page.updFrag (.ite page.userCause (.ite page.userCause (.ite page.userCause ?_)))) page.userCause))
    · split; · exact page.fmtPlaces.inr ‹_›
      exact (page.fmtPlaces.inl ‹_›).startStore
    · split; · exact page.fmtPlaces.inr ‹_›
      next e2 => exact .ite (page.fmtPlaces.inl e2).userCause (page.fmtPlaces.inl e2).startStore
    · split; · exact page.xlateElems.inr ‹_›
      next e2 =>
        have line := page.xlateElems.inl e2
        split
        · repeat' split
          all_goals
            refine Canon.startStore ?_
            exact line.of_mem
        · exact line

theorem Canon.atsOp {op h ty d a b} (hs : Canon s) : CanonOut (atsOp op h ty d a b s) := by
  unfold Machine.atsOp
  dsimp only
  refine hs.issue fun c s hs => ?_
  split; · exact hs.stay
  split
  · exact hs.scrPlaces.inr ‹_›
  · exact (hs.scrPlaces.inl ‹_›).advance
  · next e =>
    split; · exact (hs.scrPlaces.inl e).endRegion.fst ‹_›
    next e2 =>
      refine Canon.advance (.updStrand (.xbWake (.acts (.foldl_fst ((hs.scrPlaces.inl e).endRegion.fst e2) fun x a hx => ?_))))
      exact hx.writeScr

theorem Canon.atgOp {op h ty sc kd d a b} (hs : Canon s) : CanonOut (atgOp op h ty sc kd d a b s) := by
  unfold Machine.atgOp
  dsimp only
  refine hs.issue fun c s hs => ?_
  split; · exact hs.advance
  split; · exact hs.gblPlaces.inr ‹_›
  next e =>
    have placed := hs.gblPlaces.inl e
    refine .ite placed.stay ?_
    split; · exact placed.endRegion.fst ‹_›
    next e2 =>
      have ended := placed.endRegion.fst e2
      split
      · next e3 => exact .of_fst e3 (.ite_fst ended.release ended)
      · next e3 => exact (Canon.of_fst e3 (.ite_fst ended.release ended)).updStrand.acts.setRgn.advance

theorem Canon.acquireOf {core op} (hs : Canon s) : Canon (acquireOf s core op) := by
  unfold Machine.acquireOf
  split
  · exact hs.dropRlb
  · split; · exact hs.dropRlb
    exact hs
  exact hs

theorem Canon.lineDone {sid id} (hs : Canon s) : Canon (lineDone s sid id) := by
  unfold Machine.lineDone
  split; · exact hs
  refine hs.foldl fun _ _ hs => ?_
  split
  · split
    · split; · exact hs.unblockRgn
      exact hs.unblock
    exact hs
  exact hs

theorem Canon.lineBad {sid p} (hs : Canon s) : Canon (lineBad s sid p) := by
  unfold Machine.lineBad
  exact hs.updStrand.raiseUser.afterLand

theorem Canon.landPend {sid st p} (hs : Canon s) : Canon (landPend s sid st p) := by
  unfold Machine.landPend
  dsimp only
  exact hs.acquireOf.updStrand.lineDone.afterLand

theorem Canon.elemDone {sid id t ws fl} (hs : Canon s) : Canon (elemDone s sid id t ws fl) := by
  unfold Machine.elemDone
  dsimp only
  split; · exact hs
  split; · exact hs
  split; · exact hs.landPend
  exact hs.updStrand

theorem Canon.sendReq {sid st p t k x} (hs : Canon s) : Canon (sendReq s sid st p t k x) := by
  unfold Machine.sendReq
  split; · exact hs
  exact hs.sendPkt.carry

theorem Canon.goLoad {sid st p d a} (hs : Canon s) : Canon (goLoad s sid st p d a) := by
  unfold Machine.goLoad
  dsimp only
  split; · exact hs.sendPart
  split; · exact hs.sendReq
  split; · exact hs.lineBad
  split; · exact hs.detPerform.fst ‹_›
  exact ((hs.detPerform.fst ‹_›).foldl fun _ _ hs => hs.foldl fun _ _ hs => hs.installRlb).elemDone

theorem Canon.goAtom {sid st p op ty d a} (hs : Canon s) : Canon (goAtom s sid st p op ty d a) := by
  unfold Machine.goAtom
  dsimp only
  split; · exact hs.trySend
  split; · exact hs
  split; · exact hs.sendReq
  split; · exact hs.detPerform.fst ‹_›
  exact (hs.detPerform.fst ‹_›).wrMs.rlbAgain.elemDone

theorem Canon.goStore {sid st p a} (hs : Canon s) : Canon (goStore s sid st p a) := by
  unfold Machine.goStore
  dsimp only
  split
  · split; · exact hs
    split
    · split; · exact hs.sendReq
      exact hs.wrMs.foldl fun _ _ hs => hs.elemDone
    split; · exact hs.wcbRoom.fst ‹_›
    split; · exact hs.wcbRoom.fst ‹_›
    split; · exact (hs.wcbRoom.fst ‹_›).detPerform.fst ‹_›
    exact ((hs.wcbRoom.fst ‹_›).detPerform.fst ‹_›).drainCells.foldl fun _ _ hs => hs.elemDone
  exact hs

theorem Canon.goElem {sid id t} (hs : Canon s) : Canon (goElem s sid id t) := by
  unfold Machine.goElem
  split; · exact hs
  split; · exact hs
  split; · exact hs
  split; · exact hs
  split
  · exact hs
  · exact hs.goLoad
  · exact hs.goAtom
  exact hs.goStore

theorem Canon.execTrackedWriteLand {sid n} (hs : Canon s) : CanonOut (execTrackedWriteLand sid n s) := by
  unfold Machine.execTrackedWriteLand
  dsimp only
  split; · exact hs
  split; · exact hs
  split; · exact hs.landPend
  exact hs.foldl fun _ _ hs => hs.goElem

theorem Canon.applyReq {sid id t} (hs : Canon s) : Canon (applyReq s sid id t) := by
  unfold Machine.applyReq
  dsimp only
  split; · exact hs
  split; · exact hs
  split; · exact hs
  split
  · exact hs
  · split; · exact hs.carry
    split; · exact hs.carry.lineBad
    split; · exact hs.carry.detPerform.fst ‹_›
    exact ((hs.carry.detPerform.fst ‹_›).foldl fun _ _ hs => hs.updCore).elemDone
  · split; · exact hs.detPerform.fst ‹_›
    exact (hs.detPerform.fst ‹_›).wrMs.rlbAgain.carry.elemDone
  exact hs.wrMs.elemDone

end Sys2Proof.Machine
end

section
/-!
# Canonical memory (O56): Order and Sync
-/
-- One theorem at a time: the chain of these lemmas is too long for the threads of an elaborator that runs ahead.
set_option Elab.async false
namespace Sys2Proof.Machine
variable {s t : State}

/-! ## Order -/

theorem Canon.doneRgn {c h} (hs : Canon s) : Canon (doneRgn s c h) := by
  unfold Machine.doneRgn
  exact hs.setRgn.advance

theorem Canon.fence {c sc kd} (hs : Canon s) : Canon (fence s c sc kd).1 := by
  unfold Machine.fence
  dsimp only
  split; · exact hs.endRegion.fst ‹_›
  next e =>
    have ended := hs.endRegion.fst e
    split
    · next e2 => exact .of_fst e2 (.ite_fst ended.release ended)
    · next e2 =>
      have released := Canon.of_fst e2 (.ite_fst ended.release ended)
      exact .ite_fst released.stay (.ite released.dropRlb released)

theorem Canon.execFence {h sc kd} (hs : Canon s) : CanonOut (execFence h sc kd s) := by
  unfold Machine.execFence
  refine hs.issue fun c s hs => ?_
  split; · exact hs.advance
  split; · exact hs.fence.fst ‹_›
  exact (hs.fence.fst ‹_›).doneRgn

theorem Canon.execRgn {h} (hs : Canon s) : CanonOut (execRgn h s) := by
  unfold Machine.execRgn
  refine hs.issue fun c s hs => ?_
  split; · exact hs.advance
  split; · exact hs.endRegion.fst ‹_›
  exact (hs.endRegion.fst ‹_›).advance

theorem Canon.dropOwner {asid team lo hi} (hs : Canon s) : Canon (dropOwner s asid team lo hi) := hs.of_mem

theorem Canon.execDrel {h d a b} (hs : Canon s) : CanonOut (execDrel h d a b s) := by
  unfold Machine.execDrel
  dsimp only
  refine hs.issue fun c s hs => ?_
  split; · exact hs.advance
  split; · exact hs.trapOut
  split; · exact hs.fence.fst ‹_›
  refine Canon.doneRgn ?_
  split; · exact hs.fence.fst ‹_›
  exact (hs.fence.fst ‹_›).dropOwner

theorem Canon.fillSector {c home key jobs} (hs : Canon s) : Canon (fillSector s c home key jobs) := by
  unfold Machine.fillSector
  split; · exact hs.updCore
  split; · exact hs
  exact hs.sendPkt

theorem Canon.prefetch {c core t va} (hs : Canon s) : Canon (prefetch s c core t va) := by
  unfold Machine.prefetch
  dsimp only
  split
  · split; · exact hs.coreXlate.snd ‹_›
    exact (hs.coreXlate.snd ‹_›).foldl fun _ _ hs => hs.fillSector
  exact hs

theorem Canon.execPft {h sc a b} (hs : Canon s) : CanonOut (execPft h sc a b s) := by
  unfold Machine.execPft
  dsimp only
  refine hs.issue fun c s hs => ?_
  exact (hs.foldl fun _ _ hs => hs.prefetch).advance

theorem Canon.pagesGo {c asid hi n va} (hs : Canon s) : CanonBoth (pagesGo s c asid hi n va) := by
  induction n generalizing s va with
  | zero => exact hs
  | succ n ih =>
    unfold Machine.pagesGo
    split; · exact hs
    split
    · next e =>
      split
      · exact (ih (hs.dieXlate.snd e)).inl ‹_›
      · next r e2 => exact e2 ▸ ih (hs.dieXlate.snd e)
    · exact hs.dieXlate.snd ‹_›

theorem Canon.execTlbp {h a b} (hs : Canon s) : CanonOut (execTlbp h a b s) := by
  unfold Machine.execTlbp
  dsimp only
  refine hs.issue fun c s hs => ?_
  split; · exact hs.advance
  split; · exact hs.endRegion.fst ‹_›
  next e =>
    have ended := hs.endRegion.fst e
    split; · exact ended.doneRgn
    split
    · exact (ended.pagesGo.inr ‹_›).strandXFail
    · next e2 => exact .ite (ended.pagesGo.inl e2).raiseUser (ended.pagesGo.inl e2).setCore.doneRgn

theorem Canon.execTlbu {h a} (hs : Canon s) : CanonOut (execTlbu h a s) := by
  unfold Machine.execTlbu
  refine hs.issue fun c s hs => ?_
  split; · exact hs.advance
  exact hs.updCore.advance

theorem Canon.execXprb {h d a} (hs : Canon s) : CanonOut (execXprb h d a s) := by
  unfold Machine.execXprb
  dsimp only
  refine hs.issue fun c s hs => ?_
  split; · exact hs.advance
  exact hs.updStrand.advance

theorem Canon.startTinv {sid asid whole base len} (hs : Canon s) : Canon (startTinv s sid asid whole base len) := by
  unfold Machine.startTinv
  dsimp only
  repeat' split
  all_goals exact hs.of_mem

theorem Canon.execTinv {h d a b} (hs : Canon s) : CanonOut (execTinv h d a b s) := by
  unfold Machine.execTinv
  dsimp only
  refine hs.issue fun c s hs => ?_
  split; · exact hs.advance
  exact hs.startTinv.advance

theorem Canon.execTinvAgentAck {agent} (hs : Canon s) : CanonOut (execTinvAgentAck agent s) := by
  unfold Machine.execTinvAgentAck
  dsimp only
  split; · exact hs
  refine Canon.of_mem ?_
  exact .ite hs.of_mem hs.updDie

theorem Canon.drainEnt {sid st e} (hs : Canon s) : Canon (drainEnt s sid st e).1 := by
  unfold Machine.drainEnt
  dsimp only
  split; · exact hs
  split
  · next e => exact .of_fst e (.ite_fst hs hs.wcbRoom)
  · next e =>
    have room := (Canon.of_fst e (.ite_fst hs hs.wcbRoom))
    exact .ite room.updStrand.wrMs room.updStrand.drainBytes

theorem Canon.heldEnd {sid st n cause} (hs : Canon s) : Canon (heldEnd s sid st n cause) := by
  unfold Machine.heldEnd
  exact hs.updStrand.endJob

theorem Canon.heldAgain {sid st e} (hs : Canon s) : Canon (heldAgain s sid st e) := by
  unfold Machine.heldAgain
  dsimp only
  split; · exact hs
  split
  · split; · exact (hs.dieXlate.snd ‹_›).heldEnd
    split; · exact (hs.dieXlate.snd ‹_›).heldEnd
    exact (hs.dieXlate.snd ‹_›).updStrand
  · exact (hs.dieXlate.snd ‹_›).addFault
  · exact (hs.dieXlate.snd ‹_›).heldEnd
  exact (hs.dieXlate.snd ‹_›).heldEnd

theorem Canon.drainHeld {sid st e h} (hs : Canon s) : Canon (drainHeld s sid st e h) := by
  unfold Machine.drainHeld
  split; · exact hs
  split; · exact hs.heldAgain
  split; · exact hs.drainEnt.fst ‹_›
  exact (hs.drainEnt.fst ‹_›).of_mem.settleTeams

theorem Canon.execDrain {sid n} (hs : Canon s) : CanonOut (execDrain sid n s) := by
  unfold Machine.execDrain
  split; · exact hs
  split; · exact hs
  split; · exact hs.drainHeld
  exact hs.drainEnt.drainWake

theorem Canon.execPropagate {die pa} (hs : Canon s) : CanonOut (execPropagate die pa s) := by
  unfold Machine.execPropagate
  dsimp only
  split; · exact hs
  exact hs.wrMs.updDie.settleTeams

theorem Canon.execFill {c sector} (hs : Canon s) : CanonOut (execFill c sector s) := by
  unfold Machine.execFill
  dsimp only
  split; · exact hs
  exact hs.fillSector

theorem Canon.execDrop {c sector} (hs : Canon s) : CanonOut (execDrop c sector s) := by
  unfold Machine.execDrop
  split; · exact hs
  exact hs.updCore

theorem Canon.execSend {c n} (hs : Canon s) : CanonOut (execSend c n s) := by
  unfold Machine.execSend
  split; · exact hs
  exact hs.trySend

theorem Canon.execWcbAgeSend {c} (hs : Canon s) : CanonOut (execWcbAgeSend c s) := by
  unfold Machine.execWcbAgeSend
  dsimp only
  split; · exact hs
  exact hs.trySend

theorem Canon.execTransactionAck {c} (hs : Canon s) : CanonOut (execTransactionAck c s) := by
  unfold Machine.execTransactionAck
  dsimp only
  split; · exact hs.updCore
  exact hs

theorem Canon.execRsbEntryWait {sid f} (hs : Canon s) : CanonOut (execRsbEntryWait sid f s) := by
  unfold Machine.execRsbEntryWait
  split; · exact hs
  split; · exact hs
  split; · exact hs.ready
  exact hs

theorem Canon.execScreenShadowEnd {n sigs} (hs : Canon s) : CanonOut (execScreenShadowEnd n sigs s) := by
  unfold Machine.execScreenShadowEnd
  dsimp only
  split; · exact hs
  split; · exact hs.of_mem.updDie
  refine hs.of_mem.foldl fun _ _ hs => ?_
  split
  · split; · exact hs
    exact hs.event
  exact hs

/-! ## Sync -/

theorem Canon.execGrow {h wait cl d a} (hs : Canon s) : CanonOut (execGrow h wait cl d a s) := by
  unfold Machine.execGrow
  dsimp only
  refine hs.issue fun c s hs => ?_
  split; · exact hs.advance
  split; · exact hs.updStrand.advance
  split; · exact hs.updStrand.advance
  split
  · split; · exact hs.updStrand.updStrand.advance
    exact hs.updStrand.advance
  exact hs.of_mem.updStrand

theorem Canon.growDone {sid f p ok} (hs : Canon s) : Canon (growDone s sid f p ok) := by
  unfold Machine.growDone
  dsimp only
  split; · exact hs
  split; · exact hs.updStrand.unblock
  exact hs

theorem Canon.execGrowGrant {c} (hs : Canon s) : CanonOut (execGrowGrant c s) := by
  unfold Machine.execGrowGrant
  dsimp only
  split; · exact hs
  exact hs.updStrand.growDone

theorem Canon.execGrowWaitFail {c} (hs : Canon s) : CanonOut (execGrowWaitFail c s) := by
  unfold Machine.execGrowWaitFail
  split; · exact hs
  exact hs.growDone

theorem Canon.execShrk {h cl a} (hs : Canon s) : CanonOut (execShrk h cl a s) := by
  unfold Machine.execShrk
  dsimp only
  refine hs.issue fun c s hs => ?_
  split; · exact hs.advance
  split; · exact hs.updFrag
  exact hs.updStrand.advance

theorem Canon.addSlot {c job num bidx} (hs : Canon s) : Canon (addSlot s c job num bidx) := by
  unfold Machine.addSlot
  dsimp only
  split; · exact hs
  split; · exact hs
  exact hs.setCore

theorem Canon.dieCount {t c n} (hs : Canon s) : Canon (dieCount s t c n) := hs.of_mem

theorem Canon.pkgCount {t d n} (hs : Canon s) : Canon (pkgCount s t d n) := hs.of_mem

theorem Canon.teamSpread {old new t} (hs : Canon s) : Canon (teamSpread s old new t) := by
  unfold Machine.teamSpread
  dsimp only
  split; · exact hs
  split
  · refine Canon.pkgCount ?_
    split
    · refine Canon.dieCount ?_
      split; · exact hs.updCore
      exact hs
    exact hs
  split
  · refine Canon.dieCount ?_
    split; · exact hs.updCore
    exact hs
  exact hs

theorem Canon.tjoin {sid st num rank size} (hs : Canon s) : Canon (tjoin s sid st num rank size).1 := by
  unfold Machine.tjoin
  split
  next k s0 e =>
    have found : Canon s0 := by
      split at e
      · cases e; exact hs
      · cases e; exact hs.of_mem
    split; · exact found
    exact (Canon.of_mem found).updStrand.addSlot.teamSpread

theorem Canon.execTjoin {h d a b} (hs : Canon s) : CanonOut (execTjoin h d a b s) := by
  unfold Machine.execTjoin
  dsimp only
  refine hs.issue fun c s hs => ?_
  split; · exact hs.advance
  split; · exact hs.trapOut
  exact hs.tjoin.updStrand.advance

theorem Canon.tleave {sid k rank} (hs : Canon s) : Canon (tleave s sid k rank) := by
  unfold Machine.tleave
  dsimp only
  split; · exact hs
  split
  · split; · exact hs.of_mem.updStrand
    refine hs.of_mem.updStrand.foldl fun _ _ hs => ?_
    split
    · split; · exact hs.unblockRgn
      exact hs
    exact hs
  refine Canon.teamPrune ?_
  split
  · refine Canon.completePhase ?_
    split; · exact hs.of_mem.updStrand
    refine hs.of_mem.updStrand.foldl fun _ _ hs => ?_
    split
    · split; · exact hs.unblockRgn
      exact hs
    exact hs
  refine Canon.topCheck ?_
  split; · exact hs.of_mem.updStrand
  refine hs.of_mem.updStrand.foldl fun _ _ hs => ?_
  split
  · split; · exact hs.unblockRgn
    exact hs
  exact hs

theorem Canon.execTleave {h a} (hs : Canon s) : CanonOut (execTleave h a s) := by
  unfold Machine.execTleave
  refine hs.issue fun c s hs => ?_
  split; · exact hs.advance
  split; · exact hs.trapOut
  exact hs.tleave.advance

theorem Canon.execTbar {h sc kd a} (hs : Canon s) : CanonOut (execTbar h sc kd a s) := by
  unfold Machine.execTbar
  dsimp only
  refine hs.issue fun c s hs => ?_
  split; · exact hs.advance
  split; · exact hs.trapOut
  split; · exact hs.endRegion.fst ‹_›
  exact (hs.endRegion.fst ‹_›).updFrag.tbarTry

theorem Canon.execLsyn {h sc kd b} (hs : Canon s) : CanonOut (execLsyn h sc kd b s) := by
  unfold Machine.execLsyn
  refine hs.issue fun c s hs => ?_
  split; · exact hs.advance
  exact hs.rdvIssue

theorem Canon.arrivalMsg {fromDie unit k t} (hs : Canon s) : CanonOpt (arrivalMsg s fromDie unit k t) := by
  unfold Machine.arrivalMsg
  dsimp only
  split
  · split; · exact trivial
    split; · exact trivial
    exact hs.dieCount.updCore.topCheck
  split; · exact trivial
  exact hs.pkgCount.topCheck

theorem Canon.execBarrierArrivalMsg {fromDie unit job team} (hs : Canon s) : CanonOut (execBarrierArrivalMsg fromDie unit job team s) := by
  unfold Machine.execBarrierArrivalMsg
  split
  · next e =>
    obtain ⟨x, -, sent⟩ := List.exists_of_findSome?_eq_some e
    exact hs.arrivalMsg.some sent
  · exact hs

theorem Canon.execBarrierRelease {c slot} (hs : Canon s) : CanonOut (execBarrierRelease c slot s) := by
  unfold Machine.execBarrierRelease
  split; · exact hs
  split; · exact hs
  exact hs.releaseSlot

theorem Canon.execBarTimeout {c slot} (hs : Canon s) : CanonOut (execBarTimeout c slot s) := by
  unfold Machine.execBarTimeout
  dsimp only
  split; · exact hs
  split
  · split; · exact hs
    split; · exact hs.updCore
    exact hs.endJob
  exact hs

theorem Canon.xbOp {h u a go} (hs : Canon s) (hgo : ∀ c r t, Canon t → CanonOut (go c r t)) : CanonOut (xbOp h u a s go) := by
  unfold Machine.xbOp
  dsimp only
  refine hs.issue fun c s hs => ?_
  split; · exact hs.advance
  exact .ite (hgo _ _ _ hs) hs.trapOut

end Sys2Proof.Machine
end

section
/-!
# Canonical memory (O56): Engines and Matrix
-/
-- One theorem at a time: the chain of these lemmas is too long for the threads of an elaborator that runs ahead.
set_option Elab.async false
namespace Sys2Proof.Machine
variable {s t : State}

/-! ## Engines -/

theorem Canon.holdInt {sid f status tag} (hs : Canon s) : Canon (holdInt s sid f status tag) := hs.of_mem

theorem Canon.waitCmd {sid f h r} (hs : Canon s) : Canon (waitCmd s sid f h r) := hs.of_mem

theorem Canon.setEngQueue {c gather q} (hs : Canon s) : Canon (setEngQueue s c gather q) := hs.of_mem

theorem Canon.acceptEng {sid f r q} (hs : Canon s) : CanonLeft (acceptEng s sid f r q) := by
  unfold Machine.acceptEng
  dsimp only
  split
  · split; · exact trivial
    split
    · split
      · refine Canon.holdInt ?_
        split; · exact hs.xbUpdate
        exact hs
      split; · exact hs.xbUpdate
      exact hs
    refine Canon.setEngQueue ?_
    split; · exact hs.xbUpdate
    exact hs
  exact hs

theorem Canon.engIssue {h a b mk} (hs : Canon s) : CanonOut (engIssue h a b mk s) := by
  unfold Machine.engIssue
  dsimp only
  refine hs.issue fun c s hs => ?_
  split; · exact hs.advance
  split; · exact hs.endRegion.fst ‹_›
  next e =>
    have ended := hs.endRegion.fst e
    split; · exact ended.stay
    split; · exact ended.sends.waitCmd
    split
    · exact ended.sends.tick.raiseUser
    · next e2 => exact (ended.sends.tick.acceptEng.left e2).doneRgn

theorem Canon.execEngineQueueAdmit {c gather} (hs : Canon s) : CanonOut (execEngineQueueAdmit c gather s) := by
  unfold Machine.execEngineQueueAdmit
  split; · exact hs
  split; · exact hs
  split; · exact hs
  split; · exact hs.updFrag.raiseUser
  exact (hs.acceptEng.left ‹_›).unblockRgn

theorem Canon.execEngineCommandStart {c gather} (hs : Canon s) : CanonOut (execEngineCommandStart c gather s) := by
  unfold Machine.execEngineCommandStart
  split; · exact hs
  exact hs.setEngQueue

theorem Canon.engXlate {p c asid va write} (hs : Canon s) : CanonOk (engXlate s p c asid va write) := by
  unfold Machine.engXlate
  split
  · split; · exact trivial
    exact hs.pipeXlate.snd ‹_›
  · exact trivial
  · exact trivial
  exact trivial

theorem Canon.engRead {p c asid seen first va ok} (hs : Canon s) : CanonOk (engRead s p c asid seen first va ok) := by
  unfold Machine.engRead
  split
  · split; · exact trivial
    exact hs
  refine hs.engXlate.bind fun s1 e hs => ?_
  dsimp only
  split; · exact trivial
  split; · exact trivial
  split; · exact trivial
  exact Canon.ite hs.passPkt hs

theorem Canon.engReadN_go {p c asid seen ok first va n} (hs : Canon s) : CanonOk (engReadN.go p c asid seen ok s first va n) := by
  induction n generalizing s first va with
  | zero => exact hs
  | succ n ih => exact hs.engRead.bind fun _ _ hs => (ih hs).bind fun _ _ hs => hs

theorem Canon.engReadN {p c asid seen ok va n} (hs : Canon s) : CanonOk (engReadN s p c asid seen ok va n) := hs.engReadN_go

theorem Canon.engAhead {p c asid seen va} (hs : Canon s) : Canon (engAhead s p c asid seen va).1 := by
  unfold Machine.engAhead
  dsimp only
  split
  · next e =>
    refine OkHolds.ok (P := fun y => Canon y.1) ?_ e
    exact hs.engXlate.bind fun _ _ hs => hs.engReadN.bind fun _ _ hs => hs
  · exact hs

theorem Canon.engSpans {p c asid seen ok src xs} (hs : Canon s) : CanonOk (engSpans s p c asid seen ok src xs) := by
  induction xs generalizing s with
  | nil => exact hs
  | cons x xs ih => exact hs.engReadN.bind fun _ _ hs => (ih hs).bind fun _ _ hs => hs

theorem Canon.engElem {p c asid seen src ty e} (hs : Canon s) : CanonOk (engElem s p c asid seen src ty e) := by
  unfold Machine.engElem
  refine hs.engXlate.bind fun s1 pg hs => ?_
  dsimp only
  split; · exact trivial
  split; · exact trivial
  split; · exact trivial
  refine hs.engSpans.bind fun s2 bs hs => ?_
  dsimp only
  exact .ite hs (.ite hs (.ite trivial hs))

theorem Canon.engByte {p c x last b} (hs : Canon s) : CanonOk (engByte s p c x last b) := by
  unfold Machine.engByte
  split
  · exact hs
  · exact hs
  · exact hs.engRead
  · exact hs.engElem.bind fun _ _ hs => hs

theorem Canon.engBytes {p c x last bs} (hs : Canon s) : CanonOk (engBytes s p c x last bs) := by
  induction bs generalizing s last with
  | nil => exact hs
  | cons b bs ih => exact hs.engByte.bind fun _ _ hs => (ih hs).bind fun _ _ hs => hs

theorem Canon.engPut {p c x scr bs} (hs : Canon s) : OkHolds (fun y => Canon (eitherState y)) (engPut s p c x scr bs) := by
  unfold Machine.engPut
  split; · exact hs.storeScr
  split; · exact hs
  refine hs.engXlate.bind fun s1 e hs => ?_
  dsimp only
  split; · exact trivial
  split
  · exact hs.endJob
  · next s2 own =>
    have owned : Canon s2 := by
      split at own
      · split at own
        · exact hs.detAccess.left own
        · cases own; exact hs
      · cases own; exact hs
    split
    · split; · exact trivial
      split; · exact trivial
      exact owned.wrMs.of_mem
    split; · exact owned
    split
    · exact owned.wcbRoom.fst ‹_›
    · exact (owned.wcbRoom.fst ‹_›).drainBytes

theorem Canon.engDrop {c gather id} (hs : Canon s) : Canon (engDrop s c gather id) := hs.of_mem

theorem Canon.engUpd {c gather id g} (hs : Canon s) : Canon (engUpd s c gather id g) := hs.of_mem

theorem Canon.engFail {c gather x} (hs : Canon s) : Canon (engFail s c gather x) := by
  unfold Machine.engFail
  dsimp only
  split; · exact hs
  split
  · refine Canon.holdInt ?_
    split; · exact hs.engDrop.xbUpdate
    exact hs.engDrop
  refine Canon.endJob ?_
  split; · exact hs.engDrop.xbUpdate
  exact hs.engDrop

theorem Canon.engError {c gather x n e} (hs : Canon s) : Canon (engError s c gather x n e) := by
  unfold Machine.engError
  dsimp only
  split
  · exact hs
  · exact hs.endJob
  · exact hs.engUpd
  · exact hs.engUpd
  exact hs.of_mem.engUpd

theorem Canon.engComplete {c gather x zero} (hs : Canon s) : Canon (engComplete s c gather x zero) := by
  unfold Machine.engComplete
  dsimp only
  split
  · refine Canon.holdInt ?_
    split; · exact hs.engDrop.xbUpdate
    exact hs.engDrop
  split; · exact hs.engDrop.xbUpdate
  exact hs.engDrop

theorem Canon.billSent {r j} (ht : Canon t) : Canon (billSent r t j) := by
  unfold Machine.billSent
  exact .ite ht ht.bill

theorem Canon.engFetch {c gather x va} (hs : Canon s) : Canon (engFetch s c gather x va) := by
  unfold Machine.engFetch
  exact hs.engAhead.engUpd.billSent

theorem Canon.execSectorLand {c cmd n} (hs : Canon s) : CanonOut (execSectorLand c cmd n s) := by
  unfold Machine.execSectorLand
  dsimp only
  split; · exact hs
  split; · exact hs
  split; · exact Canon.ite hs.engFetch hs
  split; · exact hs
  split; · exact .ite hs.engComplete hs
  split; · exact hs
  split; · exact hs
  split; · exact hs.engError
  next e =>
    have read := hs.engBytes.ok e
    split
    · exact read.engError
    · next e2 => exact read.engPut.ok e2
    · next e2 =>
      have put := read.engPut.ok e2
      split
      · exact .ite (Canon.billSent put).engUpd.engComplete (Canon.billSent put).engUpd
      · split
        · exact (Canon.billSent put).engUpd.xbUpdate
        · exact (Canon.billSent put).engUpd

theorem Canon.execEngineCommandFault {c cmd} (hs : Canon s) : CanonOut (execEngineCommandFault c cmd s) := by
  unfold Machine.execEngineCommandFault
  split; · exact hs
  split; · exact hs
  exact hs.engFail

theorem Canon.setHwq {c n q} (hs : Canon s) : Canon (State.setHwq s c n q) := hs.of_mem

theorem Canon.queueOp {h u a go} (hs : Canon s) (hgo : ∀ c n t, Canon t → CanonOut (go c n t)) : CanonOut (queueOp h u a s go) := by
  unfold Machine.queueOp
  dsimp only
  refine hs.issue fun c s hs => ?_
  split; · exact hs.advance
  split
  · exact .ite (hgo _ _ _ hs) hs.trapOut
  · exact hgo _ _ _ hs.setHwq

theorem Canon.execQueueWake {c q} (hs : Canon s) : CanonOut (execQueueWake c q s) := by
  unfold Machine.execQueueWake
  dsimp only
  split; · exact hs.setHwq.updStrand.unblock
  split
  · split; · exact hs
    split; · exact hs.setHwq.unblock
    exact hs
  exact hs

/-! ## Matrix -/

theorem Canon.updMat {m} (hs : Canon s) : Canon (updMat s m) := hs.of_mem

theorem Canon.dropMat {m} (hs : Canon s) : Canon (dropMat s m) := hs.of_mem

theorem Canon.takeMat {sid f r q} (hs : Canon s) : Canon (takeMat s sid f r q) := by
  unfold Machine.takeMat
  dsimp only
  split; · exact hs
  split; · exact hs.updDie.updStrand
  exact hs.updDie

theorem Canon.matIssue {h reads writes tracked bad mk} (hs : Canon s) : CanonOut (matIssue h reads writes tracked s bad mk) := by
  unfold Machine.matIssue
  dsimp only
  refine hs.issue fun c s hs => ?_
  split; · exact hs.advance
  split; · exact hs.trapOut
  split; · exact hs.endRegion.fst ‹_›
  split; · exact (hs.endRegion.fst ‹_›).stay
  split; · exact (hs.endRegion.fst ‹_›).sends.waitCmd
  exact (hs.endRegion.fst ‹_›).sends.of_mem.takeMat.doneRgn

theorem Canon.execMwt {h} (hs : Canon s) : CanonOut (execMwt h s) := by
  unfold Machine.execMwt
  refine hs.issue fun c s hs => ?_
  split; · exact hs.advance
  split; · exact hs.stay
  split; · exact hs.raiseUser
  exact hs.advance

theorem Canon.execReservationAdmit {cl} (hs : Canon s) : CanonOut (execReservationAdmit cl s) := by
  unfold Machine.execReservationAdmit
  split; · exact hs
  split; · exact hs
  split; · exact hs.takeMat.unblockRgn
  exact hs

theorem Canon.execMatrixPassStart {pair} (hs : Canon s) : CanonOut (execMatrixPassStart pair s) := by
  unfold Machine.execMatrixPassStart
  split; · exact hs
  exact hs.updMat

theorem Canon.execTileCommandStart {pair} (hs : Canon s) : CanonOut (execTileCommandStart pair s) := by
  unfold Machine.execTileCommandStart
  split; · exact hs
  exact hs.updMat

/-- So is that of what a running command does next. -/
def CanonNext : MatNext → Prop
  | .row s _ _ => Canon s
  | .done s _ _ => Canon s
  | _ => True

theorem CanonNext.row {x : MatNext} {m ws} (h : CanonNext x) (e : x = .row t m ws) : Canon t := by subst e; exact h
theorem CanonNext.done {x : MatNext} {m ws} (h : CanonNext x) (e : x = .done t m ws) : Canon t := by subst e; exact h
theorem canonNext_matErr (e : EngErr) : CanonNext (matErr e) := by
  unfold Machine.matErr
  repeat' split
  all_goals exact trivial

theorem Canon.denseElem {c asid seen ty chk e p j} (hs : Canon s) : CanonOk (denseElem s c asid seen ty chk e p j) := by
  unfold Machine.denseElem
  dsimp only
  split
  · split; · exact trivial
    refine hs.engReadN.bind fun _ _ hs => ?_
    dsimp only
    split; · exact trivial
    exact hs
  split
  · refine hs.engReadN.bind fun _ _ hs => ?_
    dsimp only
    split; · exact trivial
    exact hs
  split; · exact trivial
  exact hs.engReadN.bind fun _ _ hs => hs.engReadN.bind fun _ _ hs => hs

theorem Canon.denseElems {c asid seen ty chk e p js} (hs : Canon s) : CanonOk (denseElems s c asid seen ty chk e p js) := by
  induction js generalizing s with
  | nil => exact hs
  | cons j js ih => exact hs.denseElem.bind fun _ _ hs => (ih hs).bind fun _ _ hs => hs

theorem Canon.denseRow {c asid seen ty chk p n} (hs : Canon s) : CanonOk (denseRow s c asid seen ty chk p n) := by
  unfold Machine.denseRow
  refine hs.engXlate.bind fun _ _ hs => ?_
  dsimp only
  split; · exact trivial
  exact hs.denseElems

theorem Canon.denseRows {c asid seen ty chk d n is} (hs : Canon s) : CanonOk (denseRows s c asid seen ty chk d n is) := by
  induction is generalizing s with
  | nil => exact hs
  | cons i is ih => exact hs.denseRow.bind fun _ _ hs => (ih hs).bind fun _ _ hs => hs

theorem Canon.sparseLines {c asid seen base per fmt ls} (hs : Canon s) : CanonOk (sparseLines s c asid seen base per fmt ls) := by
  induction ls generalizing s with
  | nil => exact hs
  | cons l ls ih =>
    refine hs.engReadN.bind fun _ _ hs => ?_
    dsimp only
    split; · exact trivial
    exact (ih hs).bind fun _ _ hs => hs

theorem Canon.sparseRow {c asid seen ty d i K} (hs : Canon s) : CanonOk (sparseRow s c asid seen ty d i K) := by
  unfold Machine.sparseRow
  exact hs.sparseLines.bind fun _ _ hs => hs

theorem Canon.passB {m ty chk b} (hs : Canon s) : CanonOk (passB s m ty chk b) := by
  unfold Machine.passB
  split; · exact hs.denseRows.bind fun _ _ hs => hs
  exact hs

theorem Canon.passRow {r m} (hs : Canon s) : CanonOk (passRow s r m) := by
  unfold Machine.passRow
  split
  · refine hs.passB.bind fun s1 bs hs => ?_
    refine CanonOk.bind (α := List (Option Nat)) ?_ fun _ _ hs => hs
    split; · exact hs.sparseRow
    exact hs.denseRow.bind fun _ _ hs => hs
  · exact hs.passB.bind fun _ _ hs => hs.denseRow.bind fun _ _ hs => hs
  · exact hs

theorem Canon.astRow_place {m fmt bs} (hs : Canon s) : CanonOk (astRow.place m s fmt bs) := by
  induction bs generalizing s with
  | nil => exact hs
  | cons b bs ih =>
    refine hs.engXlate.bind fun _ _ hs => ?_
    dsimp only
    split; · exact trivial
    exact (ih hs).bind fun _ _ hs => hs

theorem Canon.astRow {r m ty rnd sat vc d desc key i} (hs : Canon s) : CanonOk (astRow s r m ty rnd sat vc d desc key i) := by
  unfold Machine.astRow
  refine hs.engXlate.bind fun _ _ hs => ?_
  dsimp only
  split; · exact trivial
  split; · exact trivial
  exact hs.astRow_place.bind fun _ _ hs => .ite trivial hs

theorem Canon.astRows {r m ty rnd sat vc d desc key is} (hs : Canon s) : CanonOk (astRows s r m ty rnd sat vc d desc key is) := by
  induction is generalizing s with
  | nil => exact hs
  | cons i is ih => exact hs.astRow.bind fun _ _ hs => (ih hs).bind fun _ _ hs => hs

theorem Canon.astDet {sid bs} (hs : Canon s) : CanonLeft (astDet s sid bs) := by
  unfold Machine.astDet
  refine CanonLeft.foldl (x := .inl s) hs fun x _ hx => ?_
  split; · exact trivial
  split; · exact hx
  exact Canon.detAccess hx

theorem Canon.completeMat {m} (hs : Canon s) : Canon (completeMat s m) := by
  unfold Machine.completeMat
  dsimp only
  exact hs.dropMat.updStrand.afterLand

theorem Canon.astNext {m} (hs : Canon s) : CanonNext (astNext s m) := by
  unfold Machine.astNext
  dsimp only
  split
  · split; · exact hs
    exact trivial
  split
  · split; · exact trivial
    split; · exact trivial
    exact hs.wrMs.of_mem
  split; · exact trivial
  split
  · exact hs.wcbRoom.fst ‹_›
  · exact (hs.wcbRoom.fst ‹_›).drainBytes

theorem Canon.matNext {st m} (hs : Canon s) : CanonNext (matNext s st m) := by
  unfold Machine.matNext
  split
  · split; · exact hs
    split; · exact canonNext_matErr _
    exact hs.passRow.ok ‹_›
  · split; · exact hs
    split; · exact canonNext_matErr _
    exact hs.passRow.ok ‹_›
  · exact hs
  · split; · exact canonNext_matErr _
    exact hs.denseRows.ok ‹_›
  · split; · exact hs.astNext
    split; · exact canonNext_matErr _
    next e =>
      split
      · exact (hs.astRows.ok e).endJob
      · exact (hs.astRows.ok e).astDet.left ‹_›
  · exact trivial

theorem Canon.putTile {sid ws} (hs : Canon s) : Canon (putTile s sid ws) := hs.of_mem

theorem Canon.matAhead {m va} (hs : Canon s) : Canon (matAhead s m va) := by
  unfold Machine.matAhead
  dsimp only
  split; · exact hs.updMat
  exact hs.engAhead.updMat.billSent

theorem Canon.execMatrixRowCommit {pair} (hs : Canon s) : CanonOut (execMatrixRowCommit pair s) := by
  unfold Machine.execMatrixRowCommit
  split
  · split; · exact hs
    exact hs.matAhead
  split; · exact hs
  split
  · exact (hs.matNext.row ‹_›).putTile.updMat.billSent
  · exact hs

theorem Canon.execMatrixCommandComplete {pair} (hs : Canon s) : CanonOut (execMatrixCommandComplete pair s) := by
  unfold Machine.execMatrixCommandComplete
  dsimp only
  split
  · next e =>
    refine CanonOpt.some ?_ e
    split; · exact trivial
    split
    · exact (hs.matNext.done ‹_›).putTile.completeMat.billSent
    all_goals exact trivial
  · refine CanonOpt.getD ?_ hs
    split; · exact trivial
    split
    · exact (hs.matNext.done ‹_›).putTile.completeMat.billSent
    · exact (hs.matNext.row ‹_›).updMat.billSent
    · exact trivial

theorem Canon.suspendMat {m va} (hs : Canon s) : Canon (suspendMat s m va) := by
  unfold Machine.suspendMat
  dsimp only
  split; · exact hs.of_mem.updMat.updStrand
  exact hs.of_mem.updMat

theorem Canon.execMatrixPassSuspend {pair} (hs : Canon s) : CanonOut (execMatrixPassSuspend pair s) := by
  unfold Machine.execMatrixPassSuspend
  dsimp only
  split
  · next e =>
    refine CanonOpt.some ?_ e
    split; · exact trivial
    split; · exact hs.suspendMat
    exact trivial
  · refine CanonOpt.getD ?_ hs
    split; · exact trivial
    split; · exact hs.suspendMat
    exact trivial

theorem Canon.failMat {m cause} (hs : Canon s) : Canon (failMat s m cause) := by
  unfold Machine.failMat
  refine Canon.afterLand ?_
  exact .foldl (Canon.foldl hs fun _ _ hs => hs.dropMat).updStrand fun _ _ hs => hs.unblockRgn

theorem Canon.execMatrixEngineError {pair} (hs : Canon s) : CanonOut (execMatrixEngineError pair s) := by
  unfold Machine.execMatrixEngineError
  dsimp only
  split
  · next e =>
    refine CanonOpt.some ?_ e
    split; · exact trivial
    split
    · exact hs.failMat
    · exact hs.endJob
    · exact trivial
  · refine CanonOpt.getD ?_ hs
    split; · exact trivial
    split
    · exact hs.failMat
    · exact hs.endJob
    · exact trivial

theorem Canon.execAmov {h ty rnd sat put d a b} (hs : Canon s) : CanonOut (execAmov h ty rnd sat put d a b s) := by
  unfold Machine.execAmov
  dsimp only
  split <;> exact hs.laneOpT

end Sys2Proof.Machine
end

section
/-!
# Canonical memory (O56): Marker and Vats
-/
-- One theorem at a time: the chain of these lemmas is too long for the threads of an elaborator that runs ahead.
set_option Elab.async false
namespace Sys2Proof.Machine
variable {s t : State}

/-! ## Marker -/

theorem Canon.markIssue {h reads mk} (hs : Canon s) : CanonOut (markIssue h reads s mk) := by
  unfold Machine.markIssue
  dsimp only
  refine hs.issue fun c s hs => ?_
  split; · exact hs.advance
  split; · exact hs.endRegion.fst ‹_›
  split; · exact (hs.endRegion.fst ‹_›).stay
  split; · exact (hs.endRegion.fst ‹_›).sends.waitCmd
  split; · exact (hs.endRegion.fst ‹_›).sends.of_mem.updCore.doneRgn
  exact (hs.endRegion.fst ‹_›).sends.of_mem.updCore.updFrag

theorem Canon.markOp {h mn sub cls a} (hs : Canon s) : CanonOut (markOp h mn sub cls a s) := by
  unfold Machine.markOp
  exact hs.markIssue

theorem Canon.markXlate {d asid x} (hs : Canon s) : Canon (markXlate s d asid x).1 := by
  induction x generalizing s with
  | nil => exact hs
  | cons r rest ih =>
    obtain ⟨va, len, write⟩ := r
    have pages : CanonBoth (if len = 0 then .inl (s, []) else Machine.pagesGo s (4096 + d) asid (va + len) (len / 4096 + 2) va) := .ite hs hs.pagesGo
    unfold Machine.markXlate
    split; · exact hs
    split
    · next e => exact pages.inr e
    · next e => exact pages.inr e
    · next _ _ e => exact pages.inr e
    next e =>
    split; · exact pages.inl e
    split; · exact pages.inl e
    split
    · next e2 => exact (ih (pages.inl e)).fst e2
    exact ih (pages.inl e)

theorem Canon.markCheck {c st q mn sub cls off} (hs : Canon s) : Canon (markCheck s c st q mn sub cls off).1 := by
  unfold Machine.markCheck
  dsimp only
  split; · exact hs
  split; · exact hs
  split; · exact hs
  split
  · next e => exact hs.markXlate.fst e
  next e =>
  have xl := hs.markXlate.fst e
  refine .ite_fst xl (.ite_fst xl (.ite_fst xl (.ite_fst xl xl.of_mem)))

theorem Canon.markSend {c m} (hs : Canon s) : Canon (markSend s c m) := by
  unfold Machine.markSend
  dsimp only
  split
  · refine Canon.updCore ?_
    split; · exact hs.of_mem.updJob
    exact hs.of_mem
  split; · exact hs.of_mem.updJob
  exact hs.of_mem

theorem Canon.markDrop {c id} (hs : Canon s) : Canon (markDrop s c id) := hs.of_mem

theorem Canon.pruneMarkers (hs : Canon s) : Canon (pruneMarkers s) := hs.of_mem

theorem Canon.markFill {c} (hs : Canon s) : Canon (markFill s c) := by
  unfold Machine.markFill
  dsimp only
  split; · exact hs
  split; · exact hs
  split; · exact hs.updCore.unblockRgn
  exact hs.updCore.updFrag

theorem Canon.markPut {c q} (hs : Canon s) : Canon (markPut s c q) := hs.of_mem

theorem Canon.execMarkAccept {c} (hs : Canon s0) : CanonOut (execMarkAccept c s0) := by
  unfold Machine.execMarkAccept
  dsimp only
  split; · exact hs.markFill.pruneMarkers
  split; · exact hs.markFill.pruneMarkers.markDrop
  split; · exact hs.markFill.pruneMarkers
  split
  · split; · exact hs.markFill.of_mem.markPut
    split; · exact hs.markFill.pruneMarkers.markSend.markDrop
    exact hs.markFill.pruneMarkers.markSend.markDrop.unblockRgn
  split
  · split
    · exact (hs.markFill.pruneMarkers.markCheck.fst ‹_›).markPut
    · exact (hs.markFill.pruneMarkers.markCheck.fst ‹_›).markPut.addFault
    · exact (hs.markFill.pruneMarkers.markCheck.fst ‹_›).markDrop.endJobAt
    exact (hs.markFill.pruneMarkers.markCheck.fst ‹_›).markDrop.updFrag.raiseUser
  exact hs.markFill.pruneMarkers.markPut

theorem Canon.openClass {job cls sc} (hs : Canon s) : Canon (openClass s job cls sc) := hs.of_mem

theorem Canon.execWopn {h sc cls d} (hs : Canon s) : CanonOut (execWopn h sc cls d s) := by
  unfold Machine.execWopn
  dsimp only
  refine hs.issue fun c s hs => ?_
  split; · exact hs.advance
  exact (Canon.ite (Canon.ite hs.of_mem hs).openClass (.ite hs.of_mem hs)).acts.updStrand.advance

theorem Canon.execWqt {h close sc cls d} (hs : Canon s) : CanonOut (execWqt h close sc cls d s) := by
  unfold Machine.execWqt
  dsimp only
  refine hs.issue fun c s hs => ?_
  split; · exact hs.advance
  split; · exact hs.acts.updStrand
  exact hs.updStrand.advance

/-! ## Vats -/

theorem Canon.wrVa {asid va bs} (hs : Canon s) : Canon (wrVa s asid va bs) := by
  unfold Machine.wrVa
  split
  · split; · exact hs.wrMN
    exact hs
  exact hs

theorem Canon.setPlanes {j v l x} (hs : Canon s) : Canon (setPlanes s j v l x) := by
  unfold Machine.setPlanes
  exact hs.wrVa

theorem Canon.emit {ms} (hs : Canon s) : Canon (emit s ms) := hs.of_mem

theorem Canon.markWrite {m va bs} (hs : Canon s) : Canon (markWrite s m va bs) := by
  unfold Machine.markWrite
  dsimp only
  split; · exact hs
  split; · exact hs.endJob
  exact (hs.astDet.left ‹_›).wrMs

theorem Canon.vatAct {j m v} (hs : Canon s) : Canon (vatAct s j m v).1 := by
  unfold Machine.vatAct
  dsimp only
  split
  · exact hs.foldl fun _ _ hs => hs.setPlanes
  · refine hs.foldl fun _ _ hs => ?_
    split
    · split; · exact hs.setPlanes
      exact hs
    exact hs
  · exact hs.foldl fun _ _ hs => hs.setPlanes.foldl fun _ _ hs => hs.wrVa
  · exact hs
  · exact hs
  · exact hs
  · refine hs.foldl fun _ _ hs => ?_
    split
    · split; · exact hs.markWrite
      exact hs
    split; · exact hs.markWrite
    exact hs
  · refine hs.foldl fun _ _ hs => ?_
    split
    · split
      · split; · exact hs.wrVa.updVat
        exact hs.wrVa
      exact hs
    exact hs
  · refine hs.foldl fun _ _ hs => ?_
    split; · exact hs.setPlanes
    exact hs
  · exact hs.updVat
  exact hs

theorem Canon.listOut {m} (hs : Canon s) : Canon (listOut s m) := by
  unfold Machine.listOut
  dsimp only
  split; · exact hs.markWrite
  split; · exact hs.markWrite
  exact hs

theorem Canon.vatDone {m v ms ids} (hs : Canon s) : Canon (vatDone s m v ms ids) := by
  have counted : Canon (match m.cls with
      | some k => ((Machine.emit s ms).bill m.job fun b => { b with vats := true }).updVat v fun x =>
          { x with pairs := pairUpd x.pairs (pairKeyOf m.job k) (·.count ms.length 1) }
      | none => (Machine.emit s ms).bill m.job fun b => { b with vats := true }) := by
    split; · exact hs.emit.bill.updVat
    exact hs.emit.bill
  unfold Machine.vatDone
  exact .ite (counted.of_mem.listOut.pruneMarkers) counted.of_mem

theorem Canon.execVatCommandProcess {vat n} (hs : Canon s) : CanonOut (execVatCommandProcess vat n s) := by
  unfold Machine.execVatCommandProcess
  split; · exact hs
  split; · exact hs
  split; · exact hs
  split
  next e => exact Canon.ite (hs.vatAct.fst e) (hs.vatAct.fst e).vatDone

theorem Canon.freeArrive {j sc c p v m} (hs : Canon s) : Canon (freeArrive s j sc c p v m).1 := by
  unfold Machine.freeArrive
  dsimp only
  split; · exact hs
  split
  · split; · exact hs
    exact hs.setPlanes
  split; · exact hs
  exact hs.wrVa

theorem Canon.execWaveMessageConsume {vat n} (hs : Canon s) : CanonOut (execWaveMessageConsume vat n s) := by
  unfold Machine.execWaveMessageConsume
  dsimp only
  split; · exact hs
  next x _ =>
  have billed : Canon (({ s with msgs := s.msgs.erase x } : State).bill x.m.job fun b => { b with vats := true }) := hs.of_mem.bill
  split
  · split; · exact hs
    split; · exact billed.updVat
    exact billed.freeArrive.emit.updVat
  exact hs

theorem Canon.runHandler {j sc c p v l spawn0 m} (hs : Canon s) : Canon (runHandler s j sc c p v l spawn0 m).1 := by
  unfold Machine.runHandler
  dsimp only
  exact hs.wrVa.setPlanes

theorem Canon.closeNode {j sc c p v l arr} (hs : Canon s) : Canon (closeNode s j sc c p v l arr).1 := by
  unfold Machine.closeNode
  extract_lets sorted k dest old
  split; · exact hs
  split
  next s1 ms e =>
  have combined : Canon s1 := by
    refine Canon.of_fst e ?_
    split
    · exact Canon.foldl_fst hs fun x _ h => h.runHandler (sc := sc) (spawn0 := x.2.length)
    split; · exact hs.wrVa
    exact hs.setPlanes
  exact .ite_fst combined combined

theorem Canon.execStepClose {vat job cls} (hs : Canon s) : CanonOut (execStepClose vat job cls s) := by
  unfold Machine.execStepClose
  split
  · split; · exact hs
    extract_lets mine keys
    split
    next s1 ms e =>
    have closed : Canon s1 := by
      refine Canon.of_fst e (Canon.foldl_fst hs fun _ _ h => ?_)
      split; · exact h.closeNode
      exact h
    exact closed.of_mem
  exact hs

theorem Canon.clearActive {k ports} (hs : Canon s) : Canon (clearActive s k ports) := hs.of_mem

theorem Canon.announceQuiet {job cls t} (hs : Canon s) : Canon (announceQuiet s job cls t) := by
  unfold Machine.announceQuiet
  extract_lets val waits s1 s2
  have told : Canon s2 := by
    refine Canon.foldl hs.of_mem fun s w hs => ?_
    exact .ite hs.updStrand.updFrag hs.updStrand.unblock.dropRlb
  exact .ite told.of_mem told.of_mem

theorem Canon.sweepEnd {job cls t} (hs : Canon s) : Canon (sweepEnd s job cls t) := by
  unfold Machine.sweepEnd
  dsimp only
  split; · exact hs
  split; · exact hs.of_mem
  exact hs.announceQuiet

theorem Canon.execDeckleSweep {job cls} (hs : Canon s) : CanonOut (execDeckleSweep job cls s) := by
  unfold Machine.execDeckleSweep
  dsimp only
  split; · exact hs.clearActive.sweepEnd
  exact hs

theorem Canon.execFabricSweep {job cls plane others} (hs : Canon s) : CanonOut (execFabricSweep job cls plane others s) := by
  unfold Machine.execFabricSweep
  dsimp only
  split; · exact hs.openClass
  split; · exact hs.of_mem.sweepEnd
  exact hs

theorem Canon.spoilSweeps {plane} (hs : Canon s) : Canon (spoilSweeps s plane) := hs.of_mem

theorem Canon.execWavePortForward {port inbound n} (hs : Canon s) : CanonOut (execWavePortForward port inbound n s) := by
  unfold Machine.execWavePortForward
  extract_lets count
  have counted : ∀ {t m}, Canon t → Canon (count t m) := fun h => h.of_mem.carry
  split
  · next m =>
    extract_lets s' known
    have opened : Canon s' := .ite hs.openClass hs
    exact .ite (counted opened).of_mem opened
  split
  · exact .ite (counted hs).of_mem hs
  exact hs

theorem Canon.vredSums {m} (hs : Canon s) : Canon (vredSums s m).1 :=
  Canon.foldl_fst hs fun _ _ h => h.markWrite

theorem Canon.vredStep {m vat} (hs : Canon s) : Canon (vredStep s m vat) := by
  unfold Machine.vredStep
  dsimp only
  split
  · split; · exact hs.vredSums
    exact hs.vredSums.of_mem
  split; · exact hs
  split; · exact hs.markWrite
  exact hs.markWrite.vatDone

theorem Canon.execVredReduce {x} (hs : Canon s) : CanonOut (execVredReduce x s) := by
  unfold Machine.execVredReduce
  dsimp only
  split
  · split; · exact hs.vredStep
    exact hs
  split; · exact hs.of_mem
  exact hs

theorem Canon.execVcmdBank {vat} (hs : Canon s) : CanonOut (execVcmdBank vat s) := by
  unfold Machine.execVcmdBank
  split; · exact hs
  extract_lets w x at_ rows banks s1
  have filled : Canon s1 := hs.foldl fun _ _ hs => hs.foldl fun _ _ hs => hs.markWrite
  exact Canon.ite filled filled.vatDone

theorem Canon.execVatSelfRefreshEntry {vat forced} (hs : Canon s) : CanonOut (execVatSelfRefreshEntry vat forced s) := by
  unfold Machine.execVatSelfRefreshEntry
  split; · exact hs
  exact hs.updVat

theorem Canon.execVatSelfRefreshExit {vat} (hs : Canon s) : CanonOut (execVatSelfRefreshExit vat s) := by
  unfold Machine.execVatSelfRefreshExit
  split; · exact hs
  exact hs.updVat

end Sys2Proof.Machine
end

section
/-!
# Canonical memory (O56): Fabric
-/
-- One theorem at a time: the chain of these lemmas is too long for the threads of an elaborator that runs ahead.
set_option Elab.async false
namespace Sys2Proof.Machine
variable {s t : State}

/-! ## Fabric -/

theorem Canon.sigPage {c va wr} (hs : Canon s) : Canon (eitherState (sigPage s c va wr)) := by
  unfold Machine.sigPage
  dsimp only
  split; · exact hs.userCause
  split
  · split; · exact (hs.coreXlate.snd ‹_›).userCause
    exact hs.coreXlate.snd ‹_›
  · exact (hs.coreXlate.snd ‹_›).userCause
  · exact (hs.coreXlate.snd ‹_›).of_mem.of_mem.updFrag
  · exact (hs.coreXlate.snd ‹_›).endJobAt
  exact (hs.coreXlate.snd ‹_›).endJobAt

theorem Canon.holdNum {sid f c} (hs : Canon s) : Canon (holdNum s sid f c) := by
  unfold Machine.holdNum
  split; · exact hs
  exact hs.updFrag

theorem Canon.sendSig {c p op b} (hs : Canon s) : Canon (sendSig s c p op b) := by
  unfold Machine.sendSig
  dsimp only
  split; · exact hs.sendPkt
  exact hs.sendPkt.carry

theorem Canon.execCsig {h op a b} (hs : Canon s) : CanonOut (execCsig h op a b s) := by
  unfold Machine.execCsig
  dsimp only
  refine hs.issue fun c s hs => ?_
  split; · exact hs.advance
  split; · exact hs.sigPage.inr ‹_›
  split; · exact (hs.sigPage.inl ‹_›).replace
  split; · exact (hs.sigPage.inl ‹_›).endRegion.fst ‹_›
  split; · exact ((hs.sigPage.inl ‹_›).endRegion.fst ‹_›).stay
  split; · exact (((hs.sigPage.inl ‹_›).endRegion.fst ‹_›).foldl fun _ _ hs => hs.trySend).stay
  split; · exact (((hs.sigPage.inl ‹_›).endRegion.fst ‹_›).foldl fun _ _ hs => hs.trySend).holdNum.stay
  exact (((hs.sigPage.inl ‹_›).endRegion.fst ‹_›).foldl fun _ _ hs => hs.trySend).acts.signs.sendSig.doneRgn

theorem Canon.execSwait {h cd d a b} (hs : Canon s) : CanonOut (execSwait h cd d a b s) := by
  unfold Machine.execSwait
  dsimp only
  refine hs.issue fun c s hs => ?_
  split; · exact hs.advance
  split; · exact hs.sigPage.inr ‹_›
  split; · exact (hs.sigPage.inl ‹_›).stay
  exact (hs.sigPage.inl ‹_›).acts.updStrand

theorem Canon.swaitGets {sid f st ord n x} (hs : Canon s) : Canon (swaitGets s sid f st ord n x) := by
  unfold Machine.swaitGets
  dsimp only
  refine Canon.dropRlb ?_
  split; · exact hs.updStrand.unblockRgn
  exact hs.updStrand.unblock

theorem Canon.sigAsk {sid f st fr p} (hs : Canon s) : Canon (sigAsk s sid f st fr p) := by
  unfold Machine.sigAsk
  split; · exact hs.holdNum
  split; · exact hs
  exact hs.updFrag.sendPkt.carry

theorem Canon.sigTry {sid f st fr cd b n p} (hs : Canon s) : Canon (sigTry s sid f st fr cd b n p) := by
  unfold Machine.sigTry
  split
  · exact hs.trySend
  · exact hs
  · exact hs.sigAsk
  split; · exact hs.swaitGets
  exact hs

theorem Canon.execSwaitReread {sid f} (hs : Canon s) : CanonOut (execSwaitReread sid f s) := by
  unfold Machine.execSwaitReread
  split; · exact hs
  split; · exact hs
  split
  · split; · exact hs
    split; · exact hs.abandon
    split; · exact hs.updStrand
    split; · exact hs.sigTry
    split; · exact hs.endRegion.fst ‹_›
    exact (hs.endRegion.fst ‹_›).sigTry
  exact hs

theorem Canon.applyRead {sid f home pa} (hs : Canon s) : Canon (applyRead s sid f home pa) := by
  unfold Machine.applyRead
  dsimp only
  split; · exact hs
  split
  · split
    · split; · exact hs.updFrag.swaitGets
      exact hs.updFrag
    exact hs.updFrag
  exact hs

theorem Canon.denyPkt {k} (hs : Canon s) : Canon (denyPkt s k) := by
  unfold Machine.denyPkt
  exact .ite hs.setCore (hs.foldl fun _ _ hs => hs.endJob)

theorem Canon.applyPkt {k} (hs : Canon s) : Canon (applyPkt s k) := by
  unfold Machine.applyPkt
  dsimp only
  split
  · exact hs.wrMs
  · exact hs.wrMs.rlbAgain
  · exact hs.applyReq
  · exact hs.applyRead
  exact (hs.foldl fun _ _ hs => hs.carry).updCore

theorem Canon.execApply {src dst} (hs : Canon s) : CanonOut (execApply src dst s) := by
  unfold Machine.execApply
  dsimp only
  split; · exact hs
  split; · exact hs
  refine Canon.settleTeams ?_
  split; · exact hs.of_mem.applyPkt
  exact hs.of_mem.denyPkt

theorem Canon.execFlitRetry {plane link bad} (hs : Canon s) : CanonOut (execFlitRetry plane link bad s) := by
  unfold Machine.execFlitRetry
  dsimp only
  split; · exact hs
  exact hs.of_mem

theorem Canon.execLinkFailed {plane link lost} (hs : Canon s) : CanonOut (execLinkFailed plane link lost s) := by
  unfold Machine.execLinkFailed
  extract_lets k s0 s1
  have told : Canon s1 := .ite hs.spoilSweeps.event hs.spoilSweeps
  split; · exact hs
  exact told.of_mem

theorem Canon.execModuleDown {dst} (hs : Canon s) : CanonOut (execModuleDown dst s) := by
  unfold Machine.execModuleDown
  dsimp only
  split; · exact hs
  exact ((hs.foldl fun _ _ hs => hs.foldl fun _ _ hs => hs.writeScr).foldl fun _ _ hs => hs.endJob).of_mem

theorem Canon.execBlockedPacket {plane sw port} (hs : Canon s) : CanonOut (execBlockedPacket plane sw port s) := by
  unfold Machine.execBlockedPacket
  dsimp only
  split; · exact hs
  exact hs.of_mem

theorem Canon.execRecoveryToken {plane} (hs : Canon s) : CanonOut (execRecoveryToken plane s) := by
  unfold Machine.execRecoveryToken
  dsimp only
  repeat' split
  all_goals exact hs.of_mem

theorem Canon.collIssue {h a b mk} (hs : Canon s) : CanonOut (collIssue h a b mk s) := by
  unfold Machine.collIssue
  dsimp only
  refine hs.issue fun c s hs => ?_
  split; · exact hs.advance
  split; · exact hs.endRegion.fst ‹_›
  split; · exact (hs.endRegion.fst ‹_›).stay
  exact (hs.endRegion.fst ‹_›).sends.waitCmd

theorem Canon.collPages {d asid bad cause x} (hs : Canon s) : Canon (collPages s d asid bad cause x).1 := by
  induction x generalizing s with
  | nil => exact hs
  | cons r rest ih =>
    obtain ⟨va, len, wr⟩ := r
    have pages : CanonBoth (if len = 0 then .inl (s, []) else Machine.pagesGo s (4096 + d) asid (va + len) (len / 4096 + 2) va) := .ite hs hs.pagesGo
    unfold Machine.collPages
    split
    · next e => exact pages.inr e
    · next e => exact pages.inr e
    · next _ _ e => exact pages.inr e
    next e =>
    split; · exact pages.inl e
    split
    · next e2 => exact (ih (pages.inl e)).fst e2
    exact ih (pages.inl e)

theorem Canon.acceptColl {d sid f st r q} (hs : Canon s) : Canon (acceptColl s d sid f st r q).1 := by
  unfold Machine.acceptColl
  split
  extract_lets size b asid xb list
  refine .ite_fst hs (.ite_fst hs (.ite_fst hs ?_))
  split
  · next e => exact hs.collPages.fst e
  next e =>
  have listed := hs.collPages.fst e
  refine .ite_fst listed ?_
  split
  · next e2 => exact listed.collPages.fst e2
  next e2 =>
  have paged := listed.collPages.fst e2
  refine .ite_fst paged ?_
  refine Canon.updDie ?_
  split; · exact paged.xbUpdate
  exact paged

theorem Canon.execCollAccept {die} (hs : Canon s) : CanonOut (execCollAccept die s) := by
  unfold Machine.execCollAccept
  split; · exact hs
  split; · exact hs
  split; · exact hs
  split; · exact hs
  split
  · exact (hs.acceptColl.fst ‹_›).unblockRgn
  · exact (hs.acceptColl.fst ‹_›).addFault
  · exact (hs.acceptColl.fst ‹_›).endJobAt
  exact (hs.acceptColl.fst ‹_›).updFrag.raiseUser

theorem Canon.updColl {d c} (hs : Canon s) : Canon (updColl s d c) := hs.of_mem

theorem Canon.dropColl {d id} (hs : Canon s) : Canon (dropColl s d id) := hs.of_mem

theorem Canon.writeStat {c cause} (hs : Canon s) : Canon (writeStat s c cause) := hs.of_mem

theorem Canon.collFail {d c cause} (hs : Canon s) : Canon (collFail s d c cause) := by
  unfold Machine.collFail
  dsimp only
  split; · exact hs
  split
  · refine Canon.holdInt ?_
    split; · exact hs.dropColl.writeStat.xbUpdate
    exact hs.dropColl.writeStat.xbWake
  refine Canon.endJob ?_
  split; · exact hs.dropColl.writeStat.xbUpdate
  exact hs.dropColl.writeStat.xbWake

theorem Canon.execCollDigestCompare {job gid others} (hs : Canon s) : CanonOut (execCollDigestCompare job gid others s) := by
  unfold Machine.execCollDigestCompare
  split; · exact hs
  split; · exact hs
  split; · exact hs.collFail
  exact hs.updColl

theorem Canon.collRead {d c va n} (hs : Canon s) : Canon (collRead s d c va n).1 := by
  unfold Machine.collRead
  split <;> exact hs.collPages.fst ‹_›

theorem Canon.collWrite {d c va bs} (hs : Canon s) : Canon (collWrite s d c va bs).1 := by
  unfold Machine.collWrite
  dsimp only
  split; · exact hs.collPages.fst ‹_›
  split; · exact hs.collPages.fst ‹_›
  exact ((hs.collPages.fst ‹_›).astDet.left ‹_›).wrMs

theorem Canon.collWrites {d c x} (hs : Canon s) : Canon (collWrites s d c x).1 := by
  induction x generalizing s with
  | nil => exact hs
  | cons w rest ih =>
    obtain ⟨va, bs⟩ := w
    have written : Canon (if bs.isEmpty then (s, none) else Machine.collWrite s d c va bs).1 := .ite_fst hs hs.collWrite
    unfold Machine.collWrites
    split
    · next e => exact ih (written.fst e)
    exact written

theorem Canon.collStop {d c e} (hs : Canon s) : Canon (collStop s d c e) := by
  unfold Machine.collStop
  split
  · exact hs.addFault
  · split; · exact hs.endJob
    exact hs.collFail
  · exact hs.collFail
  exact hs.endJob

theorem Canon.collCarry {c ks} (hs : Canon s) : Canon (collCarry s c ks) := by
  unfold Machine.collCarry
  split; · exact hs
  exact hs.foldl fun _ _ hs => hs.carry

theorem Canon.execCollCombine {job gid others} (hs : Canon s) : CanonOut (execCollCombine job gid others s) := by
  unfold Machine.execCollCombine
  split; · exact hs
  next d c _ =>
  extract_lets b me src given
  split; · exact hs
  have read : Canon (if collReads b me then Machine.collRead s d c (blkN b 16 8) (collSrcLen b) else (s, .inl [])).1 := .ite_fst hs.collRead hs
  split
  · next e => exact (read.fst e).collStop
  next e =>
  split
  split
  · next e2 => exact ((read.fst e).collWrites.fst e2).collStop
  next e2 =>
  have written := (read.fst e).collWrites.fst e2
  split
  · exact Canon.ite written.updColl.collCarry written.updColl.collCarry.xbUpdate
  exact written.updColl.collCarry

theorem Canon.dropNamed {d c} (hs : Canon s) : Canon (dropNamed s d c) := hs.of_mem

theorem Canon.execCollComplete {job gid done} (hs : Canon s) : CanonOut (execCollComplete job gid done s) := by
  unfold Machine.execCollComplete
  dsimp only
  split; · exact hs
  split; · exact hs
  split
  · refine Canon.holdInt ?_
    split; · exact hs.dropColl.dropNamed.writeStat.xbUpdate
    exact hs.dropColl.dropNamed.writeStat.xbWake
  split; · exact hs.dropColl.dropNamed.writeStat.xbUpdate
  exact hs.dropColl.dropNamed.writeStat.xbWake

theorem Canon.execCouchAssign {job gid others} (hs : Canon s) : CanonOut (execCouchAssign job gid others s) := by
  unfold Machine.execCouchAssign
  dsimp only
  split; · exact hs
  split; · exact hs
  split; · exact (hs.collRead.fst ‹_›).collStop
  split; · exact ((hs.collRead.fst ‹_›).collWrites.fst ‹_›).collStop
  split; · exact ((hs.collRead.fst ‹_›).collWrites.fst ‹_›).writeScr.updColl.collCarry.xbUpdate
  exact ((hs.collRead.fst ‹_›).collWrites.fst ‹_›).writeScr.updColl.collCarry

end Sys2Proof.Machine
end

section
/-!
# Canonical memory (O56): Fetch, Lanes and Launch
-/
-- One theorem at a time: the chain of these lemmas is too long for the threads of an elaborator that runs ahead.
set_option Elab.async false
namespace Sys2Proof.Machine
variable {s t : State}

/-! ## Fetch -/

theorem Canon.fetchXlate {c asid pc} (hs : Canon s) : Canon (fetchXlate s c asid pc).2 := by
  unfold Machine.fetchXlate
  split
  · split; · exact (hs.dieXlate.snd ‹_›).dieXlate.snd ‹_›
    exact (hs.dieXlate.snd ‹_›).dieXlate
  exact hs.dieXlate

theorem Canon.stopFetch {sid f va st} (hs : Canon s) : Canon (stopFetch s sid f va st) := hs.of_mem

theorem Canon.fetch {sid f} (hs : Canon s) : CanonFetched (fetch s sid f) := by
  unfold Machine.fetch
  split; · exact hs.of_mem
  split
  · extract_lets s0
    have s0canon : Canon s0 := hs.of_mem
    split; · exact s0canon.endJobAt
    split
    · next e => exact (hs.fetchXlate.snd e).of_mem.stopFetch
    · next e => exact (hs.fetchXlate.snd e).of_mem.endJobAt
    · next e =>
      have fetched := hs.fetchXlate.snd e
      split; · exact fetched.of_mem.endJobAt
      split
      · exact fetched
      all_goals exact fetched.of_mem.raiseUser
    · next e => exact (hs.fetchXlate.snd e).of_mem.endJobAt
  exact hs.of_mem

/-! ## Lanes -/

theorem Canon.enter {sid} (hs : Canon s) : Canon (enter s sid) := hs.of_mem

theorem Canon.setQueue {c lane q} (hs : Canon s) : Canon (setQueue s c lane q) := hs.of_mem

theorem Canon.poolIdle {c lane} (hs : Canon s) : Canon (poolIdle s c lane) := by
  unfold Machine.poolIdle
  refine hs.foldl fun _ _ hs => ?_
  split; · exact hs.updStrand
  exact hs

theorem Canon.execActiveSetEntry {c lane} (hs : Canon s) : CanonOut (execActiveSetEntry c lane s) := by
  unfold Machine.execActiveSetEntry
  split; · exact hs
  split; · exact hs.setQueue.poolIdle.enter
  exact hs

theorem Canon.execActiveSetDisplacement {c lane} (hs : Canon s) : CanonOut (execActiveSetDisplacement c lane s) := by
  unfold Machine.execActiveSetDisplacement
  dsimp only
  split
  · split; · exact hs.setQueue.updCore.updStrand.enter
    exact hs
  exact hs

theorem Canon.tickWindow {c} (hs : Canon s) : Canon (tickWindow s c) := by
  unfold Machine.tickWindow
  dsimp only
  exact (hs.of_mem.setCore.foldl fun _ _ hs => hs.trapsReady).foldl fun _ _ hs => hs.tbarTry

theorem Canon.execTimingReplay {c} (hs : Canon s) : CanonOut (execTimingReplay c s) := by
  unfold Machine.execTimingReplay
  dsimp only
  split; · exact hs
  exact hs.of_mem

theorem Canon.passLane {c} (hs : Canon s) : Canon (passLane s c) := by
  unfold Machine.passLane
  dsimp only
  split; · exact hs.of_mem
  exact hs.updCore

theorem Canon.execIssueSelect {c} (hs : Canon s) : CanonOut (execIssueSelect c s) := by
  unfold Machine.execIssueSelect
  dsimp only
  split; · exact hs
  split; · exact hs.tickWindow
  split; · exact hs.of_mem.passLane
  exact hs.passLane

theorem Canon.execTrapwaitRetry {sid f} (hs : Canon s) : CanonOut (execTrapwaitRetry sid f s) := by
  unfold Machine.execTrapwaitRetry
  dsimp only
  split; · exact hs
  split; · exact hs
  split; · exact hs.updFrag.passLane.of_mem
  exact hs

theorem Canon.execUserInterrupt {sid} (hs : Canon s) : CanonOut (execUserInterrupt sid s) := by
  unfold Machine.execUserInterrupt
  dsimp only
  split; · exact hs
  split; · exact hs
  split; · exact hs.updStrand
  split; · exact hs
  split; · exact hs
  refine Canon.dropRlb ?_
  refine Canon.enterHandler ?_
  split; · exact hs.abandon
  exact hs

theorem Canon.execSleepExpire {sid f} (hs : Canon s) : CanonOut (execSleepExpire sid f s) := by
  unfold Machine.execSleepExpire
  split
  · split; · exact hs.unblock
    exact hs
  exact hs

theorem Canon.execThreadDead {sid t} (hs : Canon s) : CanonOut (execThreadDead sid t s) := by
  unfold Machine.execThreadDead
  dsimp only
  split; · exact hs
  split; · exact hs
  exact hs.killThreads

theorem Canon.execFetchFault {sid f} (hs : Canon s) : CanonOut (execFetchFault sid f s) := by
  unfold Machine.execFetchFault
  split
  · split; · exact hs
    split; · exact (hs.fetchXlate.snd ‹_›).stopFetch
    exact hs
  exact hs

/-! ## Launch -/

theorem Canon.wrHost {pasid addr bs} (hs : Canon s) : Canon (wrHost s pasid addr bs) := hs.of_mem

theorem Canon.updQueue {k g} (hs : Canon s) : Canon (State.updQueue s k g) := hs.of_mem

theorem Canon.execSqtail {fn q v host} (hs : Canon s) : CanonOut (execSqtail fn q v host s) := by
  have put : ∀ p : Nat, Canon { s with host := { s.host with mem := host.foldl (fun m e => spPut m (hostKey p e.1) e.2) s.host.mem } } :=
    fun _ => hs.of_mem
  unfold Machine.execSqtail
  exact .ite ((put _).regWrite fun _ h => h.updQueue) (put _)

theorem Canon.execCqhead {fn q v} (hs : Canon s) : CanonOut (execCqhead fn q v s) := by
  unfold Machine.execCqhead
  exact .ite (hs.regWrite fun _ h => h.updQueue) hs

theorem Canon.execEnable {fn q v} (hs : Canon s) : CanonOut (execEnable fn q v s) := by
  unfold Machine.execEnable
  exact .ite hs (hs.regWrite fun _ h => h.updQueue)

theorem Canon.askXlate {pasid} (hs : Canon s) : Canon (askXlate s pasid) := hs.of_mem

theorem Canon.pushCompl {k c} (hs : Canon s) : Canon (pushCompl s k c) := by
  unfold Machine.pushCompl
  split; · exact hs
  exact hs.updQueue

theorem Canon.finishEntry {k e status kind} (hs : Canon s) : Canon (finishEntry s k e status kind) := by
  unfold Machine.finishEntry
  exact hs.updQueue.pushCompl

theorem Canon.execQueueFetch {fn q} (hs : Canon s) : CanonOut (execQueueFetch fn q s) := by
  unfold Machine.execQueueFetch
  dsimp only
  split; · exact hs
  exact hs.askXlate.updQueue

theorem Canon.fetchEntry {k} (hs : Canon s) : Canon (fetchEntry s k) := by
  unfold Machine.fetchEntry
  dsimp only
  split; · exact hs.updQueue.finishEntry
  exact hs.updQueue

theorem Canon.execTranslationResponse {pasid} (hs : Canon s) : CanonOut (execTranslationResponse pasid s) := by
  unfold Machine.execTranslationResponse
  dsimp only
  split
  · split; · exact hs.of_mem
    split; · exact hs.of_mem.updQueue
    exact hs.of_mem.fetchEntry
  exact hs

theorem Canon.execNopEntry {fn q} (hs : Canon s) : CanonOut (execNopEntry fn q s) := by
  unfold Machine.execNopEntry
  split; · exact hs
  exact hs.finishEntry

theorem Canon.clearRange {asid lo hi} (hs : Canon s) : Canon (clearRange s asid lo hi) := by
  unfold Machine.clearRange
  exact .ite hs (memory_wf_foldl (fun _ _ h => memory_wf_clearCells _ _ h) _ _ hs)

theorem Canon.clearWindow {asid nw lo hi elo ehi w} (hs : Canon s) : Canon (clearWindow s asid nw lo hi elo ehi w) := by
  unfold Machine.clearWindow
  dsimp only
  split; · exact hs
  refine hs.of_mem.foldl fun _ _ hs => ?_
  split; · exact hs.clearRange
  exact hs.clearRange.clearRange

theorem Canon.startCharge {k} (hs : Canon s) : Canon (startCharge s k) := by
  unfold Machine.startCharge
  dsimp only
  split; · exact hs
  split; · exact hs
  exact hs.updQueue

theorem Canon.acceptLaunch {user fn q job asid e head d im mset} (hs : Canon s) : Canon (acceptLaunch s user fn q job asid e head d im mset) := by
  unfold Machine.acceptLaunch
  dsimp only
  exact hs.startCharge.of_mem.clearWindow

theorem Canon.hartLaunch {job d} (hs : Canon s) : Canon (hartLaunch s job d) := by
  unfold Machine.hartLaunch
  split; · exact hs
  split
  · split; · exact hs
    exact hs.acceptLaunch
  exact hs

theorem Canon.execLaunch {who q job asid} (hs : Canon s) : CanonOut (execLaunch who q job asid s) := by
  unfold Machine.execLaunch
  split
  · exact Canon.ite hs.hartLaunch hs
  dsimp only
  split; · exact hs
  split; · exact hs.finishEntry
  refine .ite hs ?_
  split
  · split; · exact hs.finishEntry
    refine Canon.acceptLaunch ?_
    exact hs.of_mem
  refine Canon.finishEntry ?_
  split; · exact hs.hartDenied
  exact hs

theorem Canon.markCow {asid va} (hs : Canon s) : Canon (markCow s asid va).1 := by
  have marked : ∀ as : List Nat, Canon { s with mem := as.foldl (fun m a => spPut m a (rdM1 m a &&& 0xFE#8)) s.mem } :=
    fun as => memory_wf_foldl (fun _ _ h => memory_wf_spPut _ _ h) as _ hs
  unfold Machine.markCow
  dsimp only
  split
  · split; · exact hs.hartDenied
    exact (marked _).startTinv
  exact hs

theorem Canon.markCows {asid x} (hs : Canon s) : Canon (markCows s asid x).1 := by
  induction x generalizing s with
  | nil => exact hs
  | cons va vs ih => exact ih hs.markCow

theorem Canon.setSnap {p n} (hs : Canon s) : Canon (setSnap s p n) := hs.of_mem

theorem Canon.execSnapshot {fn q} (hs : Canon s) : CanonOut (execSnapshot fn q s) := by
  unfold Machine.execSnapshot
  dsimp only
  split; · exact hs
  split; · exact hs.finishEntry
  split; · exact hs.finishEntry
  exact hs.markCows.setSnap.finishEntry

theorem Canon.execCommit {fn q} (hs : Canon s) : CanonOut (execCommit fn q s) := by
  unfold Machine.execCommit
  dsimp only
  split; · exact hs
  split; · exact hs.finishEntry
  exact hs.setSnap.hartWrite.finishEntry

theorem Canon.execBill {fn q} (hs : Canon s) : CanonOut (execBill fn q s) := by
  unfold Machine.execBill
  dsimp only
  split; · exact hs
  split; · exact hs.finishEntry
  exact hs.of_mem.wrHost.finishEntry

theorem Canon.writeEntry {k value tag head status} (hs : Canon s) : Canon (writeEntry s k value tag head status) := by
  rw [Machine.writeEntry]
  exact Canon.updQueue hs.wrHost

theorem Canon.execCompletionWrite {fn q} (hs : Canon s) : CanonOut (execCompletionWrite fn q s) := by
  unfold Machine.execCompletionWrite
  extract_lets k x
  split; · exact hs
  extract_lets s1 s2
  have told : Canon s2 := Canon.updQueue hs.writeEntry
  clear_value s2
  split
  · exact told.updQueue
  · rename_i s3 _ _ _ _
    have out : Canon s3 := told.updQueue
    clear_value s3
    exact out.of_mem
  extract_lets s3 waits
  have twice : Canon s3 := told.writeEntry
  clear_value s3
  exact CanonOut.ite twice.unblock twice

theorem Canon.jobGone {j jb} (hs : Canon s) : Canon (jobGone s j jb) := by
  unfold Machine.jobGone
  dsimp only
  exact hs.clearWindow.of_mem

theorem Canon.execJobEnd {job} (hs : Canon s) : CanonOut (execJobEnd job s) := by
  unfold Machine.execJobEnd
  dsimp only
  split; · exact hs
  split; · exact hs
  split; · exact hs.of_mem.updJob
  split; · exact hs
  split; · exact hs.jobGone
  exact hs.jobGone.pushCompl

end Sys2Proof.Machine
end

section
/-!
# Canonical memory (O56): Place, Host and System
-/
-- One theorem at a time: the chain of these lemmas is too long for the threads of an elaborator that runs ahead.
set_option Elab.async false
namespace Sys2Proof.Machine
variable {s t : State}

/-- So is that of what takes a batch's locks again, or what stops on a page of one. -/
def CanonSeat : State ⊕ (State × Nat × XRes) → Prop
  | .inl s => Canon s
  | .inr x => Canon x.1

theorem CanonSeat.left {x : State ⊕ (State × Nat × XRes)} (h : CanonSeat x) (e : x = .inl t) : Canon t := by subst e; exact h
theorem CanonSeat.fault {x : State ⊕ (State × Nat × XRes)} {b : Nat × XRes} (h : CanonSeat x) (e : x = .inr (t, b)) : Canon t := by subst e; exact h

/-- So is that of what takes its locks again, where there is room for them. -/
def CanonRelock : State ⊕ Option (State × Nat × XRes) → Prop
  | .inl s => Canon s
  | .inr (some x) => Canon x.1
  | .inr none => True

theorem CanonRelock.left {x : State ⊕ Option (State × Nat × XRes)} (h : CanonRelock x) (e : x = .inl t) : Canon t := by subst e; exact h
theorem CanonRelock.fault {x : State ⊕ Option (State × Nat × XRes)} {b : Nat × XRes} (h : CanonRelock x) (e : x = .inr (some (t, b))) : Canon t := by
  subst e; exact h

/-- So is that of what makes a page resident. -/
def CanonServed : Served → Prop
  | .done s => Canon s
  | .refused s => Canon s
  | .wait => True

theorem CanonServed.done {x : Served} (h : CanonServed x) (e : x = .done t) : Canon t := by subst e; exact h
theorem CanonServed.refused {x : Served} (h : CanonServed x) (e : x = .refused t) : Canon t := by subst e; exact h

theorem memory_wf_copyFrame {m : List Host.Cell} (old new size : Nat) (h : Memory.wf m = true) : Memory.wf (copyFrame m old new size) = true :=
  memory_wf_foldl (fun _ _ h => memory_wf_spPut _ _ h) _ _ (memory_wf_clearCells _ _ h)

/-! ## Place -/

theorem Canon.writePart {c part} (hs : Canon s) : Canon (writePart s c part) := hs.of_mem

theorem Canon.placeArea {job c tsave ptes} (hs : Canon s) : Canon (placeArea s job c tsave ptes) := by
  unfold Machine.placeArea
  dsimp only
  split; · exact hs.foldl fun _ _ hs => hs.hartWrite
  exact (hs.foldl fun _ _ hs => hs.hartWrite).updJob

theorem Canon.placeBatch {key l c write tsave ptes} (hs : Canon s) : Canon (placeBatch s key l c write tsave ptes) := by
  have ready : Canon (if write then Machine.writePart s c l.part else s) := .ite hs.writePart hs
  have ticked := (ready.placeArea (job := l.job) (c := c) (tsave := tsave) (ptes := ptes)).tick.tick
  unfold Machine.placeBatch
  dsimp only
  split; · exact ready
  exact Canon.updDie (Canon.addSlot ticked.of_mem)

theorem Canon.execFairSharePlace {die tsave ptes} (hs : Canon s) : CanonOut (execFairSharePlace die tsave ptes s) := by
  unfold Machine.execFairSharePlace
  split
  · split; · exact hs.placeBatch
    exact hs
  exact hs

theorem Canon.execBatchPlace {launch c tsave ptes} (hs : Canon s) : CanonOut (execBatchPlace launch c tsave ptes s) := by
  unfold Machine.execBatchPlace
  split
  · split; · exact hs.placeBatch
    exact hs
  exact hs

theorem Canon.execPartitionWordWrite {c w} (hs : Canon s) : CanonOut (execPartitionWordWrite c w s) := by
  unfold Machine.execPartitionWordWrite
  split; · exact hs
  exact hs.regWrite fun _ h => .ite h.writePart h.event

theorem Canon.detach {tk sid} (hs : Canon s) : Canon (detach s tk sid) := by
  unfold Machine.detach
  split
  · split; · exact hs
    split; · exact hs
    extract_lets s1 k dec s2
    have left : Canon s1 := .ite hs hs.updCore
    exact .ite left left.of_mem
  exact hs

theorem Canon.saveStrand {sid} (hs : Canon s) : Canon (saveStrand s sid) := by
  unfold Machine.saveStrand
  dsimp only
  split; · exact hs
  split; · exact hs.updStrand
  split; · exact (hs.foldl fun _ _ hs => hs.detach).updStrand
  exact hs.endJob

theorem Canon.execBatchSave {batch} (hs : Canon s) : CanonOut (execBatchSave batch s) := by
  unfold Machine.execBatchSave
  split; · exact hs
  extract_lets live ready s0 x qs s1 s2 s3 tks
  split; · exact hs
  have saved : Canon s1 := hs.chargeBatch.foldl fun _ _ hs => hs.saveStrand
  have freed : Canon s3 := saved.of_mem
  exact freed.foldl fun _ _ hs => hs.teamPrune.topCheck

theorem Canon.relock {c bid x} (hs : Canon s) : CanonRelock (relock s c bid x) := by
  induction x generalizing s with
  | nil => exact hs
  | cons r rs ih =>
    unfold Machine.relock
    split
    · next e => exact hs.pagesGo.inr e
    next e =>
    dsimp only
    split; · exact trivial
    exact ih (hs.pagesGo.inl e).setCore

theorem Canon.rejoin {c sid} (hs : Canon s) : Canon (rejoin s c sid) := by
  unfold Machine.rejoin
  split; · exact hs
  refine (hs.foldl fun s e hs => ?_).foldl fun s e hs => ?_
  · dsimp only
    split; · exact hs
    split; · exact hs.addSlot.teamSpread
    split; · exact hs.addSlot.teamSpread
    exact hs.addSlot.teamSpread.updCore.topCheck
  split
  · split
    · exact .ite hs.unblockRgn.dropRlb hs.unblockRgn
    exact hs
  · exact hs.unblock.dropRlb
  exact hs

theorem Canon.putArea {sid area} (hs : Canon s) : Canon (putArea s sid area) := by
  unfold Machine.putArea
  split; · exact hs
  split; · exact hs
  split; · exact hs.writeArea
  exact hs.endJob

theorem Canon.seatAll {c x} (hs : Canon s) : Canon (seatAll s c x) := by
  induction x generalizing s with
  | nil => exact hs
  | cons sid sids ih =>
    unfold Machine.seatAll
    split; · exact ih hs
    split; · exact ih hs
    exact ih hs.updStrand.putArea.rejoin

theorem Canon.recarry {c asid es} (hs : Canon s) : CanonBoth (recarry s c asid es) := by
  induction es generalizing s with
  | nil => exact hs
  | cons e es ih =>
    unfold Machine.recarry
    split
    · split
      · next e1 => exact (ih hs).inl e1
      · next e1 => exact (ih hs).inr e1
    split
    · next e1 =>
      dsimp only
      split
      · next e2 => exact (ih (hs.dieXlate.snd e1)).inl e2
      · next e2 => exact (ih (hs.dieXlate.snd e1)).inr e2
    · next e1 => exact hs.dieXlate.snd e1

theorem Canon.recarryAll {c asid sids} (hs : Canon s) : CanonSeat (recarryAll s c asid sids) := by
  induction sids generalizing s with
  | nil => exact hs
  | cons sid sids ih =>
    unfold Machine.recarryAll
    split; · exact ih hs
    split
    · next e => exact hs.recarry.inr e
    · next e => exact ih (hs.recarry.inl e).updStrand

theorem Canon.execBatchResume {batch c tsave ptes} (hs : Canon s) : CanonOut (execBatchResume batch c tsave ptes s) := by
  unfold Machine.execBatchResume
  split; · exact hs
  split; · exact hs
  dsimp only
  split; · exact hs
  split
  · exact hs
  · next e =>
    have locked := hs.relock.fault e
    exact Canon.ite (.ite hs locked.of_mem.addFault) locked.endJob
  next e =>
  have locked := hs.relock.left e
  split
  · next e2 =>
    have carried := locked.recarryAll.fault e2
    exact Canon.ite (.ite hs carried.of_mem.addFault) carried.endJob
  next e2 =>
  have carried := locked.recarryAll.left e2
  refine Canon.dropRlb ?_
  refine Canon.seatAll ?_
  refine Canon.updCore ?_
  refine Canon.updBatch ?_
  exact carried.placeArea

theorem Canon.execBatchFlush {batch} (hs : Canon s) : CanonOut (execBatchFlush batch s) := by
  unfold Machine.execBatchFlush
  dsimp only
  split; · exact hs
  next b _ =>
  split; · exact hs
  split; · exact hs.updBatch
  have freed := hs.chargeBatch (b := b)
  exact (Canon.dropTeams freed.of_mem).foldl fun _ _ hs => hs.teamPrune

theorem Canon.execLatencyBoundExpire {launch} (hs : Canon s) : CanonOut (execLatencyBoundExpire launch s) := by
  unfold Machine.execLatencyBoundExpire
  dsimp only
  repeat' split
  all_goals exact hs.of_mem

/-! ## Host -/

theorem Canon.makeResident {pf ws} (hs : Canon s) : CanonServed (makeResident s pf ws) := by
  have written : Canon (ws.foldl (fun s e => Machine.hartWrite s 2 e.1 (leBytes 8 e.2.toNat)) s) := hs.foldl fun _ _ hs => hs.hartWrite
  unfold Machine.makeResident
  dsimp only
  split
  · split; · exact written
    split; · exact trivial
    split; · exact hs.hartDenied
    split; · exact hs.hartDenied
    exact memory_wf_copyFrame _ _ _ written
  · exact written
  exact trivial

theorem Canon.wakeFault {sid f n} (hs : Canon s) : Canon (wakeFault s sid f n) := by
  unfold Machine.wakeFault
  dsimp only
  split; · exact hs.ready
  exact hs

theorem Canon.resolved {n pf} (hs : Canon s) : Canon (resolved s n pf) := by
  unfold Machine.resolved
  dsimp only
  split
  · exact hs
  · exact hs.wakeFault
  · exact hs.wakeFault
  · split; · exact hs.ready.raiseUser
    exact hs
  · exact hs.engUpd
  · exact hs.updDie
  · exact hs
  · exact hs
  · exact hs
  exact hs

theorem Canon.unmappedAt {sid pf} (hs : Canon s) : Canon (unmappedAt s sid pf) := by
  unfold Machine.unmappedAt
  split; · exact hs
  exact hs.endJob

theorem Canon.unmappedCmd {sid f} (hs : Canon s) : Canon (unmappedCmd s sid f) := by
  unfold Machine.unmappedCmd
  exact hs.endJobAt

theorem Canon.unmapped {pf} (hs : Canon s) : Canon (unmapped s pf) := by
  unfold Machine.unmapped
  split
  · exact hs.unmappedAt
  · exact hs.unmappedAt
  · exact hs.unmappedAt
  · exact hs.unmappedAt
  · exact hs.engUpd
  · split; · exact hs.endJob
    exact hs
  · split; · exact hs.markDrop.unmappedCmd
    exact hs
  · split; · exact hs.collFail
    split; · exact hs.unmappedCmd
    exact hs
  · split; · exact hs.heldEnd
    exact hs
  split; · exact hs.endJob
  exact hs

theorem Canon.execPageFaultService {n res} (hs : Canon s) : CanonOut (execPageFaultService n res s) := by
  unfold Machine.execPageFaultService
  split; · exact hs
  split
  · split
    · exact hs
    · next e => exact hs.makeResident.refused e
    next e => exact (hs.makeResident.done e).of_mem.resolved
  exact hs.of_mem.unmapped

theorem Canon.execRegionRestart {sid} (hs : Canon s) : CanonOut (execRegionRestart sid s) := by
  unfold Machine.execRegionRestart
  dsimp only
  split; · exact hs
  split; · exact hs
  refine Canon.joinAll ?_
  refine hs.foldl fun _ _ hs => ?_
  split
  · split; · exact hs.ready
    exact hs
  exact hs

theorem Canon.trapEnd {job k} (hs : Canon s) : Canon (trapEnd s job k) := by
  unfold Machine.trapEnd
  exact hs.updJob.endJob

theorem Canon.execFirmwareTrapService {sid f} (hs : Canon s) : CanonOut (execFirmwareTrapService sid f s) := by
  unfold Machine.execFirmwareTrapService
  dsimp only
  split; · exact hs
  split
  · split; · exact hs.trapEnd
    split
    · split; · exact hs.unblock
      exact hs
    split
    · split; · exact hs
      split
      · split; · exact hs.unblock
        exact hs
      exact hs.updFrag.pushCompl
    exact hs.endJob
  exact hs

theorem Canon.execFirmwareResume {sid f} (hs : Canon s) : CanonOut (execFirmwareResume sid f s) := by
  unfold Machine.execFirmwareResume
  split
  · exact .ite hs.unblock hs
  exact hs

theorem Canon.execDebugResume {sid f endIt} (hs : Canon s) : CanonOut (execDebugResume sid f endIt s) := by
  unfold Machine.execDebugResume
  split
  · split; · exact hs
    split; · exact hs.endJob
    split; · exact hs.unblock
    exact hs
  exact hs

theorem Canon.execMailboxMessage {src dst msg} (hs : Canon s) : CanonOut (execMailboxMessage src dst msg s) := by
  unfold Machine.execMailboxMessage
  refine .ite hs ?_
  split; · exact hs.mailPut
  exact .ite hs hs.mailTake

theorem Canon.tearLaunch {key} (hs : Canon s) : Canon (tearLaunch s key) := by
  unfold Machine.tearLaunch
  split; · exact hs
  split; · exact hs
  exact hs.jobGone.pushCompl

theorem Canon.execPasidTeardown {pasid} (hs : Canon s) : CanonOut (execPasidTeardown pasid s) := by
  unfold Machine.execPasidTeardown
  dsimp only
  split; · exact hs
  split; · exact hs.of_mem
  refine hs.of_mem.foldl fun _ _ hs => ?_
  split; · exact hs.endJob
  exact hs.tearLaunch

theorem Canon.execTeardownTimeout {pasid} (hs : Canon s) : CanonOut (execTeardownTimeout pasid s) := by
  unfold Machine.execTeardownTimeout
  dsimp only
  split; · exact hs
  split
  · split; · exact hs.of_mem.startTinv
    exact hs.of_mem
  split; · exact hs
  exact hs.of_mem

theorem Canon.execAccessTableWrite {unit master win w} (hs : Canon s) : CanonOut (execAccessTableWrite unit master win w s) := by
  unfold Machine.execAccessTableWrite
  dsimp only
  split; · exact hs
  exact hs.of_mem

theorem Canon.execHostAccessDenied {fn unit pa wr} (hs : Canon s) : CanonOut (execHostAccessDenied fn unit pa wr s) := by
  unfold Machine.execHostAccessDenied
  split; · exact hs
  exact hs.hostDenied

theorem Canon.execHostCxlMemAccess {fn unit pa len wr} (hs : Canon s) : CanonOut (execHostCxlMemAccess fn unit pa len wr s) := by
  unfold Machine.execHostCxlMemAccess
  split; · exact hs
  split; · exact hs.hostDenied
  split; · exact hs.wrMN
  exact hs.hostReads

theorem Canon.execHartDenied {hart unit pa wr} (hs : Canon s) : CanonOut (execHartDenied hart unit pa wr s) := by
  unfold Machine.execHartDenied
  split; · exact hs
  exact hs.event

theorem Canon.execModuleReset {recordsOk id} (_ : Canon s) : CanonOut (execModuleReset recordsOk id s) := memory_wf_reset

theorem Canon.setEvtSource {unit n x} (hs : Canon s) : Canon (setEvtSource s unit n x) := by
  unfold Machine.setEvtSource
  dsimp only
  split
  · split; · exact hs.updCore
    exact hs
  split
  · split; · exact hs.updDie
    exact hs
  split
  · split; · exact hs.updVat
    exact hs
  split; · exact hs.of_mem
  exact hs

theorem Canon.regPut {r v} (hs : Canon s) : Canon (regPut r v s) := by
  unfold Machine.regPut
  dsimp only
  split
  · split; · exact hs.updQueue
    exact hs
  · split; · exact hs.updQueue
    exact hs
  · split; · exact hs.updQueue
    exact hs
  · split; · exact hs.updQueue
    exact hs
  · split
    · split; · exact hs.updQueue
      exact hs
    exact hs
  · split; · exact hs.of_mem
    exact hs
  · split; · exact hs.updDie
    exact hs
  · split; · exact hs.of_mem
    exact hs
  · exact hs.setEvtSource
  · exact hs
  split; · exact hs.of_mem
  exact hs

/-! ## System -/

theorem Canon.execTrap {h n} (hs : Canon s) : CanonOut (execTrap h n s) := by
  unfold Machine.execTrap
  dsimp only
  refine hs.issue fun c s hs => ?_
  split; · exact hs.advance
  split; · exact hs.trapOut
  exact hs.log.updFrag

theorem Canon.execEret {h} (hs : Canon s) : CanonOut (execEret h s) := by
  unfold Machine.execEret
  dsimp only
  refine hs.issue fun c s hs => ?_
  split; · exact hs.supOut
  split; · exact hs.updFrag
  exact hs.leaveHandler

theorem Canon.execIret {h} (hs : Canon s) : CanonOut (execIret h s) := by
  unfold Machine.execIret
  refine hs.issue fun c s hs => ?_
  split; · exact hs.supOut
  split; · exact hs.updFrag
  exact hs.leaveHandler

theorem Canon.execSwr {h b64 d a} (hs : Canon s) : CanonOut (execSwr h b64 d a s) := by
  unfold Machine.execSwr
  refine hs.issue fun c s hs => ?_
  split; · exact hs.updStrand.advance
  exact hs.advance

theorem Canon.execSleep {h a} (hs : Canon s) : CanonOut (execSleep h a s) := by
  unfold Machine.execSleep
  dsimp only
  refine hs.issue fun c s hs => ?_
  split; · exact hs.advance
  split; · exact hs.of_mem.advance
  exact hs.updFrag

theorem Canon.execBrk {h n} (hs : Canon s) : CanonOut (execBrk h n s) := by
  unfold Machine.execBrk
  dsimp only
  refine hs.issue fun c s hs => ?_
  split; · exact hs.advance
  exact hs.updFrag.mailPut

end Sys2Proof.Machine
end

section
/-!
# Canonical memory through a step (O56): dispatch, the work the machine finds, and the step
-/
-- One theorem at a time: the chain of these lemmas is too long for the threads of an elaborator that runs ahead.
set_option Elab.async false
namespace Sys2Proof.Machine
variable {s t : State}

/-! ## Dispatch -/

theorem Canon.execXbi {h a b} (hs : Canon s) : CanonOut (execXbi h a b s) :=
  hs.xbOp fun _ _ _ h => h.storeScr.advance

theorem Canon.execXba {h a} (hs : Canon s) : CanonOut (execXba h a s) :=
  hs.xbOp fun _ _ _ h => h.xbUpdate.advance

theorem Canon.execXbe {h a b} (hs : Canon s) : CanonOut (execXbe h a b s) :=
  hs.xbOp fun _ _ _ h => h.xbUpdate.advance

theorem Canon.execXbw {h a b} (hs : Canon s) : CanonOut (execXbw h a b s) :=
  hs.xbOp fun _ _ _ h => .ite h.advance.dropRlb h.updFrag

theorem Canon.execXbt {h d a b} (hs : Canon s) : CanonOut (execXbt h d a b s) := by
  unfold Machine.execXbt
  dsimp only
  refine hs.xbOp fun _ _ _ h => ?_
  exact (Canon.ite h.dropRlb h).updStrand.advance

theorem Canon.execQput {h a b} (hs : Canon s) : CanonOut (execQput h a b s) :=
  hs.queueOp fun _ _ _ h => .ite h.tick.updFrag h.setHwq.advance

theorem Canon.qgetBlock {c h dw ws n} (hs : Canon s) : Canon (execQget.block c h dw ws n s) :=
  hs.tick.updStrand

theorem Canon.execQget {h d a} (hs : Canon s) : CanonOut (execQget h d a s) := by
  unfold Machine.execQget
  dsimp only
  refine hs.queueOp fun c n t ht => ?_
  split
  · exact .ite ht.setHwq.updStrand.advance ht.qgetBlock
  exact ht.qgetBlock

theorem Canon.execTinvRegisterWrite {asid whole base len} (hs : Canon s) : CanonOut (execTinvRegisterWrite asid whole base len s) :=
  hs.regWrite fun _ h => h.startTinv

theorem Canon.execRegisterWrite {r v} (hs : Canon s) : CanonOut (execRegisterWrite r v s) :=
  hs.regWrite fun _ h => h.regPut

/-- Whatever the model executes keeps the memory canonical. -/
theorem Canon.exec {i} (hs : Canon s) : CanonOut (exec i s) := by
  cases i with
  | iadd => exact hs.execIadd
  | isub => exact hs.execIsub
  | imul | imulh | imin | imax =>
    unfold Machine.exec
    simp only [execImul, execImulh, execImin, execImax]
    exact hs.intBin
  | imad | bfi =>
    unfold Machine.exec
    simp only [execImad, execBfi]
    exact hs.intTri
  | iabs | ineg | not | brev =>
    unfold Machine.exec
    simp only [execIabs, execIneg, execNot, execBrev]
    exact hs.bitsUn
  | and | or | xor | andn =>
    unfold Machine.exec
    simp only [execAnd, execOr, execXor, execAndn]
    exact hs.bitsBin
  | shl | shr | sar | rol | bfx =>
    unfold Machine.exec
    simp only [execShl, execShr, execSar, execRol, execBfx]
    exact hs.shiftOp
  | popc | clz | ctz =>
    unfold Machine.exec
    simp only [execPopc, execClz, execCtz]
    exact hs.countOp
  | lea | mov | movi | sel | icmp | ffma | fcmp | fcls | fscl | fdot | cvt | cvts | pack | unpk | qenc | qdec | plop | vany | vall | bcst
  | elect | srd | mmov | mput | mget | mfma | mscl | msqr | mclp | mchk =>
    unfold Machine.exec
    simp only [execLea, execMov, execMovi, execSel, execIcmp, execFfma, execFcmp, execFcls, execFscl, execFdot, execCvt, execCvts, execPack, execUnpk,
      execQenc, execQdec, execPlop, execVany, execVall, execBcst, execElect, execSrd, execMmov, execMput, execMget, execMfma, execMscl,
      execMsqr, execMclp, execMchk]
    exact hs.laneOp
  | fadd | fsub | fmul | fmin | fmax =>
    unfold Machine.exec
    simp only [execFadd, execFsub, execFmul, execFmin, execFmax]
    exact hs.flBin
  | fabs | fneg | frnd | frcp | frsq | fex2 | flg2 =>
    unfold Machine.exec
    simp only [execFabs, execFneg, execFrnd, execFrcp, execFrsq, execFex2, execFlg2]
    exact hs.flUn
  | fsqrt | ftrg | ftnh | ferf | fphi =>
    unfold Machine.exec
    simp only [execFsqrt, execFtrg, execFtnh, execFerf, execFphi]
    exact hs.flUnT
  | fdiv =>
    unfold Machine.exec
    simp only [execFdiv]
    exact hs.laneOpT
  | pmov => exact hs.execPmov
  | ballot => exact hs.execBallot
  | shfl => exact hs.execShfl
  | redx => exact hs.execRedx
  | scan => exact hs.execScan
  | matchx => exact hs.execMatchx
  | bra => exact hs.execBra
  | brx | ret =>
    unfold Machine.exec
    simp only [execBrx, execRet]
    exact hs.branchReg
  | call => exact hs.execCall
  | rcv => exact hs.execRcv
  | exit => exact hs.execExit
  | nop => exact hs.execNop
  | yld => exact hs.execYld
  | trap => exact hs.execTrap
  | eret => exact hs.execEret
  | iret => exact hs.execIret
  | swr => exact hs.execSwr
  | sleep => exact hs.execSleep
  | brk => exact hs.execBrk
  | madd | msub | mmul =>
    unfold Machine.exec
    simp only [execMadd, execMsub, execMmul]
    exact hs.momBin
  | mrlu | mexp | mphi =>
    unfold Machine.exec
    simp only [execMrlu, execMexp, execMphi]
    exact hs.momFunOp
  | lds _ _ sc kd => exact hs.execLds (_sc := sc) (_kd := kd)
  | sts _ _ sc => exact hs.execSts (_sc := sc)
  | ld => exact hs.execLd
  | st => exact hs.execSt
  | ldb => exact hs.execLdb
  | stb => exact hs.execStb
  | pft => exact hs.execPft
  | fence => exact hs.execFence
  | rgn => exact hs.execRgn
  | drel => exact hs.execDrel
  | tlbp => exact hs.execTlbp
  | tlbu => exact hs.execTlbu
  | xprb => exact hs.execXprb
  | tinv => exact hs.execTinv
  | atsAdd | atsMin | atsMax | atsAnd | atsOr | atsXor | atsExch | atsCas =>
    unfold Machine.exec
    simp only [execAtsAdd, execAtsMin, execAtsMax, execAtsAnd, execAtsOr, execAtsXor, execAtsExch, execAtsCas]
    exact hs.atsOp
  | atgAdd | atgMin | atgMax | atgAnd | atgOr | atgXor | atgExch | atgCas =>
    unfold Machine.exec
    simp only [execAtgAdd, execAtgMin, execAtgMax, execAtgAnd, execAtgOr, execAtgXor, execAtgExch, execAtgCas]
    exact hs.atgOp
  | grow => exact hs.execGrow
  | shrk => exact hs.execShrk
  | tjoin => exact hs.execTjoin
  | tleave => exact hs.execTleave
  | tbar => exact hs.execTbar
  | lsyn => exact hs.execLsyn
  | xbi => exact hs.execXbi
  | xba => exact hs.execXba
  | xbe => exact hs.execXbe
  | xbw => exact hs.execXbw
  | xbt => exact hs.execXbt
  | cpy | gth | sct =>
    unfold Machine.exec
    simp only [execCpy, execGth, execSct]
    exact hs.engIssue
  | qput => exact hs.execQput
  | qget => exact hs.execQget
  | mma | mmas | mmam | azro | ald | ast =>
    unfold Machine.exec
    simp only [execMma, execMmas, execMmam, execAzro, execAld, execAst]
    exact hs.matIssue
  | amov => exact hs.execAmov
  | mwt => exact hs.execMwt
  | mkm | mks | mkc | mkp | mkl | mkn | mkr | mkw | mkt | hins | vred | vcmd =>
    unfold Machine.exec
    simp only [execMkm, execMks, execMkc, execMkp, execMkl, execMkn, execMkr, execMkw, execMkt, execHins, execVred, execVcmd]
    exact hs.markOp
  | wopn => exact hs.execWopn
  | wqt => exact hs.execWqt
  | omrk =>
    unfold Machine.exec
    simp only [execOmrk]
    exact hs.markIssue
  | coll | rprt =>
    unfold Machine.exec
    simp only [execColl, execRprt]
    exact hs.collIssue
  | csig => exact hs.execCsig
  | swait => exact hs.execSwait
  | issueSelect => exact hs.execIssueSelect
  | activeSetEntry => exact hs.execActiveSetEntry
  | activeSetDisplacement => exact hs.execActiveSetDisplacement
  | trackedWriteLand => exact hs.execTrackedWriteLand
  | trapwaitRetry => exact hs.execTrapwaitRetry
  | userInterrupt => exact hs.execUserInterrupt
  | threadDead => exact hs.execThreadDead
  | sleepExpire => exact hs.execSleepExpire
  | growGrant => exact hs.execGrowGrant
  | growWaitFail => exact hs.execGrowWaitFail
  | batchPlace => exact hs.execBatchPlace
  | partitionWordWrite => exact hs.execPartitionWordWrite
  | barrierArrivalMsg => exact hs.execBarrierArrivalMsg
  | barrierRelease => exact hs.execBarrierRelease
  | barTimeout => exact hs.execBarTimeout
  | engineQueueAdmit => exact hs.execEngineQueueAdmit
  | engineCommandStart => exact hs.execEngineCommandStart
  | sectorLand => exact hs.execSectorLand
  | engineCommandFault => exact hs.execEngineCommandFault
  | queueWake => exact hs.execQueueWake
  | reservationAdmit => exact hs.execReservationAdmit
  | matrixPassStart => exact hs.execMatrixPassStart
  | tileCommandStart => exact hs.execTileCommandStart
  | matrixRowCommit => exact hs.execMatrixRowCommit
  | matrixPassSuspend => exact hs.execMatrixPassSuspend
  | matrixCommandComplete => exact hs.execMatrixCommandComplete
  | matrixEngineError => exact hs.execMatrixEngineError
  | fetchFault => exact hs.execFetchFault
  | pageFaultService => exact hs.execPageFaultService
  | regionRestart => exact hs.execRegionRestart
  | rsbEntryWait => exact hs.execRsbEntryWait
  | tinvAgentAck => exact hs.execTinvAgentAck
  | tinvRegisterWrite => exact hs.execTinvRegisterWrite
  | timingReplay => exact hs.execTimingReplay
  | screenShadowEnd => exact hs.execScreenShadowEnd
  | drain => exact hs.execDrain
  | propagate => exact hs.execPropagate
  | fill => exact hs.execFill
  | drop => exact hs.execDrop
  | send => exact hs.execSend
  | wcbAgeSend => exact hs.execWcbAgeSend
  | apply => exact hs.execApply
  | transactionAck => exact hs.execTransactionAck
  | markAccept => exact hs.execMarkAccept
  | vatCommandProcess => exact hs.execVatCommandProcess
  | waveMessageConsume => exact hs.execWaveMessageConsume
  | stepClose => exact hs.execStepClose
  | deckleSweep => exact hs.execDeckleSweep
  | fabricSweep => exact hs.execFabricSweep
  | vatSelfRefreshEntry => exact hs.execVatSelfRefreshEntry
  | vatSelfRefreshExit => exact hs.execVatSelfRefreshExit
  | vredReduce => exact hs.execVredReduce
  | vcmdBank => exact hs.execVcmdBank
  | flitRetry => exact hs.execFlitRetry
  | linkFailed => exact hs.execLinkFailed
  | moduleDown => exact hs.execModuleDown
  | blockedPacket => exact hs.execBlockedPacket
  | recoveryToken => exact hs.execRecoveryToken
  | swaitReread => exact hs.execSwaitReread
  | collAccept => exact hs.execCollAccept
  | collDigestCompare => exact hs.execCollDigestCompare
  | collCombine => exact hs.execCollCombine
  | collComplete => exact hs.execCollComplete
  | couchAssign => exact hs.execCouchAssign
  | sqtail => exact hs.execSqtail
  | cqhead => exact hs.execCqhead
  | enable => exact hs.execEnable
  | queueFetch => exact hs.execQueueFetch
  | nopEntry => exact hs.execNopEntry
  | launch => exact hs.execLaunch
  | snapshot => exact hs.execSnapshot
  | commit => exact hs.execCommit
  | bill => exact hs.execBill
  | completionWrite => exact hs.execCompletionWrite
  | jobEnd => exact hs.execJobEnd
  | pasidTeardown => exact hs.execPasidTeardown
  | teardownTimeout => exact hs.execTeardownTimeout
  | fairSharePlace => exact hs.execFairSharePlace
  | latencyBoundExpire => exact hs.execLatencyBoundExpire
  | batchSave => exact hs.execBatchSave
  | batchResume => exact hs.execBatchResume
  | batchFlush => exact hs.execBatchFlush
  | batchDrain =>
    unfold Machine.exec
    simp only [execBatchDrain]
    exact hs.updBatch
  | firmwareTrapService => exact hs.execFirmwareTrapService
  | firmwareResume => exact hs.execFirmwareResume
  | debugResume => exact hs.execDebugResume
  | mailboxMessage => exact hs.execMailboxMessage
  | accessTableWrite => exact hs.execAccessTableWrite
  | hostAccessDenied => exact hs.execHostAccessDenied
  | moduleReset => exact hs.execModuleReset
  | registerWrite => exact hs.execRegisterWrite
  | wavePortForward => exact hs.execWavePortForward
  | hostCxlMemAccess => exact hs.execHostCxlMemAccess
  | translationResponse => exact hs.execTranslationResponse
  | pkgUncorr =>
    unfold Machine.exec
    simp only [execPkgUncorr]
    exact hs.event.foldl fun _ _ hs => hs.endJob
  | hartDenied => exact hs.execHartDenied

/-! ## Sched -/

/-- So does each of the pieces of work that the machine may find to do. -/
def CanonWork (gs : List (State → Out)) : Prop := ∀ g ∈ gs, ∀ t, Canon t → CanonOut (g t)

theorem CanonWork.nil : CanonWork [] := nofun

theorem CanonWork.cons {g : State → Out} {gs : List (State → Out)} (hg : ∀ t, Canon t → CanonOut (g t)) (hgs : CanonWork gs) : CanonWork (g :: gs) :=
  List.forall_mem_cons.2 ⟨hg, hgs⟩

theorem CanonWork.one {g : State → Out} (hg : ∀ t, Canon t → CanonOut (g t)) : CanonWork [g] := .cons hg .nil

theorem CanonWork.append {xs ys : List (State → Out)} (hx : CanonWork xs) (hy : CanonWork ys) : CanonWork (xs ++ ys) :=
  List.forall_mem_append.2 ⟨hx, hy⟩

theorem CanonWork.ite {p : Prop} [Decidable p] {xs ys : List (State → Out)} (hx : CanonWork xs) (hy : CanonWork ys) :
    CanonWork (if p then xs else ys) := by split <;> assumption

theorem CanonWork.map {α : Type} {xs : List α} {f : α → State → Out} (hf : ∀ x t, Canon t → CanonOut (f x t)) : CanonWork (xs.map f) :=
  List.forall_mem_map.2 fun x _ => hf x

theorem CanonWork.flatMap {α : Type} {xs : List α} {f : α → List (State → Out)} (hf : ∀ x, CanonWork (f x)) : CanonWork (xs.flatMap f) := by
  intro g hg
  obtain ⟨x, -, h⟩ := List.mem_flatMap.1 hg
  exact hf x g h

theorem CanonWork.toList {α : Type} {x : Option α} {f : α → State → Out} (hf : ∀ x t, Canon t → CanonOut (f x t)) : CanonWork (x.map f).toList := by
  cases x with
  | none => exact .nil
  | some x => exact .one (hf x)

theorem Canon.firstWork {gs} (hs : Canon s) (hgs : CanonWork gs) : CanonOut (firstWork s gs) := by
  induction gs with
  | nil => exact hs.execIssueSelect
  | cons g gs ih =>
    obtain ⟨hg, rest⟩ := List.forall_mem_cons.1 hgs
    have first := hg s hs
    unfold Machine.firstWork
    split
    · next t e =>
      rw [e] at first
      exact .ite first (ih rest)
    exact ih rest

theorem canonWork_autoStrands : CanonWork (autoStrands s) := by
  unfold autoStrands
  refine .flatMap fun e => .append (.append (.append (.map fun _ _ h => h.execTrackedWriteLand) (.map fun _ _ h => h.execDrain))
    (.ite .nil (.one fun _ h => h.execUserInterrupt))) (.flatMap fun f => ?_)
  split
  · exact .one fun _ h => h.execSleepExpire
  · exact .one fun _ h => h.execSwaitReread
  · exact .one fun _ h => h.execRsbEntryWait
  · exact .one fun _ h => h.execFirmwareTrapService
  · exact .one fun _ h => h.execRegionRestart
  · exact .ite (.one fun _ h => h.execTrapwaitRetry) .nil

theorem canonWork_engine {c : Nat} {q : List EngCmd} :
    CanonWork (q.flatMap fun x => (x.lands.head?.map fun l => execSectorLand c x.id (.land l.n)).toList ++
      [execSectorLand c x.id (.land 0), execEngineCommandFault c x.id]) :=
  .flatMap fun _ => .append (.toList fun _ _ h => h.execSectorLand)
    (.cons (fun _ h => h.execSectorLand) (.one fun _ h => h.execEngineCommandFault))

theorem canonWork_autoCores : CanonWork (autoCores s) := by
  refine .flatMap fun e => .append (.append (.append (.append (.append (.append (.append (.append ?_ canonWork_engine) canonWork_engine)
    (.map fun _ _ h => h.execQueueWake)) (.map fun _ _ h => h.execSend)) (.ite .nil (.one fun _ h => h.execTransactionAck)))
    (.flatMap fun x => .append ?_ ?_)) (.one fun _ h => h.execMarkAccept)) (.flatMap fun l => .ite .nil ?_)
  · exact .cons (fun _ h => h.execGrowGrant) (.cons (fun _ h => h.execGrowWaitFail) (.cons (fun _ h => h.execEngineQueueAdmit)
      (.cons (fun _ h => h.execEngineQueueAdmit) (.cons (fun _ h => h.execEngineCommandStart) (.one fun _ h => h.execEngineCommandStart)))))
  · exact .cons (fun _ h => h.execBarrierRelease) (.one fun _ h => h.execBarrierArrivalMsg)
  · split
    · exact .ite (.one fun _ h => h.execBarTimeout) .nil
    · exact .nil
  · exact .cons (fun _ h => h.execActiveSetEntry) (.one fun _ h => h.execActiveSetDisplacement)

theorem canonWork_autoDies : CanonWork (autoDies s) := by
  refine .flatMap fun e => .append (.append (.append (.append (.toList fun _ _ h => h.execPropagate) (.flatMap fun p => ?_))
    (.one fun _ h => h.execCollAccept)) (.flatMap fun c => ?_)) (.map fun _ _ h => h.execBarrierArrivalMsg)
  · exact .cons (fun _ h => h.execMatrixPassStart) (.cons (fun _ h => h.execTileCommandStart) (.cons (fun _ h => h.execMatrixRowCommit)
      (.cons (fun _ h => h.execMatrixCommandComplete) (.cons (fun _ h => h.execMatrixPassSuspend) (.one fun _ h => h.execMatrixEngineError)))))
  · exact .cons (fun _ h => h.execCollDigestCompare) (.cons (fun _ h => h.execCollCombine)
      (.cons (fun _ h => h.execCouchAssign) (.one fun _ h => h.execCollComplete)))

theorem canonWork_autoPackage : CanonWork (autoPackage s) := by
  refine .append (.append (.append (.append (.append (.map fun _ _ h => h.execReservationAdmit) (.flatMap fun m => .toList fun v t h => ?_))
    (.map fun _ _ h => h.execWaveMessageConsume)) (.flatMap fun k => .append (.toList fun _ _ h => h.execStepClose)
      (.ite (.one fun _ h => h.execDeckleSweep) .nil))) (.map fun _ _ h => h.execApply)) (.flatMap fun _ => .map fun _ _ h => h.execTinvAgentAck)
  split
  · exact h.execVredReduce
  split
  · exact h.execVcmdBank
  · exact h.execVatCommandProcess

theorem canonWork_preempted : CanonWork (s.batches.filterMap fun e => match e.2.pre with
    | some .save => some (execBatchSave e.1)
    | some .flush => some (execBatchFlush e.1)
    | _ => none) := by
  intro g hg
  obtain ⟨e, -, h⟩ := List.mem_filterMap.1 hg
  split at h
  · cases h; exact fun _ h => h.execBatchSave
  · cases h; exact fun _ h => h.execBatchFlush
  · cases h

theorem canonWork_autoHost : CanonWork (autoHost s) := by
  refine .append (.append (.append (.flatMap fun e => ?_) (.map fun _ _ h => h.execJobEnd)) (.map fun _ _ h => h.execTranslationResponse))
    canonWork_preempted
  exact .cons (fun _ h => h.execCompletionWrite) (.cons (fun _ h => h.execNopEntry) (.cons (fun _ h => h.execCommit)
    (.cons (fun _ h => h.execSnapshot) (.cons (fun _ h => h.execBill) (.one fun _ h => h.execQueueFetch)))))

theorem canonWork_autoWork : CanonWork (autoWork s) :=
  .append (.append (.append (.append canonWork_autoStrands canonWork_autoCores) canonWork_autoDies) canonWork_autoPackage) canonWork_autoHost

/-! ## Step -/

theorem Canon.autoStep (hs : Canon s) : CanonOut (autoStep s) := by
  unfold Machine.autoStep
  exact .ite (Canon.firstWork hs.of_mem canonWork_autoWork) (Canon.execIssueSelect hs.of_mem)

theorem Canon.step (hs : Canon s) : CanonOut (step s) := by
  unfold Machine.step
  split
  · next sid f _ =>
    have fetched := hs.fetch (sid := sid) (f := f)
    split
    · next e => rw [e] at fetched; exact Canon.exec fetched
    · next e => rw [e] at fetched; exact fetched
  split
  · exact Canon.exec hs.of_mem
  · exact hs.autoStep

/-- Settles O56: every step executes an instruction or an event, and each of those leaves the memory canonical. -/
theorem memoryStaysCanonical : Obligations.MemoryStaysCanonical := by
  unfold Obligations.MemoryStaysCanonical
  intro s t hs e
  have next := Canon.step (s := s) hs
  rw [e] at next
  exact next

end Sys2Proof.Machine
end
